-- ==== Sys2Proof/Word.lean ====
section
/-! DEFINITION. The word types of the manual (R2: bit 0 is the least significant bit). -/

namespace Sys2Proof

/-- One byte of memory. -/
abbrev Byte := BitVec 8

/-- One lane of a V register, and one instruction word. -/
abbrev Word := BitVec 32

/-- One S register, one system register and one address. -/
abbrev DWord := BitVec 64

/-- A set of lanes of a wave: bit L is lane L. -/
abbrev LaneMask := BitVec 32

end Sys2Proof
end

