-- ==== Sys2Proof/Syntax.lean ====
section
/-! DEFINITION. The instruction type: one constructor for each row of spec/opcode_table.json.
The 212 rows with an encoding (R25, R37, R38) carry the fields of their word under the table's names
(`ea`, `eb` are the E bits of the a and b sources). The three rows IMM, REP and ORD are the SX words of R31 to R33.
The 110 rows without an encoding are the machine's events: steps of engines, homes, schedulers and outside parties.
An event's constructor names the step; what its agent brings with it (listed in its docstring, in the order of the
fields of `EvArgs`) stands in the state's field `ev`. Events never come out of the decoder. -/

namespace Sys2Proof

/-- One constructor per row of the opcode table. -/
inductive Instr where
  /-- VADD (R150). Lane integer add, wrapping modulo 2^32, tag I32. -/
  | vadd (d : BitVec 7) (a : BitVec 7) (b : BitVec 7) (ea : Bool) (eb : Bool)
  /-- VSUB (R150). Lane integer subtract, wrapping, tag I32. -/
  | vsub (d : BitVec 7) (a : BitVec 7) (b : BitVec 7) (ea : Bool) (eb : Bool)
  /-- VMUL (R150). Low 32 bits of the lane integer product. -/
  | vmul (d : BitVec 7) (a : BitVec 7) (b : BitVec 7) (ea : Bool) (eb : Bool)
  /-- VMULH (R150). High 32 bits of the signed 64-bit lane product. -/
  | vmulh (d : BitVec 7) (a : BitVec 7) (b : BitVec 7) (ea : Bool) (eb : Bool)
  /-- VAND (R150). Lane bitwise AND, tag RAW. -/
  | vand (d : BitVec 7) (a : BitVec 7) (b : BitVec 7) (ea : Bool) (eb : Bool)
  /-- VOR (R150). Lane bitwise OR, tag RAW. -/
  | vor (d : BitVec 7) (a : BitVec 7) (b : BitVec 7) (ea : Bool) (eb : Bool)
  /-- VXOR (R150). Lane bitwise XOR, tag RAW. -/
  | vxor (d : BitVec 7) (a : BitVec 7) (b : BitVec 7) (ea : Bool) (eb : Bool)
  /-- VANDN (R150). Lane a AND NOT b, tag RAW. -/
  | vandn (d : BitVec 7) (a : BitVec 7) (b : BitVec 7) (ea : Bool) (eb : Bool)
  /-- VSHL (R150). Lane shift left by b[4:0]. -/
  | vshl (d : BitVec 7) (a : BitVec 7) (b : BitVec 7) (ea : Bool) (eb : Bool)
  /-- VSHR (R150). Lane logical shift right by b[4:0]. -/
  | vshr (d : BitVec 7) (a : BitVec 7) (b : BitVec 7) (ea : Bool) (eb : Bool)
  /-- VSAR (R150). Lane arithmetic shift right by b[4:0]. -/
  | vsar (d : BitVec 7) (a : BitVec 7) (b : BitVec 7) (ea : Bool) (eb : Bool)
  /-- VROT (R150). Lane rotate left by b[4:0]. -/
  | vrot (d : BitVec 7) (a : BitVec 7) (b : BitVec 7) (ea : Bool) (eb : Bool)
  /-- VMIN (R150). Lane signed minimum. -/
  | vmin (d : BitVec 7) (a : BitVec 7) (b : BitVec 7) (ea : Bool) (eb : Bool)
  /-- VMAX (R150). Lane signed maximum. -/
  | vmax (d : BitVec 7) (a : BitVec 7) (b : BitVec 7) (ea : Bool) (eb : Bool)
  /-- VMINU (R150). Lane unsigned minimum. -/
  | vminu (d : BitVec 7) (a : BitVec 7) (b : BitVec 7) (ea : Bool) (eb : Bool)
  /-- VMAXU (R150). Lane unsigned maximum. -/
  | vmaxu (d : BitVec 7) (a : BitVec 7) (b : BitVec 7) (ea : Bool) (eb : Bool)
  /-- VCEQ (R150). Lane integer compare equal, all-ones or zero mask. -/
  | vceq (d : BitVec 7) (a : BitVec 7) (b : BitVec 7) (ea : Bool) (eb : Bool)
  /-- VCNE (R150). Lane integer compare not equal. -/
  | vcne (d : BitVec 7) (a : BitVec 7) (b : BitVec 7) (ea : Bool) (eb : Bool)
  /-- VCLT (R150). Lane signed compare less than. -/
  | vclt (d : BitVec 7) (a : BitVec 7) (b : BitVec 7) (ea : Bool) (eb : Bool)
  /-- VCLTU (R150). Lane unsigned compare less than. -/
  | vcltu (d : BitVec 7) (a : BitVec 7) (b : BitVec 7) (ea : Bool) (eb : Bool)
  /-- VSEL (R150). Lane bitwise select by the old destination mask. -/
  | vsel (d : BitVec 7) (a : BitVec 7) (b : BitVec 7) (ea : Bool) (eb : Bool)
  /-- VABS (R150). Lane integer absolute value. -/
  | vabs (d : BitVec 7) (a : BitVec 7) (ea : Bool)
  /-- VCLZ (R150). Lane count of leading zeros. -/
  | vclz (d : BitVec 7) (a : BitVec 7) (ea : Bool)
  /-- VPOPC (R150). Lane population count. -/
  | vpopc (d : BitVec 7) (a : BitVec 7) (ea : Bool)
  /-- VMAD (R150). Lane integer multiply-add into the destination. -/
  | vmad (d : BitVec 7) (a : BitVec 7) (b : BitVec 7) (ea : Bool) (eb : Bool)
  /-- VDIV (R151). Lane signed division without traps. -/
  | vdiv (d : BitVec 7) (a : BitVec 7) (b : BitVec 7) (ea : Bool) (eb : Bool)
  /-- VDIVU (R151). Lane unsigned division without traps. -/
  | vdivu (d : BitVec 7) (a : BitVec 7) (b : BitVec 7) (ea : Bool) (eb : Bool)
  /-- VREM (R151). Lane signed remainder without traps. -/
  | vrem (d : BitVec 7) (a : BitVec 7) (b : BitVec 7) (ea : Bool) (eb : Bool)
  /-- VADDI (R150). Lane add immediate. -/
  | vaddi (d : BitVec 7) (a : BitVec 7) (i : BitVec 11)
  /-- VANDI (R150). Lane AND immediate. -/
  | vandi (d : BitVec 7) (a : BitVec 7) (i : BitVec 11)
  /-- VORI (R150). Lane OR immediate. -/
  | vori (d : BitVec 7) (a : BitVec 7) (i : BitVec 11)
  /-- VXORI (R150). Lane XOR immediate. -/
  | vxori (d : BitVec 7) (a : BitVec 7) (i : BitVec 11)
  /-- VSHI (R150). Lane shift or rotate by an immediate count of a given kind. -/
  | vshi (d : BitVec 7) (a : BitVec 7) (k : BitVec 2) (n : BitVec 5)
  /-- VMOVI (R150). Lane move immediate, tag I32. -/
  | vmovi (d : BitVec 7) (i : BitVec 11)
  /-- VFADD (R152). Lane FP32 add under RNDMODE. -/
  | vfadd (d : BitVec 7) (a : BitVec 7) (b : BitVec 7) (ea : Bool) (eb : Bool)
  /-- VFSUB (R152). Lane FP32 subtract. -/
  | vfsub (d : BitVec 7) (a : BitVec 7) (b : BitVec 7) (ea : Bool) (eb : Bool)
  /-- VFMUL (R152). Lane FP32 multiply. -/
  | vfmul (d : BitVec 7) (a : BitVec 7) (b : BitVec 7) (ea : Bool) (eb : Bool)
  /-- VFMIN (R154). Lane FP32 minimum with NaN and signed-zero rules. -/
  | vfmin (d : BitVec 7) (a : BitVec 7) (b : BitVec 7) (ea : Bool) (eb : Bool)
  /-- VFMA (R152). Lane FP32 fused multiply-add into the destination. -/
  | vfma (d : BitVec 7) (a : BitVec 7) (b : BitVec 7) (ea : Bool) (eb : Bool)
  /-- VFNMA (R152). Lane FP32 fused z minus a times b. -/
  | vfnma (d : BitVec 7) (a : BitVec 7) (b : BitVec 7) (ea : Bool) (eb : Bool)
  /-- VFMAX (R154). Lane FP32 maximum. -/
  | vfmax (d : BitVec 7) (a : BitVec 7) (b : BitVec 7) (ea : Bool) (eb : Bool)
  /-- VFCPSGN (R152). Lane FP32 copy sign. -/
  | vfcpsgn (d : BitVec 7) (a : BitVec 7) (b : BitVec 7) (ea : Bool) (eb : Bool)
  /-- VFCEQ (R155). Lane FP32 compare equal. -/
  | vfceq (d : BitVec 7) (a : BitVec 7) (b : BitVec 7) (ea : Bool) (eb : Bool)
  /-- VFCLT (R155). Lane FP32 compare less than. -/
  | vfclt (d : BitVec 7) (a : BitVec 7) (b : BitVec 7) (ea : Bool) (eb : Bool)
  /-- VFCLE (R155). Lane FP32 compare less or equal. -/
  | vfcle (d : BitVec 7) (a : BitVec 7) (b : BitVec 7) (ea : Bool) (eb : Bool)
  /-- VFCUN (R155). Lane FP32 unordered test. -/
  | vfcun (d : BitVec 7) (a : BitVec 7) (b : BitVec 7) (ea : Bool) (eb : Bool)
  /-- VDADD (R156). FP64 pair add. -/
  | vdadd (d : BitVec 7) (a : BitVec 7) (b : BitVec 7) (ea : Bool) (eb : Bool)
  /-- VDSUB (R156). FP64 pair subtract. -/
  | vdsub (d : BitVec 7) (a : BitVec 7) (b : BitVec 7) (ea : Bool) (eb : Bool)
  /-- VDMUL (R156). FP64 pair multiply. -/
  | vdmul (d : BitVec 7) (a : BitVec 7) (b : BitVec 7) (ea : Bool) (eb : Bool)
  /-- VDFMA (R156). FP64 pair fused multiply-add. -/
  | vdfma (d : BitVec 7) (a : BitVec 7) (b : BitVec 7) (ea : Bool) (eb : Bool)
  /-- VDMIN (R156). FP64 pair minimum. -/
  | vdmin (d : BitVec 7) (a : BitVec 7) (b : BitVec 7) (ea : Bool) (eb : Bool)
  /-- VDMAX (R156). FP64 pair maximum. -/
  | vdmax (d : BitVec 7) (a : BitVec 7) (b : BitVec 7) (ea : Bool) (eb : Bool)
  /-- VDCEQ (R156). FP64 pair compare equal into one register. -/
  | vdceq (d : BitVec 7) (a : BitVec 7) (b : BitVec 7) (ea : Bool) (eb : Bool)
  /-- VDCLT (R156). FP64 pair compare less than. -/
  | vdclt (d : BitVec 7) (a : BitVec 7) (b : BitVec 7) (ea : Bool) (eb : Bool)
  /-- VHADD (R157). Packed FP16x2 add. -/
  | vhadd (d : BitVec 7) (a : BitVec 7) (b : BitVec 7) (ea : Bool) (eb : Bool)
  /-- VHMUL (R157). Packed FP16x2 multiply. -/
  | vhmul (d : BitVec 7) (a : BitVec 7) (b : BitVec 7) (ea : Bool) (eb : Bool)
  /-- VHFMA (R157). Packed FP16x2 fused multiply-add. -/
  | vhfma (d : BitVec 7) (a : BitVec 7) (b : BitVec 7) (ea : Bool) (eb : Bool)
  /-- VHMAX (R157). Packed FP16x2 maximum. -/
  | vhmax (d : BitVec 7) (a : BitVec 7) (b : BitVec 7) (ea : Bool) (eb : Bool)
  /-- VBADD (R157). Packed BF16x2 add. -/
  | vbadd (d : BitVec 7) (a : BitVec 7) (b : BitVec 7) (ea : Bool) (eb : Bool)
  /-- VBMUL (R157). Packed BF16x2 multiply. -/
  | vbmul (d : BitVec 7) (a : BitVec 7) (b : BitVec 7) (ea : Bool) (eb : Bool)
  /-- VBFMA (R157). Packed BF16x2 fused multiply-add. -/
  | vbfma (d : BitVec 7) (a : BitVec 7) (b : BitVec 7) (ea : Bool) (eb : Bool)
  /-- VBMAX (R157). Packed BF16x2 maximum. -/
  | vbmax (d : BitVec 7) (a : BitVec 7) (b : BitVec 7) (ea : Bool) (eb : Bool)
  /-- VRCP (R158). Lane FP32 reciprocal approximation. -/
  | vrcp (d : BitVec 7) (a : BitVec 7) (ea : Bool)
  /-- VRSQ (R158). Lane FP32 reciprocal square root. -/
  | vrsq (d : BitVec 7) (a : BitVec 7) (ea : Bool)
  /-- VSQRT (R158). Lane FP32 correctly rounded square root. -/
  | vsqrt (d : BitVec 7) (a : BitVec 7) (ea : Bool)
  /-- VEXP2 (R158). Lane FP32 power of two. -/
  | vexp2 (d : BitVec 7) (a : BitVec 7) (ea : Bool)
  /-- VLOG2 (R158). Lane FP32 base-two logarithm. -/
  | vlog2 (d : BitVec 7) (a : BitVec 7) (ea : Bool)
  /-- VSIN (R158). Lane FP32 sine of x turns. -/
  | vsin (d : BitVec 7) (a : BitVec 7) (ea : Bool)
  /-- VCOS (R158). Lane FP32 cosine of x turns. -/
  | vcos (d : BitVec 7) (a : BitVec 7) (ea : Bool)
  /-- VFCLASS (R160). Lane FP32 classification mask. -/
  | vfclass (d : BitVec 7) (a : BitVec 7) (ea : Bool)
  /-- VCVT (R163). Element-wise format conversion under a selector. -/
  | vcvt (d : BitVec 7) (a : BitVec 7) (s : BitVec 7) (ea : Bool)
  /-- VCVTS (R164). Packing or unpacking conversion across registers. -/
  | vcvts (d : BitVec 7) (a : BitVec 7) (s : BitVec 7) (ea : Bool)
  /-- VRETAG (R166). Copy a register and write a new tag. -/
  | vretag (d : BitVec 7) (a : BitVec 7) (c : BitVec 4) (ea : Bool)
  /-- VGETTAG (R167). Read a register's tag code into every lane. -/
  | vgettag (d : BitVec 7) (a : BitVec 7) (ea : Bool)
  /-- VQSWAP (R168). Swap values within a quad by XOR index. -/
  | vqswap (d : BitVec 7) (a : BitVec 7) (k : BitVec 7) (ea : Bool)
  /-- VQBCAST (R168). Broadcast one quad lane to the quad. -/
  | vqbcast (d : BitVec 7) (a : BitVec 7) (j : BitVec 7) (ea : Bool)
  /-- VDDX (R168). Quad horizontal FP32 derivative. -/
  | vddx (d : BitVec 7) (a : BitVec 7) (m : BitVec 7) (ea : Bool)
  /-- VDDY (R168). Quad vertical FP32 derivative. -/
  | vddy (d : BitVec 7) (a : BitVec 7) (m : BitVec 7) (ea : Bool)
  /-- VSHFL (R169). Shuffle lanes by a per-lane source index. -/
  | vshfl (d : BitVec 7) (a : BitVec 7) (b : BitVec 7) (ea : Bool) (eb : Bool)
  /-- VBALLOT (R169). Mask of fragment lanes with a nonzero source. -/
  | vballot (d : BitVec 7) (a : BitVec 7) (ea : Bool)
  /-- VREDUCE (R171). Fixed-tree reduction across the fragment's lanes. -/
  | vreduce (d : BitVec 7) (a : BitVec 7) (o : BitVec 4) (ea : Bool)
  /-- VSCAN (R171). Ascending-lane inclusive or exclusive scan. -/
  | vscan (d : BitVec 7) (a : BitVec 7) (e : Bool) (o : BitVec 4) (ea : Bool)
  /-- VMOVS (R172). Broadcast the low half of an S register to the lanes. -/
  | vmovs (d : BitVec 7) (b : BitVec 7) (eb : Bool)
  /-- VLANEID (R172). Write each lane's index. -/
  | vlaneid (d : BitVec 7)
  /-- VREADLANE (R172). Broadcast one lane's value selected by the lowest lane. -/
  | vreadlane (d : BitVec 7) (a : BitVec 7) (b : BitVec 7) (ea : Bool) (eb : Bool)
  /-- VMARK (R172). Mask of lanes holding an equal value. -/
  | vmark (d : BitVec 7) (a : BitVec 7) (ea : Bool)
  /-- VLD (R274). Lane load from global memory, destination marked empty until it lands. -/
  | vld (d : BitVec 7) (a : BitVec 7) (s : BitVec 5) (k : BitVec 2) (f : BitVec 4)
  /-- VST (R276). Lane store to L1 with ownership registration. -/
  | vst (d : BitVec 7) (a : BitVec 7) (s : BitVec 5) (k : BitVec 2) (f : BitVec 4)
  /-- VLDP (R274). Lane load through the vat or cluster window. -/
  | vldp (d : BitVec 7) (a : BitVec 7) (s : BitVec 5) (k : BitVec 2) (f : BitVec 4)
  /-- VSTP (R276). Lane store through the vat or cluster window. -/
  | vstp (d : BitVec 7) (a : BitVec 7) (s : BitVec 5) (k : BitVec 2) (f : BitVec 4)
  /-- VATOM (R279). Lane 32-bit atomic at the home returning the old value. -/
  | vatom (d : BitVec 7) (a : BitVec 7) (s : BitVec 5) (k : BitVec 2) (f : BitVec 4)
  /-- VRED (R280). Lane atomic without a returned value. -/
  | vred (d : BitVec 7) (a : BitVec 7) (s : BitVec 5) (k : BitVec 2) (f : BitVec 4)
  /-- VATOMX (R282). Registered line routine run in the home wheel's service group. -/
  | vatomx (d : BitVec 7) (a : BitVec 7) (s : BitVec 5) (k : BitVec 2) (n : BitVec 4)
  /-- VPREF (R283). Prefetch or eviction hint per lane. -/
  | vpref (a : BitVec 7) (s : BitVec 5) (k : BitVec 2) (f : BitVec 4)
  /-- VTRACE (R223). Start one ray per lane against a scene, results landing per lane. -/
  | vtrace (d : BitVec 7) (a : BitVec 7) (b : BitVec 7) (ea : Bool) (eb : Bool) (f : BitVec 2)
  /-- VSAMPLE (R227). Filtered texture sample per lane, results landing per lane. -/
  | vsample (d : BitVec 7) (a : BitVec 7) (b : BitVec 7) (ea : Bool) (eb : Bool) (f : BitVec 2)
  /-- VSVC (R113). Batched service call with per-lane replies. -/
  | vsvc (d : BitVec 7) (a : BitVec 7) (b : BitVec 7) (ea : Bool) (eb : Bool)
  /-- VSVCN (R112). Batched service call without a reply. -/
  | vsvcn (a : BitVec 7) (b : BitVec 7) (ea : Bool) (eb : Bool)
  /-- VFWD (R349). Forward per-lane records on channels, waiting for permits. -/
  | vfwd (a : BitVec 7) (b : BitVec 7) (ea : Bool) (eb : Bool)
  /-- VFWDT (R349). Forward per-lane records where permits allow, reporting each lane. -/
  | vfwdt (d : BitVec 7) (a : BitVec 7) (b : BitVec 7) (ea : Bool) (eb : Bool)
  /-- VENTER (R312). Request ordered-section entry per lane and block until granted. -/
  | venter (a : BitVec 7) (b : BitVec 7) (ea : Bool) (eb : Bool)
  /-- VENTERT (R314). One non-queuing attempt per lane to enter a key. -/
  | ventert (d : BitVec 7) (a : BitVec 7) (b : BitVec 7) (ea : Bool) (eb : Bool)
  /-- VLEAVE (R315). Release each lane's key, optionally retiring it. -/
  | vleave (a : BitVec 7) (r : Bool) (ea : Bool)
  /-- VSECQ (R316). Query each key's expected sequence. -/
  | vsecq (d : BitVec 7) (a : BitVec 7) (ea : Bool)
  /-- VBNZ (R92). Per-lane branch when the condition is nonzero. -/
  | vbnz (a : BitVec 7) (p : BitVec 4) (o : BitVec 14)
  /-- VBZ (R92). Per-lane branch when the condition is zero. -/
  | vbz (a : BitVec 7) (p : BitVec 4) (o : BitVec 14)
  /-- VJR (R95). Per-lane indirect jump to a 64-bit pair. -/
  | vjr (a : BitVec 7) (ea : Bool)
  /-- VJALR (R95). Per-lane indirect jump with link. -/
  | vjalr (d : BitVec 7) (a : BitVec 7) (ea : Bool)
  /-- VEXIT (R97). End every lane of the fragment. -/
  | vexit
  /-- VTRAP (R98). Raise USER_TRAP for lanes with a nonzero operand. -/
  | vtrap (a : BitVec 7) (ea : Bool)
  /-- SADD (R173). Uniform 64-bit add. -/
  | sadd (d : BitVec 7) (a : BitVec 7) (b : BitVec 7)
  /-- SSUB (R173). Uniform subtract. -/
  | ssub (d : BitVec 7) (a : BitVec 7) (b : BitVec 7)
  /-- SMUL (R173). Uniform low 64-bit product. -/
  | smul (d : BitVec 7) (a : BitVec 7) (b : BitVec 7)
  /-- SMULH (R173). Uniform high 64 bits of the signed product. -/
  | smulh (d : BitVec 7) (a : BitVec 7) (b : BitVec 7)
  /-- SAND (R173). Uniform AND. -/
  | sand (d : BitVec 7) (a : BitVec 7) (b : BitVec 7)
  /-- SOR (R173). Uniform OR. -/
  | sor (d : BitVec 7) (a : BitVec 7) (b : BitVec 7)
  /-- SXOR (R173). Uniform XOR. -/
  | sxor (d : BitVec 7) (a : BitVec 7) (b : BitVec 7)
  /-- SANDN (R173). Uniform AND NOT. -/
  | sandn (d : BitVec 7) (a : BitVec 7) (b : BitVec 7)
  /-- SSHL (R173). Uniform shift left. -/
  | sshl (d : BitVec 7) (a : BitVec 7) (b : BitVec 7)
  /-- SSHR (R173). Uniform logical shift right. -/
  | sshr (d : BitVec 7) (a : BitVec 7) (b : BitVec 7)
  /-- SSAR (R173). Uniform arithmetic shift right. -/
  | ssar (d : BitVec 7) (a : BitVec 7) (b : BitVec 7)
  /-- SROT (R173). Uniform rotate left. -/
  | srot (d : BitVec 7) (a : BitVec 7) (b : BitVec 7)
  /-- SMIN (R173). Uniform signed minimum. -/
  | smin (d : BitVec 7) (a : BitVec 7) (b : BitVec 7)
  /-- SMAX (R173). Uniform signed maximum. -/
  | smax (d : BitVec 7) (a : BitVec 7) (b : BitVec 7)
  /-- SMINU (R173). Uniform unsigned minimum. -/
  | sminu (d : BitVec 7) (a : BitVec 7) (b : BitVec 7)
  /-- SMAXU (R173). Uniform unsigned maximum. -/
  | smaxu (d : BitVec 7) (a : BitVec 7) (b : BitVec 7)
  /-- SCEQ (R173). Uniform compare equal. -/
  | sceq (d : BitVec 7) (a : BitVec 7) (b : BitVec 7)
  /-- SCNE (R173). Uniform compare not equal. -/
  | scne (d : BitVec 7) (a : BitVec 7) (b : BitVec 7)
  /-- SCLT (R173). Uniform signed compare less than. -/
  | sclt (d : BitVec 7) (a : BitVec 7) (b : BitVec 7)
  /-- SCLTU (R173). Uniform unsigned compare less than. -/
  | scltu (d : BitVec 7) (a : BitVec 7) (b : BitVec 7)
  /-- SSEL (R173). Uniform bitwise select by the old destination. -/
  | ssel (d : BitVec 7) (a : BitVec 7) (b : BitVec 7)
  /-- SCLZ (R173). Uniform count of leading zeros. -/
  | sclz (d : BitVec 7) (a : BitVec 7)
  /-- SPOPC (R173). Uniform population count. -/
  | spopc (d : BitVec 7) (a : BitVec 7)
  /-- SDIVU (R173). Uniform unsigned division. -/
  | sdivu (d : BitVec 7) (a : BitVec 7) (b : BitVec 7)
  /-- SADDI (R173). Uniform add immediate. -/
  | saddi (d : BitVec 7) (a : BitVec 7) (i : BitVec 11)
  /-- SANDI (R173). Uniform AND immediate. -/
  | sandi (d : BitVec 7) (a : BitVec 7) (i : BitVec 11)
  /-- SORI (R173). Uniform OR immediate. -/
  | sori (d : BitVec 7) (a : BitVec 7) (i : BitVec 11)
  /-- SSHI (R173). Uniform shift by an immediate count of a given kind. -/
  | sshi (d : BitVec 7) (a : BitVec 7) (k : BitVec 2) (n : BitVec 6)
  /-- SMOVI (R173). Uniform move of a sign-extended immediate. -/
  | smovi (d : BitVec 7) (i : BitVec 18)
  /-- SFADD (R173). Uniform FP64 add. -/
  | sfadd (d : BitVec 7) (a : BitVec 7) (b : BitVec 7)
  /-- SFMUL (R173). Uniform FP64 multiply. -/
  | sfmul (d : BitVec 7) (a : BitVec 7) (b : BitVec 7)
  /-- SFFMA (R173). Uniform FP64 fused multiply-add. -/
  | sffma (d : BitVec 7) (a : BitVec 7) (b : BitVec 7)
  /-- SFCLT (R173). Uniform FP64 compare less than. -/
  | sfclt (d : BitVec 7) (a : BitVec 7) (b : BitVec 7)
  /-- SLD (R277). Uniform load, destination filled when the bytes land. -/
  | sld (d : BitVec 7) (a : BitVec 7) (i : BitVec 8) (w : BitVec 3)
  /-- SST (R277). Uniform store. -/
  | sst (d : BitVec 7) (a : BitVec 7) (i : BitVec 8) (w : BitVec 3)
  /-- SATOM (R281). Uniform 64-bit atomic at the home. -/
  | satom (d : BitVec 7) (a : BitVec 7) (b : BitVec 7) (f : BitVec 4)
  /-- SBZ (R93). Uniform branch when the S register is zero. -/
  | sbz (a : BitVec 7) (p : BitVec 4) (o : BitVec 14)
  /-- SBNZ (R93). Uniform branch when the S register is nonzero. -/
  | sbnz (a : BitVec 7) (p : BitVec 4) (o : BitVec 14)
  /-- SCALL (R96). Uniform call with link. -/
  | scall (d : BitVec 7) (i : BitVec 18)
  /-- SJR (R96). Uniform indirect jump with link. -/
  | sjr (d : BitVec 7) (a : BitVec 7)
  /-- SEXIT (R97). End every lane of the fragment. -/
  | sexit
  /-- SYIELD (R99). Give up the next issue opportunity. -/
  | syield
  /-- SCONV (R66). Block until every live lane reaches a convergence point. -/
  | sconv
  /-- SFRAG (R101). Read the fragment's live and sibling masks. -/
  | sfrag (d : BitVec 7)
  /-- SLIVE (R101). Read the wave's live mask and frontier data. -/
  | slive (d : BitVec 7)
  /-- BINIT (R289). Release and initialise a barrier object. -/
  | binit (a : BitVec 7) (b : BitVec 7)
  /-- BARRIVE (R290). Release and arrive at a barrier, returning the phase joined. -/
  | barrive (a : BitVec 7) (b : BitVec 7) (c : BitVec 7)
  /-- BARRIVEC (R290). Arrive at a cluster peer's scratchpad barrier. -/
  | barrivec (a : BitVec 7) (b : BitVec 7) (c : BitVec 7)
  /-- BEXPECT (R291). Add a signed byte count to a barrier. -/
  | bexpect (a : BitVec 7) (b : BitVec 7)
  /-- BWAIT (R292). Block until the barrier phase differs, then acquire. -/
  | bwait (a : BitVec 7) (b : BitVec 7)
  /-- BTEST (R294). Read barrier phase and error without waiting. -/
  | btest (a : BitVec 7) (b : BitVec 7) (c : BitVec 7)
  /-- BWATCH (R293). Register a watch on a global barrier. -/
  | bwatch (a : BitVec 7) (b : BitVec 7)
  /-- GRIDBAR (R295). Grid-wide barrier for a co-resident grid. -/
  | gridbar (a : BitVec 7)
  /-- FENCESC (R251). Sequentially consistent fence on the next tick. -/
  | fencesc (a : BitVec 7)
  /-- ACQ (R245). Acquire of a word with surrender and invalidation. -/
  | acq (a : BitVec 7) (b : BitVec 7)
  /-- REL (R243). Deferred release writing a word. -/
  | rel (a : BitVec 7) (b : BitVec 7)
  /-- TOKPASS (R297). Hand a TOKEN object's write token to another core. -/
  | tokpass (a : BitVec 7) (b : BitVec 7)
  /-- TOKREQ (R298). Queue a request for a write token. -/
  | tokreq (a : BitVec 7) (b : BitVec 7)
  /-- SURR (R246). Surrender the core's dirty set on demand. -/
  | surr
  /-- INVAL (R246). Invalidate non-owned L1 words. -/
  | inval
  /-- COPY (R300). Copy-engine command moving bytes. -/
  | copy (a : BitVec 7) (b : BitVec 7) (c : BitVec 7)
  /-- COPYS (R301). Copy-engine shape-to-shape conversion. -/
  | copys (a : BitVec 7) (b : BitVec 7) (c : BitVec 7)
  /-- FILL (R300). Copy-engine fill with a pattern. -/
  | fill (a : BitVec 7) (b : BitVec 7) (c : BitVec 7)
  /-- COPYM (R302). Copy-engine multicast through a table entry. -/
  | copym (a : BitVec 7) (b : BitVec 7) (c : BitVec 7)
  /-- NPUT (R344). Network put to remote memory. -/
  | nput (a : BitVec 7) (b : BitVec 7) (c : BitVec 7)
  /-- NGET (R344). Network get from remote memory. -/
  | nget (a : BitVec 7) (b : BitVec 7) (c : BitVec 7)
  /-- NPOST (R344). Network put with a remote completion arrival. -/
  | npost (a : BitVec 7) (b : BitVec 7) (c : BitVec 7)
  /-- PRESS (R356). Submit a collective record to a press. -/
  | press (a : BitVec 7) (b : BitVec 7) (c : BitVec 7)
  /-- MTCFG (R182). Shape a tile register. -/
  | mtcfg (a : BitVec 7) (t : BitVec 4)
  /-- MZERO (R183). Zero a tile. -/
  | mzero (t : BitVec 4)
  /-- MLDW (R190). Load a stationary block into the shadow plane. -/
  | mldw (a : BitVec 7) (b : BitVec 7) (c : BitVec 7)
  /-- MSWAP (R191). Exchange stationary and shadow planes. -/
  | mswap
  /-- MSTR (R192). Stream activation rows into a tile. -/
  | mstr (a : BitVec 7) (b : BitVec 7) (t : BitVec 4)
  /-- MGANG (R196). Start a ganged product across cluster members. -/
  | mgang (a : BitVec 7) (b : BitVec 7) (t : BitVec 4)
  /-- MVALID (R189). Set the group's valid row, K and column counts. -/
  | mvalid (a : BitVec 7) (b : BitVec 7) (c : BitVec 7)
  /-- MJOIN (R199). Add a cluster tile into a local tile. -/
  | mjoin (a : BitVec 7) (b : BitVec 7)
  /-- MTLD (R200). Load a tile from a shape. -/
  | mtld (a : BitVec 7) (b : BitVec 7) (t : BitVec 4)
  /-- MTST (R200). Store a tile to a shape. -/
  | mtst (a : BitVec 7) (b : BitVec 7) (t : BitVec 4)
  /-- MTROW (R201). Move a tile row into V registers. -/
  | mtrow (a : BitVec 7) (b : BitVec 7) (t : BitVec 4)
  /-- MTCOL (R201). Move a tile column into V registers. -/
  | mtcol (a : BitVec 7) (b : BitVec 7) (t : BitVec 4)
  /-- MTWROW (R201). Write V registers into a tile row. -/
  | mtwrow (a : BitVec 7) (b : BitVec 7) (t : BitVec 4)
  /-- MTWCOL (R201). Write V registers into a tile column. -/
  | mtwcol (a : BitVec 7) (b : BitVec 7) (t : BitVec 4)
  /-- FEED (R204). Submit an affine access record to the feeder. -/
  | feed (a : BitVec 7) (b : BitVec 7)
  /-- QBIND (R205). Bind a feeder queue to a port register. -/
  | qbind (a : BitVec 7) (b : BitVec 7)
  /-- QUNBIND (R205). Unbind a feeder queue. -/
  | qunbind (a : BitVec 7)
  /-- SHDEF (R179). Define a shape-table entry from a record. -/
  | shdef (a : BitVec 7) (b : BitVec 7) (c : BitVec 7)
  /-- SHDROP (R180). Make a shape entry undefined. -/
  | shdrop (a : BitVec 7) (b : BitVec 7)
  /-- STREAM (R194). Define an operand stream to subscribers. -/
  | stream (a : BitVec 7) (b : BitVec 7) (c : BitVec 7)
  /-- LAUNCH (R108). Submit a launch record from a wave. -/
  | launch (a : BitVec 7) (b : BitVec 7)
  /-- ENQ (R109). Enqueue records on a work-graph edge. -/
  | enq (a : BitVec 7) (b : BitVec 7) (c : BitVec 7)
  /-- RANGESET (R110). Load a range unit. -/
  | rangeset (a : BitVec 7) (b : BitVec 7) (c : BitVec 7)
  /-- GRAB (R111). Take the next chunk from a range unit. -/
  | grab (a : BitVec 7) (b : BitVec 7) (c : BitVec 7)
  /-- SPLAT (R233). Submit a splat compositing command. -/
  | splat (a : BitVec 7) (b : BitVec 7) (c : BitVec 7)
  /-- SGET (R114). Read a system register. -/
  | sget (d : BitVec 7) (i : BitVec 11)
  /-- SSET (R114). Write a system register. -/
  | sset (a : BitVec 7) (i : BitVec 11)
  /-- TRAP (R400). Raise USER_TRAP for the fragment with a code. -/
  | trap (a : BitVec 7)
  /-- RETT (R401). Return from a trap handler to FPC. -/
  | rett
  /-- EBREAK (R402). Raise BREAK for the fragment. -/
  | ebreak
  /-- SNOP (R403). No operation. -/
  | snop
  /-- IMM (R31). Prefix widening the next word's immediate. -/
  | imm (i : BitVec 22)
  /-- REP (R33). Prefix repeating the next word with stepped fields. -/
  | rep (count : BitVec 4) (stepD : Bool) (stepA : Bool) (stepB : Bool) (step : BitVec 3)
  /-- ORD (R32). Prefix giving the next memory word its ordering. -/
  | ord (o : BitVec 2)
  /-- HOST_SUBMISSION (R69), an event: A host's 64-byte write to a launch window is checked, copied and queued before its response. EvArgs: a: the function; b: the offset; bytes: the record; d: the number of its acceptance, when e is 1; f: 1 after a page fault that could not be resolved (lv, ipa, va). -/
  | hostSubmission
  /-- HOST_PLAIN_LOAD (R263), an event: A host load through the plain CXL.mem window served at the home. EvArgs: a: the function; b: the offset; c: the number or length; d: 1 for a read of the function page; f: 1 after a page fault that could not be resolved (lv, ipa, va). -/
  | hostPlainLoad
  /-- HOST_PLAIN_STORE (R263), an event: A host store through the plain window written at the home after a recall. EvArgs: a: the function; b: the offset; bytes: the bytes; d: the number of its acceptance, when e is 1; f: 1 after a page fault that could not be resolved (lv, ipa, va). -/
  | hostPlainStore
  /-- SYNC_WINDOW_LOAD (R263), an event: A host load through the sync window acts as an acquire. EvArgs: a: the function; b: the offset; c: the number or length; f: 1 after a page fault that could not be resolved (lv, ipa, va). -/
  | syncWindowLoad
  /-- SYNC_WINDOW_STORE (R263), an event: A host store through the sync window acts as a release. EvArgs: a: the function; b: the offset; bytes: the bytes; d: the number of its acceptance, when e is 1; f: 1 after a page fault that could not be resolved (lv, ipa, va). -/
  | syncWindowStore
  /-- HOST_SNOOP (R262), an event: A host snoop recalls owned words and invalidates device copies of a line. EvArgs: a: the physical address; bytes: what the host then writes from that address on, within the line. -/
  | hostSnoop
  /-- CTXROOT_WRITE (R373), an event: Write of a context's stage-1 root and enable; clearing EN withdraws the context. EvArgs: a: the function; b: the context within the function; c: the value. -/
  | ctxrootWrite
  /-- INV_STAGE1_PAGE (R384), an event: Function-page INV request to invalidate one stage-1 page. EvArgs: a: the function; b: the value. -/
  | invStage1Page
  /-- INV_CONTEXT (R384), an event: Function-page INV request to invalidate a whole context. EvArgs: a: the function; b: the value. -/
  | invContext
  /-- TLBINV_STAGE1_PAGE (R384), an event: TLBINV write invalidating one stage-1 page. EvArgs: a: the context; b: the value. -/
  | tlbinvStage1Page
  /-- TLBINV_CONTEXT (R384), an event: TLBINV write invalidating a whole context. EvArgs: a: the context; b: the value. -/
  | tlbinvContext
  /-- TLBINV_STAGE2_PAGE (R384), an event: TLBINV write invalidating one stage-2 page. EvArgs: a: the partition; b: the value. -/
  | tlbinvStage2Page
  /-- TLBINV_PARTITION (R384), an event: TLBINV write invalidating every stage-2 translation of the partition. EvArgs: a: the partition; b: the value. -/
  | tlbinvPartition
  /-- INVALIDATION_COMPLETE (R385), an event: All TLBs and walkers have dropped entries and in-flight uses are performed; INVDONE advances. EvArgs: a: its number. -/
  | invalidationComplete
  /-- CTXCTL_RESUME (R414), an event: Resume a stopped context from its records. EvArgs: a: the partition; b: the context. -/
  | ctxctlResume
  /-- CTXCTL_WITHDRAW (R415), an event: Withdraw a context, freeing all its resources. EvArgs: a: the partition; b: the context. -/
  | ctxctlWithdraw
  /-- CTXCTL_STOP (R413), an event: Stop a context with HOST_STOP. EvArgs: a: the partition; b: the context. -/
  | ctxctlStop
  /-- MODE_WRITE (R442), an event: Write of the partition MODE register, ignoring a reserved period and clearing THR by W1C. EvArgs: a: the partition; b: the value. -/
  | modeWrite
  /-- BORROWCFG_WRITE (R352), an event: Resize the borrow cache at once, discarding lines on shrink. EvArgs: a: the partition; b: the value. -/
  | borrowcfgWrite
  /-- REGISTER_WRITE (R374), an event: Write to any register without a row of its own, by function page or management controller. EvArgs: a: the register number, or the offset in the function page of WINBASE and WINSIZE; b: the partition, context or function; c: the value. -/
  | registerWrite
  /-- PACKAGE_IDENTITY_WRITE (R326), an event: Fabric manager writes the module's package identity. EvArgs: a: the identity. -/
  | packageIdentityWrite
  /-- PARTITION_CREATE (R447), an event: Fabric manager creates a partition with fresh keys and heartbeat. EvArgs: a: the partition; b: the wedges; c: the root of the second stage. -/
  | partitionCreate
  /-- PARTITION_DESTROY (R369), an event: Partition destroyed: contexts stopped, state zeroed, keys destroyed, resources unassigned. EvArgs: a: the partition. -/
  | partitionDestroy
  /-- PORT_ASSIGNMENT (R17), an event: System software assigns a port with its press, or a link, to a partition. EvArgs: a: 1 for a link; b: its number; c: the partition plus 1, or 0. -/
  | portAssignment
  /-- CHANNEL_ENABLE (R347), an event: Management controller enables a forwarding channel entry, or refuses it. EvArgs: a: the partition; b: the number or length; c: first qword; d: second qword; e: third qword; f: fourth qword. -/
  | channelEnable
  /-- MULTICAST_ENTRY_WRITE (R355), an event: Multicast table entry rewritten, effective between packets. EvArgs: a: the number or length; bytes: the bytes. -/
  | multicastEntryWrite
  /-- IMPORT_GRANT_WRITE (R389), an event: Fabric manager writes a Galord import grant. EvArgs: a: the partition; b: the slot; c: first qword; d: second qword; e: third qword. -/
  | importGrantWrite
  /-- ATTESTATION_REQUEST (R392), an event: Root of trust signs an attestation report for a partition. EvArgs: a: the partition; bytes: the nonce. -/
  | attestationRequest
  /-- RECOVERY_FIRMWARE_WRITE (R448), an event: A firmware image written through the management controller in recovery. EvArgs: bytes: the image. -/
  | recoveryFirmwareWrite
  /-- HEAD_ENABLE (R394), an event: Enabling a display head or rendition, refused beyond encoder limits. EvArgs: a: the wedge; b: the head; bytes: the record; f: 1 after a page fault that could not be resolved (lv, ipa, va). -/
  | headEnable
  /-- FRAME_START (R393), an event: Display engine acquires SEL and reads the selected frame buffer. EvArgs: a: the wedge; b: the head; f: 1 after a page fault that could not be resolved (lv, ipa, va). -/
  | frameStart
  /-- ENCODER_FRAME_COMPLETE (R394), an event: Encoder finishes a frame's access units and arrives on the ring barrier. EvArgs: a: the wedge; b: the head; c: 1 when only the arrival is left; bytes: the pixels of the frame, as the display has read them; f: 1 after a page fault that could not be resolved (lv, ipa, va). -/
  | encoderFrameComplete
  /-- POWER_ON (R447), an event: Power-on starts the root of trust self-test and signed firmware stages. EvArgs: a: 1 when the primary passes its self-test; b: length of the root-of-trust image; bytes: that image and the management controller's. -/
  | powerOn
  /-- HBM_TRAINING_COMPLETE (R447), an event: HBM training ends; failed stacks' wedges held, others released and service firmware loaded. EvArgs: a: mask of the stacks that failed; bytes: the service firmware image. -/
  | hbmTrainingComplete
  /-- HEARTBEAT_TICK (R19), an event: The partition heartbeat advances by one. EvArgs: a: the partition; b: the context plus 1 for its virtual tick, or 0. -/
  | heartbeatTick
  /-- ASSAY_AUDIT (R21), an event: Every 1,024 ticks an assay engine freezes and audits its channels. EvArgs: a: the partition. -/
  | assayAudit
  /-- FRAGMENT_MERGE (R62), an event: Every 4 cycles fragments sharing a priority and PC merge. EvArgs: a: the group; b: the wave. -/
  | fragmentMerge
  /-- ISSUE_SELECTION (R63), an event: At an issue opportunity the core picks one ready fragment by age and priority. EvArgs: a: the group; b: the wave. -/
  | issueSelection
  /-- SECTION_DEADLOCK_SEARCH (R321), an event: Every 1,024 ticks section tables search waits-for chains for cycles. EvArgs: a: the partition; b: the context plus 1 for the search of its virtual ticks, or 0. -/
  | sectionDeadlockSearch
  /-- SECTION_WATCHDOG (R322), an event: A held-less waited-on key idle for LIMIT ticks stops the context. EvArgs: a: the context; b: the key. -/
  | sectionWatchdog
  /-- CONTEXT_WATCHDOG (R88), an event: A context making no progress for LIMIT ticks takes WATCHDOG. EvArgs: a: the context. -/
  | contextWatchdog
  /-- SERVICE_WATCHDOG (R87), an event: A service record unanswered for 2^20 ticks stops the context. EvArgs: a: its number. -/
  | serviceWatchdog
  /-- QUANTUM_EXPIRY (R73), an event: A 2 ms time-slice quantum ends and clusters may be evicted for another function. EvArgs: a: the partition. -/
  | quantumExpiry
  /-- NODE_BATCH_TIMEOUT (R81), an event: One tick after the last record a partial batch becomes a node group. EvArgs: a: the launch; b: the node. -/
  | nodeBatchTimeout
  /-- MIGRATION_COUNTER_HALVING (R264), an event: Page access counters are halved every 65,536 ticks. EvArgs: a: the partition. -/
  | migrationCounterHalving
  /-- PAGE_MIGRATION (R265), an event: Service group migrates a page from device to host memory. EvArgs: a: the partition; b: the IPA; c: the host page. -/
  | pageMigration
  /-- POWER_HOLD (R445), an event: Power controller holds work to keep within the 1 ms window budget, setting THR. EvArgs: a: the wedge. -/
  | powerHold
  /-- SERVICE_TURN_END (R86), an event: A partition's 10 µs service turn ends and the group switches partition. EvArgs: a: the wheel. -/
  | serviceTurnEnd
  /-- SERVICE_BATCH (R86), an event: Service group takes one batched record from a partition queue. EvArgs: a: the wheel. -/
  | serviceBatch
  /-- PAGE_FAULT_RESOLUTION (R386), an event: Service group resolves a resolvable invalid entry and restarts the walk. EvArgs: a: the fault. -/
  | pageFaultResolution
  /-- SERVICE_REPLY_LANDS (R113), an event: A lane's service-call reply fills its destinations with an acquire. EvArgs: a: its number; b: the lane. -/
  | serviceReplyLands
  /-- LAUNCH_ELIGIBLE (R71), an event: A watched dependency barrier changes phase and the launch becomes eligible. EvArgs: a: the launch; f: 1 after a page fault that could not be resolved (lv, ipa, va). -/
  | launchEligible
  /-- CLUSTER_PLACEMENT (R72), an event: Scheduler places a waiting cluster when resources allow. EvArgs: a: the partition. -/
  | clusterPlacement
  /-- CLUSTER_EVICTION (R422), an event: A cluster is stopped, surrendered and saved to its save slots. EvArgs: a: the launch; b: the cluster; f: 1 after a page fault that could not be resolved (lv, ipa, va). -/
  | clusterEviction
  /-- CLUSTER_RESTORE (R423), an event: An evicted cluster is placed and its state read back. EvArgs: a: the launch; b: the cluster; c: 1 when a write of the slot map waited; f: 1 after a page fault that could not be resolved (lv, ipa, va). -/
  | clusterRestore
  /-- NODE_GROUP_START (R79), an event: Scheduler starts a node group after reserving target slots. EvArgs: a: the launch; b: the node; f: 1 after a page fault that could not be resolved (lv, ipa, va). -/
  | nodeGroupStart
  /-- GROUP_END (R53), an event: A group whose waves have exited frees its slots once its vat commands complete. EvArgs: a: the group. -/
  | groupEnd
  /-- GRID_COMPLETION_ARRIVAL (R53), an event: After stores are visible and commands complete, the grid arrives once at its completion barrier. EvArgs: a: the launch; f: 1 after a page fault that could not be resolved (lv, ipa, va). -/
  | gridCompletionArrival
  /-- GRAPH_END (R81), an event: A graph with empty queues and no running group arrives at its completion barrier. EvArgs: a: the launch. -/
  | graphEnd
  /-- LOAD_RESULT_LANDS (R137), an event: A load's bytes land in a lane and the register fills when no lane is pending. EvArgs: a: its number; b: the lane. -/
  | loadResultLands
  /-- LAUNCH_STATUS_FILL (R108), an event: LAUNCH's destination fills with the outcome code. EvArgs: a: its number; f: 1 after a page fault that could not be resolved (lv, ipa, va). -/
  | launchStatusFill
  /-- SHAPE_STATUS_FILL (R180), an event: SHDEF or SHDROP status fills after every core drops its cached entry. EvArgs: a: its number. -/
  | shapeStatusFill
  /-- FEED_STATUS_FILL (R204), an event: FEED status fills once the record is read and decided. EvArgs: a: its number. -/
  | feedStatusFill
  /-- GRAB_SERVED (R82), an event: A grab is served at its range unit in arrival order. EvArgs: a: its number. -/
  | grabServed
  /-- REGISTRATION (R239), an event: A store's registration is recorded at the home and returns a visibility time. EvArgs: a: the core; b: the address; c: the number of a remote store, a barrier operation or a recall whose acknowledgement this is, or 0. -/
  | registration
  /-- ATOMIC_AT_HOME (R255), an event: An atomic is performed in the home slice ALU and its result returned. EvArgs: a: its number; b: the lane. -/
  | atomicAtHome
  /-- SURRENDER (R245), an event: A core receiving a surrender writes back its dirty set for the context. EvArgs: a: its number. -/
  | surrender
  /-- SURRENDER_COMPLETE (R245), an event: The dirty set is held at the homes and the waiting acquire proceeds. EvArgs: a: its number. -/
  | surrenderComplete
  /-- BARRIER_NOTIFY (R292), an event: A barrier home notifies watching cores of a phase change. EvArgs: a: a group's number plus 1 for a barrier in its scratchpad, or 0; b: its address; c: its phase; ids: the group, the wave and the fragment of each that waited. -/
  | barrierNotify
  /-- COPY_UNIT_HELD (R303), an event: A copy unit is held at its home and subtracted from the barrier bytes. EvArgs: a: its number; f: 1 after a page fault of its barrier that could not be resolved. -/
  | copyUnitHeld
  /-- COPY_COMPLETE (R303), an event: A copy command frees its entries and makes its final decrement or arrival. EvArgs: a: its number; f: 1 after a page fault of its barrier that could not be resolved. -/
  | copyComplete
  /-- ENGINE_COMMAND_ISSUE_WAIT_END (R259), an event: A command waiting on overlapping locks or queue room issues once they free. EvArgs: a: the group; b: the wave; c: the fragment. -/
  | engineCommandIssueWaitEnd
  /-- NETWORK_UNIT_ACK (R344), an event: A network unit's acknowledgement returns and it counts as held. EvArgs: a: its number, a network command's or that of a tile on its way from a press; f: 1 after a page fault of its barrier that could not be resolved. -/
  | networkUnitAck
  /-- NETWORK_COMMAND_COMPLETE (R344), an event: A network command frees its entry and completes at BAR. EvArgs: a: its number; f: 1 after a page fault of its barrier that could not be resolved. -/
  | networkCommandComplete
  /-- NETWORK_RECEIVE (R266), an event: A receive engine writes payload at the homes and arrives at its completion barrier. EvArgs: a: the partition; b: the IPA; c: the barrier, or 0; d: 2 for a delivery mode that the module does not use; bytes: the bytes; failed: after a page fault that could not be resolved (lv, ipa, va). -/
  | networkReceive
  /-- REMOTE_ACCESS_ARRIVAL (R389), an event: A Galord access arriving at a target is checked against grants and served at the home. EvArgs: a: the partition; b: the source module; c: the source partition; d: the kind; e: the offset; f: the number or length; bytes: the bytes; failed: after a page fault that could not be resolved (lv, ipa, va). -/
  | remoteAccessArrival
  /-- REMOTE_ERROR_RESPONSE (R326), an event: An error response to a remote access stops the issuing context. EvArgs: a: its number; b: the lane or destination that was refused; c: 1 when the source found that its read fails the integrity check. -/
  | remoteErrorResponse
  /-- FLIT_CRC_FAILURE (R328), an event: A failed flit is replayed once, else its accesses are lasting and the link retrains. EvArgs: a: the link; b: 1 when the replay succeeded; ids: the accesses it carried, each by its number and its lane or destination. -/
  | flitCrcFailure
  /-- RETRANSMIT_TIMEOUT (R342), an event: A packet unacknowledged for 16 µs is retransmitted or declared lost. EvArgs: a: its number, an access's, a record's or a tile's; b: the lane or destination. -/
  | retransmitTimeout
  /-- FORWARD_RECORD_ARRIVAL (R350), an event: A remote work record lands in a node queue slot. EvArgs: a: the partition; b: the channel; bytes: the record; d: the number plus 1 of a record that this module sent itself, or 0; e: 1 when the recording supplies it; f: 1 after a page fault that could not be resolved (lv, ipa, va). -/
  | forwardRecordArrival
  /-- PERMIT_RETURN (R350), an event: An acknowledgement returns a permit to the sender's channel. EvArgs: a: the partition; b: the channel. -/
  | permitReturn
  /-- ARRAY_COMMAND_START (R188), an event: The matrix array reaches a group's next command. EvArgs: a: the core. -/
  | arrayCommandStart
  /-- ARRAY_COMMAND_COMPLETE (R193), an event: An array command's last write lands, with any barrier arrival. EvArgs: a: its number. -/
  | arrayCommandComplete
  /-- GANG_COMPLETION (R196), an event: When every member completes or aborts, each member barrier receives one arrival. EvArgs: a: its number. -/
  | gangCompletion
  /-- STREAM_BLOCK_DELIVERED (R195), an event: A stream block is read once and written into each subscriber's slot. EvArgs: a: the group; b: the queue. -/
  | streamBlockDelivered
  /-- FEEDER_PUSH (R83), an event: The feeder pushes a vector into a queue when room allows. EvArgs: a: the group. -/
  | feederPush
  /-- TREELET_VISIT (R219), an event: A ray unit serves one queued treelet visit. EvArgs: a: the wedge; b: the ray whose page fault could not be resolved, when f is 1; c: the address of that access. -/
  | treeletVisit
  /-- RAY_RESULT_LANDS (R223), an event: A ray's visit count reaches zero and its result fills four registers. EvArgs: a: its number. -/
  | rayResultLands
  /-- SAMPLE_RESULT_LANDS (R229), an event: A texture sample result fills its lane's registers. EvArgs: a: its number; b: the lane. -/
  | sampleResultLands
  /-- SPLAT_COMMAND_RUN (R234), an event: The splat engine runs a queued command and arrives at BAR when done. EvArgs: a: the wedge; f: 1 after a page fault of its barrier that could not be resolved. -/
  | splatCommandRun
  /-- SECTION_REQUEST_ARRIVAL (R313), an event: A section request arrives at the key's home and Serve runs. EvArgs: a: its number; b: the lane. -/
  | sectionRequestArrival
  /-- SECTION_GRANT (R312), an event: A grant lands: the lane acquires and becomes holder. EvArgs: a: its number; b: the lane. -/
  | sectionGrant
  /-- SECTION_REFUSE (R312), an event: A refused lane takes SECTION_CAPACITY. EvArgs: a: its number; b: the lanes. -/
  | sectionRefuse
  /-- VENTERT_ANSWER (R314), an event: A lane's VENTERT answer lands. EvArgs: a: its number; b: the lane. -/
  | ventertAnswer
  /-- VSECQ_ANSWER (R316), an event: A lane's VSECQ answer lands. EvArgs: a: its number; b: the lane. -/
  | vsecqAnswer
  /-- PRESS_COLLECTIVE_START (R358), an event: A press starts a collective and checks its rank table. EvArgs: a: the press. -/
  | pressCollectiveStart
  /-- PRESS_TILE_ARRIVAL (R440), an event: A tile arrives at a press, staged or merged. EvArgs: a: the press; b: the sending rank; c: the first qword of the sender's record; d: 1 in the gather phase; e: the sender's number of the packet; bytes: the packet. -/
  | pressTileArrival
  /-- PRESS_TILE_LOSS (R364), an event: A lost tile named in a closing notice is handled by the loss policy. EvArgs: a: the press; b: the sending rank; c: the first qword of the sender's record; d: 1 in the gather phase; e: 1 when the notice is lost; f: the sender's number of the packet; ids: the tiles. -/
  | pressTileLoss
  /-- PRESS_COMPLETE (R365), an event: A press frees entries, arrives at BAR and sends any node record. EvArgs: a: the press; f: 1 after a page fault of its barrier that could not be resolved. -/
  | pressComplete
  /-- HALT (R405), an event: An agent raises a stop-class cause and the halt line stops the context. EvArgs: a: the context; b: the cause; c: the engine; d: the unit; e: the address; f: the detail; ids: the launch that the agent acts for, if it acts for one. -/
  | halt
  /-- AGENT_STOP (R405), an event: An agent stops its work within skid and writes stop records. EvArgs: a: the context; b: the engine; c: the unit; d: the launch plus 1 whose rays stand in the cause record, or 0. -/
  | agentStop
  /-- STOP_SAVE_COMPLETE (R406), an event: After all agents stop, clusters are saved, CTXSTATE becomes stopped and MSI-X sent. EvArgs: a: the context; ids: launch and cluster in turn of the clusters whose save has failed; f: 1 after a page fault that could not be resolved (lv, ipa, va). -/
  | stopSaveComplete
  /-- HBM_READ_FAILURE (R425), an event: A failed HBM read is retried once, else a lasting fault stops the context. EvArgs: a: the context; b: the physical address; c: 1 when the retry succeeds; d: 1 for an integrity failure; e: the virtual address, or 0; f: the launch plus 1, or 0; ids: the code of the access, its kind (1: a request's lane; 2: a command), its number, its lane. -/
  | hbmReadFailure
  /-- SECDED_ERROR (R426), an event: An SRAM ECC error is corrected or stops the owning context. EvArgs: a: the context; b: the address; c: 1 for a double-bit error; d: 1 for a clean LLC line; e: the unit, the COREID or WEDGEID of the array; f: the launch plus 1, or 0. -/
  | secdedError
  /-- DET_RECORDER_INPUT (R432), an event: A DET context input is appended to or supplied from the Mozon recording. EvArgs: a: the launch; b: the kind; c: the place; d: the value; bytes: the payload; f: 1 to supply the next recorded input, 2 for the read of HBEAT with number a and value b. -/
  | detRecorderInput
  /-- POWER_OFF (R448), an event: The module loses power, ending the standby root's takeover, the reset hold of failed wedges and every partition. -/
  | powerOff
  /-- LINK_RETRAINED (R328), an event: A Galord link finishes retraining after a lasting flit failure and carries traffic again. EvArgs: a: the link. -/
  | linkRetrained
  /-- VIRTUAL_FUNCTION_ASSIGNMENT (R371), an event: The fabric manager assigns a virtual function to a partition or to none. EvArgs: a: the function; b: the partition plus 1, or 0. -/
  | virtualFunctionAssignment
  /-- TENANT_KEY_IMPORT (R390), an event: A tenant key is imported into the root of trust, wrapped to an attested session of the partition. EvArgs: a: the partition; b: the key; c: 1 when an attested session stands. -/
  | tenantKeyImport
  /-- BORROW_INVALIDATION (R353), an event: An owning module's invalidation of an IMMUTABLE object's lines arrives at a borrowing package and drops them from its borrow cache. EvArgs: a: the partition; b: the address; c: the length; d: the lender's number, which the acknowledgement carries. -/
  | borrowInvalidation
  deriving DecidableEq, Repr

end Sys2Proof
end

