-- ==== Sys2Proof/Machine/State.lean ====
section
/-! DEFINITION. The machine's state as plain data: every piece of state the manual gives the module
(INVENTORY.md, heading State, lists each with its rule and its reset value), the named faults and refusals,
and the state right after reset. -/

namespace Sys2Proof.Machine

open Host

/-- One V register: 32 lanes, its format tag (R129) and its pending mask (R137; zero means full). -/
structure VReg where
  lanes : List Word
  tag : BitVec 4
  pend : LaneMask
  deriving DecidableEq, Repr, Inhabited

/-- One S register: 64 bits, its format tag and its full bit (R122, R137). -/
structure SReg where
  val : DWord
  tag : BitVec 4
  full : Bool
  deriving DecidableEq, Repr, Inhabited

/-- Why a fragment does not take part in R63's selection: the waits of R89 that hold a fragment. -/
inductive Wait where
  /-- an empty register (R138, R139): `isS` and its number; `port` marks a feeder port (R83) -/
  | empty (isS : Bool) (n : Nat)
  /-- the wave's earlier stores and atomics (R243, first step) -/
  | stores
  /-- an earlier synchronising access of the wave (R247) or an outstanding acquire (R245) -/
  | sync
  /-- BWAIT on a barrier and a phase (R292) -/
  | barrier (pad : Option Nat) (addr : Nat) (phase : BitVec 32)
  /-- GRIDBAR (R295) -/
  | gridbar (n : Nat)
  /-- SCONV (R66) -/
  | sconv
  /-- VENTER waiting for grants (R312) -/
  | section_
  /-- VENTERT waiting for its answers (R314) -/
  | entert
  /-- VFWD waiting for a permit of a channel (R349) -/
  | permit (ch : Nat)
  /-- VSVC waiting for a slot of a wheel's service queue (R86) -/
  | serviceSlot (wheel : Nat)
  /-- a channel that an audit has frozen for this tick (R21) -/
  | assay
  /-- an engine word waiting at issue (R259, R303) or TOKPASS (R297); ENGINE_COMMAND_ISSUE_WAIT_END ends it -/
  | engine
  /-- the wave's FENCESC, which holds its later accesses until it is over (R251) -/
  | fence
  /-- a page fault of a store or a fetch that the service group resolves (R386): fault id -/
  | fault (id : Nat)
  deriving DecidableEq, Repr

/-- A fragment (R60): lanes of a wave that share a (priority, PC) pair. -/
structure Frag where
  id : Nat
  parent : Nat
  live : LaneMask
  sib : LaneMask
  prio : BitVec 4
  pc : DWord
  age : Nat
  wait : Option Wait
  /-- the trap frame it is bound to while in handler mode (R395, R397) -/
  frame : Option Nat
  /-- REP progress (R35): the next repetition of the unit at `pc`, when one is part done -/
  repNext : Option Nat
  /-- VFWD progress (R349): the next lane to send -/
  fwdLane : Option Nat
  /-- what a part-sent VFWD took from its sources at its issue (R6, R349): S[b], and V[a] to V[a + 14] lane by lane -/
  fwdSrc : Option (DWord × List (List Word)) := none
  /-- its BWAIT uses a watch of the wave and has registered no wait of its own (R293) -/
  viaWatch : Bool := false
  /-- the change of phase that ends its BWAIT has come, and its notice is on the way (R292) -/
  told : Bool := false
  deriving DecidableEq, Repr

/-- A trap frame (R395, R421). -/
structure Frame where
  slot : Nat
  cause : BitVec 8
  faddr : DWord
  fpc : DWord
  /-- the trapped unit's address, which RETT compares with FPC (R401) -/
  unit : DWord
  fid : Nat
  fparent : Nat
  fsib : LaneMask
  finfo : DWord
  prio : BitVec 4
  rep : Option Nat
  /-- the next lane of a VFWD that was part done (R349) -/
  fwd : Option Nat
  lanes : LaneMask
  deriving DecidableEq, Repr

/-- A BWATCH registration (R293), oldest first. -/
structure Watch where
  addr : Nat
  phase : BitVec 32
  deriving DecidableEq, Repr

/-- The system registers that belong to a wave (R116). -/
structure WaveRegs where
  stklim : DWord
  tagmode : Bool
  rndmode : BitVec 2
  fpflags : BitVec 5
  tvec : DWord
  tscr : DWord
  opthr : Word
  relts : DWord
  secwdog : DWord
  deriving DecidableEq, Repr

/-- A section key a lane holds, in order of entry, most recent last (R311, R420). -/
structure Held where
  lane : Nat
  key : DWord
  deriving DecidableEq, Repr

/-- A wave (R51): its registers, frontier and everything that is saved with it (R420). -/
structure Wave where
  g : Nat
  w : Nat
  /-- lanes that started (R57) -/
  started : LaneMask
  vcount : Nat
  scount : Nat
  vregs : List VReg
  sregs : List SReg
  frags : List Frag
  frames : List Frame
  regs : WaveRegs
  watches : List Watch
  /-- feeder port bindings: V register number and queue (R83, R205) -/
  ports : List (Nat × Nat)
  held : List Held
  /-- largest visibility time among the wave's stores and atomics so far (R243) -/
  lastVis : Option Nat
  /-- the fragment that executed SYIELD and is passed over at the next opportunity (R99) -/
  yielded : Option Nat
  /-- SYIELD gave the wave's next issue opportunity on its pipe to another ready wave (R99) -/
  gives : Bool := false
  /-- consecutive rejections for want of a miss-status entry (R85) -/
  rejects : Nat
  /-- units completed, which the context watchdog watches (R88) -/
  units : Nat
  deriving DecidableEq, Repr

/-- A tile register's configuration (R182, R419). -/
structure Tile where
  t : Nat
  shaped : Bool
  invalid : Bool
  cfg : BitVec 48
  deriving DecidableEq, Repr

/-- A feeder queue of a group (R83): its vectors, oldest first, with the tag of their elements. -/
structure Queue where
  q : Nat
  vecs : List (BitVec 4 × List Word)
  deriving DecidableEq, Repr

/-- A plane of the array that holds a block (R190): format and PREC of its shape, its size, k0, its stored elements after
smoothing (R143), element (k, n) at place k × N_s + n, their scale exponents (R178), and the reciprocals that smooth an
activation (R144), one per k; no smoothing when that list is empty. -/
structure Plane where
  fmt : Nat
  prec : Nat
  ks : Nat
  ns : Nat
  k0 : Nat
  elems : List Nat
  scales : List Nat
  recips : List Nat
  deriving DecidableEq, Repr

/-- A group (R51): placed whole on one core, with its scratchpad and the granules its vat word gives it (R54). -/
structure Group where
  g : Nat
  launch : Nat
  ctx : Nat
  /-- cluster position in the grid's linear order (R72) -/
  cluster : Nat
  clrank : Nat
  /-- GROUPID fields x, y, z and CLUSTERID fields (R116) -/
  gid : Nat × Nat × Nat
  cid : Nat × Nat × Nat
  core : Nat
  nwaves : Nat
  lanes : Nat
  vatword : BitVec 24
  vbase : Nat
  sbase : Nat
  padbase : Nat
  /-- granules held on the core (R56) -/
  granules : Nat
  /-- scratchpad bytes written since the group started (R242) -/
  pad : List Cell
  queues : List Queue
  /-- false while the cluster is out (R422); then `slot` is its save slot (R416) -/
  resident : Bool
  slot : Option Nat
  /-- work-graph node, NODEQ, NODEBATCH and NODECAP (R107, R116); slots left per edge (R109) -/
  node : Option Nat
  nodeq : DWord
  nodebatch : DWord
  nodecap : DWord
  reserved : List Nat
  /-- channels of the records it consumes (R350) -/
  consumed : List (Option Nat)
  /-- MSTAT (R202) -/
  mstat : Word
  /-- the accumulator region (R182): bytes written in its tiles, the tiles shaped, the stationary and the shadow plane -/
  acc : List Cell
  tiles : List Tile
  plane : Option Plane
  shadow : Option Plane
  /-- formats of the two planes' blocks as the commands issued so far leave them, 0 for none: what a check at issue sees
  (R192, R450) -/
  planeFmt : Nat
  shadowFmt : Nat
  /-- valid counts (R189) -/
  mv : Nat
  kv : Nat
  nv : Nat
  /-- the completed exit of every wave has been signalled (R53) -/
  ended : Bool
  /-- it holds no resource of its core any more (R53) -/
  freed : Bool
  /-- order of placement, for youngest first eviction (R74) -/
  age : Nat
  /-- a kernel-mode service group (R13, R374), whose waves may read and write system registers 0x100 to 0x1FF -/
  kernel : Bool := false
  /-- the partition and the context of the record that a service group serves (R374) -/
  serves : Option (Nat × Nat) := none
  /-- the eviction that took it out, later ones having greater numbers (R76) -/
  outAt : Nat := 0
  /-- no group has left its core's vat since that was written to zero, so its unwritten bytes are zero (R369, R447) -/
  clean : Bool := false
  /-- the model's own: which free values its unwritten bytes have; in a DET context a function of its place (R433) -/
  key : Nat := 0
  deriving DecidableEq, Repr

/-- A node of an accepted work graph (R106, R107). -/
structure Node where
  prog : DWord
  tvec : DWord
  wavemode : BitVec 4
  tiles : Nat
  scount : Nat
  vcount : Nat
  lanes : Nat
  vatword : BitVec 24
  qcap : Nat
  recBytes : Nat
  shapeCnt : Nat
  shapeAddr : DWord
  /-- target node and MAXOUT of each edge -/
  edges : List (Nat × Nat)
  qaddr : Nat
  /-- the ring (R107): the slot from which the next record looks for a free one, and for each record present, oldest first, the
  channel that brought it, if one did (R350), and its slot -/
  next : Nat
  srcs : List (Option Nat)
  slots : List Nat
  /-- slots reserved by running groups (R79) -/
  resv : Nat
  /-- batches being consumed, oldest first: group, first slot and records (R80) -/
  batches : List (Nat × Nat × Nat)
  /-- tick of the last record's arrival (R81) -/
  lastArrival : Nat
  started : Nat
  shapesLoaded : Bool
  depth : Nat
  deriving DecidableEq, Repr

/-- An accepted launch (R68 to R76, R102). -/
structure Launch where
  id : Nat
  ctx : Nat
  prio : Nat
  prog : DWord
  tvec : DWord
  argbase : DWord
  /-- bytes of the copy of the argument block that ARGBASE names (R104) -/
  args : Nat
  area : DWord
  vatword : BitVec 24
  lanes : Nat
  vcount : Nat
  scount : Nat
  tiles : Nat
  compl : Nat
  /-- dependency barriers not yet met: address and phase (R71) -/
  deps : List (Nat × BitVec 32)
  cdim : Nat × Nat × Nat
  gdim : Nat × Nat × Nat
  wavemode : BitVec 4
  det : Bool
  coresident : Bool
  eligible : Bool
  nextCluster : Nat
  /-- clusters evicted and waiting for restore, head first (R76) -/
  evicted : List Nat
  groupsEnded : Nat
  /-- waves of the grid that have exited, and waves started; GRIDBAR arrivals and completions (R295) -/
  wavesExited : Nat
  gbArrived : Nat
  gbDone : Nat
  nodes : List Node
  graph : Bool
  ended : Bool
  /-- bytes of its recording written or consumed (R408, R432) -/
  recUsed : Nat
  /-- RECBASE, RECBYTES and REPLAY of the stop area's header (R408) -/
  recBase : DWord
  recBytes : Nat
  replay : Bool
  /-- entries that the recording had no room for, which open the next one (R432) -/
  recHeld : List (List Byte) := []
  deriving DecidableEq, Repr

/-- A range unit (R82, R110). -/
structure RangeUnit where
  wedge : Nat
  unit : Nat
  next : Int
  last : Int
  parts : Nat
  chunk : Nat
  deriving DecidableEq, Repr

/-- A context's run state as CTXSTATE reports it (R373); `stopping` is the halt before R406 completes. -/
inductive CtxPhase where
  | idle | running | stopped | withdrawn | stopping
  deriving DecidableEq, Repr

/-- A context (R371, R372): id is CTX + 64 × VF. -/
structure Ctx where
  id : Nat
  root : DWord
  /-- a CTXROOT write held until the context stops (R373) -/
  rootNext : Option DWord
  phase : CtxPhase
  cause : BitVec 8
  lost : Bool
  /-- CTXWDOG.LIMIT (R88) and the ticks its condition has held -/
  wdog : BitVec 32
  wdogTicks : Nat
  /-- SECOVF: the area in use, and the value a later placement takes (R318) -/
  secovf : DWord
  secovfNext : DWord
  /-- shape table, entries defined so far: index and the record (R104, R181) -/
  shapes : List (Nat × BitVec 512)
  units : List RangeUnit
  /-- engine commands completed and network arrivals landed, and the sum that the context watchdog saw last (R88) -/
  acts : Nat
  seen : Nat
  /-- it is withdrawn as soon as the stop under way is complete (R415) -/
  leaving : Bool := false
  /-- the virtual clock of a DET context and its period of a virtual tick (R428); the pipes that have not taken a wave in the
  current virtual cycle, core and pipe; and the wave that each pipe took last, as its place in R430's order -/
  vclock : Nat := 0
  vperiod : Nat := 64
  vpend : List (Nat × Nat) := []
  /-- a cluster of it waits for cores that other contexts hold (R428, R430) -/
  vwait : Bool := false
  vlast : List (Nat × Nat × Nat) := []
  deriving DecidableEq, Repr

/-- A virtual function (R371, R373). DESIGN CHOICE (log 57). -/
structure Vf where
  n : Nat
  part : Option Nat
  winbase : Nat
  winsize : Nat
  invdone : DWord
  deriving DecidableEq, Repr

/-- A Galord import grant (R389). -/
structure Grant where
  slot : Nat
  q0 : DWord
  base : Nat
  len : Nat
  deriving DecidableEq, Repr

/-- A violation log entry (R388). -/
structure Violation where
  addr : DWord
  ipa : DWord
  host : Bool
  ctx : Nat
  detail : BitVec 16
  hbeat : Nat
  deriving DecidableEq, Repr

/-- An error log entry (R427). -/
structure ErrEntry where
  addr : DWord
  part : Nat
  count : Nat
  source : BitVec 4
  kind : BitVec 4
  hbeat : Nat
  deriving DecidableEq, Repr

/-- A partition (R366, R367). -/
structure Part where
  n : Nat
  wedges : BitVec 20
  root2 : DWord
  mode : DWord
  /-- the heartbeat (R19), core cycles since its last tick, and the period in force (R20) -/
  hbeat : Nat
  subcycle : Nat
  period : Nat
  /-- core cycles since creation (CYCLE, R116) -/
  cycle : Nat
  migthr : DWord
  fwdcfg : DWord
  borrowcfg : DWord
  dispcfg : DWord
  grants : List Grant
  vlog : List Violation
  /-- module-unique numbers of its memory and integrity keys (R390), and its tenant key when one is imported -/
  key : Nat
  tenant : Option Nat
  /-- the virtual function whose launches have the placement turn, per priority (R73) -/
  turns : List (Nat × Nat)
  /-- host access counters of pages (R264): page IPA and count -/
  migCounters : List (Nat × Nat)
  /-- host pages in use by migrated pages (R264): address and size -/
  migrated : List (Nat × Nat)
  /-- being destroyed (R369): submissions get retry later -/
  closing : Bool
  /-- the audited channels are frozen for this tick (R21) -/
  frozen : Bool := false
  deriving DecidableEq, Repr

/-- A combined translation (R383). `unit` is the core for an L0 entry and the wedge for a shared one. -/
structure TlbEntry where
  unit : Nat
  /-- context id, or none for a stage-2-only user of partition `part` -/
  ctx : Option Nat
  part : Nat
  vbase : Nat
  size : Nat
  pbase : Nat
  ibase : Nat
  /-- stage-1 K, X, W, R and stage-2 X, W, R (R381), and the levels of the two leaves -/
  p1 : BitVec 4
  p2 : BitVec 3
  lv1 : Nat
  lv2 : Nat
  /-- both leaves have D set (R382) -/
  d : Bool
  sh : Bool
  /-- the mapping selects the partition-wide home set (HP, R14, R378) -/
  hp : Bool := false
  deriving DecidableEq, Repr

/-- A word of a core's L1 (R239, R240): valid bytes, bytes stored since the last write-back, ownership. -/
structure L1Word where
  core : Nat
  ctx : Nat
  word : Nat
  data : Word
  mask : BitVec 4
  dm : BitVec 4
  own : Bool
  deriving DecidableEq, Repr

/-- A registration in flight from a core to a home (R239), or a remote store in flight. -/
structure Reg where
  core : Nat
  word : Nat
  g : Nat
  w : Nat
  /-- identifier of a store at a Galord-form address, whose acknowledgement it awaits (R332); 0 otherwise -/
  id : Nat
  /-- a store with ORD release at such an address (R334) -/
  sync : Bool
  /-- one half of an aligned 8-byte store, whose two words are registered at one instant (R237) -/
  wide : Bool := false
  deriving DecidableEq, Repr

/-- A home's ownership record, oldest first (R239): word number and owner core. -/
structure Owner where
  word : Nat
  core : Nat
  deriving DecidableEq, Repr

/-- A synchronisation record (R243, R244): variable, last releaser, its context, release time. -/
structure SyncRec where
  word : Nat
  core : Nat
  ctx : Nat
  rt : Nat
  /-- the home slice whose directory holds it (R14) -/
  slice : Nat := 0
  deriving DecidableEq, Repr

/-- A surrender under way (R245): the variable whose acquire asked for it, if one did, and the request served by it. -/
structure Surr where
  id : Nat
  core : Nat
  ctx : Nat
  var : Option Nat
  /-- the record read by the acquire -/
  rcd : Option SyncRec
  req : Option (Nat × Nat)
  done : Bool
  deriving DecidableEq, Repr

/-- What a memory request in flight is to do when a lane of it is performed. -/
inductive ReqKind where
  /-- VLD, SLD: bytes per lane, sign extension, and the number of 32-bit destination registers (R274) -/
  | load (bytes : Nat) (signed : Bool) (acquire : Bool)
  /-- VLD.shaped: each lane's element address stands in `va`; element format (R275). A PL8 element and an element outside
  the shape are captured at issue -/
  | shaped (fmt : Nat) (acquire : Bool)
  /-- VLDP of KIND 2: peer group (R271, R274) -/
  | peer (bytes : Nat) (signed : Bool) (pg : Nat) (acquire : Bool)
  /-- VATOM, VRED: operation, operand lanes, second operand lanes (cas) -/
  | atomic (op : Nat) (x : List Word) (y : List Word) (ord : BitVec 2) (returns : Bool)
  /-- SATOM -/
  | atomic64 (op : Nat) (x : DWord) (y : DWord) (ord : BitVec 2)
  /-- VATOMX: routine and operand lanes (R282) -/
  | routine (n : Nat) (x : List Word) (y : List Word) (ord : BitVec 2)
  /-- ACQ (R296) -/
  | acqWord
  deriving DecidableEq, Repr

/-- A memory request in flight: one unit's loads or atomics, lane by lane (R137). -/
structure Req where
  id : Nat
  g : Nat
  w : Nat
  core : Nat
  ctx : Nat
  kind : ReqKind
  isS : Bool
  dst : Nat
  span : Nat
  tag : BitVec 4
  /-- the lanes that issued it, and those still to land (R137) -/
  who : LaneMask
  lanes : LaneMask
  /-- virtual address of each lane -/
  va : List DWord
  /-- physical address of each lane, once translated (R385: one translation per access) -/
  pa : List (Option Nat)
  /-- bytes read before landing, when a later store of the lane's wave overlaps (R238) -/
  captured : List (Option (List Byte))
  /-- lanes whose acquire waits for a surrender (R245) -/
  surr : LaneMask
  /-- release time of an atomic that releases (R243) -/
  rt : Nat
  /-- it holds a reserved miss-status entry (R85) -/
  resv : Bool := false
  deriving DecidableEq, Repr

/-- What an event brings with it: numbers in the order its constructor's docstring lists them, bytes, and a list of
numbers. DESIGN CHOICE (log 59). -/
structure EvArgs where
  a : Nat := 0
  b : Nat := 0
  c : Nat := 0
  d : Nat := 0
  e : Nat := 0
  f : Nat := 0
  bytes : List Byte := []
  ids : List Nat := []
  /-- the virtual cycle at which an event of a DET context takes place (R428, R429); zero for any other event -/
  due : Nat := 0
  /-- of an event that waited for a page fault which could not be resolved (`f` = 1): the failing entry's level, the
  intermediate address reached, and the address of the access (R387, R388) -/
  lv : Nat := 0
  ipa : Nat := 0
  va : Nat := 0
  /-- the page fault that it waited for could not be resolved -/
  failed : Bool := false
  deriving DecidableEq, Repr, Inhabited

/-- An event to come: its constructor and what it brings. DESIGN CHOICE (log 59). -/
structure Event where
  what : Instr
  args : EvArgs
  deriving DecidableEq, Repr

/-- A table entry that a walk met: its physical address, its level, and the intermediate address reached, 0 in stage 1 (R387,
R388). -/
structure EntryAt where
  pa : Nat
  level : Nat
  ipa : Nat
  deriving DecidableEq, Repr

/-- A page fault in the service group's hands (R386). -/
structure PageFault where
  id : Nat
  ctx : Nat
  va : DWord
  acc : Nat
  entry : EntryAt
  /-- the request lane it holds, or the blocked fragment -/
  req : Option (Nat × Nat)
  frag : Option (Nat × Nat × Nat)
  /-- the engine command it holds -/
  cmd : Option Nat := none
  /-- events that were waiting for it, and go on when it is resolved or has failed (`f` = 1 then) -/
  retry : List Event := []
  /-- ticks since it was filed (R87, R89) -/
  ticks : Nat := 0
  deriving DecidableEq, Repr

/-- An entry of the range table (R256). Kinds: 0 LOCK-SRC, 1 LOCK-DST, 2 OBJ-TOKEN, 3 OBJ-IMMUT. -/
structure RangeEntry where
  id : Nat
  ctx : Nat
  part : Nat
  kind : Nat
  /-- none: global virtual addresses; some g: scratchpad offsets of group g -/
  pad : Option Nat
  lo : Nat
  hi : Nat
  engine : Nat
  core : Nat
  /-- the command that registered it, or the shape that names the object -/
  owner : Nat
  /-- physical spans of an object's bytes (R261, R337): start and length -/
  phys : List (Nat × Nat)
  deriving DecidableEq, Repr

/-- A TOKEN object (R260, R297, R298): holder and pending requests, oldest first, each with its barrier. -/
structure Token where
  ctx : Nat
  shape : Nat
  wheel : Nat
  holder : Nat
  queue : List (Nat × Option Nat × Nat)
  deriving DecidableEq, Repr

/-- The status an engine word or a launch word fills into an S register later (R89). -/
structure Fill where
  id : Nat
  g : Nat
  w : Nat
  s : Nat
  s2 : Option Nat
  /-- 0 LAUNCH, 1 SHDEF or SHDROP, 2 FEED, 3 GRAB, 4 SGET HBEAT, 5 FENCESC, 6 PRESS -/
  kind : Nat
  x : DWord
  y : DWord
  /-- the record read at issue -/
  bytes : List Byte
  deriving DecidableEq, Repr

/-- An engine command of a core's copy, network, array or feeder queue, or of a wedge's splat engine. -/
structure Cmd where
  id : Nat
  /-- the engine codes of R258 and R411 -/
  engine : Nat
  unit : Nat
  g : Nat
  w : Nat
  ctx : Nat
  launch : Nat
  /-- word selector within the engine: its fn value -/
  op : Nat
  pc : DWord
  a : DWord
  b : DWord
  c : DWord
  d : DWord
  len : Nat
  byteMode : Bool
  bar : DWord
  /-- progress, in the unit R411 gives the engine -/
  done : Nat
  started : Bool
  /-- halted by a stop or an eviction (R405, R422): it makes no progress until it restarts -/
  halted : Bool
  /-- place in the command's own order of work, where that is not `done` -/
  pos : Nat := 0
  /-- bytes held and not yet subtracted from the barrier (R303) -/
  pend : Nat := 0
  /-- retransmissions of the unit in flight (R342) -/
  retry : Nat := 0
  /-- bytes or parameters taken at issue -/
  payload : List Byte := []
  /-- DETAIL of its record (R411), where it is not the context's -/
  detail : DWord := 0
  /-- stream blocks it has claimed, in the order it uses them (R195): stream and block -/
  blocks : List (Nat × Nat) := []
  /-- its work is done and its completion is to come -/
  finished : Bool := false
  /-- its arrivals carry the error bit (R197, R200) -/
  error : Bool := false
  deriving DecidableEq, Repr

/-- A service record (R86, R112): VSVC, VSVCN, or a VATOMX lane. -/
structure SvcRec where
  id : Nat
  wheel : Nat
  part : Nat
  ctx : Nat
  g : Nat
  w : Nat
  lanes : LaneMask
  /-- destination register, none for VSVCN -/
  dst : Option Nat
  service : DWord
  args : List (List Word)
  /-- ticks since it was queued (R87) -/
  queuedAt : Nat
  taken : Bool
  /-- a VATOMX lane: its request and lane (R282) -/
  req : Option (Nat × Nat)
  /-- the lanes that issued the call -/
  who : LaneMask := 0
  /-- the virtual cycle of its reply in a DET context (R429) -/
  due : Nat := 0
  /-- a VATOMX that a peer sent (R336): its package, the address and what it brought -/
  from_ : Option (Nat × Nat × List Byte) := none
  deriving DecidableEq, Repr

/-- A lane that waits for a key (R305): arrival order is the list's; SECWDOG as the request was made (R322). -/
structure SecWait where
  call : Nat
  g : Nat
  w : Nat
  lane : Nat
  seq : BitVec 32
  wdog : DWord
  deriving DecidableEq, Repr

/-- A key's state at its home wedge (R305, R306): holder as group, wave, lane; release record as core and time; ticks since
the last entry or leave while it has waiters and no holder (R322); an entry in the overflow area (R318). -/
structure SecKey where
  ctx : Nat
  key : DWord
  home : Nat
  expected : BitVec 32
  holder : Option (Nat × Nat × Nat)
  rcd : Option (Nat × Nat)
  waiters : List SecWait
  idle : Nat
  spilled : Bool
  deriving DecidableEq, Repr

/-- A section word in flight: 0 VENTER, 1 VENTERT, 2 VSECQ; the lanes whose request or answer is still to come, each
lane's key and sequence number, and the lanes refused so far. -/
structure SecCall where
  id : Nat
  kind : Nat
  g : Nat
  w : Nat
  ctx : Nat
  dst : Nat
  who : LaneMask
  lanes : LaneMask
  keys : List DWord
  seqs : List (BitVec 32)
  refused : LaneMask
  /-- SECWDOG as the request was made (R322) -/
  wdog : DWord := 0
  /-- lanes whose grant landed while the wave was out, and whose acquire is made at its restore (R324) -/
  granted : LaneMask := 0
  deriving DecidableEq, Repr

/-- An enabled entry of a partition's forwarding channel table (R346): its number, its four qwords, the sender's permits, and
the slots of the receiver's queue that its records occupy. -/
structure Chan where
  part : Nat
  n : Nat
  entry : BitVec 256
  permits : Nat
  occupied : Nat
  deriving DecidableEq, Repr

/-- A record sent on a channel whose permit has not returned, oldest first (R349, R351). -/
structure Fwd where
  id : Nat
  part : Nat
  ch : Nat
  ctx : Nat
  launch : Nat
  retry : Nat
  bytes : List Byte
  deriving DecidableEq, Repr

/-- An arrival that an agent of a context has sent to a barrier of a peer, whose acknowledgement has not returned (R328, R344). -/
structure Send where
  id : Nat
  ctx : Nat
  launch : Option Nat
  va : DWord
  /-- NPOST's arrival: its command, which completes only then (R344); retransmissions so far (R342) -/
  cmd : Option Nat := none
  retry : Nat := 0
  deriving DecidableEq, Repr

/-- An invalidation that a borrowing package has not acknowledged (R353): its number, the status fill that waits for it, and the
object's entry. -/
structure Recall where
  num : Nat
  fill : Nat
  obj : Nat
  deriving DecidableEq, Repr

/-- A line of the borrow cache (R353): Galord-form address over 4,096, and the bytes. -/
structure Borrow where
  part : Nat
  line : Nat
  bytes : List Byte
  deriving DecidableEq, Repr

/-- A subscriber of a stream (R194): its group, the number of blocks it has claimed, and those it has consumed or is to
discard as they land (R195, R197). -/
structure Subscriber where
  g : Nat
  claimed : Nat
  used : List Nat
  drop : List Nat
  deriving DecidableEq, Repr

/-- What travels beside a stream's block (R451): scale exponents of its elements, and smoothing factors. -/
structure Beside where
  t : Nat
  scales : List Nat
  smooth : List Nat
  deriving DecidableEq, Repr

/-- A stream (R194): the command that carries it, its owner and number, its shape, blocks, window, kind, origin, K
coordinates and rows per block, window offset, subscribers, blocks read so far, and what travels beside those not yet used. -/
structure Stream where
  id : Nat
  g : Nat
  q : Nat
  shape : BitVec 512
  nblocks : Nat
  win : Nat
  rowKind : Bool
  n0 : Nat
  k0 : Nat
  ks : Nat
  rows : Nat
  woff : Nat
  subs : List Subscriber
  read : Nat
  beside : List Beside
  deriving DecidableEq, Repr

/-- A gang (R196): the members that have not ended, whether one of them met a partner fault (R197), its barrier offset and
its members' groups. -/
structure Gang where
  id : Nat
  left : List Nat
  error : Bool
  boff : Option Nat
  members : List Nat
  deriving DecidableEq, Repr

/-- A visit (R219): the ray, the target treelet, the near distance, the instance record inside an instance, and the treelet
edges from the ray's first visit (R209). Oldest first. -/
structure Visit where
  ray : Nat
  wedge : Nat
  treelet : Nat
  near : Nat
  inst : Option Nat
  edges : Nat
  deriving DecidableEq, Repr

/-- An entry of a ray table (R218): its destination, the scene, the ray in world space, the kept hit as instance id,
primitive word, u and v, and the count of outstanding visits. -/
structure Ray where
  id : Nat
  wedge : Nat
  core : Nat
  ctx : Nat
  launch : Nat
  g : Nat
  w : Nat
  lane : Nat
  who : LaneMask
  dst : Nat
  scene : Nat
  any : Bool
  cullFront : Bool
  cullBack : Bool
  mask : BitVec 8
  o : List Nat
  d : List Nat
  tmin : Nat
  tcur : Nat
  hit : Option (Nat × Nat × Nat × Nat)
  count : Nat
  /-- treelets that the ray unit traverses itself within the visit in progress (R219, step 4) -/
  todo : List Visit := []
  deriving DecidableEq, Repr

/-- A VSAMPLE in flight (R229): the lanes still to land and each lane's four channels. -/
structure Sample where
  id : Nat
  g : Nat
  w : Nat
  dst : Nat
  who : LaneMask
  lanes : LaneMask
  vals : List (List Nat)
  deriving DecidableEq, Repr

/-- A tile of a press collective at this rank (R359): its number, the merges it has been through, its packet, whether that
is the final result, and whether OUT holds it. -/
structure PressTile where
  t : Nat
  level : Nat
  packet : List Byte
  final : Bool
  written : Bool
  deriving DecidableEq, Repr

/-- What a press has sent to a rank (R342, R364): its number, the rank, the tile, gathering or not, whether it is the closing notice
of a round instead of a tile (`t` is then the round's block), its retransmissions, and how it stands. -/
structure PressSend where
  id : Nat
  rank : Nat
  t : Nat
  gather : Bool
  notice : Bool
  retry : Nat
  /-- 0 in flight, 1 acknowledged, 2 lost, 3 to be sent again when the context resumes -/
  st : Nat
  deriving DecidableEq, Repr

/-- A collective that a press holds (R357): its command, the record's first qword, whether a lost tile stops it, its tiles
once it has started, the tiles received (rank, tile, gathering), what it has sent, the tiles lost, the error its completion
carries (R364), and whether it has arrived at BAR and has its record still to send (R365). -/
structure Coll where
  id : Nat
  part : Nat
  word0 : DWord
  stops : Bool
  tiles : List PressTile
  got : List (Nat × Nat × Bool)
  sends : List PressSend
  lost : Nat
  error : Bool
  arrived : Bool := false
  deriving DecidableEq, Repr

/-- A tile packet in a press's staging store (R365): press, sending rank, first qword of the sender's record, gathering, and
the packet; no packet marks a tile that was lost (R364). A notice waits as its lost tiles do: `note` is 1 for a lost tile that the
press has not counted yet, and 2 for a notice that was lost itself. -/
structure Staged where
  press : Nat
  src : Nat
  word0 : DWord
  gather : Bool
  packet : Option (List Byte)
  tile : Nat
  note : Nat := 0
  deriving DecidableEq, Repr

/-- A virtual head (R393, R394): wedge, number, the record as enabled, and the place in its ring where the next access unit
goes. -/
structure Head where
  wedge : Nat
  head : Nat
  record : List Byte
  pos : Nat
  frames : Nat
  deriving DecidableEq, Repr

/-- Something the module sends out: a host response, an interrupt, a link or port message, a report. -/
inductive Out where
  /-- response to a host access: function or device number, bytes, 0 success, 1 error, 2 retry -/
  | host (vf : Nat) (status : Nat) (bytes : List Byte)
  /-- MSI-X vector of a function (R406) -/
  | msix (vf : Nat) (vec : Nat)
  /-- Galord request to a peer: address, kind, bytes (R326). Kinds: 0 load and 3 acquiring load (bytes of the access), 1 store
  and 2 release store (data), 4 atomic (operation, 64-bit flag, x and y of 8 bytes), 5 barrier (operation, 8 bytes), 6 VATOMX
  (routine, x and y of 4 bytes). DESIGN CHOICE (log 13) -/
  | galord (addr : DWord) (kind : Nat) (bytes : List Byte)
  /-- response to a remote access: 0 done, 1 refused, 2 a barrier's phase has changed (R292), 3 done and immutable; 4 tells a borrower
  which addresses of an object to drop, with a number, and 5 is its acknowledgement of that number (R353) -/
  | remote (pkg : Nat) (status : Nat) (bytes : List Byte)
  /-- network payload to a peer module -/
  | net (part : Nat) (kind : Nat) (bytes : List Byte)
  /-- a forwarded work record on a channel (R348) -/
  | forward (part : Nat) (ch : Nat) (bytes : List Byte)
  /-- a permit returned to a channel's sender (R350) -/
  | permit (part : Nat) (ch : Nat)
  /-- a press tile packet to a peer -/
  | press (port : Nat) (dst : Nat) (bytes : List Byte)
  /-- a press's acknowledgement of a tile or a notice: the port, the sending rank, COLLID and the sender's number (R440) -/
  | pressAck (port : Nat) (src : Nat) (collid : Nat) (num : Nat)
  /-- a frame that a head shows (R393) -/
  | frame (wedge : Nat) (head : Nat) (bytes : List Byte)
  /-- an attestation report (R392) -/
  | report (bytes : List Byte)
  /-- a report of the management controller: 0 an image failed verification, with its stage (R391, R448); 1 wedges held in
  reset, as a mask (R448) -/
  | mgmt (what : Nat) (value : Nat)
  deriving DecidableEq, Repr

/-- What issue selection changed (R63): each fragment's age, the yielding fragment, the context and the pipe whose turn a DET
wave took, and the wave that the pipe had taken before. -/
structure Undo where
  ages : List (Nat × Nat)
  yielded : Option Nat
  pipe : Option (Nat × Nat × Nat) := none
  last : Option Nat := none
  /-- waves that had given an issue opportunity of this pipe away (R99): group, wave -/
  gives : List (Nat × Nat) := []
  deriving DecidableEq, Repr

/-- The issue unit in progress (R34, R35): the fragment that issues, its first word's address, the address of the next
word, and the prefixes read so far. -/
structure Cur where
  g : Nat
  w : Nat
  f : Nat
  unitPc : DWord
  pc : DWord
  /-- the word last fetched, as FINFO of ILLEGAL_WORD reports it (R398) -/
  word : Word
  imm : Option (BitVec 22)
  ord : Option (BitVec 2)
  rep : Option (BitVec 4 × Bool × Bool × Bool × BitVec 3)
  /-- put back when the unit turns out to be blocked before its issue (R63) -/
  undo : Option Undo := none
  deriving DecidableEq, Repr

/-- Module stages of R447. -/
inductive Stage where
  | off | rootOk | firmwareOk | released | recovery
  deriving DecidableEq, Repr

/-- A transport session (R390): a partition, a link or a port with its number, and the number of the key negotiated for it. -/
structure Session where
  part : Nat
  link : Bool
  n : Nat
  key : Nat
  deriving DecidableEq, Repr

/-- Module-wide state: bring-up, roots of trust, identity, logs (R1, R18, R427, R447). -/
structure Module where
  stage : Stage
  /-- 0 primary, 1 standby (R18) -/
  rot : Nat
  pkgid : Option (BitVec 18)
  released : BitVec 20
  mroot : List Byte
  mmgmt : List Byte
  msvc : List Byte
  errlog : List ErrEntry
  /-- ports (0 to 7) and links (0 to 15) assigned: number and partition (R17) -/
  ports : List (Nat × Nat)
  links : List (Nat × Nat)
  /-- links that retrain after a lasting failure (R328) -/
  retraining : List Nat
  /-- key numbers handed out so far (R390) -/
  keys : Nat
  /-- firmware image written in recovery, awaiting the next bring-up (R448) -/
  recImage : List Byte
  /-- transport sessions in force (R390) -/
  sessions : List Session := []
  deriving DecidableEq, Repr

/-- An invalidation under way (R385): drop made, accesses in flight to be waited for. -/
structure Inval where
  id : Nat
  vf : Option Nat
  reqs : List Nat
  /-- the kernel-mode wave that wrote TLBINV, whose next unit waits -/
  wave : Option (Nat × Nat) := none
  /-- stores whose registration at the home was on its way -/
  regs : List Reg := []
  deriving DecidableEq, Repr

/-- The whole machine. -/
structure State where
  top : Module
  mem : List Cell
  parts : List Part
  vfs : List Vf
  ctxs : List Ctx
  launches : List Launch
  groups : List Group
  waves : List Wave
  /-- cores whose vats groups have left since the vat was last written to zero (R369, R447) -/
  vatUsed : List Nat
  l0 : List TlbEntry
  tlb : List TlbEntry
  l1 : List L1Word
  regq : List Reg
  owners : List Owner
  dir : List SyncRec
  surrs : List Surr
  reqs : List Req
  /-- waves that qualified for a reserved miss-status entry, oldest first: core, group, wave (R85) -/
  missq : List (Nat × Nat × Nat)
  faults : List PageFault
  invals : List Inval
  ranges : List RangeEntry
  tokens : List Token
  /-- multicast table (R354): entry number and its 272 bytes -/
  mcast : List (Nat × List Byte)
  chans : List Chan
  fwds : List Fwd
  sends : List Send
  borrow : List Borrow
  /-- packages that have borrowed an object of this module: object's entry and package (R353) -/
  lenders : List (Nat × Nat)
  recalls : List Recall
  /-- peers that wait at a barrier of this module (R286, R292): its address, the package, and the Galord-form address by which
  the peer names it -/
  peerWatches : List (Nat × Nat × Nat)
  fills : List Fill
  cmds : List Cmd
  /-- the group whose copy commands a core's copy engine served last (R303): core, group -/
  copyTurn : List (Nat × Nat)
  svc : List SvcRec
  /-- the partition whose record a wheel's service group took last (R86): wheel, partition -/
  svcTurn : List (Nat × Nat)
  /-- records that a wheel's service group has answered for a partition (R411): wheel, partition, count -/
  svcDone : List (Nat × Nat × Nat)
  secs : List SecKey
  calls : List SecCall
  streams : List Stream
  gangs : List Gang
  /-- the group that a core's array served last (R188): core, group -/
  arrayTurn : List (Nat × Nat)
  rays : List Ray
  visits : List Visit
  /-- the treelet queue that a wedge's controller served last (R219): wedge, queue -/
  rayTurn : List (Nat × Nat)
  samples : List Sample
  colls : List Coll
  staging : List Staged
  /-- deliveries that a press has taken: press, COLLID, rank, the sender's number (R440) -/
  pressHad : List (Nat × Nat × Nat × Nat)
  heads : List Head
  cur : Option Cur
  turns : List Nat
  /-- events to come: the module's own, and what the outside world does to it -/
  agenda : List Event
  /-- what the event being run brings with it -/
  ev : EvArgs
  /-- the wave that issued last, for the rotation of issue opportunities -/
  lastWave : Nat × Nat
  out : List Out
  /-- next identifier; also the number of the next free choice -/
  seq : Nat
  /-- core cycles since power-on -/
  cycle : Nat
  /-- how often the hosts have written their own memory, as far as this module can tell (R262) -/
  hostEpoch : Nat
  deriving DecidableEq, Repr

/-- Where the model itself stops. DESIGN CHOICE (log 62). -/
inductive Fault where
  /-- An instruction word reached `exec` with no issuing fragment in the state (no unit in progress, or one that names no
  wave, group, context, launch or partition of the state). No run of `step` raises it from a well-formed state; it is
  safe, because no real machine issues a word without a fragment. -/
  | noIssuer
  deriving DecidableEq, Repr

/-- Refusals. -/
inductive Refusal where
  /-- An arm of `exec` that has no meaning yet: raised by Dispatch only; safe. -/
  | notModelled (mnemonic : String)
  deriving DecidableEq, Repr

/-- The module right after reset: no power yet (R447 starts at power-on), nothing released, nothing assigned.
DESIGN CHOICE (log 4). -/
def State.reset : State where
  top := { stage := .off, rot := 0, pkgid := none, released := 0, mroot := [], mmgmt := [], msvc := [], errlog := [],
           ports := [], links := [], retraining := [], keys := 0, recImage := [] }
  mem := []
  parts := []
  vfs := []
  ctxs := []
  launches := []
  groups := []
  waves := []
  vatUsed := []
  l0 := []
  tlb := []
  l1 := []
  regq := []
  owners := []
  dir := []
  surrs := []
  reqs := []
  missq := []
  faults := []
  invals := []
  ranges := []
  tokens := []
  mcast := []
  chans := []
  fwds := []
  sends := []
  borrow := []
  lenders := []
  recalls := []
  peerWatches := []
  fills := []
  cmds := []
  copyTurn := []
  svc := []
  svcTurn := []
  svcDone := []
  secs := []
  calls := []
  streams := []
  gangs := []
  arrayTurn := []
  rays := []
  visits := []
  rayTurn := []
  samples := []
  colls := []
  staging := []
  pressHad := []
  heads := []
  cur := none
  turns := []
  agenda := []
  ev := {}
  lastWave := (0, 0)
  out := []
  seq := 0
  cycle := 0
  hostEpoch := 0

end Sys2Proof.Machine
end

