-- ==== Sys2Proof/WellFormed.lean ====
section
/-! DEFINITION. Well-formedness of instructions as syntax: the named reasons a word is rejected (R28, R30, R32, R37 to
R39, R149) and the field values that are no instruction. Limits that depend on the wave (R27) are checked at issue,
in the meanings. -/

namespace Sys2Proof

/-- Why a word is no instruction; each is ILLEGAL_WORD at issue (R39). -/
inductive Reject where
  /-- 0x0000_0000 (R39) -/
  | zeroWord
  /-- a reserved major of its set (R37, R38) -/
  | reservedMajor
  /-- a reserved fn value (R37, R38) -/
  | reservedFn
  /-- a reserved width of an SM word (R30) -/
  | reservedWidth
  /-- a prefix of a reserved kind (R34) -/
  | reservedKind
  /-- a nonzero must-be-zero field (R28) -/
  | mustBeZero
  /-- a constant outside the range its word gives (R149) -/
  | constant
  /-- fewer than four bytes -/
  | truncated
  deriving DecidableEq, Repr

/-- True for the rows with an encoding, false for events. -/
def Instr.isWord : Instr → Bool
  | .hostSubmission => false
  | .hostPlainLoad => false
  | .hostPlainStore => false
  | .syncWindowLoad => false
  | .syncWindowStore => false
  | .hostSnoop => false
  | .ctxrootWrite => false
  | .invStage1Page => false
  | .invContext => false
  | .tlbinvStage1Page => false
  | .tlbinvContext => false
  | .tlbinvStage2Page => false
  | .tlbinvPartition => false
  | .invalidationComplete => false
  | .ctxctlResume => false
  | .ctxctlWithdraw => false
  | .ctxctlStop => false
  | .modeWrite => false
  | .borrowcfgWrite => false
  | .registerWrite => false
  | .packageIdentityWrite => false
  | .partitionCreate => false
  | .partitionDestroy => false
  | .portAssignment => false
  | .channelEnable => false
  | .multicastEntryWrite => false
  | .importGrantWrite => false
  | .attestationRequest => false
  | .recoveryFirmwareWrite => false
  | .headEnable => false
  | .frameStart => false
  | .encoderFrameComplete => false
  | .powerOn => false
  | .hbmTrainingComplete => false
  | .heartbeatTick => false
  | .assayAudit => false
  | .fragmentMerge => false
  | .issueSelection => false
  | .sectionDeadlockSearch => false
  | .sectionWatchdog => false
  | .contextWatchdog => false
  | .serviceWatchdog => false
  | .quantumExpiry => false
  | .nodeBatchTimeout => false
  | .migrationCounterHalving => false
  | .pageMigration => false
  | .powerHold => false
  | .serviceTurnEnd => false
  | .serviceBatch => false
  | .pageFaultResolution => false
  | .serviceReplyLands => false
  | .launchEligible => false
  | .clusterPlacement => false
  | .clusterEviction => false
  | .clusterRestore => false
  | .nodeGroupStart => false
  | .groupEnd => false
  | .gridCompletionArrival => false
  | .graphEnd => false
  | .loadResultLands => false
  | .launchStatusFill => false
  | .shapeStatusFill => false
  | .feedStatusFill => false
  | .grabServed => false
  | .registration => false
  | .atomicAtHome => false
  | .surrender => false
  | .surrenderComplete => false
  | .barrierNotify => false
  | .copyUnitHeld => false
  | .copyComplete => false
  | .engineCommandIssueWaitEnd => false
  | .networkUnitAck => false
  | .networkCommandComplete => false
  | .networkReceive => false
  | .remoteAccessArrival => false
  | .remoteErrorResponse => false
  | .flitCrcFailure => false
  | .retransmitTimeout => false
  | .forwardRecordArrival => false
  | .permitReturn => false
  | .arrayCommandStart => false
  | .arrayCommandComplete => false
  | .gangCompletion => false
  | .streamBlockDelivered => false
  | .feederPush => false
  | .treeletVisit => false
  | .rayResultLands => false
  | .sampleResultLands => false
  | .splatCommandRun => false
  | .sectionRequestArrival => false
  | .sectionGrant => false
  | .sectionRefuse => false
  | .ventertAnswer => false
  | .vsecqAnswer => false
  | .pressCollectiveStart => false
  | .pressTileArrival => false
  | .pressTileLoss => false
  | .pressComplete => false
  | .halt => false
  | .agentStop => false
  | .stopSaveComplete => false
  | .hbmReadFailure => false
  | .secdedError => false
  | .detRecorderInput => false
  | .powerOff => false
  | .linkRetrained => false
  | .virtualFunctionAssignment => false
  | .tenantKeyImport => false
  | .borrowInvalidation => false
  | _ => true

/-- Target codes of a conversion selector (R161). -/
def cvtTarget (pair : Bool) (sel : BitVec 7) : Bool :=
  [1, 2, 5, 6, 7, 8, 9, 10].contains (sel.toNat % 16) || (pair && [4, 12].contains (sel.toNat % 16))

/-- The field values that are no instruction, by name; none for a well-formed instruction. -/
def Instr.check : Instr → Option Reject
  | .vadd d a b ea eb => if d = 0 ∧ a = 0 ∧ b = 0 ∧ ea = false ∧ eb = false then some .zeroWord else none
  | .vld _ _ _ k f => if 7 < f.toNat then some .reservedFn else if f = 7 ∧ k ≠ 0 then some .mustBeZero else none
  | .vst _ _ _ _ f => if f = 0 ∨ f = 2 ∨ f = 4 ∨ f = 5 ∨ f = 6 then none else some .reservedFn
  | .vldp _ _ _ k f => if 7 < f.toNat then some .reservedFn else if f = 7 ∧ k ≠ 0 then some .mustBeZero else none
  | .vstp _ _ _ _ f => if f = 0 ∨ f = 2 ∨ f = 4 ∨ f = 5 ∨ f = 6 then none else some .reservedFn
  | .vred _ _ _ _ f => if f = 9 ∨ f = 10 then some .reservedFn else none
  | .vpref _ _ _ f => if 3 < f.toNat then some .reservedFn else none
  | .satom _ _ _ f => if f = 12 ∨ f = 13 then some .reservedFn else none
  | .sld _ _ _ w => if w = 7 then some .reservedWidth else none
  | .sst _ _ _ w => if w = 0 ∨ w = 2 ∨ w = 4 ∨ w = 6 then none else some .reservedWidth
  | .vcvt _ _ s _ => if cvtTarget true s then none else some .constant
  | .vcvts _ _ s _ => if cvtTarget false s then none else some .constant
  | .vretag _ _ c _ => if c = 15 then some .constant else none
  | .vqswap _ _ k _ => if k = 1 ∨ k = 2 ∨ k = 3 then none else some .constant
  | .vqbcast _ _ j _ => if 3 < j.toNat then some .constant else none
  | .vddx _ _ m _ => if 1 < m.toNat then some .constant else none
  | .vddy _ _ m _ => if 1 < m.toNat then some .constant else none
  | .vreduce _ _ o _ => if 10 < o.toNat then some .constant else none
  | .vscan _ _ _ o _ => if 10 < o.toNat then some .constant else none
  | _ => none

/-- A well-formed instruction word: an encoding with no reserved value. -/
def Instr.wf (i : Instr) : Bool := i.isWord && i.check.isNone

end Sys2Proof
end

