-- ==== Sys2Proof/Decode.lean ====
section
/-! DEFINITION. The decoder of instruction words (R23 to R34, R37 to R39) and the encoder, both written from the
encoding tables of the manual. The decoder is total: every word gives an instruction or a named reject, and every
reject is the ILLEGAL_WORD of R39 when it is met at issue. Fields are read with division and remainder on the word's
value, so that field (lo, n) is bits [lo + n - 1 : lo]. -/

namespace Sys2Proof

/-- Bits [lo + n - 1 : lo] of a word. -/
def fld (w lo n : Nat) : BitVec n := BitVec.ofNat n (w / 2 ^ lo)

/-- Bit lo of a word. -/
def bit (w lo : Nat) : Bool := w / 2 ^ lo % 2 = 1

/-- Lane set, major 0x00. -/
def decodeMajor00 (w : Nat) : Except Reject Instr :=
  match w / 2 ^ 0 % 2 ^ 2 with
  | 0 => .ok (.vadd (fld w 18 7) (fld w 11 7) (fld w 4 7) (bit w 3) (bit w 2))
  | 1 => .ok (.vsub (fld w 18 7) (fld w 11 7) (fld w 4 7) (bit w 3) (bit w 2))
  | 2 => .ok (.vmul (fld w 18 7) (fld w 11 7) (fld w 4 7) (bit w 3) (bit w 2))
  | 3 => .ok (.vmulh (fld w 18 7) (fld w 11 7) (fld w 4 7) (bit w 3) (bit w 2))
  | _ => .error .reservedFn

/-- Lane set, major 0x01. -/
def decodeMajor01 (w : Nat) : Except Reject Instr :=
  match w / 2 ^ 0 % 2 ^ 2 with
  | 0 => .ok (.vand (fld w 18 7) (fld w 11 7) (fld w 4 7) (bit w 3) (bit w 2))
  | 1 => .ok (.vor (fld w 18 7) (fld w 11 7) (fld w 4 7) (bit w 3) (bit w 2))
  | 2 => .ok (.vxor (fld w 18 7) (fld w 11 7) (fld w 4 7) (bit w 3) (bit w 2))
  | 3 => .ok (.vandn (fld w 18 7) (fld w 11 7) (fld w 4 7) (bit w 3) (bit w 2))
  | _ => .error .reservedFn

/-- Lane set, major 0x02. -/
def decodeMajor02 (w : Nat) : Except Reject Instr :=
  match w / 2 ^ 0 % 2 ^ 2 with
  | 0 => .ok (.vshl (fld w 18 7) (fld w 11 7) (fld w 4 7) (bit w 3) (bit w 2))
  | 1 => .ok (.vshr (fld w 18 7) (fld w 11 7) (fld w 4 7) (bit w 3) (bit w 2))
  | 2 => .ok (.vsar (fld w 18 7) (fld w 11 7) (fld w 4 7) (bit w 3) (bit w 2))
  | 3 => .ok (.vrot (fld w 18 7) (fld w 11 7) (fld w 4 7) (bit w 3) (bit w 2))
  | _ => .error .reservedFn

/-- Lane set, major 0x03. -/
def decodeMajor03 (w : Nat) : Except Reject Instr :=
  match w / 2 ^ 0 % 2 ^ 2 with
  | 0 => .ok (.vmin (fld w 18 7) (fld w 11 7) (fld w 4 7) (bit w 3) (bit w 2))
  | 1 => .ok (.vmax (fld w 18 7) (fld w 11 7) (fld w 4 7) (bit w 3) (bit w 2))
  | 2 => .ok (.vminu (fld w 18 7) (fld w 11 7) (fld w 4 7) (bit w 3) (bit w 2))
  | 3 => .ok (.vmaxu (fld w 18 7) (fld w 11 7) (fld w 4 7) (bit w 3) (bit w 2))
  | _ => .error .reservedFn

/-- Lane set, major 0x04. -/
def decodeMajor04 (w : Nat) : Except Reject Instr :=
  match w / 2 ^ 0 % 2 ^ 2 with
  | 0 => .ok (.vceq (fld w 18 7) (fld w 11 7) (fld w 4 7) (bit w 3) (bit w 2))
  | 1 => .ok (.vcne (fld w 18 7) (fld w 11 7) (fld w 4 7) (bit w 3) (bit w 2))
  | 2 => .ok (.vclt (fld w 18 7) (fld w 11 7) (fld w 4 7) (bit w 3) (bit w 2))
  | 3 => .ok (.vcltu (fld w 18 7) (fld w 11 7) (fld w 4 7) (bit w 3) (bit w 2))
  | _ => .error .reservedFn

/-- Lane set, major 0x05. -/
def decodeMajor05 (w : Nat) : Except Reject Instr :=
  match w / 2 ^ 0 % 2 ^ 2 with
  | 0 => .ok (.vsel (fld w 18 7) (fld w 11 7) (fld w 4 7) (bit w 3) (bit w 2))
  | 1 => if w / 2 ^ 2 % 2 ^ 1 = 0 ∧ w / 2 ^ 4 % 2 ^ 7 = 0 then .ok (.vabs (fld w 18 7) (fld w 11 7) (bit w 3)) else .error .mustBeZero
  | 2 => if w / 2 ^ 2 % 2 ^ 1 = 0 ∧ w / 2 ^ 4 % 2 ^ 7 = 0 then .ok (.vclz (fld w 18 7) (fld w 11 7) (bit w 3)) else .error .mustBeZero
  | 3 => if w / 2 ^ 2 % 2 ^ 1 = 0 ∧ w / 2 ^ 4 % 2 ^ 7 = 0 then .ok (.vpopc (fld w 18 7) (fld w 11 7) (bit w 3)) else .error .mustBeZero
  | _ => .error .reservedFn

/-- Lane set, major 0x06. -/
def decodeMajor06 (w : Nat) : Except Reject Instr :=
  match w / 2 ^ 0 % 2 ^ 2 with
  | 0 => .ok (.vmad (fld w 18 7) (fld w 11 7) (fld w 4 7) (bit w 3) (bit w 2))
  | 1 => .ok (.vdiv (fld w 18 7) (fld w 11 7) (fld w 4 7) (bit w 3) (bit w 2))
  | 2 => .ok (.vdivu (fld w 18 7) (fld w 11 7) (fld w 4 7) (bit w 3) (bit w 2))
  | 3 => .ok (.vrem (fld w 18 7) (fld w 11 7) (fld w 4 7) (bit w 3) (bit w 2))
  | _ => .error .reservedFn

/-- Lane set, major 0x07. -/
def decodeMajor07 (w : Nat) : Except Reject Instr :=
  .ok (.vaddi (fld w 18 7) (fld w 11 7) (fld w 0 11))

/-- Lane set, major 0x08. -/
def decodeMajor08 (w : Nat) : Except Reject Instr :=
  .ok (.vandi (fld w 18 7) (fld w 11 7) (fld w 0 11))

/-- Lane set, major 0x09. -/
def decodeMajor09 (w : Nat) : Except Reject Instr :=
  .ok (.vori (fld w 18 7) (fld w 11 7) (fld w 0 11))

/-- Lane set, major 0x0A. -/
def decodeMajor0A (w : Nat) : Except Reject Instr :=
  .ok (.vxori (fld w 18 7) (fld w 11 7) (fld w 0 11))

/-- Lane set, major 0x0B. -/
def decodeMajor0B (w : Nat) : Except Reject Instr :=
  if w / 2 ^ 5 % 2 ^ 4 = 0 then .ok (.vshi (fld w 18 7) (fld w 11 7) (fld w 9 2) (fld w 0 5)) else .error .mustBeZero

/-- Lane set, major 0x0C. -/
def decodeMajor0C (w : Nat) : Except Reject Instr :=
  if w / 2 ^ 11 % 2 ^ 7 = 0 then .ok (.vmovi (fld w 18 7) (fld w 0 11)) else .error .mustBeZero

/-- Lane set, major 0x0D. -/
def decodeMajor0D (w : Nat) : Except Reject Instr :=
  match w / 2 ^ 0 % 2 ^ 2 with
  | 0 => .ok (.vfadd (fld w 18 7) (fld w 11 7) (fld w 4 7) (bit w 3) (bit w 2))
  | 1 => .ok (.vfsub (fld w 18 7) (fld w 11 7) (fld w 4 7) (bit w 3) (bit w 2))
  | 2 => .ok (.vfmul (fld w 18 7) (fld w 11 7) (fld w 4 7) (bit w 3) (bit w 2))
  | 3 => .ok (.vfmin (fld w 18 7) (fld w 11 7) (fld w 4 7) (bit w 3) (bit w 2))
  | _ => .error .reservedFn

/-- Lane set, major 0x0E. -/
def decodeMajor0E (w : Nat) : Except Reject Instr :=
  match w / 2 ^ 0 % 2 ^ 2 with
  | 0 => .ok (.vfma (fld w 18 7) (fld w 11 7) (fld w 4 7) (bit w 3) (bit w 2))
  | 1 => .ok (.vfnma (fld w 18 7) (fld w 11 7) (fld w 4 7) (bit w 3) (bit w 2))
  | 2 => .ok (.vfmax (fld w 18 7) (fld w 11 7) (fld w 4 7) (bit w 3) (bit w 2))
  | 3 => .ok (.vfcpsgn (fld w 18 7) (fld w 11 7) (fld w 4 7) (bit w 3) (bit w 2))
  | _ => .error .reservedFn

/-- Lane set, major 0x0F. -/
def decodeMajor0F (w : Nat) : Except Reject Instr :=
  match w / 2 ^ 0 % 2 ^ 2 with
  | 0 => .ok (.vfceq (fld w 18 7) (fld w 11 7) (fld w 4 7) (bit w 3) (bit w 2))
  | 1 => .ok (.vfclt (fld w 18 7) (fld w 11 7) (fld w 4 7) (bit w 3) (bit w 2))
  | 2 => .ok (.vfcle (fld w 18 7) (fld w 11 7) (fld w 4 7) (bit w 3) (bit w 2))
  | 3 => .ok (.vfcun (fld w 18 7) (fld w 11 7) (fld w 4 7) (bit w 3) (bit w 2))
  | _ => .error .reservedFn

/-- Lane set, major 0x10. -/
def decodeMajor10 (w : Nat) : Except Reject Instr :=
  match w / 2 ^ 0 % 2 ^ 2 with
  | 0 => .ok (.vdadd (fld w 18 7) (fld w 11 7) (fld w 4 7) (bit w 3) (bit w 2))
  | 1 => .ok (.vdsub (fld w 18 7) (fld w 11 7) (fld w 4 7) (bit w 3) (bit w 2))
  | 2 => .ok (.vdmul (fld w 18 7) (fld w 11 7) (fld w 4 7) (bit w 3) (bit w 2))
  | 3 => .ok (.vdfma (fld w 18 7) (fld w 11 7) (fld w 4 7) (bit w 3) (bit w 2))
  | _ => .error .reservedFn

/-- Lane set, major 0x11. -/
def decodeMajor11 (w : Nat) : Except Reject Instr :=
  match w / 2 ^ 0 % 2 ^ 2 with
  | 0 => .ok (.vdmin (fld w 18 7) (fld w 11 7) (fld w 4 7) (bit w 3) (bit w 2))
  | 1 => .ok (.vdmax (fld w 18 7) (fld w 11 7) (fld w 4 7) (bit w 3) (bit w 2))
  | 2 => .ok (.vdceq (fld w 18 7) (fld w 11 7) (fld w 4 7) (bit w 3) (bit w 2))
  | 3 => .ok (.vdclt (fld w 18 7) (fld w 11 7) (fld w 4 7) (bit w 3) (bit w 2))
  | _ => .error .reservedFn

/-- Lane set, major 0x12. -/
def decodeMajor12 (w : Nat) : Except Reject Instr :=
  match w / 2 ^ 0 % 2 ^ 2 with
  | 0 => .ok (.vhadd (fld w 18 7) (fld w 11 7) (fld w 4 7) (bit w 3) (bit w 2))
  | 1 => .ok (.vhmul (fld w 18 7) (fld w 11 7) (fld w 4 7) (bit w 3) (bit w 2))
  | 2 => .ok (.vhfma (fld w 18 7) (fld w 11 7) (fld w 4 7) (bit w 3) (bit w 2))
  | 3 => .ok (.vhmax (fld w 18 7) (fld w 11 7) (fld w 4 7) (bit w 3) (bit w 2))
  | _ => .error .reservedFn

/-- Lane set, major 0x13. -/
def decodeMajor13 (w : Nat) : Except Reject Instr :=
  match w / 2 ^ 0 % 2 ^ 2 with
  | 0 => .ok (.vbadd (fld w 18 7) (fld w 11 7) (fld w 4 7) (bit w 3) (bit w 2))
  | 1 => .ok (.vbmul (fld w 18 7) (fld w 11 7) (fld w 4 7) (bit w 3) (bit w 2))
  | 2 => .ok (.vbfma (fld w 18 7) (fld w 11 7) (fld w 4 7) (bit w 3) (bit w 2))
  | 3 => .ok (.vbmax (fld w 18 7) (fld w 11 7) (fld w 4 7) (bit w 3) (bit w 2))
  | _ => .error .reservedFn

/-- Lane set, major 0x14. -/
def decodeMajor14 (w : Nat) : Except Reject Instr :=
  match w / 2 ^ 0 % 2 ^ 2 with
  | 0 => if w / 2 ^ 2 % 2 ^ 1 = 0 ∧ w / 2 ^ 4 % 2 ^ 7 = 0 then .ok (.vrcp (fld w 18 7) (fld w 11 7) (bit w 3)) else .error .mustBeZero
  | 1 => if w / 2 ^ 2 % 2 ^ 1 = 0 ∧ w / 2 ^ 4 % 2 ^ 7 = 0 then .ok (.vrsq (fld w 18 7) (fld w 11 7) (bit w 3)) else .error .mustBeZero
  | 2 => if w / 2 ^ 2 % 2 ^ 1 = 0 ∧ w / 2 ^ 4 % 2 ^ 7 = 0 then .ok (.vsqrt (fld w 18 7) (fld w 11 7) (bit w 3)) else .error .mustBeZero
  | 3 => if w / 2 ^ 2 % 2 ^ 1 = 0 ∧ w / 2 ^ 4 % 2 ^ 7 = 0 then .ok (.vexp2 (fld w 18 7) (fld w 11 7) (bit w 3)) else .error .mustBeZero
  | _ => .error .reservedFn

/-- Lane set, major 0x15. -/
def decodeMajor15 (w : Nat) : Except Reject Instr :=
  match w / 2 ^ 0 % 2 ^ 2 with
  | 0 => if w / 2 ^ 2 % 2 ^ 1 = 0 ∧ w / 2 ^ 4 % 2 ^ 7 = 0 then .ok (.vlog2 (fld w 18 7) (fld w 11 7) (bit w 3)) else .error .mustBeZero
  | 1 => if w / 2 ^ 2 % 2 ^ 1 = 0 ∧ w / 2 ^ 4 % 2 ^ 7 = 0 then .ok (.vsin (fld w 18 7) (fld w 11 7) (bit w 3)) else .error .mustBeZero
  | 2 => if w / 2 ^ 2 % 2 ^ 1 = 0 ∧ w / 2 ^ 4 % 2 ^ 7 = 0 then .ok (.vcos (fld w 18 7) (fld w 11 7) (bit w 3)) else .error .mustBeZero
  | 3 => if w / 2 ^ 2 % 2 ^ 1 = 0 ∧ w / 2 ^ 4 % 2 ^ 7 = 0 then .ok (.vfclass (fld w 18 7) (fld w 11 7) (bit w 3)) else .error .mustBeZero
  | _ => .error .reservedFn

/-- Lane set, major 0x16. -/
def decodeMajor16 (w : Nat) : Except Reject Instr :=
  match w / 2 ^ 0 % 2 ^ 2 with
  | 0 => if w / 2 ^ 2 % 2 ^ 1 = 0 then .ok (.vcvt (fld w 18 7) (fld w 11 7) (fld w 4 7) (bit w 3)) else .error .mustBeZero
  | 1 => if w / 2 ^ 2 % 2 ^ 1 = 0 then .ok (.vcvts (fld w 18 7) (fld w 11 7) (fld w 4 7) (bit w 3)) else .error .mustBeZero
  | 2 => if w / 2 ^ 2 % 2 ^ 1 = 0 ∧ w / 2 ^ 8 % 2 ^ 3 = 0 then .ok (.vretag (fld w 18 7) (fld w 11 7) (fld w 4 4) (bit w 3)) else .error .mustBeZero
  | 3 => if w / 2 ^ 2 % 2 ^ 1 = 0 ∧ w / 2 ^ 4 % 2 ^ 7 = 0 then .ok (.vgettag (fld w 18 7) (fld w 11 7) (bit w 3)) else .error .mustBeZero
  | _ => .error .reservedFn

/-- Lane set, major 0x17. -/
def decodeMajor17 (w : Nat) : Except Reject Instr :=
  match w / 2 ^ 0 % 2 ^ 2 with
  | 0 => if w / 2 ^ 2 % 2 ^ 1 = 0 then .ok (.vqswap (fld w 18 7) (fld w 11 7) (fld w 4 7) (bit w 3)) else .error .mustBeZero
  | 1 => if w / 2 ^ 2 % 2 ^ 1 = 0 then .ok (.vqbcast (fld w 18 7) (fld w 11 7) (fld w 4 7) (bit w 3)) else .error .mustBeZero
  | 2 => if w / 2 ^ 2 % 2 ^ 1 = 0 then .ok (.vddx (fld w 18 7) (fld w 11 7) (fld w 4 7) (bit w 3)) else .error .mustBeZero
  | 3 => if w / 2 ^ 2 % 2 ^ 1 = 0 then .ok (.vddy (fld w 18 7) (fld w 11 7) (fld w 4 7) (bit w 3)) else .error .mustBeZero
  | _ => .error .reservedFn

/-- Lane set, major 0x18. -/
def decodeMajor18 (w : Nat) : Except Reject Instr :=
  match w / 2 ^ 0 % 2 ^ 2 with
  | 0 => .ok (.vshfl (fld w 18 7) (fld w 11 7) (fld w 4 7) (bit w 3) (bit w 2))
  | 1 => if w / 2 ^ 2 % 2 ^ 1 = 0 ∧ w / 2 ^ 4 % 2 ^ 7 = 0 then .ok (.vballot (fld w 18 7) (fld w 11 7) (bit w 3)) else .error .mustBeZero
  | 2 => if w / 2 ^ 2 % 2 ^ 1 = 0 ∧ w / 2 ^ 8 % 2 ^ 3 = 0 then .ok (.vreduce (fld w 18 7) (fld w 11 7) (fld w 4 4) (bit w 3)) else .error .mustBeZero
  | 3 => if w / 2 ^ 2 % 2 ^ 1 = 0 ∧ w / 2 ^ 9 % 2 ^ 2 = 0 then .ok (.vscan (fld w 18 7) (fld w 11 7) (bit w 8) (fld w 4 4) (bit w 3)) else .error .mustBeZero
  | _ => .error .reservedFn

/-- Lane set, major 0x19. -/
def decodeMajor19 (w : Nat) : Except Reject Instr :=
  match w / 2 ^ 0 % 2 ^ 2 with
  | 0 => if w / 2 ^ 3 % 2 ^ 1 = 0 ∧ w / 2 ^ 11 % 2 ^ 7 = 0 then .ok (.vmovs (fld w 18 7) (fld w 4 7) (bit w 2)) else .error .mustBeZero
  | 1 => if w / 2 ^ 2 % 2 ^ 16 = 0 then .ok (.vlaneid (fld w 18 7)) else .error .mustBeZero
  | 2 => .ok (.vreadlane (fld w 18 7) (fld w 11 7) (fld w 4 7) (bit w 3) (bit w 2))
  | 3 => if w / 2 ^ 2 % 2 ^ 1 = 0 ∧ w / 2 ^ 4 % 2 ^ 7 = 0 then .ok (.vmark (fld w 18 7) (fld w 11 7) (bit w 3)) else .error .mustBeZero
  | _ => .error .reservedFn

/-- Lane set, major 0x20. -/
def decodeMajor20 (w : Nat) : Except Reject Instr :=
  .ok (.vld (fld w 18 7) (fld w 11 7) (fld w 6 5) (fld w 4 2) (fld w 0 4))

/-- Lane set, major 0x21. -/
def decodeMajor21 (w : Nat) : Except Reject Instr :=
  .ok (.vst (fld w 18 7) (fld w 11 7) (fld w 6 5) (fld w 4 2) (fld w 0 4))

/-- Lane set, major 0x22. -/
def decodeMajor22 (w : Nat) : Except Reject Instr :=
  .ok (.vldp (fld w 18 7) (fld w 11 7) (fld w 6 5) (fld w 4 2) (fld w 0 4))

/-- Lane set, major 0x23. -/
def decodeMajor23 (w : Nat) : Except Reject Instr :=
  .ok (.vstp (fld w 18 7) (fld w 11 7) (fld w 6 5) (fld w 4 2) (fld w 0 4))

/-- Lane set, major 0x24. -/
def decodeMajor24 (w : Nat) : Except Reject Instr :=
  .ok (.vatom (fld w 18 7) (fld w 11 7) (fld w 6 5) (fld w 4 2) (fld w 0 4))

/-- Lane set, major 0x25. -/
def decodeMajor25 (w : Nat) : Except Reject Instr :=
  .ok (.vred (fld w 18 7) (fld w 11 7) (fld w 6 5) (fld w 4 2) (fld w 0 4))

/-- Lane set, major 0x26. -/
def decodeMajor26 (w : Nat) : Except Reject Instr :=
  .ok (.vatomx (fld w 18 7) (fld w 11 7) (fld w 6 5) (fld w 4 2) (fld w 0 4))

/-- Lane set, major 0x27. -/
def decodeMajor27 (w : Nat) : Except Reject Instr :=
  if w / 2 ^ 18 % 2 ^ 7 = 0 then .ok (.vpref (fld w 11 7) (fld w 6 5) (fld w 4 2) (fld w 0 4)) else .error .mustBeZero

/-- Lane set, major 0x28. -/
def decodeMajor28 (w : Nat) : Except Reject Instr :=
  .ok (.vtrace (fld w 18 7) (fld w 11 7) (fld w 4 7) (bit w 3) (bit w 2) (fld w 0 2))

/-- Lane set, major 0x29. -/
def decodeMajor29 (w : Nat) : Except Reject Instr :=
  .ok (.vsample (fld w 18 7) (fld w 11 7) (fld w 4 7) (bit w 3) (bit w 2) (fld w 0 2))

/-- Lane set, major 0x2A. -/
def decodeMajor2A (w : Nat) : Except Reject Instr :=
  match w / 2 ^ 0 % 2 ^ 2 with
  | 0 => .ok (.vsvc (fld w 18 7) (fld w 11 7) (fld w 4 7) (bit w 3) (bit w 2))
  | 1 => if w / 2 ^ 18 % 2 ^ 7 = 0 then .ok (.vsvcn (fld w 11 7) (fld w 4 7) (bit w 3) (bit w 2)) else .error .mustBeZero
  | 2 => if w / 2 ^ 18 % 2 ^ 7 = 0 then .ok (.vfwd (fld w 11 7) (fld w 4 7) (bit w 3) (bit w 2)) else .error .mustBeZero
  | 3 => .ok (.vfwdt (fld w 18 7) (fld w 11 7) (fld w 4 7) (bit w 3) (bit w 2))
  | _ => .error .reservedFn

/-- Lane set, major 0x2B. -/
def decodeMajor2B (w : Nat) : Except Reject Instr :=
  match w / 2 ^ 0 % 2 ^ 2 with
  | 0 => if w / 2 ^ 18 % 2 ^ 7 = 0 then .ok (.venter (fld w 11 7) (fld w 4 7) (bit w 3) (bit w 2)) else .error .mustBeZero
  | 1 => .ok (.ventert (fld w 18 7) (fld w 11 7) (fld w 4 7) (bit w 3) (bit w 2))
  | 2 => if w / 2 ^ 2 % 2 ^ 1 = 0 ∧ w / 2 ^ 5 % 2 ^ 6 = 0 ∧ w / 2 ^ 18 % 2 ^ 7 = 0 then .ok (.vleave (fld w 11 7) (bit w 4) (bit w 3)) else .error .mustBeZero
  | 3 => if w / 2 ^ 2 % 2 ^ 1 = 0 ∧ w / 2 ^ 4 % 2 ^ 7 = 0 then .ok (.vsecq (fld w 18 7) (fld w 11 7) (bit w 3)) else .error .mustBeZero
  | _ => .error .reservedFn

/-- Lane set, major 0x30. -/
def decodeMajor30 (w : Nat) : Except Reject Instr :=
  .ok (.vbnz (fld w 18 7) (fld w 14 4) (fld w 0 14))

/-- Lane set, major 0x31. -/
def decodeMajor31 (w : Nat) : Except Reject Instr :=
  .ok (.vbz (fld w 18 7) (fld w 14 4) (fld w 0 14))

/-- Lane set, major 0x32. -/
def decodeMajor32 (w : Nat) : Except Reject Instr :=
  match w / 2 ^ 0 % 2 ^ 2 with
  | 0 => if w / 2 ^ 2 % 2 ^ 1 = 0 ∧ w / 2 ^ 4 % 2 ^ 7 = 0 ∧ w / 2 ^ 18 % 2 ^ 7 = 0 then .ok (.vjr (fld w 11 7) (bit w 3)) else .error .mustBeZero
  | 1 => if w / 2 ^ 2 % 2 ^ 1 = 0 ∧ w / 2 ^ 4 % 2 ^ 7 = 0 then .ok (.vjalr (fld w 18 7) (fld w 11 7) (bit w 3)) else .error .mustBeZero
  | 2 => if w / 2 ^ 2 % 2 ^ 23 = 0 then .ok .vexit else .error .mustBeZero
  | 3 => if w / 2 ^ 2 % 2 ^ 1 = 0 ∧ w / 2 ^ 4 % 2 ^ 7 = 0 ∧ w / 2 ^ 18 % 2 ^ 7 = 0 then .ok (.vtrap (fld w 11 7) (bit w 3)) else .error .mustBeZero
  | _ => .error .reservedFn

/-- Uniform set, major 0x00. -/
def decodeMajor40 (w : Nat) : Except Reject Instr :=
  match w / 2 ^ 0 % 2 ^ 4 with
  | 0 => .ok (.sadd (fld w 18 7) (fld w 11 7) (fld w 4 7))
  | 1 => .ok (.ssub (fld w 18 7) (fld w 11 7) (fld w 4 7))
  | 2 => .ok (.smul (fld w 18 7) (fld w 11 7) (fld w 4 7))
  | 3 => .ok (.smulh (fld w 18 7) (fld w 11 7) (fld w 4 7))
  | _ => .error .reservedFn

/-- Uniform set, major 0x01. -/
def decodeMajor41 (w : Nat) : Except Reject Instr :=
  match w / 2 ^ 0 % 2 ^ 4 with
  | 0 => .ok (.sand (fld w 18 7) (fld w 11 7) (fld w 4 7))
  | 1 => .ok (.sor (fld w 18 7) (fld w 11 7) (fld w 4 7))
  | 2 => .ok (.sxor (fld w 18 7) (fld w 11 7) (fld w 4 7))
  | 3 => .ok (.sandn (fld w 18 7) (fld w 11 7) (fld w 4 7))
  | _ => .error .reservedFn

/-- Uniform set, major 0x02. -/
def decodeMajor42 (w : Nat) : Except Reject Instr :=
  match w / 2 ^ 0 % 2 ^ 4 with
  | 0 => .ok (.sshl (fld w 18 7) (fld w 11 7) (fld w 4 7))
  | 1 => .ok (.sshr (fld w 18 7) (fld w 11 7) (fld w 4 7))
  | 2 => .ok (.ssar (fld w 18 7) (fld w 11 7) (fld w 4 7))
  | 3 => .ok (.srot (fld w 18 7) (fld w 11 7) (fld w 4 7))
  | _ => .error .reservedFn

/-- Uniform set, major 0x03. -/
def decodeMajor43 (w : Nat) : Except Reject Instr :=
  match w / 2 ^ 0 % 2 ^ 4 with
  | 0 => .ok (.smin (fld w 18 7) (fld w 11 7) (fld w 4 7))
  | 1 => .ok (.smax (fld w 18 7) (fld w 11 7) (fld w 4 7))
  | 2 => .ok (.sminu (fld w 18 7) (fld w 11 7) (fld w 4 7))
  | 3 => .ok (.smaxu (fld w 18 7) (fld w 11 7) (fld w 4 7))
  | _ => .error .reservedFn

/-- Uniform set, major 0x04. -/
def decodeMajor44 (w : Nat) : Except Reject Instr :=
  match w / 2 ^ 0 % 2 ^ 4 with
  | 0 => .ok (.sceq (fld w 18 7) (fld w 11 7) (fld w 4 7))
  | 1 => .ok (.scne (fld w 18 7) (fld w 11 7) (fld w 4 7))
  | 2 => .ok (.sclt (fld w 18 7) (fld w 11 7) (fld w 4 7))
  | 3 => .ok (.scltu (fld w 18 7) (fld w 11 7) (fld w 4 7))
  | _ => .error .reservedFn

/-- Uniform set, major 0x05. -/
def decodeMajor45 (w : Nat) : Except Reject Instr :=
  match w / 2 ^ 0 % 2 ^ 4 with
  | 0 => .ok (.ssel (fld w 18 7) (fld w 11 7) (fld w 4 7))
  | 1 => if w / 2 ^ 4 % 2 ^ 7 = 0 then .ok (.sclz (fld w 18 7) (fld w 11 7)) else .error .mustBeZero
  | 2 => if w / 2 ^ 4 % 2 ^ 7 = 0 then .ok (.spopc (fld w 18 7) (fld w 11 7)) else .error .mustBeZero
  | 3 => .ok (.sdivu (fld w 18 7) (fld w 11 7) (fld w 4 7))
  | _ => .error .reservedFn

/-- Uniform set, major 0x06. -/
def decodeMajor46 (w : Nat) : Except Reject Instr :=
  .ok (.saddi (fld w 18 7) (fld w 11 7) (fld w 0 11))

/-- Uniform set, major 0x07. -/
def decodeMajor47 (w : Nat) : Except Reject Instr :=
  .ok (.sandi (fld w 18 7) (fld w 11 7) (fld w 0 11))

/-- Uniform set, major 0x08. -/
def decodeMajor48 (w : Nat) : Except Reject Instr :=
  .ok (.sori (fld w 18 7) (fld w 11 7) (fld w 0 11))

/-- Uniform set, major 0x09. -/
def decodeMajor49 (w : Nat) : Except Reject Instr :=
  if w / 2 ^ 6 % 2 ^ 3 = 0 then .ok (.sshi (fld w 18 7) (fld w 11 7) (fld w 9 2) (fld w 0 6)) else .error .mustBeZero

/-- Uniform set, major 0x0A. -/
def decodeMajor4A (w : Nat) : Except Reject Instr :=
  .ok (.smovi (fld w 18 7) (fld w 0 18))

/-- Uniform set, major 0x0B. -/
def decodeMajor4B (w : Nat) : Except Reject Instr :=
  match w / 2 ^ 0 % 2 ^ 4 with
  | 0 => .ok (.sfadd (fld w 18 7) (fld w 11 7) (fld w 4 7))
  | 1 => .ok (.sfmul (fld w 18 7) (fld w 11 7) (fld w 4 7))
  | 2 => .ok (.sffma (fld w 18 7) (fld w 11 7) (fld w 4 7))
  | 3 => .ok (.sfclt (fld w 18 7) (fld w 11 7) (fld w 4 7))
  | _ => .error .reservedFn

/-- Uniform set, major 0x10. -/
def decodeMajor50 (w : Nat) : Except Reject Instr :=
  .ok (.sld (fld w 18 7) (fld w 11 7) (fld w 3 8) (fld w 0 3))

/-- Uniform set, major 0x11. -/
def decodeMajor51 (w : Nat) : Except Reject Instr :=
  .ok (.sst (fld w 18 7) (fld w 11 7) (fld w 3 8) (fld w 0 3))

/-- Uniform set, major 0x12. -/
def decodeMajor52 (w : Nat) : Except Reject Instr :=
  .ok (.satom (fld w 18 7) (fld w 11 7) (fld w 4 7) (fld w 0 4))

/-- Uniform set, major 0x18. -/
def decodeMajor58 (w : Nat) : Except Reject Instr :=
  .ok (.sbz (fld w 18 7) (fld w 14 4) (fld w 0 14))

/-- Uniform set, major 0x19. -/
def decodeMajor59 (w : Nat) : Except Reject Instr :=
  .ok (.sbnz (fld w 18 7) (fld w 14 4) (fld w 0 14))

/-- Uniform set, major 0x1A. -/
def decodeMajor5A (w : Nat) : Except Reject Instr :=
  .ok (.scall (fld w 18 7) (fld w 0 18))

/-- Uniform set, major 0x1B. -/
def decodeMajor5B (w : Nat) : Except Reject Instr :=
  match w / 2 ^ 0 % 2 ^ 4 with
  | 0 => if w / 2 ^ 4 % 2 ^ 7 = 0 then .ok (.sjr (fld w 18 7) (fld w 11 7)) else .error .mustBeZero
  | 1 => if w / 2 ^ 4 % 2 ^ 21 = 0 then .ok .sexit else .error .mustBeZero
  | 2 => if w / 2 ^ 4 % 2 ^ 21 = 0 then .ok .syield else .error .mustBeZero
  | 3 => if w / 2 ^ 4 % 2 ^ 21 = 0 then .ok .sconv else .error .mustBeZero
  | 4 => if w / 2 ^ 4 % 2 ^ 14 = 0 then .ok (.sfrag (fld w 18 7)) else .error .mustBeZero
  | 5 => if w / 2 ^ 4 % 2 ^ 14 = 0 then .ok (.slive (fld w 18 7)) else .error .mustBeZero
  | _ => .error .reservedFn

/-- Uniform set, major 0x20. -/
def decodeMajor60 (w : Nat) : Except Reject Instr :=
  match w / 2 ^ 0 % 2 ^ 4 with
  | 0 => if w / 2 ^ 4 % 2 ^ 7 = 0 then .ok (.binit (fld w 18 7) (fld w 11 7)) else .error .mustBeZero
  | 1 => .ok (.barrive (fld w 18 7) (fld w 11 7) (fld w 4 7))
  | 2 => .ok (.barrivec (fld w 18 7) (fld w 11 7) (fld w 4 7))
  | 3 => if w / 2 ^ 4 % 2 ^ 7 = 0 then .ok (.bexpect (fld w 18 7) (fld w 11 7)) else .error .mustBeZero
  | 4 => if w / 2 ^ 4 % 2 ^ 7 = 0 then .ok (.bwait (fld w 18 7) (fld w 11 7)) else .error .mustBeZero
  | 5 => .ok (.btest (fld w 18 7) (fld w 11 7) (fld w 4 7))
  | 6 => if w / 2 ^ 4 % 2 ^ 7 = 0 then .ok (.bwatch (fld w 18 7) (fld w 11 7)) else .error .mustBeZero
  | 7 => if w / 2 ^ 4 % 2 ^ 14 = 0 then .ok (.gridbar (fld w 18 7)) else .error .mustBeZero
  | _ => .error .reservedFn

/-- Uniform set, major 0x21. -/
def decodeMajor61 (w : Nat) : Except Reject Instr :=
  match w / 2 ^ 0 % 2 ^ 4 with
  | 0 => if w / 2 ^ 4 % 2 ^ 14 = 0 then .ok (.fencesc (fld w 18 7)) else .error .mustBeZero
  | 1 => if w / 2 ^ 4 % 2 ^ 7 = 0 then .ok (.acq (fld w 18 7) (fld w 11 7)) else .error .mustBeZero
  | 2 => if w / 2 ^ 4 % 2 ^ 7 = 0 then .ok (.rel (fld w 18 7) (fld w 11 7)) else .error .mustBeZero
  | 3 => if w / 2 ^ 4 % 2 ^ 7 = 0 then .ok (.tokpass (fld w 18 7) (fld w 11 7)) else .error .mustBeZero
  | 4 => if w / 2 ^ 4 % 2 ^ 7 = 0 then .ok (.tokreq (fld w 18 7) (fld w 11 7)) else .error .mustBeZero
  | 5 => if w / 2 ^ 4 % 2 ^ 21 = 0 then .ok .surr else .error .mustBeZero
  | 6 => if w / 2 ^ 4 % 2 ^ 21 = 0 then .ok .inval else .error .mustBeZero
  | _ => .error .reservedFn

/-- Uniform set, major 0x22. -/
def decodeMajor62 (w : Nat) : Except Reject Instr :=
  match w / 2 ^ 0 % 2 ^ 4 with
  | 0 => .ok (.copy (fld w 18 7) (fld w 11 7) (fld w 4 7))
  | 1 => .ok (.copys (fld w 18 7) (fld w 11 7) (fld w 4 7))
  | 2 => .ok (.fill (fld w 18 7) (fld w 11 7) (fld w 4 7))
  | 3 => .ok (.copym (fld w 18 7) (fld w 11 7) (fld w 4 7))
  | _ => .error .reservedFn

/-- Uniform set, major 0x23. -/
def decodeMajor63 (w : Nat) : Except Reject Instr :=
  match w / 2 ^ 0 % 2 ^ 4 with
  | 0 => .ok (.nput (fld w 18 7) (fld w 11 7) (fld w 4 7))
  | 1 => .ok (.nget (fld w 18 7) (fld w 11 7) (fld w 4 7))
  | 2 => .ok (.npost (fld w 18 7) (fld w 11 7) (fld w 4 7))
  | 3 => .ok (.press (fld w 18 7) (fld w 11 7) (fld w 4 7))
  | _ => .error .reservedFn

/-- Uniform set, major 0x24. -/
def decodeMajor64 (w : Nat) : Except Reject Instr :=
  match w / 2 ^ 0 % 2 ^ 4 with
  | 0 => if w / 2 ^ 8 % 2 ^ 10 = 0 then .ok (.mtcfg (fld w 18 7) (fld w 4 4)) else .error .mustBeZero
  | 1 => if w / 2 ^ 8 % 2 ^ 17 = 0 then .ok (.mzero (fld w 4 4)) else .error .mustBeZero
  | 2 => .ok (.mldw (fld w 18 7) (fld w 11 7) (fld w 4 7))
  | 3 => if w / 2 ^ 4 % 2 ^ 21 = 0 then .ok .mswap else .error .mustBeZero
  | 4 => if w / 2 ^ 8 % 2 ^ 3 = 0 then .ok (.mstr (fld w 18 7) (fld w 11 7) (fld w 4 4)) else .error .mustBeZero
  | 5 => if w / 2 ^ 8 % 2 ^ 3 = 0 then .ok (.mgang (fld w 18 7) (fld w 11 7) (fld w 4 4)) else .error .mustBeZero
  | 6 => .ok (.mvalid (fld w 18 7) (fld w 11 7) (fld w 4 7))
  | 7 => if w / 2 ^ 4 % 2 ^ 7 = 0 then .ok (.mjoin (fld w 18 7) (fld w 11 7)) else .error .mustBeZero
  | 8 => if w / 2 ^ 8 % 2 ^ 3 = 0 then .ok (.mtld (fld w 18 7) (fld w 11 7) (fld w 4 4)) else .error .mustBeZero
  | 9 => if w / 2 ^ 8 % 2 ^ 3 = 0 then .ok (.mtst (fld w 18 7) (fld w 11 7) (fld w 4 4)) else .error .mustBeZero
  | 10 => if w / 2 ^ 8 % 2 ^ 3 = 0 then .ok (.mtrow (fld w 18 7) (fld w 11 7) (fld w 4 4)) else .error .mustBeZero
  | 11 => if w / 2 ^ 8 % 2 ^ 3 = 0 then .ok (.mtcol (fld w 18 7) (fld w 11 7) (fld w 4 4)) else .error .mustBeZero
  | 12 => if w / 2 ^ 8 % 2 ^ 3 = 0 then .ok (.mtwrow (fld w 18 7) (fld w 11 7) (fld w 4 4)) else .error .mustBeZero
  | 13 => if w / 2 ^ 8 % 2 ^ 3 = 0 then .ok (.mtwcol (fld w 18 7) (fld w 11 7) (fld w 4 4)) else .error .mustBeZero
  | _ => .error .reservedFn

/-- Uniform set, major 0x25. -/
def decodeMajor65 (w : Nat) : Except Reject Instr :=
  match w / 2 ^ 0 % 2 ^ 4 with
  | 0 => if w / 2 ^ 4 % 2 ^ 7 = 0 then .ok (.feed (fld w 18 7) (fld w 11 7)) else .error .mustBeZero
  | 1 => if w / 2 ^ 4 % 2 ^ 7 = 0 then .ok (.qbind (fld w 18 7) (fld w 11 7)) else .error .mustBeZero
  | 2 => if w / 2 ^ 4 % 2 ^ 14 = 0 then .ok (.qunbind (fld w 18 7)) else .error .mustBeZero
  | 3 => .ok (.shdef (fld w 18 7) (fld w 11 7) (fld w 4 7))
  | 4 => if w / 2 ^ 4 % 2 ^ 7 = 0 then .ok (.shdrop (fld w 18 7) (fld w 11 7)) else .error .mustBeZero
  | 5 => .ok (.stream (fld w 18 7) (fld w 11 7) (fld w 4 7))
  | _ => .error .reservedFn

/-- Uniform set, major 0x26. -/
def decodeMajor66 (w : Nat) : Except Reject Instr :=
  match w / 2 ^ 0 % 2 ^ 4 with
  | 0 => if w / 2 ^ 4 % 2 ^ 7 = 0 then .ok (.launch (fld w 18 7) (fld w 11 7)) else .error .mustBeZero
  | 1 => .ok (.enq (fld w 18 7) (fld w 11 7) (fld w 4 7))
  | 2 => .ok (.rangeset (fld w 18 7) (fld w 11 7) (fld w 4 7))
  | 3 => .ok (.grab (fld w 18 7) (fld w 11 7) (fld w 4 7))
  | 4 => .ok (.splat (fld w 18 7) (fld w 11 7) (fld w 4 7))
  | _ => .error .reservedFn

/-- Uniform set, major 0x3C. -/
def decodeMajor7C (w : Nat) : Except Reject Instr :=
  if w / 2 ^ 11 % 2 ^ 7 = 0 then .ok (.sget (fld w 18 7) (fld w 0 11)) else .error .mustBeZero

/-- Uniform set, major 0x3D. -/
def decodeMajor7D (w : Nat) : Except Reject Instr :=
  if w / 2 ^ 18 % 2 ^ 7 = 0 then .ok (.sset (fld w 11 7) (fld w 0 11)) else .error .mustBeZero

/-- Uniform set, major 0x3E. -/
def decodeMajor7E (w : Nat) : Except Reject Instr :=
  match w / 2 ^ 0 % 2 ^ 4 with
  | 0 => if w / 2 ^ 4 % 2 ^ 7 = 0 ∧ w / 2 ^ 18 % 2 ^ 7 = 0 then .ok (.trap (fld w 11 7)) else .error .mustBeZero
  | 1 => if w / 2 ^ 4 % 2 ^ 21 = 0 then .ok .rett else .error .mustBeZero
  | 2 => if w / 2 ^ 4 % 2 ^ 21 = 0 then .ok .ebreak else .error .mustBeZero
  | 3 => if w / 2 ^ 4 % 2 ^ 21 = 0 then .ok .snop else .error .mustBeZero
  | _ => .error .reservedFn

/-- Uniform set, major 0x3F. -/
def decodeMajor7F (w : Nat) : Except Reject Instr :=
  match w / 2 ^ 22 % 2 ^ 3 with
  | 0 => .ok (.imm (fld w 0 22))
  | 1 => if w / 2 ^ 0 % 2 ^ 12 = 0 then .ok (.rep (fld w 18 4) (bit w 17) (bit w 16) (bit w 15) (fld w 12 3)) else .error .mustBeZero
  | 2 => if w / 2 ^ 0 % 2 ^ 20 = 0 then .ok (.ord (fld w 20 2)) else .error .mustBeZero
  | _ => .error .reservedKind

/-- The raw decoder: the word by its set and major (R23), before the value checks of `Instr.wf`. -/
def decodeRaw (w : Nat) : Except Reject Instr :=
  match w / 2 ^ 25 with
  | 0x00 => decodeMajor00 w
  | 0x01 => decodeMajor01 w
  | 0x02 => decodeMajor02 w
  | 0x03 => decodeMajor03 w
  | 0x04 => decodeMajor04 w
  | 0x05 => decodeMajor05 w
  | 0x06 => decodeMajor06 w
  | 0x07 => decodeMajor07 w
  | 0x08 => decodeMajor08 w
  | 0x09 => decodeMajor09 w
  | 0x0A => decodeMajor0A w
  | 0x0B => decodeMajor0B w
  | 0x0C => decodeMajor0C w
  | 0x0D => decodeMajor0D w
  | 0x0E => decodeMajor0E w
  | 0x0F => decodeMajor0F w
  | 0x10 => decodeMajor10 w
  | 0x11 => decodeMajor11 w
  | 0x12 => decodeMajor12 w
  | 0x13 => decodeMajor13 w
  | 0x14 => decodeMajor14 w
  | 0x15 => decodeMajor15 w
  | 0x16 => decodeMajor16 w
  | 0x17 => decodeMajor17 w
  | 0x18 => decodeMajor18 w
  | 0x19 => decodeMajor19 w
  | 0x20 => decodeMajor20 w
  | 0x21 => decodeMajor21 w
  | 0x22 => decodeMajor22 w
  | 0x23 => decodeMajor23 w
  | 0x24 => decodeMajor24 w
  | 0x25 => decodeMajor25 w
  | 0x26 => decodeMajor26 w
  | 0x27 => decodeMajor27 w
  | 0x28 => decodeMajor28 w
  | 0x29 => decodeMajor29 w
  | 0x2A => decodeMajor2A w
  | 0x2B => decodeMajor2B w
  | 0x30 => decodeMajor30 w
  | 0x31 => decodeMajor31 w
  | 0x32 => decodeMajor32 w
  | 0x40 => decodeMajor40 w
  | 0x41 => decodeMajor41 w
  | 0x42 => decodeMajor42 w
  | 0x43 => decodeMajor43 w
  | 0x44 => decodeMajor44 w
  | 0x45 => decodeMajor45 w
  | 0x46 => decodeMajor46 w
  | 0x47 => decodeMajor47 w
  | 0x48 => decodeMajor48 w
  | 0x49 => decodeMajor49 w
  | 0x4A => decodeMajor4A w
  | 0x4B => decodeMajor4B w
  | 0x50 => decodeMajor50 w
  | 0x51 => decodeMajor51 w
  | 0x52 => decodeMajor52 w
  | 0x58 => decodeMajor58 w
  | 0x59 => decodeMajor59 w
  | 0x5A => decodeMajor5A w
  | 0x5B => decodeMajor5B w
  | 0x60 => decodeMajor60 w
  | 0x61 => decodeMajor61 w
  | 0x62 => decodeMajor62 w
  | 0x63 => decodeMajor63 w
  | 0x64 => decodeMajor64 w
  | 0x65 => decodeMajor65 w
  | 0x66 => decodeMajor66 w
  | 0x7C => decodeMajor7C w
  | 0x7D => decodeMajor7D w
  | 0x7E => decodeMajor7E w
  | 0x7F => decodeMajor7F w
  | _ => .error .reservedMajor

/-- The decoder of one word. The all-zero word is no instruction (R39), though VADD's row would match it. -/
def decodeWord (w : Nat) : Except Reject Instr :=
  match decodeRaw (w % 2 ^ 32) with
  | .error e => .error e
  | .ok i => match i.check with
    | none => .ok i
    | some e => .error e

/-- The value of bytes stored lowest address first (R2). -/
def leNat : List Byte → Nat
  | [] => 0
  | b :: bs => b.toNat + 256 * leNat bs

/-- The n low bytes of a value, lowest address first (R2). -/
def leBytes : Nat → Nat → List Byte
  | 0, _ => []
  | n + 1, v => BitVec.ofNat 8 v :: leBytes n (v / 256)

/-- Decode one instruction from bytes as they lie in memory: the instruction and the bytes after it. -/
def decodeBytes : List Byte → Except Reject (Instr × List Byte)
  | b0 :: b1 :: b2 :: b3 :: rest =>
    match decodeWord (leNat [b0, b1, b2, b3]) with
    | .ok i => .ok (i, rest)
    | .error e => .error e
  | _ => .error .truncated

/-- The instruction the decoder reads from an opcode-table word: the word is laid out in memory (four bytes, lowest
address first) and given to the decoder. -/
def decodeTableWord (nbits w : Nat) : Option Instr :=
  if nbits = 0 ∨ 32 < nbits then none
  else match decodeBytes (leBytes 4 (w % 2 ^ nbits)) with
    | .ok (i, _) => some i
    | .error _ => none

/-- A word with fields at bits 18, 11, 4, 3, 2. -/
def pack_18_11_4_3_2 (m x0 x1 x2 x3 x4 : Nat) : Nat :=
  m + x0 * 2 ^ 18 + x1 * 2 ^ 11 + x2 * 2 ^ 4 + x3 * 2 ^ 3 + x4 * 2 ^ 2

/-- A word with fields at bits 18, 11, 3. -/
def pack_18_11_3 (m x0 x1 x2 : Nat) : Nat :=
  m + x0 * 2 ^ 18 + x1 * 2 ^ 11 + x2 * 2 ^ 3

/-- A word with fields at bits 18, 11, 0. -/
def pack_18_11_0 (m x0 x1 x2 : Nat) : Nat :=
  m + x0 * 2 ^ 18 + x1 * 2 ^ 11 + x2 * 2 ^ 0

/-- A word with fields at bits 18, 11, 9, 0. -/
def pack_18_11_9_0 (m x0 x1 x2 x3 : Nat) : Nat :=
  m + x0 * 2 ^ 18 + x1 * 2 ^ 11 + x2 * 2 ^ 9 + x3 * 2 ^ 0

/-- A word with fields at bits 18, 0. -/
def pack_18_0 (m x0 x1 : Nat) : Nat :=
  m + x0 * 2 ^ 18 + x1 * 2 ^ 0

/-- A word with fields at bits 18, 11, 4, 3. -/
def pack_18_11_4_3 (m x0 x1 x2 x3 : Nat) : Nat :=
  m + x0 * 2 ^ 18 + x1 * 2 ^ 11 + x2 * 2 ^ 4 + x3 * 2 ^ 3

/-- A word with fields at bits 18, 11, 8, 4, 3. -/
def pack_18_11_8_4_3 (m x0 x1 x2 x3 x4 : Nat) : Nat :=
  m + x0 * 2 ^ 18 + x1 * 2 ^ 11 + x2 * 2 ^ 8 + x3 * 2 ^ 4 + x4 * 2 ^ 3

/-- A word with fields at bits 18, 4, 2. -/
def pack_18_4_2 (m x0 x1 x2 : Nat) : Nat :=
  m + x0 * 2 ^ 18 + x1 * 2 ^ 4 + x2 * 2 ^ 2

/-- A word with fields at bits 18. -/
def pack_18 (m x0 : Nat) : Nat :=
  m + x0 * 2 ^ 18

/-- A word with fields at bits 18, 11, 6, 4, 0. -/
def pack_18_11_6_4_0 (m x0 x1 x2 x3 x4 : Nat) : Nat :=
  m + x0 * 2 ^ 18 + x1 * 2 ^ 11 + x2 * 2 ^ 6 + x3 * 2 ^ 4 + x4 * 2 ^ 0

/-- A word with fields at bits 11, 6, 4, 0. -/
def pack_11_6_4_0 (m x0 x1 x2 x3 : Nat) : Nat :=
  m + x0 * 2 ^ 11 + x1 * 2 ^ 6 + x2 * 2 ^ 4 + x3 * 2 ^ 0

/-- A word with fields at bits 18, 11, 4, 3, 2, 0. -/
def pack_18_11_4_3_2_0 (m x0 x1 x2 x3 x4 x5 : Nat) : Nat :=
  m + x0 * 2 ^ 18 + x1 * 2 ^ 11 + x2 * 2 ^ 4 + x3 * 2 ^ 3 + x4 * 2 ^ 2 + x5 * 2 ^ 0

/-- A word with fields at bits 11, 4, 3, 2. -/
def pack_11_4_3_2 (m x0 x1 x2 x3 : Nat) : Nat :=
  m + x0 * 2 ^ 11 + x1 * 2 ^ 4 + x2 * 2 ^ 3 + x3 * 2 ^ 2

/-- A word with fields at bits 11, 4, 3. -/
def pack_11_4_3 (m x0 x1 x2 : Nat) : Nat :=
  m + x0 * 2 ^ 11 + x1 * 2 ^ 4 + x2 * 2 ^ 3

/-- A word with fields at bits 18, 14, 0. -/
def pack_18_14_0 (m x0 x1 x2 : Nat) : Nat :=
  m + x0 * 2 ^ 18 + x1 * 2 ^ 14 + x2 * 2 ^ 0

/-- A word with fields at bits 11, 3. -/
def pack_11_3 (m x0 x1 : Nat) : Nat :=
  m + x0 * 2 ^ 11 + x1 * 2 ^ 3

/-- A word with fields at bits 18, 11, 4. -/
def pack_18_11_4 (m x0 x1 x2 : Nat) : Nat :=
  m + x0 * 2 ^ 18 + x1 * 2 ^ 11 + x2 * 2 ^ 4

/-- A word with fields at bits 18, 11. -/
def pack_18_11 (m x0 x1 : Nat) : Nat :=
  m + x0 * 2 ^ 18 + x1 * 2 ^ 11

/-- A word with fields at bits 18, 11, 3, 0. -/
def pack_18_11_3_0 (m x0 x1 x2 x3 : Nat) : Nat :=
  m + x0 * 2 ^ 18 + x1 * 2 ^ 11 + x2 * 2 ^ 3 + x3 * 2 ^ 0

/-- A word with fields at bits 18, 11, 4, 0. -/
def pack_18_11_4_0 (m x0 x1 x2 x3 : Nat) : Nat :=
  m + x0 * 2 ^ 18 + x1 * 2 ^ 11 + x2 * 2 ^ 4 + x3 * 2 ^ 0

/-- A word with fields at bits 18, 4. -/
def pack_18_4 (m x0 x1 : Nat) : Nat :=
  m + x0 * 2 ^ 18 + x1 * 2 ^ 4

/-- A word with fields at bits 4. -/
def pack_4 (m x0 : Nat) : Nat :=
  m + x0 * 2 ^ 4

/-- A word with fields at bits 11, 0. -/
def pack_11_0 (m x0 x1 : Nat) : Nat :=
  m + x0 * 2 ^ 11 + x1 * 2 ^ 0

/-- A word with fields at bits 11. -/
def pack_11 (m x0 : Nat) : Nat :=
  m + x0 * 2 ^ 11

/-- A word with fields at bits 0. -/
def pack_0 (m x0 : Nat) : Nat :=
  m + x0 * 2 ^ 0

/-- A word with fields at bits 18, 17, 16, 15, 12. -/
def pack_18_17_16_15_12 (m x0 x1 x2 x3 x4 : Nat) : Nat :=
  m + x0 * 2 ^ 18 + x1 * 2 ^ 17 + x2 * 2 ^ 16 + x3 * 2 ^ 15 + x4 * 2 ^ 12

/-- A word with fields at bits 20. -/
def pack_20 (m x0 : Nat) : Nat :=
  m + x0 * 2 ^ 20

/-- The encoder: the word of an instruction that has one (R25, R37, R38). Events have no encoding. -/
def encodeNat : Instr → Nat
  | .vadd x0 x1 x2 x3 x4 => pack_18_11_4_3_2 0x00000000 x0.toNat x1.toNat x2.toNat x3.toNat x4.toNat
  | .vsub x0 x1 x2 x3 x4 => pack_18_11_4_3_2 0x00000001 x0.toNat x1.toNat x2.toNat x3.toNat x4.toNat
  | .vmul x0 x1 x2 x3 x4 => pack_18_11_4_3_2 0x00000002 x0.toNat x1.toNat x2.toNat x3.toNat x4.toNat
  | .vmulh x0 x1 x2 x3 x4 => pack_18_11_4_3_2 0x00000003 x0.toNat x1.toNat x2.toNat x3.toNat x4.toNat
  | .vand x0 x1 x2 x3 x4 => pack_18_11_4_3_2 0x02000000 x0.toNat x1.toNat x2.toNat x3.toNat x4.toNat
  | .vor x0 x1 x2 x3 x4 => pack_18_11_4_3_2 0x02000001 x0.toNat x1.toNat x2.toNat x3.toNat x4.toNat
  | .vxor x0 x1 x2 x3 x4 => pack_18_11_4_3_2 0x02000002 x0.toNat x1.toNat x2.toNat x3.toNat x4.toNat
  | .vandn x0 x1 x2 x3 x4 => pack_18_11_4_3_2 0x02000003 x0.toNat x1.toNat x2.toNat x3.toNat x4.toNat
  | .vshl x0 x1 x2 x3 x4 => pack_18_11_4_3_2 0x04000000 x0.toNat x1.toNat x2.toNat x3.toNat x4.toNat
  | .vshr x0 x1 x2 x3 x4 => pack_18_11_4_3_2 0x04000001 x0.toNat x1.toNat x2.toNat x3.toNat x4.toNat
  | .vsar x0 x1 x2 x3 x4 => pack_18_11_4_3_2 0x04000002 x0.toNat x1.toNat x2.toNat x3.toNat x4.toNat
  | .vrot x0 x1 x2 x3 x4 => pack_18_11_4_3_2 0x04000003 x0.toNat x1.toNat x2.toNat x3.toNat x4.toNat
  | .vmin x0 x1 x2 x3 x4 => pack_18_11_4_3_2 0x06000000 x0.toNat x1.toNat x2.toNat x3.toNat x4.toNat
  | .vmax x0 x1 x2 x3 x4 => pack_18_11_4_3_2 0x06000001 x0.toNat x1.toNat x2.toNat x3.toNat x4.toNat
  | .vminu x0 x1 x2 x3 x4 => pack_18_11_4_3_2 0x06000002 x0.toNat x1.toNat x2.toNat x3.toNat x4.toNat
  | .vmaxu x0 x1 x2 x3 x4 => pack_18_11_4_3_2 0x06000003 x0.toNat x1.toNat x2.toNat x3.toNat x4.toNat
  | .vceq x0 x1 x2 x3 x4 => pack_18_11_4_3_2 0x08000000 x0.toNat x1.toNat x2.toNat x3.toNat x4.toNat
  | .vcne x0 x1 x2 x3 x4 => pack_18_11_4_3_2 0x08000001 x0.toNat x1.toNat x2.toNat x3.toNat x4.toNat
  | .vclt x0 x1 x2 x3 x4 => pack_18_11_4_3_2 0x08000002 x0.toNat x1.toNat x2.toNat x3.toNat x4.toNat
  | .vcltu x0 x1 x2 x3 x4 => pack_18_11_4_3_2 0x08000003 x0.toNat x1.toNat x2.toNat x3.toNat x4.toNat
  | .vsel x0 x1 x2 x3 x4 => pack_18_11_4_3_2 0x0A000000 x0.toNat x1.toNat x2.toNat x3.toNat x4.toNat
  | .vabs x0 x1 x2 => pack_18_11_3 0x0A000001 x0.toNat x1.toNat x2.toNat
  | .vclz x0 x1 x2 => pack_18_11_3 0x0A000002 x0.toNat x1.toNat x2.toNat
  | .vpopc x0 x1 x2 => pack_18_11_3 0x0A000003 x0.toNat x1.toNat x2.toNat
  | .vmad x0 x1 x2 x3 x4 => pack_18_11_4_3_2 0x0C000000 x0.toNat x1.toNat x2.toNat x3.toNat x4.toNat
  | .vdiv x0 x1 x2 x3 x4 => pack_18_11_4_3_2 0x0C000001 x0.toNat x1.toNat x2.toNat x3.toNat x4.toNat
  | .vdivu x0 x1 x2 x3 x4 => pack_18_11_4_3_2 0x0C000002 x0.toNat x1.toNat x2.toNat x3.toNat x4.toNat
  | .vrem x0 x1 x2 x3 x4 => pack_18_11_4_3_2 0x0C000003 x0.toNat x1.toNat x2.toNat x3.toNat x4.toNat
  | .vaddi x0 x1 x2 => pack_18_11_0 0x0E000000 x0.toNat x1.toNat x2.toNat
  | .vandi x0 x1 x2 => pack_18_11_0 0x10000000 x0.toNat x1.toNat x2.toNat
  | .vori x0 x1 x2 => pack_18_11_0 0x12000000 x0.toNat x1.toNat x2.toNat
  | .vxori x0 x1 x2 => pack_18_11_0 0x14000000 x0.toNat x1.toNat x2.toNat
  | .vshi x0 x1 x2 x3 => pack_18_11_9_0 0x16000000 x0.toNat x1.toNat x2.toNat x3.toNat
  | .vmovi x0 x1 => pack_18_0 0x18000000 x0.toNat x1.toNat
  | .vfadd x0 x1 x2 x3 x4 => pack_18_11_4_3_2 0x1A000000 x0.toNat x1.toNat x2.toNat x3.toNat x4.toNat
  | .vfsub x0 x1 x2 x3 x4 => pack_18_11_4_3_2 0x1A000001 x0.toNat x1.toNat x2.toNat x3.toNat x4.toNat
  | .vfmul x0 x1 x2 x3 x4 => pack_18_11_4_3_2 0x1A000002 x0.toNat x1.toNat x2.toNat x3.toNat x4.toNat
  | .vfmin x0 x1 x2 x3 x4 => pack_18_11_4_3_2 0x1A000003 x0.toNat x1.toNat x2.toNat x3.toNat x4.toNat
  | .vfma x0 x1 x2 x3 x4 => pack_18_11_4_3_2 0x1C000000 x0.toNat x1.toNat x2.toNat x3.toNat x4.toNat
  | .vfnma x0 x1 x2 x3 x4 => pack_18_11_4_3_2 0x1C000001 x0.toNat x1.toNat x2.toNat x3.toNat x4.toNat
  | .vfmax x0 x1 x2 x3 x4 => pack_18_11_4_3_2 0x1C000002 x0.toNat x1.toNat x2.toNat x3.toNat x4.toNat
  | .vfcpsgn x0 x1 x2 x3 x4 => pack_18_11_4_3_2 0x1C000003 x0.toNat x1.toNat x2.toNat x3.toNat x4.toNat
  | .vfceq x0 x1 x2 x3 x4 => pack_18_11_4_3_2 0x1E000000 x0.toNat x1.toNat x2.toNat x3.toNat x4.toNat
  | .vfclt x0 x1 x2 x3 x4 => pack_18_11_4_3_2 0x1E000001 x0.toNat x1.toNat x2.toNat x3.toNat x4.toNat
  | .vfcle x0 x1 x2 x3 x4 => pack_18_11_4_3_2 0x1E000002 x0.toNat x1.toNat x2.toNat x3.toNat x4.toNat
  | .vfcun x0 x1 x2 x3 x4 => pack_18_11_4_3_2 0x1E000003 x0.toNat x1.toNat x2.toNat x3.toNat x4.toNat
  | .vdadd x0 x1 x2 x3 x4 => pack_18_11_4_3_2 0x20000000 x0.toNat x1.toNat x2.toNat x3.toNat x4.toNat
  | .vdsub x0 x1 x2 x3 x4 => pack_18_11_4_3_2 0x20000001 x0.toNat x1.toNat x2.toNat x3.toNat x4.toNat
  | .vdmul x0 x1 x2 x3 x4 => pack_18_11_4_3_2 0x20000002 x0.toNat x1.toNat x2.toNat x3.toNat x4.toNat
  | .vdfma x0 x1 x2 x3 x4 => pack_18_11_4_3_2 0x20000003 x0.toNat x1.toNat x2.toNat x3.toNat x4.toNat
  | .vdmin x0 x1 x2 x3 x4 => pack_18_11_4_3_2 0x22000000 x0.toNat x1.toNat x2.toNat x3.toNat x4.toNat
  | .vdmax x0 x1 x2 x3 x4 => pack_18_11_4_3_2 0x22000001 x0.toNat x1.toNat x2.toNat x3.toNat x4.toNat
  | .vdceq x0 x1 x2 x3 x4 => pack_18_11_4_3_2 0x22000002 x0.toNat x1.toNat x2.toNat x3.toNat x4.toNat
  | .vdclt x0 x1 x2 x3 x4 => pack_18_11_4_3_2 0x22000003 x0.toNat x1.toNat x2.toNat x3.toNat x4.toNat
  | .vhadd x0 x1 x2 x3 x4 => pack_18_11_4_3_2 0x24000000 x0.toNat x1.toNat x2.toNat x3.toNat x4.toNat
  | .vhmul x0 x1 x2 x3 x4 => pack_18_11_4_3_2 0x24000001 x0.toNat x1.toNat x2.toNat x3.toNat x4.toNat
  | .vhfma x0 x1 x2 x3 x4 => pack_18_11_4_3_2 0x24000002 x0.toNat x1.toNat x2.toNat x3.toNat x4.toNat
  | .vhmax x0 x1 x2 x3 x4 => pack_18_11_4_3_2 0x24000003 x0.toNat x1.toNat x2.toNat x3.toNat x4.toNat
  | .vbadd x0 x1 x2 x3 x4 => pack_18_11_4_3_2 0x26000000 x0.toNat x1.toNat x2.toNat x3.toNat x4.toNat
  | .vbmul x0 x1 x2 x3 x4 => pack_18_11_4_3_2 0x26000001 x0.toNat x1.toNat x2.toNat x3.toNat x4.toNat
  | .vbfma x0 x1 x2 x3 x4 => pack_18_11_4_3_2 0x26000002 x0.toNat x1.toNat x2.toNat x3.toNat x4.toNat
  | .vbmax x0 x1 x2 x3 x4 => pack_18_11_4_3_2 0x26000003 x0.toNat x1.toNat x2.toNat x3.toNat x4.toNat
  | .vrcp x0 x1 x2 => pack_18_11_3 0x28000000 x0.toNat x1.toNat x2.toNat
  | .vrsq x0 x1 x2 => pack_18_11_3 0x28000001 x0.toNat x1.toNat x2.toNat
  | .vsqrt x0 x1 x2 => pack_18_11_3 0x28000002 x0.toNat x1.toNat x2.toNat
  | .vexp2 x0 x1 x2 => pack_18_11_3 0x28000003 x0.toNat x1.toNat x2.toNat
  | .vlog2 x0 x1 x2 => pack_18_11_3 0x2A000000 x0.toNat x1.toNat x2.toNat
  | .vsin x0 x1 x2 => pack_18_11_3 0x2A000001 x0.toNat x1.toNat x2.toNat
  | .vcos x0 x1 x2 => pack_18_11_3 0x2A000002 x0.toNat x1.toNat x2.toNat
  | .vfclass x0 x1 x2 => pack_18_11_3 0x2A000003 x0.toNat x1.toNat x2.toNat
  | .vcvt x0 x1 x2 x3 => pack_18_11_4_3 0x2C000000 x0.toNat x1.toNat x2.toNat x3.toNat
  | .vcvts x0 x1 x2 x3 => pack_18_11_4_3 0x2C000001 x0.toNat x1.toNat x2.toNat x3.toNat
  | .vretag x0 x1 x2 x3 => pack_18_11_4_3 0x2C000002 x0.toNat x1.toNat x2.toNat x3.toNat
  | .vgettag x0 x1 x2 => pack_18_11_3 0x2C000003 x0.toNat x1.toNat x2.toNat
  | .vqswap x0 x1 x2 x3 => pack_18_11_4_3 0x2E000000 x0.toNat x1.toNat x2.toNat x3.toNat
  | .vqbcast x0 x1 x2 x3 => pack_18_11_4_3 0x2E000001 x0.toNat x1.toNat x2.toNat x3.toNat
  | .vddx x0 x1 x2 x3 => pack_18_11_4_3 0x2E000002 x0.toNat x1.toNat x2.toNat x3.toNat
  | .vddy x0 x1 x2 x3 => pack_18_11_4_3 0x2E000003 x0.toNat x1.toNat x2.toNat x3.toNat
  | .vshfl x0 x1 x2 x3 x4 => pack_18_11_4_3_2 0x30000000 x0.toNat x1.toNat x2.toNat x3.toNat x4.toNat
  | .vballot x0 x1 x2 => pack_18_11_3 0x30000001 x0.toNat x1.toNat x2.toNat
  | .vreduce x0 x1 x2 x3 => pack_18_11_4_3 0x30000002 x0.toNat x1.toNat x2.toNat x3.toNat
  | .vscan x0 x1 x2 x3 x4 => pack_18_11_8_4_3 0x30000003 x0.toNat x1.toNat x2.toNat x3.toNat x4.toNat
  | .vmovs x0 x1 x2 => pack_18_4_2 0x32000000 x0.toNat x1.toNat x2.toNat
  | .vlaneid x0 => pack_18 0x32000001 x0.toNat
  | .vreadlane x0 x1 x2 x3 x4 => pack_18_11_4_3_2 0x32000002 x0.toNat x1.toNat x2.toNat x3.toNat x4.toNat
  | .vmark x0 x1 x2 => pack_18_11_3 0x32000003 x0.toNat x1.toNat x2.toNat
  | .vld x0 x1 x2 x3 x4 => pack_18_11_6_4_0 0x40000000 x0.toNat x1.toNat x2.toNat x3.toNat x4.toNat
  | .vst x0 x1 x2 x3 x4 => pack_18_11_6_4_0 0x42000000 x0.toNat x1.toNat x2.toNat x3.toNat x4.toNat
  | .vldp x0 x1 x2 x3 x4 => pack_18_11_6_4_0 0x44000000 x0.toNat x1.toNat x2.toNat x3.toNat x4.toNat
  | .vstp x0 x1 x2 x3 x4 => pack_18_11_6_4_0 0x46000000 x0.toNat x1.toNat x2.toNat x3.toNat x4.toNat
  | .vatom x0 x1 x2 x3 x4 => pack_18_11_6_4_0 0x48000000 x0.toNat x1.toNat x2.toNat x3.toNat x4.toNat
  | .vred x0 x1 x2 x3 x4 => pack_18_11_6_4_0 0x4A000000 x0.toNat x1.toNat x2.toNat x3.toNat x4.toNat
  | .vatomx x0 x1 x2 x3 x4 => pack_18_11_6_4_0 0x4C000000 x0.toNat x1.toNat x2.toNat x3.toNat x4.toNat
  | .vpref x0 x1 x2 x3 => pack_11_6_4_0 0x4E000000 x0.toNat x1.toNat x2.toNat x3.toNat
  | .vtrace x0 x1 x2 x3 x4 x5 => pack_18_11_4_3_2_0 0x50000000 x0.toNat x1.toNat x2.toNat x3.toNat x4.toNat x5.toNat
  | .vsample x0 x1 x2 x3 x4 x5 => pack_18_11_4_3_2_0 0x52000000 x0.toNat x1.toNat x2.toNat x3.toNat x4.toNat x5.toNat
  | .vsvc x0 x1 x2 x3 x4 => pack_18_11_4_3_2 0x54000000 x0.toNat x1.toNat x2.toNat x3.toNat x4.toNat
  | .vsvcn x0 x1 x2 x3 => pack_11_4_3_2 0x54000001 x0.toNat x1.toNat x2.toNat x3.toNat
  | .vfwd x0 x1 x2 x3 => pack_11_4_3_2 0x54000002 x0.toNat x1.toNat x2.toNat x3.toNat
  | .vfwdt x0 x1 x2 x3 x4 => pack_18_11_4_3_2 0x54000003 x0.toNat x1.toNat x2.toNat x3.toNat x4.toNat
  | .venter x0 x1 x2 x3 => pack_11_4_3_2 0x56000000 x0.toNat x1.toNat x2.toNat x3.toNat
  | .ventert x0 x1 x2 x3 x4 => pack_18_11_4_3_2 0x56000001 x0.toNat x1.toNat x2.toNat x3.toNat x4.toNat
  | .vleave x0 x1 x2 => pack_11_4_3 0x56000002 x0.toNat x1.toNat x2.toNat
  | .vsecq x0 x1 x2 => pack_18_11_3 0x56000003 x0.toNat x1.toNat x2.toNat
  | .vbnz x0 x1 x2 => pack_18_14_0 0x60000000 x0.toNat x1.toNat x2.toNat
  | .vbz x0 x1 x2 => pack_18_14_0 0x62000000 x0.toNat x1.toNat x2.toNat
  | .vjr x0 x1 => pack_11_3 0x64000000 x0.toNat x1.toNat
  | .vjalr x0 x1 x2 => pack_18_11_3 0x64000001 x0.toNat x1.toNat x2.toNat
  | .vexit => 0x64000002
  | .vtrap x0 x1 => pack_11_3 0x64000003 x0.toNat x1.toNat
  | .sadd x0 x1 x2 => pack_18_11_4 0x80000000 x0.toNat x1.toNat x2.toNat
  | .ssub x0 x1 x2 => pack_18_11_4 0x80000001 x0.toNat x1.toNat x2.toNat
  | .smul x0 x1 x2 => pack_18_11_4 0x80000002 x0.toNat x1.toNat x2.toNat
  | .smulh x0 x1 x2 => pack_18_11_4 0x80000003 x0.toNat x1.toNat x2.toNat
  | .sand x0 x1 x2 => pack_18_11_4 0x82000000 x0.toNat x1.toNat x2.toNat
  | .sor x0 x1 x2 => pack_18_11_4 0x82000001 x0.toNat x1.toNat x2.toNat
  | .sxor x0 x1 x2 => pack_18_11_4 0x82000002 x0.toNat x1.toNat x2.toNat
  | .sandn x0 x1 x2 => pack_18_11_4 0x82000003 x0.toNat x1.toNat x2.toNat
  | .sshl x0 x1 x2 => pack_18_11_4 0x84000000 x0.toNat x1.toNat x2.toNat
  | .sshr x0 x1 x2 => pack_18_11_4 0x84000001 x0.toNat x1.toNat x2.toNat
  | .ssar x0 x1 x2 => pack_18_11_4 0x84000002 x0.toNat x1.toNat x2.toNat
  | .srot x0 x1 x2 => pack_18_11_4 0x84000003 x0.toNat x1.toNat x2.toNat
  | .smin x0 x1 x2 => pack_18_11_4 0x86000000 x0.toNat x1.toNat x2.toNat
  | .smax x0 x1 x2 => pack_18_11_4 0x86000001 x0.toNat x1.toNat x2.toNat
  | .sminu x0 x1 x2 => pack_18_11_4 0x86000002 x0.toNat x1.toNat x2.toNat
  | .smaxu x0 x1 x2 => pack_18_11_4 0x86000003 x0.toNat x1.toNat x2.toNat
  | .sceq x0 x1 x2 => pack_18_11_4 0x88000000 x0.toNat x1.toNat x2.toNat
  | .scne x0 x1 x2 => pack_18_11_4 0x88000001 x0.toNat x1.toNat x2.toNat
  | .sclt x0 x1 x2 => pack_18_11_4 0x88000002 x0.toNat x1.toNat x2.toNat
  | .scltu x0 x1 x2 => pack_18_11_4 0x88000003 x0.toNat x1.toNat x2.toNat
  | .ssel x0 x1 x2 => pack_18_11_4 0x8A000000 x0.toNat x1.toNat x2.toNat
  | .sclz x0 x1 => pack_18_11 0x8A000001 x0.toNat x1.toNat
  | .spopc x0 x1 => pack_18_11 0x8A000002 x0.toNat x1.toNat
  | .sdivu x0 x1 x2 => pack_18_11_4 0x8A000003 x0.toNat x1.toNat x2.toNat
  | .saddi x0 x1 x2 => pack_18_11_0 0x8C000000 x0.toNat x1.toNat x2.toNat
  | .sandi x0 x1 x2 => pack_18_11_0 0x8E000000 x0.toNat x1.toNat x2.toNat
  | .sori x0 x1 x2 => pack_18_11_0 0x90000000 x0.toNat x1.toNat x2.toNat
  | .sshi x0 x1 x2 x3 => pack_18_11_9_0 0x92000000 x0.toNat x1.toNat x2.toNat x3.toNat
  | .smovi x0 x1 => pack_18_0 0x94000000 x0.toNat x1.toNat
  | .sfadd x0 x1 x2 => pack_18_11_4 0x96000000 x0.toNat x1.toNat x2.toNat
  | .sfmul x0 x1 x2 => pack_18_11_4 0x96000001 x0.toNat x1.toNat x2.toNat
  | .sffma x0 x1 x2 => pack_18_11_4 0x96000002 x0.toNat x1.toNat x2.toNat
  | .sfclt x0 x1 x2 => pack_18_11_4 0x96000003 x0.toNat x1.toNat x2.toNat
  | .sld x0 x1 x2 x3 => pack_18_11_3_0 0xA0000000 x0.toNat x1.toNat x2.toNat x3.toNat
  | .sst x0 x1 x2 x3 => pack_18_11_3_0 0xA2000000 x0.toNat x1.toNat x2.toNat x3.toNat
  | .satom x0 x1 x2 x3 => pack_18_11_4_0 0xA4000000 x0.toNat x1.toNat x2.toNat x3.toNat
  | .sbz x0 x1 x2 => pack_18_14_0 0xB0000000 x0.toNat x1.toNat x2.toNat
  | .sbnz x0 x1 x2 => pack_18_14_0 0xB2000000 x0.toNat x1.toNat x2.toNat
  | .scall x0 x1 => pack_18_0 0xB4000000 x0.toNat x1.toNat
  | .sjr x0 x1 => pack_18_11 0xB6000000 x0.toNat x1.toNat
  | .sexit => 0xB6000001
  | .syield => 0xB6000002
  | .sconv => 0xB6000003
  | .sfrag x0 => pack_18 0xB6000004 x0.toNat
  | .slive x0 => pack_18 0xB6000005 x0.toNat
  | .binit x0 x1 => pack_18_11 0xC0000000 x0.toNat x1.toNat
  | .barrive x0 x1 x2 => pack_18_11_4 0xC0000001 x0.toNat x1.toNat x2.toNat
  | .barrivec x0 x1 x2 => pack_18_11_4 0xC0000002 x0.toNat x1.toNat x2.toNat
  | .bexpect x0 x1 => pack_18_11 0xC0000003 x0.toNat x1.toNat
  | .bwait x0 x1 => pack_18_11 0xC0000004 x0.toNat x1.toNat
  | .btest x0 x1 x2 => pack_18_11_4 0xC0000005 x0.toNat x1.toNat x2.toNat
  | .bwatch x0 x1 => pack_18_11 0xC0000006 x0.toNat x1.toNat
  | .gridbar x0 => pack_18 0xC0000007 x0.toNat
  | .fencesc x0 => pack_18 0xC2000000 x0.toNat
  | .acq x0 x1 => pack_18_11 0xC2000001 x0.toNat x1.toNat
  | .rel x0 x1 => pack_18_11 0xC2000002 x0.toNat x1.toNat
  | .tokpass x0 x1 => pack_18_11 0xC2000003 x0.toNat x1.toNat
  | .tokreq x0 x1 => pack_18_11 0xC2000004 x0.toNat x1.toNat
  | .surr => 0xC2000005
  | .inval => 0xC2000006
  | .copy x0 x1 x2 => pack_18_11_4 0xC4000000 x0.toNat x1.toNat x2.toNat
  | .copys x0 x1 x2 => pack_18_11_4 0xC4000001 x0.toNat x1.toNat x2.toNat
  | .fill x0 x1 x2 => pack_18_11_4 0xC4000002 x0.toNat x1.toNat x2.toNat
  | .copym x0 x1 x2 => pack_18_11_4 0xC4000003 x0.toNat x1.toNat x2.toNat
  | .nput x0 x1 x2 => pack_18_11_4 0xC6000000 x0.toNat x1.toNat x2.toNat
  | .nget x0 x1 x2 => pack_18_11_4 0xC6000001 x0.toNat x1.toNat x2.toNat
  | .npost x0 x1 x2 => pack_18_11_4 0xC6000002 x0.toNat x1.toNat x2.toNat
  | .press x0 x1 x2 => pack_18_11_4 0xC6000003 x0.toNat x1.toNat x2.toNat
  | .mtcfg x0 x1 => pack_18_4 0xC8000000 x0.toNat x1.toNat
  | .mzero x0 => pack_4 0xC8000001 x0.toNat
  | .mldw x0 x1 x2 => pack_18_11_4 0xC8000002 x0.toNat x1.toNat x2.toNat
  | .mswap => 0xC8000003
  | .mstr x0 x1 x2 => pack_18_11_4 0xC8000004 x0.toNat x1.toNat x2.toNat
  | .mgang x0 x1 x2 => pack_18_11_4 0xC8000005 x0.toNat x1.toNat x2.toNat
  | .mvalid x0 x1 x2 => pack_18_11_4 0xC8000006 x0.toNat x1.toNat x2.toNat
  | .mjoin x0 x1 => pack_18_11 0xC8000007 x0.toNat x1.toNat
  | .mtld x0 x1 x2 => pack_18_11_4 0xC8000008 x0.toNat x1.toNat x2.toNat
  | .mtst x0 x1 x2 => pack_18_11_4 0xC8000009 x0.toNat x1.toNat x2.toNat
  | .mtrow x0 x1 x2 => pack_18_11_4 0xC800000A x0.toNat x1.toNat x2.toNat
  | .mtcol x0 x1 x2 => pack_18_11_4 0xC800000B x0.toNat x1.toNat x2.toNat
  | .mtwrow x0 x1 x2 => pack_18_11_4 0xC800000C x0.toNat x1.toNat x2.toNat
  | .mtwcol x0 x1 x2 => pack_18_11_4 0xC800000D x0.toNat x1.toNat x2.toNat
  | .feed x0 x1 => pack_18_11 0xCA000000 x0.toNat x1.toNat
  | .qbind x0 x1 => pack_18_11 0xCA000001 x0.toNat x1.toNat
  | .qunbind x0 => pack_18 0xCA000002 x0.toNat
  | .shdef x0 x1 x2 => pack_18_11_4 0xCA000003 x0.toNat x1.toNat x2.toNat
  | .shdrop x0 x1 => pack_18_11 0xCA000004 x0.toNat x1.toNat
  | .stream x0 x1 x2 => pack_18_11_4 0xCA000005 x0.toNat x1.toNat x2.toNat
  | .launch x0 x1 => pack_18_11 0xCC000000 x0.toNat x1.toNat
  | .enq x0 x1 x2 => pack_18_11_4 0xCC000001 x0.toNat x1.toNat x2.toNat
  | .rangeset x0 x1 x2 => pack_18_11_4 0xCC000002 x0.toNat x1.toNat x2.toNat
  | .grab x0 x1 x2 => pack_18_11_4 0xCC000003 x0.toNat x1.toNat x2.toNat
  | .splat x0 x1 x2 => pack_18_11_4 0xCC000004 x0.toNat x1.toNat x2.toNat
  | .sget x0 x1 => pack_18_0 0xF8000000 x0.toNat x1.toNat
  | .sset x0 x1 => pack_11_0 0xFA000000 x0.toNat x1.toNat
  | .trap x0 => pack_11 0xFC000000 x0.toNat
  | .rett => 0xFC000001
  | .ebreak => 0xFC000002
  | .snop => 0xFC000003
  | .imm x0 => pack_0 0xFE000000 x0.toNat
  | .rep x0 x1 x2 x3 x4 => pack_18_17_16_15_12 0xFE400000 x0.toNat x1.toNat x2.toNat x3.toNat x4.toNat
  | .ord x0 => pack_20 0xFE800000 x0.toNat
  | .hostSubmission => 0
  | .hostPlainLoad => 0
  | .hostPlainStore => 0
  | .syncWindowLoad => 0
  | .syncWindowStore => 0
  | .hostSnoop => 0
  | .ctxrootWrite => 0
  | .invStage1Page => 0
  | .invContext => 0
  | .tlbinvStage1Page => 0
  | .tlbinvContext => 0
  | .tlbinvStage2Page => 0
  | .tlbinvPartition => 0
  | .invalidationComplete => 0
  | .ctxctlResume => 0
  | .ctxctlWithdraw => 0
  | .ctxctlStop => 0
  | .modeWrite => 0
  | .borrowcfgWrite => 0
  | .registerWrite => 0
  | .packageIdentityWrite => 0
  | .partitionCreate => 0
  | .partitionDestroy => 0
  | .portAssignment => 0
  | .channelEnable => 0
  | .multicastEntryWrite => 0
  | .importGrantWrite => 0
  | .attestationRequest => 0
  | .recoveryFirmwareWrite => 0
  | .headEnable => 0
  | .frameStart => 0
  | .encoderFrameComplete => 0
  | .powerOn => 0
  | .hbmTrainingComplete => 0
  | .heartbeatTick => 0
  | .assayAudit => 0
  | .fragmentMerge => 0
  | .issueSelection => 0
  | .sectionDeadlockSearch => 0
  | .sectionWatchdog => 0
  | .contextWatchdog => 0
  | .serviceWatchdog => 0
  | .quantumExpiry => 0
  | .nodeBatchTimeout => 0
  | .migrationCounterHalving => 0
  | .pageMigration => 0
  | .powerHold => 0
  | .serviceTurnEnd => 0
  | .serviceBatch => 0
  | .pageFaultResolution => 0
  | .serviceReplyLands => 0
  | .launchEligible => 0
  | .clusterPlacement => 0
  | .clusterEviction => 0
  | .clusterRestore => 0
  | .nodeGroupStart => 0
  | .groupEnd => 0
  | .gridCompletionArrival => 0
  | .graphEnd => 0
  | .loadResultLands => 0
  | .launchStatusFill => 0
  | .shapeStatusFill => 0
  | .feedStatusFill => 0
  | .grabServed => 0
  | .registration => 0
  | .atomicAtHome => 0
  | .surrender => 0
  | .surrenderComplete => 0
  | .barrierNotify => 0
  | .copyUnitHeld => 0
  | .copyComplete => 0
  | .engineCommandIssueWaitEnd => 0
  | .networkUnitAck => 0
  | .networkCommandComplete => 0
  | .networkReceive => 0
  | .remoteAccessArrival => 0
  | .remoteErrorResponse => 0
  | .flitCrcFailure => 0
  | .retransmitTimeout => 0
  | .forwardRecordArrival => 0
  | .permitReturn => 0
  | .arrayCommandStart => 0
  | .arrayCommandComplete => 0
  | .gangCompletion => 0
  | .streamBlockDelivered => 0
  | .feederPush => 0
  | .treeletVisit => 0
  | .rayResultLands => 0
  | .sampleResultLands => 0
  | .splatCommandRun => 0
  | .sectionRequestArrival => 0
  | .sectionGrant => 0
  | .sectionRefuse => 0
  | .ventertAnswer => 0
  | .vsecqAnswer => 0
  | .pressCollectiveStart => 0
  | .pressTileArrival => 0
  | .pressTileLoss => 0
  | .pressComplete => 0
  | .halt => 0
  | .agentStop => 0
  | .stopSaveComplete => 0
  | .hbmReadFailure => 0
  | .secdedError => 0
  | .detRecorderInput => 0
  | .powerOff => 0
  | .linkRetrained => 0
  | .virtualFunctionAssignment => 0
  | .tenantKeyImport => 0
  | .borrowInvalidation => 0

/-- The word of an instruction; none for an event. -/
def encode (i : Instr) : Option Word := if i.isWord then some (BitVec.ofNat 32 (encodeNat i)) else none

end Sys2Proof
end

