-- ==== Sys2Proof/Config.lean ====
section
/-! DEFINITION. What the manual leaves to an implementation or to the outside world: free values without a body, so that
no proof can see them, and the constants the manual fixes. Each free value has its entry in notes/assumptions. -/

namespace Sys2Proof.Config

/-- A byte that lies in a line of device memory which holds some written byte, and that nothing has written (R15 and
R369 give a value to no such byte). The address is the argument. DESIGN CHOICE (log 2). -/
opaque unwrittenByte : Nat → Byte

/-- A byte of host memory that no step of this module has written: the host's own (R262). Address, and how often the hosts
have written their memory. DESIGN CHOICE (log 2). -/
opaque hostByte : Nat → Nat → Byte

/-- A scratchpad byte that nothing has written since its group started (R57 gives it no value): group, offset.
DESIGN CHOICE (log 6). -/
opaque padByte : Nat → Nat → Byte

/-- A byte of a tile that nothing has written since its group started (R57 gives it no value): group, offset.
DESIGN CHOICE (log 6). -/
opaque accByte : Nat → Nat → Byte

/-- Which lines an L1 keeps and fills (R239, R240 leave replacement open): the number of the choice. Zero: the line was
replaced before the access; bit 1: the fill brings the word. DESIGN CHOICE (log 9). -/
opaque l1Keep : Nat → Nat

/-- Lines of its context's that a core's L1 holds in a DET context, whose ways no other context uses (R430 gives no number of
ways). DESIGN CHOICE (log 9). -/
opaque detLines : Nat

/-- The bytes a Galord or network peer returns: request number, byte index. DESIGN CHOICE (log 10). -/
opaque peerByte : Nat → Nat → Byte

/-- The inexact results of the words of R158, a fixed function of the input's bits (R159): function code, input bits.
Used only inside the error bound the table gives; see Machine/Flags.lean. DESIGN CHOICE (log 11). -/
opaque approx : Nat → Word → Word

/-- Whether the switches behind a Galord link lead to a package (R329, R343): link, package. DESIGN CHOICE (log 13). -/
opaque linkReaches : Nat → Nat → Bool

/-- SHA-256 (R390 to R392 name it and leave its definition to its own standard). DESIGN CHOICE (log 14). -/
opaque sha256 : List Byte → List Byte

/-- Whether an image's RSA-3072 signature verifies (R391). DESIGN CHOICE (log 14). -/
opaque signatureOk : List Byte → Bool

/-- RSASSA-PSS signature of a report under the device identity key, which both roots of trust hold (R18, R390, R392): number of
the salt, bytes signed. DESIGN CHOICE (log 14). -/
opaque sign : Nat → List Byte → List Byte

/-- What the service firmware answers to a service call: service word, arguments, lane (R112, R113). DESIGN CHOICE (log 12). -/
opaque service : DWord → List Word → Nat → Option (Word × Word)

/-- The effect of registered routine n of a partition on a line (R282): routine, number of the call (0 in a DET context, whose
replay runs it alike), line bytes, operands; none when no routine is registered, some none when its step limit is exceeded.
DESIGN CHOICE (log 13). -/
opaque routine : Nat → Nat → List Byte → Word → Word → Option (Option (List Byte × Word))

/-- Private content of a stop record's resume token (R411). DESIGN CHOICE (log 45). -/
opaque token : Nat → DWord

/-- How many visits a wedge's visit pool of 64 MiB holds (R219 gives no size of a visit). DESIGN CHOICE (log 34). -/
opaque visitPool : Nat

/-- The codec's output for one frame (R394), the conversion to BT.709 limited-range YCbCr 4:2:0 included, which the manual names by
its standard: number of the access unit, CODEC, KBPS, FMT, width, height, and the frame's pixels. DESIGN CHOICE (log 55). -/
opaque encoded : Nat → Nat → Nat → Nat → Nat → Nat → List Byte → List Byte

/-- A value the manual leaves unstated after an instruction that goes on: number of the value. DESIGN CHOICE (log 30, 31). -/
opaque openValue : Nat → DWord

/-- The free page of a size (its binary logarithm) that a host has lent to a partition (R264: the service firmware knows the
lent region), as a page number within the host's memory; none when no page is free. Partition, size, number of the
request. DESIGN CHOICE (log 17). -/
opaque lentPage : Nat → Nat → Nat → Option Nat

/-- The stage-1 or stage-2 entry that the service firmware writes for a page fault, under its partition's policy (R386); bit 0
clear when it cannot resolve the fault. Physical address of the entry, number of the fault. DESIGN CHOICE (log 16). -/
opaque resolvedEntry : Nat → Nat → Nat

/-- A free choice where the manual lets timing decide: choice number. DESIGN CHOICE (log 19). -/
opaque choice : Nat → Nat

end Sys2Proof.Config
end

