-- ==== Sys2Proof/Machine/Ops.lean ====
section
/-! DEFINITION. The named operations over the state: lookups and updates of its parts, memory in its canonical form,
the home and the L1 (R239 to R245), translation (R376 to R387), register access with S0 (R27), fragments (R59 to R62),
taking a local trap and returning from one (R395, R401), and stopping a context (R404 to R411). -/

namespace Sys2Proof.Machine

open Host

/-- Every meaning answers one of these. -/
abbrev Res := Outcome State Fault Refusal

/-! ## Lookups and updates -/

def State.part? (s : State) (n : Nat) : Option Part := s.parts.find? fun p => p.n == n
def State.ctx? (s : State) (c : Nat) : Option Ctx := s.ctxs.find? fun x => x.id == c
def State.vf? (s : State) (v : Nat) : Option Vf := s.vfs.find? fun x => x.n == v
def State.launch? (s : State) (l : Nat) : Option Launch := s.launches.find? fun x => x.id == l
def State.group? (s : State) (g : Nat) : Option Group := s.groups.find? fun x => x.g == g
def State.wave? (s : State) (g w : Nat) : Option Wave := s.waves.find? fun x => x.g == g && x.w == w
def Wave.frag? (v : Wave) (f : Nat) : Option Frag := v.frags.find? fun x => x.id == f
def State.cmd? (s : State) (id : Nat) : Option Cmd := s.cmds.find? fun c => c.id == id
def State.req? (s : State) (id : Nat) : Option Req := s.reqs.find? fun r => r.id == id

def State.updPart (s : State) (n : Nat) (f : Part → Part) : State :=
  { s with parts := s.parts.map fun p => if p.n == n then f p else p }
def State.updCtx (s : State) (c : Nat) (f : Ctx → Ctx) : State :=
  { s with ctxs := s.ctxs.map fun x => if x.id == c then f x else x }
def State.updVf (s : State) (v : Nat) (f : Vf → Vf) : State :=
  { s with vfs := s.vfs.map fun x => if x.n == v then f x else x }
def State.updLaunch (s : State) (l : Nat) (f : Launch → Launch) : State :=
  { s with launches := s.launches.map fun x => if x.id == l then f x else x }
def State.updGroup (s : State) (g : Nat) (f : Group → Group) : State :=
  { s with groups := s.groups.map fun x => if x.g == g then f x else x }
def State.updWave (s : State) (g w : Nat) (f : Wave → Wave) : State :=
  { s with waves := s.waves.map fun x => if x.g == g && x.w == w then f x else x }
def Wave.updFrag (v : Wave) (i : Nat) (f : Frag → Frag) : Wave :=
  { v with frags := v.frags.map fun x => if x.id == i then f x else x }
def State.updCmd (s : State) (id : Nat) (f : Cmd → Cmd) : State :=
  { s with cmds := s.cmds.map fun c => if c.id == id then f c else c }
def State.updReq (s : State) (id : Nat) (f : Req → Req) : State :=
  { s with reqs := s.reqs.map fun r => if r.id == id then f r else r }

/-- Events to come are run in the order of the agenda unless a turn picks another. DESIGN CHOICE (log 3). -/
def State.push (s : State) (i : Instr) (x : EvArgs := {}) : State := { s with agenda := s.agenda ++ [⟨i, x⟩] }
def State.pushAll (s : State) (es : List Event) : State := { s with agenda := s.agenda ++ es }
/-- Events that go on before any other, in the order in which they waited. -/
def State.pushFront (s : State) (es : List Event) : State := { s with agenda := es ++ s.agenda }
/-- The same event, whenever it falls due. -/
def Event.same (x y : Event) : Bool := x.what == y.what && { x.args with due := 0 } == { y.args with due := 0 }
/-- The event is to come. -/
def State.awaits (s : State) (e : Event) : Bool := s.agenda.any fun x => x.same e
/-- Only events that are not yet to come. -/
def State.pushNew (s : State) (es : List Event) : State := s.pushAll (es.filter fun e => !s.awaits e)
def State.emit (s : State) (o : Out) : State := { s with out := s.out ++ [o] }
def State.fresh (s : State) : State := { s with seq := s.seq + 1 }

/-- The number of no context: what waits for the service group on behalf of no context carries it. -/
def noCtx : Nat := 2 ^ 15

/-- Virtual function of a context (R372), and the partition it runs in (R371). -/
def vfOf (ctx : Nat) : Nat := ctx / 64
def State.partOfVf (s : State) (v : Nat) : Option Part :=
  match s.vf? v with
  | some x => match x.part with
    | some n => s.part? n
    | none => none
  | none => none
def State.partOf (s : State) (ctx : Nat) : Option Part := s.partOfVf (vfOf ctx)
/-- A context runs in a partition. -/
def State.inPart (s : State) (part ctx : Nat) : Bool := match s.partOf ctx with | some p => p.n == part | none => false
def State.hbeatOf (s : State) (ctx : Nat) : Nat := match s.partOf ctx with | some p => p.hbeat | none => 0
/-- R428: a context with a launch that runs as DET. -/
def State.detCtx (s : State) (ctx : Nat) : Bool := s.launches.any fun l => l.ctx == ctx && l.det && !l.ended
/-- The virtual clock of a context (R428). -/
def State.vclockOf (s : State) (ctx : Nat) : Nat := match s.ctx? ctx with | some c => c.vclock | none => 0
/-- When an event of a DET context that was not ready comes again: one virtual cycle later. Any other context has no virtual cycles. -/
def State.nextDue (s : State) (ctx : Nat) : Nat := if s.ev.due = 0 then 0 else s.vclockOf ctx + 1
/-- The count of ticks that a rule stated in ticks uses for a context: the partition's heartbeat, or in a DET context the
virtual ticks (R428). -/
def State.ticksOf (s : State) (ctx : Nat) : Nat :=
  if s.detCtx ctx then (match s.ctx? ctx with | some c => c.vclock / max 1 c.vperiod | none => 0) else s.hbeatOf ctx

/-- The number of a free value that an instruction of a wave takes. In a DET context it follows from the wave's place and its
virtual time, so that a replay takes the same value (R433). -/
def State.openKey (s : State) (g w : Nat) : Nat :=
  match s.group? g with
  | some gr => if s.detCtx gr.ctx then 2 * (((s.vclockOf gr.ctx * 2 ^ 60 + gr.cluster) * 64 + gr.clrank) * 64 + w) + 1 else 2 * s.seq
  | none => 2 * s.seq

/-- The number under which the free values of a group that starts now stand (R433). -/
def State.groupKey (s : State) (ctx cluster rank : Nat) : Nat :=
  if s.detCtx ctx then 2 * ((s.vclockOf ctx * 2 ^ 60 + cluster) * 64 + rank) + 1 else 2 * s.seq

/-- R10. -/
def wedgeOf (core : Nat) : Nat := core / 20
def wheelOf (wedge : Nat) : Nat := wedge / 2
/-- The partition that owns a wedge (R11). -/
def State.partOfWedge (s : State) (w : Nat) : Option Part := s.parts.find? fun p => p.wedges.getLsbD w
/-- The service core of a wheel (R13). -/
def State.serviceCore (s : State) (wheel : Nat) : Option Nat :=
  if s.top.released.getLsbD (2 * wheel) then some (40 * wheel)
  else if s.top.released.getLsbD (2 * wheel + 1) then some (40 * wheel + 20) else none

/-! ## Memory in its canonical form -/

/-- Addresses strictly rising; an unlisted address holds no value, so no entry repeats it. DESIGN CHOICE (log 2). -/
def Memory.wf : List Cell → Bool
  | [] => true
  | [_] => true
  | a :: b :: t => decide (a.1 < b.1) && Memory.wf (b :: t)

/-- The byte stored at an address, if any step has stored one. DESIGN CHOICE (log 2). -/
def memGet : List Cell → Nat → Option Byte
  | [], _ => none
  | c :: t, a => if c.1 = a then some c.2 else if a < c.1 then none else memGet t a

/-- Store one byte. DESIGN CHOICE (log 2). -/
def memSet : List Cell → Nat → Byte → List Cell
  | [], a, b => [(a, b)]
  | c :: t, a, b => if c.1 = a then (a, b) :: t else if a < c.1 then (a, b) :: c :: t else c :: memSet t a b

/-- Bytes at rising addresses from a. -/
def cellsAt : Nat → List Byte → List Cell
  | _, [] => []
  | a, b :: bs => (a, b) :: cellsAt (a + 1) bs

/-- Store bytes at rising addresses. -/
def memSets (m : List Cell) (a : Nat) (bs : List Byte) : List Cell :=
  (m.filter fun c => decide (c.1 < a)) ++ cellsAt a bs ++ m.filter fun c => decide (a + bs.length ≤ c.1)

/-- Drop every byte of [lo, hi). -/
def memDrop (m : List Cell) (lo hi : Nat) : List Cell := m.filter fun c => decide (c.1 < lo) || decide (hi ≤ c.1)

/-! ## Homes and the L1 (R239 to R241) -/

/-- Physical addresses (R370): host memory has bit 56. -/
def isHostPa (pa : Nat) : Bool := decide (2 ^ 56 ≤ pa) && decide (pa < 2 ^ 57)

/-- The L1 entry of a core for a word. -/
def State.l1Word (s : State) (core word : Nat) : Option L1Word := s.l1.find? fun e => e.core == core && e.word == word
/-- The owner's entry of a word (R239). -/
def State.ownerOf (s : State) (word : Nat) : Option L1Word := s.l1.find? fun e => e.own && e.word == word

/-- Byte k of a word value. -/
def byteOf (v : Word) (k : Nat) : Byte := BitVec.ofNat 8 (v.toNat / 2 ^ (8 * k))
/-- A word with byte k replaced. -/
def setByte (v : Word) (k : Nat) (b : Byte) : Word :=
  BitVec.ofNat 32 (v.toNat - (v.toNat / 2 ^ (8 * k) % 256) * 2 ^ (8 * k) + b.toNat * 2 ^ (8 * k))

/-- The line holds a byte that something has written: its integrity tag stands (R15, R369). DESIGN CHOICE (log 2). -/
def State.lineWritten (s : State) (pa : Nat) : Bool :=
  s.mem.any (fun c => c.1 / 128 == pa / 128) || s.l1.any (fun e => e.own && e.word / 32 == pa / 128)

/-- A byte as its home has it (R240): the owner's value, else memory; none when the line's integrity check fails.
DESIGN CHOICE (log 2). -/
def State.homeByte (s : State) (pa : Nat) : Option Byte :=
  let own : Option Byte := match s.ownerOf (pa / 4) with
    | some e => if e.dm.getLsbD (pa % 4) then some (byteOf e.data (pa % 4)) else none
    | none => none
  match own with
  | some b => some b
  | none => match memGet s.mem pa with
    | some b => some b
    | none =>
      if isHostPa pa then some (Config.hostByte pa s.hostEpoch)
      else if s.lineWritten pa then some (Config.unwrittenByte pa) else none

/-- A write of n bytes that covers a part of a 16-byte block is merged into the block as it stands, whose line has to pass its
integrity check (R339, R340). -/
def State.partFails (s : State) (pa n : Nat) : Bool :=
  n != 0 && ((pa % 16 != 0 && (s.homeByte pa).isNone) || ((pa + n) % 16 != 0 && (s.homeByte (pa + n - 1)).isNone))

/-- n bytes at a home; none when a line fails its check. -/
def State.homeBytes (s : State) (pa : Nat) : Nat → Option (List Byte)
  | 0 => some []
  | n + 1 => match s.homeByte pa with
    | none => none
    | some b => match s.homeBytes (pa + 1) n with
      | none => none
      | some bs => some (b :: bs)

/-- A byte as a load of a core sees it (R240): its L1, else the home. -/
def State.loadByte (s : State) (core pa : Nat) : Option Byte :=
  match s.l1Word core (pa / 4) with
  | some e => if e.mask.getLsbD (pa % 4) then some (byteOf e.data (pa % 4)) else s.homeByte pa
  | none => s.homeByte pa

def State.loadBytes (s : State) (core pa : Nat) : Nat → Option (List Byte)
  | 0 => some []
  | n + 1 => match s.loadByte core pa with
    | none => none
    | some b => match s.loadBytes core (pa + 1) n with
      | none => none
      | some bs => some (b :: bs)

/-- Bytes of an L1 word that were stored since its last write-back, into memory. -/
def mergeDirty (m : List Cell) (e : L1Word) : List Cell :=
  (List.range 4).foldl (fun m k => if e.dm.getLsbD k then memSet m (4 * e.word + k) (byteOf e.data k) else m) m

/-- R241: the home recalls a word: the owner's bytes are merged and it gives up ownership. -/
def State.recall (s : State) (word : Nat) : State :=
  match s.ownerOf word with
  | none => s
  | some e => { s with
      mem := mergeDirty s.mem e
      l1 := s.l1.map fun x => if x.own && x.word == word then { x with own := false, dm := 0 } else x
      owners := s.owners.filter fun o => o.word != word }

/-- Recall every owned word of [pa, pa + n). -/
def State.recallSpan (s : State) (pa n : Nat) : State :=
  if n = 0 then s
  else (List.range ((pa + n - 1) / 4 - pa / 4 + 1)).foldl (fun s k => s.recall (pa / 4 + k)) s

/-- A write performed at the homes: engines, hosts, releases, atomics (R241, R254). -/
def State.homeWrite (s : State) (pa : Nat) (bs : List Byte) : State :=
  let s := s.recallSpan pa bs.length
  { s with mem := memSets s.mem pa bs }

/-- Drop a core's L1 copy of a word it does not own; stored bytes whose registration is in flight stay (R247). -/
def State.dropWord (s : State) (core word : Nat) : State :=
  { s with l1 := s.l1.filterMap fun e =>
      if e.core == core && e.word == word && !e.own then
        (if e.dm = 0 then none else some { e with mask := e.dm }) else some e }

/-- R245: the dirty set of a core for a context, written back; the core gives up ownership. -/
def State.writeBack (s : State) (core ctx : Nat) (sel : Nat → Bool) : State :=
  let mine : L1Word → Bool := fun e => e.core == core && e.ctx == ctx && e.own && sel e.word
  { s with
    mem := (s.l1.filter mine).foldl mergeDirty s.mem
    l1 := s.l1.map fun e => if mine e then { e with own := false, dm := 0 } else e
    owners := s.owners.filter fun o => !(s.l1.any fun e => mine e && e.word == o.word) }

/-- R239: a store of one byte into the storing core's L1, with a registration unless the core owns the word. `wide` marks a part
of an aligned 8-byte store (R237). -/
def State.storeByte (s : State) (core ctx g w : Nat) (wide : Bool) (pa : Nat) (b : Byte) : State :=
  let word := pa / 4
  let k := pa % 4
  let bitk : BitVec 4 := BitVec.ofNat 4 (2 ^ k)
  let rq : Reg := ⟨core, word, g, w, 0, false, wide⟩
  match s.l1Word core word with
  | some e =>
    let s := { s with l1 := s.l1.map fun x => if x.core == core && x.word == word then
      { x with data := setByte x.data k b, mask := x.mask ||| bitk, dm := x.dm ||| bitk, ctx := ctx } else x }
    if e.own || s.regq.contains rq then s
    else ({ s with regq := s.regq ++ [rq] } : State).push .registration { a := core, b := 4 * word }
  | none =>
    ({ s with
        l1 := s.l1 ++ [⟨core, ctx, word, setByte 0 k b, bitk, bitk, false⟩]
        regq := s.regq ++ [rq] } : State).push .registration { a := core, b := 4 * word }

def State.storeBytes (s : State) (core ctx g w : Nat) (wide : Bool) (pa : Nat) : List Byte → State
  | [] => s
  | b :: bs => (s.storeByte core ctx g w wide pa b).storeBytes core ctx g w wide (pa + 1) bs

/-- The core owns a word. -/
def State.owns (s : State) (core word : Nat) : Bool := match s.l1Word core word with | some e => e.own | none => false

/-- An aligned 8-byte store (R237): where the core owns one of its words and not the other, that one goes home first, so that
both get their registration at one instant. -/
def State.storePair (s : State) (core ctx g w pa : Nat) (bs : List Byte) : State :=
  let s := if s.owns core (pa / 4) && s.owns core (pa / 4 + 1) then s
    else [pa / 4, pa / 4 + 1].foldl (fun s k => if s.owns core k then s.recall k else s) s
  s.storeBytes core ctx g w true pa bs

/-- One lane's store of n bytes: in aligned 8-byte halves where it is that long (R237). -/
def State.storeSpan (s : State) (core ctx g w pa : Nat) (bs : List Byte) : State :=
  if bs.length < 8 then s.storeBytes core ctx g w false pa bs
  else (List.range (bs.length / 8)).foldl (fun s k => s.storePair core ctx g w (pa + 8 * k) ((bs.drop (8 * k)).take 8)) s

/-- The core's L1 holds a byte. -/
def State.l1Has (s : State) (core pa : Nat) : Bool :=
  match s.l1Word core (pa / 4) with | some e => e.mask.getLsbD (pa % 4) | none => false

/-- A load takes each aligned unit of at most 8 bytes from the L1 as a whole or reads its home, so that none is torn (R237): the L1
gives up the words of a unit that it holds in part. -/
def State.freshen (s : State) (core pa n : Nat) : State :=
  let u := max 1 (min n 8)
  (List.range (n / u)).foldl (fun s k =>
    let a := pa + u * k
    if (List.range u).all fun j => s.l1Has core (a + j) then s
    else (s.dropWord core (a / 4)).dropWord core ((a + u - 1) / 4)) s

/-! ## Scratchpad (R242) -/

/-- DESIGN CHOICE (log 6). -/
def Group.padByte (gr : Group) (off : Nat) : Byte :=
  match memGet gr.pad off with | some b => b | none => if gr.clean then 0 else Config.padByte gr.key off
def Group.padBytes (gr : Group) (off n : Nat) : List Byte := (List.range n).map fun k => gr.padByte (off + k)
def State.padWrite (s : State) (g off : Nat) (bs : List Byte) : State :=
  s.updGroup g fun x => { x with pad := memSets x.pad off bs }
/-- Vat word fields (R54). -/
def vatL1min (v : BitVec 24) : Nat := v.toNat / 2 ^ 18 % 64
def vatAcc (v : BitVec 24) : Nat := v.toNat / 2 ^ 12 % 64
def vatPad (v : BitVec 24) : Nat := v.toNat / 2 ^ 6 % 64
def vatReg (v : BitVec 24) : Nat := v.toNat % 64
def Group.padSize (gr : Group) : Nat := vatPad gr.vatword * 16384

/-- A global-form address is canonical (R22). -/
def canonical (a : DWord) : Bool := decide (a.toNat < 2 ^ 57)

/-! ## Translation (R376 to R387) -/

/-- Access kinds of R387. -/
inductive Acc where
  | load | store | atomic | fetch | engineRead | engineWrite | hostRead | hostWrite
  deriving DecidableEq, Repr

def Acc.code : Acc → Nat
  | .load => 0 | .store => 1 | .atomic => 2 | .fetch => 3 | .engineRead => 4 | .engineWrite => 5
  | .hostRead => 6 | .hostWrite => 7
def Acc.needsR : Acc → Bool
  | .load | .atomic | .engineRead | .hostRead => true
  | _ => false
def Acc.needsW : Acc → Bool
  | .store | .atomic | .engineWrite | .hostWrite => true
  | _ => false
def Acc.needsX : Acc → Bool
  | .fetch => true
  | _ => false

/-- What a translation answers (R386, R387). -/
inductive Xl where
  | ok (pa : Nat) (sh : Bool)
  /-- a violation: kind, level of the failing entry, IPA reached -/
  | viol (kind level ipa : Nat)
  /-- an invalid entry with RES set: the service group resolves it -/
  | resolvable (entry : EntryAt)
  deriving DecidableEq, Repr

/-- Leaf page sizes of R378: binary logarithm by SIZE code. -/
def pageBits (code : Nat) : Nat := [12, 14, 16, 18, 20, 21, 22, 24, 26, 28, 30, 32].getD code 0
/-- The leaf sizes a level expresses (R377). -/
def sizeAt (level code : Nat) : Bool :=
  if level = 3 then decide (code ≤ 6) else if level = 2 then decide (7 ≤ code) && decide (code ≤ 11) else false
/-- Index bits of a level (R377). -/
def levelIndex (level va : Nat) : Nat :=
  if level = 0 then va / 2 ^ 45 % 4096
  else if level = 1 then va / 2 ^ 34 % 2048
  else if level = 2 then va / 2 ^ 23 % 2048
  else va / 2 ^ 12 % 2048

def ebit (e k : Nat) : Bool := e / 2 ^ k % 2 = 1

/-- R379: a valid entry is malformed at a stage and level. -/
def malformed (stage level e : Nat) : Bool :=
  let rsv : Bool := ebit e 63 || ebit e 59 || ebit e 58 || ebit e 57 ||
    (if stage = 1 then ebit e 62 || ebit e 61 || ebit e 60 else ebit e 5)
  let size := e / 2 ^ 8 % 16
  let addr := e % 2 ^ 57 / 2 ^ 12 * 2 ^ 12
  let t := ebit e 1
  rsv || (ebit e 3 && !ebit e 2) || (stage = 1 && ebit e 3 && ebit e 4) ||
  (if t then level = 3 || size != 0 || addr % 2 ^ 14 != 0
   else !sizeAt level size || addr % 2 ^ pageBits size != 0)

/-- R370, R380: the physical ranges a partition may reach. -/
def State.reaches (s : State) (p : Part) (pa : Nat) : Bool :=
  if pa < 2 ^ 56 then p.wedges.getLsbD (pa / 2 ^ 36)
  else decide (pa < 2 ^ 57) &&
    s.vfs.any fun v => v.part == some p.n && v.n / 32 == pa / 2 ^ 52 % 16

/-- One table entry read during a walk: its physical address and value, or how the read fails; and the leaves used so far. -/
inductive Rd where
  | ok (pa : Nat) (e : Nat) (used : List Nat)
  | viol (kind level ipa : Nat) (used : List Nat)
  | resolvable (entry : EntryAt) (used : List Nat)

/-- The result of one stage's walk, with the leaves through which its table addresses went. -/
inductive Wk where
  | leaf (base bits e ePa level : Nat) (used : List Nat)
  | viol (kind level ipa : Nat) (used : List Nat)
  | resolvable (entry : EntryAt) (used : List Nat)

/-- One stage's radix walk (R377 to R380, R386): `rd` reads the entry of a level at a table address of the
stage. -/
def walkLevels (stage va : Nat) (rd : Nat → Nat → Rd) (reach : Nat → Bool) : List Nat → Nat → List Nat → Wk
  | [], _, used => .viol (4 + stage) 3 0 used
  | level :: rest, base, used =>
    let ipa := if stage = 2 then va else 0
    match rd level (base + 8 * levelIndex level va) with
    | .viol k l i u => .viol k l i (used ++ u)
    | .resolvable p u => .resolvable p (used ++ u)
    | .ok ePa e u =>
      let used := used ++ u
      if !ebit e 0 then (if ebit e 1 then .resolvable ⟨ePa, level, ipa⟩ used else .viol stage level ipa used)
      else if malformed stage level e then .viol (4 + stage) level ipa used
      else
        let addr := e % 2 ^ 57 / 2 ^ 12 * 2 ^ 12
        if stage = 2 && !reach addr then .viol 6 level va used
        else if ebit e 1 then walkLevels stage va rd reach rest addr used
        else .leaf (addr + va % 2 ^ pageBits (e / 2 ^ 8 % 16)) (pageBits (e / 2 ^ 8 % 16)) e ePa level used

/-- Value of the 8-byte entry at a physical address; none when its line fails. -/
def State.entryAt (s : State) (pa : Nat) : Option Nat := (s.homeBytes pa 8).map leNat

/-- Stage 2 (R376): an IPA of a partition. -/
def State.walk2 (s : State) (p : Part) (ipa : Nat) : Wk :=
  walkLevels 2 ipa
    (fun level a => match s.entryAt a with
      | some e => .ok a e []
      | none => .viol 8 level ipa [])
    (s.reaches p) [0, 1, 2, 3] (p.root2.toNat) []

/-- Stage 1 (R376) under a context's root; every table address goes through stage 2. -/
def State.walk1 (s : State) (p : Part) (root va : Nat) : Wk :=
  walkLevels 1 va
    (fun level a => match s.walk2 p a with
      | .viol k l i u => .viol k l i u
      | .resolvable e u => .resolvable e u
      | .leaf pa _ e2 e2pa l2 u2 =>
        if !ebit e2 2 then .viol 4 l2 a u2
        else match s.entryAt pa with
          | some e => .ok pa e (u2 ++ [e2pa])
          | none => .viol 8 level a (u2 ++ [e2pa]))
    (fun _ => true) [0, 1, 2, 3] root []

/-- R382: set A in each leaf used, and D in the two final leaves of a write, at the entries' homes. -/
def State.setAD (s : State) (used : List Nat) (final : List Nat) (write : Bool) : State :=
  let orBit (s : State) (pa v : Nat) : State :=
    match s.entryAt pa with
    | some e => if (Nat.lor e v) = e then s else s.homeWrite pa (leBytes 8 (Nat.lor e v))
    | none => s
  let s := used.foldl (fun s pa => orBit s pa 64) s
  final.foldl (fun s pa => orBit s pa (if write then 192 else 64)) s

/-- HP of a stage-2 leaf (R378). -/
def leafHp (e : Nat) : Bool := ebit e 60

/-- Permission of R381 against the two leaves' bits; the failing kind. -/
def permKind (acc : Acc) (p1 : BitVec 4) (p2 : BitVec 3) (stage1 : Bool) : Option Nat :=
  let refuse (r w x : Bool) : Bool := (acc.needsR && !r) || (acc.needsW && !w) || (acc.needsX && !x)
  if stage1 && (p1.getLsbD 3 || refuse (p1.getLsbD 0) (p1.getLsbD 1) (p1.getLsbD 2)) then some 3
  else if refuse (p2.getLsbD 0) (p2.getLsbD 1) (p2.getLsbD 2) then some 4 else none

/-- Keep the newest `n` entries of one unit (R383). -/
def tlbAdd (n : Nat) (l : List TlbEntry) (e : TlbEntry) : List TlbEntry :=
  e :: ((l.filter fun x => x.unit == e.unit).take (n - 1) ++ l.filter fun x => x.unit != e.unit)

def TlbEntry.hits (e : TlbEntry) (unit : Nat) (ctx : Option Nat) (part va : Nat) : Bool :=
  e.unit == unit && e.ctx == ctx && e.part == part && decide (e.vbase ≤ va) && decide (va < e.vbase + e.size)

/-- Walk for a context's access: the combined entry and the A and D bits set (R382, R383). A walk that fails has set A in the
leaves it went through; a leaf that refuses the access is not used. DEDUCED (log 48). -/
def State.walkCtx (s : State) (p : Part) (core ctx va : Nat) (acc : Acc) : State × Option TlbEntry × Xl :=
  match s.ctx? ctx with
  | none => (s, none, .viol 1 0 0)
  | some c =>
    match s.walk1 p (c.root.toNat % 2 ^ 57 / 2 ^ 15 * 2 ^ 15) va with
    | .viol k l i u => (s.setAD u [] false, none, .viol k l i)
    | .resolvable e u => (s.setAD u [] false, none, .resolvable e)
    | .leaf ipa b1 e1 e1pa l1 u1 =>
      let p1 : BitVec 4 := BitVec.ofNat 4 (e1 / 4 % 16)
      match permKind acc p1 7 true with
      | some k => (s.setAD u1 [] false, none, .viol k l1 0)
      | none =>
        match s.walk2 p ipa with
        | .viol k l i u => (s.setAD (u1 ++ e1pa :: u) [] false, none, .viol k l i)
        | .resolvable e u => (s.setAD (u1 ++ e1pa :: u) [] false, none, .resolvable e)
        | .leaf pa b2 e2 e2pa l2 u2 =>
          let p2 : BitVec 3 := BitVec.ofNat 3 (e2 / 4 % 8)
          match permKind acc p1 p2 true with
          | some k => (s.setAD (u1 ++ e1pa :: u2) [] false, none, .viol k l2 ipa)
          | none =>
            let s := s.setAD (u1 ++ u2) [e1pa, e2pa] acc.needsW
            let sz := 2 ^ min b1 b2
            let ent : TlbEntry := ⟨core, some ctx, p.n, va / sz * sz, sz, pa / sz * sz, ipa / sz * sz, p1, p2, l1, l2,
              acc.needsW || (ebit e1 7 && ebit e2 7), ebit e2 62, leafHp e2⟩
            (s, some ent, .ok pa (ebit e2 62))

/-- Where the copy of a launch's argument block lies (R104), in device memory that no page maps. -/
def argPa (launch : Nat) : Nat := 2 ^ 60 + 8192 * launch
/-- The launch whose copy an address of the context falls into. -/
def State.argAt (s : State) (ctx va : Nat) : Option Launch :=
  s.launches.find? fun l => l.ctx == ctx && decide (l.argbase.toNat ≤ va) && decide (va < l.argbase.toNat + l.args)

/-- A device access of a context from a core (R376, R383): L0, shared TLB, walk. The copies of argument blocks (R104) are read
only: any other access to one is a stage-1 permission violation. DESIGN CHOICE (log 69). -/
def State.translate (s : State) (core ctx va : Nat) (acc : Acc) : State × Xl :=
  match s.partOf ctx with
  | none => (s, .viol 1 0 0)
  | some p =>
  match s.argAt ctx va with
  | some l => if acc.needsW || acc.needsX then (s, .viol 3 0 0) else (s, .ok (argPa l.id + (va - l.argbase.toNat)) false)
  | none =>
    let wedge := wedgeOf core
    let use (e : TlbEntry) : Option Xl :=
      match permKind acc e.p1 e.p2 true with
      | some k => some (.viol k (if k = 3 then e.lv1 else e.lv2) (if k = 3 then 0 else e.ibase + (va - e.vbase)))
      | none => if acc.needsW && !e.d then none else some (.ok (e.pbase + (va - e.vbase)) e.sh)
    let walk (s : State) : State × Xl :=
      match s.walkCtx p core ctx va acc with
      | (s, some e, x) =>
        ({ s with l0 := tlbAdd 64 (s.l0.filter fun y => !y.hits core (some ctx) p.n va) e
                  tlb := tlbAdd 16384 (s.tlb.filter fun y => !y.hits wedge (some ctx) p.n va) { e with unit := wedge } }, x)
      | (s, none, x) => (s, x)
    match s.l0.find? fun e => e.hits core (some ctx) p.n va with
    | some e => match use e with
      | some x => (s, x)
      | none => walk s
    | none => match s.tlb.find? fun e => e.hits wedge (some ctx) p.n va with
      | some e => match use e with
        | some x => ({ s with l0 := tlbAdd 64 s.l0 { e with unit := core } }, x)
        | none => walk s
      | none => walk s

/-- The intermediate address that a context's address has at this moment; 0 where stage 1 gives none (R388). -/
def State.ipaOf (s : State) (ctx va : Nat) : Nat :=
  match s.partOf ctx, s.ctx? ctx with
  | some p, some c => if (s.argAt ctx va).isSome || decide (2 ^ 57 ≤ va) then 0 else
      match s.walk1 p (c.root.toNat % 2 ^ 57 / 2 ^ 15 * 2 ^ 15) va with
      | .leaf ipa _ _ _ _ _ => ipa
      | _ => 0
  | _, _ => 0

/-- First core of a partition: the place from which its scheduler and control act. -/
def Part.firstCore (p : Part) : Nat := 20 * ((List.range 20).find? fun w => p.wedges.getLsbD w).getD 0

/-- A stage-2-only walk, and its entry for the TLB: tagged by the partition (R382, R383). -/
def State.walkPart (s : State) (p : Part) (ipa : Nat) (acc : Acc) : State × Xl :=
  match s.walk2 p ipa with
  | .viol k l i u => (s.setAD u [] false, .viol k l i)
  | .resolvable e u => (s.setAD u [] false, .resolvable e)
  | .leaf pa b e2 e2pa l2 u2 =>
    let p2 : BitVec 3 := BitVec.ofNat 3 (e2 / 4 % 8)
    match permKind acc 7 p2 false with
    | some k => (s.setAD u2 [] false, .viol k l2 ipa)
    | none =>
      let s := s.setAD u2 [e2pa] acc.needsW
      let wedge := wedgeOf p.firstCore
      let sz := 2 ^ b
      let ent : TlbEntry := ⟨wedge, none, p.n, ipa / sz * sz, sz, pa / sz * sz, ipa / sz * sz, 7, p2, l2, l2,
        acc.needsW || ebit e2 7, ebit e2 62, leafHp e2⟩
      ({ s with tlb := tlbAdd 16384 (s.tlb.filter fun y => !y.hits wedge none p.n ipa) ent }, .ok pa (ebit e2 62))

/-- A stage-2-only access (R376): hosts, display engines, encoders, service groups, remote peers. Its translations are held in the
TLB of the partition's first wedge. DEDUCED (log 48). -/
def State.translate2 (s : State) (p : Part) (ipa : Nat) (acc : Acc) : State × Xl :=
  match s.tlb.find? fun e => e.hits (wedgeOf p.firstCore) none p.n ipa with
  | some e => match permKind acc 7 e.p2 false with
    | some k => (s, .viol k e.lv2 ipa)
    | none => if acc.needsW && !e.d then s.walkPart p ipa acc else (s, .ok (e.pbase + (ipa - e.vbase)) e.sh)
  | none => s.walkPart p ipa acc

/-! ## Objects (R256, R261) -/

/-- Physical spans of [lo, hi) page by page, through a context's translation as it stands. -/
def State.physSpans (s : State) (core ctx : Nat) (lo hi : Nat) : List (Nat × Nat) :=
  if hi ≤ lo then []
  else (List.range ((hi - 1) / 4096 - lo / 4096 + 1)).filterMap fun k =>
    let a := max lo ((lo / 4096 + k) * 4096)
    let b := min hi ((lo / 4096 + k + 1) * 4096)
    match (s.translate core ctx a .engineRead).2 with
    | .ok pa _ => some (pa, b - a)
    | _ => none

/-- Physical spans of an object's bytes: those found when it was defined, and those of pages mapped since. DEDUCED (log 41). -/
def State.objSpans (s : State) (r : RangeEntry) : List (Nat × Nat) := r.phys ++ s.physSpans r.core r.ctx r.lo r.hi

/-- The bytes [pa, pa + n) touch an object of one kind: 2 TOKEN, 3 IMMUTABLE (R256), of one context if one is given. -/
def State.touchesObjectOf (s : State) (ctx : Option Nat) (kind pa n : Nat) : Bool :=
  s.ranges.any fun r => r.kind == kind && (match ctx with | some c => r.ctx == c | none => true) &&
    (s.objSpans r).any fun q => decide (q.1 < pa + n) && decide (pa < q.1 + q.2)

/-- The bytes [pa, pa + n) touch an object of one kind, whichever context defined it: what hosts, display engines and peers may
not write (R261, R337). -/
def State.touchesObject (s : State) (kind pa n : Nat) : Bool := s.touchesObjectOf none kind pa n

/-- Words of an IMMUTABLE object stay valid in every L1 (R261). -/
def State.immutableWord (s : State) (word : Nat) : Bool := s.touchesObject 3 (4 * word) 4

/-- R245: invalidate every word of a core's L1 that it does not own, except lines of IMMUTABLE objects. DEDUCED (log 41). -/
def State.invalidate (s : State) (core : Nat) : State :=
  { s with l1 := s.l1.filterMap fun e =>
      if e.core == core && !e.own && !s.immutableWord e.word then
        (if e.dm = 0 then none else some { e with mask := e.dm }) else some e }

/-! ## Registers -/

/-- S0 reads as zero, RAW and full (R27). -/
def Wave.sreg (v : Wave) (n : Nat) : SReg := if n = 0 then ⟨0, 0, true⟩ else v.sregs.getD n ⟨0, 0, true⟩
/-- A write to S0 is discarded (R27). Every S write is whole and full (R130). -/
def Wave.setS (v : Wave) (n : Nat) (x : DWord) (tag : BitVec 4) : Wave :=
  if n = 0 then v else { v with sregs := v.sregs.set n ⟨x, tag, true⟩ }
/-- Mark an S register empty (R137). -/
def Wave.emptyS (v : Wave) (n : Nat) : Wave :=
  if n = 0 then v else { v with sregs := v.sregs.set n { v.sreg n with full := false } }

def Wave.vreg (v : Wave) (n : Nat) : VReg := v.vregs.getD n ⟨List.replicate 32 0, 0, 0⟩
def VReg.lane (r : VReg) (l : Nat) : Word := r.lanes.getD l 0
/-- The wave's live lanes (R60). -/
def Wave.live (v : Wave) : LaneMask := v.frags.foldl (fun m f => m ||| f.live) 0

/-- R130: the tag after a write of format x by the lanes of `who`. -/
def tagAfter (live who : LaneMask) (old x : BitVec 4) : BitVec 4 :=
  if live &&& ~~~who = 0 then x else if old = x then x else 13

/-- R130: write lanes `who` of V[n], leaving every other lane's bits. -/
def Wave.writeV (v : Wave) (n : Nat) (who : LaneMask) (tag : BitVec 4) (vals : List Word) : Wave :=
  let r := v.vreg n
  { v with vregs := v.vregs.set n { r with
      lanes := (List.range 32).map fun l => if who.getLsbD l then vals.getD l 0 else r.lane l
      tag := tagAfter v.live who r.tag tag } }

/-- Mark V[n] empty for the lanes of a producer (R137). -/
def Wave.emptyV (v : Wave) (n : Nat) (who : LaneMask) : Wave :=
  { v with vregs := v.vregs.set n { v.vreg n with pend := who } }

/-- A lane is live, or a helper: its quad holds a live lane (R67). -/
def Wave.quadLive (v : Wave) (lane : Nat) : Bool := v.live &&& (15 <<< (lane / 4 * 4)) != 0

/-- One lane's result lands in V[n] (R137): bits, tag under R130, lane off the pending mask. A result for a lane that is
neither live nor a helper is discarded (R97). -/
def Wave.landV (v : Wave) (n lane : Nat) (tag : BitVec 4) (x : Word) (who : LaneMask) : Wave :=
  let r := v.vreg n
  let me : LaneMask := BitVec.ofNat 32 (2 ^ lane)
  let r := if v.quadLive lane then { r with lanes := r.lanes.set lane x, tag := tagAfter v.live who r.tag tag } else r
  { v with vregs := v.vregs.set n { r with pend := r.pend &&& ~~~me } }

/-! ## The issuing fragment -/

/-- The agents of the unit in progress. -/
structure Iss where
  c : Cur
  grp : Group
  wv : Wave
  fr : Frag
  ln : Launch

def State.iss? (s : State) : Option Iss :=
  match s.cur with
  | none => none
  | some c => match s.group? c.g, s.wave? c.g c.w with
    | some g, some w => match w.frag? c.f, s.launch? g.launch with
      | some f, some l => some ⟨c, g, w, f, l⟩
      | _, _ => none
    | _, _ => none

/-- A word executes for an issuing fragment; without one the model stops by name. DESIGN CHOICE (log 62). -/
def State.withIss (s : State) (k : Iss → Res) : Res :=
  match s.iss? with
  | some i => k i
  | none => .fault .noIssuer

def State.updCur (s : State) (i : Iss) (f : Wave → Wave) : State := s.updWave i.c.g i.c.w f
def State.updCurFrag (s : State) (i : Iss) (f : Frag → Frag) : State := s.updCur i fun w => w.updFrag i.c.f f

/-- NextUnit: the word after the issuing word. -/
def Iss.next (i : Iss) : DWord := i.c.pc + 4

/-- The unit is over. -/
def State.endUnit (s : State) : State := { s with cur := none }

/-- The unit completes and its fragment moves to the next one. -/
def State.retire (s : State) (i : Iss) : State :=
  (s.updCur i fun w => { w.updFrag i.c.f fun f => { f with pc := i.next, wait := none, repNext := none, fwdLane := none } with
    units := w.units + 1 }).endUnit

/-- The unit waits: the fragment stays at the unit, which it issues again when the wait has ended. -/
def State.park (s : State) (i : Iss) (w : Wait) : State :=
  (s.updCurFrag i fun f => { f with pc := i.c.unitPc, wait := some w }).endUnit

/-- Waits that hold a fragment before its unit issues (R62, R63); at the others the word has issued. -/
def Wait.beforeIssue : Wait → Bool
  | .barrier .. | .gridbar _ | .sconv | .section_ | .entert | .permit _ => false
  | _ => true

/-- A fragment that is blocked before its issue was not ready (R63): the ages, the opportunities given away (R99), and the turn of its
pipe in a DET context, are as they were before the selection. -/
def State.undoIssue (s : State) (i : Iss) : State :=
  match i.c.undo with
  | none => s
  | some u =>
    let s := s.updCur i fun w => { w with
      yielded := u.yielded
      frags := w.frags.map fun f => match u.ages.find? fun a => a.1 == f.id with | some a => { f with age := a.2 } | none => f }
    let s : State := { s with waves := s.waves.map fun w => if u.gives.contains (w.g, w.w) then { w with gives := true } else w }
    match u.pipe with
    | none => s
    | some (ctx, core, pipe) => s.updCtx ctx fun c => { c with
        vpend := (core, pipe) :: c.vpend
        vlast := (c.vlast.filter fun x => !(x.1 == core && x.2.1 == pipe)) ++
          (match u.last with | some k => [(core, pipe, k)] | none => []) }

/-- The unit waits, with no effect so far. -/
def State.block (s : State) (i : Iss) (w : Wait) : State :=
  if w.beforeIssue then (s.undoIssue i).park i w else s.park i w

/-- The lowest fragment id not in use. -/
def freeId (used : List Nat) : Nat := ((List.range 64).find? fun n => !used.contains n).getD 64

/-- R61: where the lanes of a fragment go: one (lanes, priority, PC) for each pair, in the order ids are given. One pair
keeps the fragment whole; more than one end it and form new ones. The flag of a part keeps the fragment's wait. -/
def Wave.split (v : Wave) (f : Frag) (parts : List (LaneMask × BitVec 4 × DWord × Bool)) : Wave :=
  match parts with
  | [] => { v with frags := v.frags.filter fun x => x.id != f.id }
  | [(_, p, pc, keep)] => v.updFrag f.id fun x =>
      { x with prio := p, pc := pc, wait := if keep then x.wait else none, repNext := none, fwdLane := none }
  | _ =>
    let mk := fun (acc : List Frag × List Nat) (q : LaneMask × BitVec 4 × DWord × Bool) =>
      let i := freeId acc.2
      (acc.1 ++ [({ id := i, parent := f.id, live := q.1, sib := f.live &&& ~~~q.1, prio := q.2.1, pc := q.2.2.1, age := 0,
                    wait := if q.2.2.2 then f.wait else none, frame := f.frame, repNext := none, fwdLane := none } : Frag)], i :: acc.2)
    let made := (parts.foldl mk (([] : List Frag), v.frags.map Frag.id)).1
    { v with frags := (v.frags.filter fun x => x.id != f.id) ++ made }

/-- Lanes of a mask that satisfy a test. -/
def laneFilter (m : LaneMask) (p : Nat → Bool) : LaneMask :=
  BitVec.ofNat 32 ((List.range 32).foldl (fun a l => if m.getLsbD l && p l then a + 2 ^ l else a) 0)

def lanesOf (m : LaneMask) : List Nat := (List.range 32).filter fun l => m.getLsbD l

/-! ## Stopping a context (R404 to R411) -/

/-- A stop record's fields that its raiser knows (R409). -/
structure StopRec where
  cause : Nat
  engine : Nat
  unit : Nat
  addr : DWord
  detail : DWord
  orig : Nat := 0
  group : Nat := 0xFFFF
  done : DWord := 0
  total : DWord := 0
  tok : DWord := 0
  pc : DWord := 0
  causeRec : Bool := true
  resumable : Bool := false
  queued : Bool := false
  deriving DecidableEq, Repr

/-- The 64 bytes of a stop record (R409). -/
def StopRec.bytes (r : StopRec) (hbeat : Nat) : List Byte :=
  let b (x : Bool) (k : Nat) : Nat := if x then 2 ^ k else 0
  leBytes 8 (r.orig * 2 ^ 56 + b r.queued 50 + b r.resumable 49 + b r.causeRec 48 + r.group % 2 ^ 16 * 2 ^ 32 +
    r.unit % 2 ^ 16 * 2 ^ 16 + r.engine % 256 * 2 ^ 8 + r.cause % 256) ++
  leBytes 8 hbeat ++ leBytes 8 r.addr.toNat ++ leBytes 8 r.detail.toNat ++ leBytes 8 r.done.toNat ++
  leBytes 8 r.total.toNat ++ leBytes 8 r.tok.toNat ++ leBytes 8 r.pc.toNat

/-- R388: an entry of the partition's violation log, 256 entries, oldest dropped. -/
def State.logViolation (s : State) (part : Nat) (v : Violation) : State :=
  s.updPart part fun p => { p with vlog := (p.vlog ++ [v]).drop (p.vlog.length + 1 - 256) }

/-- R427: an entry of the module's error log, 1,024 entries; a repeat is merged. DEDUCED (log 51). -/
def State.logError (s : State) (e : ErrEntry) : State :=
  let same : ErrEntry → Bool := fun x => x.addr == e.addr && x.part == e.part && x.source == e.source && x.kind == e.kind
  let l := s.top.errlog
  let l' := if l.any same then l.map fun x => if same x then { x with count := x.count + 1, hbeat := e.hbeat } else x
            else (l ++ [e]).drop (l.length + 1 - 1024)
  { s with top := { s.top with errlog := l' } }

/-- The physical address behind an intermediate address of a partition at this moment, or 0. -/
def State.paOf (s : State) (p : Part) (ipa : Nat) : Nat := match s.walk2 p ipa with | .leaf pa _ _ _ _ _ => pa | _ => 0

/-- A line's failed integrity check is a lasting fault of its stack, and logged as one (R425, R427). -/
def State.logTag (s : State) (p : Part) (ipa : Nat) : State :=
  s.logError ⟨BitVec.ofNat 64 (s.paOf p ipa), p.n, 1, 0, 1, p.hbeat⟩

/-- R387, R388: the log entry of an access by a context, and its DETAIL. Where the failure lies past the translation (kinds 7 and 8)
the intermediate address is the one that stage 1 gives. -/
def State.logAccess (s : State) (ctx : Nat) (va : DWord) (kind level ipa acc : Nat) : State × DWord :=
  let detail := kind * 4096 + acc * 256 + level
  let ipa := if ipa = 0 && (kind = 7 || kind = 8) then (if va.getLsbD 63 then va.toNat % 2 ^ 45 else s.ipaOf ctx va.toNat) else ipa
  (match s.partOf ctx with
    | some p => (if kind = 8 then s.logTag p ipa else s).logViolation p.n
        ⟨va, BitVec.ofNat 64 ipa, false, ctx, BitVec.ofNat 16 detail, p.hbeat⟩
    | none => s, BitVec.ofNat 64 detail)

/-- What an access of an engine to memory gives. -/
inductive MemRes (α : Type) where
  | ok (s : State) (x : α)
  /-- a violation: address, kind, level, IPA -/
  | viol (s : State) (va : Int) (kind level ipa : Nat)
  /-- a resolvable fault: address and entry -/
  | fault (s : State) (va : Int) (entry : EntryAt)

/-- The service group resolves an entry within the step (R386); none when it cannot. DESIGN CHOICE (log 16). -/
def State.resolveNow (s : State) (e : EntryAt) : Option State :=
  let v := Config.resolvedEntry e.pa s.seq % 2 ^ 64
  if ebit v 0 then some (s.fresh.homeWrite e.pa (leBytes 8 v)) else none

/-- A translation for the recovery machinery, whose page faults the service group resolves as they come up (R386). One walk meets
at most 24 entries. DESIGN CHOICE (log 16). -/
def State.ctxPlace (s : State) (core ctx va : Nat) (acc : Acc) : Nat → State × Xl
  | 0 => s.translate core ctx va acc
  | n + 1 => match s.translate core ctx va acc with
    | (s, .resolvable e) => match s.resolveNow e with
      | some s => s.ctxPlace core ctx va acc n
      | none => (s.fresh, .viol 10 e.level e.ipa)
    | r => r

/-- A write through a context's own translation by the recovery machinery (R416, R452). -/
def State.ctxWrite (s : State) (core ctx va : Nat) : List Byte → MemRes Unit
  | [] => .ok s ()
  | b :: bs => match s.ctxPlace core ctx va .engineWrite 24 with
    | (s, .ok pa _) => (s.homeWrite pa [b]).ctxWrite core ctx (va + 1) bs
    | (s, .viol k l i) => .viol s va k l i
    | (s, .resolvable e) => .viol s va 10 e.level e.ipa

def State.ctxRead (s : State) (core ctx va : Nat) (acc : Acc) : Nat → Option (State × List Byte)
  | 0 => some (s, [])
  | n + 1 => match s.ctxPlace core ctx va acc 24 with
    | (s, .ok pa _) => match s.homeByte pa with
      | none => none
      | some b => match s.ctxRead core ctx (va + 1) acc n with
        | none => none
        | some (s, bs) => some (s, b :: bs)
    | _ => none

def State.ctlCore (s : State) (ctx : Nat) : Nat := match s.partOf ctx with | some p => p.firstCore | none => 0

/-- A failed write of a stop record or header: LOST, and a log entry with ACCESS 5 that says what failed (R452). -/
def State.stopLost (s : State) (ctx : Nat) (va : DWord) (kind level ipa : Nat) : State :=
  ((s.updCtx ctx fun c => { c with lost := true }).logAccess ctx va kind level ipa Acc.engineWrite.code).1

/-- A write that covers only a part of a 16-byte block is merged into the block as it stands, whose line has to pass its integrity
check (R339, R340, R452). DEDUCED (log 46). -/
def State.mergeFails (s : State) (core ctx va n : Nat) : Bool :=
  (va % 16 != 0 || n % 16 != 0) && (match (s.ctxPlace core ctx va .engineRead 24).2 with
    | .ok pa _ => (s.homeByte pa).isNone
    | _ => false)

/-- Write bytes into a stop area, or mark LOST. -/
def State.stopWrite (s : State) (ctx : Nat) (va : DWord) (bs : List Byte) : State :=
  if s.mergeFails (s.ctlCore ctx) ctx va.toNat bs.length then s.stopLost ctx va 8 0 0
  else match s.ctxWrite (s.ctlCore ctx) ctx va.toNat bs with
    | .ok s _ => s
    | .viol s a k l i => s.stopLost ctx (BitVec.ofInt 64 a) k l i
    | .fault s a e => s.stopLost ctx (BitVec.ofInt 64 a) 10 e.level e.ipa

def State.stopRead (s : State) (ctx : Nat) (va : DWord) (n : Nat) : Nat :=
  match s.ctxRead (s.ctlCore ctx) ctx va.toNat .engineRead n with
  | some (_, bs) => leNat bs
  | none => 0

/-- The slot of a command record to be displaced by a cause record (R409): the highest that holds one. -/
def State.displaceSlot (s : State) (ctx : Nat) (area : DWord) : Option Nat :=
  (List.range 63).reverse.map (· + 1) |>.find? fun i => !ebit (s.stopRead ctx (area + BitVec.ofNat 64 (64 * i)) 8) 48

/-- Granules of a vat word, the L1 minimum left out. -/
def vatImage (v : BitVec 24) : Nat := vatReg v + vatPad v + vatAcc v
/-- R416: bytes of a launch's save slots. -/
def Launch.slotSize (l : Launch) : Nat :=
  278528 + 16384 * (l.nodes.foldl (fun n x => max n (vatImage x.vatword)) (if l.graph then 0 else vatImage l.vatword))
/-- Address of save slot n. -/
def Launch.slotAt (l : Launch) (n : Nat) : DWord := l.area + BitVec.ofNat 64 (8192 + n * l.slotSize)

/-- The save slot a group has, or the one it takes when the stop saves its context's clusters in turn (R406, R416): what a stop
record names as GROUP (R409). DEDUCED (log 46). -/
def State.saveSlot (s : State) (g : Nat) : Nat :=
  match s.group? g with
  | none => 0xFFFF
  | some gr => match gr.slot with
    | some n => n
    | none =>
      let held := s.groups.filter fun x => x.launch == gr.launch && !x.freed
      let used := held.filterMap Group.slot
      let stay := held.filter Group.resident
      let order := ((stay.map Group.cluster).eraseDups).flatMap fun c => (stay.filter fun x => x.cluster == c).map Group.g
      let free := (List.range (used.length + order.length)).filter fun n => !used.contains n
      (match order.idxOf? g with | some k => free[k]? | none => none).getD 0xFFFF

/-- R409: place one record in the stop area of a launch: the next free slot, else the spill rules. -/
def State.placeRecord (s : State) (ctx : Nat) (l : Launch) (r : StopRec) : State :=
  let hb := s.hbeatOf ctx
  let h := s.stopRead ctx l.area 8
  let count := h / 2 ^ 16 % 2 ^ 16
  let spilled := h / 2 ^ 32 % 2 ^ 16
  let cause := h % 256
  let put (s : State) (slot : Nat) (bs : List Byte) : State := s.stopWrite ctx (l.area + BitVec.ofNat 64 (64 * slot)) bs
  let spill (s : State) (group : Nat) (bs : List Byte) : State :=
    -- a record of a group goes to the engine-record table of its save slot (R419), from the table's end downward, so that the
    -- commands the save lists from its start leave it (DESIGN CHOICE, log 46); one of no group is only counted
    if group = 0xFFFF then s
    else s.stopWrite ctx (l.slotAt group + BitVec.ofNat 64 (0x400 + 64 * (239 - spilled % 240))) bs
  let head (s : State) (count spilled : Nat) : State :=
    let c := if cause = 0 && r.causeRec then r.cause else cause
    s.stopWrite ctx l.area (leBytes 8 (c + count * 2 ^ 16 + spilled * 2 ^ 32))
  if count < 63 then head (put s (count + 1) (r.bytes hb)) (count + 1) spilled
  else if r.causeRec then
    match s.displaceSlot ctx l.area with
    | some i =>
      let old := s.stopRead ctx (l.area + BitVec.ofNat 64 (64 * i)) 64
      head (put (spill s (old / 2 ^ 32 % 2 ^ 16) (leBytes 64 old)) i (r.bytes hb)) count (spilled + 1)
    | none => head (spill s r.group (r.bytes hb)) count (spilled + 1)
  else head (spill s r.group (r.bytes hb)) count (spilled + 1)

/-- Causes that belong to the context rather than to one launch (R410). -/
def contextWide (cause : Nat) : Bool := cause = 0x22 || cause = 0x23 || cause = 0x27 || cause = 0x28

/-- The launches of a context that a stop reaches (R410). -/
def State.liveLaunches (s : State) (ctx : Nat) : List Launch := s.launches.filter fun l => l.ctx == ctx && !l.ended

/-- The launches whose areas take the records of a stop: an ended launch keeps its own while a press holds a collective of
it (R410, R439). -/
def State.areaLaunches (s : State) (ctx : Nat) : List Launch :=
  s.launches.filter fun l => l.ctx == ctx && (!l.ended || s.cmds.any fun c => c.engine == 5 && c.launch == l.id)

/-- Place a record in the areas R410 names: one launch's, or a copy in each. -/
def State.fileRecord (s : State) (ctx : Nat) (launch : Option Nat) (r : StopRec) : State :=
  let ls := s.areaLaunches ctx
  let ls := match launch with
    | some i => if contextWide r.cause then ls else ls.filter fun l => l.id == i
    | none => ls
  ls.foldl (fun s l => s.placeRecord ctx l r) s

/-- R405 to R407: raise a stop-class cause. The first cause halts the context: its agents stop (AGENT_STOP), and the stop
completes when all have (STOP_SAVE_COMPLETE). A later cause writes its own record. DEDUCED (log 46). -/
def State.raiseStop (s : State) (ctx : Nat) (launch : Option Nat) (r : StopRec) : State :=
  match s.ctx? ctx with
  | none => s
  | some c =>
    if c.phase = .withdrawn then s
    else
      let hb := s.hbeatOf ctx
      if c.phase = .stopping || c.phase = .stopped then s.fileRecord ctx launch r
      else
        let s := s.updCtx ctx fun c => { c with phase := .stopping, cause := BitVec.ofNat 8 r.cause, lost := false }
        let s := (s.areaLaunches ctx).foldl (fun s l =>
          let s := s.stopWrite ctx (l.area + 8) (leBytes 8 hb)
          s.stopWrite ctx l.area [BitVec.ofNat 8 r.cause]) s
        let s := s.fileRecord ctx launch r
        let units := (s.cmds.filter fun k => k.ctx == ctx && !k.halted).map fun k => (k.engine, k.unit)
        -- the ray units; the one that has raised the cause has recorded the raising launch's rays
        let rays := (s.rays.filter fun x => x.ctx == ctx).map fun x => (9, x.core)
        let own (u : Nat × Nat) : Nat := if u.1 = 9 && r.engine = 9 && r.unit = u.2 then launch.elim 0 (· + 1) else 0
        let s := s.pushAll ((units ++ rays).eraseDups.map fun u => ⟨.agentStop, { a := ctx, b := u.1, c := u.2, d := own u }⟩)
        s.push .stopSaveComplete { a := ctx }

/-- R387: an access of a context violates: the log entry and the stop. -/
def State.violate (s : State) (i : Iss) (va : DWord) (kind level ipa : Nat) (acc : Acc) (doneLanes : LaneMask) : State :=
  let lg := s.logAccess i.grp.ctx va kind level ipa acc.code
  let s := (lg.1.updCurFrag i fun f => { f with pc := i.c.unitPc, wait := none }).endUnit
  s.raiseStop i.grp.ctx (some i.ln.id)
    { cause := 0x20, engine := 8, unit := i.grp.core, addr := va, detail := lg.2
      group := s.saveSlot i.c.g, done := doneLanes.setWidth 64, total := i.fr.live.setWidth 64, pc := i.c.unitPc }

/-! ## Local traps (R395 to R401) -/

/-- Where a handler starts: TVEC, whose bits [1:0] play no part, since a program counter is a multiple of 4 (R24).
DESIGN CHOICE (log 66). -/
def trapEntry (tvec : DWord) : DWord := tvec &&& ~~~3

/-- R395 and R397: the fragment takes a local trap, or the context stops with ESCALATED. `who` is the trapping fragment,
which may be a child that the unit split off. -/
def State.trapFrag (s : State) (i : Iss) (f : Frag) (cause : Nat) (faddr finfo : DWord) (rep : Option Nat) : State :=
  if f.frame.isSome || i.wv.regs.tvec = 0 then
    -- completed repetitions stay done when the context resumes (R35)
    let s := (s.updCur i fun w => w.updFrag f.id fun x => { x with pc := i.c.unitPc, repNext := rep }).endUnit
    s.raiseStop i.grp.ctx (some i.ln.id)
      { cause := 0x25, engine := 8, unit := i.grp.core, addr := faddr, detail := finfo, orig := cause
        group := s.saveSlot i.c.g, total := f.live.setWidth 64, pc := i.c.unitPc }
  else
    (s.updCur i fun w =>
      let slot := freeId (w.frames.map Frame.slot)
      { w with
        frames := w.frames ++ [⟨slot, BitVec.ofNat 8 cause, faddr, i.c.unitPc, i.c.unitPc, f.id, f.parent, f.sib, finfo,
                                f.prio, rep, f.fwdLane, f.live⟩]
        frags := w.frags.map fun x => if x.id == f.id then
          { x with pc := trapEntry w.regs.tvec, prio := 15, wait := none, frame := some slot, repNext := none, fwdLane := none } else x }).endUnit

/-- The issuing fragment takes a local trap on its unit. -/
def State.trap (s : State) (i : Iss) (cause : Nat) (faddr finfo : DWord) : State := s.trapFrag i i.fr cause faddr finfo none

/-- ILLEGAL_WORD (R39, R398). -/
def State.illegal (s : State) (i : Iss) : State := s.trap i 0x01 0 (i.c.word.setWidth 64)

/-- R65: the word needs every live lane; otherwise ILLEGAL_CONVERGENCE with REASON 0 (R398). -/
def Iss.converged (i : Iss) : Bool := i.wv.live &&& ~~~i.fr.live = 0
def State.notConverged (s : State) (i : Iss) : State := s.trap i 0x05 0 (i.fr.live.setWidth 64)

/-- R401: return from a handler. `rep` progress comes back when FPC names the trapped unit. -/
def State.returnTrap (s : State) (i : Iss) (fm : Frame) : State :=
  (s.updCur i fun w =>
    let frags := w.frags.map fun x => if x.id == i.fr.id then
      { x with pc := fm.fpc, prio := fm.prio, frame := none, wait := none
               repNext := if fm.fpc = fm.unit then fm.rep else none
               fwdLane := if fm.fpc = fm.unit then fm.fwd else none } else x
    { w with
      frags := frags
      frames := w.frames.filter fun y => y.slot != fm.slot || frags.any fun x => x.frame == some fm.slot }).endUnit

/-! ## Host writes -/

/-- Writes that hosts make to the module: each is accepted when it first arrives (R263). -/
def isHostWrite (w : Instr) : Bool := w == .hostPlainStore || w == .syncWindowStore || w == .hostSubmission

/-- A host access that has been accepted and waits keeps its place among its logical device's: e is 1 and d its number. -/
def State.accepted (s : State) (e : Event) : Event :=
  if e.args.e = 1 then e else ⟨e.what, { e.args with e := 1, d := s.seq }⟩

/-- R263: an earlier write that the same logical device has accepted is still to be performed. -/
def State.earlierWrite (s : State) (e : Event) : Bool :=
  (s.agenda ++ s.faults.flatMap fun f => f.retry).any fun x =>
    isHostWrite x.what && x.args.e == 1 && x.args.a / 32 == e.args.a / 32 && decide (x.args.d < (s.accepted e).args.d)

end Sys2Proof.Machine
end

