-- ==== Sys2Proof/Machine/Det.lean ====
section
/-! DEFINITION. The DET recorder (R428, R431, R432): inputs of a DET context appended to its Mozon recording, or supplied
from it. -/

namespace Sys2Proof.Machine

open Host

/-- R431: an entry of a recording: 32 bytes, and the payload padded to a multiple of 32. -/
def detEntry (vcycle kind : Nat) (loc val : DWord) (payload : List Byte) : List Byte :=
  leBytes 8 vcycle ++ leBytes 8 (payload.length * 2 ^ 32 + kind) ++ leBytes 8 loc.toNat ++ leBytes 8 val.toNat ++
  payload ++ List.replicate ((32 - payload.length % 32) % 32) 0

/-- What the token of a DET recorder is made of. DESIGN CHOICE (log 45). -/
def recToken : Nat := 2 ^ 159

/-- R432: the recorder stops the context: detail 0 at an end, 1 at a mismatch. DEDUCED (log 60). -/
def State.detStop (s : State) (l : Launch) (detail : Nat) : State :=
  s.raiseStop l.ctx (some l.id)
    { cause := 0x24, engine := 13, unit := 0, addr := BitVec.ofNat 64 l.recUsed, detail := BitVec.ofNat 64 detail
      done := BitVec.ofNat 64 l.recUsed, total := BitVec.ofNat 64 l.recBytes, resumable := detail == 0 && !l.replay
      tok := Config.token recToken }

/-- Bytes of the recording consumed or written, in the launch and in its header (R408). -/
def State.detAdvance (s : State) (l : Launch) (n : Nat) : State :=
  (s.updLaunch l.id fun l => { l with recUsed := l.recUsed + n }).stopWrite l.ctx (l.area + 0x28) (leBytes 8 (l.recUsed + n))

/-- An entry goes to the end of the recording. -/
def State.detAppend (s : State) (l : Launch) (e : List Byte) : State :=
  (s.stopWrite l.ctx (l.recBase + BitVec.ofNat 64 l.recUsed) e).detAdvance l e.length

/-- A full recording stops the context; the input that it had no room for opens the next recording (R432, R414). DEDUCED (log 60). -/
def State.detHold (s : State) (l : Launch) (e : List Byte) : State :=
  let t := s.updLaunch l.id fun x => { x with recHeld := x.recHeld ++ [e] }
  if l.recHeld.isEmpty || (s.ctx? l.ctx).any fun c => c.phase == .running then t.detStop l 0 else t

/-- Entries that the last recording had no room for, written as long as the new one has. -/
def State.detFlush (launch : Nat) : List (List Byte) → State → State
  | [], s => s
  | e :: es, s => match s.launch? launch with
    | none => s
    | some l =>
      if l.replay || decide (l.recBytes < l.recUsed + e.length) then s
      else State.detFlush launch es ((s.updLaunch launch fun x => { x with recHeld := x.recHeld.drop 1 }).detAppend l e)

/-- What a replay that stops takes in place of the input that its recording does not hold: nothing from outside (R432), a value that
the manual leaves open. DESIGN CHOICE (log 60). -/
def State.detOpen (s : State) (payload : List Byte) : State × DWord × List Byte :=
  (s.fresh, Config.openValue s.seq, (List.range payload.length).map fun k => BitVec.ofNat 8 (Config.openValue (s.seq + k)).toNat)

/-- An input of a launch's context: its value as the run takes it. Outside a DET context inputs pass through.
DEDUCED (log 60). -/
def State.detInput (s : State) (launch kind : Nat) (loc val : DWord) (payload : List Byte) : State × DWord × List Byte :=
  match s.launch? launch with
  | none => (s, val, payload)
  | some l =>
    if !l.det then (s, val, payload)
    else if !l.replay then
      let e := detEntry (s.vclockOf l.ctx) kind loc val payload
      if !l.recHeld.isEmpty || decide (l.recBytes < l.recUsed + e.length) then (s.detHold l e, val, payload)
      else (s.detAppend l e, val, payload)
    else if l.recBytes < l.recUsed + 32 then (s.detStop l 0).detOpen payload
    else
      let a := l.recBase + BitVec.ofNat 64 l.recUsed
      let h := s.stopRead l.ctx a 32
      let len := h / 2 ^ 96 % 2 ^ 32
      if h / 2 ^ 64 % 256 ≠ kind ∨ h / 2 ^ 128 % 2 ^ 64 ≠ loc.toNat then (s.detStop l 1).detOpen payload
      else
        let body := leBytes len (s.stopRead l.ctx (a + 32) len)
        (s.detAdvance l (32 + (len + 31) / 32 * 32), BitVec.ofNat 64 (h / 2 ^ 192 % 2 ^ 64), body)

/-- WHERE of an input taken by a lane (R431). -/
def detWhere (gr : Group) (w lane : Nat) : DWord :=
  BitVec.ofNat 64 (gr.cluster % 2 ^ 16 * 2 ^ 32 + gr.clrank * 2 ^ 16 + w * 256 + lane)

/-- DET launches of a partition that have not ended. -/
def State.detLaunches (s : State) (part : Nat) : List Launch := s.launches.filter fun l => l.det && !l.ended && s.inPart part l.ctx
/-- A context of the partition is being replayed: it takes no input of the recorded kinds from outside (R432). -/
def State.replaying (s : State) (part : Nat) : Bool := (s.detLaunches part).any (·.replay)

/-- An input that came from outside a partition, appended to the recordings of its DET contexts (R431). DEDUCED (log 60). -/
def State.detNote (s : State) (part kind : Nat) (loc val : DWord) (payload : List Byte) : State :=
  ((s.detLaunches part).filter fun l => !l.replay).foldl (fun s l => (s.detInput l.id kind loc val payload).1) s

/-- An arrival from outside for a context that is being replayed is discarded and counted in the error log (R432). The source is
2 for a link and 3 for a port. DEDUCED (log 60). -/
def State.discarded (s : State) (part source : Nat) (addr : DWord) : State :=
  s.logError ⟨addr, part, 1, BitVec.ofNat 4 source, 0, match s.part? part with | some p => p.hbeat | none => 0⟩

/-- WHERE of a permit's return: the channel, marked as no place of a lane. DESIGN CHOICE (log 60). -/
def permitWhere (ch : Nat) : DWord := BitVec.ofNat 64 (2 ^ 63 + ch)

/-- The next entry of a replayed launch's recording (R431): VCYCLE, KIND, WHERE and payload length. -/
def State.detPeek (s : State) (l : Launch) : Option (Nat × Nat × Nat × Nat) :=
  if !l.det || !l.replay || l.ended || decide (l.recBytes < l.recUsed + 32) then none
  else
    let h := s.stopRead l.ctx (l.recBase + BitVec.ofNat 64 l.recUsed) 32
    some (h % 2 ^ 64, h / 2 ^ 64 % 256, h / 2 ^ 128 % 2 ^ 64, h / 2 ^ 96 % 2 ^ 32)

/-- Entries that take effect apart from any word of the context: host writes, data landed from outside, remote records, permits,
and reads of HBEAT, which fill later. -/
def fromOutside (kind loc : Nat) : Bool := kind = 1 || kind = 3 || (kind = 5 && ebit loc 5) || ((kind = 2 || kind = 8) && decide (2 ^ 63 ≤ loc))

/-- An address in the output of a press collective of the context: its LOCK-DST entry stands until the press is done (R365). -/
def State.pressOut (s : State) (ctx loc : Nat) : Bool :=
  s.ranges.any fun r => r.ctx == ctx && r.kind == 1 && r.engine == 5 && r.pad.isNone && decide (r.lo ≤ loc) && decide (loc < r.hi) &&
    !(s.faults.any fun f => f.cmd == some r.owner)

/-- A launch of the context whose recording holds an input from outside that has come to its virtual cycle (R432). -/
def State.replayDue (s : State) (ctx : Nat) : Option Launch :=
  s.launches.find? fun l => l.ctx == ctx && (s.ctx? ctx).any (fun c => c.phase == .running) && match s.detPeek l with
    | some (vc, kind, loc, _) => (fromOutside kind loc || (kind == 2 && s.pressOut ctx loc)) && decide (vc ≤ s.vclockOf ctx)
    | none => false

end Sys2Proof.Machine
end

