-- ==== Sys2Proof/Machine/Flags.lean ====
section
/-! DEFINITION. Every flag computation and every floating result of the manual: the six formats (R117 to R119), one
rounding (R126, R127), the five sticky flags (R128), the shared operations of R152 to R160, the conversions of R134
and R165. Values are bit patterns held as Nat; exact results are an integer times a power of two. -/

namespace Sys2Proof.Machine

/-- A floating format (R117): exponent bits, mantissa bits, and whether the top exponent holds finite values (E4M3). -/
structure Fmt where
  eb : Nat
  mb : Nat
  finiteTop : Bool
  deriving DecidableEq, Repr

def Fmt.fp64 : Fmt := ⟨11, 52, false⟩
def Fmt.fp32 : Fmt := ⟨8, 23, false⟩
def Fmt.fp16 : Fmt := ⟨5, 10, false⟩
def Fmt.bf16 : Fmt := ⟨8, 7, false⟩
def Fmt.e4m3 : Fmt := ⟨4, 3, true⟩
def Fmt.e5m2 : Fmt := ⟨5, 2, false⟩

def Fmt.width (f : Fmt) : Nat := 1 + f.eb + f.mb
def Fmt.bias (f : Fmt) : Int := 2 ^ (f.eb - 1) - 1
/-- Exponent of the smallest normal (R118). -/
def Fmt.emin (f : Fmt) : Int := 1 - f.bias
/-- Largest finite magnitude as a bit pattern (R117). -/
def Fmt.maxFinite (f : Fmt) : Nat :=
  if f.finiteTop then (2 ^ f.eb - 1) * 2 ^ f.mb + (2 ^ f.mb - 2) else (2 ^ f.eb - 1) * 2 ^ f.mb - 1
/-- Magnitude pattern of infinity, for the formats that have one (R119). -/
def Fmt.inf (f : Fmt) : Nat := (2 ^ f.eb - 1) * 2 ^ f.mb
/-- Canonical NaN (R119). -/
def Fmt.nan (f : Fmt) : Nat :=
  if f.finiteTop then 2 ^ (f.eb + f.mb) - 1 else (2 ^ f.eb - 1) * 2 ^ f.mb + 2 ^ (f.mb - 1)
def Fmt.signBit (f : Fmt) : Nat := 2 ^ (f.eb + f.mb)

/-- Flag bits of FPFLAGS (R116, R128). -/
abbrev FpFlags := BitVec 5
def flNone : FpFlags := 0
def flInvalid : FpFlags := 1
def flDivZero : FpFlags := 2
def flOverflow : FpFlags := 4
def flUnderflow : FpFlags := 8
def flInexact : FpFlags := 16

/-- Rounding modes (R126). -/
abbrev Rnd := BitVec 2
def rne : Rnd := 0
def rz : Rnd := 1
def ru : Rnd := 2
def rd : Rnd := 3

/-- The value of an encoding (R118, R119): a NaN (signalling or not), an infinity, or ± m × 2^e. -/
inductive FVal where
  | nan (signalling : Bool)
  | inf (neg : Bool)
  | fin (neg : Bool) (m : Nat) (e : Int)
  deriving DecidableEq, Repr

def FVal.isNan : FVal → Bool
  | .nan _ => true
  | _ => false

def FVal.isSnan : FVal → Bool
  | .nan b => b
  | _ => false

/-- R118 and R119. PRESUMED (log 64). -/
def Fmt.unpack (f : Fmt) (x : Nat) : FVal :=
  let neg := x / f.signBit % 2 = 1
  let e := x / 2 ^ f.mb % 2 ^ f.eb
  let m := x % 2 ^ f.mb
  if e = 2 ^ f.eb - 1 ∧ f.finiteTop = false then
    if m = 0 then .inf neg else .nan (decide (m < 2 ^ (f.mb - 1)))
  else if e = 2 ^ f.eb - 1 ∧ m = 2 ^ f.mb - 1 then .nan false
  else if e = 0 then .fin neg m (f.emin - f.mb)
  else .fin neg (2 ^ f.mb + m) ((e : Int) - f.bias - f.mb)

/-- Whether the rounding of a magnitude goes up, given the kept integer, the dropped part against a half (`lt`, `eq`,
`gt` as 0, 1, 2 with 3 for an exact result) (R126). -/
def roundsUp (mode : Rnd) (neg : Bool) (kept : Nat) (part : Nat) : Bool :=
  if part = 3 then false
  else if mode = rne then part = 2 || (part = 1 && kept % 2 = 1)
  else if mode = ru then !neg
  else if mode = rd then neg
  else false

/-- Drop `k` low bits of `m` (with `sticky` for a positive amount below bit 0): the kept integer and the class of the
dropped part. -/
def dropBits (m k : Nat) (sticky : Bool) : Nat × Nat :=
  let r := m % 2 ^ k
  let half := 2 ^ k / 2
  (m / 2 ^ k,
   if k = 0 then (if sticky then 0 else 3)
   else if r = 0 && !sticky then 3
   else if r < half then 0
   else if r = half && !sticky then 1 else 2)

/-- A magnitude m × 2^e (m > 0, plus a positive amount below m's last place if `sticky`) as an integer multiple of 2^q
under a rounding mode: the integer and whether the result is inexact. -/
def roundTo (mode : Rnd) (neg : Bool) (m : Nat) (e q : Int) (sticky : Bool) : Nat × Bool :=
  if q ≤ e then
    let (k, p) := dropBits (m * 2 ^ (e - q).toNat) 0 sticky
    (if roundsUp mode neg k p then k + 1 else k, p != 3)
  else
    let (k, p) := dropBits m (q - e).toNat sticky
    (if roundsUp mode neg k p then k + 1 else k, p != 3)

/-- What a conversion or an operation does with a finite result beyond the largest finite value. -/
inductive Over where
  /-- R127: infinity or largest finite by mode; NaN in E4M3 -/
  | ieee
  /-- largest finite of that sign -/
  | saturate
  deriving DecidableEq, Repr

def Fmt.withSign (f : Fmt) (neg : Bool) (mag : Nat) : Nat := if neg then f.signBit + mag else mag

/-- One rounding of an exact nonzero magnitude into a format (R126, R127, R128): bit pattern and flags. PRESUMED (log 64). -/
def Fmt.round (f : Fmt) (mode : Rnd) (ov : Over) (neg : Bool) (m : Nat) (e : Int) (sticky : Bool) : Nat × FpFlags :=
  let top : Int := (Nat.log2 m : Int) + e
  let qn : Int := top - f.mb
  let q : Int := max qn (f.emin - f.mb)
  let (k, ix) := roundTo mode neg m e q sticky
  -- a k of 2^(mb+1) carries into the exponent field by itself
  let mag : Nat := if k < 2 ^ f.mb then k else ((q + f.mb + f.bias).toNat - 1) * 2 ^ f.mb + k
  let (k0, _) := roundTo mode neg m e qn sticky
  let tiny : Bool := decide (qn < f.emin - f.mb) && decide (k0 < 2 ^ (f.emin - qn).toNat)
  if f.maxFinite < mag then
    let toInf : Bool := mode = rne || (mode = ru && !neg) || (mode = rd && neg)
    let res := match ov with
      | .saturate => f.withSign neg f.maxFinite
      | .ieee => if f.finiteTop then f.nan
                 else if toInf then f.withSign neg f.inf else f.withSign neg f.maxFinite
    (res, flOverflow ||| flInexact)
  else
    (f.withSign neg mag, (if ix then flInexact else 0) ||| (if ix && tiny then flUnderflow else 0))

/-- An exact result as a signed dyadic number. PRESUMED (log 64). -/
structure Exact where
  m : Int
  e : Int
  deriving DecidableEq, Repr

def Exact.ofFin (neg : Bool) (m : Nat) (e : Int) : Exact := ⟨if neg then -(m : Int) else m, e⟩

def Exact.add (x y : Exact) : Exact :=
  let e := min x.e y.e
  ⟨x.m * 2 ^ (x.e - e).toNat + y.m * 2 ^ (y.e - e).toNat, e⟩

def Exact.mul (x y : Exact) : Exact := ⟨x.m * y.m, x.e + y.e⟩

def Exact.neg (x : Exact) : Exact := ⟨-x.m, x.e⟩

/-- Order of exact values. -/
def Exact.lt (x y : Exact) : Bool := decide ((x.add y.neg).m < 0)

/-- Round an exact value; a zero takes the sign given (R127). -/
def Fmt.roundExact (f : Fmt) (mode : Rnd) (ov : Over) (zeroNeg : Bool) (x : Exact) : Nat × FpFlags :=
  if x.m = 0 then (f.withSign zeroNeg 0, 0)
  else f.round mode ov (decide (x.m < 0)) x.m.natAbs x.e false

/-- Invalid for a signalling NaN among the operands (R119, R128). -/
def snanFlag (xs : List FVal) : FpFlags := if xs.any FVal.isSnan then flInvalid else 0

/-- Sign of an exact zero sum (R127): equal signs keep it, else −0 under RD. -/
def zeroSign (mode : Rnd) (n1 n2 : Bool) : Bool := if n1 = n2 then n1 else mode = rd

/-- Sum of two values (R152, R153). -/
def Fmt.addVal (f : Fmt) (mode : Rnd) (a b : FVal) : Nat × FpFlags :=
  match a, b with
  | .fin n1 m1 e1, .fin n2 m2 e2 =>
    f.roundExact mode .ieee (zeroSign mode n1 n2) ((Exact.ofFin n1 m1 e1).add (Exact.ofFin n2 m2 e2))
  | .inf n1, .inf n2 => if n1 = n2 then (f.withSign n1 f.inf, 0) else (f.nan, flInvalid)
  | .inf n, .fin .. => (f.withSign n f.inf, 0)
  | .fin .., .inf n => (f.withSign n f.inf, 0)
  | _, _ => (f.nan, snanFlag [a, b])

def FVal.negate : FVal → FVal
  | .nan s => .nan s
  | .inf n => .inf (!n)
  | .fin n m e => .fin (!n) m e

def Fmt.add (f : Fmt) (mode : Rnd) (x y : Nat) : Nat × FpFlags := f.addVal mode (f.unpack x) (f.unpack y)
def Fmt.sub (f : Fmt) (mode : Rnd) (x y : Nat) : Nat × FpFlags := f.addVal mode (f.unpack x) (f.unpack y).negate

/-- a × b + c with one rounding (R153). The addend of a plain product is none. -/
def Fmt.fmaVal (f : Fmt) (mode : Rnd) (a b : FVal) (c : Option FVal) : Nat × FpFlags :=
  let cv := c.getD (.fin false 0 0)
  let ops := match c with | some v => [a, b, v] | none => [a, b]
  let zeroInf : Bool := match a, b with
    | .fin _ 0 _, .inf _ => true
    | .inf _, .fin _ 0 _ => true
    | _, _ => false
  if zeroInf then (f.nan, flInvalid)
  else if ops.any FVal.isNan then (f.nan, snanFlag ops)
  else match a, b, cv with
    | .fin n1 m1 e1, .fin n2 m2 e2, .fin n3 m3 e3 =>
      let p := (Exact.ofFin n1 m1 e1).mul (Exact.ofFin n2 m2 e2)
      let pn := n1 != n2
      match c with
      | none => f.roundExact mode .ieee pn p
      | some _ => f.roundExact mode .ieee (zeroSign mode pn n3) (p.add (Exact.ofFin n3 m3 e3))
    | .fin .., .fin .., .inf n => (f.withSign n f.inf, 0)
    | p, q, .inf n3 =>
      let pn := (match p with | .fin n _ _ => n | .inf n => n | _ => false) !=
                (match q with | .fin n _ _ => n | .inf n => n | _ => false)
      if pn = n3 then (f.withSign n3 f.inf, 0) else (f.nan, flInvalid)
    | p, q, _ =>
      let pn := (match p with | .fin n _ _ => n | .inf n => n | _ => false) !=
                (match q with | .fin n _ _ => n | .inf n => n | _ => false)
      (f.withSign pn f.inf, 0)

def Fmt.mul (f : Fmt) (mode : Rnd) (x y : Nat) : Nat × FpFlags := f.fmaVal mode (f.unpack x) (f.unpack y) none
/-- x × y + z. PRESUMED (log 64). -/
def Fmt.fma (f : Fmt) (mode : Rnd) (x y z : Nat) : Nat × FpFlags :=
  f.fmaVal mode (f.unpack x) (f.unpack y) (some (f.unpack z))
/-- z − x × y. -/
def Fmt.fnma (f : Fmt) (mode : Rnd) (x y z : Nat) : Nat × FpFlags :=
  f.fmaVal mode (f.unpack x).negate (f.unpack y) (some (f.unpack z))

/-- Order of two values that are not NaN; equal zeros compare equal (R155). -/
def FVal.lt : FVal → FVal → Bool
  | .fin n1 m1 e1, .fin n2 m2 e2 => (Exact.ofFin n1 m1 e1).lt (Exact.ofFin n2 m2 e2)
  | .inf n1, .inf n2 => n1 && !n2
  | .inf n, .fin .. => n
  | .fin .., .inf n => !n
  | _, _ => false

def FVal.eq (a b : FVal) : Bool := !a.isNan && !b.isNan && !(a.lt b) && !(b.lt a)

/-- R155: equal, invalid only for a signalling NaN. -/
def Fmt.ceq (f : Fmt) (x y : Nat) : Bool × FpFlags :=
  ((f.unpack x).eq (f.unpack y), snanFlag [f.unpack x, f.unpack y])
/-- R155: less than, invalid for any NaN. -/
def Fmt.clt (f : Fmt) (x y : Nat) : Bool × FpFlags :=
  if (f.unpack x).isNan || (f.unpack y).isNan then (false, flInvalid) else ((f.unpack x).lt (f.unpack y), 0)
/-- R155: less or equal, invalid for any NaN. -/
def Fmt.cle (f : Fmt) (x y : Nat) : Bool × FpFlags :=
  if (f.unpack x).isNan || (f.unpack y).isNan then (false, flInvalid)
  else (!((f.unpack y).lt (f.unpack x)), 0)
/-- R155: unordered. -/
def Fmt.cun (f : Fmt) (x y : Nat) : Bool × FpFlags :=
  ((f.unpack x).isNan || (f.unpack y).isNan, snanFlag [f.unpack x, f.unpack y])

/-- R154: minimum; −0 counts as less than +0, a single NaN yields the other operand. -/
def Fmt.minMax (f : Fmt) (isMax : Bool) (x y : Nat) : Nat × FpFlags :=
  let a := f.unpack x
  let b := f.unpack y
  let fl := snanFlag [a, b]
  if a.isNan && b.isNan then (f.nan, fl)
  else if a.isNan then (y, fl)
  else if b.isNan then (x, fl)
  else
    let below : Bool := a.lt b || (a.eq b && decide (f.signBit ≤ x) && !decide (f.signBit ≤ y))
    (if below = isMax then y else x, fl)

/-- VFCPSGN (R152). -/
def Fmt.copySign (f : Fmt) (x y : Nat) : Nat :=
  if (f.unpack x).isNan then f.nan else f.withSign (decide (f.signBit ≤ y)) (x % f.signBit)

/-- VFCLASS (R160): the bit number. -/
def Fmt.classBit (f : Fmt) (x : Nat) : Nat :=
  match f.unpack x with
  | .nan true => 8
  | .nan false => 9
  | .inf true => 0
  | .inf false => 7
  | .fin n m _ =>
    if m = 0 then (if n then 3 else 4)
    else if m < 2 ^ f.mb then (if n then 2 else 5)
    else (if n then 1 else 6)

/-- Integer square root by bisection on bits: the largest r < 2^n with r² ≤ x. -/
def isqrtBits : Nat → Nat → Nat → Nat
  | 0, _, r => r
  | n + 1, x, r => let r' := r + 2 ^ n; isqrtBits n x (if r' * r' ≤ x then r' else r)

/-- VSQRT (R158): correctly rounded. -/
def Fmt.sqrt (f : Fmt) (mode : Rnd) (x : Nat) : Nat × FpFlags :=
  match f.unpack x with
  | .nan s => (f.nan, if s then flInvalid else 0)
  | .inf true => (f.nan, flInvalid)
  | .inf false => (f.inf, 0)
  | .fin n 0 _ => (f.withSign n 0, 0)
  | .fin true _ _ => (f.nan, flInvalid)
  | .fin false m e =>
    -- scale to an even exponent with at least 2 (mb + 3) bits
    let k := 2 * (f.mb + 3)
    let k' := if (e - k) % 2 = 0 then k else k + 1
    let m' := m * 2 ^ k'
    let r := isqrtBits (f.mb + 3 + f.mb + 3) m' 0
    f.round mode .ieee false r ((e - k') / 2) (decide (r * r ≠ m'))

/-- Correctly rounded reciprocal under RNE (R144): ±0 and ±∞ exchange, NaN canonical. No flags are used. -/
def Fmt.recip (f : Fmt) (x : Nat) : Nat :=
  match f.unpack x with
  | .nan _ => f.nan
  | .inf n => f.withSign n 0
  | .fin n 0 _ => f.withSign n f.inf
  | .fin n m e =>
    let k := 2 * f.mb + 8
    let q := 2 ^ k / m
    (f.round rne .ieee n q (-(k : Int) - e) (decide (q * m ≠ 2 ^ k))).1

/-! ## Conversions (R134, R161 to R165) -/

/-- Element formats that a tag code names (R121, R161). -/
inductive Elem where
  | flt (f : Fmt)
  | int (w : Nat)
  deriving DecidableEq, Repr

def Elem.width : Elem → Nat
  | .flt f => f.width
  | .int w => w

/-- A value reduced to w bits as two's complement. -/
def ofIntBits (w : Nat) (v : Int) : Nat := (v % (2 ^ w : Int)).toNat

/-- Signed reading of w bits. -/
def toIntBits (w : Nat) (x : Nat) : Int := if x % 2 ^ w < 2 ^ (w - 1) then (x % 2 ^ w : Nat) else (x % 2 ^ w : Nat) - (2 ^ w : Int)

/-- How out of range conversions end: convert-on-read (R134), or a selector's SAT bit (R165). -/
inductive CvtKind where
  | onRead
  | sel (sat : Bool)
  deriving DecidableEq, Repr

/-- Round a finite value to an integer under a mode: the integer and whether it is inexact. -/
def roundInt (mode : Rnd) (neg : Bool) (m : Nat) (e : Int) : Int × Bool :=
  if m = 0 then (0, false)
  else
    let (k, ix) := roundTo mode neg m e 0 false
    (if neg then -(k : Int) else k, ix)

/-- A finite value that becomes a NaN sets invalid too (R128, R165). -/
def Fmt.overNan (t : Fmt) (r : Nat × FpFlags) : Nat × FpFlags :=
  (r.1, if t.finiteTop && (t.unpack r.1).isNan then r.2 ||| flInvalid else r.2)

/-- One element conversion (R134 with RNE, R165 under RND and SAT): bits and flags. -/
def cvtElem (kind : CvtKind) (mode : Rnd) (src dst : Elem) (x : Nat) : Nat × FpFlags :=
  match src, dst with
  | .flt f, .flt t =>
    let ov : Over := match kind with | .onRead => .saturate | .sel true => .saturate | .sel false => .ieee
    match f.unpack x with
    | .nan s => (t.nan, if s then flInvalid else 0)
    | .inf n =>
      match kind with
      | .sel true => (t.withSign n t.maxFinite, flInexact)
      | .sel false => if t.finiteTop then (t.nan, flInexact ||| flInvalid) else (t.withSign n t.inf, 0)
      | .onRead => if t.finiteTop then (t.withSign n t.maxFinite, flInexact) else (t.withSign n t.inf, 0)
    | .fin n m e => t.overNan (t.roundExact mode ov n (Exact.ofFin n m e))
  | .flt f, .int w =>
    let lo : Int := -(2 ^ (w - 1) : Int)
    let hi : Int := 2 ^ (w - 1) - 1
    let bad : Int := match kind with | .sel false => lo | _ => 0
    match f.unpack x with
    | .nan _ => (ofIntBits w bad, flInvalid)
    | .inf n =>
      (ofIntBits w (match kind with | .sel false => lo | _ => if n then lo else hi), flInvalid)
    | .fin n m e =>
      let (v, ix) := roundInt mode n m e
      if lo ≤ v ∧ v ≤ hi then (ofIntBits w v, if ix then flInexact else 0)
      else
        (ofIntBits w (match kind with | .sel false => lo | _ => if n then lo else hi),
         flInvalid ||| flOverflow ||| flInexact)
  | .int w, .flt t =>
    let v := toIntBits w x
    let ov : Over := match kind with | .onRead => .saturate | .sel true => .saturate | .sel false => .ieee
    t.overNan (t.roundExact mode ov false ⟨v, 0⟩)
  | .int w, .int w' =>
    let v := toIntBits w x
    if w ≤ w' then (ofIntBits w' v, 0)
    else match kind with
      | .sel false => (x % 2 ^ w', 0)
      | _ =>
        let lo : Int := -(2 ^ (w' - 1) : Int)
        let hi : Int := 2 ^ (w' - 1) - 1
        let c := max lo (min hi v)
        (ofIntBits w' c, match kind with
          | .onRead => if c = v then 0 else flInexact ||| flOverflow
          | _ => 0)

/-! ## The words of R158 -/

/-- 2^exp as a unit in the last place of a magnitude whose leading bit is at `top` (FP32). -/
def ulpExp (top : Int) : Int := max top (-126) - 23

/-- Leading bit position of an exact nonzero value. -/
def Exact.top (x : Exact) : Int := (Nat.log2 x.m.natAbs : Int) + x.e

/-- The result of an inexact word of R158: Config's free value when it is a finite FP32 value no further than `tol` from
`v` (the exact function value, known to a far finer error that `tol` leaves room for), else `v` rounded. Flags as R159: inexact, and
underflow when the result is tiny (R127): a zero result is, when the exact value is. DESIGN CHOICE (log 11). -/
def approxResult (fn x : Nat) (v tol : Exact) : Nat × FpFlags :=
  let c := (Config.approx fn (BitVec.ofNat 32 x)).toNat
  let ok : Bool := match Fmt.fp32.unpack c with
    | .fin n m e =>
      let dlt := (Exact.ofFin n m e).add v.neg
      !(tol.lt ⟨dlt.m.natAbs, dlt.e⟩)
    | _ => false
  let r := if ok then c else (Fmt.fp32.roundExact rne .ieee (decide (v.m < 0)) v).1
  let tiny : Bool := if r % 2 ^ 31 = 0 then decide (v.top < -126) else decide (r % 2 ^ 31 < 2 ^ 23)
  (r, flInexact ||| (if tiny then flUnderflow else 0))

/-- n units in the last place of v, less a margin for the error of v itself. -/
def ulps (n : Int) (v : Exact) : Exact := (Exact.mk n (ulpExp v.top)).add ⟨-1, ulpExp v.top - 20⟩

/-- VRCP (R158). DESIGN CHOICE (log 11). -/
def vrcp32 (x : Nat) : Nat × FpFlags :=
  match Fmt.fp32.unpack x with
  | .nan s => (Fmt.fp32.nan, if s then flInvalid else 0)
  | .inf n => (Fmt.fp32.withSign n 0, 0)
  | .fin n 0 _ => (Fmt.fp32.withSign n Fmt.fp32.inf, flDivZero)
  | .fin n m e =>
    if x % 2 ^ 31 = 0x3F800000 then (x, 0)
    else
      let q : Int := 2 ^ 80 / m
      let v : Exact := ⟨if n then -q else q, -80 - e⟩
      approxResult 0 x v (ulps 1 v)

/-- VRSQ (R158). DESIGN CHOICE (log 11). -/
def vrsq32 (x : Nat) : Nat × FpFlags :=
  match Fmt.fp32.unpack x with
  | .nan s => (Fmt.fp32.nan, if s then flInvalid else 0)
  | .inf true => (Fmt.fp32.nan, flInvalid)
  | .inf false => (0, 0)
  | .fin n 0 _ => (Fmt.fp32.withSign n Fmt.fp32.inf, flDivZero)
  | .fin true _ _ => (Fmt.fp32.nan, flInvalid)
  | .fin false m e =>
    -- 1 / √(m 2^e) with an even exponent: √(2^160 / m') × 2^(-80 - e'/2)
    let odd : Bool := decide (e % 2 ≠ 0)
    let m' := if odd then 2 * m else m
    let e' := if odd then e - 1 else e
    let r := isqrtBits 82 (2 ^ 160 / m') 0
    let v : Exact := ⟨r, -80 - e' / 2⟩
    if 2 ^ Nat.log2 m' = m' ∧ Nat.log2 m' % 2 = 0 then Fmt.fp32.roundExact rne .ieee false v
    else approxResult 1 x v (ulps 1 v)

/-- 2^(2^-i) × 2^64 for i = 1, 2, …: repeated square roots. -/
def exp2Steps : Nat → Nat → Nat → Nat → Nat
  | 0, _, _, acc => acc
  | n + 1, c, frac, acc =>
    let c' := isqrtBits 66 (c * 2 ^ 64) 0
    exp2Steps n c' (frac * 2 % 2 ^ 64) (if frac * 2 ≥ 2 ^ 64 then acc * c' / 2 ^ 64 else acc)

/-- 2^(frac ÷ 2^64) × 2^64, from below, to better than 2^-50. -/
def exp2Fix (frac : Nat) : Nat := exp2Steps 56 (2 ^ 65) frac (2 ^ 64)

/-- Floor of an exact value times 2^k. -/
def Exact.floorScaled (x : Exact) (k : Nat) : Int :=
  let s := x.e + k
  if 0 ≤ s then x.m * 2 ^ s.toNat else x.m / (2 ^ (-s).toNat : Int)

/-- VEXP2 (R158). DESIGN CHOICE (log 11). -/
def vexp232 (x : Nat) : Nat × FpFlags :=
  match Fmt.fp32.unpack x with
  | .nan s => (Fmt.fp32.nan, if s then flInvalid else 0)
  | .inf true => (0, 0)
  | .inf false => (Fmt.fp32.inf, 0)
  | .fin n m e =>
    let ex := Exact.ofFin n m e
    let fx := ex.floorScaled 64
    if ¬ (ex.lt ⟨128, 0⟩) then (Fmt.fp32.inf, flOverflow ||| flInexact)
    else if ex.lt ⟨-150, 0⟩ then (0, flInexact ||| flUnderflow)
    else
      let ip := fx / (2 ^ 64 : Int)
      let fr := (fx % (2 ^ 64 : Int)).toNat
      let whole : Bool := decide ((Exact.mk ip 0).lt ex = false) && decide (ex.lt ⟨ip, 0⟩ = false)
      let v : Exact := ⟨exp2Fix fr, ip - 64⟩
      if whole && decide (-149 ≤ ip) then ((Fmt.fp32.round rne .ieee false 1 ip false).1, 0)
      else if -126 ≤ ip then approxResult 3 x v (ulps 2 v)
      else approxResult 3 x v ((Exact.mk 1 (-149)).add ⟨-1, -170⟩)

/-- Fraction bits of log2 of y ÷ 2^100 in [1, 2), by repeated squaring. -/
def log2Steps : Nat → Nat → Nat → Nat
  | 0, _, acc => acc
  | n + 1, y, acc =>
    let z := y * y / 2 ^ 100
    if z ≥ 2 ^ 101 then log2Steps n (z / 2) (2 * acc + 1) else log2Steps n z (2 * acc)

/-- VLOG2 (R158). DESIGN CHOICE (log 11). -/
def vlog232 (x : Nat) : Nat × FpFlags :=
  match Fmt.fp32.unpack x with
  | .nan s => (Fmt.fp32.nan, if s then flInvalid else 0)
  | .inf true => (Fmt.fp32.nan, flInvalid)
  | .inf false => (Fmt.fp32.inf, 0)
  | .fin _ 0 _ => (Fmt.fp32.signBit + Fmt.fp32.inf, flDivZero)
  | .fin true _ _ => (Fmt.fp32.nan, flInvalid)
  | .fin false m e =>
    let k := Nat.log2 m
    let ip : Int := k + e
    if m = 2 ^ k then Fmt.fp32.roundExact rne .ieee false ⟨ip, 0⟩
    else
      let fr := log2Steps 60 (m * 2 ^ (100 - k)) 0
      let v : Exact := ⟨ip * 2 ^ 60 + fr, -60⟩
      -- x in [0.5, 2]
      if -1 ≤ ip ∧ ip ≤ 0 then approxResult 4 x v ((Exact.mk 1 (-22)).add ⟨-1, -50⟩)
      else approxResult 4 x v (ulps 1 v)

/-- Alternating Taylor sum: terms t, −t x²/((k+1)(k+2)), …, in units of 2^-64. -/
def taylor : Nat → Int → Int → Int → Int → Int
  | 0, _, _, _, acc => acc
  | n + 1, x2, t, k, acc => taylor n x2 (-(t * x2 / (2 ^ 64 : Int)) / ((k + 1) * (k + 2))) (k + 2) (acc + t)

/-- 2π in units of 2^-64. -/
def twoPi : Int := 115904311329233965478

/-- sin(2π r) or cos(2π r) in units of 2^-64, r in units of 2^-64 with |r| ≤ ½. -/
def sinTurns (cosine : Bool) (r : Int) : Int :=
  let t := r * twoPi / (2 ^ 64 : Int)
  let t2 := t * t / (2 ^ 64 : Int)
  if cosine then taylor 18 t2 (2 ^ 64) 0 0 else taylor 18 t2 t 1 0

/-- VSIN and VCOS (R158): x in turns, reduced by the nearest integer; multiples of a quarter exact. DESIGN CHOICE (log 11). -/
def vsincos32 (cosine : Bool) (x : Nat) : Nat × FpFlags :=
  match Fmt.fp32.unpack x with
  | .nan s => (Fmt.fp32.nan, if s then flInvalid else 0)
  | .inf _ => (Fmt.fp32.nan, flInvalid)
  | .fin n 0 _ => if cosine then (0x3F800000, 0) else (Fmt.fp32.withSign n 0, 0)
  | .fin n m e =>
    let ex := Exact.ofFin n m e
    let q4 := ex.floorScaled 2
    let quarter : Bool := decide ((Exact.mk q4 (-2)).lt ex = false) && decide (ex.lt ⟨q4, -2⟩ = false)
    if quarter then
      let k := q4 % 4
      let one := 0x3F800000
      if cosine then ((if k = 0 then one else if k = 2 then Fmt.fp32.signBit + one else 0), 0)
      else ((if k = 1 then one else if k = 3 then Fmt.fp32.signBit + one else Fmt.fp32.withSign n 0), 0)
    else
      let f := ex.floorScaled 64 % (2 ^ 64 : Int)
      let r := if f < 2 ^ 63 then f else f - 2 ^ 64
      -- a sine of a small turn is 2πx itself far inside the bound
      let v : Exact := if !cosine && decide (ex.top < -40) then ⟨ex.m * twoPi, ex.e - 64⟩
                       else ⟨sinTurns cosine r, -64⟩
      let rel := ulps 2 v
      let abs_ : Exact := ⟨1, -24⟩
      approxResult (if cosine then 6 else 5) x v (if rel.lt abs_ then abs_.add ⟨-1, -40⟩ else rel)

end Sys2Proof.Machine
end

