-- ==== Sys2Proof/Machine/Shapes.lean ====
section
/-! DEFINITION. Shape records (R175 to R178): their fields, the checks of R179, where an element lies, its extent, and an
element as the feeder delivers it (R124, R125, R203). -/

namespace Sys2Proof.Machine

open Host

/-- A shape record: 64 bytes as one little-endian number (R175). -/
abbrev Shape := BitVec 512

/-- Bits [lo + w - 1 : lo] of qword q. -/
def Shape.bits (r : Shape) (q lo w : Nat) : Nat := r.toNat / 2 ^ (64 * q + lo) % 2 ^ w

def Shape.base (r : Shape) : Nat := r.bits 0 0 57
def Shape.fmt (r : Shape) : Nat := r.bits 1 60 4
def Shape.prec (r : Shape) : Nat := r.bits 1 56 4
def Shape.space (r : Shape) : Nat := r.bits 1 54 2
def Shape.rank (r : Shape) : Nat := r.bits 1 50 4
def Shape.cls (r : Shape) : Nat := r.bits 1 48 2
def Shape.ndim (r : Shape) : Nat := r.bits 1 46 2 + 1
def Shape.layout (r : Shape) : Nat := r.bits 1 44 2
def Shape.kdim (r : Shape) : Nat := r.bits 1 43 1
def Shape.tokhome (r : Shape) : Nat := r.bits 1 33 9
def Shape.smoff (r : Shape) : Nat := r.bits 3 32 32
def Shape.scmode (r : Shape) : Nat := r.bits 7 62 2
def Shape.smooth (r : Shape) : Bool := r.bits 7 61 1 == 1
def Shape.scbase (r : Shape) : Nat := r.bits 7 0 57
def Shape.rawSize (r : Shape) (d : Nat) : Nat :=
  if d = 0 then r.bits 1 0 32 else if d = 1 then r.bits 2 0 32 else if d = 2 then r.bits 2 32 32 else r.bits 3 0 32
/-- Sizes of dimensions above NDIMM1 are 1 (R177); an undefined entry has every size zero. -/
def Shape.size (r : Shape) (d : Nat) : Nat :=
  if r.fmt = 0 then 0 else if d < r.ndim then r.rawSize d else 1
def Shape.stride (r : Shape) (d : Nat) : Int :=
  if d < r.ndim then toIntBits 48 (r.bits (3 + d) 0 48) else 0

/-- Element bytes (R176). -/
def fmtBytes (f : Nat) : Nat := [0, 4, 4, 8, 2, 2, 2, 1, 1, 1, 0, 0, 8, 4, 12, 0].getD f 0
/-- Tag of a format (R176). -/
def fmtTag (f : Nat) : Nat := [0, 1, 2, 4, 10, 5, 6, 7, 8, 9, 0, 11, 0, 0, 0, 0].getD f 0
/-- Element format by code, for the formats that name one number. -/
def fmtElem (f : Nat) : Option Elem :=
  if f = 1 then some (.int 32) else if f = 2 then some (.flt .fp32) else if f = 3 then some (.flt .fp64)
  else if f = 4 then some (.int 16) else if f = 5 then some (.flt .fp16) else if f = 6 then some (.flt .bf16)
  else if f = 7 then some (.flt .e4m3) else if f = 8 then some (.flt .e5m2) else if f = 9 then some (.int 8) else none

def Shape.count (r : Shape) : Nat := r.size 0 * r.size 1 * r.size 2 * r.size 3
/-- Element blocks of a PL8 tensor (R124). -/
def Shape.plBlocks (r : Shape) : Nat := (r.count + 1023) / 1024

/-- A coordinate. -/
structure Coord where
  i0 : Int := 0
  i1 : Int := 0
  i2 : Int := 0
  i3 : Int := 0
  deriving DecidableEq, Repr

def Coord.get (c : Coord) (d : Nat) : Int := if d = 0 then c.i0 else if d = 1 then c.i1 else if d = 2 then c.i2 else c.i3
def Coord.add (c : Coord) (d : Nat) (x : Int) : Coord :=
  if d = 0 then { c with i0 := c.i0 + x } else if d = 1 then { c with i1 := c.i1 + x }
  else if d = 2 then { c with i2 := c.i2 + x } else { c with i3 := c.i3 + x }

/-- R177: the coordinate lies inside the shape. -/
def Shape.inside (r : Shape) (c : Coord) : Bool :=
  [0, 1, 2, 3].all fun d => decide (0 ≤ c.get d) && decide (c.get d < r.size d)

/-- R177: byte address of an element, before the space's own reading of it. -/
def Shape.addrOf (r : Shape) (c : Coord) : Int :=
  let es : Int := fmtBytes r.fmt
  let rest := c.i2 * r.stride 2 + c.i3 * r.stride 3
  if r.layout = 0 then r.base + c.i0 * es + c.i1 * r.stride 1 + rest
  else
    let t : Int := if r.layout = 1 then 8 else 16
    r.base + c.i1 / t * r.stride 1 + c.i0 / t * (t * t * es) + (c.i1 % t * t + c.i0 % t) * es + rest

/-- Element order of a PL8 shape (R177). -/
def Shape.plIndex (r : Shape) (c : Coord) : Nat :=
  (c.i0 + r.size 0 * (c.i1 + r.size 1 * (c.i2 + r.size 2 * c.i3))).toNat

/-- Lowest element address and the address past the highest (R177). -/
def Shape.extent (r : Shape) : Int × Int :=
  if r.fmt = 11 then (r.base, r.base + r.prec * r.plBlocks * 128)
  else if r.count = 0 then (r.base, r.base)
  else
    let last (d : Nat) : Int := (r.size d : Int) - 1
    let t : Int := if r.layout = 1 then 8 else if r.layout = 2 then 16 else 1
    -- candidate places of each dimension: an address is linear in each but for i1 of a tiled layout,
    -- whose first, last whole and part-filled tile rows all count
    let c1 : List Int := ([0, t - 1, last 1 / t * t - 1, last 1 / t * t, last 1].filter fun x =>
      decide (0 ≤ x) && decide (x ≤ last 1)).eraseDups
    let cand : List Coord := [0, last 0].flatMap fun a => c1.flatMap fun b =>
      [0, last 2].flatMap fun c => [0, last 3].map fun d => ⟨a, b, c, d⟩
    let as := cand.map r.addrOf
    (as.foldl min (r.addrOf {}), as.foldl max (r.addrOf {}) + fmtBytes r.fmt)

/-- R179, status 1: a malformed record. -/
def Shape.malformed (r : Shape) : Bool :=
  let es := if r.fmt = 11 then 128 else fmtBytes r.fmt
  let rsv := r.bits 0 57 7 + r.bits 1 42 1 + r.bits 1 32 1 + r.bits 4 48 16 + r.bits 5 48 16 + r.bits 6 48 16 + r.bits 7 57 4
  rsv != 0 || r.fmt = 0 || r.fmt = 10 || r.cls = 3 || r.space = 3 || r.layout = 3 ||
  ((List.range r.ndim).any fun d => r.rawSize d == 0) ||
  (es != 0 && (r.base % es != 0 || (List.range (r.ndim - 1)).any fun d => r.stride (d + 1) % (es : Int) != 0)) ||
  (if r.fmt = 11 then r.prec < 2 || 8 < r.prec else r.prec != 0) ||
  (r.cls != 0 && r.space != 0) || r.ndim ≤ r.kdim ||
  (2 ≤ r.scmode && !(r.fmt = 2 || (5 ≤ r.fmt && r.fmt ≤ 8))) ||
  (r.fmt = 11 && (r.layout != 0 || (List.range (r.ndim - 1)).any fun d => r.stride (d + 1) != 0)) ||
  (r.space != 2 && r.rank != 0) || (r.cls != 1 && r.tokhome != 0) ||
  (r.smooth && r.smoff % 4 != 0) || (r.scmode = 0 && r.scbase != 0)

/-! ## The table of a context -/

def State.shapeOf (s : State) (ctx id : Nat) : Shape :=
  match s.ctx? ctx with
  | some c => match c.shapes.find? fun e => e.1 == id with | some e => e.2 | none => 0
  | none => 0

/-! ## Reading elements -/

/-- Where a shape's bytes lie for a group: global addresses, or offsets of one group's scratchpad. -/
inductive Region where
  | glob
  | pad (g : Nat)
  deriving DecidableEq, Repr

/-- The group of a cluster rank (R22). A group that has ended has no scratchpad any more: an access to it is as to a rank that the
cluster has not. DESIGN CHOICE (log 81). -/
def State.peer? (s : State) (gr : Group) (rank : Nat) : Option Group :=
  s.groups.find? fun x => x.launch == gr.launch && x.cluster == gr.cluster && x.clrank == rank && !x.ended

def State.regionOf (s : State) (gr : Group) (r : Shape) : Option Region :=
  if r.space = 0 then some .glob
  else if r.space = 1 then some (.pad gr.g)
  else (s.peer? gr r.rank).map fun p => .pad p.g

/-- Read n bytes as an engine of a context: scratchpad in place, global bytes at their homes (R254). -/
def State.engRead (s : State) (core ctx : Nat) (reg : Region) (a : Int) : Nat → MemRes (List Byte)
  | 0 => .ok s []
  | n + 1 =>
    match reg with
    | .pad g =>
      let b : Byte := match s.group? g with | some gr => gr.padByte a.toNat | none => 0
      match s.engRead core ctx reg (a + 1) n with
      | .ok s bs => .ok s (b :: bs)
      | r => r
    | .glob =>
      if a < 0 ∨ (2 ^ 57 : Int) ≤ a then .viol s a 0 0 0
      else match s.translate core ctx a.toNat .engineRead with
        | (s, .ok pa _) => match s.homeByte pa with
          | none => .viol s a 8 0 0
          | some b => match s.engRead core ctx reg (a + 1) n with
            | .ok s bs => .ok s (b :: bs)
            | r => r
        | (s, .viol k l i) => .viol s a k l i
        | (s, .resolvable e) => .fault s a e

/-- Write bytes as an engine of a context: at the homes, owned words recalled (R241, R254). -/
def State.engWrite (s : State) (core ctx : Nat) (reg : Region) (a : Int) : List Byte → MemRes Unit
  | [] => .ok s ()
  | b :: bs =>
    match reg with
    | .pad g => (s.padWrite g a.toNat [b]).engWrite core ctx reg (a + 1) bs
    | .glob =>
      if a < 0 ∨ (2 ^ 57 : Int) ≤ a then .viol s a 0 0 0
      else match s.translate core ctx a.toNat .engineWrite with
        | (s, .ok pa _) => if s.touchesObjectOf (some ctx) 3 pa 1 then .viol s a 7 0 0
          else (s.homeWrite pa [b]).engWrite core ctx reg (a + 1) bs
        | (s, .viol k l i) => .viol s a k l i
        | (s, .resolvable e) => .fault s a e

/-- R124, R125: byte address and bit of plane p of a PL8 element. -/
def Shape.planeAt (r : Shape) (idx p : Nat) : Int × Nat :=
  (r.base + ((7 - p) * r.plBlocks + idx / 1024) * 128 + idx % 1024 / 8, idx % 8)

/-- q × 2^(8 − k) of a PL8 element whose planes 7 down to 8 − k are given, plane 7 first (R125). -/
def plValue (bits : List Bool) : Int :=
  let k := bits.length
  let q := bits.foldl (fun a b => 2 * a + (if b then 1 else 0)) 0
  toIntBits k q * 2 ^ (8 - k)

/-- The stored bits of an element inside the shape; a PL8 element reads as its value in 32 bits. -/
def State.elemRead (s : State) (core ctx : Nat) (reg : Region) (r : Shape) (c : Coord) : MemRes Nat :=
  if r.fmt = 11 then
    let idx := r.plIndex c
    let rec go (s : State) (acc : List Bool) : List Nat → MemRes Nat
      | [] => .ok s (ofIntBits 32 (plValue acc))
      | j :: js =>
        let pl := r.planeAt idx (7 - j)
        match s.engRead core ctx reg pl.1 1 with
        | .ok s bs => go s (acc ++ [ebit (leNat bs) pl.2]) js
        | .viol s a k l i => .viol s a k l i
        | .fault s a e => .fault s a e
    go s [] (List.range r.prec)
  else match s.engRead core ctx reg (r.addrOf c) (fmtBytes r.fmt) with
    | .ok s bs => .ok s (leNat bs)
    | .viol s a k l i => .viol s a k l i
    | .fault s a e => .fault s a e

/-- R203: an element as the feeder delivers it: 32 bits (64 for FP64) and its tag. -/
def deliver (fmt x : Nat) : Nat × BitVec 4 :=
  if fmt = 11 then (x, 1)
  else match fmtElem fmt with
    | some (.int w) => (ofIntBits 32 (toIntBits w x), 1)
    | some (.flt f) => if fmt = 3 then (x, 4) else ((cvtElem .onRead rne (.flt f) (.flt .fp32) x).1, 2)
    | none => (x, 0)

/-- Tag of a delivered element. -/
def deliverTag (fmt : Nat) : BitVec 4 := (deliver fmt 0).2

end Sys2Proof.Machine
end

