-- ==== Sys2Proof/Machine/WaveImage.lean ====
section
/-! DEFINITION. The bytes of a wave in a save slot (R420, R421): its wave area and its registers. -/

namespace Sys2Proof.Machine

open Host

/-- Bytes at a place of a slot. -/
abbrev Chunk := Nat × List Byte

def q8 (n : Nat) : List Byte := leBytes 8 n
def bitIf (x : Bool) (k : Nat) : Nat := if x then 2 ^ k else 0

/-! ## Wave areas (R420, R421) -/

def Frag.bytes (f : Frag) : List Byte :=
  q8 (f.live.toNat * 2 ^ 32 + 2 ^ 31 + bitIf f.wait.isSome 30 + bitIf f.frame.isSome 29 + f.age % 512 * 2 ^ 20 + f.prio.toNat * 2 ^ 16 +
    f.parent % 256 * 2 ^ 8 + f.id % 256) ++
  q8 (bitIf f.fwdLane.isSome 53 + f.fwdLane.getD 0 % 32 * 2 ^ 48 + bitIf f.repNext.isSome 41 + f.repNext.getD 0 % 16 * 2 ^ 37 +
    f.frame.getD 0 % 32 * 2 ^ 32 + f.sib.toNat)

/-- A trap frame; `bound` is the lanes of the fragments bound to it, which a split, a merge or an exit changes (R397, R97). -/
def Frame.bytes (f : Frame) (bound : LaneMask) : List Byte :=
  q8 (bitIf f.rep.isSome 16 + f.rep.getD 0 % 16 * 2 ^ 12 + f.prio.toNat * 2 ^ 8 + f.cause.toNat) ++ q8 f.faddr.toNat ++ q8 f.fpc.toNat ++
  q8 (f.fparent % 256 * 256 + f.fid % 256) ++ q8 f.fsib.toNat ++ q8 f.finfo.toNat ++ q8 bound.toNat ++ q8 0

/-- Two 4-bit tags to a byte. -/
def tagBytes (tag : Nat → Nat) : List Byte := (List.range 64).map fun k => BitVec.ofNat 8 (tag (2 * k) + 16 * tag (2 * k + 1))

def Wave.lanePc (v : Wave) (l : Nat) : Nat := match v.frags.find? fun f => f.live.getLsbD l with | some f => f.pc.toNat | none => 0

/-- A lane's section request: key, sequence number, whether it waits, and whether its grant landed while the wave was out
(R324). -/
def State.requestBytes (s : State) (v : Wave) (l : Nat) : List Byte :=
  match s.calls.find? fun c => c.g == v.g && c.w == v.w && c.kind == 0 && (c.lanes ||| c.granted).getLsbD l with
  | some c => q8 (c.keys.getD l 0).toNat ++ leBytes 4 (c.seqs.getD l 0).toNat ++
      leBytes 4 (bitIf (c.lanes.getLsbD l) 0 + bitIf (c.granted.getLsbD l) 1)
  | none => List.replicate 16 0

/-- The live lanes of the fragments bound to a frame. -/
def Wave.boundLanes (v : Wave) (slot : Nat) : LaneMask :=
  (v.frags.filter fun f => f.frame == some slot).foldl (fun m f => m ||| f.live) 0

def State.waveChunk (s : State) (v : Wave) : List Byte :=
  let keys (l : Nat) : List Held := v.held.filter fun h => h.lane == l
  let r := v.regs
  let frag (k : Nat) : List Byte := match v.frags[k]? with | some f => f.bytes | none => List.replicate 16 0
  let frame (k : Nat) : List Byte := match v.frames.find? fun f => f.slot == k with | some f => f.bytes (v.boundLanes k) | none => List.replicate 64 0
  let watch (k : Nat) : List Byte := match v.watches[k]? with | some x => q8 x.addr ++ q8 x.phase.toNat | none => List.replicate 16 0
  (List.range 32).flatMap (fun l => q8 (v.lanePc l)) ++ (List.range 32).flatMap frag ++
  tagBytes (fun n => (v.vreg n).tag.toNat) ++ tagBytes (fun n => (v.sreg n).tag.toNat) ++
  leBytes 16 ((List.range 128).foldl (fun a n => a + bitIf (v.sreg n).full n) 0) ++
  (List.range 16).map (fun k => BitVec.ofNat 8 ((keys (2 * k)).length + 16 * (keys (2 * k + 1)).length)) ++
  q8 (bitIf r.tagmode 0) ++ q8 r.rndmode.toNat ++ q8 r.fpflags.toNat ++ q8 r.stklim.toNat ++ q8 r.tscr.toNat ++ q8 r.opthr.toNat ++
  q8 r.relts.toNat ++ q8 r.secwdog.toNat ++ List.replicate 32 0 ++
  (List.range 128).flatMap (fun n => leBytes 4 (v.vreg n).pend.toNat) ++ (List.range 4).flatMap watch ++ List.replicate 192 0 ++
  (List.range 32).flatMap (fun l => (List.range 4).flatMap fun k => q8 (match (keys l)[k]? with | some h => h.key.toNat | none => 0)) ++
  (List.range 32).flatMap (s.requestBytes v) ++ (List.range 32).flatMap frame ++ List.replicate 2816 0

/-! ## Registers (R418) -/

/-- A wave's V and S blocks. -/
def Wave.regChunk (v : Wave) : List Byte :=
  (List.range v.vcount).flatMap (fun n => (List.range 32).flatMap fun l => leBytes 4 ((v.vreg n).lane l).toNat) ++
  (List.range v.scount).flatMap fun n => q8 (v.sreg n).val.toNat

/-- Where a wave's area and its registers lie in a slot (R418). -/
def waveAreaAt (w : Nat) : Nat := 0x4000 + 8192 * w
def waveRegsAt (v : Wave) : Nat := 0x44000 + v.w * (128 * v.vcount + 8 * v.scount)

end Sys2Proof.Machine
end

