-- ==== Sys2Proof/Machine/Home.lean ====
section
/-! DEFINITION. The homes at work: where an address reaches (R22, R326, R387), registrations and visibility times (R239),
releases (R243), acquires and surrenders (R245), the landing of a lane's result (R137), and barrier objects (R284 to
R287). -/

namespace Sys2Proof.Machine

open Host

/-! ## Requests in flight -/

/-- Atomics, which a release waits for (R243). -/
def ReqKind.isAtomic : ReqKind → Bool
  | .atomic .. | .atomic64 .. | .routine .. => true
  | _ => false
/-- Synchronising requests (R236, R247). -/
def ReqKind.isSync : ReqKind → Bool
  | .load _ _ a => a
  | .shaped _ a => a
  | .atomic _ _ _ o _ => o != 0
  | .atomic64 _ _ _ o => o != 0
  | .routine _ _ _ o => o != 0
  | .acqWord => true
  | .peer _ _ _ a => a
/-- Requests that acquire (R236). -/
def ReqKind.isAcquire : ReqKind → Bool
  | .load _ _ a => a
  | .shaped _ a => a
  | .atomic _ _ _ o _ => o.getLsbD 0
  | .atomic64 _ _ _ o => o.getLsbD 0
  | .routine _ _ _ o => o.getLsbD 0
  | .acqWord => true
  | .peer _ _ _ a => a
/-- Bytes of one lane's access. -/
def ReqKind.bytes : ReqKind → Nat
  | .load b _ _ => b
  | .shaped f _ => if f = 3 then 8 else if f = 1 ∨ f = 2 then 4 else if f = 4 ∨ f = 5 ∨ f = 6 then 2 else 1
  | .atomic64 .. => 8
  | .peer b _ _ _ => b
  | _ => 4

/-- The lane's read or operation has taken place at its home. -/
def Req.performedAt (r : Req) (lane : Nat) : Bool := (r.captured.getD lane none).isSome || !r.lanes.getLsbD lane
def Req.performed (r : Req) : Bool := (List.range 32).all r.performedAt

/-- First step of R243: every store of the wave has its visibility time and every atomic has been performed. -/
def State.storesDone (s : State) (g w : Nat) : Bool :=
  !(s.regq.any fun r => r.g == g && r.w == w) &&
  !(s.reqs.any fun r => r.g == g && r.w == w && r.kind.isAtomic && !r.performed)

/-- An earlier synchronising access of the wave has not been performed, or its acquire is outstanding (R245, R247): a LAUNCH,
whose record is still to be read and decided, among them (R236). DEDUCED (log 22). -/
def State.syncBusy (s : State) (g w : Nat) : Bool :=
  (s.reqs.any fun r => r.g == g && r.w == w && r.kind.isSync) || (s.regq.any fun r => r.g == g && r.w == w && r.sync) ||
  s.fills.any fun f => f.g == g && f.w == w && f.kind == 0

/-- The wave's later accesses issue only when an acquire, or a fence, is over (R245, R251). -/
def State.held (s : State) (g w : Nat) : Option Wait :=
  if s.reqs.any fun r => r.g == g && r.w == w && r.kind.isAcquire then some .sync
  else if s.fills.any fun f => f.g == g && f.w == w && f.kind == 5 then some .fence else none

/-- What an access of the wave waits for before it issues: `sync` for a synchronising access (R247), `rel` for one that
begins with the first step of R243. DEDUCED (log 22). -/
def State.accessWait (s : State) (g w : Nat) (sync rel : Bool) : Option Wait :=
  match s.held g w with
  | some x => some x
  | none => if sync && s.syncBusy g w then some .sync else if rel && !s.storesDone g w then some .stores else none

/-- What an atomic waits for before it issues. A relaxed one waits for no earlier synchronising access (R247), only for a
fence (R251). DEDUCED (log 22). -/
def State.atomicWait (s : State) (g w : Nat) (ord : BitVec 2) : Option Wait :=
  if ord = 0 then (if s.fills.any fun f => f.g == g && f.w == w && f.kind == 5 then some .fence else none)
  else s.accessWait g w true (ord.getLsbD 1)

/-! ## Visibility times and releases -/

/-- A store or atomic of the wave has visibility time t (R239, R243). -/
def State.seen (s : State) (g w t : Nat) : State :=
  s.updWave g w fun v => { v with lastVis := some (max t (v.lastVis.getD 0)) }

/-- Release time of R243: the largest visibility time, or the heartbeat. -/
def Wave.releaseTime (v : Wave) (hb : Nat) : Nat := v.lastVis.getD hb

/-- RELTS of the wave (R243). -/
def State.setRelts (s : State) (g w rt : Nat) : State :=
  s.updWave g w fun v => { v with regs := { v.regs with relts := BitVec.ofNat 64 rt } }

/-- The number of an address's home in a home set of n slices (R14). -/
def homeSlice (pa n : Nat) : Nat :=
  let f (k : Nat) : BitVec 10 := BitVec.ofNat 10 (pa / 2 ^ k % 1024)
  (f 7 ^^^ f 17 ^^^ f 27 ^^^ f 37 ^^^ f 47).toNat % max 1 n

/-- The mapping through which a context reaches an address selects the home set of the whole partition (R14, R378); for a line
of host memory that is the set whatever the mapping says. -/
def State.partSet (s : State) (ctx pa : Nat) : Bool :=
  isHostPa pa || (s.l0 ++ s.tlb).any fun e => e.ctx == some ctx && e.hp && decide (e.pbase ≤ pa) && decide (pa < e.pbase + e.size)

/-- The home of an address (R14), as the COREID of its slice: in the set of the wedge whose stack holds the line, or, where the
mapping or a line of host memory says so, in that of the whole partition. -/
def homeIn (wedges : BitVec 20) (whole : Bool) (pa : Nat) : Nat :=
  let ws := (List.range 20).filter fun w => wedges.getLsbD w
  if whole && !ws.isEmpty then
    let h := homeSlice pa (20 * ws.length)
    20 * ws.getD (h / 20) 0 + h % 20
  else 20 * (pa / 2 ^ 36) + homeSlice pa 20

/-- The home of an address for a context's access. -/
def State.homeCore (s : State) (ctx pa : Nat) : Nat :=
  homeIn (match s.partOf ctx with | some p => p.wedges | none => 0) (s.partSet ctx pa) pa

/-- The home of an address of a partition's memory for an access through its stage 2 alone, a peer's among them. -/
def State.homeOfPart (s : State) (p : Part) (pa : Nat) : Nat :=
  homeIn p.wedges (isHostPa pa || s.tlb.any fun e => e.ctx == none && e.part == p.n && e.hp && decide (e.pbase ≤ pa) &&
    decide (pa < e.pbase + e.size)) pa

/-- R244: write the record of a word. A slice's directory holds 4,096 entries; the oldest gives way, its last releaser
surrendered first. -/
def State.record (s : State) (word core ctx rt : Nat) : State :=
  let slice := s.homeCore ctx (4 * word)
  let others := s.dir.filter fun r => r.word != word
  let mine := others.filter fun r => r.slice == slice
  let (s, others) := if mine.length < 4096 then (s, others) else match mine with
    | [] => (s, others)
    | o :: _ => (s.writeBack o.core o.ctx (fun _ => true), others.filter fun r => r.word != o.word)
  { s with dir := others ++ [⟨word, core, ctx, rt, slice⟩] }

def State.recordOf (s : State) (word : Nat) : Option SyncRec := s.dir.find? fun r => r.word == word

/-- A write a core makes at the home: recall first, and the core's own L1 copy goes (R241, R243, R247). -/
def State.coreWrite (s : State) (core pa : Nat) (bs : List Byte) : State :=
  let s := s.homeWrite pa bs
  if bs.isEmpty then s
  else (List.range ((pa + bs.length - 1) / 4 - pa / 4 + 1)).foldl (fun s k => s.dropWord core (pa / 4 + k)) s

/-- REGISTRATION (R239) of one word: the home records the core as the word's owner, recalls the others first, and keeps at most
four owner cores of a line. Every store of the core to the word that waits for it gets its visibility time. -/
def State.registerWord (s : State) (core word : Nat) : State :=
  let waiting := s.regq.filter fun r => r.core == core && r.word == word && r.id == 0
  let s := { s with regq := s.regq.filter fun r => !(r.core == core && r.word == word && r.id == 0) }
  let s := match s.l1Word core word with
    | none => s
    | some e =>
      if e.own then s
      else
        let s := s.recall word
        let lineOwners := (s.owners.filter fun o => o.word / 32 == word / 32).map (·.core)
        let s := if 4 ≤ lineOwners.eraseDups.length && !lineOwners.contains core then
            match lineOwners with
            | [] => s
            | old :: _ => (s.owners.filter fun o => o.word / 32 == word / 32 && o.core == old).foldl
                (fun s o => s.recall o.word) s
          else s
        { s with
          l1 := s.l1.map fun x => if x.core == core && x.word == word then { x with own := true, mask := x.dm } else x
          owners := s.owners ++ [⟨word, core⟩] }
  waiting.foldl (fun s r => match s.group? r.g with
    | some gr => s.seen r.g r.w (s.ticksOf gr.ctx)
    | none => s) s

/-- REGISTRATION (R239): the words of an aligned 8-byte store are registered at one instant (R237). -/
def State.register (s : State) (core word : Nat) : State :=
  if s.regq.any fun r => r.core == core && r.word == word && r.id == 0 && r.wide then
    (s.registerWord core (word / 2 * 2)).registerWord core (word / 2 * 2 + 1)
  else s.registerWord core word

/-- Words of [pa, pa + n). -/
def wordsOf (pa n : Nat) : List Nat := if n = 0 then [] else (List.range ((pa + n - 1) / 4 - pa / 4 + 1)).map (pa / 4 + ·)

/-- A core's access at a home, where its own earlier stores to those bytes come first (R238). -/
def State.settleStores (s : State) (core pa n : Nat) : State := (wordsOf pa n).foldl (fun s w => s.register core w) s

/-- A core's read at a home (R240, R245): its own earlier stores are in place, and no older copy stays in its L1 for a later
load of the wave to find (R238). None when the line fails its check. -/
def State.coreRead (s : State) (core pa n : Nat) : State × Option (List Byte) :=
  let s := s.settleStores core pa n
  ((wordsOf pa n).foldl (fun s w => s.dropWord core w) s, s.homeBytes pa n)

/-! ## Where an address reaches -/

/-- What a device access to a global-form or Galord-form address finds. -/
inductive Tgt where
  /-- physical memory through the context's own translation -/
  | mem (pa : Nat)
  /-- this module's memory through a Galord-form address (R326) -/
  | own (pa : Nat)
  /-- another module's memory -/
  | peer
  | viol (kind level ipa : Nat)
  | resolvable (entry : EntryAt)
  deriving DecidableEq, Repr

def isGalord (va : DWord) : Bool := va.getLsbD 63
/-- PKGID field of a Galord-form address: pod, board, device (R22). -/
def galordPkg (va : DWord) : Nat := va.toNat / 2 ^ 45 % 2 ^ 18
def galordOff (va : DWord) : Nat := va.toNat % 2 ^ 45
def State.isOwnPkg (s : State) (pkg : Nat) : Bool :=
  match s.top.pkgid with | some p => p.toNat == pkg | none => false

/-- A grant in force for a partition of a package (R389). -/
def Grant.names (g : Grant) (pkg part : Nat) : Bool :=
  g.q0.getLsbD 63 && g.q0.toNat % 2 ^ 18 == pkg && g.q0.toNat / 2 ^ 18 % 32 == part

/-- R389: a grant in force for a peer's partition that covers an access and allows its kind. -/
def Grant.admits (g : Grant) (pkg part off n : Nat) (acc : Acc) : Bool :=
  g.names pkg part &&
  decide (g.base ≤ off) && decide (off + n ≤ g.base + g.len) &&
  (match acc with
    | .atomic => g.q0.getLsbD 62
    | .store | .engineWrite | .hostWrite => g.q0.getLsbD 61
    | _ => g.q0.getLsbD 60)

/-- The target's log entry of an access that no context of it made (R388). -/
def State.logRemote (s : State) (part : Nat) (va : DWord) (kind level ipa : Nat) (acc : Acc) : State :=
  match s.part? part with
  | some p => (if kind = 8 then s.logTag p ipa else s).logViolation part
      ⟨va, BitVec.ofNat 64 ipa, true, 0, BitVec.ofNat 16 (kind * 4096 + acc.code * 256 + level), p.hbeat⟩
  | none => s

/-- R389: a remote access of a partition of package pkg reaches partition p: the address it reaches, the page to be resolved first
(R386), or the refusal, which the target logs with HOST set. -/
def State.grantFor (s : State) (p : Part) (pkg part : Nat) (va : DWord) (off n : Nat) (acc : Acc) : State × Tgt :=
  let refuse (s : State) (k l i : Nat) : State × Tgt := (s.logRemote p.n va k l i acc, .viol k l i)
  if p.closing || !(p.grants.any fun g => g.admits pkg part off n acc) then refuse s 9 0 0
  else match s.translate2 p off acc with
    | (s, .ok pa true) =>
      if acc.needsW && (s.touchesObject 2 pa n || s.touchesObject 3 pa n) then refuse s 9 0 off else (s, .own pa)
    | (s, .ok _ false) => refuse s 9 0 off
    | (s, .viol k l i) => refuse s k l i
    | (s, .resolvable e) => (s, .resolvable e)

/-- Links and ports of a partition (R17). -/
def State.hasLink (s : State) (part : Nat) : Bool := s.top.links.any fun l => l.2 == part
def State.hasPort (s : State) (part : Nat) : Bool := s.top.ports.any fun l => l.2 == part

/-- A line of the borrow cache that holds n bytes at an address (R353). Its tag stands, as that of every line that something has
written; a read of it that fails the check is HBM_READ_FAILURE of that access (R340). DESIGN CHOICE (log 2). -/
def State.borrowed (s : State) (part : Nat) (va : DWord) (n : Nat) : Option (List Byte) :=
  match s.borrow.find? fun b => b.part == part && b.line == va.toNat / 4096 && decide (va.toNat % 4096 + n ≤ 4096) with
  | some b => some ((b.bytes.drop (va.toNat % 4096)).take n)
  | none => none

/-- R326: an access of a context at a Galord-form address. A plain read of a borrowed line needs no route (R353); any other
access of a peer needs a link of the partition (R17, R387). DESIGN CHOICE (log 10). -/
def State.galord (s : State) (ctx : Nat) (va : DWord) (acc : Acc) (n : Nat) : State × Tgt :=
  match s.top.pkgid, s.partOf ctx with
  | some pk, some p =>
    if galordPkg va ≠ pk.toNat then
      (if s.hasLink p.n || (acc == .load && (s.borrowed p.n va n).isSome) then (s, .peer) else (s, .viol 12 0 0))
    else match s.parts.find? fun t => t.grants.any fun g => g.admits pk.toNat p.n (galordOff va) n acc with
      -- no partition admits it: the one that names the source in a grant, if one does, is the target that logs it
      | none => match s.parts.find? fun t => t.grants.any fun g => g.names pk.toNat p.n with
        | some t => (s.logRemote t.n va 9 0 0 acc, .viol 9 0 0)
        | none => (s, .viol 9 0 0)
      | some t => match s.grantFor t pk.toNat p.n va (galordOff va) n acc with
        | (s, .viol ..) => (s, .viol 9 0 0)
        | r => r
  | _, _ => (s, .viol 12 0 0)

/-- [a, a + n) in the pieces that 4 KiB pages cut it into: offset and length of each. -/
def pagePieces (a n : Nat) : List (Nat × Nat) :=
  if n = 0 then []
  else (List.range ((a + n - 1) / 4096 - a / 4096 + 1)).map fun k =>
    let lo := max a ((a / 4096 + k) * 4096)
    (lo - a, min (a + n) ((a / 4096 + k + 1) * 4096) - lo)

/-- What an access that comes from outside finds, page by page: offset, length and physical address of each piece; a refusal, which
is logged; or an address whose page is to be resolved first (R386). -/
inductive Span where
  | ok (ps : List (Nat × Nat × Nat))
  | refused
  | held (va : DWord) (entry : EntryAt)
  deriving DecidableEq, Repr

/-- A remote access of n bytes at an offset, page by page (R326). -/
def State.grantSpan (s : State) (p : Part) (pkg part : Nat) (va : DWord) (off : Nat) (acc : Acc) :
    List (Nat × Nat) → State × Span
  | [] => (s, .ok [])
  | q :: qs => match s.grantFor p pkg part (va + BitVec.ofNat 64 q.1) (off + q.1) q.2 acc with
    | (s, .own pa) => match s.grantSpan p pkg part va off acc qs with
      | (s, .ok l) => (s, .ok ((q.1, q.2, pa) :: l))
      | r => r
    | (s, .resolvable e) => (s, .held (va + BitVec.ofNat 64 q.1) e)
    | (s, _) => (s, .refused)

/-- Read n bytes at a Galord-form address of this module, byte by byte (R326). -/
def State.ownRead (s : State) (ctx : Nat) (va : DWord) : Nat → MemRes (List Byte)
  | 0 => .ok s []
  | n + 1 => match s.galord ctx va .engineRead 1 with
    | (s, .own pa) => match s.homeByte pa with
      | none => .viol s va.toNat 8 0 0
      | some b => match s.ownRead ctx (va + 1) n with
        | .ok s bs => .ok s (b :: bs)
        | r => r
    | (s, .viol k l i) => .viol s va.toNat k l i
    | (s, .resolvable e) => .fault s va.toNat e
    | (s, _) => .viol s va.toNat 9 0 0

/-- Write bytes at a Galord-form address of this module (R326, R332). -/
def State.ownWrite (s : State) (ctx : Nat) (va : DWord) : List Byte → MemRes Unit
  | [] => .ok s ()
  | b :: bs => match s.galord ctx va .engineWrite 1 with
    | (s, .own pa) => (s.homeWrite pa [b]).ownWrite ctx (va + 1) bs
    | (s, .viol k l i) => .viol s va.toNat k l i
    | (s, .resolvable e) => .fault s va.toNat e
    | (s, _) => .viol s va.toNat 9 0 0

/-- The context for which a group's waves act: a service group's, that of the record it serves (R374). -/
def Group.servedCtx (g : Group) : Nat := match g.serves with | some x => x.2 | none => g.ctx
/-- The partition for which a service group acts (R374). -/
def State.servedPart (s : State) (g : Group) : Option Part := match g.serves with | some x => s.part? x.1 | none => s.partOf g.ctx
/-- A service group and the partition for which it acts; none for a user's group. -/
def State.actsFor (s : State) (g : Group) : Option (Option Part) := if g.kernel then some (s.servedPart g) else none

/-- Translation of an access of a group's waves: a service group's goes through stage 2 alone (R376). -/
def State.translateFor (s : State) (service : Option (Option Part)) (core ctx va : Nat) (acc : Acc) : State × Xl :=
  match service with
  | some (some p) => s.translate2 p va acc
  | some none => (s, .viol 1 0 0)
  | none => s.translate core ctx va acc

/-- Where an access of a context's wave on a core reaches. -/
def State.reach (s : State) (service : Option (Option Part)) (core ctx : Nat) (va : DWord) (acc : Acc) (n : Nat) : State × Tgt :=
  if isGalord va then s.galord ctx va acc n
  else if !canonical va then (s, .viol 0 0 0)
  else match s.translateFor service core ctx va.toNat acc with
    | (s, .ok pa _) => (s, .mem pa)
    | (s, .viol k l ipa) => (s, .viol k l ipa)
    | (s, .resolvable e) => (s, .resolvable e)

/-- Where an access of the issuing fragment reaches. -/
def State.locate (s : State) (i : Iss) (va : DWord) (acc : Acc) (n : Nat) : State × Tgt :=
  s.reach (s.actsFor i.grp) i.grp.core i.grp.servedCtx va acc n

/-- Lines a partition's borrow cache has room for (R352). -/
def Part.borrowLines (p : Part) : Nat := p.borrowcfg.toNat % 32 * 2 ^ 18

/-- R331, R353: a plain read of a peer's memory. A borrowed line answers; else the peer does, and a line that its answer
marks IMMUTABLE fills the borrow cache. The peer's bytes and its mark are its own. DESIGN CHOICE (log 10). -/
def State.remoteRead (s : State) (part : Nat) (va : DWord) (n : Nat) (fill : Bool) : State × List Byte :=
  match s.borrowed part va n with
  | some bs => (s, bs)
  | none =>
    let id := s.seq
    let s := s.fresh
    let room := match s.part? part with | some p => p.borrowLines | none => 0
    let off := va.toNat % 4096
    if fill && room != 0 && Config.choice id % 2 = 1 && decide (off + n ≤ 4096) then
      let line := (List.range 4096).map (Config.peerByte id)
      let others := s.borrow.filter fun b => b.part != part
      let mine := s.borrow.filter fun b => b.part == part
      ({ s with borrow := others ++ mine.drop (mine.length + 1 - room) ++ [⟨part, va.toNat / 4096, line⟩] },
       (line.drop off).take n)
    else (s, (List.range n).map (Config.peerByte id))

/-- The answer of a remote load or atomic is an input of a DET context (R336, R431): each 8 bytes are one entry. -/
def State.detReply (s : State) (g w lane : Nat) : List Byte → State × List Byte
  | bs =>
    match s.group? g with
    | none => (s, bs)
    | some gr =>
      let r1 := s.detInput gr.launch 4 (detWhere gr w lane) (BitVec.ofNat 64 (leNat (bs.take 8))) []
      let b1 := leBytes (min 8 bs.length) r1.2.1.toNat
      if bs.length ≤ 8 then (r1.1, b1)
      else
        let r2 := r1.1.detInput gr.launch 4 (detWhere gr w lane) (BitVec.ofNat 64 (leNat (bs.drop 8))) []
        (r2.1, b1 ++ leBytes (bs.length - 8) r2.2.1.toNat)

/-! ## Landing -/

/-- ACCESS_VIOLATION of an access that an agent makes for a context, logged (R15, R387). -/
def State.agentViolate (s : State) (ctx : Nat) (launch : Option Nat) (engine unit : Nat) (va : DWord) (kind level ipa : Nat)
    (acc : Acc) : State :=
  let lg := s.logAccess ctx va kind level ipa acc.code
  lg.1.raiseStop ctx launch { cause := 0x20, engine := engine, unit := unit, addr := va, detail := lg.2 }

/-- An integrity failure that a home slice finds for a context's access (R15, R411): the record is the home's, and DETAIL its
physical address. DEDUCED (log 51). -/
def State.homeViolate (s : State) (ctx : Nat) (launch : Option Nat) (va : DWord) (pa : Nat) (acc : Acc) (group : Nat := 0xFFFF) : State :=
  (s.logAccess ctx va 8 0 0 acc.code).1.raiseStop ctx launch
    { cause := 0x20, engine := 14, unit := wedgeOf (s.homeCore ctx pa), addr := va, detail := BitVec.ofNat 64 pa, group := group }

/-- R140, R424: what lands in a wave while it is out is written into its saved image. -/
def State.resave (s : State) (g w : Nat) : State :=
  match s.group? g, s.wave? g w with
  | some gr, some v => match gr.resident || gr.freed, gr.slot, s.launch? gr.launch with
    | false, some n, some l =>
      let core := s.ctlCore gr.ctx
      let at_ := (l.slotAt n).toNat
      let r := match s.ctxWrite core gr.ctx (at_ + waveAreaAt w) (s.waveChunk v) with
        | .ok s _ => s.ctxWrite core gr.ctx (at_ + waveRegsAt v) v.regChunk
        | r => r
      (match r with
      | .ok s _ => s
      | .viol s va k lv ipa => s.agentViolate gr.ctx (some l.id) 16 0xFFFF (BitVec.ofInt 64 va) k lv ipa .engineWrite
      | .fault s va e => s.agentViolate gr.ctx (some l.id) 16 0xFFFF (BitVec.ofInt 64 va) 10 e.level e.ipa .engineWrite)
    | _, _, _ => s
  | _, _ => s

/-- Sign or zero extension of loaded bytes to w bits. -/
def extend (signed : Bool) (w : Nat) (bs : List Byte) : Nat :=
  if signed then ofIntBits w (toIntBits (8 * bs.length) (leNat bs)) else leNat bs

/-- Write a lane's result into its register or registers: bits, tag and pending mask (R130, R137), in the saved image too while
the wave is out (R140). -/
def State.landLane (s : State) (r : Req) (lane : Nat) (vals : List Nat) (tags : List (BitVec 4)) : State :=
  let s := s.updWave r.g r.w fun v =>
    if r.isS then v.setS r.dst (BitVec.ofNat 64 (vals.getD 0 0)) (tags.getD 0 0)
    else (List.range r.span).foldl (fun v k =>
      v.landV (r.dst + k) lane (tags.getD k 0) (BitVec.ofNat 32 (vals.getD k 0)) r.who) v
  let left := r.lanes &&& ~~~BitVec.ofNat 32 (2 ^ lane)
  { s.resave r.g r.w with
    reqs := if left = 0 then s.reqs.filter fun x => x.id != r.id
            else s.reqs.map fun x => if x.id == r.id then { x with lanes := left } else x }

/-- The register values of a lane whose bytes have arrived, with the tags that R274 and R275 give them; the tag PLW of R124 is in
log 82. DESIGN CHOICE (log 82). -/
def Req.values (r : Req) (bs : List Byte) : List Nat × List (BitVec 4) :=
  match r.kind with
  | .shaped f _ =>
    let d := deliver f (leNat bs)
    if f = 3 then ([leNat bs % 2 ^ 32, leNat bs / 2 ^ 32], [4, 3]) else ([d.1], [d.2])
  | .load _ sg _ | .peer _ sg _ _ =>
    if r.isS then ([extend sg 64 bs], [0])
    else if r.span = 1 then ([extend sg 32 bs], [0])
    else ((List.range r.span).map fun k => leNat ((bs.drop (4 * k)).take 4), List.replicate r.span 0)
  | .routine .. => ([leNat (bs.take 4), leNat (bs.drop 4)], [0, 1])
  | _ => ([leNat bs], [r.tag])

/-- The lane's bytes go to its register. A request that returns nothing only ends. -/
def State.deliverLane (s : State) (r : Req) (lane : Nat) (bs : List Byte) : State :=
  match r.kind with
  | .atomic _ _ _ _ false =>
    let left := r.lanes &&& ~~~BitVec.ofNat 32 (2 ^ lane)
    { s with
      reqs := if left = 0 then s.reqs.filter fun x => x.id != r.id
              else s.reqs.map fun x => if x.id == r.id then { x with lanes := left } else x }
  | _ => s.landLane r lane (r.values bs).1 (r.values bs).2

/-- Note the bytes that a lane's access has read. -/
def State.capture (s : State) (id lane : Nat) (bs : List Byte) : State :=
  s.updReq id fun r => { r with captured := r.captured.set lane (some bs) }

/-- R245 after the read of a variable at its home: surrender of the last releaser when it is another core, else the
invalidation, and the result lands. -/
def State.acquireLane (s : State) (r : Req) (lane word : Nat) (rcd : Option SyncRec) (bs : List Byte) : State :=
  match rcd with
  | some x =>
    if x.core = r.core then (s.invalidate r.core).deliverLane r lane bs
    else
      let s := s.capture r.id lane bs
      let id := s.seq
      let su : Surr := ⟨id, x.core, x.ctx, some word, some x, some (r.id, lane), false⟩
      ({ s.fresh with surrs := s.surrs ++ [su] } : State).push .surrender { a := id }
  | none => (s.invalidate r.core).deliverLane r lane bs

/-- SURRENDER (R245): the dirty set goes home. -/
def State.surrenderNow (s : State) (id : Nat) : State :=
  match s.surrs.find? fun x => x.id == id && !x.done with
  | none => s
  | some x =>
    let s := s.writeBack x.core x.ctx fun _ => true
    ({ s with surrs := s.surrs.map fun y => if y.id == id then { y with done := true } else y } : State).push
      .surrenderComplete { a := id }

/-- SURRENDER_COMPLETE (R245): the record clears if it still is the one read; the acquire ends. -/
def State.surrenderDone (s : State) (id : Nat) : State :=
  match s.surrs.find? fun x => x.id == id && x.done with
  | none => s
  | some x =>
    let s := { s with
      surrs := s.surrs.filter fun y => y.id != id
      dir := s.dir.filter fun r => some r != x.rcd }
    match x.req with
    | none => s
    | some (rid, lane) => match s.req? rid with
      | none => s
      | some r => (s.invalidate r.core).deliverLane r lane ((r.captured.getD lane none).getD [])

/-- A core's synchronous acquire whose surrender, if one is due, completes within the step (R245): words whose fragment
waits at the word itself. -/
def State.acquireNow (s : State) (core word : Nat) : State :=
  match s.recordOf word with
  | some x =>
    if x.core = core then s.invalidate core
    else
      let s := s.writeBack x.core x.ctx fun _ => true
      ({ s with dir := s.dir.filter fun r => r != x } : State).invalidate core
  | none => s.invalidate core

/-- A peer's acquire of a variable: its last releaser, a core of this module, is surrendered; no L1 is invalidated (R333). -/
def State.peerAcquire (s : State) (word : Nat) : State :=
  match s.recordOf word with
  | some x =>
    let s := s.writeBack x.core x.ctx fun _ => true
    { s with dir := s.dir.filter fun r => r != x }
  | none => s

/-! ## Barrier objects -/

/-- Where a barrier lies: a group's scratchpad, this module's memory, or another module (R286). DESIGN CHOICE (log 10). -/
inductive Bar where
  | pad (g off : Nat)
  | glob (pa : Nat)
  | remote (va : DWord)
  deriving DecidableEq, Repr

/-- The key under which waits and notifications name a barrier. -/
def Bar.key : Bar → Option Nat × Nat
  | .pad g off => (some g, off)
  | .glob pa => (none, pa)
  | .remote va => (none, va.toNat)

/-- The four words of a barrier object (R284). -/
structure BarWords where
  phase : BitVec 32
  expected : BitVec 16
  remaining : BitVec 16
  bytes : BitVec 32
  err : Bool
  watchers : BitVec 16
  deriving DecidableEq, Repr

def BarWords.ofNat (x : Nat) : BarWords :=
  ⟨BitVec.ofNat 32 x, BitVec.ofNat 16 (x / 2 ^ 48), BitVec.ofNat 16 (x / 2 ^ 32), BitVec.ofNat 32 (x / 2 ^ 64),
   ebit x 127, BitVec.ofNat 16 (x / 2 ^ 96)⟩

def BarWords.toBytes (b : BarWords) : List Byte :=
  leBytes 4 b.phase.toNat ++ leBytes 2 b.remaining.toNat ++ leBytes 2 b.expected.toNat ++ leBytes 4 b.bytes.toNat ++
  leBytes 4 ((if b.err then 2 ^ 31 else 0) + b.watchers.toNat)

/-- R285: the phase completes when nothing is due. -/
def BarWords.settle (b : BarWords) : BarWords :=
  if b.remaining = 0 ∧ b.bytes = 0 then { b with phase := b.phase + 1, remaining := b.expected } else b

/-- R285: an arrival of n, marked with an error or not. -/
def BarWords.arrive (b : BarWords) (n : Nat) (error : Bool) : BarWords :=
  let b := { b with err := b.err || error }
  if b.remaining = 0 then { b with err := true }
  else if b.remaining.toNat < n then ({ b with remaining := 0, err := true } : BarWords).settle
  else ({ b with remaining := b.remaining - BitVec.ofNat 16 n } : BarWords).settle

/-- R285: add a signed amount to BYTES. -/
def BarWords.addBytes (b : BarWords) (n : Int) : BarWords :=
  let t := b.bytes.toInt + n
  if t < -(2 ^ 31 : Int) ∨ (2 ^ 31 : Int) ≤ t then { b with err := true }
  else ({ b with bytes := BitVec.ofInt 32 t } : BarWords).settle

/-- R289. -/
def BarWords.init (b : BarWords) (phase : BitVec 32) (expected : BitVec 16) : BarWords :=
  { b with phase := phase, expected := expected, remaining := expected, bytes := 0, err := false }

/-- The barrier's words as they stand at it; none when their line fails its check. -/
def State.barRead (s : State) : Bar → Option BarWords
  | .pad g off => (s.group? g).map fun gr => BarWords.ofNat (leNat (gr.padBytes off 16))
  | .glob pa => (s.homeBytes pa 16).map fun bs => BarWords.ofNat (leNat bs)
  | .remote va => some (BarWords.ofNat (leNat ((List.range 16).map fun k => Config.peerByte va.toNat (s.seq * 16 + k))))

/-- The fragment waits at a barrier for a phase other than the one given, and no notice is on its way to it (R292). -/
def Frag.awaitsAt (f : Frag) (pad : Option Nat) (addr : Nat) (phase : BitVec 32) : Bool :=
  !f.told && match f.wait with
    | some (.barrier q x p) => q == pad && x == addr && p != phase
    | _ => false

/-- The fragments that return when a barrier takes a phase, of waves that are not out: group, wave and fragment of each. -/
def State.barWaiters (s : State) (pad : Option Nat) (addr : Nat) (phase : BitVec 32) : List Nat :=
  (s.waves.filter fun v => (s.group? v.g).any Group.resident).flatMap fun v =>
    (v.frags.filter fun f => f.awaitsAt pad addr phase).flatMap fun f => [v.g, v.w, f.id]

/-- One group of three in a list of numbers is (g, w, f). -/
def hasTriple (g w f : Nat) : List Nat → Bool
  | a :: b :: c :: rest => (a == g && b == w && c == f) || hasTriple g w f rest
  | _ => false

/-- The fragments that a notice names: one notice ends one wait. -/
def Wave.tell (v : Wave) (ids : List Nat) : Wave :=
  { v with frags := v.frags.map fun f => if hasTriple v.g v.w f.id ids then { f with told := true } else f }

/-- The notice of a barrier's phase goes to some of those that wait for another (R292). -/
def State.tellIds (s : State) (pad : Option Nat) (addr : Nat) (phase : BitVec 32) (ids : List Nat) : State :=
  ({ s with waves := s.waves.map fun v => v.tell ids } : State).push .barrierNotify
    { a := (match pad with | some g => g + 1 | none => 0), b := addr, c := phase.toNat, ids := ids }

/-- A barrier takes a phase: all that wait for another are notified (R292). -/
def State.tell (s : State) (pad : Option Nat) (addr : Nat) (phase : BitVec 32) : State :=
  s.tellIds pad addr phase (s.barWaiters pad addr phase)

/-- R71: the scheduler watches the barriers that launches depend on: a condition that a new phase meets is met for good, and a
launch with none left becomes eligible. -/
def State.noteDeps (s : State) (pa : Nat) (phase : BitVec 32) : State :=
  if s.launches.any fun l => !l.deps.isEmpty then
    let here (l : Launch) (va : Nat) : Bool := match (s.translate (s.ctlCore l.ctx) l.ctx va .load).2 with
      | .ok p _ => p == pa
      | _ => false
    let ls := s.launches.map fun l => { l with deps := l.deps.filter fun d => !(d.2 != phase && here l d.1) }
    ({ s with launches := ls } : State).pushNew ((ls.filter fun l => !l.eligible && !l.ended && l.deps.isEmpty).map fun l =>
      ⟨.launchEligible, { a := l.id }⟩)
  else s

/-- A home tells each peer that waits at a barrier of its new phase (R286, R292). -/
def State.tellPeers (s : State) (b : Bar) (phase : BitVec 32) : State :=
  match b with
  | .glob pa => (s.peerWatches.filter fun x => x.1 == pa).foldl (fun s x =>
      s.emit (.remote x.2.1 2 (leBytes 8 x.2.2 ++ leBytes 4 phase.toNat))) s
  | _ => s

/-- Write the barrier's words in place. A new phase, and the phase that BINIT writes, is notified to those that wait for another at
that moment (R289, R292), and to the scheduler (R71). -/
def State.barWrite (s : State) (b : Bar) (old new : BarWords) (init : Bool) : State :=
  let s := match b with
    | .pad g off => s.padWrite g off new.toBytes
    | .glob pa => s.homeWrite pa new.toBytes
    | .remote _ => s
  if old.phase = new.phase && !init then s
  else
    let s := (s.tellPeers b new.phase).tell b.key.1 b.key.2 new.phase
    match b with
    | .glob pa => s.noteDeps pa new.phase
    | _ => s

/-- What a request to a remote barrier says: 0 arrive (with bit 16 for an error), 1 count, 2 init, 3 watch, 4 read; and 8 bytes. -/
def barPacket (op x : Nat) : List Byte := leBytes 1 op ++ leBytes 8 x

/-- One indivisible update of a barrier (R287). An update of a remote barrier is sent to its home (R286). -/
def State.barUpdate (s : State) (b : Bar) (f : BarWords → BarWords) (what : List Byte) (init : Bool := false) : State :=
  match b with
  | .remote va => (s.emit (.galord va 5 what)).fresh
  | _ => match s.barRead b with
    | some w => s.barWrite b w (f w) init
    | none => s

def State.barArrive (s : State) (b : Bar) (n : Nat) (error : Bool) : State :=
  s.barUpdate b (fun w => w.arrive n error) (barPacket 0 (n + (if error then 2 ^ 16 else 0)))
def State.barCount (s : State) (b : Bar) (n : Int) : State :=
  s.barUpdate b (fun w => w.addBytes n) (barPacket 1 (ofIntBits 64 n))

/-- A global address under which waits and watches name a barrier. -/
def Bar.ofAddr (a : Nat) : Bar := if a < 2 ^ 57 then .glob a else .remote (BitVec.ofNat 64 a)

/-- The watch count of a global barrier changes at its home, which for a remote barrier is the peer's (R286, R292, R293). -/
def State.barWatch (s : State) (b : Bar) (more : Bool) : State :=
  match b with
  | .glob pa => match s.barRead b with
    | some w =>
      let n : BitVec 16 := if more then w.watchers + 1 else w.watchers - 1
      s.homeWrite pa (BarWords.toBytes { w with watchers := n })
    | none => s
  | .remote va => s.emit (.galord va 5 (barPacket 3 (if more then 1 else 0)))
  | .pad .. => s

/-- An update that an agent of a context has sent to a peer's barrier is on its way until its acknowledgement returns (R328). -/
def State.sent (s : State) (ctx : Nat) (launch : Option Nat) (b : Bar) : State :=
  match b with
  | .remote va => ({ s.fresh with sends := s.sends ++ [{ id := s.seq, ctx := ctx, launch := launch, va := va }] } : State).push .registration
      { b := va.toNat, c := s.seq }
  | _ => s

/-- The barrier's bytes belong to an IMMUTABLE object of the context: no write of them is allowed (R256, R261). -/
def State.barImmutable (s : State) (ctx : Nat) (b : Bar) : Bool :=
  match b with
  | .glob pa => s.touchesObjectOf (some ctx) 3 pa 16
  | _ => false

/-- An arrival that an agent makes for a context at a barrier whose line may fail its check (R15, R387). -/
def State.agentArrive (s : State) (ctx : Nat) (launch : Option Nat) (engine unit : Nat) (va : DWord) (b : Bar) (n : Nat)
    (error : Bool) : State :=
  if (s.barRead b).isNone then s.agentViolate ctx launch engine unit va 8 0 0 .engineWrite
  else if s.barImmutable ctx b then s.agentViolate ctx launch engine unit va 7 0 0 .engineWrite
  else (s.barArrive b n error).sent ctx launch b

/-- The contexts of a partition have had a network arrival (R88). DEDUCED (log 43). -/
def State.landed (s : State) (part : Nat) : State :=
  { s with ctxs := s.ctxs.map fun c => if s.inPart part c.id then { c with acts := c.acts + 1 } else c }

/-- Galord-form address of an offset in this module: WHERE of what lands there from outside (R431). -/
def State.ownVa (s : State) (off : Nat) : DWord :=
  BitVec.ofNat 64 (2 ^ 63 + (match s.top.pkgid with | some k => k.toNat | none => 0) * 2 ^ 45 + off % 2 ^ 45)

/-- An arrival from outside the partition's contexts, at an address of its second stage; a line that fails its check is logged
(R15, R388). -/
def State.partArrive (s : State) (part ipa pa n : Nat) (error : Bool) : State :=
  if (s.barRead (.glob pa)).isNone then
    s.logRemote part (BitVec.ofNat 64 ipa) 8 0 ipa .engineWrite
  else
    let s := (s.barArrive (.glob pa) n error).landed part
    match s.homeBytes pa 16 with
    | some bs => s.detNote part 2 (s.ownVa ipa) 0 bs
    | none => s

/-- Bytes that a recording supplies may move a barrier's phase: those that wait for another phase return, and the scheduler sees
it (R432). -/
def State.wakeSpan (s : State) (pa n : Nat) : State :=
  (List.range ((n + 15) / 16)).foldl (fun s k =>
    let b := pa / 16 * 16 + 16 * k
    match s.barRead (.glob b) with
    | none => s
    | some w =>
      let s := s.noteDeps b w.phase
      if (s.barWaiters none b w.phase).isEmpty then s else s.tell none b w.phase) s

/-- What a barrier address names for a context and a group (R286): an alignment or form failure, a barrier, a violation or
a resolvable fault. -/
inductive BarAt where
  | bad
  | ok (s : State) (b : Bar)
  | viol (s : State) (kind level ipa : Nat)
  | fault (s : State) (entry : EntryAt)

/-- Window form of KIND 0 for the group's own scratchpad, or KIND 2 for a peer when `peer`. -/
def State.barAt (s : State) (core ctx : Nat) (gr : Group) (peer : Bool) (va : DWord) : BarAt :=
  if va.toNat % 16 ≠ 0 then .bad
  else if va.toNat / 2 ^ 32 = 2 ^ 30 then
    let w := va.toNat % 2 ^ 32
    let off := w % 2 ^ 20
    let rank := w / 2 ^ 24 % 16
    if w / 2 ^ 20 % 16 ≠ 0 then .bad
    else if w / 2 ^ 28 = 0 && rank = 0 && !peer then (if off + 16 ≤ gr.padSize then .ok s (.pad gr.g off) else .bad)
    else if w / 2 ^ 28 = 2 && peer then
      match s.peer? gr rank with
      | some p => if off + 16 ≤ p.padSize then .ok s (.pad p.g off) else .bad
      | none => .bad
    else .bad
  else if peer then .bad
  else if isGalord va then
    match s.galord ctx va .atomic 16 with
    | (s, .own pa) => .ok s (.glob pa)
    | (s, .peer) => .ok s (.remote va)
    | (s, .viol k l i) => .viol s k l i
    | (s, .resolvable e) => .fault s e
    | (s, .mem pa) => .ok s (.glob pa)
  else if !canonical va then .bad
  else match s.translate core ctx va.toNat .atomic with
    | (s, .ok pa _) => .ok s (.glob pa)
    | (s, .viol k l i) => .viol s k l i
    | (s, .resolvable e) => .fault s e

/-- A form that R286 accepts, whatever it reaches. -/
def Group.barForm (gr : Group) (va : DWord) : Bool :=
  va.toNat % 16 = 0 &&
  (if va.toNat / 2 ^ 32 = 2 ^ 30 then decide (va.toNat % 2 ^ 32 + 16 ≤ gr.padSize) && decide (va.toNat % 2 ^ 32 < 2 ^ 20)
   else isGalord va || canonical va)

end Sys2Proof.Machine
end

