-- ==== Sys2Proof/Machine/Engines.lean ====
section
/-! DEFINITION. What every engine command shares: the locks it registers and waits for (R256 to R259), its place in its
engine's order, its faults and stops (R304, R387, R405), and its completion at a barrier (R254, R303). -/

namespace Sys2Proof.Machine

open Host

/-! ## Locks -/

/-- An extent that a command reads or writes: global virtual addresses, or offsets of a group's scratchpad. -/
structure Ext where
  pad : Option Nat
  lo : Nat
  hi : Nat
  deriving DecidableEq, Repr

def Ext.some? (e : Ext) : Bool := decide (e.lo < e.hi)

/-- An entry of one kind overlaps the extent. -/
def Ext.clash (e : Ext) (ctx kind : Nat) (r : RangeEntry) : Bool :=
  r.ctx == ctx && r.kind == kind && r.pad == e.pad && decide (r.lo < e.hi) && decide (e.lo < r.hi) && e.some? && decide (r.lo < r.hi)

/-- R259: a destination overlaps a live LOCK-SRC or LOCK-DST entry, or a source a live LOCK-DST entry; or the tables of
the partition's wedges have no free entry (R256). -/
def State.lockBusy (s : State) (part ctx : Nat) (srcs dsts : List Ext) : Bool :=
  (s.ranges.any fun r => (dsts.any fun e => e.clash ctx 0 r || e.clash ctx 1 r) || srcs.any fun e => e.clash ctx 1 r) ||
  decide (512 < (s.ranges.filter fun r => r.part == part).length + ((srcs ++ dsts).filter Ext.some?).length)

/-- R257: write a command's entries. -/
def State.lockFor (s : State) (part ctx engine core owner : Nat) (srcs dsts : List Ext) : State :=
  let mk (kind : Nat) (e : Ext) : RangeEntry := ⟨owner, ctx, part, kind, e.pad, e.lo, e.hi, engine, core, owner, []⟩
  { s with ranges := s.ranges ++ (srcs.filter Ext.some?).map (mk 0) ++ (dsts.filter Ext.some?).map (mk 1) }

/-- Fragments that wait at issue for an engine try again (ENGINE_COMMAND_ISSUE_WAIT_END). -/
def State.wakeEngine (s : State) : State :=
  let es := s.waves.flatMap fun v => (v.frags.filter fun f => f.wait == some .engine).map fun f =>
    (⟨.engineCommandIssueWaitEnd, { a := v.g, b := v.w, c := f.id }⟩ : Event)
  s.pushNew es

/-- The command's entries are freed. -/
def State.unlock (s : State) (owner : Nat) : State :=
  ({ s with ranges := s.ranges.filter fun r => !(r.owner == owner && (r.kind == 0 || r.kind == 1)) } : State).wakeEngine

/-- ENGINE_COMMAND_ISSUE_WAIT_END (R259, R297, R303). It brings the wave and the fragment. -/
def execEngineCommandIssueWaitEnd (s : State) : Res :=
  .next (s.updWave s.ev.a s.ev.b fun v => v.updFrag s.ev.c fun f =>
    if f.wait = some .engine then { f with wait := none } else f)

/-! ## Order -/

/-- The event that carries a command on. -/
def Cmd.kick (c : Cmd) : Event :=
  if c.engine = 0 then ⟨.copyUnitHeld, { a := c.id }⟩
  else if c.engine = 1 then ⟨.arrayCommandStart, { a := c.unit }⟩
  else if c.engine = 2 then ⟨.feederPush, { a := c.g }⟩
  else if c.engine = 3 then ⟨.streamBlockDelivered, { a := c.g, b := c.op }⟩
  else if c.engine = 4 then ⟨.splatCommandRun, { a := c.unit }⟩
  else if c.engine = 5 then ⟨.pressCollectiveStart, { a := c.unit }⟩
  else if c.len ≤ c.done then ⟨.networkCommandComplete, { a := c.id }⟩
  else ⟨.networkUnitAck, { a := c.id }⟩

/-- Commands of one engine of a core. -/
def State.queueOf (s : State) (engine unit : Nat) : List Cmd := s.cmds.filter fun c => c.engine == engine && c.unit == unit

/-- The command is the earliest of its group in its engine (R303): the groups of a core interleave. -/
def State.firstOfGroup (s : State) (c : Cmd) : Bool :=
  match s.cmds.find? fun x => x.engine == c.engine && x.unit == c.unit && x.g == c.g && x.len != 0 with
  | some x => x.id == c.id
  | none => true

/-- The command may work: nothing has halted it or stopped its context (R405, R422). A press outlives its grid (R439), and
with it perhaps the last launch of its context. -/
def State.cmdGoes (s : State) (c : Cmd) : Bool :=
  !c.halted && (match s.ctx? c.ctx with | some x => x.phase == .running || x.phase == .idle | none => false)

/-- An engine has completed a command of the context, or an arrival for it has landed (R88). DEDUCED (log 43). -/
def State.acted (s : State) (ctx : Nat) : State := s.updCtx ctx fun c => { c with acts := c.acts + 1 }

def State.dropCmd (s : State) (id : Nat) : State := { s with cmds := s.cmds.filter fun c => c.id != id }

/-! ## Stops and faults -/

/-- DONE of R411. For the array, chunks done stand above the rows of the current chunk; for the feeder, the vectors that
still stand in the queue are not popped. -/
def State.doneWord (s : State) (c : Cmd) : Nat :=
  if c.engine = 1 then c.pos * 2 ^ 32 + c.done
  else if c.engine = 2 then
    let inQueue := match s.group? c.g with
      | some gr => (match gr.queues.find? fun x => x.q == c.op with | some x => x.vecs.length | none => 0)
      | none => 0
    min c.done (32 * ((c.done + 31) / 32 - inQueue))
  else c.done
/-- TOTAL of R411. -/
def Cmd.total (c : Cmd) : Nat := c.len

/-- What a command's token is made of: in a DET context, whose replay stops alike, the place of the command in its program (R433).
DESIGN CHOICE (log 45). -/
def State.tokenOf (s : State) (c : Cmd) : Nat :=
  if s.detCtx c.ctx then
    2 ^ 160 + (((s.group? c.g).elim 0 Group.key * 64 + c.w) * 8 + c.engine) * 2 ^ 64 + c.pc.toNat
  else c.id

/-- What the token of a core's ray unit is made of (R412). DESIGN CHOICE (log 45). -/
def rayToken (core : Nat) : Nat := 2 ^ 158 + core

/-- The record of a stopped command (R409, R411). DESIGN CHOICE (log 45). -/
def State.cmdRecord (s : State) (c : Cmd) : StopRec :=
  { cause := 0, engine := c.engine, unit := c.unit, addr := 0
    detail := if c.engine = 1 then (match s.group? c.g with | some gr => gr.mstat.setWidth 64 | none => 0) else c.detail
    group := s.saveSlot c.g
    done := BitVec.ofNat 64 (s.doneWord c), total := BitVec.ofNat 64 c.total, tok := Config.token (s.tokenOf c), pc := c.pc
    causeRec := false, resumable := true, queued := !c.started }

/-- A command raises a stop-class cause with its own record; it stands where it is until the context resumes (R405). -/
def State.cmdStop (s : State) (c : Cmd) (cause : Nat) (addr detail : DWord) : State :=
  let r := s.cmdRecord c
  let s := s.updCmd c.id fun x => { x with halted := true, started := true }
  s.raiseStop c.ctx (some c.launch) { r with cause := cause, addr := addr, detail := detail, causeRec := true, queued := false }

/-- ACCESS_VIOLATION of an engine access (R304, R387), logged. -/
def State.cmdViolate (s : State) (c : Cmd) (va : DWord) (kind level ipa : Nat) (acc : Acc) : State :=
  let lg := s.logAccess c.ctx va kind level ipa acc.code
  lg.1.cmdStop c 0x20 va lg.2

/-- A page fault that the service group is to resolve (R386). -/
def State.fileFault (s : State) (ctx : Nat) (va : DWord) (acc : Acc) (entry : EntryAt) (req : Option (Nat × Nat))
    (frag : Option (Nat × Nat × Nat)) : State × Nat :=
  let pf : PageFault := ⟨s.seq, ctx, va, acc.code, entry, req, frag, none, [], 0⟩
  (({ s.fresh with faults := s.faults ++ [pf] } : State).push .pageFaultResolution { a := s.seq }, s.seq)

/-- A command's access waits for the service group (R304). -/
def State.cmdFault (s : State) (c : Cmd) (va : DWord) (acc : Acc) (entry : EntryAt) : State :=
  let pf : PageFault := ⟨s.seq, c.ctx, va, acc.code, entry, none, none, some c.id, [], 0⟩
  ({ s.fresh with faults := s.faults ++ [pf] } : State).push .pageFaultResolution { a := s.seq }

/-- A unit that fails leaves nothing of itself written (R304). -/
def MemRes.whole {α : Type} (r : MemRes α) (s0 : State) : MemRes α :=
  match r with
  | .ok s x => .ok s x
  | .viol _ va kd l ipa => .viol s0 va kd l ipa
  | .fault _ va e => .fault s0 va e

/-- What an engine's access came to: go on, or the command's violation or fault. -/
def Cmd.access {α : Type} (c : Cmd) (acc : Acc) (r : MemRes α) (k : State → α → State) : State :=
  match r with
  | .ok s x => k s x
  | .viol s va kd l ipa => s.cmdViolate c (BitVec.ofInt 64 va) kd l ipa acc
  | .fault s va e => s.cmdFault c (BitVec.ofInt 64 va) acc e

/-! ## Completion -/

/-- The page of the command's barrier is to be resolved first: the service group has it, and `again` comes when it is done (R304,
R386); once it could not be resolved (`again` with f = 1) the update itself fails. -/
def State.barWaits (s : State) (c : Cmd) (again : Event) : Option State :=
  if c.bar = 0 ∨ s.ev.f = 1 then none
  else match s.group? c.g with
    | none => none
    | some gr => match s.barAt gr.core c.ctx gr false c.bar with
      | .fault s e =>
        if s.faults.any fun f => f.retry.contains again then some s
        else
          let pf : PageFault := ⟨s.seq, c.ctx, c.bar, Acc.engineWrite.code, e, none, none, none, [again], 0⟩
          some (({ s.fresh with faults := s.faults ++ [pf] } : State).push .pageFaultResolution { a := s.seq })
      | _ => none

/-- An update of the command's barrier (R254): an address that no longer translates stops the context. -/
def State.cmdBar (s : State) (c : Cmd) (f : BarWords → BarWords) (what : List Byte) : State :=
  if c.bar = 0 then s
  else match s.group? c.g with
    | none => s
    | some gr => match s.barAt gr.core c.ctx gr false c.bar with
      | .ok s b => if (s.barRead b).isNone then s.cmdViolate c c.bar 8 0 0 .engineWrite
        else if s.barImmutable c.ctx b then s.cmdViolate c c.bar 7 0 0 .engineWrite
        else (s.barUpdate b f what).sent c.ctx (some c.launch) b
      | .bad => s.cmdViolate c c.bar 0 0 0 .engineWrite
      | .viol s k l i => s.cmdViolate c c.bar k l i .engineWrite
      | .fault s e => s.cmdViolate c c.bar 10 e.level e.ipa .engineWrite

/-- Step 5 of R303: bytes held count against the barrier; the latest unit's wait for the next, so that the last unit's
are subtracted at completion. DEDUCED (log 39). -/
def State.cmdCount (s : State) (id n : Nat) : State :=
  match s.cmd? id with
  | none => s
  | some c =>
    let s := s.updCmd id fun c => { c with started := true, pend := if n = 0 then c.pend else n }
    if c.byteMode && n != 0 && c.pend != 0 then
      s.cmdBar c (fun w => w.addBytes (-(c.pend : Int))) (barPacket 1 (ofIntBits 64 (-(c.pend : Int)))) else s

/-- Step 6 of R303: the entries are freed first; then the last unit's bytes are subtracted, or one arrival is made. -/
def State.cmdDone (s : State) (c : Cmd) (error : Bool) : State :=
  let s := ((s.unlock c.id).dropCmd c.id).acted c.ctx
  let s := if c.byteMode then
      (if c.pend = 0 then s else s.cmdBar c (fun w => w.addBytes (-(c.pend : Int))) (barPacket 1 (ofIntBits 64 (-(c.pend : Int)))))
    else s.cmdBar c (fun w => w.arrive 1 error) (barPacket 0 (1 + (if error then 2 ^ 16 else 0)))
  -- the next command of the group
  match s.cmds.find? fun x => x.engine == c.engine && x.unit == c.unit && x.g == c.g && x.len != 0 with
  | some x => s.pushNew [x.kick]
  | none => s

/-- The record of a core's ray unit for a launch (R224, R411): its rays that have ended, its rays in flight, and their visits
queued. DEDUCED (log 34). -/
def State.rayRecord (s : State) (ctx launch core : Nat) : StopRec :=
  let rs := s.rays.filter fun x => x.ctx == ctx && x.launch == launch && x.core == core
  { cause := 0, engine := 9, unit := core, addr := 0, causeRec := false, resumable := true, tok := Config.token (rayToken core)
    detail := BitVec.ofNat 64 (s.visits.filter fun v => rs.any fun x => x.id == v.ray).length
    done := BitVec.ofNat 64 (rs.filter fun x => x.count == 0).length, total := BitVec.ofNat 64 rs.length }

/-- AGENT_STOP (R405): the agent's unfinished commands of the context halt; those that had started leave a record, as do the rays
of a ray unit, one record for each launch but the one whose rays stand in the cause record. It brings the context, the engine, the
unit, and that launch plus 1. -/
def State.agentStop (s : State) (ctx engine unit own : Nat) : State :=
  if engine = 9 then
    (((s.rays.filter fun x => x.ctx == ctx && x.core == unit && x.launch + 1 != own).map Ray.launch).eraseDups).foldl (fun s l =>
      s.fileRecord ctx (some l) (s.rayRecord ctx l unit)) s
  else
  let mine := s.cmds.filter fun c => c.ctx == ctx && c.engine == engine && c.unit == unit && !c.halted
  mine.foldl (fun s c =>
    let s := s.updCmd c.id fun x => { x with halted := true }
    if c.started then s.fileRecord ctx (some c.launch) (s.cmdRecord c) else s) s

/-- AGENT_STOP. -/
def execAgentStop (s : State) : Res := .next (s.agentStop s.ev.a s.ev.b s.ev.c s.ev.d)

end Sys2Proof.Machine
end

