-- ==== Sys2Proof/Machine/Operands.lean ====
section
/-! DEFINITION. Every operand form: the prefixes a word accepts (R31 to R34), register ranges (R27), source checks with
full/empty bits and tags (R83, R131 to R139), conversion on read (R134), immediates (R29, R31), and the two runners that
execute a lane word or a uniform word (R146) once its operation is given. -/

namespace Sys2Proof.Machine

open Host

/-! ## Prefixes and immediates -/

/-- Which prefixes a word accepts (R31 to R34): IMM, the ORD values, and for REP the fields a mask bit may step. -/
structure Accepts where
  imm : Bool := false
  ord : List Nat := []
  rep : Option (Bool × Bool × Bool) := none

def Accepts.ok (p : Accepts) (c : Cur) : Bool :=
  (c.imm.isNone || p.imm) &&
  (match c.ord with | none => true | some o => p.ord.contains o.toNat) &&
  (match c.rep with
    | none => true
    | some (_, d, a, b, _) => match p.rep with
      | none => false
      | some (pd, pa, pb) => (!d || pd) && (!a || pa) && (!b || pb))

/-- The prefix words of a unit as they were fetched (R31 to R33). -/
def Cur.immWord (c : Cur) : Word := match c.imm with | some i => 0xFE000000 ||| i.setWidth 32 | none => c.word
def Cur.ordWord (c : Cur) : Word := match c.ord with | some o => 0xFE800000 ||| (o.setWidth 32 <<< 20) | none => c.word
def Cur.repWord (c : Cur) : Word :=
  match c.rep with
  | some (n, d, a, b, st) =>
    let bitAt (x : Bool) (k : Nat) : Word := if x then (1 : Word) <<< k else 0
    0xFE400000 ||| (n.setWidth 32 <<< 18) ||| bitAt d 17 ||| bitAt a 16 ||| bitAt b 15 ||| (st.setWidth 32 <<< 12)
  | none => c.word

/-- The word that ILLEGAL_WORD reports for a unit: the first prefix that cannot modify the word it stands before (R34: that
prefix takes ILLEGAL_WORD), else the word itself. DEDUCED (log 65). -/
def Accepts.offender (p : Accepts) (c : Cur) : Word :=
  if !p.ok { c with ord := none, rep := none } then c.immWord
  else if !p.ok { c with imm := none, rep := none } then c.ordWord
  else if !p.ok { c with imm := none, ord := none } then c.repWord
  else c.word

/-- ILLEGAL_WORD of a unit whose prefixes or registers are refused (R27, R34, R39). DEDUCED (log 65). -/
def State.refuse (s : State) (p : Accepts) (i : Iss) : State := s.trap i 0x01 0 ((p.offender i.c).setWidth 64)

/-- R29 and R31: an immediate field of w bits, widened by IMM, as a signed number. -/
def immValue (c : Cur) (w : Nat) (field : Nat) : Int :=
  match c.imm with
  | none => toIntBits w field
  | some i => toIntBits (22 + w) (i.toNat * 2 ^ w + field)

def imm32 (c : Cur) (w field : Nat) : Word := BitVec.ofInt 32 (immValue c w field)
def imm64 (c : Cur) (w field : Nat) : DWord := BitVec.ofInt 64 (immValue c w field)

/-- The ordering of the word (R32): bit 0 acquire, bit 1 release. -/
def Cur.order (c : Cur) : BitVec 2 := c.ord.getD 0

/-! ## Sources -/

/-- Reader kinds (R131). -/
inductive Reader where
  | bit
  /-- 32-bit integer -/
  | int
  /-- 64-bit integer of an S register -/
  | int64
  | fp32 | fp16x2 | bf16x2
  /-- FP64 pair of V registers -/
  | pair
  /-- FP64 of an S register -/
  | fp64
  deriving DecidableEq, Repr

/-- A source field: its number in the field order a, b, c, d (R135), register, span, reader and E bit. -/
structure Src where
  field : Nat
  isS : Bool
  reg : Nat
  span : Nat := 1
  reader : Reader := .bit
  e : Bool := false
  deriving DecidableEq, Repr

/-- Tag codes. -/
def tRAW : BitVec 4 := 0
def tI32 : BitVec 4 := 1
def tFP32 : BitVec 4 := 2
def tFP64H : BitVec 4 := 3
def tFP64L : BitVec 4 := 4
def tFP16 : BitVec 4 := 5
def tBF16 : BitVec 4 := 6
def tI64 : BitVec 4 := 12
def tMIXED : BitVec 4 := 13
def tADDR : BitVec 4 := 14

/-- Outcome of R132 for a tag under a reader, at a place of the operand's span: accepted, convertible or not. -/
inductive Take where
  | accept | convert | refuse
  deriving DecidableEq, Repr

/-- Tags a 32-bit or 64-bit integer reader accepts (R132). -/
def intAccepts (t : BitVec 4) : Bool := [0, 1, 9, 10, 11, 12, 13, 14].contains t.toNat

def Reader.take (r : Reader) (place : Nat) (t : BitVec 4) : Take :=
  match r with
  | .bit => .accept
  | .int => if intAccepts t then .accept else if t = tFP32 then .convert else .refuse
  | .int64 => if intAccepts t then .accept else if t = tFP64H then .convert else .refuse
  | .fp32 => if t = tRAW ∨ t = tFP32 then .accept else if t = tI32 then .convert else .refuse
  | .fp16x2 => if t = tRAW ∨ t = tFP16 then .accept else if t = tBF16 ∨ t = 10 then .convert else .refuse
  | .bf16x2 => if t = tRAW ∨ t = tBF16 then .accept else if t = tFP16 ∨ t = 10 then .convert else .refuse
  | .pair => if t = tRAW ∨ t = (if place = 0 then tFP64L else tFP64H) then .accept
             else if t = tI64 then .convert else .refuse
  | .fp64 => if t = tRAW ∨ t = tFP64H then .accept else if t = tI64 then .convert else .refuse

/-- Tag code of the reader's format (WANT of R135). -/
def Reader.want (r : Reader) (place : Nat) : Nat :=
  match r with
  | .bit => 0
  | .int => 1
  | .int64 => 12
  | .fp32 => 2
  | .fp16x2 => 5
  | .bf16x2 => 6
  | .pair => if place = 0 then 4 else 3
  | .fp64 => 3

/-- What a check of the sources says (R40 step 4). -/
inductive Chk where
  | go
  | wait (w : Wait)
  | trap (cause : Nat) (finfo : DWord)
  deriving DecidableEq, Repr

/-- R135: FINFO of TAG_MISMATCH. -/
def tagInfo (conv : Bool) (field want found : Nat) : DWord :=
  BitVec.ofNat 64 ((if conv then 1024 else 0) + field * 256 + want * 16 + found)
/-- R138: FINFO of EMPTY_SOURCE. -/
def emptyInfo (pend : LaneMask) (field : Nat) : DWord := BitVec.ofNat 64 (pend.toNat * 2 ^ 32 + field * 256)

/-- The queue a V register of the wave is bound to as a feeder port (R205). -/
def Wave.port? (v : Wave) (n : Nat) : Option Nat := (v.ports.find? fun p => p.1 == n).map (·.2)

/-- A feeder queue's vectors. -/
def Group.queue (g : Group) (q : Nat) : List (BitVec 4 × List Word) :=
  match g.queues.find? fun x => x.q == q with | some x => x.vecs | none => []

/-- R84: no record of the queue is running or pending, and no FEED is being decided. The feeder's commands carry their
queue in `op`, a FEED being decided its queue in `x`. -/
def State.streamEnded (s : State) (g q : Nat) : Bool :=
  !(s.cmds.any fun c => c.engine == 2 && c.g == g && c.op == q) &&
  !(s.fills.any fun f => f.kind == 2 && f.g == g && f.x == BitVec.ofNat 64 q)

/-- Vectors of queue q that ports among the registers `before` take in the same unit: one port each, so a unit that reads several
ports of one queue takes its next vectors in the order of the fields. DESIGN CHOICE (log 79). -/
def Wave.takes (v : Wave) (before : List Nat) (n q : Nat) : Nat :=
  ((before.filter fun m => m != n && v.port? m == some q).eraseDups).length

/-- The vectors that port n of a unit finds: those of its queue that no earlier port of the unit takes. -/
def State.portVecs (s : State) (i : Iss) (wv : Wave) (before : List Nat) (n q : Nat) : List (BitVec 4 × List Word) :=
  (((s.group? i.c.g).getD i.grp).queue q).drop (wv.takes before n q)

/-- Full/empty check of one register (R137 to R139), a feeder port included (R83, R84); `before` are the V registers that the unit
has named so far. A port has no pending mask, and FINFO reports 0 for one. DESIGN CHOICE (log 79). -/
def State.regCheck (s : State) (i : Iss) (wv : Wave) (src : Src) (before : List Nat) (n : Nat) : Chk :=
  if src.isS then
    (if (wv.sreg n).full then .go
     else if src.e then .trap 0x03 (emptyInfo 0xFFFFFFFF src.field) else .wait (.empty true n))
  else match wv.port? n with
    | some q =>
      if (s.portVecs i wv before n q).isEmpty then
        (if src.e || s.streamEnded i.c.g q then .trap 0x03 (emptyInfo 0 src.field) else .wait (.empty false n))
      else .go
    | none =>
      let r := wv.vreg n
      if r.pend = 0 then .go
      else if src.e then .trap 0x03 (emptyInfo r.pend src.field) else .wait (.empty false n)

/-- The tag a read of a register meets: a port's is that of the vector it takes. -/
def State.tagAt (s : State) (i : Iss) (wv : Wave) (isS : Bool) (before : List Nat) (n : Nat) : BitVec 4 :=
  if isS then (wv.sreg n).tag
  else match wv.port? n with
    | some q => match s.portVecs i wv before n q with
      | v :: _ => v.1
      | [] => (wv.vreg n).tag
    | none => (wv.vreg n).tag

/-- R132, R133, R135: tag check of a source. -/
def tagCheck (tagmode : Bool) (src : Src) (tags : List (BitVec 4)) : Chk :=
  let takes : List (Nat × Take) := (List.range tags.length).map fun k => (k, src.reader.take k (tags.getD k 0))
  -- a pair converts only as a whole I64 pair (R132)
  let bad : Option (Nat × Take) := match src.reader with
    | .pair => if tags = [tI64, tI64] then none
               else takes.find? fun p => p.2 != .accept
    | _ => takes.find? fun p => p.2 == .refuse
  match bad with
  | some (k, _) => .trap 0x04 (tagInfo false src.field (src.reader.want k) (tags.getD k 0).toNat)
  | none =>
    if tagmode then
      match takes.find? fun p => p.2 == .convert with
      | some (k, _) => .trap 0x04 (tagInfo true src.field (src.reader.want k) (tags.getD k 0).toNat)
      | none => .go
    else .go

def regsOf (src : Src) : List Nat := (List.range src.span).map (src.reg + ·)

/-- One source's checks; `before` are the V registers of the sources before it. -/
def State.srcCheck (s : State) (i : Iss) (wv : Wave) (before : List Nat) (src : Src) : Chk :=
  let seen := before ++ regsOf src
  match (regsOf src).find? fun n => s.regCheck i wv src (seen.takeWhile (· != n)) n != .go with
  | some n => s.regCheck i wv src (seen.takeWhile (· != n)) n
  | none => tagCheck wv.regs.tagmode src ((regsOf src).map fun n => s.tagAt i wv src.isS (seen.takeWhile (· != n)) n)

/-- Sources in field order. -/
def State.checkSrcs (s : State) (i : Iss) (wv : Wave) (before : List Nat) : List Src → Chk
  | [] => .go
  | x :: xs => match s.srcCheck i wv before x with
    | .go => s.checkSrcs i wv (if x.isS then before else before ++ regsOf x) xs
    | c => c

/-- R40 step 4 and R139: sources in field order, then each destination as a source with E clear. -/
def State.checkAll (s : State) (i : Iss) (wv : Wave) (srcs : List Src) (dsts : List (Bool × Nat)) : Chk :=
  match s.checkSrcs i wv [] srcs with
  | .go => match dsts.find? fun d => s.regCheck i wv ⟨3, d.1, d.2, 1, .bit, false⟩ [] d.2 != .go with
    | some d => s.regCheck i wv ⟨3, d.1, d.2, 1, .bit, false⟩ [] d.2
    | none => .go
  | c => c

/-- R205: each port that the unit reads pops one vector; the register then holds it for the lanes of F. -/
def State.popPorts (s : State) (i : Iss) (srcs : List Src) : State :=
  match s.wave? i.c.g i.c.w with
  | none => s
  | some wv =>
    let regs := ((srcs.filter fun x => !x.isS).flatMap regsOf).eraseDups
    regs.foldl (fun s n => match wv.port? n with
      | none => s
      | some q => match ((s.group? i.c.g).getD i.grp).queue q with
        | [] => s
        | v :: _ =>
          let s := s.updGroup i.c.g fun g => { g with queues := g.queues.map fun x =>
            if x.q == q then { x with vecs := x.vecs.drop 1 } else x }
          -- a full queue had stopped the feeder (R83)
          let s := if 16 ≤ (((s.group? i.c.g).getD i.grp).queue q).length + 1 then s.push .feederPush { a := i.c.g } else s
          s.updCur i fun w => w.writeV n i.fr.live v.1 v.2) s

/-- The wave as a unit reads it: a bound port that a source names holds the vector it takes in the lanes of F, under the vector's own
tag (R132, R205). -/
def State.portView (s : State) (i : Iss) (wv : Wave) (srcs : List Src) : Wave :=
  let regs := ((srcs.filter fun x => !x.isS).flatMap regsOf).eraseDups
  regs.foldl (fun v n => match wv.port? n with
    | none => v
    | some q => match s.portVecs i wv (regs.takeWhile (· != n)) n q with
      | [] => v
      | x :: _ => { v with vregs := v.vregs.set n { v.vreg n with
          tag := x.1, lanes := (List.range 32).map fun l => if i.fr.live.getLsbD l then x.2.getD l 0 else (v.vreg n).lane l } }) wv

/-! ## Reading operands -/

/-- Element list of a packed 32-bit value. -/
def elems (n w x : Nat) : List Nat := (List.range n).map fun k => x / 2 ^ (w * k) % 2 ^ w
def packElems (w : Nat) : List Nat → Nat
  | [] => 0
  | x :: xs => x + 2 ^ w * packElems w xs

/-- Map each element of a packed value through a conversion. -/
def cvtPacked (n : Nat) (src dst : Elem) (x : Nat) : Nat × FpFlags :=
  let rs := (elems n src.width x).map (cvtElem .onRead rne src dst)
  (packElems dst.width (rs.map (·.1)), rs.foldl (fun f r => f ||| r.2) 0)

/-- R134: one lane's value as the reader takes it, from the tag found. -/
def readLane (r : Reader) (t : BitVec 4) (x : Nat) : Nat × FpFlags :=
  if r.take 0 t = .accept then (x, 0)
  else match r with
    | .int => cvtElem .onRead rne (.flt .fp32) (.int 32) x
    | .int64 => cvtElem .onRead rne (.flt .fp64) (.int 64) x
    | .fp32 => cvtElem .onRead rne (.int 32) (.flt .fp32) x
    | .fp16x2 => if t = tBF16 then cvtPacked 2 (.flt .bf16) (.flt .fp16) x else cvtPacked 2 (.int 16) (.flt .fp16) x
    | .bf16x2 => if t = tFP16 then cvtPacked 2 (.flt .fp16) (.flt .bf16) x else cvtPacked 2 (.int 16) (.flt .bf16) x
    | .pair => cvtElem .onRead rne (.int 64) (.flt .fp64) x
    | .fp64 => cvtElem .onRead rne (.int 64) (.flt .fp64) x
    | .bit => (x, 0)

/-- A source's 32 lane values, a span read as one number, low register first; and the flags its conversion raises in
each lane. An S source has its value in every lane. -/
def readSrc (wv : Wave) (src : Src) : List Nat × List FpFlags :=
  let raw : Nat → Nat := fun l =>
    if src.isS then (wv.sreg src.reg).val.toNat
    else (regsOf src).foldr (fun n acc => ((wv.vreg n).lane l).toNat + 2 ^ 32 * acc) 0
  let t := if src.isS then (wv.sreg src.reg).tag else (wv.vreg src.reg).tag
  let rs := (List.range 32).map fun l => readLane src.reader t (raw l)
  (rs.map (·.1), rs.map (·.2))

/-! ## The lane runner -/

/-- What an operation of a lane word gives: registers to write with their tags and lane values, and flags. -/
inductive LaneOut where
  | ok (writes : List (Nat × BitVec 4 × List Nat)) (flags : FpFlags)

/-- One repetition of a lane word: its sources and destinations (the conversions choose theirs by tag), limits of its own
beside R27, a TAG_MISMATCH of its own in field a (R162: WANT and FOUND), and its operation on the lanes of the fragment. The
operation sees each source's 32 lane values, in order. -/
structure LaneOp where
  srcs : Wave → List Src
  dsts : Wave → List Nat
  extra : Wave → Bool := fun _ => true
  mismatch : Wave → Option (Nat × Nat) := fun _ => none
  run : Wave → Rnd → LaneMask → List (List Nat) → LaneOut

/-- R27: a V register below the declared count. -/
def vOk (v : Wave) (n : Nat) : Bool := decide (n < v.vcount)
def sOk (v : Wave) (n : Nat) : Bool := n = 0 || decide (n < v.scount)
/-- R205: a word that names a bound port as a destination is illegal. -/
def vDst (v : Wave) (n : Nat) : Bool := vOk v n && (v.port? n).isNone
def even (n : Nat) : Bool := n % 2 = 0

/-- R27 and R205 for a repetition: every register it names is in range. -/
def LaneOp.legal (op : LaneOp) (v : Wave) : Bool :=
  op.extra v && ((op.srcs v).all fun x => (regsOf x).all fun n => if x.isS then sOk v n else vOk v n) &&
  (op.dsts v).all (vDst v)

/-- Apply one repetition's result. -/
def Wave.applyOut (v : Wave) (who : LaneMask) (writes : List (Nat × BitVec 4 × List Nat)) (fl : FpFlags) : Wave :=
  let v := writes.foldl (fun v x => v.writeV x.1 who x.2.1 (x.2.2.map (BitVec.ofNat 32))) v
  { v with regs := { v.regs with fpflags := v.regs.fpflags ||| fl } }

/-- Flags of the lanes of a mask. -/
def orLanes (who : LaneMask) (fs : List FpFlags) : FpFlags :=
  (List.range 32).foldl (fun a l => if who.getLsbD l then a ||| fs.getD l 0 else a) 0

/-- How a repetition ends. -/
inductive RepEnd where
  | ok (s : State)
  | wait (w : Wait)
  | trap (cause : Nat) (finfo : DWord)

/-- Execute one repetition (R6, R146), which pops its ports as a unit of its own does. DESIGN CHOICE (log 79). The checks of field a come before those of the destinations (R40). -/
def State.runLaneOp (s : State) (i : Iss) (op : LaneOp) : RepEnd :=
  match s.wave? i.c.g i.c.w with
  | none => .ok s
  | some wv =>
    -- a conversion chooses its sources by the tag of V[a], which may be a port (R162)
    let srcs := op.srcs (s.portView i wv (op.srcs wv))
    let wr := s.portView i wv srcs
    match s.checkAll i wv srcs (if (op.mismatch wr).isSome then [] else (op.dsts wr).map fun n => (false, n)) with
    | .wait w => .wait w
    | .trap c f => .trap c f
    | .go => match op.mismatch wr with
      | some x => .trap 0x04 (tagInfo false 0 x.1 x.2)
      | none =>
        let vals := srcs.map (readSrc wr)
        match op.run wr wr.regs.rndmode i.fr.live (vals.map (·.1)) with
        | .ok writes fl =>
          let cf := vals.foldl (fun a x => a ||| orLanes i.fr.live x.2) 0
          .ok ((s.popPorts i srcs).updCur i fun w => w.applyOut i.fr.live writes (fl ||| cf))

/-- The unit stops at repetition k: those done stay done, and the index of the next is saved when there are any (R35). -/
def State.keepRep (s : State) (i : Iss) (isRep : Bool) (k : Nat) : State :=
  if isRep && k != 0 then s.updCurFrag i fun f => { f with repNext := some k } else s

/-- Repetition k of the unit waits. Where repetitions of this issue are done the fragment has issued; else it was not ready
(R63). -/
def State.stall (s : State) (i : Iss) (isRep : Bool) (k : Nat) (w : Wait) : State :=
  (if k = (if isRep then i.fr.repNext.getD 0 else 0) then s.block i w else s.park i w).keepRep i isRep k

/-- The repetition a trap saves (R35). -/
def savedRep (isRep : Bool) (k : Nat) : Option Nat := if isRep && k != 0 then some k else none

/-- R35: repetitions from `k` on; those done keep their effects, and the index of the next is saved when one waits or
traps. -/
def State.runReps (s : State) (i : Iss) (isRep : Bool) : List LaneOp → Nat → State
  | [], _ => s.retire i
  | op :: ops, k =>
    match s.runLaneOp i op with
    | .ok s => s.runReps i isRep ops (k + 1)
    | .wait w => s.stall i isRep k w
    | .trap c f => s.trapFrag i i.fr c 0 f (savedRep isRep k)

/-- Fields of repetition k (R33): stepped where their mask bit is set. -/
def repField (c : Cur) (k : Nat) (d a b : Nat) : Nat × Nat × Nat :=
  match c.rep with
  | none => (d, a, b)
  | some (_, pd, pa, pb, st) =>
    let n := k * (st.toNat + 1)
    (if pd then d + n else d, if pa then a + n else a, if pb then b + n else b)

def Cur.count (c : Cur) : Nat := match c.rep with | none => 1 | some (n, _) => n.toNat + 1

/-- A lane word (R146) with register or constant fields d, a, b: its repetitions, all checked before the first (R33). -/
def laneWord (p : Accepts) (d a b : Nat) (mk : Cur → Nat → Nat → Nat → LaneOp) (s : State) : Res :=
  s.withIss fun i =>
    let ops := (List.range i.c.count).map fun k =>
      let f := repField i.c k d a b
      mk i.c f.1 f.2.1 f.2.2
    if !p.ok i.c || !(ops.all fun o => o.legal i.wv) then .next (s.refuse p i)
    else
      let k := if i.c.rep.isSome then i.fr.repNext.getD 0 else 0
      .next (s.runReps i i.c.rep.isSome (ops.drop k) k)

/-! ## The uniform runner -/

/-- A uniform word: range check, sources, destination, operation on the source values; its result, tag and flags. -/
structure UniOp where
  legal : Wave → Bool
  srcs : List Src
  dst : Nat
  run : Wave → Rnd → List Nat → Nat × BitVec 4 × FpFlags

/-- A uniform word (R146, R174): one execution for the fragment; a destination of S0 discards result and flags. -/
def uniWord (p : Accepts) (mk : Cur → UniOp) (s : State) : Res :=
  s.withIss fun i =>
    let op := mk i.c
    if !p.ok i.c || !(op.legal i.wv && sOk i.wv op.dst) then .next (s.refuse p i)
    else match s.checkAll i i.wv op.srcs [(true, op.dst)] with
      | .wait w => .next (s.block i w)
      | .trap c f => .next (s.trap i c 0 f)
      | .go =>
        let vals := op.srcs.map (readSrc i.wv)
        let r := op.run i.wv i.wv.regs.rndmode (vals.map fun v => v.1.getD 0 0)
        let cf := vals.foldl (fun a x => a ||| x.2.getD 0 0) 0
        let s := if op.dst = 0 then s else s.updCur i fun w =>
          { w.setS op.dst (BitVec.ofNat 64 r.1) r.2.1 with
            regs := { w.regs with fpflags := w.regs.fpflags ||| r.2.2 ||| cf } }
        .next (s.retire i)

/-! ## Words with other effects -/

/-- The issue checks of a word that is not arithmetic: prefixes and registers (ILLEGAL_WORD), convergence (R65), then
sources and destinations. The continuation runs with every operand readable. -/
def State.issue (s : State) (p : Accepts) (legal : Iss → Bool) (conv : Bool) (srcs : List Src) (dsts : List (Bool × Nat))
    (k : Iss → Res) : Res :=
  s.withIss fun i =>
    if !p.ok i.c || !legal i then .next (s.refuse p i)
    else if conv && !i.converged then .next (s.notConverged i)
    else match s.checkAll i i.wv srcs dsts with
      | .wait w => .next (s.block i w)
      | .trap c f => .next (s.trap i c 0 f)
      | .go => k i

/-- S sources of an SE or SS word in field order a, b, c. -/
def sSrcs (l : List (Nat × Nat)) : List Src := l.map fun x => { field := x.1, isS := true, reg := x.2 }

/-- S[n] of field `field` is read after the checks of the fields before it (R40 step 4, R206: source order a, b, c). -/
def Iss.alsoS (i : Iss) (s : State) (field n : Nat) (k : Res) : Res :=
  match s.checkAll i i.wv (sSrcs [(field, n)]) [] with
  | .wait w => .next (s.block i w)
  | .trap c f => .next (s.trap i c 0 f)
  | .go => k

end Sys2Proof.Machine
end

