-- ==== Sys2Proof/Machine/Memory.lean ====
section
/-! DEFINITION. The memory words: loads and stores of global memory, of the window and of S registers (R267 to R277),
atomics (R278 to R282), VPREF (R283), and the events by which their effects come about at the homes. -/

namespace Sys2Proof.Machine

open Host

/-! ## Miss-status entries (R85) -/

/-- Entries of a core in use, of the reserved kind or of the other: one for each request in flight. DEDUCED (log 21). -/
def State.missUsed (s : State) (core : Nat) (resv : Bool) : Nat := (s.reqs.filter fun r => r.core == core && r.resv == resv).length

/-- An unreserved entry of the core is free. -/
def State.missOpen (s : State) (core : Nat) : Bool := decide (s.missUsed core false < 248)

/-- Whether a miss of the wave gets an entry: an unreserved one, or one of the free reserved ones, which are the qualified waves' in
the order in which they qualified. DEDUCED (log 21). -/
def State.missOk (s : State) (core g w : Nat) : Bool :=
  s.missOpen core ||
  ((s.missq.filter fun q => q.1 == core).take (8 - s.missUsed core true)).contains (core, g, w)

/-- A rejected miss: no effect, and after 32 in a row the wave qualifies. DEDUCED (log 21). -/
def State.missReject (s : State) (i : Iss) : State :=
  let n := i.wv.rejects + 1
  let me := (i.grp.core, i.c.g, i.c.w)
  let s := s.updCur i fun w => { w with rejects := n }
  let s := if 32 ≤ n && !s.missq.contains me then { s with missq := s.missq ++ [me] } else s
  (s.updCurFrag i fun f => { f with pc := i.c.unitPc, wait := none }).endUnit

/-- An accepted miss. -/
def State.missTake (s : State) (i : Iss) : State :=
  { s.updCur i fun w => { w with rejects := 0 } with missq := s.missq.filter fun q => q != (i.grp.core, i.c.g, i.c.w) }

/-! ## Units of a memory word -/

/-- How one repetition of a memory word ends. -/
inductive UEnd where
  | ok (s : State)
  | wait (s : State) (w : Wait)
  | trap (s : State) (cause : Nat) (faddr finfo : DWord)
  /-- no miss-status entry is free (R85) -/
  | reject (s : State)
  /-- the unit has ended in a stop -/
  | over_ (s : State)

/-- R33, R35: the repetitions of a unit in turn. -/
def runUnits (i : Iss) (isRep : Bool) : List (State → Iss → UEnd) → Nat → State → State
  | [], _, s => s.retire i
  | u :: us, k, s =>
    match s.iss? with
    | none => s
    | some j => match u s j with
      | .ok s => runUnits i isRep us (k + 1) s
      | .wait s w => s.stall i isRep k w
      | .trap s c a f => s.trapFrag i i.fr c a f (savedRep isRep k)
      | .reject s => (s.missReject j).keepRep i isRep k
      | .over_ s => s

/-- A memory word with stepped fields d and a (R33). -/
def memWord (p : Accepts) (d a : Nat) (legal : Iss → Nat → Nat → Bool) (unit : Nat → Nat → State → Iss → UEnd) (s : State) :
    Res :=
  s.withIss fun i =>
    let fs := (List.range i.c.count).map fun k => repField i.c k d a 0
    if !p.ok i.c || !(fs.all fun f => legal i f.1 f.2.1) then .next (s.refuse p i)
    else
      let k := if i.c.rep.isSome then i.fr.repNext.getD 0 else 0
      .next (runUnits i i.c.rep.isSome ((fs.drop k).map fun f => unit f.1 f.2.1) k s)

/-- Source and destination checks of a repetition, then its body. DESIGN CHOICE (log 24). -/
def checkedUnit (srcs : List Src) (dsts : List (Bool × Nat)) (k : State → Iss → UEnd) (s : State) (i : Iss) : UEnd :=
  match s.checkAll i i.wv srcs dsts with
  | .wait w => .wait s w
  | .trap c f => .trap s c 0 f
  | .go => k s i

/-- The wave once the unit's feeder ports are read (R205). -/
def State.waveNow (s : State) (i : Iss) : Wave := (s.wave? i.c.g i.c.w).getD i.wv

/-- R267: the signed IMM offset, or 0. -/
def vmOff (c : Cur) : DWord := match c.imm with | some x => x.signExtend 64 | none => 0

/-- R267: the address lane L forms. -/
def vmAddr (c : Cur) (v : Wave) (a sr k l : Nat) : DWord :=
  (v.sreg sr).val + ((v.vreg a).lane l).signExtend 64 * BitVec.ofNat 64 (2 ^ k) + vmOff c

/-- R268: S[a] plus the scaled imm8 or the IMM offset. -/
def smAddr (c : Cur) (v : Wave) (a imm8 bytes : Nat) : DWord :=
  (v.sreg a).val + (match c.imm with
    | some x => x.signExtend 64
    | none => BitVec.ofInt 64 (toIntBits 8 imm8 * bytes))

/-! ## The checks of R269 -/

/-- Lanes that fail, as FINFO reports them. -/
def failMask (las : List (Nat × DWord)) (p : DWord → Bool) : Nat :=
  las.foldl (fun m x => if p x.2 then m + 2 ^ x.1 else m) 0

/-- The lanes a local trap of R269 reports: those that fail, or every lane of F when the word is a uniform one, whose one
access stands for them all. DEDUCED (log 24). -/
def Iss.blame (i : Iss) (las : List (Nat × DWord)) (p : DWord → Bool) : DWord :=
  if i.c.word.getLsbD 31 then i.fr.live.setWidth 64 else BitVec.ofNat 64 (failMask las p)

/-- Lowest byte of [a, a + n) inside an entry. -/
def RangeEntry.meets (r : RangeEntry) (a n : Nat) : Option Nat :=
  if r.lo < a + n ∧ a < r.hi ∧ r.lo < r.hi then some (max a r.lo) else none

/-- R258: the lowest locked byte of [a, a + n) and the entry that FINFO names: LOCK-DST before LOCK-SRC, then the one
registered first. -/
def State.lockAt (s : State) (ctx : Nat) (pad : Option Nat) (write : Bool) (a n : Nat) : Option (Nat × RangeEntry) :=
  let es := s.ranges.filter fun r => r.ctx == ctx && r.pad == pad && (r.kind == 1 || (write && r.kind == 0)) &&
    (r.meets a n).isSome
  match es with
  | [] => none
  | e :: _ =>
    let lo := es.foldl (fun m r => min m ((r.meets a n).getD m)) ((e.meets a n).getD a)
    let cover := es.filter fun r => decide (r.lo ≤ lo) && decide (lo < r.hi)
    match cover.find? fun r => r.kind == 1 with
    | some r => some (lo, r)
    | none => cover.head?.map fun r => (lo, r)

def lockInfo (r : RangeEntry) : DWord := BitVec.ofNat 64 (r.core * 2 ^ 16 + r.engine * 256 + r.kind)

/-- RANGE_LOCK for the lowest lane that touches a locked byte (R258). -/
def State.lockTrap (s : State) (ctx : Nat) (pad : Option Nat) (write : Bool) (n : Nat) (las : List (Nat × DWord))
    (addr : DWord → Nat) : Option (DWord × DWord) :=
  las.findSome? fun x => (s.lockAt ctx pad write (addr x.2) n).map fun h => (x.2 + BitVec.ofNat 64 (h.1 - addr x.2), lockInfo h.2)

/-- R260: a write of a core that does not hold the token of an object it touches: the lowest such byte and the shape. -/
def State.tokenTrap (s : State) (ctx core n : Nat) (las : List (Nat × DWord)) : Option (DWord × DWord) :=
  las.findSome? fun x =>
    let es := s.ranges.filter fun r => r.ctx == ctx && r.pad == none && r.kind == 2 && (r.meets x.2.toNat n).isSome &&
      !(s.tokens.any fun t => t.ctx == ctx && t.shape == r.owner && t.holder == core)
    match es with
    | [] => none
    | e :: t =>
      let lo := fun (r : RangeEntry) => (r.meets x.2.toNat n).getD 0
      let b := t.foldl (fun b r => if lo r < lo b then r else b) e
      some (BitVec.ofNat 64 (lo b), BitVec.ofNat 64 b.owner)

/-- R261: the lowest byte of an IMMUTABLE object that a write touches. -/
def State.immutAt (s : State) (ctx n : Nat) (las : List (Nat × DWord)) : Option DWord :=
  las.findSome? fun x =>
    let es := (s.ranges.filter fun r => r.ctx == ctx && r.pad == none && r.kind == 3).filterMap fun r => r.meets x.2.toNat n
    match es with
    | [] => none
    | e :: t => some (BitVec.ofNat 64 (t.foldl min e))

/-- Rows 1 to 6 of R269. DESIGN CHOICE (log 24). -/
def State.memFault (s : State) (i : Iss) (acc : Acc) (stack : Bool) (n : Nat) (las : List (Nat × DWord)) : Option UEnd :=
  let ctx := i.grp.ctx
  let mis := fun (a : DWord) => a.toNat % n != 0
  let low := fun (a : DWord) => stack && i.wv.regs.stklim != 0 && decide (a < i.wv.regs.stklim)
  let wild := fun (a : DWord) => !isGalord a && !canonical a
  match las.find? fun x => mis x.2 with
  | some x => some (.trap s 0x08 x.2 (i.blame las mis))
  | none => match las.find? fun x => low x.2 with
    | some x => some (.trap s 0x07 x.2 (i.blame las low))
    | none => match las.find? fun x => wild x.2 with
      | some x => some (.over_ (s.violate i x.2 0 0 0 acc 0))
      | none => match s.lockTrap ctx none acc.needsW n las (·.toNat) with
        | some x => some (.trap s 0x06 x.1 x.2)
        | none =>
          if !acc.needsW then none
          else match s.tokenTrap ctx i.grp.core n las with
            | some x => some (.trap s 0x0D x.1 x.2)
            | none => match s.immutAt ctx n las with
              | some a => some (.over_ (s.violate i a 7 0 0 acc 0))
              | none => none

/-- Row 7 of R269: every lane's address translated, or the first violation. -/
inductive Located where
  | ok (s : State) (ts : List (Nat × DWord × Tgt))
  | bad (s : State)

/-- DESIGN CHOICE (log 24). -/
def State.locateAll (s : State) (i : Iss) (acc : Acc) (n : Nat) : List (Nat × DWord) → List (Nat × DWord × Tgt) → Located
  | [], ts => .ok s ts.reverse
  | (l, a) :: rest, ts =>
    match s.locate i a acc n with
    | (s, .viol k lv ipa) => .bad (s.violate i a k lv ipa acc 0)
    | (s, t) => s.locateAll i acc n rest ((l, a, t) :: ts)

/-- A unit whose accesses all issue or none: the first resolvable fault holds the fragment at the unit.
DESIGN CHOICE (log 16). -/
def State.holdFault (s : State) (i : Iss) (acc : Acc) (ts : List (Nat × DWord × Tgt)) : Option UEnd :=
  ts.findSome? fun t => match t.2.2 with
    | .resolvable e =>
      let r := s.fileFault i.grp.ctx t.2.1 acc e none (some (i.c.g, i.c.w, i.c.f))
      some (.wait r.1 (.fault r.2))
    | _ => none

/-! ## Filing a request -/

/-- Operands of one lane of an atomic request: width, operation, x and y. -/
def ReqKind.operands (k : ReqKind) (lane : Nat) : Nat × Nat × Nat × Nat :=
  match k with
  | .atomic f x y _ _ => (32, f, (x.getD lane 0).toNat, (y.getD lane 0).toNat)
  | .atomic64 f x y _ => (64, f, x.toNat, y.toNat)
  | _ => (32, 9, 0, 0)
def ReqKind.ord : ReqKind → BitVec 2
  | .atomic _ _ _ o _ => o
  | .atomic64 _ _ _ o => o
  | .routine _ _ _ o => o
  | _ => 0



/-- What a lane's request asks of a peer: its kind and what goes with it (R331 to R336). -/
def ReqKind.packet (k : ReqKind) (lane : Nat) : Nat × List Byte :=
  match k with
  | .routine n x y o => (6, leBytes 1 n ++ leBytes 4 (x.getD lane 0).toNat ++ leBytes 4 (y.getD lane 0).toNat ++ leBytes 1 o.toNat)
  | _ =>
    if k.isAtomic then
      let o := k.operands lane
      (4, leBytes 1 o.2.1 ++ leBytes 1 (if o.1 = 64 then 1 else 0) ++ leBytes 8 o.2.2.1 ++ leBytes 8 o.2.2.2 ++ leBytes 1 k.ord.toNat)
    else (if k.isAcquire then 3 else 0, leBytes 1 k.bytes)

/-- The event by which a lane of a request is performed; a VATOMX at this module is performed from its service queue (R86). -/
def ReqKind.event (k : ReqKind) (peer : Bool) : Option Instr :=
  match k with
  | .routine .. => if peer then some .atomicAtHome else none
  | _ => some (if k.isAtomic then .atomicAtHome else .loadResultLands)

/-- A request of the issuing unit: each lane's place, its destinations empty, its events to come, and its faults in the
service group's hands. A peer's lane has a place of its own beyond every physical address; a plain read of a borrowed line sends
no request (R353). -/
def State.fileReq (s : State) (i : Iss) (kind : ReqKind) (isS : Bool) (dst span : Nat) (tag : BitVec 4) (acc : Acc)
    (lanes : LaneMask) (ts : List (Nat × DWord × Tgt)) (taken : Nat → Option (List Byte)) (rt : Nat) : State :=
  let id := s.seq
  let at_ (l : Nat) : Option (DWord × Tgt) := (ts.find? fun t => t.1 == l).map (·.2)
  let r : Req :=
    { id := id, g := i.c.g, w := i.c.w, core := i.grp.core, ctx := i.grp.ctx, kind := kind, isS := isS, dst := dst, span := span
      tag := tag, who := lanes, lanes := lanes
      va := (List.range 32).map fun l => match at_ l with | some x => x.1 | none => 0
      pa := (List.range 32).map fun l => match at_ l with
        | some (_, .mem pa) | some (_, .own pa) => some pa
        | some (va, .peer) => some (2 ^ 64 + va.toNat)
        | _ => none
      captured := (List.range 32).map fun l => match taken l with
        | some bs => some bs
        | none => none
      surr := 0, rt := rt, resv := !s.missOpen i.grp.core }
  let s := { s.fresh with reqs := s.reqs ++ [r] }
  let s := s.updCur i fun w =>
    if isS then w.emptyS dst else (List.range span).foldl (fun w k => w.emptyV (dst + k) lanes) w
  ts.foldl (fun s t =>
    let go (s : State) (peer : Bool) : State := match kind.event peer with
      | some what => s.push what { a := id, b := t.1 }
      | none => s
    match t.2.2 with
    | .resolvable e => (s.fileFault i.grp.ctx t.2.1 acc e (some (id, t.1)) none).1
    | .peer =>
      let p := kind.packet t.1
      let held := p.1 == 0 && ((s.partOf i.grp.ctx).bind fun x => s.borrowed x.n t.2.1 kind.bytes).isSome
      go (if held then s else s.emit (.galord t.2.1 p.1 p.2)) true
    | _ => go s false) s

/-! ## Values of loads in flight (R238) -/

/-- The lanes of a request that come before a later access of a lane in its program order (R64, R238): a uniform word's one
access counts for every lane of its wave. -/
def Req.facing (x : Req) (isS : Bool) (lane : Nat) : List Nat :=
  if x.isS then [0] else if isS then List.range 32 else [lane]

/-- Bytes of memory that lane l of a request names: its word, or for VATOMX its line (R282). -/
def Req.reach (x : Req) (l : Nat) : Option (Nat × Nat) :=
  (x.pa.getD l none).map fun pa => match x.kind with | .routine .. => (pa / 128 * 128, 128) | _ => (pa, x.kind.bytes)

/-- Lane l of the request is still to be performed and names bytes of [pa, pa + n). -/
def Req.owes (x : Req) (l pa n : Nat) : Bool :=
  x.lanes.getLsbD l && !x.performedAt l && (match x.reach l with | some q => decide (q.1 < pa + n) && decide (pa < q.1 + q.2) | none => false)

/-- Whether an atomic or an acquiring load still to be performed covers bytes that lane `lane` names at [pa, pa + n): what a later
access of the lane does not overtake (R238). -/
def Req.pendingOn (x : Req) (isS : Bool) (lane pa n : Nat) : Bool :=
  (x.kind.isAtomic || x.kind.isAcquire) && (match x.kind with | .peer .. => false | _ => true) &&
  (x.facing isS lane).any fun l => x.owes l pa n

/-- Earlier requests of the wave that name bytes of [va, va + n) and whose page had still to be resolved get their place as soon as
a later access of the wave finds the page (R238, R386). DEDUCED (log 22). -/
def State.placeEarlier (s : State) (g w : Nat) (va : DWord) (n before : Nat) : State :=
  let waits (x : Req) (l : Nat) : Bool := x.lanes.getLsbD l && !x.performedAt l && (x.pa.getD l none).isNone &&
    decide ((x.va.getD l 0).toNat < va.toNat + n) && decide (va.toNat < (x.va.getD l 0).toNat + x.kind.bytes)
  (s.reqs.filter fun x => x.g == g && x.w == w && decide (x.id < before)).foldl (fun s x =>
    ((List.range 32).filter (waits x)).foldl (fun s l =>
      match s.reach ((s.group? g).bind s.actsFor) x.core x.ctx (x.va.getD l 0) (if x.kind.isAtomic then .atomic else .load) x.kind.bytes with
      | (s, .mem pa) | (s, .own pa) =>
        let s := s.updReq x.id fun r => { r with pa := r.pa.set l (some pa) }
        (match x.kind.event false with
        | some what => s.push what { a := x.id, b := l }
        | none => s)
      | (s, _) => s) s) s

/-- Such an access of the same lane that issued earlier (R238). -/
def State.atomicAhead (s : State) (r : Req) (lane pa n : Nat) : Bool :=
  s.reqs.any fun x => x.g == r.g && x.w == r.w && decide (x.id < r.id) && x.pendingOn r.isS lane pa n

/-- What a plain load of the lane reads at this moment, at an address of this module. -/
def State.readNow (s : State) (r : Req) (lane pa : Nat) : State × Option (List Byte) :=
  if isGalord (r.va.getD lane 0) then s.coreRead r.core pa r.kind.bytes
  else
    let s := s.freshen r.core pa r.kind.bytes
    (s, s.loadBytes r.core pa r.kind.bytes)

/-- A store or atomic of a lane is about to change [pa, pa + n): the lane's earlier loads of those bytes read now. -/
def State.captureFor (s : State) (g w lane pa n before : Nat) (isS : Bool) : State :=
  let early (x : Req) : Bool := x.g == g && x.w == w && !x.kind.isAtomic && !x.kind.isAcquire && decide (x.id < before) &&
    (match x.kind with | .peer .. => false | _ => true)
  (s.reqs.filter early).foldl (fun s x => (x.facing isS lane).foldl (fun s l =>
    match x.owes l pa n, x.pa.getD l none with
    | true, some q => match s.readNow x l q with
      | (s, some bs) => s.capture x.id l bs
      | (s, none) => s
    | _, _ => s) s) s

/-! ## Loads -/

/-- R274: bytes, sign extension and destination registers of a load's fn. -/
def loadForm (f : Nat) : Nat × Bool × Nat :=
  if f = 0 then (1, true, 1) else if f = 1 then (1, false, 1) else if f = 2 then (2, true, 1) else if f = 3 then (2, false, 1)
  else if f = 4 then (4, false, 1) else if f = 5 then (8, false, 2) else (16, false, 4)

/-- R274, R276: register limits of a group of registers. -/
def groupOk (span d : Nat) : Bool := d % span = 0

def vmLegal (i : Iss) (d a sr span : Nat) (dst : Bool) : Bool :=
  vOk i.wv a && sOk i.wv sr && groupOk span d &&
  ((List.range span).all fun k => if dst then vDst i.wv (d + k) else vOk i.wv (d + k))

def vmSrcs (a sr : Nat) : List Src := [⟨0, false, a, 1, .bit, false⟩, ⟨1, true, sr, 1, .bit, false⟩]
def regSpan (d span : Nat) : List (Bool × Nat) := (List.range span).map fun k => (false, d + k)

/-- R275: what a .shaped word finds: each lane's address inside the shape, or nothing. -/
def shapedCoord (c : Cur) (v : Wave) (a sr l : Nat) : Coord :=
  { i0 := ((v.vreg a).lane l).toInt + (vmOff c).toInt, i1 := toIntBits 32 ((v.sreg sr).val.toNat / 2 ^ 32) }

/-- The shape of a .shaped word is usable (R275). -/
def shapedOk (r : Shape) (wantPad : Bool) : Bool :=
  r.fmt != 0 && decide (r.fmt < 12) && (if wantPad then r.space = 1 || r.space = 2 else r.space = 0)

/-- A repetition of VLD in the issue order of R269; `acquire` from ORD. -/
def loadUnit (f sr k : Nat) (d a : Nat) (s : State) (i : Iss) : UEnd :=
  let fm := loadForm f
  let acquire := i.c.order.getLsbD 0
  checkedUnit (vmSrcs a sr) (regSpan d fm.2.2) (fun s i =>
    match s.accessWait i.c.g i.c.w acquire false with
    | some w => .wait s w
    | none =>
      let sp := s.popPorts i (vmSrcs a sr)
      let v := sp.waveNow i
      let las := (lanesOf i.fr.live).map fun l => (l, vmAddr i.c v a sr k l)
      match s.memFault i .load false fm.1 las with
      | some e => e
      | none =>
        if !s.missOk i.grp.core i.c.g i.c.w then .reject s
        else match s.locateAll i .load fm.1 las [] with
          | .bad s => .over_ s
          | .ok _ ts => match sp.locateAll i .load fm.1 las [] with
            | .bad s => .over_ s
            | .ok sp _ =>
              .ok ((sp.missTake i).fileReq i (.load fm.1 fm.2.1 acquire) false d fm.2.2 0 .load i.fr.live ts (fun _ => none) 0)) s i

/-- One byte of a plane of a PL8 shape: read as the unit issues, at its home, with the surrender, when the load acquires (R240,
R245). -/
def State.planeByte (s : State) (i : Iss) (acquire : Bool) (t : Tgt) : State × Option Nat :=
  match t with
  | .mem pa =>
    let r := if acquire then (s.acquireNow i.grp.core (pa / 4)).coreRead i.grp.core pa 1 else (s, s.loadBytes i.grp.core pa 1)
    (r.1, r.2.map leNat)
  | _ => (s, none)

/-- The bytes of every plane, lane by lane, or the first access whose line fails its check. -/
def planeBytes (i : Iss) (acquire : Bool) : List (Nat × DWord × Tgt) → State → List (Nat × Nat) →
    State × ((Nat × DWord × Tgt) ⊕ List (Nat × Nat))
  | [], s, out => (s, .inr out.reverse)
  | t :: ts, s, out => match s.planeByte i acquire t.2.2 with
    | (s, some b) => planeBytes i acquire ts s ((t.1, b) :: out)
    | (s, none) => (s, .inl t)

/-- A PL8 element from its plane bytes, most significant first (R124, R275). -/
def planeValue (bytes : List Nat) (bit : Nat) : List Byte := leBytes 4 (ofIntBits 32 (plValue (bytes.map fun b => ebit b bit)))

/-- TAG_MISMATCH of a word that names a shape it cannot use: FOUND and WANT hold the codes of R176. DEDUCED (log 8). -/
def shapeInfo (field want fmt : Nat) : DWord := tagInfo false field want (fmtTag fmt)

/-- A repetition of VLD.shaped (R275). DEDUCED (log 8). -/
def shapedUnit (sr : Nat) (d a : Nat) (s : State) (i : Iss) : UEnd :=
  let acquire := i.c.order.getLsbD 0
  checkedUnit (vmSrcs a sr) [] (fun s i =>
    let sp := s.popPorts i (vmSrcs a sr)
    let v := sp.waveNow i
    let r := s.shapeOf i.grp.ctx ((v.sreg sr).val.toNat % 256)
    if !shapedOk r false then .trap s 0x04 0 (shapeInfo 0 0 r.fmt)
    else
      let span := if r.fmt = 3 then 2 else 1
      if span = 2 && (d % 2 != 0 || !vDst i.wv (d + 1)) then .trap s 0x01 0 (i.c.word.setWidth 64)
      else match s.checkAll i i.wv [] (regSpan d span) with
        | .wait w => .wait s w
        | .trap c f => .trap s c 0 f
        | .go => match s.accessWait i.c.g i.c.w acquire false with
          | some w => .wait s w
          | none =>
            let co := fun l => shapedCoord i.c v a sr l
            let ins := (lanesOf i.fr.live).filter fun l => r.inside (co l)
            let n := if r.fmt = 11 then 1 else fmtBytes r.fmt
            -- a PL8 element's planes are each one byte; they are read as the unit issues
            let las := ins.flatMap fun l =>
              if r.fmt = 11 then (List.range r.prec).map fun j => (l, BitVec.ofInt 64 (r.planeAt (r.plIndex (co l)) (7 - j)).1)
              else [(l, BitVec.ofInt 64 (r.addrOf (co l)))]
            match s.memFault i .load false n las with
            | some e => e
            | none =>
              if !s.missOk i.grp.core i.c.g i.c.w then .reject s
              else match sp.locateAll i .load n las [] with
                | .bad s => .over_ s
                | .ok sp ts =>
                  match (if r.fmt = 11 then sp.holdFault i .load ts else none) with
                  | some (.wait _ w) => .wait s w
                  | some e => e
                  | none =>
                    match planeBytes i acquire (if r.fmt = 11 then ts else []) sp [] with
                    | (sp, .inl t) => .over_ (((sp.updCurFrag i fun f => { f with pc := i.c.unitPc }).endUnit).homeViolate
                        i.grp.ctx (some i.ln.id) t.2.1 (match t.2.2 with | .mem pa => pa | _ => 0) .load (s.saveSlot i.c.g))
                    | (sp, .inr bytes) =>
                      let taken := fun l =>
                        if !ins.contains l then some (leBytes (4 * span) 0)
                        else if r.fmt = 11 then
                          some (planeValue ((bytes.filter fun x => x.1 == l).map (·.2)) (r.planeAt (r.plIndex (co l)) 0).2)
                        else none
                      let ts' := (lanesOf i.fr.live).map fun l =>
                        match ts.find? fun t => t.1 == l with
                        | some t => t
                        | none => (l, (0 : DWord), Tgt.mem 0)
                      .ok ((sp.missTake i).fileReq i (.shaped r.fmt acquire) false d span (deliverTag r.fmt) .load i.fr.live ts'
                        taken 0)) s i

/-- R273, R274, R275. -/
def execVld (d a : BitVec 7) (sr : BitVec 5) (k : BitVec 2) (f : BitVec 4) (s : State) : Res :=
  memWord { imm := true, ord := [0, 1] } d.toNat a.toNat
    (fun i d a => if f = 7 then k = 0 && vmLegal i d a sr.toNat 1 true else vmLegal i d a sr.toNat (loadForm f.toNat).2.2 true)
    (fun d a => if f = 7 then shapedUnit sr.toNat d a else loadUnit f.toNat sr.toNat k.toNat d a) s

/-- R240: a miss may leave words of its line in the L1, in aligned pairs (R237); which ones is open, but in a DET context, where
all are. DESIGN CHOICE (log 9). -/
def State.fillLine (s : State) (core ctx pa : Nat) (all : Bool) : State :=
  (List.range 16).foldl (fun s k =>
    let word := 32 * (pa / 128) + 2 * k
    if (!all && Config.l1Keep (s.seq * 32 + k) / 2 % 2 = 0) || (s.l1Word core word).isSome || (s.l1Word core (word + 1)).isSome then s
    else match s.homeBytes (4 * word) 8 with
      | some bs => { s with l1 := s.l1 ++ [⟨core, ctx, word, BitVec.ofNat 32 (leNat (bs.take 4)), 15, 0, false⟩,
                                           ⟨core, ctx, word + 1, BitVec.ofNat 32 (leNat (bs.drop 4)), 15, 0, false⟩] }
      | none => s) s

/-- Lines that a core's L1 holds for a context, in the order of their last use. -/
def State.linesOf (s : State) (core ctx : Nat) : List Nat :=
  ((s.l1.filter fun e => e.core == core && e.ctx == ctx).map fun e => e.word / 32).eraseDups

/-- R430: in a DET context a line that has been used becomes the last to be replaced, and the least recently used one makes room:
its owned words go home. -/
def State.useLine (s : State) (core ctx pa : Nat) : State :=
  let mine (e : L1Word) : Bool := e.core == core && e.ctx == ctx
  let s := { s with l1 := (s.l1.filter fun e => !(mine e && e.word / 32 == pa / 128)) ++ s.l1.filter fun e => mine e && e.word / 32 == pa / 128 }
  match s.linesOf core ctx with
  | old :: rest =>
    if rest.length + 1 ≤ Config.detLines then s
    else
      let s := s.writeBack core ctx fun word => word / 32 == old
      { s with l1 := s.l1.filter fun e => !(mine e && e.word / 32 == old && e.dm == 0) }
  | [] => s

/-- A load of words that a core's L1 holds may be a hit; a clean line may also have been replaced before (R240), but in a DET
context the least recently used one is (R430). The lane's bytes, and the state after the fill. DESIGN CHOICE (log 9). -/
def State.readFor (s : State) (r : Req) (lane pa : Nat) : State × Option (List Byte) :=
  let n := r.kind.bytes
  let va := r.va.getD lane 0
  if isGalord va then
    if s.isOwnPkg (galordPkg va) then s.coreRead r.core pa n
    else
      let part := match s.partOf r.ctx with | some p => p.n | none => 0
      let x := s.remoteRead part va n true
      let y := x.1.detReply r.g r.w lane x.2
      (y.1, some y.2)
  else
    let det := s.detCtx r.ctx
    let keep := det || Config.l1Keep s.seq != 0
    let s := s.fresh
    let s := if keep then s else (wordsOf pa n).foldl (fun s w => s.dropWord r.core w) s
    let s := s.freshen r.core pa n
    match s.loadBytes r.core pa n with
    | none => (s, none)
    | some bs =>
      let s := s.fillLine r.core r.ctx pa det
      (if det then s.useLine r.core r.ctx pa else s, some bs)

/-- An access at a home whose integrity check fails (kind 8), or that finds no route (kind 12), stops the context (R15, R340). -/
def State.accessStop (s : State) (r : Req) (lane kind : Nat) (acc : Acc) : State :=
  let va := r.va.getD lane 0
  let launch := (s.group? r.g).map (·.launch)
  if kind = 8 then s.homeViolate r.ctx launch va ((r.pa.getD lane none).getD 0) acc (s.saveSlot r.g)
  else
    let lg := s.logAccess r.ctx va kind 0 0 acc.code
    lg.1.raiseStop r.ctx launch
      { cause := 0x20, engine := 8, unit := r.core, addr := va, detail := lg.2, group := s.saveSlot r.g }

/-- LOAD_RESULT_LANDS (R137, R238, R240, R245): one lane of a load. -/
def State.loadLands (s : State) (id lane : Nat) : State :=
  match s.req? id with
  | none => s
  | some r =>
    if r.kind.isAtomic || !r.lanes.getLsbD lane then s
    else
    let s := s.placeEarlier r.g r.w (r.va.getD lane 0) r.kind.bytes id
    match r.kind, r.captured.getD lane none, r.pa.getD lane none with
      | .peer b _ pg acq, none, some off =>
        let bs := match s.group? pg with | some gr => gr.padBytes off b | none => leBytes b 0
        let s := if acq then s.invalidate r.core else s
        s.deliverLane r lane bs
      | _, some bs, _ => if r.kind.isAcquire && (r.surr.getLsbD lane) then s
        else if r.kind.isAcquire then (s.invalidate r.core).deliverLane r lane bs else s.deliverLane r lane bs
      | _, none, none => s
      | _, none, some pa =>
        if s.atomicAhead r lane pa r.kind.bytes then s.push .loadResultLands { a := id, b := lane, due := s.nextDue r.ctx }
        else if r.kind.isAcquire then
          -- R245: read at the home; an acquire waits for a surrender of the same variable
          if s.surrs.any fun x => x.var == some (pa / 4) then s.push .loadResultLands { a := id, b := lane, due := s.nextDue r.ctx }
          else
            let va := r.va.getD lane 0
            if isGalord va && !s.isOwnPkg (galordPkg va) then
              (match s.partOf r.ctx with
              | some p =>
                if s.hasLink p.n then
                  let x := s.remoteRead 32 va r.kind.bytes false
                  let y := x.1.detReply r.g r.w lane x.2
                  (y.1.invalidate r.core).deliverLane r lane y.2
                else s.accessStop r lane 12 .load
              | none => s)
            else match s.coreRead r.core pa r.kind.bytes with
              | (s, none) => s.accessStop r lane 8 .load
              | (s, some bs) =>
                let s := s.updReq id fun x => { x with surr := x.surr ||| BitVec.ofNat 32 (2 ^ lane) }
                match s.req? id with
                | some r => s.acquireLane r lane (pa / 4) (s.recordOf (pa / 4)) bs
                | none => s
        else match s.readFor r lane pa with
          | (s, none) => s.accessStop r lane 8 .load
          | (s, some bs) => s.deliverLane r lane bs

/-- LOAD_RESULT_LANDS. It brings the request and the lane. -/
def execLoadResultLands (s : State) : Res := .next (s.loadLands s.ev.a s.ev.b)

/-- R277, R30: bytes and extension of an SM width code. -/
def smForm (w : Nat) : Nat × Bool :=
  if w = 0 then (1, true) else if w = 1 then (1, false) else if w = 2 then (2, true) else if w = 3 then (2, false)
  else if w = 4 then (4, true) else if w = 5 then (4, false) else (8, false)

/-- R31: an IMM prefix leaves imm8 must-be-zero. -/
def smLegal (i : Iss) (d a imm8 : Nat) : Bool := sOk i.wv d && sOk i.wv a && (i.c.imm.isNone || imm8 = 0)

/-- R273, R277. -/
def execSld (d a : BitVec 7) (imm8 : BitVec 8) (w : BitVec 3) (s : State) : Res :=
  let fm := smForm w.toNat
  memWord { imm := true, ord := [0, 1] } d.toNat a.toNat (fun i d a => smLegal i d a imm8.toNat)
    (fun d a => checkedUnit [⟨0, true, a, 1, .bit, false⟩] [(true, d)] fun s i =>
      let acquire := i.c.order.getLsbD 0
      match s.accessWait i.c.g i.c.w acquire false with
      | some x => .wait s x
      | none =>
        let las := [(0, smAddr i.c i.wv a imm8.toNat fm.1)]
        match s.memFault i .load false fm.1 las with
        | some e => e
        | none =>
          if !s.missOk i.grp.core i.c.g i.c.w then .reject s
          else match s.locateAll i .load fm.1 las [] with
            | .bad s => .over_ s
            | .ok s ts => .ok ((s.missTake i).fileReq i (.load fm.1 fm.2 acquire) true d 1 0 .load 1 ts (fun _ => none) 0)) s

/-! ## Atomics at their homes (R237, R241, R255, R279) -/

/-- R279: the new value, or none where the operation does not write. -/
def atomicOp (f w old x y : Nat) : Option Nat :=
  let m := 2 ^ w
  let sg := toIntBits w
  let half (t : Fmt) : Nat :=
    (t.add rne (old % 2 ^ 16) (x % 2 ^ 16)).1 + 2 ^ 16 * (t.add rne (old / 2 ^ 16 % 2 ^ 16) (x / 2 ^ 16 % 2 ^ 16)).1
  if f = 0 then some ((old + x) % m)
  else if f = 1 then some ((old + (m - x % m)) % m)
  else if f = 2 then some (if sg x < sg old then x else old)
  else if f = 3 then some (if sg old < sg x then x else old)
  else if f = 4 then some (min old x)
  else if f = 5 then some (max old x)
  else if f = 6 then some (Nat.land old x)
  else if f = 7 then some (Nat.lor old x)
  else if f = 8 then some (Nat.xor old x)
  else if f = 9 then some x
  else if f = 10 then (if old = x then some y else none)
  else if f = 11 then some ((if w = 64 then Fmt.fp64 else Fmt.fp32).add rne old x).1
  else if f = 12 then some (half .bf16)
  else if f = 13 then some (half .fp16)
  else if f = 14 then some (if x ≤ old then 0 else old + 1)
  else some (if old = 0 ∨ x < old then x else old - 1)

/-- The end of an atomic once its line holds the new bytes: visibility time, the release's record, the acquire, and the
old value on its way (R243, R245, R279). An operation at a Galord-form address (`away`) writes no record; one at a peer leaves the
surrender to it (R333, R334). -/
def State.atomicDone (s : State) (r : Req) (lane word : Nat) (away peer : Bool) (old : List Byte) : State :=
  let rcd := if peer then none else s.recordOf word
  let s := s.seen r.g r.w (s.ticksOf r.ctx)
  let s := if r.kind.ord.getLsbD 1 then
      let s := (s.setRelts r.g r.w r.rt).resave r.g r.w
      if away then s else s.record word r.core r.ctx r.rt
    else s
  if r.kind.ord.getLsbD 0 then s.acquireLane r lane word rcd old
  else s.deliverLane r lane old

/-- A lower lane of the unit's word names the same memory word: the same physical word, or by the same address one whose page is
still to be resolved (R237, R278). -/
def Req.lowerLane (r : Req) (lane pa : Nat) : Bool :=
  (List.range lane).any fun l => r.lanes.getLsbD l && !r.performedAt l &&
    (match r.pa.getD l none with | some q => q == pa | none => r.va.getD l 0 == r.va.getD lane 0)

/-- ATOMIC_AT_HOME (R237, R241, R255, R279): one lane of an atomic. A lower lane of the word that names the same memory
word goes first, and so do earlier stores of the core to it. The answer of a peer is an input of a DET context (R336). -/
def State.atomicHome (s : State) (id lane : Nat) : State :=
  match s.req? id with
  | none => s
  | some r =>
    if !r.kind.isAtomic || r.performedAt lane then s
    else match r.pa.getD lane none with
      | none => s
      | some pa =>
        let va := r.va.getD lane 0
        let s := s.placeEarlier r.g r.w va r.kind.bytes id
        let again := s.push .atomicAtHome { a := id, b := lane, due := s.nextDue r.ctx }
        if isGalord va && !s.isOwnPkg (galordPkg va) then
          let x := s.remoteRead 32 va (match r.kind with | .routine .. => 8 | k => k.bytes) false
          let y := x.1.detReply r.g r.w lane x.2
          y.1.atomicDone r lane 0 true true y.2
        else if r.lowerLane lane pa || s.atomicAhead r lane pa r.kind.bytes ||
            (r.kind.isAcquire && s.surrs.any fun x => x.var == some (pa / 4)) then again
        else
          let o := r.kind.operands lane
          let n := o.1 / 8
          let s := s.settleStores r.core pa n
          let s := s.captureFor r.g r.w lane pa n id r.isS
          let s := s.recallSpan pa n
          match s.homeBytes pa n with
          | none => s.accessStop r lane 8 .atomic
          | some bs =>
            let s := match atomicOp o.2.1 o.1 (leNat bs) o.2.2.1 o.2.2.2 with
              | some x => s.coreWrite r.core pa (leBytes n x)
              | none => (wordsOf pa n).foldl (fun s k => s.dropWord r.core k) s
            match s.req? id with
            | some r => s.atomicDone r lane (pa / 4) (isGalord va) false bs
            | none => s

/-- ATOMIC_AT_HOME. It brings the request and the lane. -/
def execAtomicAtHome (s : State) : Res := .next (s.atomicHome s.ev.a s.ev.b)

/-- A registered routine on a line that is already recalled: the new line, if it writes one, and result and status (R282).
DESIGN CHOICE (log 13). -/
def runLine (n call : Nat) (line : List Byte) (x y : Word) : Option (List Byte) × Nat × Nat :=
  match Config.routine n call line x y with
  | none => (none, 0, 1)
  | some none => (none, 0, 2)
  | some (some (nb, v)) => (some ((nb ++ line.drop nb.length).take 128), v.toNat, 0)

/-- A registered routine of a partition, run on one line by the service group of the home's wheel (R282): indivisible,
the line alone is touched; the lane's result and status land together. The result is an input of a DET context (R431). The lane's
earlier accesses of the line have been performed. DESIGN CHOICE (log 13). -/
def State.routineHome (s : State) (id lane : Nat) : State :=
  match s.req? id with
  | none => s
  | some r =>
    match r.kind, r.pa.getD lane none, s.group? r.g with
    | .routine n x y _, some pa, some gr =>
      if r.performedAt lane then s
      else
        let line := pa / 128 * 128
        let s := s.settleStores r.core line 128
        let s := (s.captureFor r.g r.w lane line 128 id false).recallSpan line 128
        match s.homeBytes line 128 with
        | none => s.accessStop r lane 8 .atomic
        | some bs =>
          let o := runLine n (if s.detCtx r.ctx then 0 else s.seq) bs (x.getD lane 0) (y.getD lane 0)
          -- an atomic leaves the issuing core no copy, whether the routine writes or not (R247)
          let s := match o.1 with
            | some nb => s.fresh.coreWrite r.core line nb
            | none => (wordsOf line 128).foldl (fun s w => s.dropWord r.core w) s.fresh
          let d := s.detInput gr.launch 6 (detWhere gr r.w lane) (BitVec.ofNat 64 (o.2.2 * 2 ^ 32 + o.2.1)) []
          match d.1.req? id with
          | some r => d.1.atomicDone r lane (pa / 4) (isGalord (r.va.getD lane 0)) false (leBytes 8 d.2.1.toNat)
          | none => d.1
    | _, _, _ => s

/-- The wave's earlier atomics on [pa, pa + n), a VATOMX in its service queue among them, take place now, in the order of their issue
and of their lanes, before a store or VATOMX of the wave that comes after them (R238): a plain store waits for none of them (R89,
R90). DEDUCED (log 22). -/
def State.settleAtomics (s : State) (g w pa n before : Nat) : State :=
  s.reqs.foldl (fun s x =>
    if x.g == g && x.w == w && decide (x.id < before) && x.kind.isAtomic then
      (List.range 32).foldl (fun s l =>
        if x.owes l pa n then (match x.kind with | .routine .. => s.routineHome x.id l | _ => s.atomicHome x.id l) else s) s
    else s) s

/-- A VATOMX lane whose turn in its service queue has come. -/
def State.runRoutine (s : State) (id lane : Nat) : State :=
  match s.req? id with
  | none => s
  | some r => match r.pa.getD lane none with
    | some pa =>
      let s := s.placeEarlier r.g r.w (r.va.getD lane 0) 4 id
      (s.settleAtomics r.g r.w (pa / 128 * 128) 128 id).routineHome id lane
    | none => s

/-! ## Stores -/

/-- A store that the core sends to a Galord-form address, or to a peer's scratchpad, has its visibility time when its
acknowledgement returns (R242, R332). `near` is 1 for a scratchpad. -/
def State.awaitAck (s : State) (i : Iss) (va : DWord) (sync : Bool) (near : Nat) : State :=
  ({ s.fresh with regq := s.regq ++ [⟨i.grp.core, va.toNat / 4, i.c.g, i.c.w, s.seq, sync, false⟩] } : State).push .registration
    { a := i.grp.core, b := va.toNat / 4 * 4, c := s.seq, d := near }

/-- What comes first when a lane of the wave stores to [pa, pa + n): its earlier loads of those bytes read, its earlier atomics on
them are performed (R238). -/
def State.beforeStore (s : State) (i : Iss) (lane : Nat) (va : DWord) (pa n : Nat) (isS : Bool) : State :=
  let s := s.placeEarlier i.c.g i.c.w va n s.seq
  let s := s.captureFor i.c.g i.c.w lane pa n s.seq isS
  s.settleAtomics i.c.g i.c.w pa n s.seq

/-- One lane's plain store reaches its place: the L1 with a registration (R239), or a home through a Galord-form address
(R332). -/
def State.storeLane (s : State) (i : Iss) (lane : Nat) (va : DWord) (t : Tgt) (isS : Bool) (bs : List Byte) : State :=
  match t with
  | .mem pa =>
    let s := s.beforeStore i lane va pa bs.length isS
    let owned := (wordsOf pa bs.length).all fun w => s.owns i.grp.core w
    let s := s.storeSpan i.grp.core i.grp.ctx i.c.g i.c.w pa bs
    let s := if s.detCtx i.grp.ctx then s.useLine i.grp.core i.grp.ctx pa else s
    if owned then s.seen i.c.g i.c.w (s.ticksOf i.grp.ctx) else s
  | .own pa =>
    let s := (s.beforeStore i lane va pa bs.length isS).settleStores i.grp.core pa bs.length
    (s.coreWrite i.grp.core pa bs).awaitAck i va false 0
  | .peer => (s.emit (.galord va 1 bs)).awaitAck i va false 0
  | _ => s

/-- One lane's store with ORD release (R243, R333): performed at the home; a remote variable keeps its record. -/
def State.releaseLane (s : State) (i : Iss) (lane : Nat) (va : DWord) (t : Tgt) (isS : Bool) (bs : List Byte) : State :=
  let hb := s.ticksOf i.grp.ctx
  let rt := i.wv.releaseTime hb
  let s := s.setRelts i.c.g i.c.w rt
  match t with
  | .mem pa =>
    let s := (s.beforeStore i lane va pa bs.length isS).settleStores i.grp.core pa bs.length
    ((s.coreWrite i.grp.core pa bs).record (pa / 4) i.grp.core i.grp.ctx rt).seen i.c.g i.c.w hb
  | .own pa =>
    let s := (s.beforeStore i lane va pa bs.length isS).settleStores i.grp.core pa bs.length
    (s.coreWrite i.grp.core pa bs).seen i.c.g i.c.w hb
  | .peer => (s.emit (.galord va 2 bs)).awaitAck i va true 0
  | _ => s

/-- The stores of a unit once every check has passed: lanes in ascending order, so that the highest lane's byte is the
one stored (R237). -/
def storeAll (release isS : Bool) (i : Iss) (data : Nat → List Byte) : List (Nat × DWord × Tgt) → State → State
  | [], s => s
  | (l, a, t) :: rest, s =>
    storeAll release isS i data rest
      (if release then s.releaseLane i l a t isS (data l) else s.storeLane i l a t isS (data l))

/-- The common course of VST and SST after their operands are read. -/
def storeUnit (stack isS : Bool) (n : Nat) (las : List (Nat × DWord)) (data : Nat → List Byte) (s sp : State) (i : Iss) : UEnd :=
  match s.memFault i .store stack n las with
  | some e => e
  | none => match s.locateAll i .store n las [] with
    | .bad s => .over_ s
    | .ok s' ts => match s'.holdFault i .store ts with
      | some e => e
      | none =>
        match sp.locateAll i .store n las [] with
        | .bad s => .over_ s
        | .ok sp _ => .ok (storeAll (i.c.order.getLsbD 1) isS i data ts sp)

/-- R276: bytes and data registers of a store's fn. -/
def storeForm (f : Nat) : Nat × Nat := if f = 0 then (1, 1) else if f = 2 then (2, 1) else if f = 4 then (4, 1) else if f = 5 then (8, 2) else (16, 4)

/-- The low n bytes of a lane's data registers. -/
def laneData (v : Wave) (d span n l : Nat) : List Byte :=
  ((List.range span).flatMap fun k => leBytes 4 ((v.vreg (d + k)).lane l).toNat).take n

/-- R273, R276; R270 for the base register S31. -/
def execVst (d a : BitVec 7) (sr : BitVec 5) (k : BitVec 2) (f : BitVec 4) (s : State) : Res :=
  let fm := storeForm f.toNat
  memWord { imm := true, ord := [0, 2] } d.toNat a.toNat (fun i d a => vmLegal i d a sr.toNat fm.2 false)
    (fun d a =>
      let srcs := vmSrcs a sr.toNat ++ [⟨3, false, d, fm.2, .bit, false⟩]
      checkedUnit srcs [] fun s i =>
        let rel := i.c.order.getLsbD 1
        match s.accessWait i.c.g i.c.w rel rel with
        | some x => .wait s x
        | none =>
          let sp := s.popPorts i srcs
          let v := sp.waveNow i
          storeUnit (sr == 31) false fm.1 ((lanesOf i.fr.live).map fun l => (l, vmAddr i.c v a sr.toNat k.toNat l))
            (laneData v d fm.2 fm.1) s sp i) s

/-- R273, R277. -/
def execSst (d a : BitVec 7) (imm8 : BitVec 8) (w : BitVec 3) (s : State) : Res :=
  let fm := smForm w.toNat
  memWord { imm := true, ord := [0, 2] } d.toNat a.toNat (fun i d a => smLegal i d a imm8.toNat)
    (fun d a => checkedUnit [⟨0, true, a, 1, .bit, false⟩, ⟨3, true, d, 1, .bit, false⟩] [] fun s i =>
      let rel := i.c.order.getLsbD 1
      match s.accessWait i.c.g i.c.w rel rel with
      | some x => .wait s x
      | none => storeUnit (a == 31) true fm.1 [(0, smAddr i.c i.wv a imm8.toNat fm.1)]
          (fun _ => leBytes fm.1 (i.wv.sreg d).val.toNat) s s i) s

/-- An arrival at a peer's barrier is acknowledged: one that took a retransmission was a transient failure (R342), and NPOST's lets
its command complete (R344). -/
def State.sendAcked (s : State) (x : Send) : State :=
  let s := if x.retry = 0 then s
    else s.logError ⟨0, match s.partOf x.ctx with | some p => p.n | none => 31, 1, 3, 0, s.hbeatOf x.ctx⟩
  match x.cmd with
  | some c => s.pushNew [⟨.networkCommandComplete, { a := c }⟩]
  | none => s

/-- A borrower has dropped an object's lines; when all have, the status that waits for it fills (R353). -/
def State.recallAcked (s : State) (r : Recall) : State :=
  let s := { s with recalls := s.recalls.filter fun x => x.num != r.num }
  if r.fill = 0 || s.recalls.any (fun x => x.fill == r.fill) then s else s.pushNew [⟨.shapeStatusFill, { a := r.fill }⟩]

/-- REGISTRATION (R239, R332): a store's registration is recorded, or the acknowledgement of a store, an arrival or an invalidation
elsewhere returns. It brings the core, the address, and for a store that awaits its acknowledgement its number. -/
def execRegistration (s : State) : Res :=
  if s.ev.c = 0 then .next (s.register s.ev.a (s.ev.b / 4))
  else
    let mine : Reg → Bool := fun r => r.id == s.ev.c && r.id != 0
    let s' := { s with regq := s.regq.filter fun r => !mine r, sends := s.sends.filter fun x => x.id != s.ev.c }
    let s' := (s.sends.filter fun x => x.id == s.ev.c).foldl (fun s x => s.sendAcked x) s'
    let s' := (s.recalls.filter fun x => x.num == s.ev.c).foldl (fun s x => s.recallAcked x) s'
    .next ((s.regq.filter mine).foldl (fun s r => match s.group? r.g with
      | some gr => s.seen r.g r.w (s.ticksOf gr.ctx)
      | none => s) s')

/-! ## The window (R271, R272) -/

/-- What a window address names. -/
inductive Win where
  | bad
  | pad (g off : Nat)
  | peer (g off : Nat)
  | vreg (n lane byte : Nat)
  | sreg (n byte : Nat)
  deriving DecidableEq, Repr

/-- R271: bits [63:62] are ignored and [61:32] required to be zero. -/
def State.window (s : State) (i : Iss) (va : DWord) (n : Nat) : Win :=
  let a := va.toNat % 2 ^ 62
  let kind := a / 2 ^ 28
  let rank := a / 2 ^ 24 % 16
  let off := a % 2 ^ 20
  if 2 ^ 32 ≤ a ∨ a / 2 ^ 20 % 16 ≠ 0 ∨ (kind ≠ 2 ∧ rank ≠ 0) then .bad
  else if kind = 0 then (if off + n ≤ i.grp.padSize then .pad i.c.g off else .bad)
  else if kind = 1 then
    if off < 16384 then (if off + n ≤ 128 * i.wv.vcount then .vreg (off / 128) (off % 128 / 4) (off % 4) else .bad)
    else (if off + n ≤ 16384 + 8 * i.wv.scount then .sreg ((off - 16384) / 8) (off % 8) else .bad)
  else if kind = 2 then
    match s.peer? i.grp rank with
    | some p => if off + n ≤ p.padSize then .peer p.g off else .bad
    | none => .bad
  else .bad

/-- The registers that n bytes of the register window touch. -/
def Win.regs (w : Win) (n : Nat) : List (Bool × Nat) :=
  match w with
  | .vreg r _ _ => [(false, r)]
  | .sreg r b => (List.range ((b + n + 7) / 8)).map fun k => (true, r + k)
  | _ => []

/-- A byte of the register window (R272). -/
def Wave.winByte (v : Wave) (w : Win) (k : Nat) : Byte :=
  match w with
  | .vreg r l b => if (v.port? r).isSome then 0 else byteOf ((v.vreg r).lane (l + (b + k) / 4)) ((b + k) % 4)
  | .sreg r b => BitVec.ofNat 8 ((v.sreg (r + (b + k) / 8)).val.toNat / 2 ^ (8 * ((b + k) % 8)))
  | _ => 0

/-- Write bytes through the register window (R140, R272): tag RAW, full. DEDUCED (log 23). -/
def Wave.winWrite (v : Wave) (w : Win) (bs : List Byte) : Wave :=
  let rec go (v : Wave) (k : Nat) : List Byte → Wave
    | [] => v
    | b :: bs =>
      let v := match w with
        | .vreg r l j =>
          if (v.port? r).isSome then v
          else
            let x := v.vreg r
            let q := l + (j + k) / 4
            { v with vregs := v.vregs.set r { lanes := x.lanes.set q (setByte (x.lane q) ((j + k) % 4) b), tag := 0, pend := 0 } }
        | .sreg r j =>
          let n := r + (j + k) / 8
          let p := 8 * ((j + k) % 8)
          let x := (v.sreg n).val.toNat
          v.setS n (BitVec.ofNat 64 (x - x / 2 ^ p % 256 * 2 ^ p + b.toNat * 2 ^ p)) 0
        | _ => v
      go v (k + 1) bs
  go v 0 bs

/-- R271: the lanes whose window address is refused. -/
def State.winFault (s : State) (i : Iss) (n : Nat) (las : List (Nat × DWord)) : Option UEnd :=
  let bad := fun (a : DWord) => a.toNat % n != 0 || s.window i a n == .bad
  match las.find? fun x => bad x.2 with
  | some x => some (.trap s 0x08 x.2 (BitVec.ofNat 64 (failMask las bad)))
  | none => none

/-- Row 4 of R269 for the scratchpads a window word touches. -/
def State.winLock (s : State) (i : Iss) (write : Bool) (n : Nat) (las : List (Nat × DWord)) : Option UEnd :=
  (las.findSome? fun x => match s.window i x.2 n with
    | .pad g off | .peer g off => (s.lockAt i.grp.ctx (some g) write off n).map fun h =>
        (x.2 + BitVec.ofNat 64 (h.1 - off), lockInfo h.2)
    | _ => none).map fun t => .trap s 0x06 t.1 t.2

/-- Some lane's window address is a location; a register is none, and an ORD on such an access orders nothing (R242, R272). -/
def State.winMem (s : State) (i : Iss) (n : Nat) (las : List (Nat × DWord)) : Bool :=
  las.any fun x => match s.window i x.2 n with | .pad .. | .peer .. => true | _ => false

/-- Bytes a lane reads at once through the window. -/
def State.winRead (s : State) (v : Wave) (w : Win) (n : Nat) : List Byte :=
  match w with
  | .pad g off | .peer g off => match s.group? g with | some gr => gr.padBytes off n | none => leBytes n 0
  | _ => (List.range n).map (v.winByte w)

/-- A register that an access through the register window needs and that is not full (R139, R272). -/
def winEmpty (v : Wave) (n : Nat) (ws : List Win) : Option (Bool × Nat) :=
  (ws.flatMap fun w => w.regs n).find? fun q => if q.1 then !(v.sreg q.2).full else (v.port? q.2).isNone && (v.vreg q.2).pend != 0

/-- A VLDP of KIND 2, or shaped with SPACE 2: a request whose destinations are empty until each lane lands (R137, R274).
`taken` has the lanes whose bytes the unit reads as it issues. -/
def peerRequest (i : Iss) (kind : ReqKind) (d span : Nat) (tag : BitVec 4) (offs : List (Nat × DWord × Nat))
    (taken : Nat → Option (List Byte)) (s sp : State) : UEnd :=
  if !s.missOk i.grp.core i.c.g i.c.w then .reject s
  else
    let ts := (lanesOf i.fr.live).map fun l => match offs.find? fun x => x.1 == l with
      | some (_, a, off) => (l, a, Tgt.mem off)
      | none => (l, (0 : DWord), Tgt.mem 0)
    .ok ((sp.missTake i).fileReq i kind false d span tag .load i.fr.live ts taken 0)

/-- VLDP whose addresses are formed: with a lane of KIND 2 the unit makes a request (R137), else it ends at once. -/
def windowLoad (i : Iss) (d span n : Nat) (sg acquire : Bool) (tag : BitVec 4) (las : List (Nat × DWord))
    (vals : List Byte → List Nat × List (BitVec 4)) (s sp : State) : UEnd :=
  let v := sp.waveNow i
  let wins := las.map fun x => (x.1, x.2, s.window i x.2 n)
  match winEmpty v n (wins.map fun x => x.2.2) with
  | some q => .wait s (.empty q.1 q.2)
  | none =>
    let read := fun l => match wins.find? fun x => x.1 == l with
      | some x => sp.winRead v x.2.2 n
      | none => leBytes n 0
    match wins.findSome? fun x => match x.2.2 with | .peer g _ => some g | _ => none with
    | some pg =>
      let offs := wins.map fun x => match x.2.2 with | .peer _ off => (x.1, x.2.1, off) | _ => (x.1, x.2.1, 0)
      -- one request for the unit: its lanes elsewhere are read as it issues
      let taken := fun l => match wins.find? fun x => x.1 == l with
        | some (_, _, .peer g _) => if g = pg then none else some (read l)
        | _ => some (read l)
      peerRequest i (.peer n sg pg acquire) d span tag offs taken s sp
    | none =>
      let sp := if acquire && s.winMem i n las then sp.invalidate i.grp.core else sp
      .ok (sp.updCur i fun w => (List.range span).foldl (fun w k =>
        w.writeV (d + k) i.fr.live ((vals (leBytes n 0)).2.getD k 0)
          ((List.range 32).map fun l => BitVec.ofNat 32 ((vals (read l)).1.getD k 0))) w)

/-- The window address of a byte of a scratchpad shape (R175, R275): of the own scratchpad, or of the peer's of rank RANK; one
that lies outside every window where the byte is outside the address range. -/
def Shape.window (r : Shape) (x : Int) : DWord :=
  BitVec.ofInt 64 x + BitVec.ofNat 64 (if 0 ≤ x ∧ x < 2 ^ 20 then (if r.space = 2 then 2 * 2 ^ 28 + r.rank * 2 ^ 24 else 0) else 2 ^ 40)

/-- The element bytes that each lane of a shaped VLDP reads: their window addresses (a PL8 element's planes are each one byte),
and what they say once read. -/
def Shape.padLanes (r : Shape) (co : Nat → Coord) (ins : List Nat) : Nat × List (Nat × DWord) :=
  if r.fmt = 11 then
    (1, ins.flatMap fun l => (List.range r.prec).map fun j => (l, r.window (r.planeAt (r.plIndex (co l)) (7 - j)).1))
  else (fmtBytes r.fmt, ins.map fun l => (l, r.window (r.addrOf (co l))))
def Shape.padValue (r : Shape) (co : Coord) (parts : List (List Byte)) : List Byte :=
  if r.fmt = 11 then planeValue (parts.map leNat) (r.planeAt (r.plIndex co) 0).2 else parts.flatten

/-- The pair that an FP64 element fills starts at an even register and both are legal destinations, in every repetition of the unit
(R33, R40, R275). -/
def pairsOk (i : Iss) (d0 : Nat) : Bool :=
  (List.range i.c.count).all fun k =>
    let d := (repField i.c k d0 0 0).1
    d % 2 = 0 && vDst i.wv (d + 1)

/-- VLDP.shaped (R275): SPACE 1 ends at once, SPACE 2 as an access of KIND 2 does. `d0` is the d of the first repetition. -/
def shapedPad (d0 d a sr : Nat) (acquire : Bool) (s sp : State) (i : Iss) : UEnd :=
  let v := sp.waveNow i
  let r := s.shapeOf i.grp.ctx ((v.sreg sr).val.toNat % 256)
  if !shapedOk r true then .trap s 0x04 0 (shapeInfo 0 0 r.fmt)
  else
    let span := if r.fmt = 3 then 2 else 1
    if span = 2 && !pairsOk i d0 then .trap s 0x01 0 (i.c.word.setWidth 64)
    else match s.checkAll i i.wv [] (regSpan d span) with
      | .wait w => .wait s w
      | .trap c f => .trap s c 0 f
      | .go =>
        let co := fun l => shapedCoord i.c v a sr l
        let ins := (lanesOf i.fr.live).filter fun l => r.inside (co l)
        let q := r.padLanes co ins
        match s.winFault i q.1 q.2 with
        | some e => e
        | none => match s.accessWait i.c.g i.c.w acquire false with
          | some x => .wait s x
          | none => match s.winLock i false q.1 q.2 with
            | some e => e
            | none =>
              let bytes := fun l =>
                if !ins.contains l then leBytes (4 * span) 0
                else r.padValue (co l) ((q.2.filter fun x => x.1 == l).map fun x => sp.winRead v (s.window i x.2 q.1) q.1)
              if r.space = 2 then
                peerRequest i (.shaped r.fmt acquire) d span (deliverTag r.fmt) [] (fun l => some (bytes l)) s sp
              else
                let sp := if acquire then sp.invalidate i.grp.core else sp
                let vals := fun l =>
                  let y := deliver r.fmt (leNat (bytes l))
                  if r.fmt = 3 then [y.1 % 2 ^ 32, y.1 / 2 ^ 32] else [y.1]
                let tags := if r.fmt = 3 then [tFP64L, tFP64H] else [deliverTag r.fmt]
                .ok (sp.updCur i fun w => (List.range span).foldl (fun w j =>
                  w.writeV (d + j) i.fr.live (tags.getD j 0) ((List.range 32).map fun l => BitVec.ofNat 32 ((vals l).getD j 0))) w)

/-- R271 to R275. -/
def execVldp (d a : BitVec 7) (sr : BitVec 5) (k : BitVec 2) (f : BitVec 4) (s : State) : Res :=
  let fm := loadForm f.toNat
  let span := if f = 7 then 1 else fm.2.2
  memWord { imm := true, ord := [0, 1], rep := some (true, true, false) } d.toNat a.toNat
    (fun i d a => (f != 7 || k = 0) && vmLegal i d a sr.toNat span true)
    (fun d' a =>
      checkedUnit (vmSrcs a sr.toNat) (regSpan d' span) fun s i =>
        let acquire := i.c.order.getLsbD 0
        let sp := s.popPorts i (vmSrcs a sr.toNat)
        let v := sp.waveNow i
        if f = 7 then shapedPad d.toNat d' a sr.toNat acquire s sp i
        else
          let las := (lanesOf i.fr.live).map fun l => (l, vmAddr i.c v a sr.toNat k.toNat l)
          match (if s.winMem i fm.1 las then s.accessWait i.c.g i.c.w acquire false else none) with
          | some x => .wait s x
          | none => match s.winFault i fm.1 las with
            | some e => e
            | none => match s.winLock i false fm.1 las with
              | some e => e
              | none =>
                let vals := fun (bs : List Byte) =>
                  if fm.2.2 = 1 then ([extend fm.2.1 32 bs], [tRAW])
                  else ((List.range fm.2.2).map fun j => leNat ((bs.drop (4 * j)).take 4), List.replicate fm.2.2 tRAW)
                windowLoad i d' fm.2.2 fm.1 fm.2.1 acquire tRAW las vals s sp) s

/-- One lane's store through the window (R242, R272): in place, and for KIND 2 with an acknowledgement to come. -/
def State.winStore (s : State) (i : Iss) (va : DWord) (w : Win) (bs : List Byte) : State :=
  match w with
  | .pad g off => (s.padWrite g off bs).seen i.c.g i.c.w (s.ticksOf i.grp.ctx)
  | .peer g off => (s.padWrite g off bs).awaitAck i va false 1
  | w => s.updCur i fun y => y.winWrite w bs

/-- The wave's earlier loads still in flight to a scratchpad read now, before a store of the wave (R238). -/
def State.capturePads (s : State) (g w : Nat) : State :=
  { s with reqs := s.reqs.map fun r => match r.kind with
      | .peer b _ pg _ =>
        if r.g == g && r.w == w then
          { r with captured := (List.range 32).map fun l => match r.captured.getD l none, r.pa.getD l none with
              | none, some off => if r.lanes.getLsbD l then
                  some (match s.group? pg with | some gr => gr.padBytes off b | none => []) else none
              | c, _ => c }
        else r
      | _ => r }

/-- R271, R272, R276: lanes in ascending order. DEDUCED (log 23). -/
def execVstp (d a : BitVec 7) (sr : BitVec 5) (k : BitVec 2) (f : BitVec 4) (s : State) : Res :=
  let fm := storeForm f.toNat
  memWord { imm := true, ord := [0, 2], rep := some (true, true, false) } d.toNat a.toNat
    (fun i d a => vmLegal i d a sr.toNat fm.2 false)
    (fun d a =>
      let srcs := vmSrcs a sr.toNat ++ [⟨3, false, d, fm.2, .bit, false⟩]
      checkedUnit srcs [] fun s i =>
        let sp := s.popPorts i srcs
        let v := sp.waveNow i
        let las := (lanesOf i.fr.live).map fun l => (l, vmAddr i.c v a sr.toNat k.toNat l)
        let mem := s.winMem i fm.1 las
        let rel := i.c.order.getLsbD 1 && mem
        match (if mem then s.accessWait i.c.g i.c.w rel rel else none) with
        | some x => .wait s x
        | none => match s.winFault i fm.1 las with
          | some e => e
          | none => match s.winLock i true fm.1 las with
            | some e => e
            | none =>
              let wins := las.map fun x => (x.1, x.2, s.window i x.2 fm.1)
              match winEmpty v fm.1 (wins.map fun x => x.2.2) with
              | some q => .wait s (.empty q.1 q.2)
              | none =>
                let sp := if mem then sp.capturePads i.c.g i.c.w else sp
                let sp := wins.foldl (fun s x => s.winStore i x.2.1 x.2.2 (laneData v d fm.2 fm.1 x.1)) sp
                .ok (if rel then sp.setRelts i.c.g i.c.w (i.wv.releaseTime (s.ticksOf i.grp.ctx)) else sp)) s

/-! ## Atomics (R278 to R282) -/

/-- R279 and R281: reader of x and result tag of an operation, at 32 or 64 bits. -/
def atomicReader (f : Nat) (wide : Bool) : Reader × BitVec 4 :=
  if f ≤ 5 ∨ f = 14 ∨ f = 15 then (if wide then (.int64, tI64) else (.int, tI32))
  else if f = 11 then (if wide then (.fp64, tFP64H) else (.fp32, tFP32))
  else if f = 12 then (.bf16x2, tBF16) else if f = 13 then (.fp16x2, tFP16) else (.bit, tRAW)

/-- The lane values of one source, converted on read (R134), with the flags its conversion raises. -/
def srcWords (v : Wave) (src : Src) : List Word := (readSrc v src).1.map (BitVec.ofNat 32)

/-- VATOM and VRED after their operand checks. -/
def atomicUnit (f : Nat) (returns : Bool) (sr k d a : Nat) (s : State) (i : Iss) : UEnd :=
  let rdr := (atomicReader f false).1
  let cas := f = 10
  let xs : Src := ⟨3, false, d, 1, rdr, false⟩
  let srcs := vmSrcs a sr ++ [xs] ++ (if cas then [⟨3, false, d + 1, 1, .bit, false⟩] else [])
  checkedUnit srcs (if returns then regSpan d 1 else []) (fun s i =>
    let o := i.c.order
    match s.atomicWait i.c.g i.c.w o with
    | some x => .wait s x
    | none =>
      let sp := s.popPorts i srcs
      let v := s.portView i (s.waveNow i) srcs
      let las := (lanesOf i.fr.live).map fun l => (l, vmAddr i.c v a sr k l)
      match s.memFault i .atomic false 4 las with
      | some e => e
      | none =>
        if !s.missOk i.grp.core i.c.g i.c.w then .reject s
        else match sp.locateAll i .atomic 4 las [] with
          | .bad s => .over_ s
          | .ok sp ts =>
            let x := srcWords v xs
            let y := if cas then (List.range 32).map ((v.vreg (d + 1)).lane) else []
            let cf := orLanes i.fr.live (readSrc v xs).2
            let sp := sp.updCur i fun w => { w with regs := { w.regs with fpflags := w.regs.fpflags ||| cf } }
            .ok ((sp.missTake i).fileReq i (.atomic f x y o returns) false d (if returns then 1 else 0) (atomicReader f false).2
              .atomic i.fr.live ts (fun _ => none) (v.releaseTime (s.ticksOf i.grp.ctx)))) s i

/-- R278, R279. -/
def execVatom (d a : BitVec 7) (sr : BitVec 5) (k : BitVec 2) (f : BitVec 4) (s : State) : Res :=
  memWord { imm := true, ord := [0, 1, 2, 3] } d.toNat a.toNat
    (fun i d a => vmLegal i d a sr.toNat 1 true && (f != 10 || (groupOk 2 d && vOk i.wv (d + 1))))
    (fun d a => atomicUnit f.toNat true sr.toNat k.toNat d a) s

/-- R280. -/
def execVred (d a : BitVec 7) (sr : BitVec 5) (k : BitVec 2) (f : BitVec 4) (s : State) : Res :=
  memWord { imm := true, ord := [0, 2] } d.toNat a.toNat (fun i d a => vmLegal i d a sr.toNat 1 false)
    (fun d a => atomicUnit f.toNat false sr.toNat k.toNat d a) s

/-- R278, R281. -/
def execSatom (d a b : BitVec 7) (f : BitVec 4) (s : State) : Res :=
  let rdr := atomicReader f.toNat true
  memWord { ord := [0, 1, 2, 3] } d.toNat a.toNat
    (fun i d a => sOk i.wv d && sOk i.wv a && sOk i.wv b.toNat)
    (fun d a =>
      let bs : Src := ⟨1, true, b.toNat, 1, if f = 10 then .bit else rdr.1, false⟩
      let srcs : List Src := [⟨0, true, a, 1, .bit, false⟩, bs] ++ (if f = 10 then [⟨3, true, d, 1, .bit, false⟩] else [])
      checkedUnit srcs [(true, d)] fun s i =>
        let o := i.c.order
        match s.atomicWait i.c.g i.c.w o with
        | some x => .wait s x
        | none =>
          let las := [(0, (i.wv.sreg a).val)]
          match s.memFault i .atomic false 8 las with
          | some e => e
          | none =>
            if !s.missOk i.grp.core i.c.g i.c.w then .reject s
            else match s.locateAll i .atomic 8 las [] with
              | .bad s => .over_ s
              | .ok s ts =>
                let rb := readSrc i.wv bs
                let vb : DWord := BitVec.ofNat 64 (rb.1.getD 0 0)
                let vd := (i.wv.sreg d).val
                let s := s.updCur i fun w => { w with regs := { w.regs with fpflags := w.regs.fpflags ||| rb.2.getD 0 0 } }
                .ok ((s.missTake i).fileReq i (.atomic64 f.toNat (if f = 10 then vd else vb) vb o) true d 1 rdr.2 .atomic 1 ts
                  (fun _ => none) (i.wv.releaseTime (s.ticksOf i.grp.ctx)))) s

/-- R85, R86: records of a partition on a wheel's service queue. -/
def State.svcCount (s : State) (wheel part : Nat) : Nat :=
  (s.svc.filter fun r => r.wheel == wheel && r.part == part && !r.taken).length

/-- Records that a wheel's service group has answered for a partition (R411). -/
def State.svcAnswered (s : State) (wheel part : Nat) : Nat :=
  match s.svcDone.find? fun x => x.1 == wheel && x.2.1 == part with | some x => x.2.2 | none => 0

/-- The wheel of a lane's home (R14, R282). -/
def State.homeWheel (s : State) (ctx pa : Nat) : Nat := wheelOf (wedgeOf (s.homeCore ctx pa))

/-- Where a VATOMX lane queues: the wheel of its home and the partition whose routines run (R282, R336): the caller's, or at a
Galord-form address of this module the one that holds the memory. A peer's lane leaves the module. -/
def State.routinePlace (s : State) (ctx : Nat) (t : Tgt) : Option (Nat × Nat) :=
  match t with
  | .mem pa => some (s.homeWheel ctx pa, match s.partOf ctx with | some p => p.n | none => 0)
  | .own pa => (s.parts.find? fun p => s.reaches p pa).map fun p => (wheelOf (wedgeOf (s.homeOfPart p pa)), p.n)
  | _ => none

/-- Rows 1 to 6 of R269 for VATOMX. Rows 4 and 5 look at the lane's 4-byte word, as for another atomic; row 6 at the whole line, which
the routine may write (R256, R282). DESIGN CHOICE (log 24). -/
def State.routineFault (s : State) (i : Iss) (las : List (Nat × DWord)) : Option UEnd :=
  match s.memFault i .atomic false 4 las with
  | some e => some e
  | none => (s.immutAt i.grp.ctx 128 (las.map fun x => (x.1, x.2 &&& ~~~127))).map fun a => .over_ (s.violate i a 7 0 0 .atomic 0)

/-- R278, R282: each lane's request goes to the service queue of its home's wheel; a full queue holds the unit. -/
def execVatomx (d a : BitVec 7) (sr : BitVec 5) (k : BitVec 2) (n : BitVec 4) (s : State) : Res :=
  memWord { imm := true, ord := [0, 1, 2, 3] } d.toNat a.toNat
    (fun i d a => vmLegal i d a sr.toNat 2 true)
    (fun d a =>
      let srcs := vmSrcs a sr.toNat ++ [⟨3, false, d, 2, .bit, false⟩]
      checkedUnit srcs (regSpan d 2) fun s i =>
        let o := i.c.order
        match s.atomicWait i.c.g i.c.w o with
        | some x => .wait s x
        | none =>
          let sp := s.popPorts i srcs
          let v := sp.waveNow i
          let las := (lanesOf i.fr.live).map fun l => (l, vmAddr i.c v a sr.toNat k.toNat l)
          match s.routineFault i las with
          | some e => e
          | none => match s.locateAll i .atomic 4 las [] with
            | .bad s => .over_ s
            | .ok s' ts => match s'.holdFault i .atomic ts with
              | some e => e
              | none =>
                let places := ts.filterMap fun t => s'.routinePlace i.grp.ctx t.2.2
                match places.find? fun w => decide (256 < s.svcCount w.1 w.2 + (places.filter (· == w)).length) with
                | some w => .wait s' (.serviceSlot w.1)
                | none =>
                  if !s.missOk i.grp.core i.c.g i.c.w then .reject s
                  else match sp.locateAll i .atomic 4 las [] with
                    | .bad s => .over_ s
                    | .ok sp _ =>
                      let x := (List.range 32).map ((v.vreg d).lane)
                      let y := (List.range 32).map ((v.vreg (d + 1)).lane)
                      let id := sp.seq
                      let sp := (sp.missTake i).fileReq i (.routine n.toNat x y o) false d 2 tRAW .atomic i.fr.live
                        ts (fun _ => none) (v.releaseTime (s.ticksOf i.grp.ctx))
                      .ok (ts.foldl (fun s t => match s.routinePlace i.grp.ctx t.2.2 with
                        | some w =>
                          let q : SvcRec :=
                            { id := s.seq, wheel := w.1, part := w.2, ctx := i.grp.ctx, g := i.c.g, w := i.c.w
                              lanes := BitVec.ofNat 32 (2 ^ t.1), dst := some d, service := BitVec.ofNat 64 id, args := []
                              queuedAt := 0, taken := false, req := some (id, t.1), due := s.vclockOf i.grp.ctx + 65536 }
                          ({ s.fresh with svc := s.svc ++ [q] } : State).push .serviceBatch { a := w.1 }
                        | none => s) sp)) s

/-- A VATOMX that a peer sent (R336), run by the service group of its home's wheel; the answer, which is the result and the status,
goes to the peer. One that acquires surrenders the last releaser first (R333). A line that fails its check is logged (R15, R388). The
line's new bytes are an input of the partition's DET contexts (R431). DESIGN CHOICE (log 13). -/
def State.remoteRoutine (s : State) (part pkg pa ipa : Nat) (ops : List Byte) : State :=
  let line := pa / 128 * 128
  let word (k : Nat) : Word := BitVec.ofNat 32 (leNat ((ops.drop k).take 4))
  let s := (if leNat ((ops.drop 9).take 1) % 2 = 1 then s.peerAcquire (pa / 4) else s).recallSpan line 128
  match s.homeBytes line 128 with
  | none => (s.logRemote part (s.ownVa ipa) 8 0 ipa .atomic).emit (.remote pkg 1 [])
  | some old =>
    let o := runLine (leNat (ops.take 1) % 16) s.seq old (word 1) (word 5)
    let s := match o.1 with
      | some nb => (s.fresh.homeWrite line nb).detNote part 2 (s.ownVa (ipa / 128 * 128)) 0 nb
      | none => s.fresh
    s.emit (.remote pkg 0 (leBytes 4 o.2.1 ++ leBytes 4 o.2.2))

/-! ## VPREF (R283) -/

/-- The hint of one lane, where the address would not fault and touches no range that a load would find locked, which a LOCK-SRC
entry is not: fn 0 fills the L1, 1 the home, which
holds its line already, 2 makes the line the first to be replaced, 3 fills the borrow cache. How much of a hint is taken is open
(R240). DESIGN CHOICE (log 9). -/
def State.prefetch (s : State) (i : Iss) (f : Nat) (va : DWord) : State :=
  let core := i.grp.core
  let ctx := i.grp.ctx
  let det := s.detCtx ctx
  if isGalord va then
    (match s.partOf ctx with
    | some p => if f = 3 && !s.isOwnPkg (galordPkg va) && s.top.pkgid.isSome && s.hasLink p.n then
        ((s.emit (.galord va 0 (leBytes 1 1))).remoteRead p.n va 1 true).1 else s
    | none => s)
  else if !canonical va || (s.lockAt ctx none false va.toNat 1).isSome then s
  else match (s.translate core ctx va.toNat .load).2 with
    | .ok pa _ =>
      if (s.homeByte pa).isNone then s
      else if f = 0 then
        let s := s.fresh.fillLine core ctx pa det
        if det then s.useLine core ctx pa else s
      else if f = 2 then
        let mine (e : L1Word) : Bool := e.core == core && e.ctx == ctx && e.word / 32 == pa / 128
        if det then { s with l1 := s.l1.filter mine ++ s.l1.filter fun e => !mine e }
        else if Config.l1Keep s.seq = 0 then { s.fresh with l1 := s.l1.filter fun e => !(mine e && !e.own && e.dm == 0) }
        else s.fresh
      else s
    | _ => s

/-- A hint: no register, memory or ordering changes, and an address that would fault drops it. -/
def execVpref (a : BitVec 7) (sr : BitVec 5) (k : BitVec 2) (f : BitVec 4) (s : State) : Res :=
  s.issue { imm := true } (fun i => vOk i.wv a.toNat && sOk i.wv sr.toNat) false (vmSrcs a.toNat sr.toNat) [] fun i =>
    let sp := s.popPorts i (vmSrcs a.toNat sr.toNat)
    let v := sp.waveNow i
    .next (((lanesOf i.fr.live).foldl (fun s l => s.prefetch i f.toNat (vmAddr i.c v a.toNat sr.toNat k.toNat l)) sp).retire i)

/-! ## Surrenders and faults -/

/-- SURRENDER (R245). It brings the surrender. -/
def execSurrender (s : State) : Res := .next (s.surrenderNow s.ev.a)
/-- SURRENDER_COMPLETE (R245). It brings the surrender. -/
def execSurrenderComplete (s : State) : Res := .next (s.surrenderDone s.ev.a)

/-- The unit of a fragment that a page fault holds. -/
def fragPc (s : State) (f : PageFault) : DWord :=
  match f.frag.bind fun x => (s.wave? x.1 x.2.1).bind fun v => v.frag? x.2.2 with
  | some fr => fr.pc
  | none => 0

/-- PAGE_FAULT_RESOLUTION (R386): the service group writes a valid entry and the walk restarts; without one the access
fails with kind 10. The entry is the firmware's to choose. It brings the fault. DESIGN CHOICE (log 16). -/
def State.resolveFault (s : State) (id : Nat) : State :=
  match s.faults.find? fun f => f.id == id with
  | none => s
  | some f =>
    -- an entry that has become valid meanwhile stays, and the walk restarts (R382)
    let now := (s.entryAt f.entry.pa).getD 0
    let entry := if ebit now 0 then now else Config.resolvedEntry f.entry.pa id % 2 ^ 64
    let s := { s with faults := s.faults.filter fun x => x.id != id }
    let logIt (s : State) (k l ipa : Nat) : State × DWord := s.logAccess f.ctx f.va k l ipa f.acc
    let fail (s : State) (k l ipa : Nat) : State :=
      if !f.retry.isEmpty then s.pushFront (f.retry.map fun e => { e with args :=
          { e.args with f := 1, lv := l, ipa := ipa, va := f.va.toNat, failed := true } })
      else match f.cmd.bind s.cmd? with
      | some c => (logIt s k l ipa).1.cmdStop c 0x20 f.va (logIt s k l ipa).2
      | none =>
        let gr := match f.req.bind fun r => s.req? r.1 with
          | some r => s.group? r.g
          | none => f.frag.bind fun x => s.group? x.1
        let launch := gr.map (·.launch)
        -- an access of a core's unit is its core's cause (R411)
        let who : StopRec := { cause := 0x20, engine := 8, unit := gr.elim 0xFFFF Group.core, addr := 0, detail := 0
                               group := gr.elim 0xFFFF fun g => s.saveSlot g.g, pc := fragPc s f }
        (logIt s k l ipa).1.raiseStop f.ctx launch { who with cause := 0x20, addr := f.va, detail := (logIt s k l ipa).2 }
    if !ebit entry 0 then fail s 10 f.entry.level f.entry.ipa
    else
      let s := if entry = now then s else s.homeWrite f.entry.pa (leBytes 8 entry)
      match f.req with
      | none => match f.cmd.bind s.cmd? with
        | some c => s.pushAll [c.kick]
        | none => s.pushFront f.retry
      | some (rid, lane) => match s.req? rid with
        | none => s
        | some r =>
          if (r.pa.getD lane none).isSome then s
          else match s.reach ((s.group? r.g).bind s.actsFor) r.core r.ctx f.va (if r.kind.isAtomic then .atomic else .load) r.kind.bytes with
          | (s, .mem pa) | (s, .own pa) =>
            let s := s.updReq rid fun r => { r with pa := r.pa.set lane (some pa) }
            (match r.kind.event false with
            | some what => s.push what { a := rid, b := lane }
            | none => s)
          | (s, .viol k l ipa) => fail s k l ipa
          | (s, .resolvable e) =>
            ((s.fileFault f.ctx f.va (if r.kind.isAtomic then .atomic else .load) e (some (rid, lane)) none).1)
          | (s, .peer) => s

/-- PAGE_FAULT_RESOLUTION. DESIGN CHOICE (log 16). -/
def execPageFaultResolution (s : State) : Res := .next (s.resolveFault s.ev.a)

end Sys2Proof.Machine
end

