-- ==== Sys2Proof/Machine/Barriers.lean ====
section
/-! DEFINITION. The barrier words (R288 to R295), the ordering words (R296 to R298), and the notification of waiters. -/

namespace Sys2Proof.Machine

open Host

/-! ## Barrier words -/

/-- A barrier word's operands are read; the access waits of R247 and R243 and the address of R286 come next. A word that changes the
barrier's bytes, its watch count among them, writes no IMMUTABLE object (R256). -/
def withBar (s : State) (i : Iss) (sync rel peer : Bool) (va : DWord) (k : State → Bar → Res) (writes : Bool := true) : Res :=
  match s.accessWait i.c.g i.c.w sync rel with
  | some w => .next (s.block i w)
  | none => match s.barAt i.grp.core i.grp.ctx i.grp peer va with
    | .bad => .next (s.trap i 0x08 va (i.fr.live.setWidth 64))
    | .viol s kd l ipa => .next (s.violate i va kd l ipa .atomic 0)
    | .fault s e =>
      let r := s.fileFault i.grp.ctx va .atomic e none (some (i.c.g, i.c.w, i.c.f))
      .next (r.1.block i (.fault r.2))
    | .ok s b => match s.barRead b with
      | none => .next (s.violate i va 8 0 0 .atomic 0)
      | some _ => if writes && s.barImmutable i.grp.ctx b then .next (s.violate i va 7 0 0 .atomic 0) else k s b

/-- The barrier's words, which `withBar` has found readable. -/
def State.barNow (s : State) (b : Bar) : BarWords := (s.barRead b).getD ⟨0, 0, 0, 0, false, 0⟩

/-- The barrier's words as a word observes them. Those of a remote barrier are asked of its home (R286); the answer is an input
of a DET context (R336, R431). -/
def State.barObserve (s : State) (i : Iss) (b : Bar) : State × BarWords :=
  let w := s.barNow b
  match b with
  | .remote va =>
    let x := w.phase.toNat + (if w.err then 2 ^ 32 else 0)
    let d := (s.fresh.emit (.galord va 5 (barPacket 4 0))).detInput i.grp.launch 4 (detWhere i.grp i.c.w 0) (BitVec.ofNat 64 x) []
    (d.1, { w with phase := d.2.1.setWidth 32, err := d.2.1.getLsbD 32 })
  | _ => (s, w)

/-- A synchronising barrier word at a remote home is performed when its acknowledgement returns (R334, R247). -/
def State.barAcked (s : State) (i : Iss) (b : Bar) : State :=
  match b with
  | .remote va =>
    ({ s.fresh with regq := s.regq ++ [⟨i.grp.core, va.toNat / 4, i.c.g, i.c.w, s.seq, true, false⟩] } : State).push .registration
      { a := i.grp.core, b := va.toNat, c := s.seq }
  | _ => s

/-- RELTS of a release that the word performs (R243). -/
def State.released (s : State) (i : Iss) : State := s.setRelts i.c.g i.c.w (i.wv.releaseTime (s.ticksOf i.grp.ctx))

/-- R289. -/
def execBinit (a b : BitVec 7) (s : State) : Res :=
  s.issue {} (fun i => sOk i.wv a.toNat && sOk i.wv b.toNat) true (sSrcs [(0, a.toNat), (1, b.toNat)]) [] fun i =>
    let x := (i.wv.sreg b.toNat).val
    if x.setWidth 16 = 0 then .next (s.illegal i)
    else withBar s i true true false (i.wv.sreg a.toNat).val fun s bar =>
      let s := s.barUpdate bar (fun w => w.init ((x >>> 32).setWidth 32) (x.setWidth 16)) (barPacket 2 x.toNat) true
      .next (((s.released i).barAcked i bar).retire i)

/-- R290: the release's first step, one arrival, and the phase before it. -/
def arriveWord (peer : Bool) (a b c : BitVec 7) (s : State) : Res :=
  s.issue {} (fun i => sOk i.wv a.toNat && sOk i.wv b.toNat && sOk i.wv c.toNat) true
    (sSrcs [(1, b.toNat), (2, c.toNat)]) [(true, a.toNat)] fun i =>
    let n := (i.wv.sreg c.toNat).val.toNat % 2 ^ 16
    if n = 0 then .next (s.illegal i)
    else withBar s i true true peer (i.wv.sreg b.toNat).val fun s bar =>
      let r := s.barObserve i bar
      let s := r.1.barArrive bar n false
      .next ((((s.released i).barAcked i bar).updCur i fun w => w.setS a.toNat (r.2.phase.setWidth 64) tRAW).retire i)
/-- R290. -/
def execBarrive (a b c : BitVec 7) (s : State) : Res := arriveWord false a b c s
/-- R290: to a peer's scratchpad. -/
def execBarrivec (a b c : BitVec 7) (s : State) : Res := arriveWord true a b c s

/-- R291. -/
def execBexpect (a b : BitVec 7) (s : State) : Res :=
  s.issue {} (fun i => sOk i.wv a.toNat && sOk i.wv b.toNat) true (sSrcs [(0, a.toNat), (1, b.toNat)]) [] fun i =>
    withBar s i false false false (i.wv.sreg a.toNat).val fun s bar =>
      .next ((s.barCount bar (toIntBits 32 (i.wv.sreg b.toNat).val.toNat)).retire i)

/-- A watch of the wave on a global barrier and phase (R293). -/
def Wave.watching (v : Wave) (b : Bar) (p : BitVec 32) : Bool :=
  v.watches.any fun x => b.key == (none, x.addr) && x.phase == p

/-- R292: the phase has changed, or had: the acquire of R253. -/
def execBwait (a b : BitVec 7) (s : State) : Res :=
  s.issue {} (fun i => sOk i.wv a.toNat && sOk i.wv b.toNat) true (sSrcs [(0, a.toNat), (1, b.toNat)]) [] fun i =>
    let p : BitVec 32 := (i.wv.sreg b.toNat).val.setWidth 32
    withBar s i true false false (i.wv.sreg a.toNat).val fun s bar =>
      let r := s.barObserve i bar
      let s := r.1
      let had := i.wv.watching bar p
      if r.2.phase ≠ p then
        let s := if had then s.barWatch bar false else s
        let s := s.updCur i fun w => { w with watches := w.watches.filter fun x => !(bar.key == (none, x.addr) && x.phase == p) }
        .next ((s.invalidate i.grp.core).retire i)
      else
        let s := if had then s else s.barWatch bar true
        let s := s.updCurFrag i fun f => { f with viaWatch := had }
        .next (s.block i (.barrier bar.key.1 bar.key.2 p))

/-- R294. -/
def execBtest (a b c : BitVec 7) (s : State) : Res :=
  s.issue {} (fun i => sOk i.wv a.toNat && sOk i.wv b.toNat && sOk i.wv c.toNat) true
    (sSrcs [(1, b.toNat), (2, c.toNat)]) [(true, a.toNat)] fun i =>
    let p : BitVec 32 := (i.wv.sreg c.toNat).val.setWidth 32
    withBar s i true false false (i.wv.sreg b.toNat).val (fun s bar =>
      let r := s.barObserve i bar
      let w := r.2
      let s := r.1.updCur i fun v => v.setS a.toNat (BitVec.ofNat 64 (w.phase.toNat + (if w.err then 2 ^ 32 else 0))) tRAW
      .next ((if w.phase ≠ p then s.invalidate i.grp.core else s).retire i)) false

/-- R293: at most four watches; a fifth replaces the oldest, whose registration the home drops. A watch that the wave has
already stays the one it is. DESIGN CHOICE (log 40). -/
def execBwatch (a b : BitVec 7) (s : State) : Res :=
  s.issue {} (fun i => sOk i.wv a.toNat && sOk i.wv b.toNat) true (sSrcs [(0, a.toNat), (1, b.toNat)]) [] fun i =>
    let p : BitVec 32 := (i.wv.sreg b.toNat).val.setWidth 32
    withBar s i false false false (i.wv.sreg a.toNat).val fun s bar =>
      if bar.key.1.isSome || i.wv.watching bar p then .next (s.retire i)
      else
        let s := s.barWatch bar true
        let all : List Watch := i.wv.watches ++ [⟨bar.key.2, p⟩]
        let s := (all.take (all.length - 4)).foldl (fun s x => s.barWatch (Bar.ofAddr x.addr) false) s
        .next ((s.updCur i fun w => { w with watches := all.drop (all.length - 4) }).retire i)

/-- BARRIER_NOTIFY (R292): the fragments that the notice names return, with the acquire. A remote home's notice names none: those
that wait for another phase return. The homes watch nothing for a wave that is out. DEDUCED (log 40). -/
def State.notify (s : State) (pad : Option Nat) (addr : Nat) (now : BitVec 32) (ids : List Nat) : State :=
  let remote := pad.isNone && decide (2 ^ 57 ≤ addr)
  let hit (v : Wave) (f : Frag) : Bool := match f.wait with
    | some (.barrier q x p) => q == pad && x == addr && (if remote then p != now else f.told && hasTriple v.g v.w f.id ids)
    | _ => false
  let woken := s.waves.filter fun v => v.frags.any (hit v)
  woken.foldl (fun s v =>
    let core := match s.group? v.g with | some gr => gr.core | none => 0
    let mine := v.frags.filter (hit v)
    -- watches that these waits used end with them (R293)
    let used (x : Watch) : Bool := pad.isNone && mine.any fun f => f.viaWatch && f.wait == some (.barrier none x.addr x.phase)
    let ends := (mine.filter fun f => !f.viaWatch).length + (v.watches.filter used).length
    let here := match s.group? v.g with | some gr => gr.resident | none => false
    let s := if pad.isNone && here then (List.range ends).foldl (fun s _ => s.barWatch (Bar.ofAddr addr) false) s else s
    let s := s.updWave v.g v.w fun w => { w with
      watches := w.watches.filter fun x => !used x
      units := w.units + 1
      frags := w.frags.map fun f => if hit v f then { f with pc := f.pc + 4, wait := none, viaWatch := false, told := false } else f }
    (s.resave v.g v.w).invalidate core) s

/-- BARRIER_NOTIFY. It brings the barrier (a group's scratchpad as its number + 1, else 0), its address and its phase, and who
waited: group, wave and fragment of each. -/
def execBarrierNotify (s : State) : Res :=
  .next (s.notify (if s.ev.a = 0 then none else some (s.ev.a - 1)) s.ev.b (BitVec.ofNat 32 s.ev.c) s.ev.ids)

/-! ## GRIDBAR (R295) -/

/-- Waves of a launch's grid. -/
def Launch.totalWaves (l : Launch) : Nat :=
  l.gdim.1 * l.gdim.2.1 * l.gdim.2.2 * (l.cdim.1 * l.cdim.2.1 * l.cdim.2.2) * ((l.lanes + 31) / 32)

/-- R295: every wave has arrived or exited: the waits end, each with its acquire and the count of grid barriers. -/
def State.gridbarTest (s : State) (launch : Nat) : State :=
  match s.launch? launch with
  | none => s
  | some l =>
    if l.gbArrived = 0 || decide (l.gbArrived + l.wavesExited < l.totalWaves) then s
    else
      let s := s.updLaunch launch fun l => { l with gbArrived := 0, gbDone := l.gbDone + 1 }
      let mine := s.waves.filter fun v => (match s.group? v.g with | some gr => gr.launch == launch | none => false) &&
        v.frags.any fun f => match f.wait with | some (.gridbar _) => true | _ => false
      mine.foldl (fun s v =>
        let core := match s.group? v.g with | some gr => gr.core | none => 0
        let s := s.updWave v.g v.w fun w => v.frags.foldl (fun w f => match f.wait with
          | some (.gridbar n) => ({ w.updFrag f.id fun f => { f with pc := f.pc + 4, wait := none } with
              units := w.units + 1 } : Wave).setS n (BitVec.ofNat 64 (l.gbDone + 1)) tRAW
          | _ => w) w
        (s.resave v.g v.w).invalidate core) s

/-- R295. -/
def execGridbar (a : BitVec 7) (s : State) : Res :=
  s.issue {} (fun i => sOk i.wv a.toNat) true [] [(true, a.toNat)] fun i =>
    if !i.ln.coresident then .next (s.trap i 0x0E 0 0)
    else match s.accessWait i.c.g i.c.w true true with
      | some w => .next (s.block i w)
      | none =>
        let s := (s.released i).updLaunch i.ln.id fun l => { l with gbArrived := l.gbArrived + 1 }
        .next ((s.block i (.gridbar a.toNat)).gridbarTest i.ln.id)

/-! ## Ordering words -/

/-- R251, R296: S[a] is empty until the fence's tick, and the wave's later accesses wait for it. -/
def execFencesc (a : BitVec 7) (s : State) : Res :=
  s.issue {} (fun i => sOk i.wv a.toNat) false [] [(true, a.toNat)] fun i =>
    match s.accessWait i.c.g i.c.w true false with
    | some w => .next (s.block i w)
    | none =>
      let f : Fill := ⟨s.seq, i.c.g, i.c.w, a.toNat, none, 5, 0, 0, []⟩
      .next ((({ s.fresh with fills := s.fills ++ [f] } : State).updCur i fun w => w.emptyS a.toNat).retire i)

/-- R251: every request of the core to this module's memory has completed and every store of it, to a peer's scratchpad too
(R242), has its visibility time; those at Galord-form addresses are not waited for. -/
def State.coreDrained (s : State) (core : Nat) : Bool :=
  !(s.reqs.any fun r => r.core == core && (List.range 32).any fun l => r.lanes.getLsbD l && !isGalord (r.va.getD l 0)) &&
  !(s.regq.any fun r => r.core == core && (r.id == 0 || decide (4 * r.word < 2 ^ 63)))

/-- FENCE_TICK (R251): at a tick of the contexts that `sel` names, real or virtual (R428), each drained fence takes the new
value. -/
def State.fenceTicks (s : State) (sel : Nat → Bool) : State :=
  let due := s.fills.filter fun f => f.kind == 5 && (match s.group? f.g with
    | some gr => sel gr.ctx && s.coreDrained gr.core
    | none => false)
  due.foldl (fun s f => match s.group? f.g with
    | none => s
    | some gr =>
      let now := BitVec.ofNat 64 (s.ticksOf gr.ctx)
      let s := { s with fills := s.fills.filter fun x => x.id != f.id }
      ((s.updWave f.g f.w fun w => w.setS f.s now tRAW).resave f.g f.w).invalidate gr.core) s

/-- R296: the checks of an address as a load or a store makes them. -/
def orderAddr (s : State) (i : Iss) (acc : Acc) (va : DWord) (k : State → Tgt → Res) : Res :=
  let las := [(0, va)]
  let fin : UEnd → Res
    | .ok s => .next (s.retire i)
    | .wait s w => .next (s.block i w)
    | .trap s c a f => .next (s.trap i c a f)
    | .reject s => .next (s.missReject i)
    | .over_ s => .next s
  match s.memFault i acc false 4 las with
  | some e => fin e
  | none => match s.locateAll i acc 4 las [] with
    | .bad s => .next s
    | .ok s ts => match s.holdFault i acc ts with
      | some e => fin e
      | none => match ts with
        | t :: _ => k s t.2.2
        | [] => .next (s.retire i)

/-- R245, R296. -/
def execAcq (a b : BitVec 7) (s : State) : Res :=
  s.issue {} (fun i => sOk i.wv a.toNat && sOk i.wv b.toNat) false (sSrcs [(1, b.toNat)]) [(true, a.toNat)] fun i =>
    match s.accessWait i.c.g i.c.w true false with
    | some w => .next (s.block i w)
    | none =>
      let va := (i.wv.sreg b.toNat).val
      -- it holds a miss-status entry as a load does (R85)
      if !s.missOk i.grp.core i.c.g i.c.w && (s.memFault i .load false 4 [(0, va)]).isNone then .next (s.missReject i)
      else orderAddr s i .load va fun s t =>
        .next (((s.missTake i).fileReq i .acqWord true a.toNat 1 tRAW .load 1 [(0, va, t)] (fun _ => none) 0).retire i)

/-- R243, R296, R333. -/
def execRel (a b : BitVec 7) (s : State) : Res :=
  s.issue {} (fun i => sOk i.wv a.toNat && sOk i.wv b.toNat) false (sSrcs [(0, a.toNat), (1, b.toNat)]) [] fun i =>
    match s.accessWait i.c.g i.c.w true true with
    | some w => .next (s.block i w)
    | none =>
      let va := (i.wv.sreg a.toNat).val
      orderAddr s i .store va fun s t =>
        .next ((s.releaseLane i 0 va t true (leBytes 4 (i.wv.sreg b.toNat).val.toNat)).retire i)

/-- R246: the core's dirty set for the context comes home. -/
def execSurr (s : State) : Res :=
  s.issue {} (fun _ => true) false [] [] fun i =>
    match s.accessWait i.c.g i.c.w false false with
    | some w => .next (s.block i w)
    | none => .next ((s.writeBack i.grp.core i.grp.ctx fun _ => true).retire i)

/-- R246. -/
def execInval (s : State) : Res :=
  s.issue {} (fun _ => true) false [] [] fun i =>
    match s.accessWait i.c.g i.c.w false false with
    | some w => .next (s.block i w)
    | none => .next ((s.invalidate i.grp.core).retire i)

/-! ## Tokens (R260, R297, R298) -/

def State.token? (s : State) (ctx shape : Nat) : Option Token := s.tokens.find? fun t => t.ctx == ctx && t.shape == shape

/-- TOKEN_NOT_HELD of a word that names a shape (R297, R298); it writes no address, and the manual states no FADDR for it.
DESIGN CHOICE (log 30). -/
def State.tokenNotHeld (s : State) (i : Iss) (shape : Nat) : State :=
  let r := s.shapeOf i.grp.ctx shape
  s.fresh.trap i 0x0D (Config.openValue (s.openKey i.c.g i.c.w)) (BitVec.ofNat 64 (if r.cls = 1 then shape else 0xFF))

/-- An engine command of the core that writes bytes of the object is unfinished (R297). -/
def State.tokenBusy (s : State) (ctx core shape : Nat) : Bool :=
  match s.ranges.find? fun r => r.kind == 2 && r.ctx == ctx && r.owner == shape with
  | none => false
  | some o => s.ranges.any fun r => r.kind == 1 && r.ctx == ctx && r.core == core && r.pad == none && decide (r.lo < o.hi) && decide (o.lo < r.hi)

/-- A word of a TOKEN object. -/
def State.inToken (s : State) (ctx shape word : Nat) : Bool :=
  s.ranges.any fun r => r.kind == 2 && r.ctx == ctx && r.owner == shape &&
    (s.objSpans r).any fun q => decide (q.1 / 4 ≤ word) && decide (4 * word < q.1 + q.2)

/-- R260, R297: move the token: the receiver drops the object's lines, and the request of the receiver is answered. -/
def State.moveToken (s : State) (ctx shape dest : Nat) : State :=
  match s.token? ctx shape with
  | none => s
  | some t =>
    let s := { s with
      tokens := s.tokens.map fun x => if x.ctx == ctx && x.shape == shape then
        { x with holder := dest, queue := x.queue.filter fun q => q.1 != dest } else x
      l1 := s.l1.filterMap fun e => if e.core == dest && !e.own && s.inToken ctx shape e.word then
        (if e.dm = 0 then none else some { e with mask := e.dm }) else some e }
    match t.queue.find? fun q => q.1 == dest with
    | none => s
    | some (_, pad, addr) =>
      s.agentArrive ctx none 8 dest (BitVec.ofNat 64 addr) (match pad with | some g => .pad g addr | none => Bar.ofAddr addr) 1 false

/-- A core of the object's wheel that lies in the partition (R260). -/
def State.wheelCore (s : State) (ctx wheel core : Nat) : Bool :=
  decide (core < 400) && wheelOf (wedgeOf core) == wheel &&
  (match s.partOf ctx with | some p => p.wedges.getLsbD (wedgeOf core) | none => false)

/-- R297. -/
def execTokpass (a b : BitVec 7) (s : State) : Res :=
  s.issue {} (fun i => sOk i.wv a.toNat && sOk i.wv b.toNat) false (sSrcs [(0, a.toNat), (1, b.toNat)]) [] fun i =>
    let ctx := i.grp.ctx
    let shape := (i.wv.sreg a.toNat).val.toNat % 256
    let who := (i.wv.sreg b.toNat).val.toNat % 512
    match s.token? ctx shape with
    | none => .next (s.tokenNotHeld i shape)
    | some t =>
      if t.holder ≠ i.grp.core then .next (s.tokenNotHeld i shape)
      else if who ≠ 0x1FF && !s.wheelCore ctx t.wheel who then .next (s.illegal i)
      else if s.tokenBusy ctx i.grp.core shape then .next (s.block i .engine)
      else match s.accessWait i.c.g i.c.w true true with
        | some w => .next (s.block i w)
        | none =>
          let inObj := s.inToken ctx shape
          -- stores of the core's other waves that are still on their way are among the bytes it has stored (R260)
          let late := (s.regq.filter fun r => r.core == i.grp.core && r.id == 0 && inObj r.word).map Reg.word
          let s := late.eraseDups.foldl (fun s word => s.register i.grp.core word) (s.released i)
          let s := s.writeBack i.grp.core ctx inObj
          let dest := if who ≠ 0x1FF then who else match t.queue with | q :: _ => q.1 | [] => i.grp.core
          .next ((s.moveToken ctx shape dest).retire i)

/-- R298. -/
def execTokreq (a b : BitVec 7) (s : State) : Res :=
  s.issue {} (fun i => sOk i.wv a.toNat && sOk i.wv b.toNat) false (sSrcs [(0, a.toNat), (1, b.toNat)]) [] fun i =>
    let ctx := i.grp.ctx
    let shape := (i.wv.sreg a.toNat).val.toNat % 256
    match s.token? ctx shape with
    | none => .next (s.tokenNotHeld i shape)
    | some t => withBar s i false false false (i.wv.sreg b.toNat).val fun s bar =>
        if t.holder = i.grp.core then .next ((s.barArrive bar 1 false).retire i)
        else if (t.queue.any fun q => q.1 == i.grp.core) || !s.wheelCore ctx t.wheel i.grp.core then .next (s.retire i)
        else .next (({ s with tokens := s.tokens.map fun x => if x.ctx == ctx && x.shape == shape then
            { x with queue := x.queue ++ [(i.grp.core, bar.key.1, bar.key.2)] } else x } : State).retire i)

end Sys2Proof.Machine
end

