-- ==== Sys2Proof/Machine/Copy.lean ====
section
/-! DEFINITION. The copy engine (R299 to R304): the four words at issue, the units they move and their completion. -/

namespace Sys2Proof.Machine

open Host

/-! ## Operands at issue -/

/-- What an address of a copy word names (R299): a global address, an offset of the group's scratchpad, a Galord-form
address, or no form of these. -/
inductive Form where
  | glob (a : Nat)
  | pad (off : Nat)
  | galord
  | other
  deriving DecidableEq, Repr

def addrForm (va : DWord) : Form :=
  if isGalord va then .galord
  else if canonical va then .glob va.toNat
  else if va.toNat / 2 ^ 28 = 2 ^ 34 then .pad (va.toNat % 2 ^ 28)
  else .other

/-- A form that COPY, FILL and COPYM take, and the local operands of network words (R299, R343). -/
def localForm (va : DWord) : Bool := match addrForm va with | .glob _ | .pad _ => true | _ => false

/-- The window form of the first byte outside the scratchpad, when a range of n bytes runs past its end (R299). -/
def Group.pastEnd (gr : Group) (va : DWord) (n : Nat) : Option DWord :=
  match addrForm va with
  | .pad off => if n = 0 ∨ off + n ≤ gr.padSize then none else some (BitVec.ofNat 64 (2 ^ 62 + max off gr.padSize))
  | _ => none

/-- The extent of n bytes. -/
def extOf (g : Nat) (va : DWord) (n : Nat) : Ext :=
  match addrForm va with
  | .pad off => ⟨some g, off, off + n⟩
  | _ => ⟨none, va.toNat, va.toNat + n⟩

/-- Where an engine reads or writes a byte of an operand. -/
def placeOf (g : Nat) (va : DWord) : Region × Int :=
  match addrForm va with
  | .pad off => (.pad g, off)
  | _ => (.glob, va.toNat)

/-- Entry n of the multicast table (R354). -/
def State.mcastEntry (s : State) (n : Nat) : Nat := match s.mcast.find? fun e => e.1 == n with | some e => leNat e.2 | none => 31 * 2 ^ 16
def mcPart (e : Nat) : Nat := e / 2 ^ 16 % 32
def mcBase (e j : Nat) : DWord := BitVec.ofNat 64 (e / 2 ^ (8 * (16 + 16 * j)))
def mcBar (e j : Nat) : DWord := BitVec.ofNat 64 (e / 2 ^ (8 * (24 + 16 * j)))
/-- Destinations in use. -/
def mcUsed (e : Nat) : List Nat := (List.range 16).filter fun j => ebit e j

/-- The waits of an engine word at issue (R303, R259): the wave's own earlier accesses (R245), its engine's queue of 64,
and the range tables. -/
def State.engineWait (s : State) (i : Iss) (engine : Nat) (srcs dsts : List Ext) : Option Wait :=
  match s.accessWait i.c.g i.c.w false true with
  | some w => some w
  | none =>
    if ((engine == 0 || engine == 7) && decide (64 ≤ (s.queueOf engine i.grp.core).length)) ||
        s.lockBusy (match s.partOf i.grp.ctx with | some p => p.n | none => 0) i.grp.ctx srcs dsts then some .engine else none

/-- Register a command of the issuing wave with its entries, and put its first event on the agenda. -/
def State.addCmd (s : State) (i : Iss) (c : Cmd) (srcs dsts : List Ext) (kick : List Event) : State :=
  let part := match s.partOf i.grp.ctx with | some p => p.n | none => 0
  let s := s.lockFor part i.grp.ctx c.engine i.grp.core c.id srcs dsts
  ({ s.fresh with cmds := s.cmds ++ [c] } : State).pushAll kick

/-- TOKEN_NOT_HELD for a destination extent (R260, R303). -/
def State.tokenWord (s : State) (i : Iss) (e : Ext) : Option (DWord × DWord) :=
  if e.pad.isSome || !e.some? then none else s.tokenTrap i.grp.ctx i.grp.core (e.hi - e.lo) [(0, BitVec.ofNat 64 e.lo)]

/-- The command a word of the wave makes. -/
def Iss.cmd (i : Iss) (s : State) (engine op : Nat) (a b c d : DWord) (len : Nat) (byteMode : Bool) (bar : DWord) : Cmd :=
  { id := s.seq, engine := engine, unit := i.grp.core, g := i.c.g, w := i.c.w, ctx := i.grp.ctx, launch := i.ln.id, op := op
    pc := i.c.unitPc, a := a, b := b, c := c, d := d, len := len, byteMode := byteMode, bar := bar
    done := 0, started := false, halted := false }

/-- LEN, BYTES and ENTRY of S[c] (R299). -/
def ccLen (x : DWord) : Nat := x.toNat % 2 ^ 40
def ccBytes (x : DWord) : Bool := x.getLsbD 40
def ccEntry (x : DWord) : Nat := x.toNat / 2 ^ 41 % 4096

/-- The waits and the registration that end an engine word: blocked, or its command takes its place and the word retires. -/
def engineTake (s : State) (i : Iss) (c : Cmd) (srcs dsts : List Ext) (kick : Event) : Res :=
  match s.engineWait i c.engine srcs dsts with
  | some w => .next (s.block i w)
  | none => .next ((s.addCmd i c srcs dsts [kick]).retire i)

/-- A copy word's registers (R299): c names a pair. -/
def copyIssue (a b c : BitVec 7) (s : State) (k : Iss → DWord → DWord → DWord → DWord → Res) : Res :=
  s.issue {} (fun i => sOk i.wv a.toNat && sOk i.wv b.toNat && sOk i.wv c.toNat && decide (c.toNat + 1 < i.wv.scount)) true
    (sSrcs [(0, a.toNat), (1, b.toNat), (2, c.toNat), (2, c.toNat + 1)]) [] fun i =>
    let r := fun n => (i.wv.sreg n).val
    let bar := r (c.toNat + 1)
    k i (r a.toNat) (r b.toNat) (r c.toNat) bar

/-- A BAR that R286 refuses takes MISALIGNED (R299). -/
def State.barRefused (s : State) (i : Iss) (bar : DWord) : Option State :=
  if bar != 0 && !i.grp.barForm bar then some (s.trap i 0x08 bar (i.fr.live.setWidth 64)) else none

/-- COPY, FILL and COPYM once their forms are known: the range of each local operand, the token, and the command. -/
def copyTake (s : State) (i : Iss) (op : Nat) (a b x bar : DWord) (reads : Bool) (writes : Bool) (extra : List Ext) : Res :=
  let len := ccLen x
  match s.barRefused i bar with
  | some s => .next s
  | none =>
    let past := (if writes then i.grp.pastEnd a len else none).or (if reads then i.grp.pastEnd b len else none)
    match past with
    | some f => .next (s.trap i 0x08 f (i.fr.live.setWidth 64))
    | none =>
      let srcs := if reads then [extOf i.c.g b len] else []
      let dsts := (if writes then [extOf i.c.g a len] else []) ++ extra
      match dsts.findSome? (s.tokenWord i) with
      | some t => .next (s.trap i 0x0D t.1 t.2)
      | none =>
        let cm := i.cmd s 0 op a b (BitVec.ofNat 64 (ccEntry x)) 0 len (ccBytes x) bar
        engineTake s i cm srcs dsts (if len = 0 then ⟨.copyComplete, { a := s.seq }⟩ else ⟨.copyUnitHeld, { a := s.seq }⟩)

/-- R299, R300, R303. -/
def execCopy (a b c : BitVec 7) (s : State) : Res :=
  copyIssue a b c s fun i d src x bar =>
    if !localForm d || !localForm src then .next (s.illegal i)
    else copyTake s i 0 d src x bar true true []

/-- R299, R300, R303. -/
def execFill (a b c : BitVec 7) (s : State) : Res :=
  copyIssue a b c s fun i d pat x bar =>
    if !localForm d then .next (s.illegal i) else copyTake s i 2 d pat x bar false true []

/-- R299, R302, R303: an entry of another partition stops the context, with the entry logged. DEDUCED (log 38). -/
def execCopym (a b c : BitVec 7) (s : State) : Res :=
  copyIssue a b c s fun i off src x bar =>
    if !localForm src then .next (s.illegal i)
    else
      let n := ccEntry x
      let e := s.mcastEntry n
      let mine := match s.partOf i.grp.ctx with | some p => mcPart e == p.n | none => false
      if !mine then .next (s.violate i (BitVec.ofNat 64 n) 11 0 0 .engineWrite 0)
      else
        let locals := (mcUsed e).filterMap fun j =>
          let d := mcBase e j + off
          if canonical d then some (⟨none, d.toNat, d.toNat + ccLen x⟩ : Ext) else none
        copyTake s i 3 off src x bar true false locals

/-! ## COPYS (R301) -/

/-- The formats that a COPYS joins (R301). -/
def copysFormats (src dst : Shape) : Bool :=
  src.fmt != 0 && dst.fmt != 0 && dst.fmt != 11 && dst.fmt != 15 && src.fmt != 15 &&
  ((decide (src.fmt < 12) && decide (dst.fmt < 12)) || src.fmt == dst.fmt)

/-- The extent of a shape for a group, and the first byte outside a scratchpad (R299). -/
def State.shapeExt (s : State) (gr : Group) (r : Shape) : Option (Ext × Option DWord) :=
  let e := r.extent
  match s.regionOf gr r with
  | none => none
  | some .glob => some (⟨none, e.1.toNat, e.2.toNat⟩, none)
  | some (.pad g) =>
    let size : Nat := match s.group? g with | some x => x.padSize | none => 0
    let kind : Nat := if r.space = 2 then 2 * 2 ^ 28 + r.rank * 2 ^ 24 else 0
    let bad : Option DWord :=
      if e.1 < 0 then some (BitVec.ofInt 64 (((2 ^ 62 + kind : Nat) : Int) + e.1))
      else if Int.ofNat size < e.2 then some (BitVec.ofNat 64 (2 ^ 62 + kind + max e.1.toNat size)) else none
    some (⟨some g, e.1.toNat, e.2.toNat⟩, bad)

/-- Elements of the source's box with i1 below VALID. -/
def copysCount (src : Shape) (valid : Nat) : Nat := src.size 0 * min valid (src.size 1) * src.size 2 * src.size 3

/-- Element n of that box, dimension 0 fastest. -/
def copysCoord (src : Shape) (valid n : Nat) : Coord :=
  let a := max 1 (src.size 0)
  let b := max 1 (min valid (src.size 1))
  let c := max 1 (src.size 2)
  ⟨(n % a : Nat), (n / a % b : Nat), (n / a / b % c : Nat), (n / a / b / c : Nat)⟩

/-- R299, R301, R303. The command keeps both shape records. -/
def execCopys (a b c : BitVec 7) (s : State) : Res :=
  copyIssue a b c s fun i sh v x bar =>
    let src := s.shapeOf i.grp.ctx (sh.toNat / 256 % 256)
    let dst := s.shapeOf i.grp.ctx (sh.toNat % 256)
    match s.barRefused i bar with
    | some s => .next s
    | none =>
      if !copysFormats src dst then .next (s.trap i 0x04 0 (shapeInfo 0 (fmtTag src.fmt) dst.fmt))
      else match s.shapeExt i.grp src, s.shapeExt i.grp dst with
        | some se, some de =>
          match de.2.or se.2 with
          | some f => .next (s.trap i 0x08 f (i.fr.live.setWidth 64))
          | none =>
            let valid := v.toNat
            let n := copysCount src valid
            match (if n = 0 then none else s.tokenWord i de.1) with
            | some t => .next (s.trap i 0x0D t.1 t.2)
            | none =>
              let cm := { i.cmd s 0 1 0 v 0 0 n (ccBytes x) bar with payload := leBytes 64 src.toNat ++ leBytes 64 dst.toNat }
              engineTake s i cm (if n = 0 then [] else [se.1]) (if n = 0 then [] else [de.1])
                (if n = 0 then ⟨.copyComplete, { a := s.seq }⟩ else ⟨.copyUnitHeld, { a := s.seq }⟩)
        -- a shape of SPACE 2 whose rank names no group lies outside every scratchpad
        | _, _ => .next (s.trap i 0x08 (BitVec.ofNat 64 (2 ^ 62 + 2 * 2 ^ 28)) (i.fr.live.setWidth 64))

/-- The stored bits of an element in the destination's format (R134, R301). -/
def copysConvert (src dst : Shape) (x : Nat) : Nat :=
  if src.fmt = dst.fmt then x
  else
    let from_ : Elem := if src.fmt = 11 then .int 32 else (fmtElem src.fmt).getD (.int 32)
    match fmtElem dst.fmt with
    | some t => (cvtElem .onRead rne from_ t x).1
    | none => x

/-- Elements of one destination unit: those that follow one another within one 128-byte block of the destination. The
place after them, and the bytes written. -/
def copysUnit (core ctx : Nat) (sr dr : Region) (src dst : Shape) (valid total : Nat) (block : Option Int) :
    Nat → State → Nat → Nat → MemRes (Nat × Nat)
  | 0, s, pos, n => .ok s (pos, n)
  | fuel + 1, s, pos, n =>
    if total ≤ pos then .ok s (pos, n)
    else
      let co := copysCoord src valid pos
      if !dst.inside co then copysUnit core ctx sr dr src dst valid total block fuel s (pos + 1) n
      else
        let da := dst.addrOf co
        if (match block with | some b => b != da / 128 | none => false) then .ok s (pos, n)
        else match s.elemRead core ctx sr src co with
          | .viol s a k l i => .viol s a k l i
          | .fault s a e => .fault s a e
          | .ok s x => match s.engWrite core ctx dr da (leBytes (fmtBytes dst.fmt) (copysConvert src dst x)) with
            | .viol s a k l i => .viol s a k l i
            | .fault s a e => .fault s a e
            | .ok s _ => copysUnit core ctx sr dr src dst valid total (some (da / 128)) fuel s (pos + 1) (n + fmtBytes dst.fmt)

/-! ## Units -/

/-- The next destination unit of a range (R300, R303): its offset and length. Ascending when the destination starts at
or below the source, else descending. -/
def nextUnit (dst src : DWord) (ascending : Bool) (len done : Nat) : Nat × Nat :=
  let d := dst.toNat
  if ascending || decide (dst ≤ src) then
    let lo := d + done
    (done, min (d + len) ((lo / 128 + 1) * 128) - lo)
  else
    let hi := d + len - done
    let lo := max d ((hi - 1) / 128 * 128)
    (lo - d, hi - lo)

/-- A byte range written at one destination of a multicast (R302): memory of this module, or a Galord peer's. -/
def State.sendTo (s : State) (core ctx : Nat) (d : DWord) (bs : List Byte) : MemRes Unit :=
  if isGalord d then
    if s.isOwnPkg (galordPkg d) then s.ownWrite ctx d bs
    else match s.galord ctx d .engineWrite bs.length with
    | (s, .peer) => .ok (s.emit (.galord d 1 bs)) ()
    | (s, .viol k l i) => .viol s d.toNat k l i
    | (s, .resolvable e) => .fault s d.toNat e
    | (s, _) => .viol s d.toNat 9 0 0
  else s.engWrite core ctx .glob d.toNat bs

/-- Every destination of an entry in turn. -/
def State.sendAll (s : State) (core ctx : Nat) (bs : List Byte) : List DWord → MemRes Unit
  | [] => .ok s ()
  | d :: ds => match s.sendTo core ctx d bs with
    | .ok s _ => s.sendAll core ctx bs ds
    | r => r

/-- The next unit of a multicast of len bytes with some done (R302, R303, R355): it crosses no 128-byte boundary of any
destination. -/
def mcastUnit (ds : List DWord) (len done : Nat) : Nat :=
  ds.foldl (fun n d => min n (128 - (d.toNat + done) % 128)) (min (128 - done % 128 + (if ds.isEmpty then 0 else 128)) (len - done))

/-- An update of every destination barrier that an entry names (R302, R355). -/
def State.mcastBars (s : State) (c : Cmd) (e : Nat) (f : BarWords → BarWords) (what : List Byte) : State :=
  (mcUsed e).foldl (fun s j =>
    if mcBar e j = 0 then s
    else s.cmdBar { c with bar := mcBar e j } f what) s

/-- Progress after a unit of n bytes: it is counted (R303), and the next unit or the completion follows. DEDUCED (log 39). -/
def State.unitHeld (s : State) (c : Cmd) (n : Nat) (over_ : Bool) : State :=
  let s := s.cmdCount c.id n
  let s := s.updCmd c.id fun x => { x with done := x.done + n }
  s.push (if over_ then .copyComplete else .copyUnitHeld) { a := c.id }

/-- One unit of a command that its turn has come to: read, written and held at its home (R300 to R304). -/
def State.copyWork (s : State) (c : Cmd) : State :=
  match (if c.byteMode && c.pend != 0 then s.barWaits c c.kick else none) with
  | some s => s
  | none =>
      let id := c.id
      let core := c.unit
      if c.op = 1 then
        let src : Shape := BitVec.ofNat 512 (leNat (c.payload.take 64))
        let dst : Shape := BitVec.ofNat 512 (leNat (c.payload.drop 64))
        match s.group? c.g with
        | none => s
        | some gr => match s.regionOf gr src, s.regionOf gr dst with
          | some sr, some dr =>
            c.access .engineWrite ((copysUnit core c.ctx sr dr src dst c.b.toNat c.len none 128 s c.pos 0).whole s) fun s r =>
              (s.updCmd id fun x => { x with pos := r.1 }).unitHeld c r.2 (decide (c.len ≤ r.1))
          | _, _ => s
      else if c.op = 3 then
        let p := placeOf c.g c.b
        -- the entry as it stands when the packet goes out (R355)
        let e := s.mcastEntry c.c.toNat
        let n := mcastUnit ((mcUsed e).map fun j => mcBase e j + c.a) c.len c.done
        c.access .engineRead (s.engRead core c.ctx p.1 (p.2 + c.done) n) fun s bs =>
          let ds := (mcUsed e).map fun j => mcBase e j + c.a + BitVec.ofNat 64 c.done
          c.access .engineWrite ((s.sendAll core c.ctx bs ds).whole s) fun s _ =>
            let last := decide (c.len ≤ c.done + n)
            let s := if c.byteMode && !last then
                s.mcastBars c e (fun w => w.addBytes (-(n : Int))) (barPacket 1 (ofIntBits 64 (-(n : Int)))) else s
            let s := s.updCmd id fun x => { x with done := x.done + n, pos := n, started := true, payload := leBytes 272 e }
            let s := if c.byteMode && c.pend != 0 then
                s.cmdBar c (fun w => w.addBytes (-(c.pend : Int))) (barPacket 1 (ofIntBits 64 (-(c.pend : Int)))) else s
            let s := s.updCmd id fun x => { x with pend := n * ds.length }
            s.push (if last then .copyComplete else .copyUnitHeld) { a := id }
      else
        let u := nextUnit c.a c.b (c.op = 2) c.len c.done
        let d := placeOf c.g c.a
        let over_ := decide (c.len ≤ c.done + u.2)
        let write (s : State) (bs : List Byte) : State :=
          c.access .engineWrite ((s.engWrite core c.ctx d.1 (d.2 + u.1) bs).whole s) fun s _ => s.unitHeld c u.2 over_
        if c.op = 2 then
          write s ((List.range u.2).map fun k => BitVec.ofNat 8 (c.b.toNat / 2 ^ (8 * ((c.a.toNat + u.1 + k) % 8))))
        else
          let p := placeOf c.g c.b
          c.access .engineRead (s.engRead core c.ctx p.1 (p.2 + u.1) u.2) fun s bs => write s bs

/-- The command may do its next unit: it goes on, it is its group's first, and no page of it is being resolved. -/
def State.copyReady (s : State) (c : Cmd) : Bool :=
  c.engine == 0 && s.cmdGoes c && s.firstOfGroup c && decide ((if c.op = 1 then c.pos else c.done) < c.len) && !(s.faults.any fun f => f.cmd == some c.id)

/-- The commands of a core whose next unit is at hand, beside the one whose event runs. Contexts that run as DET keep their own
order (R430). -/
def State.copyRivals (s : State) (c : Cmd) : List Cmd :=
  s.cmds.filter fun x => x.unit == c.unit && s.copyReady x && (x.id == c.id ||
    ((x.ctx == c.ctx || !(s.detCtx x.ctx || s.detCtx c.ctx)) &&
      s.agenda.any fun e => e.what == .copyUnitHeld && e.args.a == x.id && decide (e.args.due ≤ s.ev.due)))

/-- R303: the groups of a core take turns, unit by unit, in ascending order after the one served last. -/
def State.copyPick (s : State) (c : Cmd) : Cmd :=
  let last := match s.copyTurn.find? fun x => x.1 == c.unit with | some x => x.2 | none => 0
  let all := s.copyRivals c
  let least (l : List Cmd) : Option Cmd := l.foldl (fun b x => match b with
    | some y => if x.g < y.g then some x else some y
    | none => some x) none
  match least (all.filter fun x => decide (last < x.g)) with
  | some x => x
  | none => (least all).getD c

/-- COPY_UNIT_HELD: one unit of the command of the group whose turn it is (R303); the event of the one whose turn it is not takes
the other's place. -/
def State.copyUnit (s : State) (id : Nat) : State :=
  match s.cmd? id with
  | none => s
  | some c =>
    if !s.copyReady c then s
    else
      let x := s.copyPick c
      let s : State := { s with
        copyTurn := (s.copyTurn.filter fun y => y.1 != c.unit) ++ [(c.unit, x.g)]
        agenda := s.agenda.map fun e => if x.id ≠ id && e.what == .copyUnitHeld && e.args.a == x.id then
          { e with args := { e.args with a := id } } else e }
      s.copyWork x

/-- COPY_UNIT_HELD. It brings the command. -/
def execCopyUnitHeld (s : State) : Res := .next (s.copyUnit s.ev.a)

/-- COPY_COMPLETE (R303, step 6): the entries are freed, then the command completes; the barriers of a multicast are
those of the version its last packet used. -/
def State.copyDone (s : State) (id : Nat) : State :=
  match s.cmd? id with
  | none => s
  | some c =>
    if c.engine ≠ 0 || !s.cmdGoes c || decide ((if c.op = 1 then c.pos else c.done) < c.len) then s
    else match s.barWaits c ⟨.copyComplete, { a := id }⟩ with
      | some s => s
      | none =>
        let s' := s.cmdDone c false
        if c.op = 3 then
          let e := if c.len = 0 then s.mcastEntry c.c.toNat else leNat c.payload
          let n := c.pos
          if c.byteMode then
            (if c.len = 0 then s' else s'.mcastBars c e (fun w => w.addBytes (-(n : Int))) (barPacket 1 (ofIntBits 64 (-(n : Int)))))
          else s'.mcastBars c e (fun w => w.arrive 1 false) (barPacket 0 1)
        else s'

/-- COPY_COMPLETE. It brings the command. -/
def execCopyComplete (s : State) : Res := .next (s.copyDone s.ev.a)

end Sys2Proof.Machine
end

