-- ==== Sys2Proof/Machine/Migrate.lean ====
section
/-! DEFINITION. Page migration to host memory (R264, R265). -/

namespace Sys2Proof.Machine

open Host

/-- MIGTHR fields (R264). -/
def Part.migThresh (p : Part) : Nat := p.migthr.toNat % 2 ^ 16
def Part.migOn (p : Part) : Bool := p.migthr.getLsbD 16
def Part.migLdev (p : Part) : Nat := p.migthr.toNat / 2 ^ 17 % 16

/-- A stage-2 leaf: the IPA its page starts at, its physical page, size, entry and entry's address. -/
structure Leaf2 where
  ipa : Nat
  pa : Nat
  bits : Nat
  entry : Nat
  entryPa : Nat

def State.leaf2 (s : State) (p : Part) (ipa : Nat) : Option Leaf2 :=
  match s.walk2 p ipa with
  | .leaf pa bits e ePa _ _ => some ⟨ipa / 2 ^ bits * 2 ^ bits, pa / 2 ^ bits * 2 ^ bits, bits, e, ePa⟩
  | _ => none

/-- A live LOCK entry covers a byte of the page: the range's pages as its context maps them. -/
def State.lockTouches (s : State) (r : RangeEntry) (lo size : Nat) : Bool :=
  r.pad.isNone && (List.range ((r.hi + 4095) / 4096 - r.lo / 4096)).any fun k =>
    match (s.translate (s.ctlCore r.ctx) r.ctx (max r.lo ((r.lo / 4096 + k) * 4096)) .load).2 with
    | .ok pa _ => decide (lo / 4096 ≤ pa / 4096) && decide (pa < lo + size)
    | _ => false

/-- R264: a page that may migrate. -/
def State.mayMigrate (s : State) (p : Part) (l : Leaf2) : Bool :=
  decide (l.bits ≤ 21) && decide (l.pa < 2 ^ 56) && !ebit l.entry 61 &&
  !(s.touchesObject 2 l.pa (2 ^ l.bits)) && !(s.touchesObject 3 l.pa (2 ^ l.bits)) &&
  !(s.ranges.any fun r => r.part == p.n && (r.kind == 0 || r.kind == 1) && s.lockTouches r l.pa (2 ^ l.bits))

/-- The lent page that a migration takes; none when it is suspended (R264). DESIGN CHOICE (log 17). -/
def State.lentFor (s : State) (p : Part) (bits : Nat) : Option Nat :=
  if !(s.vfs.any fun v => v.part == some p.n && v.n / 32 == p.migLdev) then none
  else match Config.lentPage p.n bits s.seq with
    | none => none
    | some k =>
      let dst := 2 ^ 56 + p.migLdev * 2 ^ 52 + k % 2 ^ (52 - bits) * 2 ^ bits
      if p.migrated.any fun m => decide (m.1 < dst + 2 ^ bits) && decide (dst < m.1 + m.2) then none else some dst

/-- MIGRATION_TRIGGER (R264): pages whose counters have reached THRESH are to migrate. DESIGN CHOICE (log 17). -/
def State.migTrigger (s : State) (part : Nat) : State :=
  match s.part? part with
  | none => s
  | some p =>
    if !p.migOn || p.migThresh = 0 then s
    else p.migCounters.foldl (fun s c =>
      if c.2 < p.migThresh || (s.agenda.any fun e => e.what == .pageMigration && e.args.a == part && e.args.b == c.1) then s
      else match s.leaf2 p c.1 with
        | none => s
        | some l =>
          if !s.mayMigrate p l then s
          else match s.lentFor p l.bits with
            | some dst => s.fresh.push .pageMigration { a := part, b := c.1, c := dst }
            | none => s.fresh) s

/-- R264: a host access to a page of device memory counts. -/
def State.hostCounts (s : State) (part ipa : Nat) : State :=
  match s.part? part with
  | none => s
  | some p => match s.leaf2 p ipa with
    | none => s
    | some l =>
      if l.bits ≤ 21 ∧ l.pa < 2 ^ 56 then
        let n := match p.migCounters.find? fun c => c.1 == l.ipa with | some c => c.2 | none => 0
        (s.updPart part fun p => { p with
          migCounters := (p.migCounters.filter fun c => c.1 != l.ipa) ++ [(l.ipa, min 65535 (n + 1))] }).migTrigger part
      else s

/-- MIGRATION_COUNTER_HALVING (R264). It brings the partition. -/
def execMigrationCounterHalving (s : State) : Res :=
  .next ((s.updPart s.ev.a fun p => { p with
    migCounters := (p.migCounters.map fun c => (c.1, c.2 / 2)).filter fun c => c.2 != 0 }).migTrigger s.ev.a)

/-- Accesses in flight that reach a page (R265, step 2). DESIGN CHOICE (log 18). -/
def State.pageBusy (s : State) (lo hi : Nat) : Bool :=
  let inside (a : Nat) : Bool := decide (lo ≤ a) && decide (a < hi)
  (s.reqs.any fun r => (List.range 32).any fun l => r.lanes.getLsbD l && !r.performedAt l &&
    match r.pa.getD l none with | some a => inside a | none => false) ||
  (s.regq.any fun r => inside (4 * r.word)) || (s.surrs.any fun x => match x.var with | some v => inside (4 * v) | none => false) ||
  s.agenda.any fun e => e.what == .barrierNotify && e.args.a == 0 && inside e.args.b

/-- The page's bytes, moved: lines that hold a written byte go whole. DESIGN CHOICE (log 18). -/
def State.movePage (s : State) (lo hi dst : Nat) : State :=
  let at_ (c : Cell) : Bool := decide (lo ≤ c.1) && decide (c.1 < hi)
  let lines := ((s.mem.filter at_).map fun c => c.1 / 128).eraseDups
  let s' := lines.foldl (fun (m : List Cell) n =>
    memSets m (dst + (128 * n - lo)) ((s.homeBytes (128 * n) 128).getD [])) s.mem
  { s with mem := memDrop s' lo hi }

/-- R377: the naturally aligned run of level-3 entries that a page of up to 4 MiB is written in, from the entry of one of its
addresses. -/
def Leaf2.run (l : Leaf2) (ipa : Nat) : List Nat :=
  (List.range (2 ^ (l.bits - 12))).map fun k => l.entryPa - 8 * (ipa % 2 ^ l.bits / 4096) + 8 * k

/-- R265, step 4: every entry of the run that maps the page maps the new place, each with its own A and D. -/
def State.flipRun (s : State) (l : Leaf2) (ipa dst : Nat) : State :=
  (l.run ipa).foldl (fun s pa => match s.entryAt pa with
    | some e => if ebit e 0 && e % 2 ^ 57 / 4096 == l.pa / 4096 && e / 2 ^ 8 % 16 == l.entry / 2 ^ 8 % 16 then
        s.homeWrite pa (leBytes 8 (e - l.pa + dst)) else s
    | none => s) s

/-- Physical addresses of barriers that waves wait on or watch, after a move. -/
def Wave.moveBars (v : Wave) (f : Nat → Nat) : Wave :=
  { v with
    watches := v.watches.map fun x => { x with addr := f x.addr }
    frags := v.frags.map fun x => match x.wait with
      | some (.barrier none a p) => { x with wait := some (.barrier none (f a) p) }
      | _ => x }

/-- PAGE_MIGRATION (R265): steps 1 to 5 in one; accesses in flight complete first. It brings the partition, the page's IPA and
the host page. DESIGN CHOICE (log 18). -/
def State.migrate (s : State) (part ipa dst : Nat) : State :=
  match s.part? part with
  | none => s
  | some p => match s.leaf2 p ipa with
    | none => s
    | some l =>
      let size := 2 ^ l.bits
      let hi := l.pa + size
      if !s.mayMigrate p l || !s.reaches p dst || !isHostPa dst then s
      else if s.pageBusy l.pa hi then s.push .pageMigration { a := part, b := ipa, c := dst }
      else
        let s := s.recallSpan l.pa size
        let mine (w : Nat) : Bool := decide (l.pa ≤ 4 * w) && decide (4 * w < hi)
        let s : State := { s with
          l1 := s.l1.filter fun e => !mine e.word
          dir := s.dir.filter fun r => !mine r.word }
        let s := (s.flipRun l ipa dst).movePage l.pa hi dst
        let move (a : Nat) : Nat := if l.pa ≤ a ∧ a < hi then dst + (a - l.pa) else a
        let gone (e : TlbEntry) : Bool := e.part == part && decide (e.pbase < hi) && decide (l.pa < e.pbase + e.size)
        let s : State := { s with
          l0 := s.l0.filter fun e => !gone e
          tlb := s.tlb.filter fun e => !gone e
          waves := s.waves.map fun v => v.moveBars move
          -- peers that wait at a barrier of the page, and requests for a token that name one
          peerWatches := s.peerWatches.map fun x => (move x.1, x.2)
          tokens := s.tokens.map fun t => { t with queue := t.queue.map fun x => (x.1, x.2.1, if x.2.1.isSome then x.2.2 else move x.2.2) }
          faults := s.faults.map fun f => { f with entry := { f.entry with pa := move f.entry.pa } } }
        let s := s.waves.foldl (fun s v => s.resave v.g v.w) s
        s.updPart part fun p => { p with
          migCounters := p.migCounters.filter fun c => c.1 != l.ipa
          migrated := p.migrated ++ [(dst, size)] }

/-- PAGE_MIGRATION. DESIGN CHOICE (log 18). -/
def execPageMigration (s : State) : Res := .next (s.migrate s.ev.a s.ev.b s.ev.c)

end Sys2Proof.Machine
end

