-- ==== Sys2Proof/Machine/Place.lean ====
section
/-! DEFINITION. Where an instruction stands when `step` is to run it next: the bytes at the unit in progress, or, in a
state with no unit, the smallest installation that runs one: a partition of wedge 0, its function and context, a launch
of one group of one wave, the translation of one page of text, and a unit about to fetch there. -/

namespace Sys2Proof.Machine

open Host

/-- A started wave (R57): registers zero, RAW and full, one fragment of all its lanes. DEDUCED (log 63). -/
def freshWave (g w : Nat) (started : LaneMask) (vcount scount : Nat) (pc tvec : DWord) (tagmode : Bool) (rnd : BitVec 2) :
    Wave where
  g := g
  w := w
  started := started
  vcount := vcount
  scount := scount
  vregs := List.replicate 128 ⟨List.replicate 32 0, 0, 0⟩
  sregs := List.replicate 128 ⟨0, 0, true⟩
  frags := if started = 0 then [] else [⟨0, 0, started, 0, 15, pc, 0, none, none, none, none, none, false, false⟩]
  frames := []
  regs := { stklim := 0, tagmode := tagmode, rndmode := rnd, fpflags := 0, tvec := tvec, tscr := 0, opthr := 0x3F7F0000
            relts := 0, secwdog := 65536 }
  watches := []
  ports := []
  held := []
  lastVis := none
  yielded := none
  rejects := 0
  units := 0

/-- A partition as it is created (R366, R442). -/
def freshPart (n : Nat) (wedges : BitVec 20) (root2 : DWord) (key : Nat) : Part where
  n := n
  wedges := wedges
  root2 := root2
  mode := 16
  hbeat := 0
  subcycle := 0
  period := 64
  cycle := 0
  migthr := 0
  fwdcfg := 0
  borrowcfg := 0
  dispcfg := 0
  grants := []
  vlog := []
  key := key
  tenant := none
  turns := []
  migCounters := []
  migrated := []
  closing := false

def freshCtx (id : Nat) (root : DWord) : Ctx where
  id := id
  root := root
  rootNext := none
  phase := .idle
  cause := 0
  lost := false
  wdog := 0
  wdogTicks := 0
  secovf := 0
  secovfNext := 0
  shapes := []
  units := []
  acts := 0
  seen := 0

def freshVf (n : Nat) (part : Option Nat) : Vf := ⟨n, part, 0, 0, 0⟩

/-- The launch, group and page of the installation. DESIGN CHOICE (log 5). -/
def placeLaunch : Launch where
  id := 0
  ctx := 0
  prio := 0
  prog := 0x1000
  tvec := 0
  argbase := 0
  args := 0
  area := 0
  vatword := 0x080002
  lanes := 32
  vcount := 128
  scount := 128
  tiles := 16
  compl := 0
  deps := []
  cdim := (1, 1, 1)
  gdim := (1, 1, 1)
  wavemode := 0
  det := false
  coresident := false
  eligible := true
  nextCluster := 1
  evicted := []
  groupsEnded := 0
  wavesExited := 0
  gbArrived := 0
  gbDone := 0
  nodes := []
  graph := false
  ended := false
  recUsed := 0
  recBase := 0
  recBytes := 0
  replay := false

/-- DESIGN CHOICE (log 5). -/
def placeGroup : Group where
  g := 0
  launch := 0
  ctx := 0
  cluster := 0
  clrank := 0
  gid := (0, 0, 0)
  cid := (0, 0, 0)
  core := 1
  nwaves := 1
  lanes := 32
  vatword := 0x080002
  vbase := 0
  sbase := 0
  padbase := 0
  granules := 2
  pad := []
  queues := []
  resident := true
  slot := none
  node := none
  nodeq := 0
  nodebatch := 0
  nodecap := 0
  reserved := []
  consumed := []
  mstat := 0
  acc := []
  tiles := []
  plane := none
  shadow := none
  planeFmt := 0
  shadowFmt := 0
  mv := 128
  kv := 2 ^ 32 - 1
  nv := 128
  ended := false
  freed := false
  age := 0

/-- The page of text of the installation: virtual and physical 0x1000 to 0x1FFF, executable, read by core 1.
DESIGN CHOICE (log 5). -/
def placePage : TlbEntry := ⟨1, some 0, 0, 0x1000, 0x1000, 0x1000, 0x1000, 5, 5, 3, 3, false, false, false⟩

/-- DESIGN CHOICE (log 5). -/
def State.install (s : State) (bytes : List Byte) : State :=
  { s with
    top := { s.top with stage := .released, released := BitVec.allOnes 20 }
    mem := memSets s.mem 0x1000 bytes
    parts := [freshPart 0 1 0 0]
    vfs := [freshVf 0 (some 0)]
    ctxs := [{ freshCtx 0 1 with phase := .running }]
    launches := [placeLaunch]
    groups := [placeGroup]
    waves := [freshWave 0 0 (BitVec.allOnes 32) 128 128 0x1000 0 false 0]
    l0 := [placePage]
    cur := some { g := 0, w := 0, f := 0, unitPc := 0x1000, pc := 0x1000, word := 0, imm := none, ord := none, rep := none } }

/-- Store an instruction's bytes where the next fetch reads them: at the unit in progress when its address translates for
a fetch, else in a fresh installation. DESIGN CHOICE (log 5). -/
def State.placeWord (s : State) (nbits w : Nat) : State :=
  let bytes := leBytes 4 (w % 2 ^ nbits)
  match s.iss? with
  | none => s.install bytes
  | some i => match s.translate i.grp.core i.grp.ctx i.c.pc.toNat .fetch with
    | (_, .ok pa _) => s.homeWrite pa bytes
    | _ => s.install bytes

end Sys2Proof.Machine
end

