-- ==== Sys2Proof/Machine/Array.lean ====
section
/-! DEFINITION. The matrix array's arithmetic and storage: formats (R184), exact sums (R185, R186), scales and smoothing
(R141 to R145, R178), tiles in the accumulator region (R182), and blocks of weights and rows of activations. -/

namespace Sys2Proof.Machine

open Host

/-! ## Sequencing engine accesses -/

def MemRes.andThen {α β : Type} (r : MemRes α) (f : State → α → MemRes β) : MemRes β :=
  match r with
  | .ok s x => f s x
  | .viol s a k l i => .viol s a k l i
  | .fault s a e => .fault s a e

/-- One access after another, in the order of a list. -/
def eachMem {α β : Type} (f : State → α → MemRes β) : List α → State → MemRes (List β)
  | [], s => .ok s []
  | x :: xs, s => (f s x).andThen fun s y => (eachMem f xs s).andThen fun s ys => .ok s (y :: ys)

/-! ## Formats (R184) -/

/-- A stationary format: its activation formats, its tile format, K_s and N_s. -/
structure Fit where
  acts : List Nat
  tile : Nat
  ks : Nat
  ns : Nat
  deriving DecidableEq, Repr

def stationary (fmt prec : Nat) : Option Fit :=
  if fmt = 3 then some ⟨[3], 1, 4, 64⟩
  else if fmt = 2 then some ⟨[2], 0, 8, 128⟩
  else if fmt = 6 then some ⟨[6], 0, 32, 128⟩
  else if fmt = 5 then some ⟨[5], 0, 32, 128⟩
  else if fmt = 7 ∨ fmt = 8 then some ⟨[7, 8], 0, 64, 128⟩
  else if fmt = 9 then some ⟨[9], 2, 64, 128⟩
  else if fmt = 11 then some ⟨[9], 2, 512 / max 1 prec, 128⟩
  else none

/-- K_s of a row block by its activation format; I8 takes that of the PL8 precision it feeds (R194). -/
def rowBlockK (fmt prec : Nat) : Option Nat :=
  if fmt = 3 then some 4
  else if fmt = 2 then some 8
  else if fmt = 5 ∨ fmt = 6 then some 32
  else if fmt = 7 ∨ fmt = 8 then some 64
  else if fmt = 9 then (if prec = 0 then some 64 else if prec = 1 then none else some (512 / prec))
  else none

/-- The tag that R450 reports as WANT for an activation: 0 where two formats fit. -/
def actWant (fit : Fit) : Nat := match fit.acts with | [f] => fmtTag f | _ => 0

/-- TFMT's tag code (R183), element size and element format. -/
def tileTag (tf : Nat) : Nat := if tf = 0 then 2 else if tf = 1 then 4 else 1
def tileSize (tf : Nat) : Nat := if tf = 1 then 8 else 4
def tileFmt (tf : Nat) : Fmt := if tf = 1 then .fp64 else .fp32

/-! ## Tiles (R182) -/

def cfgRows (c : BitVec 48) : Nat := c.toNat % 128 + 1
def cfgCols (c : BitVec 48) : Nat := c.toNat / 2 ^ 7 % 128 + 1
def cfgFmt (c : BitVec 48) : Nat := c.toNat / 2 ^ 14 % 4
def cfgOff (c : BitVec 48) : Nat := c.toNat / 2 ^ 32 % 2 ^ 16

def Group.tile? (gr : Group) (t : Nat) : Option Tile := gr.tiles.find? fun x => x.t == t && x.shaped
def Group.setTile (gr : Group) (x : Tile) : Group := { gr with tiles := gr.tiles.filter (fun y => y.t != x.t) ++ [x] }
/-- Set or clear a tile's invalid mark (R183). -/
def State.markTile (s : State) (g t : Nat) (invalid : Bool) : State :=
  s.updGroup g fun gr => { gr with tiles := gr.tiles.map fun x => if x.t == t then { x with invalid := invalid } else x }
def Group.tileInvalid (gr : Group) (t : Nat) : Bool := gr.tiles.any fun x => x.t == t && x.invalid
/-- Bytes of the accumulator region (R182). -/
def Group.accSize (gr : Group) : Nat := vatAcc gr.vatword * 16384

def cellAt (c : BitVec 48) (r n : Nat) : Nat := cfgOff c * 1024 + (r * cfgCols c + n) * tileSize (cfgFmt c)

/-- DESIGN CHOICE (log 6). -/
def Group.accByte (gr : Group) (off : Nat) : Byte :=
  match memGet gr.acc off with | some b => b | none => if gr.clean then 0 else Config.accByte gr.key off
/-- A tile element's bits. -/
def Group.cell (gr : Group) (c : BitVec 48) (r n : Nat) : Nat :=
  leNat ((List.range (tileSize (cfgFmt c))).map fun k => gr.accByte (cellAt c r n + k))
def Group.setCell (gr : Group) (c : BitVec 48) (r n x : Nat) : Group :=
  { gr with acc := memSets gr.acc (cellAt c r n) (leBytes (tileSize (cfgFmt c)) x) }
/-- Write elements of a tile: row, column and bits. -/
def State.setCells (s : State) (g : Nat) (c : BitVec 48) (xs : List (Nat × Nat × Nat)) : State :=
  s.updGroup g fun gr => xs.foldl (fun gr x => gr.setCell c x.1 x.2.1 x.2.2) gr

/-! ## Exact sums (R185, R186) -/

/-- A product times 2^sh; none stands for a scale of 0xFF (R142). -/
def mulVal (a w : FVal) (sh : Option Int) : FVal :=
  match sh with
  | none => .nan false
  | some k => match a, w with
    | .nan _, _ => .nan false
    | _, .nan _ => .nan false
    | .inf n, .inf n2 => .inf (n != n2)
    | .inf n, .fin n2 m _ => if m = 0 then .nan false else .inf (n != n2)
    | .fin n m _, .inf n2 => if m = 0 then .nan false else .inf (n != n2)
    | .fin n m e, .fin n2 m2 e2 => .fin (n != n2) (m * m2) (e + e2 + k)

def FVal.neg : FVal → Bool
  | .nan _ => false
  | .inf n => n
  | .fin n _ _ => n

def FVal.exact : FVal → Exact
  | .fin n m e => .ofFin n m e
  | _ => ⟨0, 0⟩

/-- R186: an exact sum, rounded once with RNE. -/
def sumVals (f : Fmt) (xs : List FVal) : Nat :=
  let inf (n : Bool) : Bool := xs.any fun x => x == .inf n
  if xs.any FVal.isNan || (inf true && inf false) then f.nan
  else if inf true then f.withSign true f.inf
  else if inf false then f.withSign false f.inf
  else (f.roundExact rne .ieee (xs.all FVal.neg) (xs.foldl (fun a x => a.add x.exact) ⟨0, 0⟩)).1

/-- A product rounded once into a format (R143, R144): E4M3 saturates, the others overflow to infinity (R145). -/
def mulInto (f : Fmt) (a b : FVal) : Nat :=
  match mulVal a b (some 0) with
  | .nan _ => f.nan
  | .inf n => if f.finiteTop then f.withSign n f.maxFinite else f.withSign n f.inf
  | .fin n m e => (f.roundExact rne (if f.finiteTop then .saturate else .ieee) n (Exact.ofFin n m e)).1

/-- A quotient rounded once (RNE): NaN and infinities as FP32 arithmetic has them. -/
def quotient (f : Fmt) (ov : Over) (x y : FVal) : Nat :=
  match x, y with
  | .nan _, _ => f.nan
  | _, .nan _ => f.nan
  | .inf _, .inf _ => f.nan
  | .inf n, .fin n2 _ _ => f.withSign (n != n2) f.inf
  | .fin n _ _, .inf n2 => f.withSign (n != n2) 0
  | .fin n m e, .fin n2 m2 e2 =>
    if m2 = 0 then (if m = 0 then f.nan else f.withSign (n != n2) f.inf)
    else if m = 0 then f.withSign (n != n2) 0
    else
      -- enough quotient bits for one rounding, the remainder kept as a sticky bit
      let k := 80 + Nat.log2 m2
      let q := m * 2 ^ k / m2
      (f.round rne ov (n != n2) q (e - e2 - k) (m * 2 ^ k % m2 != 0)).1

/-- Element format of a shape's floating format. -/
def fmtFloat (f : Nat) : Option Fmt := match fmtElem f with | some (.flt x) => some x | _ => none

/-! ## Scales and smoothing (R178) -/

/-- The coordinate k along KDIM and `other` along the other of dimensions 0 and 1 (R190, R192). -/
def Shape.kCoord (r : Shape) (k other i2 i3 : Int) : Coord := if r.kdim = 0 then ⟨k, other, i2, i3⟩ else ⟨other, k, i2, i3⟩
def Shape.sizeK (r : Shape) : Nat := r.size r.kdim

/-- Where the scale of an element lies under SCMODE 2 and 3. -/
def Shape.scaleAddr (r : Shape) (c : Coord) : Nat :=
  let b : Nat := if r.scmode = 2 then 16 else 32
  let sz (d : Nat) : Nat := if d = r.kdim then (r.size d + b - 1) / b else r.size d
  let ix (d : Nat) : Nat := if d = r.kdim then (c.get d).toNat / b else (c.get d).toNat
  r.scbase + (ix 0 + sz 0 * (ix 1 + sz 1 * (ix 2 + sz 2 * ix 3)))

/-- An element's scale exponent in a product (R185): 127, a scale of 1, for integer and PL8 formats and outside the shape. -/
def State.scaleOf (s : State) (core ctx : Nat) (reg : Region) (r : Shape) (c : Coord) : MemRes Nat :=
  if (fmtFloat r.fmt).isNone || r.scmode = 0 then .ok s 127
  else if r.scmode = 1 then .ok s (r.scbase % 256)
  else if !r.inside c then .ok s 127
  else (s.engRead core ctx reg (r.scaleAddr c) 1).andThen fun s bs => .ok s (leNat bs)

/-- s[k] of a shape's smoothing vector in a group's scratchpad, for K coordinates inside the shape. DEDUCED (log 35). -/
def Group.smoothAt (gr : Group) (r : Shape) (k : Nat) : Nat := leNat (gr.padBytes (r.smoff + 4 * k) 4)

/-- The smoothing factors of a block's K coordinates; none when no smoothing applies (R145). A coordinate outside the shape,
whose weight is zero, takes the factor 1. -/
def Group.smoothOf (gr : Group) (r : Shape) (k0 ks : Nat) : List Nat :=
  if r.smooth && (fmtFloat r.fmt).isSome then
    (List.range ks).map fun k => if k0 + k < r.sizeK then gr.smoothAt r (k0 + k) else 0x3F800000
  else []

/-- The reciprocal of R144. -/
def smoothRecip (x : Nat) : Nat := Fmt.fp32.recip x

/-! ## Blocks -/

/-- Stored bits of an element: zero outside the shape; a PL8 element as 8 bits of q × 2^(8 − k) (R125). -/
def State.blockElem (s : State) (core ctx : Nat) (reg : Region) (r : Shape) (c : Coord) : MemRes Nat :=
  if !r.inside c then .ok s 0
  else (s.elemRead core ctx reg r c).andThen fun s x => .ok s (if r.fmt = 11 then ofIntBits 8 (toIntBits 32 x) else x)

/-- Elements and scales at a list of coordinates. -/
def State.blockRead (s : State) (core ctx : Nat) (reg : Region) (r : Shape) (cs : List Coord) : MemRes (List (Nat × Nat)) :=
  eachMem (fun s c => (s.blockElem core ctx reg r c).andThen fun s x =>
    (s.scaleOf core ctx reg r c).andThen fun s e => .ok s (x, e)) cs s

/-- Coordinates of a K_s × N_s block, element (k, n) at place k × N_s + n. -/
def Shape.blockCoords (r : Shape) (k0 n0 i2 i3 ks ns : Nat) : List Coord :=
  (List.range (ks * ns)).map fun p => r.kCoord (k0 + p / ns : Nat) (n0 + p % ns : Nat) i2 i3

/-- Coordinates of rows of K_s elements, element k of row j at place j × K_s + k. -/
def Shape.rowCoords (r : Shape) (k0 m0 i2 ks rows : Nat) : List Coord :=
  (List.range (rows * ks)).map fun p => r.kCoord (k0 + p % ks : Nat) (m0 + p / ks : Nat) i2 0

/-- The plane that a block makes: smoothed once (R143). -/
def makePlane (r : Shape) (fit : Fit) (k0 : Nat) (xs : List (Nat × Nat)) (smooth : List Nat) : Plane :=
  let elems := (List.range (fit.ks * fit.ns)).map fun p =>
    let x := (xs.getD p (0, 127)).1
    match fmtFloat r.fmt, smooth with
    | some f, _ :: _ => mulInto f (f.unpack x) (Fmt.fp32.unpack (smooth.getD (p / fit.ns) 0))
    | _, _ => x
  ⟨r.fmt, r.prec, fit.ks, fit.ns, k0, elems, (List.range (fit.ks * fit.ns)).map fun p => (xs.getD p (0, 127)).2,
    smooth.map smoothRecip⟩

/-- Elements of a block, K_s of them to a row of a bit plane, as stored bytes (R451): PL8 as bit planes, the others one after
another. -/
def packBlock (fmt prec ks : Nat) (xs : List Nat) : List Byte :=
  if fmt = 11 then
    (List.range prec).flatMap fun j => (List.range (ks * 16)).map fun b =>
      BitVec.ofNat 8 ((List.range 8).foldl (fun a i => a + xs.getD (8 * b + i) 0 / 2 ^ (7 - j) % 2 * 2 ^ i) 0)
  else xs.flatMap (leBytes (fmtBytes fmt))

/-- n elements of a block from its stored bytes (R451). -/
def unpackBlock (fmt prec ks n : Nat) (byte : Nat → Byte) : List Nat :=
  (List.range n).map fun i =>
    if fmt = 11 then
      (List.range prec).foldl (fun a j => a + (if (byte (j * ks * 16 + i / 8)).getLsbD (i % 8) then 2 ^ (7 - j) else 0)) 0
    else leNat ((List.range (fmtBytes fmt)).map fun k => byte (i * fmtBytes fmt + k))

/-- An element of a matrix operand as an integer: I8, and PL8 as kept in a plane. -/
def intElem (x : Nat) : Int := toIntBits 8 x

/-- One tile row (R185): the activation's elements and scales, the row's accumulators for columns 0 to `cols` − 1, and the
new elements. -/
def streamRow (p : Plane) (tf actFmt kv cols : Nat) (row : List (Nat × Nat)) (acc : List Nat) : List Nat :=
  let ks := (List.range p.ks).filter fun k => decide (p.k0 + k < kv)
  if tf = 2 then
    (List.range cols).map fun n =>
      ofIntBits 32 ((acc.getD n 0 : Nat) + (ks.map fun k =>
        intElem (row.getD k (0, 127)).1 * intElem (p.elems.getD (k * p.ns + n) 0)).sum)
  else
    let f := tileFmt tf
    let af := (fmtFloat actFmt).getD .fp32
    let wf := (fmtFloat p.fmt).getD .fp32
    let acts : List (Nat × FVal × Nat) := ks.map fun k =>
      let a := af.unpack (row.getD k (0, 127)).1
      let a := match p.recips with
        | [] => a
        | _ => af.unpack (mulInto af a (Fmt.fp32.unpack (p.recips.getD k 0)))
      (k, a, (row.getD k (0, 127)).2)
    (List.range cols).map fun n =>
      match acts with
      | [] => acc.getD n 0
      | _ => sumVals f (f.unpack (acc.getD n 0) :: acts.map fun x =>
          let eW := p.scales.getD (x.1 * p.ns + n) 127
          mulVal x.2.1 (wf.unpack (p.elems.getD (x.1 * p.ns + n) 0))
            (if x.2.2 = 255 || eW = 255 then none else some ((x.2.2 : Int) + eW - 254)))

/-! ## Extents -/

/-- The extent of a shape for a group's command; the last offset of one that leaves its scratchpad, with which the command
takes MISALIGNED (R177). -/
def State.arrayExt (s : State) (gr : Group) (r : Shape) : Ext × Option DWord :=
  let e := r.extent
  let last : DWord := BitVec.ofInt 64 (e.2 - 1)
  match s.regionOf gr r with
  | none => (⟨none, 0, 0⟩, some last)
  | some .glob => (⟨none, e.1.toNat, e.2.toNat⟩, none)
  | some (.pad g) =>
    let size : Nat := match s.group? g with | some x => x.padSize | none => 0
    (⟨some g, e.1.toNat, e.2.toNat⟩, if e.1 < 0 ∨ (size : Int) < e.2 then some last else none)

end Sys2Proof.Machine
end

