-- ==== Sys2Proof/Machine/System.lean ====
section
/-! DEFINITION. The system registers that user waves reach: SGET and SSET (R114 to R116, R396, R39). -/

namespace Sys2Proof.Machine

open Host

/-- Coordinates packed as GROUPID (R116). -/
def packXyz (w : Nat) (p : Nat × Nat × Nat) : Nat := p.2.2 * 2 ^ (2 * w) + p.2.1 * 2 ^ w + p.1

/-- The frame of the fragment, when it runs a handler (R396). -/
def Iss.trapFrame (i : Iss) : Option Frame := i.fr.frame.bind fun n => i.wv.frames.find? fun f => f.slot == n

/-- R317: the deepest nesting among the fragment's lanes. -/
def Iss.secDepth (i : Iss) : Nat :=
  (lanesOf i.fr.live).foldl (fun m l => max m (i.wv.held.filter fun h => h.lane == l).length) 0

/-- R116: a user system register as SGET reads it; none for a number that names no register. HBEAT is the tick's value
(R115). DEDUCED (log 29). -/
def State.sysRead (s : State) (i : Iss) (n : Nat) : Option DWord :=
  let nat (x : Nat) : Option DWord := some (BitVec.ofNat 64 x)
  let part := s.partOf i.grp.ctx
  let fr (f : Frame → DWord) : Option DWord := some (match i.trapFrame with | some x => f x | none => 0)
  if n = 0x001 then nat i.wv.w
  else if n = 0x002 then nat (packXyz 20 i.grp.gid)
  else if n = 0x003 then nat (i.grp.nwaves * 2 ^ 11 + i.grp.lanes)
  else if n = 0x004 then nat (packXyz 20 i.grp.cid)
  else if n = 0x005 then nat i.grp.clrank
  else if n = 0x006 then
    (if i.ln.graph then some 0 else nat (packXyz 21 (i.ln.gdim.1 * i.ln.cdim.1, i.ln.gdim.2.1 * i.ln.cdim.2.1, i.ln.gdim.2.2 * i.ln.cdim.2.2)))
  else if n = 0x007 then nat i.grp.core
  else if n = 0x008 then nat (wedgeOf i.grp.core)
  else if n = 0x009 then nat (match s.top.pkgid with | some p => p.toNat | none => 0)
  else if n = 0x00A then some i.ln.argbase
  else if n = 0x00B then some i.grp.nodeq
  else if n = 0x00C then some i.grp.nodebatch
  else if n = 0x00D then some i.grp.nodecap
  else if n = 0x010 then nat (s.hbeatOf i.grp.ctx)
  else if n = 0x011 then nat (match part with | some p => p.cycle | none => 0)
  else if n = 0x012 then nat i.grp.vatword.toNat
  else if n = 0x013 then nat i.grp.vbase
  else if n = 0x014 then nat i.grp.sbase
  else if n = 0x015 then nat i.grp.padbase
  else if n = 0x016 then some i.wv.regs.stklim
  else if n = 0x017 then nat (if i.wv.regs.tagmode then 1 else 0)
  else if n = 0x020 then some i.wv.regs.tvec
  else if n = 0x021 then fr fun x => x.cause.setWidth 64
  else if n = 0x022 then fr fun x => x.faddr
  else if n = 0x023 then fr fun x => x.fpc
  else if n = 0x024 then fr fun x => BitVec.ofNat 64 (x.fparent % 256 * 256 + x.fid % 256)
  else if n = 0x025 then fr fun x => x.fsib.setWidth 64
  else if n = 0x026 then fr fun x => x.finfo
  else if n = 0x027 then some i.wv.regs.tscr
  else if n = 0x040 then some (i.wv.regs.rndmode.setWidth 64)
  else if n = 0x041 then some (i.wv.regs.fpflags.setWidth 64)
  else if n = 0x042 then some (i.grp.mstat.setWidth 64)
  else if n = 0x060 then some (i.wv.regs.opthr.setWidth 64)
  else if n = 0x080 then some i.wv.regs.relts
  else if n = 0x081 then some i.wv.regs.secwdog
  else if n = 0x082 then nat i.secDepth
  else none

/-- R39: the kernel-mode numbers. Every wave of a launch is a user wave (R374). -/
def kernelReg (n : Nat) : Bool := decide (0x100 ≤ n) && decide (n ≤ 0x1FF)
/-- PRIVILEGED (R398). -/
def State.privileged (s : State) (i : Iss) (n : Nat) : State := s.trap i 0x02 0 (BitVec.ofNat 64 n)

/-- A read of HBEAT takes its value, which a DET context records (R115, R428). WHERE marks it apart from reads of CYCLE by the
wave: bit 5 is set. DESIGN CHOICE (log 60). -/
def State.hbeatFill (s : State) (f : Fill) (val : DWord) : State :=
  let s := { s with fills := s.fills.filter fun x => x.id != f.id }
  match s.group? f.g with
  | none => s
  | some gr =>
    let r := s.detInput gr.launch 5 (detWhere gr f.w 32) val []
    (r.1.updWave f.g f.w fun w => w.setS f.s r.2.1 tRAW).resave f.g f.w

/-- HBEAT_READ_FILL (R115): at a tick of the partition, pending reads of HBEAT take the new value. Those of a DET context take it
at its next virtual cycle, or in a replay from the recording. DEDUCED (log 63). -/
def State.hbeatFills (s : State) (part hb : Nat) : State :=
  (s.fills.filter fun f => f.kind == 4).foldl (fun s f => match s.group? f.g with
    | none => s
    | some gr =>
      if !s.inPart part gr.ctx then s
      else match s.launch? gr.launch with
        | some l =>
          if !l.det then s.hbeatFill f (BitVec.ofNat 64 hb)
          else if l.replay || (s.agenda.any fun e => e.what == .detRecorderInput && e.args.f == 2 && e.args.a == f.id) then s
          else s.push .detRecorderInput { a := f.id, b := hb, f := 2 }
        | none => s.hbeatFill f (BitVec.ofNat 64 hb)) s

/-- R114: a write of S[a] to a register of the wave; read-only registers and unlisted bits are left (R4). -/
def Wave.sysWrite (v : Wave) (n : Nat) (x : DWord) (frame : Option Nat) : Wave :=
  if n = 0x016 then { v with regs := { v.regs with stklim := x } }
  else if n = 0x017 then { v with regs := { v.regs with tagmode := x.getLsbD 0 } }
  else if n = 0x020 then { v with regs := { v.regs with tvec := x } }
  else if n = 0x023 then { v with frames := v.frames.map fun f => if frame == some f.slot then { f with fpc := x } else f }
  else if n = 0x027 then { v with regs := { v.regs with tscr := x } }
  else if n = 0x040 then { v with regs := { v.regs with rndmode := x.setWidth 2 } }
  else if n = 0x041 then { v with regs := { v.regs with fpflags := v.regs.fpflags &&& ~~~x.setWidth 5 } }
  else if n = 0x060 then { v with regs := { v.regs with opthr := x.setWidth 32 } }
  else if n = 0x081 then { v with regs := { v.regs with secwdog := x } }
  else v

end Sys2Proof.Machine
end

