-- ==== Sys2Proof/Machine/SaveImage.lean ====
section
/-! DEFINITION. The bytes of a save slot (R416 to R421). -/

namespace Sys2Proof.Machine

open Host

/-! ## The group header (R419) -/

/-- A tile register: SHAPED, INVALID and the MTCFG value. -/
def Group.tileWord (g : Group) (t : Nat) : Nat :=
  match g.tiles.find? fun x => x.t == t with
  | some x => bitIf x.shaped 63 + bitIf x.invalid 62 + x.cfg.toNat
  | none => 0

/-- A plane's block: its format, PREC, sizes and k0. DESIGN CHOICE (log 44). -/
def planeWord : Option Plane → Nat
  | some p => 2 ^ 63 + p.fmt * 2 ^ 56 + p.prec * 2 ^ 52 + p.ks * 2 ^ 44 + p.ns * 2 ^ 36 + p.k0 % 2 ^ 36
  | none => 0

/-- A wave's bindings: four bits for each of V120 to V127, 8 more than the queue for a bound one. DESIGN CHOICE (log 44). -/
def Wave.bindings (v : Wave) : Nat := v.ports.foldl (fun n p => n + (8 + p.2 % 8) * 2 ^ (4 * (p.1 % 8))) 0

/-- The feeder: the queue that each port of each wave is bound to, four bytes a wave; the running record's address and its next
element, the first not yet popped; and up to four pending record addresses. DESIGN CHOICE (log 44). -/
def State.feederChunk (s : State) (g : Nat) : List Byte :=
  let cs := s.cmds.filter fun c => c.engine == 2 && c.g == g
  let bind (w : Nat) : List Byte := leBytes 4 (match s.waves.find? fun v => v.g == g && v.w == w with | some v => v.bindings | none => 0)
  let run : List Byte := match cs with | c :: _ => q8 c.detail.toNat ++ q8 (s.doneWord c) | [] => q8 0 ++ q8 0
  let pend : List Byte := (List.range 4).flatMap fun k => match cs[k + 1]? with | some c => q8 c.detail.toNat | none => q8 0
  (List.range 32).flatMap bind ++ run ++ pend ++ List.replicate 80 0

/-- A stream: its definition, which is what S[a], S[b] and S[c] of its STREAM held (R194), and the blocks that the group, its owner,
has claimed. DESIGN CHOICE (log 44). -/
def State.streamChunk (s : State) (g : Nat) (q : Nat) : List Byte :=
  match s.streams.find? fun x => x.g == g && x.q == q with
  | some x =>
    let claimed : Nat := match x.subs.find? fun y => y.g == g with | some y => y.claimed | none => 0
    let d : List Byte := match s.cmd? x.id with | some c => q8 c.a.toNat ++ q8 c.b.toNat ++ q8 c.c.toNat | none => List.replicate 24 0
    d ++ q8 claimed
  | none => List.replicate 32 0

/-- Commands that are saved with a group (R422). -/
def Cmd.saved (c : Cmd) (g : Nat) : Bool := c.g == g && [0, 1, 2, 3, 7].contains c.engine

def State.headerChunks (s : State) (g : Group) : List Chunk :=
  let hb := s.hbeatOf g.ctx
  [(0x00, q8 (packXyz 20 g.gid)), (0x08, q8 (packXyz 20 g.cid)), (0x10, q8 (g.nwaves * 2 ^ 11 + g.lanes)),
   (0x18, q8 (g.clrank * 2 ^ 48 + g.vatword.toNat)), (0x20, q8 hb), (0x28, List.replicate 24 0),
   (0x40, (List.range 16).flatMap fun t => q8 (g.tileWord t)),
   (0xC0, q8 g.mv ++ q8 g.kv ++ q8 g.nv ++ q8 (planeWord g.plane) ++ q8 (planeWord g.shadow) ++ q8 g.mstat.toNat ++ q8 0 ++ q8 0),
   (0x100, s.feederChunk g.g), (0x200, (List.range 8).flatMap (s.streamChunk g.g)),
   (0x300, List.replicate 256 0),
   (0x400, (((s.cmds.filter fun c => c.saved g.g).take 240).flatMap fun c => (s.cmdRecord c).bytes hb))]

/-! ## The slot (R418) -/

/-- A plane's 8,192 bytes: its block as R451 lays it out. -/
def planeImage (p : Option Plane) : List Byte :=
  let body : List Byte := match p with | some p => packBlock p.fmt p.prec p.ks p.elems | none => []
  (body ++ List.replicate 8192 0).take 8192

/-- The stationary plane, the shadow plane and the tiles. -/
def Group.accImage (g : Group) : List Byte :=
  planeImage g.plane ++ planeImage g.shadow ++ (List.range (vatAcc g.vatword * 16384 - 16384)).map fun k => g.accByte (16384 + k)

/-- DESIGN CHOICE (log 44). -/
def State.slotChunks (s : State) (g : Group) : List Chunk :=
  let ws := s.waves.filter fun v => v.g == g.g
  let regAt := 0x44000
  let padAt := regAt + vatReg g.vatword * 16384
  let accAt := padAt + vatPad g.vatword * 16384
  s.headerChunks g ++
  (List.range 32).map (fun w => (waveAreaAt w, match ws.find? fun v => v.w == w with
    | some v => s.waveChunk v
    | none => List.replicate 8192 0)) ++
  ws.map (fun v => (waveRegsAt v, v.regChunk)) ++
  [(padAt, g.padBytes 0 g.padSize), (accAt, g.accImage.take (vatAcc g.vatword * 16384))]

/-- Write an image's bytes through the context's own translation, one 4 KiB page at a time (R416); n bounds the pages. -/
def State.pageWrite (s : State) (core ctx va : Nat) : Nat → List Byte → MemRes Unit
  | 0, _ => .ok s ()
  | n + 1, bs =>
    let part := bs.take (4096 - va % 4096)
    if part.isEmpty then .ok s ()
    else if 2 ^ 57 ≤ va then .viol s va 0 0 0
    else match s.translate core ctx va .engineWrite with
      | (s, .ok pa _) =>
        if s.touchesObjectOf (some ctx) 3 pa part.length then .viol s va 7 0 0
        else (s.homeWrite pa part).pageWrite core ctx (va + part.length) n (bs.drop part.length)
      | (s, .viol k l i) => .viol s va k l i
      | (s, .resolvable e) => .fault s va e

/-- Write chunks at a slot (R416). -/
def State.writeChunks (s : State) (core ctx : Nat) (base : DWord) : List Chunk → MemRes Unit
  | [] => .ok s ()
  | c :: cs => (s.pageWrite core ctx (base.toNat + c.1) (c.2.length / 4096 + 2) c.2).andThen fun s _ => s.writeChunks core ctx base cs

/-- The slot map's bytes (R416). -/
def slotMapByte (used : List Nat) (k : Nat) : Byte := BitVec.ofNat 8 ((List.range 8).foldl (fun a j => a + bitIf (used.contains (8 * k + j)) j) 0)

end Sys2Proof.Machine
end

