-- ==== Sys2Proof/Machine/LoadImage.lean ====
section
/-! DEFINITION. A group read back from its save slot (R416 to R421, R423): registers, fragments, frames, scratchpad, tiles and
planes as their bytes stand. What the layout has no place for, or leaves to the JZ960, stays as State holds it. -/

namespace Sys2Proof.Machine

open Host

/-! ## Waves (R420, R421) -/

/-- The number in n bytes of an image. -/
def imgNum (bs : List Byte) (at_ n : Nat) : Nat := leNat ((bs.drop at_).take n)

/-- A counter of which the image holds the low bits only. -/
def reNum (old m new : Nat) : Nat := if old % m = new then old else new

/-- A fragment from its entry and its lanes' program counters; none when the entry is not valid. What it waits for is not in the
image. DESIGN CHOICE (log 44). -/
def Frag.reload (area : List Byte) (k : Nat) (f : Frag) : Option Frag :=
  let a := imgNum area (0x100 + 16 * k) 8
  let b := imgNum area (0x108 + 16 * k) 8
  let live : LaneMask := BitVec.ofNat 32 (a / 2 ^ 32)
  if !ebit a 31 then none
  else some { f with
    id := reNum f.id 256 (a % 256), parent := reNum f.parent 256 (a / 2 ^ 8 % 256), live := live, sib := BitVec.ofNat 32 b
    prio := BitVec.ofNat 4 (a / 2 ^ 16), age := reNum f.age 512 (a / 2 ^ 20 % 512)
    pc := match lanesOf live with | l :: _ => BitVec.ofNat 64 (imgNum area (8 * l) 8) | [] => f.pc
    wait := if ebit a 30 then f.wait else none
    frame := if ebit a 29 then some (b / 2 ^ 32 % 32) else none
    repNext := if ebit b 41 then some (b / 2 ^ 37 % 16) else none
    fwdLane := if ebit b 53 then some (b / 2 ^ 48 % 32) else none }

/-- A trap frame from its 64 bytes. -/
def Frame.reload (area : List Byte) (f : Frame) : Frame :=
  let q (j : Nat) : Nat := imgNum area (0xD00 + 64 * f.slot + 8 * j) 8
  { f with
    cause := BitVec.ofNat 8 (q 0), prio := BitVec.ofNat 4 (q 0 / 2 ^ 8), rep := if ebit (q 0) 16 then some (q 0 / 2 ^ 12 % 16) else none
    faddr := BitVec.ofNat 64 (q 1), fpc := BitVec.ofNat 64 (q 2), fid := reNum f.fid 256 (q 3 % 256)
    fparent := reNum f.fparent 256 (q 3 / 2 ^ 8 % 256), fsib := BitVec.ofNat 32 (q 4), finfo := BitVec.ofNat 64 (q 5)
    lanes := BitVec.ofNat 32 (q 6) }

/-- Tag n of the tags at a place, two to a byte. -/
def imgTag (area : List Byte) (at_ n : Nat) : BitVec 4 := BitVec.ofNat 4 (imgNum area (at_ + n / 2) 1 / 2 ^ (4 * (n % 2)))

/-- The registers of a wave from its area and its V and S blocks. -/
def Wave.reloadRegs (v : Wave) (area regs : List Byte) : Wave :=
  let vreg (n : Nat) : VReg := ⟨
    if n < v.vcount then (List.range 32).map fun l => BitVec.ofNat 32 (imgNum regs (128 * n + 4 * l) 4) else (v.vreg n).lanes,
    imgTag area 0x300 n, BitVec.ofNat 32 (imgNum area (0x400 + 4 * n) 4)⟩
  let sreg (n : Nat) : SReg := ⟨
    if n < v.scount then BitVec.ofNat 64 (imgNum regs (128 * v.vcount + 8 * n) 8) else (v.sreg n).val,
    imgTag area 0x340 n, ebit (imgNum area 0x380 16) n⟩
  let q (k : Nat) : Nat := imgNum area (0x3A0 + 8 * k) 8
  { v with
    vregs := (List.range v.vregs.length).map vreg, sregs := (List.range v.sregs.length).map sreg
    regs := { v.regs with
      tagmode := ebit (q 0) 0, rndmode := BitVec.ofNat 2 (q 1), fpflags := BitVec.ofNat 5 (q 2), stklim := BitVec.ofNat 64 (q 3)
      tscr := BitVec.ofNat 64 (q 4), opthr := BitVec.ofNat 32 (q 5), relts := BitVec.ofNat 64 (q 6)
      secwdog := BitVec.ofNat 64 (q 7) } }

/-- A wave from its image. -/
def Wave.reload (v : Wave) (area regs : List Byte) : Wave :=
  { v.reloadRegs area regs with
    frags := (List.range v.frags.length).filterMap fun k => (v.frags[k]?).bind (Frag.reload area k)
    frames := v.frames.map (Frame.reload area)
    watches := (List.range v.watches.length).map fun k =>
      ⟨imgNum area (0x600 + 16 * k) 8, BitVec.ofNat 32 (imgNum area (0x608 + 16 * k) 8)⟩ }

/-! ## Groups (R418, R419) -/

/-- The bytes of a list that differ from what a place reads as, with their offsets. -/
def changed (at_ : Nat) (now : Nat → Byte) (bs : List Byte) : List (Nat × Byte) :=
  ((List.range bs.length).map fun k => (at_ + k, bs.getD k 0)).filter fun x => now x.1 != x.2

/-- A plane whose bytes have been changed. -/
def Plane.reload (p : Plane) (bs : List Byte) : Plane :=
  if planeImage (some p) = bs then p
  else { p with elems := unpackBlock p.fmt p.prec p.ks p.elems.length fun k => bs.getD k 0 }

/-- The header's tiles, counts and MSTAT, the scratchpad image and the accumulator image. -/
def Group.reload (g : Group) (head pad acc : List Byte) : Group :=
  let q (k : Nat) : Nat := imgNum head k 8
  { g with
    tiles := g.tiles.map fun t =>
      let x := q (0x40 + 8 * t.t)
      { t with shaped := ebit x 63, invalid := ebit x 62, cfg := BitVec.ofNat 48 x }
    mv := q 0xC0, kv := q 0xC8, nv := q 0xD0, mstat := BitVec.ofNat 32 (q 0xE8)
    plane := g.plane.map fun p => p.reload (acc.take 8192)
    shadow := g.shadow.map fun p => p.reload ((acc.drop 8192).take 8192)
    pad := (changed 0 g.padByte pad).foldl (fun m x => memSet m x.1 x.2) g.pad
    acc := (changed 16384 g.accByte (acc.drop 16384)).foldl (fun m x => memSet m x.1 x.2) g.acc }

/-! ## Reading a slot (R416) -/

/-- Read n bytes of an image through the context's own translation, one 4 KiB page at a time; the first number bounds the pages. -/
def State.pageRead (s : State) (core ctx va : Nat) : Nat → Nat → MemRes (List Byte)
  | 0, _ => .ok s []
  | k + 1, n =>
    let m := min n (4096 - va % 4096)
    if m = 0 then .ok s []
    else if 2 ^ 57 ≤ va then .viol s va 0 0 0
    else match s.translate core ctx va .engineRead with
      | (s, .ok pa _) => match s.homeBytes pa m with
        | none => .viol s va 8 0 0
        | some bs => (s.pageRead core ctx (va + m) k (n - m)).andThen fun s r => .ok s (bs ++ r)
      | (s, .viol k l i) => .viol s va k l i
      | (s, .resolvable e) => .fault s va e

/-- n bytes at a place of a slot. -/
def State.slotRead (s : State) (core ctx : Nat) (base : DWord) (at_ n : Nat) : MemRes (List Byte) :=
  s.pageRead core ctx (base.toNat + at_) (n / 4096 + 2) n

/-- The waves of a group from its slot. -/
def State.reloadWaves (s : State) (core ctx : Nat) (base : DWord) : List Wave → MemRes Unit
  | [] => .ok s ()
  | v :: vs => (s.slotRead core ctx base (waveAreaAt v.w) 8192).andThen fun s area =>
      (s.slotRead core ctx base (waveRegsAt v) (128 * v.vcount + 8 * v.scount)).andThen fun s regs =>
        (s.updWave v.g v.w fun w => w.reload area regs).reloadWaves core ctx base vs

/-- A group from its slot (R423, step 1). DESIGN CHOICE (log 44). -/
def State.reloadGroup (s : State) (core : Nat) (l : Launch) (g : Group) : MemRes Unit :=
  match g.slot with
  | none => .ok s ()
  | some n =>
    let base := l.slotAt n
    let padAt := 0x44000 + vatReg g.vatword * 16384
    (s.slotRead core g.ctx base 0 0x400).andThen fun s head =>
      (s.slotRead core g.ctx base padAt g.padSize).andThen fun s pad =>
        (s.slotRead core g.ctx base (padAt + vatPad g.vatword * 16384) (vatAcc g.vatword * 16384)).andThen fun s acc =>
          (s.updGroup g.g fun x => x.reload head pad acc).reloadWaves core g.ctx base (s.waves.filter fun v => v.g == g.g)

def State.reloadGroups (s : State) (core : Nat) (l : Launch) : List Group → MemRes Unit
  | [] => .ok s ()
  | g :: gs => (s.reloadGroup core l g).andThen fun s _ => s.reloadGroups core l gs

end Sys2Proof.Machine
end

