-- ==== Sys2Proof/Machine/ShapeTable.lean ====
section
/-! DEFINITION. The shape table of a context (R175 to R181): SHDEF, SHDROP, the objects they register and free (R256,
R260, R261), and the image of a launch. -/

namespace Sys2Proof.Machine

open Host

/-! ## Objects -/

/-- Words of the spans that lie in a core's L1. -/
def inSpans (sp : List (Nat × Nat)) (word : Nat) : Bool := sp.any fun q => decide (q.1 < 4 * word + 4) && decide (4 * word < q.1 + q.2)

/-- Drop the clean bytes of the spans from every L1; stored bytes whose registration is in flight stay. -/
def State.dropSpans (s : State) (sp : List (Nat × Nat)) : State :=
  { s with l1 := s.l1.filterMap fun e =>
      if inSpans sp e.word && !e.own then (if e.dm = 0 then none else some { e with mask := e.dm }) else some e }

/-- R261: every owned word of the spans is written back, and every clean copy is dropped. -/
def State.flushSpans (s : State) (sp : List (Nat × Nat)) : State :=
  ({ s with
    mem := (s.l1.filter fun e => e.own && inSpans sp e.word).foldl mergeDirty s.mem
    owners := s.owners.filter fun o => !inSpans sp o.word
    l1 := s.l1.map fun e => if e.own && inSpans sp e.word then { e with own := false, dm := 0 } else e } : State).dropSpans sp

/-- The object that a table entry of a context names, if it names one. -/
def State.objectOf (s : State) (ctx id : Nat) : Option RangeEntry :=
  s.ranges.find? fun r => r.ctx == ctx && r.owner == id && (r.kind == 2 || r.kind == 3)

/-- Every package that has borrowed an object is told to drop its lines: page by page, by the addresses at which it knows them (R353). -/
def State.recallLines (s : State) (fill : Nat) (r : RangeEntry) : State :=
  let pages := (pagePieces r.lo (r.hi - r.lo)).flatMap fun q => leBytes 8 (s.ownVa (s.ipaOf r.ctx (r.lo + q.1))).toNat ++ leBytes 8 q.2
  (s.lenders.filter fun x => x.1 == r.id).foldl (fun s x =>
    ({ s.fresh with recalls := s.recalls ++ [⟨s.seq, fill, r.id⟩] } : State).emit (.remote x.2 4 (leBytes 8 s.seq ++ pages)))
    { s with lenders := s.lenders.filter fun x => x.1 != r.id }

/-- The object of an entry is freed (R179, R180): an IMMUTABLE object's lines leave every L1 (R261) and every borrower
(R353). -/
def State.freeObject (s : State) (ctx id : Nat) : State :=
  match s.objectOf ctx id with
  | none => s
  | some r =>
    let s := if r.kind = 3 then
        let s := s.dropSpans (s.objSpans r)
        s.recallLines 0 r
      else { s with tokens := s.tokens.filter fun t => !(t.ctx == ctx && t.shape == id) }
    ({ s with ranges := s.ranges.filter fun x => x.id != r.id || !(x.kind == 2 || x.kind == 3) } : State).wakeEngine

/-- The table entry of an id, replaced. -/
def State.setShape (s : State) (ctx id : Nat) (r : Shape) : State :=
  s.updCtx ctx fun c => { c with shapes := (c.shapes.filter fun e => e.1 != id) ++ (if r = 0 then [] else [(id, r)]) }

/-- Entries of a partition in the range table of each of its wedges (R256). -/
def State.rangeCount (s : State) (part : Nat) : Nat := (s.ranges.filter fun r => r.part == part).length

/-- R179: the status of a definition. `wheel` is the issuing wave's wheel; none for a host's launch. `room` tells whether
status 2 is decided here. -/
def State.shapeStatus (s : State) (part ctx : Nat) (wheel : Option Nat) (id : Nat) (r : Shape) (room : Bool) : Nat :=
  let old := s.objectOf ctx id
  let e := r.extent
  if r.malformed then 1
  else if room && r.cls != 0 && decide (512 < s.rangeCount part + 1 - (if old.isSome then 1 else 0)) then 2
  else if r.cls = 1 &&
      (decide (400 ≤ r.tokhome) || (match wheel with | some w => wheelOf (wedgeOf r.tokhome) != w | none => false) ||
       !(match s.part? part with | some p => p.wedges.getLsbD (wedgeOf r.tokhome) | none => false)) then 3
  else if r.cls != 0 && (s.ranges.any fun x => x.ctx == ctx && (x.kind == 2 || x.kind == 3) && (old.map (·.id)) != some x.id &&
      decide ((x.lo : Int) < e.2) && decide (e.1 < (x.hi : Int))) then 4
  else 0

/-- A successful definition (R179): the old object freed, the new one registered, the record in the table. -/
def State.defineShape (s : State) (part core ctx id : Nat) (r : Shape) : State :=
  let s := s.freeObject ctx id
  let e := r.extent
  let lo := e.1.toNat
  let hi := e.2.toNat
  let s := if r.cls = 0 then s
    else
      let sp := s.physSpans core ctx lo hi
      let s := if r.cls = 2 then s.flushSpans sp else s
      let n := s.seq
      let s := s.fresh
      let s := { s with ranges := s.ranges ++ [⟨n, ctx, part, if r.cls = 1 then 2 else 3, none, lo, hi, 0, core, id, sp⟩] }
      if r.cls = 1 then
        { s with tokens := s.tokens ++ [⟨ctx, id, wheelOf (wedgeOf r.tokhome), r.tokhome, []⟩] }
      else s
  s.setShape ctx id r

/-! ## SHDEF and SHDROP -/

/-- The bytes of a record that a wave's word reads as a load (R179): its checks, then its n bytes, n a power of two. -/
def readRecord (s : State) (i : Iss) (va : DWord) (n : Nat) (k : State → List Byte → Res) : Res :=
  match s.memFault i .load false n [(0, va)] with
  | some (.trap s c a f) => .next (s.trap i c a f)
  | some (.over_ s) => .next s
  | some (.wait s w) => .next (s.block i w)
  | some (.ok s) | some (.reject s) => .next s
  | none =>
    if isGalord va then .next (s.violate i va 0 0 0 .load 0)
    else match s.translate i.grp.core i.grp.ctx va.toNat .load with
      | (s, .viol kd l ipa) => .next (s.violate i va kd l ipa .load 0)
      | (s, .resolvable e) =>
        let r := s.fileFault i.grp.ctx va .load e none (some (i.c.g, i.c.w, i.c.f))
        .next (r.1.block i (.fault r.2))
      | (s, .ok pa _) => match s.loadBytes i.grp.core pa n with
        | none => .next (s.violate i va 8 0 0 .load 0)
        | some bs => k s bs

/-- R179: the record is read as a load; the status fills later (R180). An IMMUTABLE shape is a release (R261). -/
def execShdef (a b c : BitVec 7) (s : State) : Res :=
  s.issue {} (fun i => sOk i.wv a.toNat && sOk i.wv b.toNat && sOk i.wv c.toNat) true (sSrcs [(1, b.toNat), (2, c.toNat)])
    [(true, a.toNat)] fun i =>
    match s.accessWait i.c.g i.c.w false false with
    | some w => .next (s.block i w)
    | none => readRecord s i (i.wv.sreg c.toNat).val 64 fun s bs =>
        let r : Shape := BitVec.ofNat 512 (leNat bs)
        match (if r.cls = 2 then s.accessWait i.c.g i.c.w false true else none) with
        | some w => .next (s.block i w)
        | none =>
          let f : Fill := ⟨s.seq, i.c.g, i.c.w, a.toNat, none, 1, BitVec.ofNat 64 ((i.wv.sreg b.toNat).val.toNat % 256), 0, bs⟩
          let s := ({ s.fresh with fills := s.fills ++ [f] } : State).push .shapeStatusFill { a := s.seq }
          .next ((s.updCur i fun w => w.emptyS a.toNat).retire i)

/-- R180. -/
def execShdrop (a b : BitVec 7) (s : State) : Res :=
  s.issue {} (fun i => sOk i.wv a.toNat && sOk i.wv b.toNat) true (sSrcs [(1, b.toNat)]) [(true, a.toNat)] fun i =>
    let f : Fill := ⟨s.seq, i.c.g, i.c.w, a.toNat, none, 1, BitVec.ofNat 64 ((i.wv.sreg b.toNat).val.toNat % 256), 1, []⟩
    let s := ({ s.fresh with fills := s.fills ++ [f] } : State).push .shapeStatusFill { a := s.seq }
    .next ((s.updCur i fun w => w.emptyS a.toNat).retire i)

/-- A status with tag I32 fills its S register, and the fill is over. -/
def State.fillStatus (s : State) (f : Fill) (x : Nat) : State :=
  (({ s with fills := s.fills.filter fun y => y.id != f.id } : State).updWave f.g f.w fun w =>
    w.setS f.s (BitVec.ofNat 64 x) tI32).resave f.g f.w

/-- The borrowers of the object that a fill is to free are told first; none where nothing remains to be awaited (R353). -/
def State.recallFirst (s : State) (f : Fill) (ctx n : Nat) : Option State :=
  let s := match s.objectOf ctx n with
    | some r => if r.kind = 3 then s.recallLines f.id r else s
    | none => s
  if s.recalls.any fun x => x.fill == f.id then some s else none

/-- SHAPE_STATUS_FILL (R179, R180): a drop or a redefinition takes place once every borrower has dropped the object's lines
(R353). It brings the fill. -/
def State.shapeFill (s : State) (id : Nat) : State :=
  match s.fills.find? fun f => f.id == id && f.kind == 1 with
  | none => s
  | some f => match s.group? f.g with
    | none => s
    | some gr =>
      let part := match s.partOf gr.ctx with | some p => p.n | none => 0
      let n := f.x.toNat
      if f.y = 1 then
        (s.recallFirst f gr.ctx n).getD (((s.freeObject gr.ctx n).setShape gr.ctx n 0).fillStatus f 0)
      else
        let r : Shape := BitVec.ofNat 512 (leNat f.bytes)
        let st := s.shapeStatus part gr.ctx (some (wheelOf (wedgeOf gr.core))) n r true
        if st = 0 then (s.recallFirst f gr.ctx n).getD ((s.defineShape part gr.core gr.ctx n r).fillStatus f 0) else s.fillStatus f st

/-- SHAPE_STATUS_FILL. -/
def execShapeStatusFill (s : State) : Res := .next (s.shapeFill s.ev.a)

/-! ## The image of a launch (R181) -/

/-- The records of an image that are not 64 zero bytes, with their numbers. -/
def imageRecords : Nat → List Byte → List (Nat × Shape)
  | _, [] => []
  | n, b :: bs =>
    -- one byte is peeled at a time; a record starts at every multiple of 64
    if n % 64 = 0 then
      let r : Shape := BitVec.ofNat 512 (leNat ((b :: bs).take 64))
      if r = 0 then imageRecords (n + 1) bs else (n / 64, r) :: imageRecords (n + 1) bs
    else imageRecords (n + 1) bs

/-- Load an image as SHDEF would, entry by entry; none when one entry would be refused. DEDUCED (log 27). -/
def State.loadImage (s : State) (part core ctx : Nat) (wheel : Option Nat) (img : List Byte) : Option State :=
  let rs := imageRecords 0 img
  if rs.any fun r => r.2.malformed then none
  else
    let r := rs.foldl (fun (o : Option State) r => match o with
      | none => none
      | some s => if s.shapeStatus part ctx wheel r.1 r.2 false = 0 then some (s.defineShape part core ctx r.1 r.2) else none)
      (some s)
    match r with
    | some s' => if 512 < s'.rangeCount part then none else some s'
    | none => none

end Sys2Proof.Machine
end

