-- ==== Sys2Proof/Machine/Submit.lean ====
section
/-! DEFINITION. Submissions (R68 to R70, R102 to R108, R449): the launch record, its checks in their order, the copies made
at acceptance, and the graph table with its nodes. -/

namespace Sys2Proof.Machine

open Host

/-! ## Room on cores (R13, R55, R56) -/

/-- The core runs a service group. -/
def State.isServiceCore (s : State) (core : Nat) : Bool :=
  match s.serviceCore (wheelOf (wedgeOf core)) with | some c => c == core | none => false
def State.slotLimit (s : State) (core : Nat) : Nat := if s.isServiceCore core then 46 else 48
def State.granuleLimit (s : State) (core : Nat) : Nat := if s.isServiceCore core then 60 else 64

def wavesOf (lanes : Nat) : Nat := (lanes + 31) / 32
/-- Granules a group takes (R54). -/
def vatSum (v : BitVec 24) : Nat := vatReg v + vatPad v + vatAcc v

/-- Groups of one kind that an empty core holds (R55, R56). DEDUCED (log 29). -/
def State.emptyCap (s : State) (core nw : Nat) (v : BitVec 24) : Nat :=
  if s.isServiceCore core && decide (60 < vatSum v + vatL1min v) then 0
  else min (s.slotLimit core / max 1 nw) ((s.granuleLimit core - vatL1min v) / max 1 (vatSum v))

def wedgeCores (w : Nat) : List Nat := (List.range 20).map fun i => 20 * w + i
def Part.wedgeList (p : Part) : List Nat := (List.range 20).filter fun w => p.wedges.getLsbD w

/-- DEDUCED (log 29). -/
def State.wedgeCap (s : State) (w nw : Nat) (v : BitVec 24) : Nat :=
  (wedgeCores w).foldl (fun n c => n + s.emptyCap c nw v) 0

/-- Whole clusters of `size` groups that the partition's wedges hold when empty. -/
def State.clustersFit (s : State) (p : Part) (size nw : Nat) (v : BitVec 24) : Nat :=
  p.wedgeList.foldl (fun n w => n + s.wedgeCap w nw v / max 1 size) 0

/-- What a core may hold, as waves and granules taken, when one more group of some kind joins. -/
def mixGrow (slots granules : Nat) (kinds held : List (Nat × Nat)) : List (Nat × Nat) :=
  ((held.flatMap fun p => kinds.map fun t => (p.1 + t.1, p.2 + t.2)).filter fun p =>
    decide (p.1 ≤ slots) && decide (p.2 ≤ granules)).eraseDups

/-- The most groups of a mix of kinds that fit, at most `n`. -/
def mixCount (slots granules : Nat) (kinds : List (Nat × Nat)) : Nat → List (Nat × Nat) → Nat
  | 0, _ => 0
  | n + 1, held => match mixGrow slots granules kinds held with
    | [] => 0
    | h :: hs => 1 + mixCount slots granules kinds n (h :: hs)

/-- The most groups, of several kinds as waves and vat words, that a core holds when empty (R56, R417): the mix with each L1MIN as
the largest in turn. DEDUCED (log 29). -/
def mixFit (slots granules : Nat) (kinds : List (Nat × BitVec 24)) : Nat :=
  ((kinds.map fun k => vatL1min k.2).eraseDups.map fun l =>
    mixCount slots (granules - l) (((kinds.filter fun k => decide (vatL1min k.2 ≤ l)).map fun k => (k.1, max 1 (vatSum k.2))).eraseDups)
      slots [(0, 0)]).foldl max 0

/-- The most groups of a graph's nodes that a partition's wedges hold when empty (R417). -/
def State.graphFit (s : State) (p : Part) (kinds : List (Nat × BitVec 24)) : Nat :=
  let cores := p.wedgeList.flatMap wedgeCores
  let service := (cores.filter s.isServiceCore).length
  service * mixFit 46 60 kinds + (cores.length - service) * mixFit 48 64 kinds

/-! ## The record (R102, R103) -/

/-- A launch record: eight little-endian qwords. -/
abbrev LaunchRec := BitVec 512
def LaunchRec.f (r : LaunchRec) (q lo w : Nat) : Nat := r.toNat / 2 ^ (64 * q + lo) % 2 ^ w

def LaunchRec.prog (r : LaunchRec) : Nat := r.f 0 2 46 * 4
def LaunchRec.vat (r : LaunchRec) : BitVec 24 := BitVec.ofNat 24 (r.f 2 0 24)
def LaunchRec.lanes (r : LaunchRec) : Nat := r.f 2 48 10 + 1
def LaunchRec.area (r : LaunchRec) : Nat := r.f 2 24 24 * 2 ^ 24
def LaunchRec.vcount (r : LaunchRec) : Nat := (r.f 3 0 4 + 1) * 8
def LaunchRec.scount (r : LaunchRec) : Nat := (r.f 4 0 4 + 1) * 8
def LaunchRec.cdim (r : LaunchRec) : Nat × Nat × Nat := (r.f 5 48 4 + 1, r.f 5 52 4 + 1, r.f 5 56 4 + 1)
/-- The grid in groups. -/
def LaunchRec.grid (r : LaunchRec) : Nat × Nat × Nat := (r.f 7 0 20 + 1, r.f 7 20 20 + 1, r.f 7 40 20 + 1)
def LaunchRec.graph (r : LaunchRec) : Bool := r.getLsbD 511
def LaunchRec.coresident (r : LaunchRec) : Bool := r.getLsbD 508
def LaunchRec.csize (r : LaunchRec) : Nat := r.cdim.1 * r.cdim.2.1 * r.cdim.2.2
/-- The grid in clusters. -/
def LaunchRec.clusters (r : LaunchRec) : Nat × Nat × Nat :=
  (r.grid.1 / r.cdim.1, r.grid.2.1 / r.cdim.2.1, r.grid.2.2 / r.cdim.2.2)
def count3 (p : Nat × Nat × Nat) : Nat := p.1 * p.2.1 * p.2.2

/-- R103. -/
def LaunchRec.malformed (r : LaunchRec) : Bool :=
  r.f 0 0 2 != 0 || r.f 1 58 6 != 0 || r.f 1 0 3 != 0 || r.f 3 62 2 != 0 ||
  r.prog == 0 ||
  (!r.graph && (decide (vatL1min r.vat < 2) || decide (62 < vatL1min r.vat))) ||
  decide (512 < r.f 1 48 10) || decide (16 < r.f 3 57 5) || decide (256 < r.f 3 48 9) ||
  decide (16 < r.csize) ||
  r.grid.1 % r.cdim.1 != 0 || r.grid.2.1 % r.cdim.2.1 != 0 || r.grid.2.2 % r.cdim.2.2 != 0 ||
  r.f 5 0 2 == 3 ||
  (r.f 0 48 16 != 0 && r.f 7 62 1 == 0) ||
  (r.coresident && r.graph) ||
  (r.graph && (r.f 2 0 24 != 0 || r.f 2 48 10 != 0 || r.f 3 0 4 != 0 || r.f 4 0 4 != 0 || r.f 3 57 5 != 0 || r.f 3 48 9 != 0 ||
    r.f 4 48 16 != 0 || r.f 0 48 16 != 0 || r.f 5 48 12 != 0 || r.f 7 0 60 != 0 || r.f 7 62 1 != 0))

/-- R55. -/
def vatRefused (v : BitVec 24) (nw vcount scount : Nat) : Bool :=
  decide (64 < vatSum v + vatL1min v) || decide (vatReg v * 16384 < nw * (vcount * 128 + scount * 8))

/-- Bytes of a save slot (R416). -/
def slotBytes (granules : Nat) : Nat := 278528 + granules * 16384

/-! ## The graph table (R105 to R107) -/

def nodeField (r : Nat) (q lo w : Nat) : Nat := r / 2 ^ (64 * q + lo) % 2 ^ w
def nodeEdges (r : Nat) : List (Nat × Nat) :=
  (List.range (min 8 (nodeField r 3 0 4))).map fun e => (r / 2 ^ (8 * (32 + 2 * e)) % 256, r / 2 ^ (8 * (33 + 2 * e)) % 256)
def nodeVat (r : Nat) : BitVec 24 := BitVec.ofNat 24 (nodeField r 1 0 24)
def nodeLanes (r : Nat) : Nat := nodeField r 1 24 10 + 1
def nodeV (r : Nat) : Nat := (nodeField r 1 34 4 + 1) * 8
def nodeS (r : Nat) : Nat := (nodeField r 1 38 4 + 1) * 8
def nodeQueueBytes (r : Nat) : Nat := (nodeField r 2 32 32 * nodeField r 2 25 6 * 8 + 127) / 128 * 128

/-- A reserved field of a node record is nonzero (R106). -/
def nodeReserved (r : Nat) : Bool :=
  nodeField r 0 0 2 != 0 || nodeField r 1 52 12 != 0 || nodeField r 2 31 1 != 0 || nodeField r 3 4 60 != 0 ||
  ((List.range 8).any fun e => decide (nodeField r 3 0 4 ≤ e) && r / 2 ^ (8 * (32 + 2 * e)) % 2 ^ 16 != 0) ||
  r / 2 ^ 384 % 2 ^ 128 != 0

/-- Longest path into each node, in edges; a value at or beyond the number of nodes shows a cycle. DESIGN CHOICE (log 26). -/
def nodeDepths (edges : List (List (Nat × Nat))) : List Nat :=
  let n := edges.length
  let relax (d : List Nat) : List Nat :=
    (List.range n).map fun t => (List.range n).foldl (fun m u =>
      if (edges.getD u []).any fun e => e.1 == t then max m (d.getD u 0 + 1) else m) (d.getD t 0)
  (List.range (n + 1)).foldl (fun d _ => relax d) (List.replicate n 0)

/-- R107: why the table is refused, none when it is not: 0x16 before a node's own codes, and of a node 0x10 before 0x11.
DEDUCED (log 28); DESIGN CHOICE (log 69). -/
def graphRefused (h : Nat) (nodes : List Nat) : Option Nat :=
  let n := nodes.length
  let edges := nodes.map nodeEdges
  let cap (r : Nat) : Nat := nodeField r 2 32 32
  let need (t : Nat) : Nat := (edges.flatten.filter fun e => e.1 == t).foldl (fun m e => max m e.2) 0 + 32
  let entry := nodeField h 3 40 8
  let shapeBad := nodeField h 3 48 16 != 0 || h / 2 ^ 256 % 2 ^ 256 != 0 || nodes.any nodeReserved
  if shapeBad ||
      decide (nodeField h 1 0 64 < (nodes.map nodeQueueBytes).sum) ||
      decide (n ≤ entry) || (edges.flatten.any fun e => decide (n ≤ e.1)) ||
      ((nodeDepths edges).any fun d => decide (n ≤ d)) ||
      ((List.range n).any fun t => decide (cap (nodes.getD t 0) < need t)) ||
      decide (cap (nodes.getD entry 0) < nodeField h 3 0 32) ||
      nodes.any fun r => decide (8 < nodeField r 3 0 4) || nodeField r 2 25 6 == 0 || decide (32 < nodeField r 2 25 6) || cap r == 0 ||
        (nodeEdges r).any fun e => e.2 == 0
  then some 0x16
  else
    nodes.findSome? fun r =>
      if decide (vatL1min (nodeVat r) < 2) || decide (62 < vatL1min (nodeVat r)) || decide (16 < nodeField r 1 42 5) ||
          decide (256 < nodeField r 2 16 9) || nodeField r 1 47 2 == 3 || (nodeField r 0 48 16 != 0 && nodeField r 1 51 1 == 0) then
        some 0x10
      else if vatRefused (nodeVat r) (wavesOf (nodeLanes r)) (nodeV r) (nodeS r) then some 0x11 else none

/-- Node i of an accepted graph. -/
def mkNode (qarea : Nat) (nodes : List Nat) (depths : List Nat) (i : Nat) : Node :=
  let r := nodes.getD i 0
  let prog := nodeField r 0 2 46 * 4
  { prog := BitVec.ofNat 64 prog
    tvec := if nodeField r 1 51 1 = 1 then BitVec.ofNat 64 (prog + 4 * nodeField r 0 48 16) else 0
    wavemode := BitVec.ofNat 4 (nodeField r 1 47 4), tiles := nodeField r 1 42 5, scount := nodeS r, vcount := nodeV r
    lanes := nodeLanes r, vatword := nodeVat r, qcap := nodeField r 2 32 32, recBytes := nodeField r 2 25 6 * 8
    shapeCnt := nodeField r 2 16 9, shapeAddr := BitVec.ofNat 64 (prog + 64 * nodeField r 2 0 16)
    edges := nodeEdges r, qaddr := qarea + ((nodes.take i).map nodeQueueBytes).sum
    next := 0, srcs := [], slots := [], resv := 0, batches := [], lastArrival := 0, started := 0, shapesLoaded := false
    depth := depths.getD i 0 }

/-! ## Submission -/

/-- How a submission ends (R70), or what it waits for. -/
inductive Sub where
  | done (s : State) (code : Nat)
  | wait (s : State) (va : DWord) (entry : EntryAt)

/-- A read that a submission makes: a fault that could be resolved waits, unless its resolution failed; any other failure is the code
given, 0x14 for all but a graph's header (R70, R449). -/
def subRead (s : State) (core ctx : Nat) (failed : Bool) (va n : Nat) (k : State → List Byte → Sub) (code : Nat := 0x14) : Sub :=
  match s.engRead core ctx .glob va n with
  | .ok s bs => k s bs
  | .viol s _ _ _ _ => .done s code
  | .fault s a e => if failed then .done s code else .wait s (BitVec.ofInt 64 a) e

/-- What the scheduler reads at a barrier that a launch depends on (R71). -/
inductive DepRead where
  | ok (phase : BitVec 32)
  | fault (entry : EntryAt)
  | viol
  deriving DecidableEq, Repr

/-- The phase of a barrier that a launch depends on, as its home has it. -/
def State.depPhase (s : State) (ctx va : Nat) : DepRead :=
  match (s.translate (s.ctlCore ctx) ctx va .load).2 with
  | .ok pa _ => (match s.homeBytes pa 4 with | some bs => .ok (BitVec.ofNat 32 (leNat bs)) | none => .viol)
  | .resolvable e => .fault e
  | .viol .. => .viol

/-- Launches that wait in the queues (R70). DEDUCED (log 42). -/
def Launch.pending (l : Launch) : Bool := !l.ended && (l.graph || decide (l.nextCluster < count3 l.gdim))

/-- The node records of a graph (R105, R106) under the header in `hdr`: how many bytes follow the header. -/
def graphNodes (hdr : List Byte) : Nat := nodeField (leNat hdr) 3 32 8 + 1
def splitNodes (n : Nat) (nb : List Byte) : List Nat := (List.range n).map fun i => leNat ((nb.drop (64 * i)).take 64)

/-- SAVEBYTES that a launch needs (R417), as the groups' vats ask for it. -/
def State.saveNeed (s : State) (p : Part) (r : LaunchRec) (nodes : List Nat) : Nat :=
  if r.graph then
    4096 + max 1 (s.graphFit p (nodes.map fun x => (wavesOf (nodeLanes x), nodeVat x))) * slotBytes (nodes.foldl (fun m x => max m (vatSum (nodeVat x))) 0)
  else 4096 + min (count3 r.grid) (s.clustersFit p r.csize (wavesOf r.lanes) r.vat * r.csize) * slotBytes (vatSum r.vat)

/-- The nodes that step 3's check of SAVEBYTES looks at, for a graph whose table can be read; step 8 decides about the others. -/
def subNodes (s : State) (core ctx : Nat) (failed : Bool) (r : LaunchRec) (k : State → List Nat → Sub) : Sub :=
  if !r.graph then k s []
  else match s.engRead core ctx .glob r.prog 64 with
    | .viol .. => k s []
    | .fault s a e => if failed then k s [] else .wait s (BitVec.ofInt 64 a) e
    | .ok s hdr => match s.engRead core ctx .glob (r.prog + 64) (64 * graphNodes hdr) with
      | .viol .. => k s []
      | .fault s a e => if failed then k s [] else .wait s (BitVec.ofInt 64 a) e
      | .ok s nb => k s (splitNodes (graphNodes hdr) nb)

/-- Where a launch's copy of its argument block lies in its context's space. DESIGN CHOICE (log 69). -/
def argVa (id : Nat) : DWord := BitVec.ofNat 64 (2 ^ 56 + 8192 * id)

/-- Steps 3 to 9 of R449, and the acceptance. `wheel` is the issuing wave's, none for a host. A graph's header that cannot be
read answers 0x16 and a node record 0x14 (R449); its INPUT records that cannot be read, and a queue area that cannot be written,
answer 0x14. DEDUCED (log 42); DESIGN CHOICE (log 69). -/
def submit (s0 : State) (core ctx : Nat) (wheel : Option Nat) (failed : Bool) (r : LaunchRec) : Sub :=
  match s0.partOf ctx with
  | none => .done s0 0x15
  | some p =>
    if r.malformed then .done s0 0x10
    else subRead s0 core ctx failed r.area 64 fun s hb =>
      let h := leNat hb
      let det := ebit r.toNat 509 || p.mode.getLsbD 6
      let q (k : Nat) : Nat := h / 2 ^ (64 * k) % 2 ^ 64
      let nw := wavesOf r.lanes
      subNodes s core ctx failed r fun s tableNodes =>
      if decide (q 2 < s.saveNeed p r tableNodes) || (det && (q 3 / 2 ^ 12 == 0 || q 4 == 0)) then .done s 0x10
      else if !r.graph && vatRefused r.vat nw r.vcount r.scount then .done s 0x11
      else if !r.graph && !(p.wedgeList.any fun w => decide (r.csize ≤ s.wedgeCap w nw r.vat)) then .done s 0x12
      else if r.coresident && decide (s.clustersFit p r.csize nw r.vat < count3 r.clusters) then .done s 0x13
      else subRead s core ctx failed (r.f 1 3 45 * 8) (r.f 1 48 10 * 8) fun s args =>
        subRead s core ctx failed (r.prog + 64 * r.f 4 48 16) (r.f 3 48 9 * 64) fun s img =>
          match s.loadImage p.n core ctx wheel img with
          | none => .done s 0x10
          | some loaded =>
            -- step 8, then step 9, then the copies
            let graphPart (k : List Node → Nat → Nat → Nat → Sub) : Sub :=
              if !r.graph then k [] 0 0 0
              else subRead s core ctx failed r.prog 64 (code := 0x16) fun s hdr =>
                let h := leNat hdr
                let n := graphNodes hdr
                subRead s core ctx failed (r.prog + 64) (64 * n) fun s nb =>
                  let nodes := splitNodes n nb
                  match graphRefused h nodes with
                  | some c => .done s c
                  | none =>
                    let ds := nodeDepths (nodes.map nodeEdges)
                    k ((List.range n).map (mkNode (nodeField h 0 0 64) nodes ds)) (nodeField h 3 40 8) (nodeField h 3 0 32)
                      (nodeField h 2 0 64)
            graphPart fun nodes entry incount input =>
              let recBytes := (nodes.getD entry (mkNode 0 [] [] 0)).recBytes
              subRead s core ctx failed input (incount * recBytes) fun _ recs =>
                let mine := loaded.launches.filter fun l => l.pending && (match loaded.partOf l.ctx with | some x => x.n == p.n | none => false)
                if p.closing || decide (4096 ≤ mine.length) || decide (256 ≤ (mine.filter fun l => vfOf l.ctx == vfOf ctx).length) then
                  .done s 0x01
                else
                  match loaded.engWrite core ctx .glob (nodes.getD entry (mkNode 0 [] [] 0)).qaddr recs with
                  | .fault s a e => if failed then .done s0 0x14 else .wait s (BitVec.ofInt 64 a) e
                  | .viol s _ _ _ _ => .done s 0x14
                  | .ok s _ =>
                    let id := s.seq
                    let dep (a ph : Nat) : List (Nat × BitVec 32) := if a = 0 then [] else [(a, BitVec.ofNat 32 ph)]
                    let l : Launch :=
                      { id := id, ctx := ctx, prio := r.f 5 60 4, prog := BitVec.ofNat 64 r.prog
                        tvec := if r.f 7 62 1 = 1 then BitVec.ofNat 64 (r.prog + 4 * r.f 0 48 16) else 0
                        argbase := if args.isEmpty then 0 else argVa id, args := args.length
                        area := BitVec.ofNat 64 r.area, vatword := r.vat, lanes := r.lanes, vcount := r.vcount
                        scount := r.scount, tiles := r.f 3 57 5, compl := r.f 3 4 44 * 16
                        -- a condition that holds already is met at acceptance (R71)
                        deps := (dep (r.f 4 4 44 * 16) (r.f 6 0 32) ++ dep (r.f 5 4 44 * 16) (r.f 6 32 32)).filter fun d =>
                          match s.depPhase ctx d.1 with | .ok ph => ph == d.2 | _ => true
                        cdim := if r.graph then (1, 1, 1) else r.cdim, gdim := if r.graph then (0, 0, 0) else r.clusters
                        wavemode := BitVec.ofNat 4 (r.f 5 0 4), det := det, coresident := r.coresident, eligible := false
                        nextCluster := 0, evicted := [], groupsEnded := 0, wavesExited := 0, gbArrived := 0, gbDone := 0
                        nodes := (List.range nodes.length).map fun k => match nodes[k]? with
                          | some x => if k = entry then
                              { x with srcs := List.replicate incount none, slots := List.range incount, next := incount % max 1 x.qcap } else x
                          | none => mkNode 0 [] [] 0
                        graph := r.graph, ended := false, recUsed := 0
                        recBase := BitVec.ofNat 64 (q 3 / 2 ^ 12 * 2 ^ 12), recBytes := q 4, replay := ebit (q 3) 0 }
                    let s := { s.fresh with
                      mem := memSets s.mem (argPa id) args
                      launches := s.launches ++ [l] }
                    let s := s.updCtx ctx fun c => if c.phase = .idle then { c with phase := .running, units := [] } else c
                    -- the virtual clock of a DET context counts from its launch (R428)
                    let s := if det && !(loaded.detCtx ctx) then
                        s.updCtx ctx fun c => { c with vclock := 0, vperiod := p.period, vpend := [], vlast := [] } else s
                    .done (s.push .launchEligible { a := id }) 0

/-- A refused launch leaves no state behind (R70). -/
def Sub.code (x : Sub) (s0 : State) : Sub :=
  match x with
  | .done s 0 => .done s 0
  | .done _ c => .done s0 c
  | .wait s a e => .wait s a e

/-- A context takes submissions (R70, R406). -/
def State.ctxTakes (s : State) (ctx : Nat) : Bool :=
  match s.ctx? ctx with | some c => c.root.getLsbD 0 && (c.phase == .idle || c.phase == .running) | none => false

/-- HOST_SUBMISSION (R68 to R70): one write of 64 bytes to a launch window. It brings the function, the offset and the
bytes. -/
def State.hostSubmit (s : State) (vf off : Nat) (bs : List Byte) (failed : Bool) (again : Event) : State :=
  match s.partOfVf vf with
  | none => s.emit (.host vf 1 [])
  | some p =>
    if bs.length ≠ 64 || off % 64 != 0 then s.emit (.host vf 1 [])
    else if p.closing then s.emit (.host vf 0 [1])
    else
      let r : LaunchRec := BitVec.ofNat 512 (leNat bs)
      let ctx := 64 * vf + r.f 2 58 6
      if !s.ctxTakes ctx then s.emit (.host vf 0 [0x15])
      else match (submit s p.firstCore ctx none failed r).code s with
        | .done s c => s.emit (.host vf 0 [BitVec.ofNat 8 c])
        | .wait s va entry =>
          let pf : PageFault := ⟨s.seq, ctx, va, 4, entry, none, none, none, [s.accepted again], 0⟩
          ({ s.fresh with faults := s.faults ++ [pf] } : State).push .pageFaultResolution { a := s.seq }

/-- HOST_SUBMISSION: a release, accepted after every earlier write that the logical device has accepted (R434). -/
def execHostSubmission (s : State) : Res :=
  let e : Event := ⟨.hostSubmission, { a := s.ev.a, b := s.ev.b, bytes := s.ev.bytes, d := s.ev.d, e := s.ev.e }⟩
  .next (if s.ev.f ≠ 1 && s.earlierWrite e then s.fresh.pushAll [s.accepted e]
    else s.hostSubmit s.ev.a s.ev.b s.ev.bytes (s.ev.f == 1) e)

/-- R108: a release; S[a] fills with the outcome. -/
def execLaunch (a b : BitVec 7) (s : State) : Res :=
  s.issue {} (fun i => sOk i.wv a.toNat && sOk i.wv b.toNat) true (sSrcs [(1, b.toNat)]) [(true, a.toNat)] fun i =>
    let va := (i.wv.sreg b.toNat).val
    if va.toNat % 64 ≠ 0 then .next (s.trap i 0x08 va (i.fr.live.setWidth 64))
    else match s.accessWait i.c.g i.c.w true true with
      | some w => .next (s.block i w)
      | none =>
        let f : Fill := ⟨s.seq, i.c.g, i.c.w, a.toNat, none, 0, va, 0, []⟩
        let s := ({ s.fresh with fills := s.fills ++ [f] } : State).push .launchStatusFill { a := s.seq }
        let s := s.setRelts i.c.g i.c.w (i.wv.releaseTime (s.ticksOf i.grp.ctx))
        .next ((s.updCur i fun w => w.emptyS a.toNat).retire i)

/-- LAUNCH_STATUS_FILL (R69, R108): the record is read and decided, and the outcome is an input of a DET context (R431). It
brings the fill. -/
def State.launchFill (s : State) (id : Nat) (failed : Bool) : State :=
  match s.fills.find? fun f => f.id == id && f.kind == 0 with
  | none => s
  | some f => match s.group? f.g with
    | none => { s with fills := s.fills.filter fun x => x.id != id }
    | some gr =>
      let out (s : State) (c : Nat) : State :=
        let d := s.detInput gr.launch 7 (detWhere gr f.w 0) (BitVec.ofNat 64 c) []
        let s := d.1.fillStatus f d.2.1.toNat
        -- a group that stayed for its LAUNCH alone goes (R69)
        if (s.launch? gr.launch).any (fun l => l.ended) && !(s.fills.any fun x => x.kind == 0 && x.g == gr.g) then
          { s with groups := s.groups.filter fun x => x.g != gr.g } else s
      let r := subRead s gr.core gr.ctx failed f.x.toNat 64 fun s bs =>
        if !s.ctxTakes gr.ctx then .done s 0x15
        else submit s gr.core gr.ctx (some (wheelOf (wedgeOf gr.core))) failed (BitVec.ofNat 512 (leNat bs))
      match r.code s with
      | .done s c => out s c
      | .wait s va e =>
        let pf : PageFault := ⟨s.seq, gr.ctx, va, 4, e, none, none, none, [⟨.launchStatusFill, { a := id }⟩], 0⟩
        ({ s.fresh with faults := s.faults ++ [pf] } : State).push .pageFaultResolution { a := s.seq }

/-- LAUNCH_STATUS_FILL. -/
def execLaunchStatusFill (s : State) : Res := .next (s.launchFill s.ev.a (s.ev.f == 1))

end Sys2Proof.Machine
end

