-- ==== Sys2Proof/Machine/Network.lean ====
section
/-! DEFINITION. The network: bulk transfers (R343 to R345), forwarding channels (R346 to R351), accesses that peers make
(R326 to R340), failures of links and packets (R328, R342), the borrow cache and the multicast table (R352 to R355). -/

namespace Sys2Proof.Machine

open Host

/-! ## Routes -/

/-- A link of the partition reaches a package (R343). DESIGN CHOICE (log 13). -/
def State.linkTo (s : State) (part pkg : Nat) : Bool := s.top.links.any fun l => l.2 == part && Config.linkReaches l.1 pkg

/-- R343: ROUTE to a package: 0 a link if one of the partition reaches it, else a port; 1 a link; 2 a port. An address of the
issuing module traverses no link (R326). -/
def State.routeOk (s : State) (part route pkg : Nat) : Bool :=
  if route = 0 then s.linkTo part pkg || s.hasPort part
  else if route = 1 then s.hasLink part
  else if route = 2 then s.hasPort part else false

/-- The transfer leaves by a link. -/
def State.byLink (s : State) (part route pkg : Nat) : Bool := route = 1 || (route = 0 && s.linkTo part pkg)

/-! ## NPUT, NGET, NPOST -/

/-- S[c] of a network word (R343). -/
def ncRoute (x : DWord) : Nat := x.toNat / 2 ^ 42 % 4
def ncBorrow (x : DWord) : Bool := x.getLsbD 41

/-- The three network words (R343, R344): op 0 NPUT, 1 NGET, 2 NPOST. The command keeps ROUTE, BORROW in `c` and RBAR in
`d`. -/
def netWord (op : Nat) (a b c : BitVec 7) (s : State) : Res :=
  let last := if op = 2 then c.toNat + 2 else c.toNat + 1
  s.issue {} (fun i => sOk i.wv a.toNat && sOk i.wv b.toNat && sOk i.wv c.toNat && decide (last < i.wv.scount)) true
    (sSrcs ([(0, a.toNat), (1, b.toNat), (2, c.toNat), (2, c.toNat + 1)] ++ (if op = 2 then [(2, c.toNat + 2)] else []))) [] fun i =>
    let r := fun n => (i.wv.sreg n).val
    let x := r c.toNat
    let bar := r (c.toNat + 1)
    let rbar := if op = 2 then r (c.toNat + 2) else 0
    let remote := if op = 1 then r b.toNat else r a.toNat
    let loc := if op = 1 then r a.toNat else r b.toNat
    let len := ccLen x
    let acc : Acc := if op = 1 then .engineRead else .engineWrite
    if ncRoute x = 3 || !isGalord remote || !localForm loc || (op = 2 && !isGalord rbar) then .next (s.illegal i)
    else match s.barRefused i bar with
      | some s => .next s
      | none =>
        if op = 2 && rbar.toNat % 16 != 0 then .next (s.trap i 0x08 rbar (i.fr.live.setWidth 64))
        else match i.grp.pastEnd loc len with
          | some f => .next (s.trap i 0x08 f (i.fr.live.setWidth 64))
          | none =>
            let part := match s.partOf i.grp.ctx with | some p => p.n | none => 0
            if s.top.pkgid.isNone || !(s.isOwnPkg (galordPkg remote) || s.routeOk part (ncRoute x) (galordPkg remote)) then
              .next (s.violate i remote 12 0 0 acc 0)
            else
              let e := extOf i.c.g loc len
              match (if op = 1 then s.tokenWord i e else none) with
              | some t => .next (s.trap i 0x0D t.1 t.2)
              | none =>
                let opts := BitVec.ofNat 64 (ncRoute x + (if ncBorrow x then 4 else 0))
                let cm := i.cmd s 7 op (r a.toNat) (r b.toNat) opts rbar len (ccBytes x) bar
                engineTake s i cm (if op = 1 then [] else [e]) (if op = 1 then [e] else [])
                  (if len = 0 then ⟨.networkCommandComplete, { a := s.seq }⟩ else ⟨.networkUnitAck, { a := s.seq }⟩)

/-- R343, R344. -/
def execNput (a b c : BitVec 7) (s : State) : Res := netWord 0 a b c s
/-- R343, R344. -/
def execNget (a b c : BitVec 7) (s : State) : Res := netWord 1 a b c s
/-- R343, R344. -/
def execNpost (a b c : BitVec 7) (s : State) : Res := netWord 2 a b c s

/-- One unit is acknowledged: counted, and the next or the completion follows (R344). -/
def State.netHeld (s : State) (c : Cmd) (n : Nat) : State :=
  let s := s.cmdCount c.id n
  let s := s.updCmd c.id fun x => { x with done := x.done + n, retry := 0 }
  s.push (if c.len ≤ c.done + n then .networkCommandComplete else .networkUnitAck) { a := c.id }

/-- NETWORK_UNIT_ACK (R344): the unit in flight is held at its end, whose acknowledgement returns. DEDUCED (log 38). -/
def State.netUnit (s : State) (id : Nat) : State :=
  match s.cmd? id with
  | none => s
  | some c =>
    if c.engine ≠ 7 || !s.cmdGoes c || !s.firstOfGroup c || decide (c.len ≤ c.done) || (s.faults.any fun f => f.cmd == some id) then s
    else
      let part := match s.partOf c.ctx with | some p => p.n | none => 0
      let far := if c.op = 1 then c.b else c.a
      -- a link or port that the partition has lost carries none of its traffic (R17)
      -- but a borrowed line is read on any route or on none (R353)
      let u := nextUnit c.a c.b true c.len c.done
      let off := BitVec.ofNat 64 u.1
      if !(s.isOwnPkg (galordPkg far) || s.routeOk part (c.c.toNat % 4) (galordPkg far) || (c.op == 1 && (s.borrowed part (c.b + off) u.2).isSome)) then
        s.cmdViolate c (far + off) 12 0 0 (if c.op = 1 then .engineRead else .engineWrite)
      else match (if c.byteMode && c.pend != 0 then s.barWaits c c.kick else none) with
      | some s => s
      | none =>
      -- a packet that took a retransmission is a transient failure (R342)
      let s := if c.retry = 0 then s else s.logError ⟨0, part, 1, 3, 0, s.hbeatOf c.ctx⟩
      if c.op = 1 then
        let p := placeOf c.g c.a
        let put (s : State) (bs : List Byte) : State :=
          c.access .engineWrite ((s.engWrite c.unit c.ctx p.1 (p.2 + u.1) bs).whole s) fun s _ => s.netHeld c u.2
        if s.isOwnPkg (galordPkg c.b) then c.access .engineRead (s.ownRead c.ctx (c.b + off) u.2) put
        else
          let r := s.remoteRead part (c.b + off) u.2 (c.c.toNat / 4 % 2 = 1)
          let d := r.1.detInput c.launch 2 (c.a + off) 0 r.2
          put d.1 d.2.2
      else
        let p := placeOf c.g c.b
        c.access .engineRead (s.engRead c.unit c.ctx p.1 (p.2 + u.1) u.2) fun s bs =>
          if s.isOwnPkg (galordPkg c.a) then
            c.access .engineWrite ((s.ownWrite c.ctx (c.a + off) bs).whole s) fun s _ => s.netHeld c u.2
          else
            let s := if s.byLink part (c.c.toNat % 4) (galordPkg far) then s.emit (.galord (c.a + off) 1 bs)
              else s.emit (.net part 1 (leBytes 8 (c.a + off).toNat ++ bs))
            s.netHeld c u.2

/-- NPOST's arrival leaves for a peer's barrier by the command's route (R343, R344); its acknowledgement is awaited. -/
def State.postSend (s : State) (c : Cmd) (part : Nat) : State :=
  let what := barPacket 0 1
  let s := if s.byLink part (c.c.toNat % 4) (galordPkg c.d) then s.emit (.galord c.d 5 what)
    else s.emit (.net part 5 (leBytes 8 c.d.toNat ++ what))
  ({ s.fresh with sends := s.sends ++ [⟨s.seq, c.ctx, some c.launch, c.d, some c.id, 0⟩] } : State).push .registration
    { b := c.d.toNat, c := s.seq }

/-- NPOST's arrival at its remote barrier (R266, R344). -/
def State.postArrive (s : State) (c : Cmd) : State :=
  let part := match s.partOf c.ctx with | some p => p.n | none => 0
  if s.top.pkgid.isNone || !(s.isOwnPkg (galordPkg c.d) || s.routeOk part (c.c.toNat % 4) (galordPkg c.d)) then
    s.cmdViolate c c.d 12 0 0 .engineWrite
  else if !s.isOwnPkg (galordPkg c.d) then s.postSend c part
  else match s.galord c.ctx c.d .atomic 16 with
  | (s, .own pa) =>
    if (s.barRead (.glob pa)).isNone then s.cmdViolate c c.d 8 0 0 .engineWrite
    else if s.barImmutable c.ctx (.glob pa) then s.cmdViolate c c.d 7 0 0 .engineWrite
    else s.barArrive (.glob pa) 1 false
  | (s, .viol k l i) => s.cmdViolate c c.d k l i .engineWrite
  | (s, .resolvable e) => s.cmdFault c c.d .engineWrite e
  | (s, _) => s

/-- NETWORK_COMMAND_COMPLETE (R344): NPOST's arrival at the remote barrier, then the completion of step 6 of R303. -/
def State.netDone (s : State) (id : Nat) : State :=
  match s.cmd? id with
  | none => s
  | some c =>
    if c.engine ≠ 7 || !s.cmdGoes c || decide (c.done < c.len) then s
    else match s.barWaits c ⟨.networkCommandComplete, { a := id }⟩ with
    | some s => s
    | none =>
      if c.op = 2 && c.pos = 0 then
        let t := s.postArrive c
        (match t.cmd? id with
        | some k => if k.halted || t.faults.any (fun f => f.cmd == some id) then t
          else (t.updCmd id fun x => { x with pos := 1 }).push .networkCommandComplete { a := id }
        | none => t)
      -- the arrival's acknowledgement brings the completion (R344)
      else if s.sends.any fun x => x.cmd == some id then s
      -- with BYTES set, a command of LEN 0 subtracts nothing (R344)
      else s.cmdDone c false

/-- NETWORK_COMMAND_COMPLETE. It brings the command. -/
def execNetworkCommandComplete (s : State) : Res := .next (s.netDone s.ev.a)

/-! ## What peers send -/

/-- Traffic of a partition arrives only at a module with an identity (R326) and over a link or port of the partition (R17). -/
def State.heard (s : State) (part : Nat) : Bool := s.top.pkgid.isSome && (s.hasLink part || s.hasPort part)

/-- The partition's stage 2 for bytes that arrive from outside, page by page: pages shared across modules only (R326), and a line that
a part of a 16-byte block is merged into has to pass its integrity check (R339, R340). DEDUCED (log 43). -/
def State.landAt (s : State) (p : Part) (ipa : Nat) : List (Nat × Nat) → State × Span
  | [] => (s, .ok [])
  | q :: qs =>
    let a := ipa + q.1
    let refuse (s : State) (k l : Nat) : State × Span := (s.logRemote p.n (BitVec.ofNat 64 a) k l a .engineWrite, .refused)
    match s.translate2 p a .engineWrite with
    | (s, .ok pa true) =>
      if s.touchesObject 2 pa q.2 || s.touchesObject 3 pa q.2 then refuse s 9 0
      else if s.partFails pa q.2 then refuse s 8 0
      else match s.landAt p ipa qs with
        | (s, .ok l) => (s, .ok ((q.1, q.2, pa) :: l))
        | r => r
    | (s, .ok _ false) => refuse s 9 0
    | (s, .viol k l _) => refuse s k l
    | (s, .resolvable e) => (s, .held (BitVec.ofNat 64 a) e)

/-- An arrival from outside waits for the service group and comes again (R386); it is no context's. -/
def State.outsideHeld (s : State) (va : DWord) (acc : Acc) (entry : EntryAt) (e : Event) : State :=
  let pf : PageFault := ⟨s.seq, noCtx, va, acc.code, entry, none, none, none, [e], 0⟩
  ({ s.fresh with faults := s.faults ++ [pf] } : State).push .pageFaultResolution { a := s.seq }

/-- Write the pieces of a payload at their homes. -/
def State.writePieces (s : State) (bs : List Byte) (ps : List (Nat × Nat × Nat)) : State :=
  ps.foldl (fun s q => s.homeWrite q.2.2 ((bs.drop q.1).take q.2.1)) s

/-- NETWORK_RECEIVE (R266): a payload is written at its homes, page by page, and only then the completion barrier gets its
arrival. A packet that asks for a delivery mode the module does not use is dropped and counted (R341), as is one for a context that
is being replayed (R432); a partition that is being destroyed, or is gone, answers with an error (R369). It brings the partition, the address, the barrier's address or 0, the bytes, and 2 for such a mode. -/
def State.netReceive (s : State) (part ipa bar mode : Nat) (bs : List Byte) : State :=
  match s.part? part with
  | none => s.emit (.remote 0 1 [])
  | some p =>
    if !s.heard part then s
    else if p.closing then s.emit (.remote 0 1 [])
    else if mode = 2 || s.replaying part then s.discarded part 3 (BitVec.ofNat 64 ipa)
    else if s.ev.failed then
      (s.logRemote part (BitVec.ofNat 64 s.ev.va) 10 s.ev.lv s.ev.ipa .engineWrite).emit (.remote 0 1 [])
    else
      let again : Event := ⟨.networkReceive, { a := part, b := ipa, c := bar, d := mode, bytes := bs }⟩
      match s.landAt p ipa (pagePieces ipa bs.length) with
      | (s, .refused) => s.emit (.remote 0 1 [])
      | (s, .held va e) => s.outsideHeld va .engineWrite e again
      | (s, .ok ps) => match (if bar = 0 then (s, Xl.viol 0 0 0) else s.translate2 p bar .atomic) with
        | (s, .resolvable e) => s.outsideHeld (BitVec.ofNat 64 bar) .engineWrite e again
        | (s, x) =>
          let s := ((s.writePieces bs ps).detNote part 2 (s.ownVa ipa) 0 bs).landed part
          if bar = 0 then s
          else match x with
            | .ok pa true => s.partArrive part bar pa 1 false
            | _ => s.emit (.remote 0 1 [])

/-- NETWORK_RECEIVE. DESIGN CHOICE (log 13, 61). -/
def execNetworkReceive (s : State) : Res := .next (s.netReceive s.ev.a s.ev.b s.ev.c s.ev.d s.ev.bytes)

/-- What a peer accesses: the partition, the package, the offset and the kind of access (R387). -/
structure Peer where
  part : Nat
  pkg : Nat
  off : Nat
  acc : Acc

/-- The answer to a peer's access: its bytes, or an error when a line fails its check, which the target logs (R15, R388). -/
def State.answer (s : State) (p : Peer) (st : Nat) (bs : Option (List Byte)) : State :=
  match bs with
  | some b => s.emit (.remote p.pkg st b)
  | none => (s.logRemote p.part (s.ownVa p.off) 8 0 p.off p.acc).emit (.remote p.pkg 1 [])

/-- Bytes at the pieces of an access. -/
def State.piecesRead (s : State) (ps : List (Nat × Nat × Nat)) : Option (List Byte) :=
  ps.foldr (fun q r => match s.homeBytes q.2.2 q.2.1, r with | some a, some b => some (a ++ b) | _, _ => none) (some [])

/-- The object entry of kind IMMUTABLE that all pieces of an access touch first, which a peer may borrow (R353). -/
def State.lentAt (s : State) (ps : List (Nat × Nat × Nat)) : Option RangeEntry :=
  ps.head?.bind fun q => s.ranges.find? fun r => r.kind == 3 && (s.objSpans r).any fun x =>
    decide (x.1 < q.2.2 + q.2.1) && decide (q.2.2 < x.1 + x.2)

/-- A peer's plain load: a line of an IMMUTABLE object may be borrowed, and the lender notes by whom (R331, R353). -/
def State.remoteLoad (s : State) (p : Peer) (ps : List (Nat × Nat × Nat)) : State :=
  -- an object whose borrowers are being told to drop it is lent to nobody
  match (s.lentAt ps).filter fun r => !(s.recalls.any fun x => x.obj == r.id) with
  | some r =>
    let s := if s.lenders.contains (r.id, p.pkg) then s else { s with lenders := s.lenders ++ [(r.id, p.pkg)] }
    s.answer p 3 (s.piecesRead ps)
  | none => s.answer p 0 (s.piecesRead ps)

/-- A peer's acquiring load (R333). -/
def State.remoteAcquire (s : State) (p : Peer) (ps : List (Nat × Nat × Nat)) : State :=
  let s := match ps with | q :: _ => s.peerAcquire (q.2.2 / 4) | [] => s
  s.answer p 0 (s.piecesRead ps)

/-- A peer's atomic in the ALU of the home slice (R336): operation, 64-bit flag, x and y of 8 bytes, and ORD (R333). -/
def State.remoteAtomic (s : State) (p : Peer) (pa : Nat) (bs : List Byte) : State :=
  let num (k n : Nat) : Nat := leNat ((bs.drop k).take n)
  let w := if num 1 1 = 0 then 4 else 8
  let s := (if num 18 1 % 2 = 1 then s.peerAcquire (pa / 4) else s).recallSpan pa w
  match s.homeBytes pa w with
  | none => s.answer p 0 none
  | some old =>
    let s := match atomicOp (num 0 1 % 16) (8 * w) (leNat old) (num 2 8 % 2 ^ (8 * w)) (num 10 8 % 2 ^ (8 * w)) with
      | some x => ((s.homeWrite pa (leBytes w x)).detNote p.part 2 (s.ownVa p.off) 0 (leBytes w x)).landed p.part
      | none => s
    s.answer p 0 (some old)

/-- A peer's operation on a barrier (R286, R334): 0 arrive, 1 count, 2 init, 3 watch or its end, 4 read; and 8 bytes. -/
def State.remoteBarrier (s : State) (p : Peer) (pa : Nat) (bs : List Byte) : State :=
  let op := leNat (bs.take 1)
  let x := leNat ((bs.drop 1).take 8)
  match s.barRead (.glob pa) with
  | none => s.answer p 0 none
  | some w =>
    let me := (pa, p.pkg, (s.ownVa p.off).toNat)
    if op = 3 then
      -- the peer's waits and watches count at the home, which tells it of each new phase (R292, R293)
      let s := s.barWatch (.glob pa) (x = 1)
      let s : State := { s with peerWatches := if x = 1 then s.peerWatches ++ [me] else s.peerWatches.erase me }
      s.answer p 0 (some [])
    else if op = 4 then s.answer p 0 (some w.toBytes)
    else
      let s := s.barUpdate (.glob pa) (fun w =>
        if op = 0 then w.arrive (x % 2 ^ 16) (ebit x 16)
        else if op = 1 then w.addBytes (toIntBits 64 x)
        else w.init (BitVec.ofNat 32 (x / 2 ^ 32)) (BitVec.ofNat 16 x)) [] (op == 2)
      let s := s.landed p.part
      let s := match s.homeBytes pa 16 with | some b => s.detNote p.part 2 (s.ownVa p.off) 0 b | none => s
      s.answer p 0 (some w.toBytes)

/-- A peer's VATOMX joins the service queue of its home's wheel (R86, R336). A full queue holds it. -/
def State.remoteVatomx (s : State) (x : Peer) (pa : Nat) (bs : List Byte) (again : Event) : State :=
  let wheel := match s.part? x.part with | some p => wheelOf (wedgeOf (s.homeOfPart p pa)) | none => 0
  if 256 ≤ s.svcCount wheel x.part then s.push again.what again.args
  else
    let q : SvcRec :=
      { id := s.seq, wheel := wheel, part := x.part, ctx := 0, g := 0, w := 0, lanes := 1, dst := none
        service := BitVec.ofNat 64 x.off, args := [], queuedAt := 0, taken := false, req := none, from_ := some (x.pkg, pa, bs) }
    ({ s.fresh with svc := s.svc ++ [q] } : State).push .serviceBatch { a := wheel }

/-- The home's part of an access that a peer makes (R331 to R336), once it is admitted and its pages are known. Kinds: 0 plain
load, 1 store, 2 release store, 3 acquire load, 4 atomic, 5 barrier, 6 routine. DESIGN CHOICE (log 13). -/
def State.remotePerform (s : State) (p : Peer) (kind : Nat) (ps : List (Nat × Nat × Nat)) (bs : List Byte) (again : Event) : State :=
  let pa := match ps with | q :: _ => q.2.2 | [] => 0
  if kind = 0 then s.remoteLoad p ps
  else if kind = 1 ∨ kind = 2 then
    -- what is written in part is merged into a line that passes its check (R339, R340)
    if ps.any fun q => s.partFails q.2.2 q.2.1 then s.answer p 0 none
    else (((s.writePieces bs ps).detNote p.part 2 (s.ownVa p.off) 0 bs).landed p.part).answer p 0 (some [])
  else if kind = 3 then s.remoteAcquire p ps
  else if kind = 4 then s.remoteAtomic p pa bs
  else if kind = 5 then s.remoteBarrier p pa bs
  else if kind = 6 then s.remoteVatomx p pa bs again
  else s.emit (.remote p.pkg 1 [])

/-- The access kind that a grant must allow (R389). -/
def remoteAcc (kind : Nat) : Acc := if kind = 0 ∨ kind = 3 then .load else if kind = 1 ∨ kind = 2 then .store else .atomic

/-- REMOTE_ACCESS_ARRIVAL (R326, R331 to R337, R389). It brings the partition, the source's package and partition, the kind,
the offset, the length and the bytes. One that would change the memory of a context that is being replayed is discarded (R432). -/
def State.remoteArrival (s : State) (part pkg peer kind off n : Nat) (bs : List Byte) : State :=
  match s.part? part with
  | none => s.emit (.remote pkg 1 [])
  | some p =>
    if !s.heard part then s
    else if s.replaying part && kind != 0 && kind != 3 then s.discarded part 2 (s.ownVa off)
    else if s.ev.failed then
      (s.logRemote part (BitVec.ofNat 64 s.ev.va) 10 s.ev.lv s.ev.ipa (remoteAcc kind)).emit (.remote pkg 1 [])
    else
      let again : Event := ⟨.remoteAccessArrival, { a := part, b := pkg, c := peer, d := kind, e := off, f := n, bytes := bs }⟩
      match s.grantSpan p pkg peer (s.ownVa off) off (remoteAcc kind) (pagePieces off n) with
      | (s, .refused) => s.emit (.remote pkg 1 [])
      | (s, .held va e) => s.outsideHeld va (remoteAcc kind) e again
      | (s, .ok ps) => s.remotePerform ⟨part, pkg, off, remoteAcc kind⟩ kind ps bs again

/-- REMOTE_ACCESS_ARRIVAL. -/
def execRemoteAccessArrival (s : State) : Res :=
  .next (s.remoteArrival s.ev.a s.ev.b s.ev.c s.ev.d s.ev.e s.ev.f s.ev.bytes)

/-- The remote address of the unit of a network command that is in flight (R345, R387): of its bytes, or of NPOST's arrival. -/
def Cmd.farAt (c : Cmd) : DWord :=
  if c.len ≤ c.done then c.d
  else (if c.op = 1 then c.b else c.a) + BitVec.ofNat 64 (nextUnit c.a c.b true c.len c.done).1

/-- The address of a multicast's last packet at one of its destinations (R302). -/
def State.mcastFar (s : State) (c : Cmd) (k : Nat) : DWord :=
  let e := if c.payload.isEmpty then s.mcastEntry c.c.toNat else leNat c.payload
  mcBase e ((mcUsed e).getD k 0) + c.a + BitVec.ofNat 64 (c.done - c.pos)

/-- What a press has sent under a number: its command, its collective, and itself. -/
def State.pressSend? (s : State) (id : Nat) : Option (Cmd × Coll × PressSend) :=
  s.colls.findSome? fun co => (co.sends.find? fun x => x.id == id).bind fun x => (s.cmd? co.id).map fun c => (c, co, x)

/-- How something that a press has sent stands now. -/
def State.setSend (s : State) (id st : Nat) : State :=
  { s with colls := s.colls.map fun co => { co with sends := co.sends.map fun x => if x.id == id then { x with st := st } else x } }

/-- Who made a remote access in flight: context, launch, address or channel, the virtual channel of R328 that carries it,
and whether it is a record of a channel. `k` is the lane of a request, or the destination of a multicast. -/
def State.remoteOwner (s : State) (id k : Nat) : Option (Nat × Option Nat × DWord × Nat × Bool) :=
  match s.req? id with
  | some r => some (r.ctx, (s.group? r.g).map (·.launch), r.va.getD k 0, 0, false)
  | none => match s.regq.find? fun r => r.id == id && r.id != 0 with
    | some r => match s.group? r.g with
      | some gr => some (gr.ctx, some gr.launch, BitVec.ofNat 64 (4 * r.word), 2, false)
      | none => none
    | none => match s.cmd? id with
      | some c =>
        if c.engine = 7 then some (c.ctx, some c.launch, c.farAt, if c.op = 1 then 0 else 2, false)
        -- packets of a multicast
        else if c.engine = 0 then some (c.ctx, some c.launch, s.mcastFar c k, 2, false)
        else none
      | none => match s.fwds.find? fun f => f.id == id with
        | some f => some (f.ctx, some f.launch, BitVec.ofNat 64 f.ch, 3, true)
        | none => match s.sends.find? fun x => x.id == id with
          | some x => some (x.ctx, x.launch, x.va, 0, false)
          -- a tile of a press, whose address is its collective
          | none => (s.pressSend? id).map fun x => (x.1.ctx, some x.1.launch, BitVec.ofNat 64 (x.2.1.word0.toNat / 2 ^ 32), 3, false)

/-- The command of an access in flight: a network or copy command, or the NPOST whose arrival it is. -/
def State.ownerCmd (s : State) (id : Nat) : Option Cmd :=
  (s.cmd? id).or ((s.sends.find? fun x => x.id == id).bind fun x => x.cmd.bind s.cmd?)

/-- REMOTE_ERROR_RESPONSE (R326, R329, R337, R387): the target, or the fabric, refuses an access in flight; or the source finds
that what it has read fails its integrity check (R340). -/
def State.remoteError (s : State) (id k : Nat) (tag : Bool) : State :=
  match s.remoteOwner id k with
  | none => s
  | some (ctx, launch, va, _, _) =>
    let kind := if tag then 8 else 9
    match s.ownerCmd id with
    | some c =>
      ({ s with sends := s.sends.filter fun x => x.id != id } : State).cmdViolate c va kind 0 0
        (if c.engine = 7 && c.op = 1 then .engineRead else .engineWrite)
    | none =>
      let req := s.req? id
      let acc : Acc := match req with
        | some r => if r.kind.isAtomic then .atomic else .load
        | none => .store
      let lg := s.logAccess ctx va kind 0 0 acc.code
      lg.1.raiseStop ctx launch { cause := 0x20, engine := 8, unit := (req.map Req.core).getD 0xFFFF, addr := va, detail := lg.2 }

/-- REMOTE_ERROR_RESPONSE. It brings the access, the lane or destination, and 1 where the source finds the failure. -/
def execRemoteErrorResponse (s : State) : Res := .next (s.remoteError s.ev.a s.ev.b (s.ev.c == 1))

/-! ## Failing links and packets -/

/-- The fields of a channel's entry (R346). -/
def Chan.peer (c : Chan) : Nat := c.entry.toNat % 2 ^ 18
def Chan.route (c : Chan) : Nat := c.entry.toNat / 2 ^ 18 % 4
def Chan.receives (c : Chan) : Bool := c.entry.getLsbD 20
def Chan.peerch (c : Chan) : Nat := c.entry.toNat / 2 ^ 32 % 4096
def Chan.slots (c : Chan) : Nat := c.entry.toNat / 2 ^ 64 % 2 ^ 32
def Chan.compl (c : Chan) : Nat := c.entry.toNat / 2 ^ 128 % 2 ^ 64
def Chan.node (c : Chan) : Nat := c.entry.toNat / 2 ^ 192 % 2 ^ 8


/-- A permit comes back to a send entry, and what waits for one tries again: fragments (R349, R350, R351), and collectives that
have their record to send (R365). -/
def State.returnPermit (s : State) (part ch : Nat) : State :=
  let mine (v : Wave) : Bool := match s.group? v.g with | some gr => s.inPart part gr.ctx | none => false
  let press := (s.colls.filter fun co => co.part == part && co.arrived).filterMap fun co =>
    (s.cmd? co.id).map fun c => (⟨.pressComplete, { a := c.unit }⟩ : Event)
  { s.pushNew press with
    chans := s.chans.map fun c => if c.part == part && c.n == ch && !c.receives then { c with permits := c.permits + 1 } else c
    waves := s.waves.map fun v => if mine v then
      { v with frags := v.frags.map fun x => if x.wait = some (.permit ch) then { x with wait := none } else x } else v }

/-- LINK_LASTING for one access (R328, R342). DESIGN CHOICE (log 61). -/
def State.linkLasting (s : State) (id k unit retries : Nat) : State :=
  match s.remoteOwner id k with
  | none => s
  | some (ctx, launch, va, vc, isFwd) =>
    let part := match s.partOf ctx with | some p => p.n | none => 31
    let s := s.logError ⟨BitVec.ofNat 64 unit, part, 1, if retries = 1 then 2 else 3, 1, s.hbeatOf ctx⟩
    -- R351: a lost record's permit returns to its channel
    let s := if isFwd then
        ({ s with fwds := s.fwds.filter fun f => f.id != id } : State).returnPermit part va.toNat else s
    -- a tile that a flit carried goes again when its context resumes
    let s := s.setSend id 3
    s.raiseStop ctx launch { cause := 0x26, engine := 15, unit := unit, addr := va, detail := BitVec.ofNat 64 (if retries = 1 then vc else unit)
                             done := BitVec.ofNat 64 retries, total := BitVec.ofNat 64 retries }

/-- The accesses that a flit carried: each by its number, and its lane or destination. -/
def State.flitLost (s : State) (link : Nat) : List Nat → State
  | id :: k :: rest => (s.linkLasting id k link 1).flitLost link rest
  | _ => s

/-- FLIT_CRC_FAILURE (R328): a flit is replayed once; a replay that fails is lasting for every access it carried, and the
link retrains. It brings the link, 1 when the replay succeeded, and the accesses with their lanes or destinations. DESIGN CHOICE
(log 61). -/
def execFlitCrcFailure (s : State) : Res :=
  let link := s.ev.a
  let part := match s.top.links.find? fun l => l.1 == link with | some l => l.2 | none => 31
  let hb := match s.part? part with | some p => p.hbeat | none => 0
  if s.ev.b = 1 then .next (s.logError ⟨BitVec.ofNat 64 link, part, 1, 2, 0, hb⟩)
  else
    let s' := s.flitLost link s.ev.ids
    .next { s' with top := { s'.top with retraining := if s'.top.retraining.contains link then s'.top.retraining
                                                       else s'.top.retraining ++ [link] } }

/-- LINK_RETRAINED (R328): the link's traffic resumes. It brings the link. -/
def execLinkRetrained (s : State) : Res :=
  .next { s with top := { s.top with retraining := s.top.retraining.filter fun l => l != s.ev.a } }

/-- The port that carries a context's packets. -/
def State.portOf (s : State) (ctx : Nat) : Nat := match s.partOf ctx with
  | some p => (match s.top.ports.find? fun x => x.2 == p.n with | some x => x.1 | none => 0)
  | none => 0

/-- A packet is sent again, up to seven times; then its context stops with LINK_LASTING (R342). -/
def State.retransmit (s : State) (id k : Nat) : State :=
  match s.cmd? id with
  | some c =>
    if c.engine ≠ 7 then s
    else if c.retry < 7 then s.updCmd id fun x => { x with retry := x.retry + 1 }
    else s.linkLasting id k (s.portOf c.ctx) 7
  | none => match s.fwds.find? fun f => f.id == id with
    | some f =>
      if f.retry < 7 then
        ({ s with fwds := s.fwds.map fun x => if x.id == id then { x with retry := x.retry + 1 } else x } : State).emit
          (.forward f.part f.ch f.bytes)
      else s.linkLasting id k (s.portOf f.ctx) 7
    | none => match s.sends.find? fun x => x.id == id with
      | none => s
      | some x =>
        if x.retry < 7 then { s with sends := s.sends.map fun y => if y.id == id then { y with retry := y.retry + 1 } else y }
        else s.linkLasting id k (s.portOf x.ctx) 7

/-! ## Forwarding channels -/

/-- COUNT of FWDCFG (R346). -/
def Part.fwdCount (p : Part) : Nat := p.fwdcfg.toNat % 2 ^ 13

/-- An enabled send entry of the partition (R348). -/
def State.sendChan (s : State) (p : Part) (ch : Nat) : Option Chan :=
  if p.fwdCount ≤ ch then none else s.chans.find? fun c => c.part == p.n && c.n == ch && !c.receives

/-- R348: the channel may be sent on, by a route that the partition has. -/
def State.chanOk (s : State) (p : Part) (ch : Nat) : Bool :=
  match s.sendChan p ch with
  | some c => s.isOwnPkg c.peer || s.routeOk p.n c.route c.peer
  | none => false

/-- R349: one record leaves: its header, the lane's payload, and one permit. -/
def State.sendRecord (s : State) (ctx launch : Nat) (p : Part) (ch lane : Nat) (user : Nat) (payload : List Byte) : State :=
  match s.sendChan p ch with
  | none => s
  | some c =>
    let pk := match s.top.pkgid with | some k => k.toNat | none => 0
    let bytes := leBytes 8 (user * 2 ^ 32 + pk * 2 ^ 14 + lane) ++ payload
    let id := s.seq
    let f : Fwd := ⟨id, p.n, ch, ctx, launch, 0, bytes⟩
    let s := s.fresh
    let s : State := { s with
      chans := s.chans.map fun x => if x.part == p.n && x.n == ch then { x with permits := x.permits - 1 } else x
      fwds := s.fwds ++ [f] }
    if s.isOwnPkg c.peer then
      match s.chans.find? fun x => x.n == c.peerch && x.receives && x.peer == c.peer with
      | some x => s.push .forwardRecordArrival { a := x.part, b := x.n, d := id + 1, bytes := bytes }
      | none => s
    else s.emit (.forward p.n ch bytes)

/-- What VFWD and VFWDT read (R348): USER's register, and V[a] to V[a + 14] lane by lane. -/
def fwdRead (v : Wave) (a b : Nat) : DWord × List (List Word) :=
  ((v.sreg b).val, (List.range 15).map fun k => (List.range 32).map fun l => (v.vreg (a + k)).lane l)
/-- A lane's channel and payload (R348). -/
def fwdChannel (r : List (List Word)) (l : Nat) : Nat := ((r.getD 0 []).getD l 0).toNat % 4096
def fwdPayload (r : List (List Word)) (l : Nat) : List Byte := (List.range 14).flatMap fun k => leBytes 4 ((r.getD (1 + k) []).getD l 0).toNat

/-- VFWD lane by lane: where it stops for want of a permit, that lane. DESIGN CHOICE (log 25). -/
def fwdLanes (i : Iss) (p : Part) (r : DWord × List (List Word)) : List Nat → State → State × Option (Nat × Nat)
  | [], s => (s, none)
  | l :: ls, s =>
    let ch := fwdChannel r.2 l
    match s.sendChan p ch with
    | none => (s, none)
    | some c =>
      if c.permits = 0 then (s, some (l, ch))
      else fwdLanes i p r ls (s.sendRecord i.grp.ctx i.ln.id p ch l (r.1.toNat % 2 ^ 32) (fwdPayload r.2 l))

/-- The limits and sources of the two words (R348). A VFWD that has sent some of its lanes has read its sources, and keeps what it
read (R6). A channel that an audit has frozen takes no record in that tick (R21). -/
def fwdWord (d : Option Nat) (a b : BitVec 7) (ea eb : Bool) (s : State)
    (k : Iss → Part → List Nat → DWord × List (List Word) → State → Res) : Res :=
  let again := match s.iss? with | some i => i.fr.fwdLane.isSome | none => false
  let srcs : List Src := [⟨0, false, a.toNat, 15, .bit, ea⟩, ⟨1, true, b.toNat, 1, .bit, eb⟩]
  s.issue {} (fun i => vOk i.wv (a.toNat + 14) && sOk i.wv b.toNat &&
      (match d with | some d => vDst i.wv d && (decide (d < a.toNat) || decide (a.toNat + 14 < d)) | none => true)) false
    (if again then [] else srcs) (match d with | some d => [(false, d)] | none => []) fun i =>
    match (if again then none else s.accessWait i.c.g i.c.w false true) with
    | some w => .next (s.block i w)
    | none =>
      match s.partOf i.grp.ctx with
      | none => .next (s.violate i 0 12 0 0 .store 0)
      | some p =>
        if p.frozen then .next (s.block i .assay)
        else
        let s := if again then s else s.popPorts i srcs
        let r := (if again then i.fr.fwdSrc else none).getD (fwdRead (s.waveNow i) a.toNat b.toNat)
        let lanes := (lanesOf i.fr.live).filter fun l => decide (i.fr.fwdLane.getD 0 ≤ l)
        match lanes.find? fun l => !s.chanOk p (fwdChannel r.2 l) with
        | some l => .next (s.violate i (BitVec.ofNat 64 (fwdChannel r.2 l)) 12 0 0 .store 0)
        | none => k i p lanes r s

/-- R348, R349: sends lane by lane and waits for permits; the next lane is saved with the fragment. A turn in which it sends nothing
it was not ready for (R63). DESIGN CHOICE (log 25). -/
def execVfwd (a b : BitVec 7) (ea eb : Bool) (s : State) : Res :=
  fwdWord none a b ea eb s fun i p lanes r s =>
    let y := fwdLanes i p r lanes s
    match y.2 with
    | none => .next (y.1.retire i)
    | some (l, ch) =>
      let s := if some l = i.fr.fwdLane then y.1.undoIssue i else y.1
      .next ((s.block i (.permit ch)).updCurFrag i fun f => { f with fwdLane := some l, fwdSrc := some r })

/-- R348, R349: never waits; V[d] tells each lane's outcome, which is an input of a DET context (R431). -/
def execVfwdt (d a b : BitVec 7) (ea eb : Bool) (s : State) : Res :=
  fwdWord (some d.toNat) a b ea eb s fun i p lanes r s =>
    let user := r.1.toNat % 2 ^ 32
    let y := lanes.foldl (fun (x : State × List (Nat × Nat)) l =>
      let ch := fwdChannel r.2 l
      let free : Nat := match x.1.sendChan p ch with | some c => if c.permits = 0 then 0 else 1 | none => 0
      let y := x.1.detInput i.ln.id 8 (detWhere i.grp i.c.w l) (BitVec.ofNat 64 free) []
      if y.2.1 = 0 then (y.1, x.2 ++ [(l, 0)])
      else (y.1.sendRecord i.grp.ctx i.ln.id p ch l user (fwdPayload r.2 l), x.2 ++ [(l, 1)])) (s, [])
    let out := fun l => match y.2.find? fun y => y.1 == l with | some y => BitVec.ofNat 32 y.2 | none => (0 : Word)
    .next ((y.1.updCur i fun w => w.writeV d.toNat i.fr.live tI32 ((List.range 32).map out)).retire i)

/-- The launch that sent a record runs from its recording (R432). -/
def State.replayed (s : State) (launch : Nat) : Bool := match s.launch? launch with | some l => l.det && l.replay && !l.ended | none => false

/-- PERMIT_RETURN (R350): a record's slot is free again; a waiting VFWD goes on. It is an input of a DET context (R431), which in a
replay only the recording supplies. It brings the partition and the channel. -/
def State.permitBack (s : State) (part ch : Nat) (fromRec : Bool) : State :=
  match s.fwds.find? fun f => f.part == part && f.ch == ch with
  | none => s
  | some f =>
    if !fromRec && s.replayed f.launch then s.discarded part 3 (BitVec.ofNat 64 ch)
    else
    let s := if fromRec then s else (s.detInput f.launch 8 (permitWhere ch) 1 []).1
    -- a record that needed a retransmission is a transient failure (R342)
    let s := if f.retry = 0 then s else s.logError ⟨0, part, 1, 3, 0, s.hbeatOf f.ctx⟩
    ({ s with fwds := s.fwds.filter fun x => x.id != f.id } : State).returnPermit part ch

/-- PERMIT_RETURN. -/
def execPermitReturn (s : State) : Res := .next (s.permitBack s.ev.a s.ev.b false)

/-! ## Tables that system software writes -/

/-- MULTICAST_ENTRY_WRITE (R354, R355): the next packet takes the new entry; none is written in recovery (R448). It brings the entry and its 272 bytes. -/
def execMulticastEntryWrite (s : State) : Res :=
  if s.ev.a < 4096 && s.top.stage != .recovery then
    .next { s with mcast := (s.mcast.filter fun e => e.1 != s.ev.a) ++ [(s.ev.a, (s.ev.bytes ++ List.replicate 272 0).take 272)] }
  else .next s

/-- BORROWCFG of a partition (R352): at most 16 GiB; a smaller cache discards lines, the oldest first. DESIGN CHOICE (log 77). -/
def State.borrowWrite (s : State) (part v : Nat) : State :=
  let gib := min 16 (v % 32)
  let mine := s.borrow.filter fun b => b.part == part
  { s.updPart part fun p => { p with borrowcfg := BitVec.ofNat 64 gib } with
    borrow := (s.borrow.filter fun b => b.part != part) ++ mine.drop (mine.length - gib * 2 ^ 18) }

/-- BORROWCFG_WRITE (R352). It brings the partition and the value. -/
def execBorrowcfgWrite (s : State) : Res := .next (s.borrowWrite s.ev.a s.ev.b)

/-- BORROW_INVALIDATION (R353): the owner drops an object; its lines leave the borrow cache. It brings the partition, the
object's Galord-form address and its length, and the invalidation's number, which is acknowledged. -/
def execBorrowInvalidation (s : State) : Res :=
  .next { s.emit (.remote (galordPkg (BitVec.ofNat 64 s.ev.b)) 5 (leBytes 8 s.ev.d)) with borrow := s.borrow.filter fun b => !(b.part == s.ev.a && decide (s.ev.b < 4096 * b.line + 4096) &&
    decide (4096 * b.line < s.ev.b + s.ev.c)) }

end Sys2Proof.Machine
end

