-- ==== Sys2Proof/Machine/Virtual.lean ====
section
/-! DEFINITION. The virtual clock of a DET context (R428 to R430): which events belong to a context, at which virtual cycle
each takes place, and the order of those of one virtual cycle. -/

namespace Sys2Proof.Machine

open Host

/-- Order of R430: launches by acceptance, then cluster index, CLRANK, WAVEID. -/
def State.waveKey (s : State) (v : Wave) : Nat :=
  match s.group? v.g with
  | some g => ((g.launch * 2 ^ 60 + g.cluster) * 64 + g.clrank) * 64 + v.w
  | none => 0

/-- The issue pipe of a wave's core that serves it. DESIGN CHOICE (log 67). -/
def Wave.pipe (v : Wave) : Nat := v.w % 4

/-- Who an event is for: the context, its group, wave and lane. -/
structure Place where
  ctx : Nat
  g : Nat
  w : Nat := 0
  lane : Nat := 32

def State.groupPlace (s : State) (g : Nat) (w : Nat := 0) (lane : Nat := 32) : Option Place :=
  (s.group? g).map fun gr => ⟨gr.ctx, g, w, lane⟩
def State.cmdPlace (s : State) (sel : Cmd → Bool) : Option Place := (s.cmds.find? sel).map fun c => ⟨c.ctx, c.g, c.w, 32⟩
def State.launchPlace (s : State) (l : Nat) : Option Place := (s.launch? l).map fun l => ⟨l.ctx, 0, 0, 32⟩
def State.reqPlace (s : State) (id lane : Nat) : Option Place := (s.req? id).map fun r => ⟨r.ctx, r.g, r.w, lane⟩
def State.fillPlace (s : State) (id : Nat) : Option Place :=
  (s.fills.find? fun f => f.id == id).bind fun f => s.groupPlace f.g f.w
def State.callPlace (s : State) (id lane : Nat) : Option Place :=
  (s.calls.find? fun c => c.id == id).map fun c => ⟨c.ctx, c.g, c.w, lane⟩

/-- A DET context of a partition, which takes what comes to the partition from outside at a virtual cycle of its own (R431). -/
def State.outsidePlace (s : State) (part : Nat) : Option Place :=
  (s.launches.find? fun l => l.det && !l.ended && s.inPart part l.ctx).map fun l => ⟨l.ctx, 0, 0, 0⟩

/-- The context whose virtual clock an event follows, if its context were DET (R428): issues, landings, home operations and
engine completions. What comes from outside takes effect before anything else of its virtual cycle; the machine's own
housekeeping follows no virtual clock. -/
def State.eventPlace (s : State) (e : Event) : Option Place :=
  let x := e.args
  match e.what with
  | .registration => (s.regq.find? fun r => r.core == x.a && (if x.c = 0 then r.word == x.b / 4 && r.id == 0 else r.id == x.c)).bind
      fun r => s.groupPlace r.g r.w
  | .loadResultLands | .atomicAtHome => s.reqPlace x.a x.b
  | .surrender | .surrenderComplete => (s.surrs.find? fun u => u.id == x.a).bind fun u => match u.req with
      | some (r, l) => s.reqPlace r l
      | none => some ⟨u.ctx, 0, 0, 32⟩
  | .launchStatusFill | .shapeStatusFill | .feedStatusFill | .grabServed => s.fillPlace x.a
  | .copyUnitHeld | .copyComplete | .networkUnitAck | .networkCommandComplete | .arrayCommandComplete | .retransmitTimeout =>
      s.cmdPlace fun c => c.id == x.a
  | .arrayCommandStart => s.cmdPlace fun c => c.engine == 1 && c.unit == x.a
  | .splatCommandRun => s.cmdPlace fun c => c.engine == 4 && c.unit == x.a
  | .pressCollectiveStart | .pressComplete => s.cmdPlace fun c => c.engine == 5 && c.unit == x.a
  | .streamBlockDelivered | .feederPush | .groupEnd => s.groupPlace x.a
  | .gangCompletion => (s.gangs.find? fun g => g.id == x.a).bind fun g => g.members.head?.bind fun m => s.groupPlace m
  | .treeletVisit => (s.visits.find? fun v => v.wedge == x.a).bind fun v => (s.rays.find? fun r => r.id == v.ray).map
      fun r => ⟨r.ctx, r.g, r.w, r.lane⟩
  | .rayResultLands => (s.rays.find? fun r => r.id == x.a).map fun r => ⟨r.ctx, r.g, r.w, r.lane⟩
  | .sampleResultLands => (s.samples.find? fun m => m.id == x.a).bind fun m => s.groupPlace m.g m.w x.b
  | .serviceReplyLands => (s.svc.find? fun r => r.id == x.a).map fun r => ⟨r.ctx, r.g, r.w, x.b⟩
  | .sectionRequestArrival | .sectionGrant | .ventertAnswer | .vsecqAnswer => s.callPlace x.a x.b
  | .sectionRefuse => s.callPlace x.a 0
  | .detRecorderInput => if x.f = 2 then (s.fillPlace x.a).map fun p => ⟨p.ctx, 0, 0, 0⟩ else none
  | .engineCommandIssueWaitEnd => s.groupPlace x.a x.b
  | .fragmentMerge => s.groupPlace x.a x.b
  | .barrierNotify =>
      if x.a ≠ 0 then s.groupPlace (x.a - 1)
      else (s.waves.find? fun v => v.frags.any fun f => match f.wait with
        | some (.barrier none a _) => a == x.b
        | _ => false).bind fun v => s.groupPlace v.g v.w
  | .pageFaultResolution => (s.faults.find? fun f => f.id == x.a).map fun f => match f.frag, f.req.bind fun r => s.req? r.1 with
      | some (g, w, _), _ => ⟨f.ctx, g, w, 32⟩
      | none, some r => ⟨f.ctx, r.g, r.w, (f.req.getD (0, 0)).2⟩
      | none, none => ⟨f.ctx, 0, 0, 32⟩
  | .launchEligible | .nodeGroupStart | .graphEnd | .gridCompletionArrival | .nodeBatchTimeout => s.launchPlace x.a
  | .sectionWatchdog | .contextWatchdog => some ⟨x.a, 0, 0, 32⟩
  | .clusterPlacement => (s.launches.find? fun l => l.det && l.eligible && !l.ended && !l.graph && s.inPart x.a l.ctx &&
      decide (l.nextCluster < l.gdim.1 * l.gdim.2.1 * l.gdim.2.2)).map fun l => ⟨l.ctx, 0, 0, 32⟩
  | .networkReceive | .remoteAccessArrival | .forwardRecordArrival | .permitReturn => s.outsidePlace x.a
  | .pressTileArrival | .pressTileLoss => (s.cmdPlace fun c => c.engine == 5 && c.unit == x.a).map fun p => ⟨p.ctx, 0, 0, 0⟩
  | .hostPlainStore | .syncWindowStore => (s.partOfVf x.a).bind fun p => s.outsidePlace p.n
  | _ => none

/-- The DET context that an event belongs to. -/
def State.detOwner (s : State) (e : Event) : Option Nat :=
  match s.eventPlace e with
  | some p => if s.detCtx p.ctx then some p.ctx else none
  | none => none

/-- Virtual cycles from an event's cause to the event (R429). Where R429 gives an engine's latency as a fixed function of the
command and its data, and for the events that it does not name, one cycle. DESIGN CHOICE (log 67). -/
def State.latency (s : State) (e : Event) : Nat :=
  let x := e.args
  match e.what with
  | .registration => if x.c = 0 then 2048 else if x.d = 1 then 128 else 16384
  | .loadResultLands | .atomicAtHome => match s.req? x.a with
    | none => 1
    | some r => match r.kind with
      | .peer .. => 128
      | .routine .. => 65536
      | _ => if (r.va.getD x.b 0).getLsbD 63 then 16384 else 2048
  | .launchStatusFill | .shapeStatusFill | .feedStatusFill | .grabServed | .sectionRequestArrival => 2048
  | .serviceReplyLands | .pageFaultResolution => 65536
  -- a load's or an acquire's latency includes any surrender
  | .surrender | .surrenderComplete => 0
  | _ => 1

/-- The virtual cycle of a service record's reply is fixed when the call is made (R429). -/
def State.dueOf (s : State) (ctx : Nat) (e : Event) : Nat :=
  match e.what, s.svc.find? fun r => r.id == e.args.a with
  | .serviceReplyLands, some r => if r.due = 0 then s.vclockOf ctx + s.latency e else r.due
  | _, _ => s.vclockOf ctx + s.latency e

/-- Events of DET contexts that have come up since the last turn get their virtual cycles. -/
def State.stampDue (s : State) : State :=
  if s.launches.any fun l => l.det && !l.ended then
    { s with agenda := s.agenda.map fun e =>
        if e.args.due ≠ 0 then e
        else match s.detOwner e with
          | some c => ⟨e.what, { e.args with due := s.dueOf c e }⟩
          | none => e }
  else s

/-- Place of an event within its virtual cycle (R430): launch, cluster index, CLRANK, WAVEID, lane. -/
def State.eventKey (s : State) (e : Event) : Nat :=
  match s.eventPlace e with
  | some p => (match s.group? p.g with
      | some g => ((g.launch * 2 ^ 60 + g.cluster) * 64 + g.clrank) * 64 + p.w
      | none => 0) * 64 + p.lane
  | none => 0

/-- The event of a context that comes first in virtual time, with its place on the agenda: the least virtual cycle, within it
the order of R430, then the order of the agenda. -/
def State.firstDue (s : State) (ctx : Nat) : Option (Nat × Event) :=
  let mine := (List.range s.agenda.length).filterMap fun n => (s.agenda[n]?).bind fun e =>
    if s.detOwner e == some ctx then some (n, e) else none
  mine.foldl (fun (b : Option (Nat × Event)) x => match b with
    | none => some x
    | some y =>
      if x.2.args.due < y.2.args.due || (x.2.args.due == y.2.args.due && decide (s.eventKey x.2 < s.eventKey y.2)) then some x
      else some y) none

/-- R428: the virtual clock stands while the context does not run, while a cluster waits for its restore or for cores that another
context holds, and while an answer that the service group owes, that of a VATOMX among them, is not ready at its virtual cycle. -/
def State.clockStands (s : State) (ctx : Nat) : Bool :=
  (match s.ctx? ctx with | some c => c.phase != .running || c.vwait | none => true) ||
  (s.launches.any fun l => l.ctx == ctx && !l.evicted.isEmpty) ||
  (s.svc.any fun r => r.ctx == ctx && r.dst.isSome && decide (r.due ≤ s.vclockOf ctx) && r.due != 0)

/-- The pipes that hold a wave of a context: core and pipe. -/
def State.pipesOf (s : State) (ctx : Nat) : List (Nat × Nat) :=
  (s.waves.filterMap fun v => match s.group? v.g with
    | some g => if g.ctx == ctx && g.resident && !v.frags.isEmpty then some (g.core, v.pipe) else none
    | none => none).eraseDups

end Sys2Proof.Machine
end

