-- ==== Sys2Proof/Machine/Sched.lean ====
section
/-! DEFINITION. Issue: which fragments are ready (R63, R89), the choice of the fragment that issues (R63), the merge step
(R62), the clock (R19), fetching a word (R24), and the choice of the next step of the machine. -/

namespace Sys2Proof.Machine

open Host

/-! ## Waiting -/

/-- Whether a wait that the core tests itself has ended; the others are ended by the event that ends them. -/
def Wait.over (s : State) (g : Group) (wv : Wave) : Wait → Bool
  | .empty true n => (wv.sreg n).full
  | .empty false n => match wv.port? n with
    | some q => !(g.queue q).isEmpty || s.streamEnded g.g q
    | none => (wv.vreg n).pend = 0
  | .stores => s.storesDone wv.g wv.w
  | .sync => !s.syncBusy wv.g wv.w
  | .fence => !(s.fills.any fun f => f.g == wv.g && f.w == wv.w && f.kind == 5)
  | .fault id => !(s.faults.any fun f => f.id == id)
  | .assay => !((s.partOf g.ctx).any Part.frozen)
  | _ => false

/-- Fragments that have issued the word at their PC and wait for it to complete take no part in merging (R62): VENTER,
VENTERT, VFWD and SCONV. A REP unit with repetitions done is held to be one too. DESIGN CHOICE (log 68). -/
def Frag.midWord (f : Frag) : Bool :=
  f.repNext.isSome || f.fwdLane.isSome || match f.wait with
    | some .section_ | some .entert | some (.permit _) | some .sconv => true
    | _ => false

/-- R62, R397: two fragments of a wave that the merge step joins. -/
def mergeable (x y : Frag) : Bool :=
  x.prio == y.prio && x.pc == y.pc && x.frame == y.frame && !x.midWord && !y.midWord

/-- A fragment whose pair equals another's is not issued until the merge (R62). -/
def Wave.heldBack (v : Wave) (f : Frag) : Bool := v.frags.any fun x => x.id != f.id && mergeable f x

/-- R63: ready fragments. -/
def State.fragReady (s : State) (g : Group) (v : Wave) (f : Frag) : Bool :=
  !v.heldBack f && (match f.wait with | none => true | some w => w.over s g v)

/-- A wave may be selected: its group is resident, its context runs, and no write of TLBINV that it made is still to complete
(R385). -/
def State.canIssue (s : State) (v : Wave) : Bool :=
  match s.group? v.g with
  | none => false
  | some g => g.resident && (match s.ctx? g.ctx with | some c => c.phase == .running | none => false) &&
    !(s.invals.any fun x => x.wave == some (v.g, v.w)) && v.frags.any (s.fragReady g v)

/-- R63: the fragment that issues, among the ready ones: ages of 256 first, the oldest, then lower id; else highest
priority, lowest PC, lowest id. R99: a fragment that yielded is passed over when another is ready. -/
def better (x y : Frag) : Bool :=
  if 256 ≤ x.age ∨ 256 ≤ y.age then
    (if x.age = y.age then decide (x.id ≤ y.id) else decide (y.age < x.age))
  else if x.prio ≠ y.prio then decide (y.prio < x.prio)
  else if x.pc ≠ y.pc then decide (x.pc < y.pc) else decide (x.id ≤ y.id)

def pickFrag : List Frag → Option Frag
  | [] => none
  | f :: fs => match pickFrag fs with
    | none => some f
    | some g => if better f g then some f else some g

/-- Two waves share a pipe of a core. -/
def State.samePipe (s : State) (v w : Wave) : Bool :=
  v.pipe == w.pipe && (match s.group? v.g, s.group? w.g with | some a, some b => a.core == b.core | _, _ => false)

/-- ISSUE_SELECTION (R63): start a unit of the chosen fragment of wave (g, w). It is the opportunity that a wave of the same pipe may
have given away (R99). -/
def State.issueSelect (s : State) (g w : Nat) : State :=
  match s.group? g, s.wave? g w with
  | some gr, some v =>
    if !s.canIssue v then s
    else
      let ready := v.frags.filter (s.fragReady gr v)
      let others := ready.filter fun f => v.yielded != some f.id
      match pickFrag (if others.isEmpty then ready else others) with
      | none => s
      | some f =>
        let det := s.detCtx gr.ctx
        let last := if det then (match s.ctx? gr.ctx with
          | some c => (c.vlast.find? fun x => x.1 == gr.core && x.2.1 == v.pipe).map fun x => x.2.2
          | none => none) else none
        let givers := s.waves.filter fun x => x.gives && s.samePipe v x
        let undo : Undo := { ages := v.frags.map fun x => (x.id, x.age), yielded := v.yielded
                             pipe := if det then some (gr.ctx, gr.core, v.pipe) else none, last := last
                             gives := givers.map fun x => (x.g, x.w) }
        let s : State := { s with waves := s.waves.map fun x => if s.samePipe v x then { x with gives := false } else x }
        let s := s.updWave g w fun v => { v with
          yielded := none
          frags := v.frags.map fun x =>
            if x.id == f.id then { x with age := 0, wait := none }
            else if ready.any fun r => r.id == x.id then { x with age := min 511 (x.age + 1) } else x }
        -- R430: the wave that its pipe took last
        let s := if det then s.updCtx gr.ctx fun c => { c with
            vlast := (c.vlast.filter fun x => !(x.1 == gr.core && x.2.1 == v.pipe)) ++ [(gr.core, v.pipe, s.waveKey v)] } else s
        { s with
          lastWave := (g, w)
          cur := some { g := g, w := w, f := f.id, unitPc := f.pc, pc := f.pc, word := 0, imm := none, ord := none, rep := none
                        undo := some undo } }
  | _, _ => s

/-- ISSUE_SELECTION. It brings the wave. -/
def execIssueSelection (s : State) : Res := .next (s.issueSelect s.ev.a s.ev.b)

/-- R62: join one fragment into the list. -/
def mergeInto : List Frag → Frag → List Frag
  | [], f => [f]
  | x :: xs, f =>
    if mergeable x f then
      let lo := if x.id ≤ f.id then x else f
      { lo with live := x.live ||| f.live, sib := (x.sib ||| f.sib) &&& ~~~(x.live ||| f.live), age := 0, wait := none } :: xs
    else x :: mergeInto xs f

/-- FRAGMENT_MERGE (R62): all fragments of a wave that share a pair become one. -/
def State.mergeWave (s : State) (g w : Nat) : State :=
  (s.updWave g w fun v => { v with frags := v.frags.foldl mergeInto [] }).resave g w

/-- FRAGMENT_MERGE. It brings the wave. -/
def execFragmentMerge (s : State) : Res := .next (s.mergeWave s.ev.a s.ev.b)

/-! ## The clock -/

/-- Heartbeat period in core cycles (R442). -/
def hbPeriod (mode : DWord) : Nat :=
  if mode.toNat / 16 % 4 = 0 then 16 else if mode.toNat / 16 % 4 = 2 then 256 else 64

/-- One core cycle (R19): every partition's clocks advance; a heartbeat tick that falls due, which runs before anything else,
and every fourth cycle the merges (R62), are put on the agenda. DESIGN CHOICE (log 1). -/
def State.tickCycle (s : State) : State :=
  let due := s.parts.filter fun p => decide (p.period ≤ p.subcycle + 1)
  let step1 : Part → Part := fun p =>
    { p with cycle := p.cycle + 1, subcycle := if p.period ≤ p.subcycle + 1 then 0 else p.subcycle + 1 }
  let s := { s with cycle := s.cycle + 1, parts := s.parts.map step1 }
  let s : State := s.pushAll (due.map fun p => (⟨.heartbeatTick, { a := p.n }⟩ : Event))
  -- a service group's turn lasts at most 10 µs (R5, R86)
  let s := if s.cycle % 10000 = 0 then
      s.pushNew (((s.svc.map SvcRec.wheel).eraseDups).map fun w => (⟨.serviceTurnEnd, { a := w }⟩ : Event)) else s
  if s.cycle % 4 = 0 then
    s.pushNew ((s.waves.filter fun v => v.frags.any v.heldBack).map fun v => (⟨.fragmentMerge, { a := v.g, b := v.w }⟩ : Event))
  else s

/-! ## Fetch (R24, R94) -/

/-- What fetching the next word gives. -/
inductive Fetched where
  | word (s : State) (w : Nat)
  | stop (s : State)

/-- Fetch the word at the unit's next address (R24): a violation stops the context (R94, R387); a resolvable fault
blocks the fragment until the service group has resolved it (R386). A fetch sees the home's bytes as they stand, so a word that a
host has written is seen at once. DESIGN CHOICE (log 71). -/
def State.fetchWord (s : State) (i : Iss) : Fetched :=
  if !canonical i.c.pc then .stop (s.violate i i.c.pc 0 0 0 .fetch 0)
  else match s.translateFor (s.actsFor i.grp) i.grp.core i.grp.servedCtx i.c.pc.toNat .fetch with
    | (s, .ok pa _) => match s.homeBytes pa 4 with
      | some bs => .word s (leNat bs)
      | none => .stop (s.violate i i.c.pc 8 0 0 .fetch 0)
    | (s, .viol k l ipa) => .stop (s.violate i i.c.pc k l ipa .fetch 0)
    | (s, .resolvable e) =>
      let q := s.fileFault i.grp.ctx i.c.pc .fetch e none (some (i.c.g, i.c.w, i.c.f))
      .stop (q.1.block i (.fault q.2))

/-- A word that is no instruction (R39): the unit takes ILLEGAL_WORD. DEDUCED (log 65). -/
def State.rejectWord (s : State) : State := match s.iss? with | some i => s.illegal i | none => s

/-! ## The next step -/

def insertBy (key : Wave → Nat) (v : Wave) : List Wave → List Wave
  | [] => [v]
  | x :: xs => if key v ≤ key x then v :: x :: xs else x :: insertBy key v xs

/-- The DET context that a wave belongs to (R428). -/
def State.waveDet (s : State) (v : Wave) : Option Nat :=
  match s.group? v.g with
  | some g => if s.detCtx g.ctx then some g.ctx else none
  | none => none

/-- Waves that can issue, and the waves of every DET context that has lanes left, in rotation after the one that issued last.
DESIGN CHOICE (log 3). -/
def State.rotation (s : State) : List Wave :=
  let l := (s.waves.filter fun v => s.canIssue v || ((s.waveDet v).isSome && !v.frags.isEmpty)).foldl
    (fun acc v => insertBy s.waveKey v acc) []
  let last := match s.wave? s.lastWave.1 s.lastWave.2 with | some v => s.waveKey v | none => 0
  (l.filter fun v => decide (last < s.waveKey v)) ++ (l.filter fun v => !decide (last < s.waveKey v))

/-- What the machine does next when no unit is in progress. -/
inductive Turn where
  | event (e : Event) (s : State)
  | issue (g w : Nat) (s : State)
  | idle (s : State)

/-- R21: traffic of a channel that an audit has frozen for this tick: work records and permits of the partition, accesses of peers on
its links (R328), tiles for its presses, vectors for its feeder queues, and records of its service queues where no other
partition has one to take. -/
def State.frozenEvent (s : State) (e : Event) : Bool :=
  let frozen (part : Nat) : Bool := (s.part? part).any Part.frozen
  match e.what with
  | .forwardRecordArrival | .permitReturn | .remoteAccessArrival => frozen e.args.a
  | .feederPush => ((s.group? e.args.a).bind fun g => s.partOf g.ctx).any Part.frozen
  | .serviceBatch =>
    let rs := s.svc.filter fun r => r.wheel == e.args.a && !r.taken
    !rs.isEmpty && rs.all fun r => frozen r.part
  | .pressTileArrival | .pressTileLoss | .pressComplete => s.top.ports.any fun q => q.1 == e.args.a && frozen q.2
  | _ => false

/-- Take event n off the agenda, unless its channel is frozen. -/
def State.dropEvent (s : State) (n : Nat) (e : Event) : Turn :=
  if s.frozenEvent e then .idle s else .event e { s with agenda := s.agenda.eraseIdx n, ev := e.args }

/-- R430: the wave of a context that a pipe takes: the next ready one in order after the wave it last took. -/
def State.pipeWave (s : State) (ctx : Nat) (p : Nat × Nat) : Option Wave :=
  let ready := s.waves.filter fun v => (match s.group? v.g with | some g => g.ctx == ctx && g.core == p.1 | none => false) &&
    v.pipe == p.2 && s.canIssue v
  let l := ready.foldl (fun acc v => insertBy s.waveKey v acc) []
  let last := match s.ctx? ctx with
    | some c => (c.vlast.find? fun x => x.1 == p.1 && x.2.1 == p.2).map fun x => x.2.2
    | none => none
  match last with
  | none => l.head?
  | some k => match l.find? fun v => decide (k < s.waveKey v) with
    | some v => some v
    | none => l.head?

/-- The next virtual cycle of a context (R428): its pipes may issue again; every fourth cycle merges its fragments (R62), and a
period of them is a virtual tick. -/
def State.nextVcycle (s : State) (ctx : Nat) : State :=
  let now := s.vclockOf ctx + 1
  let s := s.updCtx ctx fun c => { c with vclock := now, vpend := s.pipesOf ctx }
  -- a VATOMX runs in its service group at its virtual cycle (R429)
  let s := s.pushNew (((s.svc.filter fun r => r.ctx == ctx && r.req.isSome && r.due == now).map SvcRec.wheel).eraseDups.map fun w =>
    (⟨.serviceBatch, { a := w }⟩ : Event))
  let s := if now % 4 = 0 then
      s.pushNew ((s.waves.filter fun v => s.waveDet v == some ctx && v.frags.any v.heldBack).map fun v =>
        (⟨.fragmentMerge, { a := v.g, b := v.w, due := now }⟩ : Event))
    else s
  match s.ctx? ctx, s.partOf ctx with
  | some c, some p => if now % max 1 c.vperiod = 0 then s.push .heartbeatTick { a := p.n, b := ctx + 1, due := now } else s
  | _, _ => s

/-- Of the pipes that have not issued in this cycle, the one whose wave comes first in R430's order: what the waves do at their homes
as they issue falls in that order too. -/
def State.firstPipe (s : State) (ctx : Nat) (ps : List (Nat × Nat)) : Option ((Nat × Nat) × Wave) :=
  (ps.filterMap fun p => (s.pipeWave ctx p).map fun v => (p, v)).foldl (fun (b : Option ((Nat × Nat) × Wave)) x => match b with
    | none => some x
    | some y => if s.waveKey x.2 < s.waveKey y.2 then some x else some y) none

/-- A DET context with no event at hand: an issue of a pipe that has not issued in this cycle and has a ready wave, else the next
virtual cycle. -/
def State.detIssue (s : State) (ctx : Nat) : Turn :=
  match s.ctx? ctx with
  | none => .idle s
  | some c =>
    match s.firstPipe ctx c.vpend with
    | some (p, v) => .issue v.g v.w (s.updCtx ctx fun c => { c with vpend := c.vpend.filter fun q => q != p })
    | none => if s.clockStands ctx then .idle s else .idle (s.nextVcycle ctx)

/-- The next thing that a DET context does (R428, R430): an input that its recording holds for this virtual cycle (R432); else the first of its events that has come to its virtual cycle, else what
its pipes do. While the context does not run its events end in order. -/
def State.detStep (s : State) (ctx : Nat) : Turn :=
  match s.replayDue ctx with
  | some l => .event ⟨.detRecorderInput, { a := l.id, f := 1 }⟩ { s with ev := { a := l.id, f := 1 } }
  | none =>
  let runs := match s.ctx? ctx with | some c => c.phase == .running | none => false
  match s.firstDue ctx with
  | some (n, e) => if e.args.due ≤ s.vclockOf ctx || !runs then s.dropEvent n e else s.detIssue ctx
  | none => s.detIssue ctx

/-- Traffic that arrives from one source on one virtual channel of a link, or on one reliable ordered connection (R328, R329,
R341): the kind of traffic, where it arrives, and its source or channel. Other traffic has no order of its own. DEDUCED (log 78). -/
def State.flow (s : State) (e : Event) : Option (Nat × Nat × Nat) :=
  let x := e.args
  let chan (vc port : Nat) (receives : Bool) : Option (Nat × Nat × Nat) :=
    (s.chans.find? fun c => c.part == x.a && c.n == x.b && c.receives == receives).map fun c =>
      if s.byLink x.a c.route c.peer then (vc, x.a, c.peer) else (port, x.a, x.b)
  match e.what with
  | .remoteAccessArrival => some (if x.d = 1 ∨ x.d = 2 then 2 else 0, x.a, x.b)
  | .forwardRecordArrival => chan 3 10 true
  | .permitReturn => chan 1 11 false
  | .pressTileLoss => some (12, x.a, x.b)
  | _ => none

/-- Traffic of one flow is delivered in its order of sending (R329). -/
def State.flowFirst (s : State) (n : Nat) : Nat :=
  match (s.agenda[n]?).bind s.flow with
  | some k => (s.agenda.findIdx? fun x => s.flow x == some k).getD n
  | none => n

/-- Earlier traffic of the event's flow waits for a page (R386), and what comes after it waits too. -/
def State.flowHeld (s : State) (e : Event) : Bool :=
  match s.flow e with
  | some k => s.faults.any fun f => f.retry.any fun x => s.flow x == some k
  | none => false

/-- Take event n off the agenda. An event of a DET context is a turn of that context (R428). DESIGN CHOICE (log 3). -/
def State.takeEvent (s : State) (n : Nat) : Turn :=
  match s.agenda[s.flowFirst n]? with
  | some e =>
    if s.flowHeld e then .idle s
    else match s.detOwner e with
    | some c => s.detStep c
    | none => s.dropEvent (s.flowFirst n) e
  | none => .idle s

/-- The k-th wave of the rotation; a wave that yielded gives the opportunity to another of its pipe that is ready (R99), and a
wave of a DET context gives the turn to its context (R430). DESIGN CHOICE (log 3). -/
def State.takeIssue (s : State) (k : Nat) : Turn :=
  let r := s.rotation
  match r[k % max 1 r.length]? with
  | none => if s.agenda.isEmpty then .idle s else s.takeEvent 0
  | some v => match s.waveDet v with
    | some c => s.detStep c
    | none =>
      if v.gives then
        match r.find? fun x => !(x.g == v.g && x.w == v.w) && s.samePipe v x && s.canIssue x with
        | some x => .issue x.g x.w s
        | none => .issue v.g v.w s
      else .issue v.g v.w s

def Event.isTick (e : Event) : Bool := match e.what with | .heartbeatTick => true | _ => false

/-- A heartbeat tick that has fallen due comes before anything else (R19, R20). -/
def State.dueTick (s : State) : Option Nat := s.agenda.findIdx? Event.isTick

/-- Who moves next: the state's own list of turns says (an index into the agenda, or beyond it an issue opportunity); with
none left, events and issue opportunities alternate. DESIGN CHOICE (log 3). -/
def State.nextTurn (s : State) : Turn :=
  match s.turns with
  | n :: ts =>
    let s := { s with turns := ts }
    if n < s.agenda.length then s.takeEvent n else s.takeIssue (n - s.agenda.length)
  | [] => if s.agenda.isEmpty || s.cycle % 2 = 1 then s.takeIssue 0 else s.takeEvent 0

/-- A turn of the machine with no unit in progress. A heartbeat tick runs in the cycle in which it falls due, before anything
else (R19, R20): no cycle passes while one is to come. -/
def State.turn (s : State) : Turn :=
  let s := if s.dueTick.isSome then s else s.tickCycle
  match s.dueTick with
  | some n => match s.agenda[n]? with
    | some e => s.dropEvent n e
    | none => .idle s
  | none => s.stampDue.nextTurn

end Sys2Proof.Machine
end

