-- ==== Sys2Proof/Machine/Control.lean ====
section
/-! DEFINITION. Prefixes (R31 to R35), branches, jumps, calls, exits and fragment control (R91 to R101), and the trap
words (R399 to R403). -/

namespace Sys2Proof.Machine

open Host

/-! ## Prefixes -/

/-- Latch a prefix and go on to the next word of the unit (R34, R35). A kind that does not come after those seen is
misuse (R34). -/
def latchPrefix (order : Cur → Bool) (set : Cur → Cur) (s : State) : Res :=
  s.withIss fun i =>
    if order i.c then .next { s with cur := some { set i.c with pc := i.c.pc + 4 } }
    else .next (s.illegal i)

/-- R31. -/
def execImm (n : BitVec 22) (s : State) : Res :=
  latchPrefix (fun c => c.imm.isNone && c.ord.isNone && c.rep.isNone) (fun c => { c with imm := some n }) s
/-- R32. -/
def execOrd (o : BitVec 2) (s : State) : Res :=
  latchPrefix (fun c => c.ord.isNone && c.rep.isNone) (fun c => { c with ord := some o }) s
/-- R33. -/
def execRep (count : BitVec 4) (d a b : Bool) (st : BitVec 3) (s : State) : Res :=
  latchPrefix (fun c => c.rep.isNone) (fun c => { c with rep := some (count, d, a, b, st) }) s

/-! ## Branches and jumps -/

/-- R29, R31: address of the branch word plus 4 × offset. -/
def branchTarget (c : Cur) (w field : Nat) : DWord := c.pc + 4 * imm64 c w field

/-- End the unit with the issuing fragment's lanes at the given pairs (R61); empty parts are dropped, equal pairs joined
by the caller. -/
def State.splitUnit (s : State) (i : Iss) (parts : List (LaneMask × BitVec 4 × DWord × Bool)) : State :=
  (s.updCur i fun w => match w.frag? i.c.f with
    | some f => { w.split f (parts.filter fun p => p.1 != 0) with units := w.units + 1 }
    | none => w).endUnit

/-- R92: lanes whose condition holds move to the target with the word's priority. -/
def vBranch (onZero : Bool) (a : BitVec 7) (p : BitVec 4) (o : BitVec 14) (s : State) : Res :=
  s.issue { imm := true } (fun i => vOk i.wv a.toNat) false [⟨0, false, a.toNat, 1, .bit, false⟩] [] fun i =>
    let src : Src := ⟨0, false, a.toNat, 1, .bit, false⟩
    let s := s.popPorts i [src]
    s.withIss fun i =>
      let taken := laneFilter i.fr.live fun l => ((i.wv.vreg a.toNat).lane l = 0) == onZero
      let tgt := branchTarget i.c 14 o.toNat
      let rest := i.fr.live &&& ~~~taken
      if tgt = i.next ∧ p = i.fr.prio then .next (s.retire i)
      else .next (s.splitUnit i [(taken, p, tgt, false), (rest, i.fr.prio, i.next, false)])
/-- R92. -/
def execVbnz (a : BitVec 7) (p : BitVec 4) (o : BitVec 14) (s : State) : Res := vBranch false a p o s
/-- R92. -/
def execVbz (a : BitVec 7) (p : BitVec 4) (o : BitVec 14) (s : State) : Res := vBranch true a p o s

/-- R93: one test for the fragment. -/
def sBranch (onZero : Bool) (a : BitVec 7) (p : BitVec 4) (o : BitVec 14) (s : State) : Res :=
  s.issue { imm := true } (fun i => sOk i.wv a.toNat) false (sSrcs [(0, a.toNat)]) [] fun i =>
    if ((i.wv.sreg a.toNat).val = 0) == onZero then
      .next (s.splitUnit i [(i.fr.live, p, branchTarget i.c 14 o.toNat, false)])
    else .next (s.retire i)
/-- R93. -/
def execSbz (a : BitVec 7) (p : BitVec 4) (o : BitVec 14) (s : State) : Res := sBranch true a p o s
/-- R93. -/
def execSbnz (a : BitVec 7) (p : BitVec 4) (o : BitVec 14) (s : State) : Res := sBranch false a p o s

/-- Insert a target in ascending order without repeats (R61). -/
def insTarget (t : DWord) : List DWord → List DWord
  | [] => [t]
  | x :: xs => if t = x then x :: xs else if t < x then t :: x :: xs else x :: insTarget t xs

/-- R95: a jump per lane through a register pair, with a link for VJALR. Of several misaligned targets FADDR holds the lowest
lane's. DESIGN CHOICE (log 72). -/
def vJump (link : Option (BitVec 7)) (a : BitVec 7) (ea : Bool) (s : State) : Res :=
  let src : Src := ⟨0, false, a.toNat, 2, .bit, ea⟩
  let ds : List (Bool × Nat) := match link with | some d => [(false, d.toNat), (false, d.toNat + 1)] | none => []
  s.issue {} (fun i => even a.toNat && vOk i.wv (a.toNat + 1) &&
      ds.all (fun d => vDst i.wv d.2) && (match link with | some d => even d.toNat | none => true)) false [src] ds fun i =>
    let s := s.popPorts i [src]
    s.withIss fun i =>
      let tgt := fun l => ((i.wv.vreg (a.toNat + 1)).lane l ++ (i.wv.vreg a.toNat).lane l : BitVec 64)
      match (lanesOf i.fr.live).find? fun l => (tgt l).toNat % 4 != 0 with
      | some l =>
        let bad := laneFilter i.fr.live fun l => (tgt l).toNat % 4 != 0
        .next (s.trap i 0x08 (tgt l) (bad.setWidth 64))
      | none =>
        let s := match link with
          | some d => s.updCur i fun w =>
              (w.writeV d.toNat i.fr.live tADDR (List.replicate 32 (i.next.setWidth 32))).writeV (d.toNat + 1) i.fr.live
                tADDR (List.replicate 32 ((i.next >>> 32).setWidth 32))
          | none => s
        let ts := (lanesOf i.fr.live).foldl (fun acc l => insTarget (tgt l) acc) []
        .next (s.splitUnit i (ts.map fun t => (laneFilter i.fr.live fun l => tgt l == t, i.fr.prio, t, false)))
/-- R95. -/
def execVjr (a : BitVec 7) (ea : Bool) (s : State) : Res := vJump none a ea s
/-- R95. -/
def execVjalr (d a : BitVec 7) (ea : Bool) (s : State) : Res := vJump (some d) a ea s

/-- R96: SCALL. -/
def execScall (d : BitVec 7) (n : BitVec 18) (s : State) : Res :=
  s.issue { imm := true } (fun i => sOk i.wv d.toNat) false [] [(true, d.toNat)] fun i =>
    let s := s.updCur i fun w => w.setS d.toNat i.next tADDR
    .next (s.splitUnit i [(i.fr.live, i.fr.prio, branchTarget i.c 18 n.toNat, false)])
/-- R96: SJR. -/
def execSjr (d a : BitVec 7) (s : State) : Res :=
  s.issue {} (fun i => sOk i.wv d.toNat && sOk i.wv a.toNat) false (sSrcs [(0, a.toNat)]) [(true, d.toNat)] fun i =>
    let t := (i.wv.sreg a.toNat).val
    if t.toNat % 4 ≠ 0 then .next (s.trap i 0x08 t (i.fr.live.setWidth 64))
    else
      let s := s.updCur i fun w => w.setS d.toNat i.next tADDR
      .next (s.splitUnit i [(i.fr.live, i.fr.prio, t, false)])

/-! ## Exit, SCONV and the rest (R66, R97 to R101) -/

/-- R66: when every live lane is blocked at SCONV words, merge them at one address, or trap each fragment at two or
more. `i` supplies the wave. Fragments bound to different trap frames join too; the joined one keeps the frame of the lowest id.
DESIGN CHOICE (log 73). -/
def State.sconvTest (s : State) (i : Iss) : State :=
  match s.wave? i.c.g i.c.w with
  | none => s
  | some v =>
    if v.frags.isEmpty || v.frags.any fun f => f.wait != some .sconv then s
    else match v.frags with
      | [] => s
      | f0 :: fs =>
        if fs.all fun f => f.pc == f0.pc then
          let lo := fs.foldl (fun b f => if f.id < b.id then f else b) f0
          let live := fs.foldl (fun m f => m ||| f.live) f0.live
          let sib := fs.foldl (fun m f => m ||| f.sib) f0.sib
          let top := fs.foldl (fun p f => if p < f.prio then f.prio else p) f0.prio
          s.updCur i fun w => { w with
            units := w.units + v.frags.length
            frags := [{ lo with live := live, sib := sib &&& ~~~live, prio := top, pc := f0.pc + 4, age := 0, wait := none }] }
        else
          -- a fragment that traps here with no handler executes its SCONV again after a resume (R414, R424)
          let s := s.updCur i fun w => { w with frags := w.frags.map fun f => { f with wait := none } }
          v.frags.foldl (fun s f =>
            s.trapFrag { i with c := { i.c with f := f.id, unitPc := f.pc } } f 0x05 0 (f.live.setWidth 64) none) s

/-- R100, R66. -/
def execSconv (s : State) : Res :=
  s.issue {} (fun _ => true) false [] [] fun i => .next ((s.block i .sconv).sconvTest i)

/-- R97, R320: lanes of a mask that hold a section key. -/
def Wave.holders (v : Wave) (m : LaneMask) : LaneMask := laneFilter m fun l => v.held.any fun h => h.lane == l

/-- R97: every lane of the fragment leaves the live set. Holding a key is ILLEGAL_CONVERGENCE with REASON 1 (R320). The
wave's last exit ends it (R53); the others test SCONV again (R66). -/
def exitLanes (s : State) : Res :=
  s.issue {} (fun _ => true) false [] [] fun i =>
    let hold := i.wv.holders i.fr.live
    match (lanesOf hold) with
    | l :: _ =>
      let key := match i.wv.held.reverse.find? fun h => h.lane == l with | some h => h.key | none => 0
      .next (s.trap i 0x05 key (BitVec.ofNat 64 (1 * 2 ^ 32 + hold.toNat)))
    | [] =>
      let s := (s.updCur i fun w =>
        let frags := w.frags.filter fun f => f.id != i.c.f
        { w with
          units := w.units + 1
          frags := frags
          frames := w.frames.filter fun y => frags.any fun x => x.frame == some y.slot }).endUnit
      let last := (i.wv.frags.filter fun f => f.id != i.c.f).isEmpty
      if last then
        let s := (s.updLaunch i.grp.launch fun l => { l with wavesExited := l.wavesExited + 1 }).gridbarTest i.grp.launch
        let gone := (s.waves.filter fun v => v.g == i.c.g).all fun v => v.frags.isEmpty
        .next (if gone then s.push .groupEnd { a := i.c.g } else s)
      else .next (s.sconvTest i)
/-- R97. -/
def execVexit (s : State) : Res := exitLanes s
/-- R97. -/
def execSexit (s : State) : Res := exitLanes s

/-- R99: at the next opportunity the wave passes over the fragment, and its pipe over the wave, where another is ready. -/
def execSyield (s : State) : Res :=
  s.issue {} (fun _ => true) false [] [] fun i =>
    .next ((s.updCur i fun w => { w with yielded := some i.c.f, gives := true }).retire i)

/-- R101. -/
def execSfrag (d : BitVec 7) (s : State) : Res :=
  s.issue {} (fun i => sOk i.wv d.toNat) false [] [(true, d.toNat)] fun i =>
    .next ((s.updCur i fun w => w.setS d.toNat (i.fr.sib ++ i.fr.live : BitVec 64) tRAW).retire i)
/-- R101. -/
def execSlive (d : BitVec 7) (s : State) : Res :=
  s.issue {} (fun i => sOk i.wv d.toNat) false [] [(true, d.toNat)] fun i =>
    let v := i.wv.live.toNat + i.wv.frags.length % 64 * 2 ^ 32 + i.fr.id % 256 * 2 ^ 40 + i.fr.parent % 256 * 2 ^ 48 +
      i.fr.prio.toNat * 2 ^ 56
    .next ((s.updCur i fun w => w.setS d.toNat (BitVec.ofNat 64 v) tRAW).retire i)

/-! ## Trap words (R98, R399 to R403) -/

/-- R98: the lanes with a nonzero operand trap; the fragment splits when only some do. -/
def execVtrap (a : BitVec 7) (ea : Bool) (s : State) : Res :=
  let src : Src := ⟨0, false, a.toNat, 1, .bit, ea⟩
  s.issue {} (fun i => vOk i.wv a.toNat) false [src] [] fun i =>
    let s := s.popPorts i [src]
    s.withIss fun i =>
      let hit := laneFilter i.fr.live fun l => (i.wv.vreg a.toNat).lane l != 0
      if hit = 0 then .next (s.retire i)
      else if hit = i.fr.live then .next (s.trap i 0x0B 0 (hit.setWidth 64))
      else
        let s' := s.updCur i fun w => match w.frag? i.c.f with
          | some f => w.split f [(hit, f.prio, i.c.unitPc, false), (f.live &&& ~~~hit, f.prio, i.next, false)]
          | none => w
        match s'.wave? i.c.g i.c.w with
        | some w => match w.frags.find? fun f => f.live == hit && f.parent == i.fr.id && f.pc == i.c.unitPc with
          | some f => .next (s'.trapFrag i f 0x0B 0 (hit.setWidth 64) none)
          | none => .next s'.endUnit
        | none => .next s'.endUnit
/-- R400. -/
def execTrap (a : BitVec 7) (s : State) : Res :=
  s.issue {} (fun i => sOk i.wv a.toNat) false (sSrcs [(0, a.toNat)]) [] fun i =>
    .next (s.trap i 0x0B 0 ((i.wv.sreg a.toNat).val.setWidth 32 ++ i.fr.live : BitVec 64))
/-- R401. -/
def execRett (s : State) : Res :=
  s.issue {} (fun _ => true) false [] [] fun i =>
    match i.fr.frame.bind fun n => i.wv.frames.find? fun f => f.slot == n with
    | none => .next (s.illegal i)
    | some fm =>
      if fm.fpc.toNat % 4 ≠ 0 then .next (s.trap i 0x08 fm.fpc (i.fr.live.setWidth 64))
      else .next (s.returnTrap i fm)
/-- R402. -/
def execEbreak (s : State) : Res := s.issue {} (fun _ => true) false [] [] fun i => .next (s.trap i 0x0C 0 0)
/-- R403. -/
def execSnop (s : State) : Res := s.issue {} (fun _ => true) false [] [] fun i => .next (s.retire i)

end Sys2Proof.Machine
end

