-- ==== Sys2Proof/Machine/Sections.lean ====
section
/-! DEFINITION. Ordered sections (R305 to R325): the words that enter, leave and query keys, the homes that serve them,
and the searches that find sections without progress. -/

namespace Sys2Proof.Machine

open Host

/-! ## Keys -/

def State.sec? (s : State) (ctx : Nat) (key : DWord) : Option SecKey := s.secs.find? fun e => e.ctx == ctx && e.key == key
def State.updSec (s : State) (ctx : Nat) (key : DWord) (f : SecKey → SecKey) : State :=
  { s with secs := s.secs.map fun e => if e.ctx == ctx && e.key == key then f e else e }
def State.call? (s : State) (id : Nat) : Option SecCall := s.calls.find? fun c => c.id == id
def State.updCall (s : State) (id : Nat) (f : SecCall → SecCall) : State :=
  { s with calls := (s.calls.map fun c => if c.id == id then f c else c).filter fun c => c.lanes ||| c.granted != 0 }

def laneBit (l : Nat) : LaneMask := BitVec.ofNat 32 (2 ^ l)

/-- R306: the home wedge of a key. -/
def State.keyHome (s : State) (ctx : Nat) (key : DWord) : Nat :=
  match s.partOf ctx with
  | none => 0
  | some p =>
    let ws := (List.range 20).filter fun w => p.wedges.getLsbD w
    let x : BitVec 16 := key.setWidth 16 ^^^ (key >>> 16).setWidth 16 ^^^ (key >>> 32).setWidth 16 ^^^ (key >>> 48).setWidth 16
    ws.getD (x.toNat % max 1 ws.length) 0

/-- R318: an entry for a key that has none: in its home's table, else in the overflow area, else nowhere. -/
def State.secAlloc (s : State) (ctx : Nat) (key : DWord) : Option State :=
  match s.sec? ctx key with
  | some _ => some s
  | none =>
    let home := s.keyHome ctx key
    let table := (s.secs.filter fun e => e.home == home && !e.spilled).length
    let spilled := (s.secs.filter fun e => e.ctx == ctx && e.spilled).length
    let room := match s.ctx? ctx with | some c => c.secovf.toNat % 2 ^ 16 * 1024 | none => 0
    let e : SecKey := ⟨ctx, key, home, 0, none, none, [], 0, false⟩
    if table < 4096 then some { s with secs := s.secs ++ [e] }
    else if spilled < room then some { s with secs := s.secs ++ [{ e with spilled := true }] }
    else none

/-- R305: the last releaser of an entry is surrendered before the entry is freed. -/
def State.surrenderKey (s : State) (e : SecKey) : State :=
  match e.rcd with | some (core, _) => s.writeBack core e.ctx (fun _ => true) | none => s

/-- R305: free an entry that holds nothing; its last releaser is surrendered first. -/
def State.secFree (s : State) (ctx : Nat) (key : DWord) : State :=
  match s.sec? ctx key with
  | none => s
  | some e =>
    if e.holder.isSome || !e.waiters.isEmpty || e.expected != 0 then s
    else
      { s.surrenderKey e with secs := s.secs.filter fun x => !(x.ctx == ctx && x.key == key) }

/-- R313: Serve. -/
def State.serve (s : State) (ctx : Nat) (key : DWord) : State :=
  match s.sec? ctx key with
  | none => s
  | some e =>
    if e.holder.isSome then s
    else match e.waiters.find? fun w => w.seq == e.expected with
      | none => s
      | some w =>
        (s.updSec ctx key fun e => { e with
          holder := some (w.g, w.w, w.lane), idle := 0
          waiters := e.waiters.filter fun x => x != w }).push .sectionGrant { a := w.call, b := w.lane }

/-- R308: the acquire of an entry, on the key's release record. -/
def State.secAcquire (s : State) (core ctx : Nat) (key : DWord) : State :=
  let s := match (s.sec? ctx key).bind (·.rcd) with
    | some (lr, _) =>
      if lr = core then s
      else (s.writeBack lr ctx fun _ => true).updSec ctx key fun e => { e with rcd := none }
    | none => s
  s.invalidate core

def State.coreOf (s : State) (g : Nat) : Nat := match s.group? g with | some gr => gr.core | none => 0

/-! ## Words -/

/-- Key of a lane (R310). -/
def keyOf (v : Wave) (a l : Nat) : DWord := (v.vreg (a + 1)).lane l ++ (v.vreg a).lane l

def secSrcs (a b : Nat) (ea eb : Bool) : List Src := [⟨0, false, a, 2, .bit, ea⟩, ⟨1, false, b, 1, .bit, eb⟩]

/-- R319. -/
def capacityInfo (reason : Nat) (lanes : LaneMask) : DWord := BitVec.ofNat 64 (reason * 2 ^ 32 + lanes.toNat)

/-- Lanes of a wave that wait for a key of the context. -/
def State.waitingLanes (s : State) (ctx g w : Nat) : LaneMask :=
  laneFilter (BitVec.allOnes 32) fun l => s.secs.any fun e => e.ctx == ctx && e.waiters.any fun x => x.g == g && x.w == w && x.lane == l

/-- R311: the checks before any request is sent; none when they pass. -/
def State.secCheck (s : State) (i : Iss) (v : Wave) (a : Nat) : Option State :=
  let ls := lanesOf i.fr.live
  let holds (l : Nat) (k : DWord) : Bool := i.wv.held.any fun h => h.lane == l && h.key == k
  match ls.find? fun l => holds l (keyOf v a l) with
  | some l =>
    let k := keyOf v a l
    let s := (s.updCurFrag i fun f => { f with pc := i.c.unitPc, wait := none }).endUnit
    some (s.raiseStop i.grp.ctx (some i.ln.id)
      { cause := 0x23, engine := 10, unit := s.keyHome i.grp.ctx k, addr := k, total := 1, pc := i.c.unitPc
        -- the holder is the asking wave itself: lanes that wait already, and those that ask for what they hold
        detail := (s.waitingLanes i.grp.ctx i.c.g i.c.w ||| laneFilter i.fr.live fun l => holds l (keyOf v a l)).setWidth 64 })
  | none =>
    let full := laneFilter i.fr.live fun l => decide (4 ≤ (i.wv.held.filter fun h => h.lane == l).length)
    match lanesOf full with
    | l :: _ => some (s.trap i 0x0A (keyOf v a l) (capacityInfo 1 full))
    | [] => none

/-- The request of a section word. -/
def State.newCall (s : State) (i : Iss) (kind dst : Nat) (v : Wave) (a b : Nat) : State :=
  let c : SecCall := ⟨s.seq, kind, i.c.g, i.c.w, i.grp.ctx, dst, i.fr.live, i.fr.live, (List.range 32).map (keyOf v a),
    (List.range 32).map fun l => (v.vreg b).lane l, 0, i.wv.regs.secwdog, 0⟩
  { s.fresh with calls := s.calls ++ [c] }

/-- R312. -/
def execVenter (a b : BitVec 7) (ea eb : Bool) (s : State) : Res :=
  let srcs := secSrcs a.toNat b.toNat ea eb
  s.issue {} (fun i => even a.toNat && vOk i.wv (a.toNat + 1) && vOk i.wv b.toNat) false srcs [] fun i =>
    match s.accessWait i.c.g i.c.w true false with
    | some w => .next (s.block i w)
    | none =>
      let sp := s.popPorts i srcs
      let v := (sp.wave? i.c.g i.c.w).getD i.wv
      match s.secCheck i v a.toNat with
      | some s => .next s
      | none =>
        let s := sp.newCall i 0 0 v a.toNat b.toNat
        .next ((s.pushAll ((lanesOf i.fr.live).map fun l => (⟨.sectionRequestArrival, { a := sp.seq, b := l }⟩ : Event))).block i .section_)

/-- R314. -/
def execVentert (d a b : BitVec 7) (ea eb : Bool) (s : State) : Res :=
  let srcs := secSrcs a.toNat b.toNat ea eb
  s.issue {} (fun i => even a.toNat && vOk i.wv (a.toNat + 1) && vOk i.wv b.toNat && vDst i.wv d.toNat && d != a &&
      d.toNat != a.toNat + 1 && d != b) false srcs [(false, d.toNat)] fun i =>
    match s.accessWait i.c.g i.c.w true false with
    | some w => .next (s.block i w)
    | none =>
      let sp := s.popPorts i srcs
      let v := (sp.wave? i.c.g i.c.w).getD i.wv
      match s.secCheck i v a.toNat with
      | some s => .next s
      | none =>
        let s := (sp.newCall i 1 d.toNat v a.toNat b.toNat).updCur i fun w => w.emptyV d.toNat i.fr.live
        .next ((s.pushAll ((lanesOf i.fr.live).map fun l => (⟨.ventertAnswer, { a := sp.seq, b := l }⟩ : Event))).block i .entert)

/-- R316. -/
def execVsecq (d a : BitVec 7) (ea : Bool) (s : State) : Res :=
  let srcs : List Src := [⟨0, false, a.toNat, 2, .bit, ea⟩]
  s.issue {} (fun i => even a.toNat && vOk i.wv (a.toNat + 1) && vDst i.wv d.toNat) false srcs [(false, d.toNat)] fun i =>
    let sp := s.popPorts i srcs
    let v := (sp.wave? i.c.g i.c.w).getD i.wv
    let s := (sp.newCall i 2 d.toNat v a.toNat a.toNat).updCur i fun w => w.emptyV d.toNat i.fr.live
    .next ((s.pushAll ((lanesOf i.fr.live).map fun l => (⟨.vsecqAnswer, { a := sp.seq, b := l }⟩ : Event))).retire i)

/-- VSECQ_ANSWER (R316). -/
def State.secqAnswer (s : State) (id lane : Nat) : State :=
  match s.call? id with
  | none => s
  | some c =>
    if c.kind != 2 || !c.lanes.getLsbD lane then s
    else
      let x := match s.sec? c.ctx (c.keys.getD lane 0) with | some e => e.expected | none => 0
      ((s.updWave c.g c.w fun v => v.landV c.dst lane tI32 x c.who).resave c.g c.w).updCall id fun c =>
        { c with lanes := c.lanes &&& ~~~laneBit lane }

/-- What a lane has asked of a home before its VLEAVE is answered first: one lane's requests to one home arrive in program order
(R315). -/
def State.settleSecq (s : State) (g w lane home : Nat) : State :=
  s.calls.foldl (fun s c =>
    if c.kind == 2 && c.g == g && c.w == w && c.lanes.getLsbD lane && s.keyHome c.ctx (c.keys.getD lane 0) == home then
      s.secqAnswer c.id lane else s) s

/-- R315: one lane leaves its key. -/
def State.leaveKey (s : State) (i : Iss) (key : DWord) (lane rt : Nat) (retire : Bool) : State :=
  let ctx := i.grp.ctx
  let s := s.settleSecq i.c.g i.c.w lane (s.keyHome ctx key)
  let s := s.updSec ctx key fun e => { e with
    expected := if retire then 0 else e.expected + 1, holder := none, rcd := some (i.grp.core, rt), idle := 0 }
  let s := s.updCur i fun w => { w with held := w.held.filter fun h => !(h.lane == lane && h.key == key) }
  (s.serve ctx key).secFree ctx key

/-- R315. -/
def execVleave (a : BitVec 7) (r : Bool) (ea : Bool) (s : State) : Res :=
  let srcs : List Src := [⟨0, false, a.toNat, 2, .bit, ea⟩]
  s.issue {} (fun i => even a.toNat && vOk i.wv (a.toNat + 1)) false srcs [] fun i =>
    let sp := s.popPorts i srcs
    let v := (sp.wave? i.c.g i.c.w).getD i.wv
    let bad := laneFilter i.fr.live fun l => !(i.wv.held.any fun h => h.lane == l && h.key == keyOf v a.toNat l)
    match lanesOf bad with
    | l :: _ => .next (s.trap i 0x05 (keyOf v a.toNat l) (BitVec.ofNat 64 (2 * 2 ^ 32 + bad.toNat)))
    | [] => match s.accessWait i.c.g i.c.w true true with
      | some w => .next (s.block i w)
      | none =>
        let rt := i.wv.releaseTime (s.ticksOf i.grp.ctx)
        let s := (lanesOf i.fr.live).foldl (fun s l => s.leaveKey i (keyOf v a.toNat l) l rt r) sp
        .next ((s.setRelts i.c.g i.c.w rt).retire i)

/-! ## At the homes -/

/-- SECTION_REQUEST_ARRIVAL (R313): a request joins its key's waiters, in ascending lane order of its word; without room
for an entry it is refused. -/
def State.secArrive (s : State) (id lane : Nat) : State :=
  match s.call? id with
  | none => s
  | some c =>
    if c.kind != 0 || !c.lanes.getLsbD lane || c.refused.getLsbD lane then s
    else
      let key := c.keys.getD lane 0
      let lower := (List.range lane).any fun l => c.lanes.getLsbD l && c.keys.getD l 0 == key && !c.refused.getLsbD l &&
        !((s.sec? c.ctx key).any fun e => e.waiters.any fun w => w.call == id && w.lane == l) &&
        !((s.sec? c.ctx key).any fun e => e.holder == some (c.g, c.w, l))
      if lower then s.push .sectionRequestArrival { a := id, b := lane }
      else match s.secAlloc c.ctx key with
        | none => (s.updCall id fun c => { c with refused := c.refused ||| laneBit lane }).push .sectionRefuse
            { a := id, b := (laneBit lane).toNat }
        | some s =>
          let w : SecWait := ⟨id, c.g, c.w, lane, c.seqs.getD lane 0, c.wdog⟩
          (s.updSec c.ctx key fun e => { e with waiters := e.waiters ++ [w] }).serve c.ctx key

/-- SECTION_REQUEST_ARRIVAL. It brings the request and the lane. -/
def execSectionRequestArrival (s : State) : Res := .next (s.secArrive s.ev.a s.ev.b)

/-- Lanes of a request that have become holders of their keys and have not moved yet. -/
def State.grantedLanes (s : State) (c : SecCall) : LaneMask :=
  laneFilter c.lanes fun l => (s.sec? c.ctx (c.keys.getD l 0)).any fun e => e.holder == some (c.g, c.w, l)

/-- The acquires of R308 for lanes that have entered; those of a wave that is out are made at its restore (R324). -/
def State.enterAcquires (s : State) (c : SecCall) (lanes : LaneMask) : State :=
  if (s.group? c.g).any Group.resident then
    (lanesOf lanes).foldl (fun s l => s.secAcquire (s.coreOf c.g) c.ctx (c.keys.getD l 0)) s
  else s.updCall c.id fun c => { c with granted := c.granted ||| lanes }

/-- SECTION_GRANT (R312, R324): every lane whose grant has landed by then holds its key; the lanes move on together, and the
others stay blocked. In the image of a wave that is out they do so too. -/
def State.secGrant (s : State) (id lane : Nat) : State :=
  match s.call? id with
  | none => s
  | some c =>
    let hit := s.grantedLanes c
    if c.kind != 0 || !hit.getLsbD lane then s
    else
      let s := (s.enterAcquires c hit).updCall id fun c => { c with lanes := c.lanes &&& ~~~hit }
      (s.updWave c.g c.w fun v =>
        let v : Wave := { v with
          held := v.held ++ (lanesOf hit).map fun l => (⟨l, c.keys.getD l 0⟩ : Held)
          units := v.units + (lanesOf hit).length }
        match v.frags.find? fun f => (f.live &&& hit) != 0 && f.wait == some .section_ with
        | none => v
        | some f =>
          v.split f ([(hit, f.prio, f.pc + 4, false), (f.live &&& ~~~hit, f.prio, f.pc, true)].filter fun p => p.1 != 0)).resave c.g c.w

/-- R324, R423: the acquires of the grants that landed while a group was out. -/
def State.lateGrants (s : State) (g : Nat) : State :=
  (s.calls.filter fun c => c.g == g && c.granted != 0).foldl (fun s c =>
    (s.enterAcquires c c.granted).updCall c.id fun c => { c with granted := 0 }) s

/-- SECTION_GRANT. It brings the request and the lane. -/
def execSectionGrant (s : State) : Res := .next (s.secGrant s.ev.a s.ev.b)

/-- Lanes refused for want of room take SECTION_CAPACITY at their word (R312, R314): they form a fragment of their own. -/
def State.secTrap (s : State) (c : SecCall) (f : Frag) (lanes : LaneMask) (rest : DWord) (keep : Bool) : State :=
  match s.group? c.g with
  | none => s
  | some gr => match s.launch? gr.launch with
    | none => s
    | some l =>
      let s := s.updWave c.g c.w fun v => v.split f
        ([(lanes, f.prio, f.pc, false), (f.live &&& ~~~lanes, f.prio, rest, keep)].filter fun p => p.1 != 0)
      match s.wave? c.g c.w with
      | none => s
      | some v => match v.frags.find? fun x => x.live == lanes && x.pc == f.pc with
        | none => s
        | some x =>
          let cu : Cur := ⟨c.g, c.w, x.id, f.pc, f.pc, 0, none, none, none, none⟩
          let lo := (lanesOf lanes).headD 0
          (s.trapFrag ⟨cu, gr, v, x, l⟩ x 0x0A (c.keys.getD lo 0) (capacityInfo 0 lanes) none).resave c.g c.w

/-- SECTION_REFUSE (R312, R318): the lanes refused. -/
def State.secRefuse (s : State) (id : Nat) (lanes : LaneMask) : State :=
  match s.call? id with
  | none => s
  | some c =>
    -- every lane refused by then takes the trap in one fragment
    let hit := c.lanes &&& c.refused
    if c.kind != 0 || lanes &&& hit = 0 then s
    else
      let s := s.updCall id fun c => { c with lanes := c.lanes &&& ~~~hit }
      match (s.wave? c.g c.w).bind fun v => v.frags.find? fun f => (f.live &&& hit) == hit && f.wait == some .section_ with
      | none => s
      | some f => s.secTrap c f hit f.pc true

/-- SECTION_REFUSE. It brings the request and the lanes. -/
def execSectionRefuse (s : State) : Res := .next (s.secRefuse s.ev.a (BitVec.ofNat 32 s.ev.b))

/-- VENTERT_ANSWER (R314): one lane's attempt and its answer; with the last answer the fragment goes on. -/
def State.entertAnswer (s : State) (id lane : Nat) : State :=
  match s.call? id with
  | none => s
  | some c =>
    if c.kind != 1 || !c.lanes.getLsbD lane then s
    else
      let key := c.keys.getD lane 0
      let would := match s.sec? c.ctx key with
        | some e => e.holder.isNone && e.expected == c.seqs.getD lane 0
        | none => c.seqs.getD lane 0 == 0
      let tried : Option State := if would then s.secAlloc c.ctx key else some s
      let refused := tried.isNone
      let s := match tried with
        | some t =>
          if would then
            let t := (t.updSec c.ctx key fun e => { e with holder := some (c.g, c.w, lane), idle := 0 }).enterAcquires c (laneBit lane)
            t.updWave c.g c.w fun v => { v with held := v.held ++ [(⟨lane, key⟩ : Held)] }
          else t
        | none => s
      let ok := would && !refused
      let s := (s.updWave c.g c.w fun v => v.landV c.dst lane tI32 (if ok then 1 else 0) c.who).resave c.g c.w
      let refs := if refused then c.refused ||| laneBit lane else c.refused
      let left := c.lanes &&& ~~~laneBit lane
      let s := s.updCall id fun c => { c with lanes := left, refused := refs }
      if left ≠ 0 then s
      else match (s.wave? c.g c.w).bind fun v => v.frags.find? fun f => (f.live &&& c.who) != 0 && f.wait == some .entert with
        | none => s
        | some f =>
          if refs = 0 then (s.updWave c.g c.w fun v =>
            { v.updFrag f.id fun f => { f with pc := f.pc + 4, wait := none } with units := v.units + 1 }).resave c.g c.w
          else s.secTrap c f refs (f.pc + 4) false

/-- VENTERT_ANSWER. It brings the request and the lane. -/
def execVentertAnswer (s : State) : Res := .next (s.entertAnswer s.ev.a s.ev.b)

/-- VSECQ_ANSWER. It brings the request and the lane. -/
def execVsecqAnswer (s : State) : Res := .next (s.secqAnswer s.ev.a s.ev.b)

/-! ## Sections without progress -/

/-- R321: follow the waits-for chain from a waiting lane: at most 16 keys. Answers the keys of a cycle. -/
def State.chain (s : State) (ctx : Nat) : Nat → (Nat × Nat × Nat) → List ((Nat × Nat × Nat) × DWord) → Option (List DWord)
  | 0, _, _ => none
  | n + 1, x, seen =>
    match s.secs.find? fun e => e.ctx == ctx && e.waiters.any fun w => (w.g, w.w, w.lane) == x with
    | none => none
    | some e =>
      let seen := seen ++ [(x, e.key)]
      match e.holder with
      | none => none
      | some y =>
        if (seen.any fun q => q.1 == y) then some ((seen.dropWhile fun q => q.1 != y).map (·.2))
        else s.chain ctx n y seen

/-- R321: the cycles of a context, each once. -/
def State.secCycles (s : State) (ctx : Nat) : List (List DWord) :=
  let lanes := (s.secs.filter fun e => e.ctx == ctx).flatMap fun e => e.waiters.map fun w => (w.g, w.w, w.lane)
  lanes.foldl (fun cs x => match s.chain ctx 16 x [] with
    | some ks => if cs.any fun c => ks.any c.contains then cs else cs ++ [ks]
    | none => cs) []

/-- R321, R411: the record of one key of a cycle. -/
def State.cycleRec (s : State) (ctx n : Nat) (key : DWord) : StopRec :=
  let waiting := match (s.sec? ctx key).bind (·.holder) with
    | some (g, w, _) => s.waitingLanes ctx g w
    | none => 0
  { cause := 0x23, engine := 10, unit := s.keyHome ctx key, addr := key, detail := waiting.setWidth 64
    total := BitVec.ofNat 64 n }

/-- SECTION_DEADLOCK_SEARCH (R321): each context whose lanes wait in a cycle stops, with a record for each key of each cycle. The
search of the partition's ticks covers the contexts that are not DET; that of a DET context's virtual ticks (R428), the one
context. -/
def State.deadlockSearch (s : State) (part : Nat) (only : Option Nat) : State :=
  (s.ctxs.filter fun c => s.inPart part c.id && c.phase == .running &&
      (match only with | some x => c.id == x | none => !s.detCtx c.id)).foldl
    (fun s c => (s.secCycles c.id).foldl (fun s ks =>
      ks.foldl (fun s k => s.raiseStop c.id none (s.cycleRec c.id ks.length k)) s) s) s

/-- SECTION_DEADLOCK_SEARCH. It brings the partition, and for a DET context its number plus 1. -/
def execSectionDeadlockSearch (s : State) : Res :=
  .next (s.deadlockSearch s.ev.a (if s.ev.b = 0 then none else some (s.ev.b - 1)))

/-- R322: the limit of a key's waiters; 0 disables it. -/
def SecKey.limit (e : SecKey) : Nat :=
  if (e.waiters.any fun w => w.wdog == 0) then 0 else e.waiters.foldl (fun m w => max m w.wdog.toNat) 0

def SecKey.stalled (e : SecKey) : Bool :=
  !e.waiters.isEmpty && e.holder.isNone && e.limit != 0 && decide (e.limit ≤ e.idle)

/-- A context has a resident cluster. -/
def State.hasResident (s : State) (ctx : Nat) : Bool := s.groups.any fun g => g.ctx == ctx && g.resident && !g.ended

/-- R322: one tick for the keys of the contexts chosen; the keys that have stalled. -/
def State.secTick (s : State) (sel : Nat → Bool) : State :=
  let mine (e : SecKey) : Bool := sel e.ctx
  let tick (e : SecKey) : SecKey :=
    if mine e && s.hasResident e.ctx && !e.waiters.isEmpty && e.holder.isNone then { e with idle := e.idle + 1 } else e
  let s := { s with secs := s.secs.map tick }
  s.pushNew ((s.secs.filter fun e => mine e && e.stalled).map fun e =>
    (⟨.sectionWatchdog, { a := e.ctx, b := e.key.toNat }⟩ : Event))

/-- SECTION_WATCHDOG (R322): the context of a stalled key stops, and the key's ticks begin again. It brings the context and
the key. -/
def execSectionWatchdog (s : State) : Res :=
  let key : DWord := BitVec.ofNat 64 s.ev.b
  match s.sec? s.ev.a key with
  | some e =>
    if e.stalled then .next ((s.raiseStop s.ev.a none
      { cause := 0x27, engine := 10, unit := e.home, addr := key, detail := 0, total := 1 }).updSec s.ev.a key
        fun x => { x with idle := 0 })
    else .next s
  | none => .next s

/-- R318: the area that SECOVF names is taken when the spilled entries fit it. -/
def State.takeSecovf (s : State) (ctx : Nat) : State :=
  let spilled := (s.secs.filter fun e => e.ctx == ctx && e.spilled).length
  s.updCtx ctx fun c => if decide (spilled ≤ c.secovfNext.toNat % 2 ^ 16 * 1024) then { c with secovf := c.secovfNext } else c

end Sys2Proof.Machine
end

