-- ==== Sys2Proof/Machine/Work.lean ====
section
/-! DEFINITION. The scheduler (R52 to R58, R71 to R76): eligibility, placement, the ends of groups and grids; work graphs
(R79 to R81, R109, R350); range units (R82, R110, R111). -/

namespace Sys2Proof.Machine

open Host

/-! ## Room as it stands (R56) -/

/-- User groups that hold resources of a core; what its service group holds is left out of the core's limits (R13). -/
def State.occupants (s : State) (core : Nat) : List Group :=
  s.groups.filter fun g => g.core == core && g.resident && !g.freed && !g.kernel

/-- Groups have left the vats of these cores. -/
def State.leaveVats (s : State) (cores : List Nat) : State := { s with vatUsed := (s.vatUsed ++ cores).eraseDups }

/-- R56 for one group. -/
def State.coreFits (s : State) (core nw : Nat) (v : BitVec 24) : Bool :=
  let os := s.occupants core
  let used := os.foldl (fun n g => n + g.granules) 0
  let waves := os.foldl (fun n g => n + g.nwaves) 0
  let l1 := os.foldl (fun n g => max n (vatL1min g.vatword)) (vatL1min v)
  !(s.isServiceCore core && decide (60 < vatSum v + vatL1min v)) &&
  decide (waves + nw ≤ s.slotLimit core) && decide (used + vatSum v + l1 ≤ s.granuleLimit core)

/-- What a group to be placed needs and starts with. -/
structure GroupSpec where
  vat : BitVec 24
  lanes : Nat
  vcount : Nat
  scount : Nat
  tiles : Nat
  prog : DWord
  tvec : DWord
  wavemode : BitVec 4

def Launch.spec (l : Launch) : GroupSpec := ⟨l.vatword, l.lanes, l.vcount, l.scount, l.tiles, l.prog, l.tvec, l.wavemode⟩
def Node.spec (n : Node) : GroupSpec := ⟨n.vatword, n.lanes, n.vcount, n.scount, n.tiles, n.prog, n.tvec, n.wavemode⟩

/-- A group placed on a core, with no wave yet. DESIGN CHOICE (log 19). -/
def blankGroup (g key launch ctx cluster rank : Nat) (gid cid : Nat × Nat × Nat) (core : Nat) (x : GroupSpec) : Group where
  g := g
  launch := launch
  ctx := ctx
  cluster := cluster
  clrank := rank
  gid := gid
  cid := cid
  core := core
  nwaves := wavesOf x.lanes
  lanes := x.lanes
  vatword := x.vat
  vbase := Config.choice (3 * key) % 1024
  sbase := Config.choice (3 * key + 1) % 2 ^ 20
  padbase := Config.choice (3 * key + 2) % 2 ^ 20
  granules := vatSum x.vat
  key := key
  pad := []
  queues := []
  resident := true
  slot := none
  node := none
  nodeq := 0
  nodebatch := 0
  nodecap := 0
  reserved := []
  consumed := []
  mstat := 0
  acc := []
  tiles := []
  plane := none
  shadow := none
  planeFmt := 0
  shadowFmt := 0
  mv := 128
  kv := 2 ^ 32 - 1
  nv := 128
  ended := false
  freed := false
  age := g

/-- The core of a wedge for the next group of a cluster: one that fits, with the fewest groups of the cluster on it, then the
lowest (R52). DESIGN CHOICE (log 20). -/
def State.pickCore (s : State) (w nw : Nat) (v : BitVec 24) (mine : List Nat) : Option Nat :=
  let fits := (wedgeCores w).filter fun c => s.coreFits c nw v
  let used (c : Nat) : Nat := (mine.filter (· == c)).length
  match fits with
  | [] => none
  | c :: cs => some (cs.foldl (fun b x => if used x < used b then x else b) c)

/-- Cores for n groups on one wedge, in order of rank. DESIGN CHOICE (log 20). -/
def State.pickCores (s : State) (w : Nat) (x : GroupSpec) : Nat → List Nat → Option (List Nat)
  | 0, mine => some mine
  | n + 1, mine =>
    -- groups placed so far stand as occupants
    let s' := { s with groups := s.groups ++ mine.map fun c => blankGroup 0 0 0 0 0 0 (0, 0, 0) (0, 0, 0) c x }
    match s'.pickCore w (wavesOf x.lanes) x.vat mine with
    | some c => s.pickCores w x n (mine ++ [c])
    | none => none

/-- Cores for a cluster (R52): the first wedge of the partition that holds it on distinct cores, else the first that holds it.
DESIGN CHOICE (log 20). -/
def State.findRoom (s : State) (p : Part) (x : GroupSpec) (size : Nat) : Option (List Nat) :=
  let cores (w : Nat) : Option (List Nat) := s.pickCores w x size []
  match p.wedgeList.findSome? fun w => (cores w).filter fun cs => cs.eraseDups.length == size with
  | some cs => some cs
  | none => p.wedgeList.findSome? cores

/-- The cores stand free for groups of a specification, one after another. -/
def State.coresTake (s : State) (x : GroupSpec) : List Nat → Bool
  | [] => true
  | c :: cs => s.coreFits c (wavesOf x.lanes) x.vat &&
    State.coresTake { s with groups := s.groups ++ [blankGroup 0 0 0 0 0 0 (0, 0, 0) (0, 0, 0) c x] } x cs

/-- Cores for a cluster of a launch. A DET launch's are those that its context finds when it is alone in the partition, so that other
contexts have no part in the choice; the cluster waits until they are free (R430). DESIGN CHOICE (log 20). -/
def State.roomFor (s : State) (p : Part) (l : Launch) (x : GroupSpec) (size : Nat) : Option (List Nat) :=
  if l.det then
    (({ s with groups := s.groups.filter fun g => g.ctx == l.ctx || g.kernel } : State).findRoom p x size).filter (s.coresTake x)
  else s.findRoom p x size

/-! ## Starting groups (R57) -/

/-- Lanes of wave w that start. -/
def startMask (lanes w : Nat) : LaneMask := BitVec.ofNat 32 (2 ^ min 32 (lanes - 32 * w) - 1)

def startTagmode (p : Part) (wavemode : BitVec 4) : Bool :=
  let m := wavemode.toNat % 4
  if m = 0 then p.mode.getLsbD 7 else m = 2

/-- Start a group's waves on its core. DEDUCED (log 41). -/
def State.startGroup (s : State) (p : Part) (gr : Group) (x : GroupSpec) : State :=
  let ws := (List.range gr.nwaves).map fun w =>
    freshWave gr.g w (startMask gr.lanes w) x.vcount x.scount x.prog x.tvec (startTagmode p x.wavemode)
      (BitVec.ofNat 2 (x.wavemode.toNat / 4))
  let gr := { gr with clean := !s.vatUsed.contains gr.core }
  -- a start finds no stale word in its core's L1 (R109)
  ({ s with groups := s.groups ++ [gr], waves := s.waves ++ ws } : State).invalidate gr.core

/-- Coordinates of a linear index, x fastest (R72, R116). -/
def unpack3 (d : Nat × Nat × Nat) (n : Nat) : Nat × Nat × Nat := (n % max 1 d.1, n / max 1 d.1 % max 1 d.2.1, n / max 1 d.1 / max 1 d.2.1)

/-- SECOVF is read when a launch's first cluster is placed, and the area stays fixed for the whole of a launch (R318): while
another launch of the context that has started is not over, the new value waits. DEDUCED (log 76). -/
def State.firstSecovf (s : State) (l : Launch) : State :=
  if l.nextCluster ≠ 0 || s.launches.any (fun x => x.ctx == l.ctx && x.id != l.id && !x.ended && x.nextCluster != 0) then s
  else s.takeSecovf l.ctx

/-- Start cluster c of a launch on the cores found for it. -/
def State.startCluster (s : State) (p : Part) (l : Launch) (c : Nat) (cores : List Nat) : State :=
  let s := s.firstSecovf l
  let cid := unpack3 l.gdim c
  (List.range cores.length).foldl (fun s r =>
    let rk := unpack3 l.cdim r
    let gid := (cid.1 * l.cdim.1 + rk.1, cid.2.1 * l.cdim.2.1 + rk.2.1, cid.2.2 * l.cdim.2.2 + rk.2.2)
    let gr := blankGroup s.seq (s.groupKey l.ctx c r) l.id l.ctx c r gid cid (cores.getD r 0) l.spec
    s.fresh.startGroup p gr l.spec) s

/-! ## Eligibility (R71) -/

/-- LAUNCH_ELIGIBLE (R71): a condition whose barrier's phase differs is met for good. A condition whose page is to be resolved
waits for it; one whose page could not be resolved stops the context (R387). It brings the launch. -/
def State.tryEligible (s : State) (id : Nat) (failed : Bool) : State :=
  match s.launch? id with
  | none => s
  | some l =>
    if l.eligible || l.ended then s
    else
      let seen := l.deps.map fun d => (d, s.depPhase l.ctx d.1)
      let left := (seen.filter fun d => match d.2 with | .ok ph => ph == d.1.2 | _ => true).map (·.1)
      let s := s.updLaunch id fun l => { l with deps := left, eligible := left.isEmpty }
      if left.isEmpty then
        if l.graph then
          -- a graph with no record ends at once (R107)
          (s.push .nodeGroupStart { a := id, b := 0 }).push .graphEnd { a := id }
        else s.push .clusterPlacement { a := match s.partOf l.ctx with | some p => p.n | none => 0 }
      else
        let again : Event := ⟨.launchEligible, { a := id }⟩
        match seen.findSome? fun d => match d.2 with | .fault e => some (d.1.1, e) | _ => none with
        | none => s
        | some (va, e) =>
          if failed then s.agentViolate l.ctx (some id) 16 0xFFFF (BitVec.ofNat 64 va) 10 s.ev.lv s.ev.ipa .load
          else if s.faults.any fun f => f.retry.contains again then s
          else
            let pf : PageFault := ⟨s.seq, l.ctx, BitVec.ofNat 64 va, 0, e, none, none, none, [again], 0⟩
            ({ s.fresh with faults := s.faults ++ [pf] } : State).push .pageFaultResolution { a := s.seq }

/-- LAUNCH_ELIGIBLE. -/
def execLaunchEligible (s : State) : Res := .next (s.tryEligible s.ev.a (s.ev.f == 1))

/-! ## Work graphs -/

def Launch.updNode (l : Launch) (n : Nat) (f : Node → Node) : Launch :=
  { l with nodes := (List.range l.nodes.length).map fun k => match l.nodes[k]? with
      | some x => if k = n then f x else x
      | none => mkNode 0 [] [] 0 }

/-- Slots of a node's ring that forwarding channels hold in reserve (R347). -/
def State.chanReserve (s : State) (l : Launch) (part n : Nat) : Nat :=
  (s.chans.filter fun c => c.part == part && c.receives && c.compl == l.compl && c.node == n).foldl
    (fun m c => m + (c.slots - c.occupied)) 0

def Node.busy (x : Node) : Nat := x.batches.foldl (fun n b => n + b.2.2) 0

/-- Free slots of a node's queue that a group may reserve (R79). DESIGN CHOICE (log 26). -/
def State.freeSlots (s : State) (l : Launch) (part n : Nat) : Nat :=
  match l.nodes[n]? with
  | some x => x.qcap - (x.srcs.length + x.busy + x.resv + s.chanReserve l part n)
  | none => 0

/-- A slot of the ring holds a record, or one that a running group consumes (R80). -/
def Node.taken (x : Node) (k : Nat) : Bool :=
  x.slots.contains k || x.batches.any fun b => decide ((k + x.qcap - b.2.1) % max 1 x.qcap < b.2.2)

/-- Slot that the next record takes: the first free one in the ring's order (R107, R350). DESIGN CHOICE (log 26). -/
def Node.tail (x : Node) : Nat :=
  let at_ (j : Nat) : Nat := (x.next + j) % max 1 x.qcap
  match (List.range (x.slots.length + x.busy + 1)).find? fun j => !x.taken (at_ j) with
  | some j => at_ j
  | none => at_ 0

/-- A record takes the next slot. -/
def Node.place (x : Node) (src : Option Nat) : Node :=
  { x with srcs := x.srcs ++ [src], slots := x.slots ++ [x.tail], next := (x.tail + 1) % max 1 x.qcap }

/-- Records in successive slots from k on. -/
def runFrom (cap k : Nat) : List Nat → Nat
  | [] => 0
  | y :: ys => if y = k then 1 + runFrom cap ((k + 1) % max 1 cap) ys else 0

/-- The oldest records that stand in successive slots: what one batch can name, since NODEBATCH gives its first slot (R107, R116).
DESIGN CHOICE (log 26). -/
def Node.run (x : Node) : Nat := match x.slots with | k :: _ => runFrom x.qcap k x.slots | [] => 0

/-- R81: records that a group of the node would start with, none when none may start. DESIGN CHOICE (log 26). -/
def State.batchSize (s : State) (l : Launch) (n hb : Nat) : Option Nat :=
  match l.nodes[n]? with
  | none => none
  | some x =>
    let k := x.srcs.length
    if k = 0 then none
    else if 32 ≤ k then some (min 32 x.run)
    else
      let feeds (u : Nat) : Bool := match l.nodes[u]? with | some y => y.edges.any fun e => e.1 == n | none => false
      let live (u : Nat) : Bool := match l.nodes[u]? with
        | some y => !y.srcs.isEmpty || s.groups.any fun g => g.launch == l.id && g.node == some u && !g.ended
        | none => false
      if decide (x.lastArrival < hb) || !((List.range l.nodes.length).any fun u => feeds u && live u) then some x.run else none

/-- R79: every reservation of a group of the node can be made. -/
def State.canReserve (s : State) (l : Launch) (part n : Nat) : Bool :=
  match l.nodes[n]? with
  | none => false
  | some x =>
    -- edges into one queue add up
    x.edges.all fun e => decide ((x.edges.filter fun f => f.1 == e.1).foldl (fun m f => m + f.2) 0 ≤ s.freeSlots l part e.1)

/-- A node's shape-table entries load when its first group starts (R107, R181); a record that SHDEF would refuse leaves its
entry as it was. A page fault of the image is resolved first. DEDUCED (log 27). -/
def State.nodeImage (s : State) (p : Part) (l : Launch) (x : Node) (core : Nat) : MemRes Unit :=
  if x.shapesLoaded || x.shapeCnt = 0 then .ok s ()
  else match s.engRead core l.ctx .glob x.shapeAddr.toNat (64 * x.shapeCnt) with
  | .viol s va k lv ipa => .viol s va k lv ipa
  | .fault s va e => .fault s va e
  | .ok s img =>
    .ok ((imageRecords 0 img).foldl (fun s r =>
      if r.2.malformed || s.shapeStatus p.n l.ctx none r.1 r.2 false != 0 then s
      else
        let s' := s.defineShape p.n core l.ctx r.1 r.2
        if 512 < s'.rangeCount p.n then s else s') s) ()

/-- One group of node n takes its core and its k records. A node group has no grid: its CLUSTERID reads 0. DEDUCED (log 27);
DESIGN CHOICE (log 75). -/
def State.beginNode (s : State) (p : Part) (l : Launch) (x : Node) (n k core : Nat) : State :=
  let s := s.firstSecovf l
  let g := s.seq
  let gr := { blankGroup g (s.groupKey l.ctx l.nextCluster 0) l.id l.ctx l.nextCluster 0 (x.started % 2 ^ 20, 0, 0) (0, 0, 0) core x.spec with
    node := some n
    nodeq := BitVec.ofNat 64 (x.qaddr % 2 ^ 48)
    nodebatch := BitVec.ofNat 64 (k * 2 ^ 32 + x.slots.headD 0)
    nodecap := BitVec.ofNat 64 x.qcap
    reserved := x.edges.map (·.2)
    consumed := x.srcs.take k }
  let s := s.updLaunch l.id fun l =>
    let l := x.edges.foldl (fun (l : Launch) e => l.updNode e.1 fun y => { y with resv := y.resv + e.2 }) l
    { l.updNode n fun y => { y with
        srcs := y.srcs.drop k, slots := y.slots.drop k, batches := y.batches ++ [(g, y.slots.headD 0, k)]
        started := y.started + 1, shapesLoaded := true } with nextCluster := l.nextCluster + 1 }
  s.fresh.startGroup p gr x.spec

/-- Start one group of node n with k records on a core, or go as far as its shapes' image lets it; none while the image's page
fault is being resolved. DEDUCED (log 27). -/
def State.startNode (s : State) (p : Part) (l : Launch) (n k core : Nat) : Option State :=
  match l.nodes[n]? with
  | none => none
  | some x =>
    let again : Event := ⟨.nodeGroupStart, { a := l.id, b := n }⟩
    if s.faults.any fun f => f.retry.contains again then none
    else match s.nodeImage p l x core with
      | .fault _ va e =>
        let pf : PageFault := ⟨s.seq, l.ctx, BitVec.ofInt 64 va, Acc.engineRead.code, e, none, none, none, [again], 0⟩
        some (({ s.fresh with faults := s.faults ++ [pf] } : State).push .pageFaultResolution { a := s.seq })
      | .viol _ va kd lv ipa => some (s.agentViolate l.ctx (some l.id) 16 0xFFFF (BitVec.ofInt 64 va) kd lv ipa .engineRead)
      | .ok s _ => some (s.beginNode p l x n k core)

/-! ## Placement (R72 to R76) -/

/-- The node of a graph whose next group may start: the deepest of those that have a batch and whose reservations can be made
(R79, R81). -/
def State.readyNode (s : State) (p : Part) (l : Launch) : Option (Nat × Nat) :=
  let ready := (List.range l.nodes.length).filterMap fun n =>
    if s.canReserve l p.n n then (s.batchSize l n (s.ticksOf l.ctx)).map fun k => (n, k) else none
  let deep (n : Nat) : Nat := match l.nodes[n]? with | some x => x.depth | none => 0
  match ready with
  | [] => none
  | r :: rs => some (rs.foldl (fun b x => if deep b.1 < deep x.1 then x else b) r)

/-- A launch has a cluster, or a group of a graph's node, to place. -/
def State.wantsPlace (s : State) (p : Part) (l : Launch) : Bool :=
  l.eligible && !l.ended &&
  (!l.evicted.isEmpty || (if l.graph then (s.readyNode p l).isSome else decide (l.nextCluster < count3 l.gdim)))

/-- Launches of a partition with something to place, whose contexts run. -/
def State.placeable (s : State) (part : Nat) : List Launch :=
  match s.part? part with
  | none => []
  | some p => s.launches.filter fun l => s.inPart part l.ctx && s.wantsPlace p l &&
      (match s.ctx? l.ctx with | some c => c.phase == .running | none => false)

/-- The virtual function whose turn it is at a priority (R73). -/
def Part.turnOf (p : Part) (prio : Nat) : Option Nat := (p.turns.find? fun t => t.1 == prio).map (·.2)

/-- The eviction that took the first of a launch's evicted clusters out (R76). -/
def State.outAt (s : State) (l : Launch) : Nat :=
  match l.evicted with
  | c :: _ => (s.groups.filter fun g => g.launch == l.id && g.cluster == c && !g.freed).foldl (fun n g => max n g.outAt) 0
  | [] => 0

/-- R72, R73, R76: which of two launches is served first: higher priority; the function that has the turn; an evicted cluster,
which stands at the head of its priority's queue, the one evicted last before the others; the older launch. -/
def servedBefore (s : State) (p : Part) (a b : Launch) : Bool :=
  if a.prio ≠ b.prio then decide (b.prio < a.prio)
  else
    let mine (l : Launch) : Bool := match p.turnOf l.prio with | some v => vfOf l.ctx == v | none => false
    if mine a != mine b then mine a
    else if a.evicted.isEmpty != b.evicted.isEmpty then !a.evicted.isEmpty
    else if s.outAt a ≠ s.outAt b then decide (s.outAt b < s.outAt a)
    else decide (a.id ≤ b.id)

def insertLaunch (s : State) (p : Part) (x : Launch) : List Launch → List Launch
  | [] => [x]
  | y :: ys => if servedBefore s p x y then x :: y :: ys else y :: insertLaunch s p x ys

/-- The next clusters a launch wants placed together: one, or all of a co-resident launch (R75). -/
def Launch.wants (l : Launch) : List Nat :=
  if l.coresident then (List.range (count3 l.gdim - l.nextCluster)).map (l.nextCluster + ·) else [l.nextCluster]

/-- A cluster of a DET context waits for cores that other contexts hold: its virtual cycle is not over yet (R428, R430). -/
def State.waitsCores (s : State) (ctx : Nat) : Bool :=
  match s.partOf ctx with
  | none => false
  | some p => s.launches.any fun l => l.ctx == ctx && l.det && !l.graph && l.evicted.isEmpty && s.wantsPlace p l &&
      ((({ s with groups := s.groups.filter fun g => g.ctx == ctx || g.kernel } : State).findRoom p l.spec (count3 l.cdim)).any fun cs =>
        !s.coresTake l.spec cs)

/-- Place one cluster after another; none when one does not fit. -/
def State.placeAll (s : State) (p : Part) (l : Launch) : List Nat → Option State
  | [] => some s
  | c :: cs => match s.roomFor p l l.spec (count3 l.cdim) with
    | none => none
    | some cores =>
      ((s.startCluster p l c cores).updLaunch l.id fun x => { x with nextCluster := c + 1 }).placeAll p l cs

/-- Groups of an evicted cluster, by rank. -/
def State.clusterGroups (s : State) (launch cluster : Nat) : List Group :=
  s.groups.filter fun g => g.launch == launch && g.cluster == cluster && !g.freed

/-- Cores for an evicted cluster, by rank: in a DET context those it had (R430). DESIGN CHOICE (log 20). -/
def State.restoreCores (s : State) (p : Part) (l : Launch) (c : Nat) : Option (List Nat) :=
  let gs := s.clusterGroups l.id c
  let x : GroupSpec := match gs with
    | g :: _ => { l.spec with vat := g.vatword, lanes := g.lanes }
    | [] => l.spec
  if l.det then
    let cores := gs.map Group.core
    let fits (k : Nat) : Bool :=
      let s' := { s with groups := s.groups ++ (cores.take k).map fun c => blankGroup 0 0 0 0 0 0 (0, 0, 0) (0, 0, 0) c x }
      s'.coreFits (cores.getD k 0) (wavesOf x.lanes) x.vat
    if (List.range cores.length).all fits then some cores else none
  else s.findRoom p x gs.length

/-- The evicted clusters of a launch fit back, one beside the other. -/
def State.fitBack (s : State) (p : Part) (l : Launch) : List Nat → Bool
  | [] => true
  | c :: cs => match s.restoreCores p l c with
    | none => false
    | some cores =>
      let s' : State := { s with groups := s.groups ++ (cores.map fun k =>
        blankGroup 0 0 0 0 0 0 (0, 0, 0) (0, 0, 0) k
          (match s.clusterGroups l.id c with | g :: _ => { l.spec with vat := g.vatword, lanes := g.lanes } | [] => l.spec)) }
      s'.fitBack p l cs

/-- Evicted clusters that come back together: a co-resident launch comes back whole, once every cluster of it is saved (R75). -/
def State.backTogether (s : State) (l : Launch) : List Nat :=
  match l.evicted with
  | [] => []
  | c :: cs =>
    if !l.coresident then [c]
    else if s.groups.any fun g => g.launch == l.id && g.resident && !g.freed then [] else c :: cs

/-- Place what a launch has waiting, if it fits now: a restore is left to CLUSTER_RESTORE (R423). -/
def State.tryPlace (s : State) (p : Part) (l : Launch) : Option State :=
  if !l.evicted.isEmpty then
    match s.backTogether l with
    | [] => none
    | c :: cs => if s.fitBack p l (c :: cs) then some (s.pushNew [⟨.clusterRestore, { a := l.id, b := c }⟩]) else none
  else if l.graph then
    match s.readyNode p l with
    | none => none
    | some (n, k) => match (l.nodes[n]?).bind fun x => s.roomFor p l x.spec 1 with
      | some (core :: _) => s.startNode p l n k core
      | _ => none
  else s.placeAll p l l.wants

/-- Resident clusters that an incoming cluster may push out (R74), first to go first: launch, cluster, priority, age. At the end of a
quantum those of the function whose quantum it was are among them, at the incoming cluster's priority (R73). -/
def State.victims (s : State) (part prio : Nat) (slice : Option Nat) : List (Nat × Nat × Nat × Nat) :=
  let gs := s.groups.filter fun g => g.resident && !g.freed && !g.ended && s.inPart part g.ctx
  let held := (gs.map fun g => (g.launch, g.cluster)).eraseDups
  let cs := held.filterMap fun c => match s.launch? c.1, gs.find? fun g => g.launch == c.1 && g.cluster == c.2 with
    | some l, some g =>
      if l.prio < prio || (l.prio == prio && slice == some (vfOf l.ctx)) then some (l.id, g.cluster, l.prio, g.age) else none
    | _, _ => none
  let first (a b : Nat × Nat × Nat × Nat) : Bool := if a.2.2.1 ≠ b.2.2.1 then decide (a.2.2.1 < b.2.2.1) else decide (b.2.2.2 ≤ a.2.2.2)
  let rec ins (x : Nat × Nat × Nat × Nat) : List (Nat × Nat × Nat × Nat) → List (Nat × Nat × Nat × Nat)
    | [] => [x]
    | y :: ys => if first x y then x :: y :: ys else y :: ins x ys
  cs.foldl (fun l x => ins x l) []

/-- The clusters whose eviction makes room, in order; none when all of them together do not. A co-resident launch goes whole
(R75). -/
def State.evictionPlan (s : State) (fits : State → Bool) : List (Nat × Nat × Nat × Nat) → List (Nat × Nat) → Option (List (Nat × Nat))
  | vs, done =>
    if fits s && !done.isEmpty then some done
    else match vs with
      | [] => none
      | v :: rest =>
        let whole := match s.launch? v.1 with | some l => l.coresident | none => false
        let out (g : Group) : Bool := g.launch == v.1 && (whole || g.cluster == v.2.1)
        let cs := ((s.groups.filter fun g => out g && g.resident && !g.freed && !g.ended).map fun g => (v.1, g.cluster)).eraseDups
        let s' := { s with groups := s.groups.map fun g => if out g then { g with resident := false } else g }
        s'.evictionPlan fits rest (done ++ cs.filter fun c => !done.contains c)

/-- CLUSTER_PLACEMENT (R72 to R75): one placement, or the evictions that make room for it. It brings the partition. -/
def State.placement (s : State) (part : Nat) : State :=
  match s.part? part with
  | none => s
  | some p =>
    let order := (s.placeable part).foldl (fun l x => insertLaunch s p x l) []
    let r := order.findSome? fun l => match s.tryPlace p l with
      | some s' => some (s'.updPart part fun p => if (p.turnOf l.prio).isSome then p else { p with turns := p.turns ++ [(l.prio, vfOf l.ctx)] })
      | none =>
        (s.evictionPlan (fun s => (s.tryPlace p l).isSome) (s.victims part l.prio none) []).map fun cs =>
          cs.foldl (fun s c => s.pushNew [⟨.clusterEviction, { a := c.1, b := c.2 }⟩]) s
    match r with
    | some s => s.pushNew [⟨.clusterPlacement, { a := part }⟩]
    | none => s

/-- DET contexts of a partition note whether a cluster of theirs waits for cores (R428). -/
def State.noteWaits (s : State) (part : Nat) : State :=
  if s.launches.any fun l => l.det && !l.ended then
    { s with ctxs := s.ctxs.map fun c => if s.inPart part c.id then { c with vwait := s.waitsCores c.id } else c }
  else s

/-- CLUSTER_PLACEMENT. -/
def execClusterPlacement (s : State) : Res := .next ((s.placement s.ev.a).noteWaits s.ev.a)

/-- QUANTUM_EXPIRY (R73): at each priority where two or more functions wait or hold, the turn passes to the next in ascending
number, and clusters of the function whose quantum ends go until its waiting cluster fits. It brings the partition. -/
def State.quantum (s : State) (part : Nat) : State :=
  match s.part? part with
  | none => s
  | some p =>
    let wait := s.placeable part
    let s := (List.range 16).foldl (fun s prio =>
      match p.turnOf prio with
      | none => s
      | some cur =>
        let vfs := ((wait.filter fun l => l.prio == prio).map fun l => vfOf l.ctx).filter fun v => v != cur
        match vfs with
        | [] => s
        | v0 :: vs =>
          let above := (v0 :: vs).filter fun v => decide (cur < v)
          let nxt := match above with
            | a :: as => as.foldl min a
            | [] => vs.foldl min v0
          let s := s.updPart part fun p => { p with turns := p.turns.map fun t => if t.1 = prio then (prio, nxt) else t }
          match (wait.filter fun l => l.prio == prio && vfOf l.ctx == nxt) with
          | [] => s
          | l :: _ =>
            if (s.tryPlace p l).isSome then s
            else match s.evictionPlan (fun s => (s.tryPlace p l).isSome) (s.victims part prio (some cur)) [] with
              | some cs => cs.foldl (fun s c => s.pushNew [⟨.clusterEviction, { a := c.1, b := c.2 }⟩]) s
              | none => s) s
    s.push .clusterPlacement { a := part }

/-- QUANTUM_EXPIRY. DESIGN CHOICE (log 58). -/
def execQuantumExpiry (s : State) : Res := .next (s.quantum s.ev.a)

/-! ## Records of work graphs -/

/-- NODE_GROUP_START (R79, R81): a graph may have a group to start. It is placed in its launch's turn among all that wait for
placement (R72). It brings the launch and the node whose state changed. -/
def State.nodeStart (s : State) (id : Nat) : State :=
  match s.launch? id with
  | none => s
  | some l => match s.partOf l.ctx with
    | none => s
    | some p => if l.graph && s.wantsPlace p l then s.placement p.n else s

/-- NODE_GROUP_START. A page fault of a node's image that could not be resolved stops the context (R387). -/
def execNodeGroupStart (s : State) : Res :=
  match s.ev.f == 1, s.launch? s.ev.a with
  | true, some l =>
    .next (s.agentViolate l.ctx (some l.id) 16 0xFFFF (match l.nodes[s.ev.b]? with | some x => x.shapeAddr | none => 0) 10 s.ev.lv s.ev.ipa .engineRead)
  | _, _ => .next (s.nodeStart s.ev.a)

/-- NODE_BATCH_TIMEOUT (R81): one tick has passed since a node's last record. It brings the launch and the node. -/
def execNodeBatchTimeout (s : State) : Res := .next (s.nodeStart s.ev.a)

/-- A record has taken the next slot of a node's queue. -/
def State.noteRecord (s : State) (id n hb : Nat) (src : Option Nat) : State :=
  (s.updLaunch id fun l => l.updNode n fun x => { x.place src with lastArrival := hb }).push .nodeGroupStart { a := id, b := n }

/-- FINFO of ENQ_OVERFLOW (R398). -/
def enqInfo (n e reason : Nat) : DWord := BitVec.ofNat 64 (min n 0xFFFFFFFF * 2 ^ 32 + min e 255 * 256 + reason)

/-- Write records into the slots that they take. -/
def State.enqSlots (s : State) (core ctx : Nat) (x : Node) : List (List Byte) → MemRes Unit
  | [] => .ok s ()
  | r :: rs => match s.engWrite core ctx .glob (x.qaddr + x.tail * x.recBytes) r with
    | .ok s _ => s.enqSlots core ctx (x.place none) rs
    | e => e

/-- R80, R109. A source at a Galord-form address, for which the manual gives ENQ no outcome, is a violation of kind 0. DESIGN CHOICE
(log 26). -/
def execEnq (a b c : BitVec 7) (s : State) : Res :=
  s.issue {} (fun i => sOk i.wv a.toNat && sOk i.wv b.toNat && sOk i.wv c.toNat) true
    (sSrcs [(0, a.toNat), (1, b.toNat), (2, c.toNat)]) [] fun i =>
    let e := (i.wv.sreg a.toNat).val.toNat
    let src := (i.wv.sreg b.toNat).val
    let n := (i.wv.sreg c.toNat).val.toNat
    match s.accessWait i.c.g i.c.w true true with
    | some w => .next (s.block i w)
    | none =>
      if n = 0 then .next (s.retire i)
      else if src.toNat % 8 ≠ 0 then .next (s.trap i 0x08 src (i.fr.live.setWidth 64))
      else match i.grp.node.bind fun k => i.ln.nodes[k]? with
        | none => .next (s.trap i 0x09 0 (enqInfo n e 0))
        | some nd => match nd.edges[e]? with
          | none => .next (s.trap i 0x09 0 (enqInfo n e 1))
          | some (t, _) =>
            if 32 < n then .next (s.trap i 0x09 0 (enqInfo n e 2))
            else if i.grp.reserved.getD e 0 < n then .next (s.trap i 0x09 0 (enqInfo n e 3))
            else match i.ln.nodes[t]? with
              | none => .next (s.trap i 0x09 0 (enqInfo n e 1))
              | some x =>
                -- the source bytes are read as loads of the wave, 8 bytes at a time
                let words := (List.range (n * x.recBytes / 8)).map fun k => (0, src + BitVec.ofNat 64 (8 * k))
                match s.memFault i .load false 8 words with
                | some (.trap s c a f) => .next (s.trap i c a f)
                | some (.over_ s) => .next s
                | some (.wait s w) => .next (s.block i w)
                | some (.ok s) | some (.reject s) => .next s
                | none =>
                  if words.any fun w => isGalord w.2 then .next (s.violate i src 0 0 0 .load 0)
                  else match s.locateAll i .load 8 words [] with
                    | .bad s => .next s
                    | .ok s ts => match s.holdFault i .load ts with
                      | some (.wait s w) => .next (s.block i w)
                      | some _ => .next s
                      | none =>
                        let bytes := ts.map fun t => match t.2.2 with | .mem pa => s.loadBytes i.grp.core pa 8 | _ => none
                        if bytes.any Option.isNone then .next (s.violate i src 8 0 0 .load 0)
                        else
                          let all := bytes.flatMap fun b => b.getD []
                          let recs := (List.range n).map fun k => (all.drop (k * x.recBytes)).take x.recBytes
                          match s.enqSlots i.grp.core i.grp.ctx x recs with
                          | .viol s va k l ipa => .next (s.violate i (BitVec.ofInt 64 va) k l ipa .engineWrite 0)
                          | .fault _ va en =>
                            let r := s.fileFault i.grp.ctx (BitVec.ofInt 64 va) .engineWrite en none (some (i.c.g, i.c.w, i.c.f))
                            .next (r.1.block i (.fault r.2))
                          | .ok s _ =>
                            let hb := s.ticksOf i.grp.ctx
                            let s := s.updGroup i.c.g fun g => { g with reserved := g.reserved.set e (g.reserved.getD e 0 - n) }
                            let s := s.updLaunch i.ln.id fun l => l.updNode t fun y => { y with resv := y.resv - n }
                            let s := (List.range n).foldl (fun s _ => s.noteRecord i.ln.id t hb none) s
                            .next ((s.released i).retire i)

/-- FORWARD_RECORD_ARRIVAL (R350): a record of a channel takes a slot of the receiving node's queue, also while its context is
stopped. It is an input of a DET context (R431), which in a replay only the recording supplies. It brings the partition, the
channel and the record, and the number of a record that this module itself sent plus 1. One for a partition that is being destroyed
is refused (R369), and so is one that finds no free slot, which the permits rule out. DESIGN CHOICE (log 26). -/
def State.forwardArrive (s : State) (part ch : Nat) (bs : List Byte) (failed fromRec : Bool) (own : Nat) : State :=
  let refuse (s : State) (pkg : Nat) : State :=
    if own = 0 then s.emit (.remote pkg 1 []) else s.push .remoteErrorResponse { a := own - 1 }
  match s.chans.find? fun c => c.part == part && c.n == ch && c.receives with
  | none => s
  | some c => match s.launches.find? fun l => l.graph && !l.ended && l.compl == c.compl &&
      (match s.partOf l.ctx with | some p => p.n == part | none => false) with
    | none => s
    | some l => match l.nodes[c.node]? with
      | none => s
      | some x =>
        let slot : DWord := BitVec.ofNat 64 (x.qaddr + x.tail * x.recBytes)
        let closing := (s.part? part).any Part.closing
        -- over a route of the partition (R17, R326), or from the module itself
        if s.top.pkgid.isNone || !(s.isOwnPkg c.peer || s.routeOk part c.route c.peer) then s
        else if closing || x.taken x.tail then refuse s c.peer
        else if !fromRec && s.replayed l.id then s.discarded part 3 (BitVec.ofNat 64 ch)
        else if failed then s.agentViolate l.ctx (some l.id) 6 0 slot 10 s.ev.lv s.ev.ipa .engineWrite
        else
        match (s.engWrite (s.ctlCore l.ctx) l.ctx .glob (x.qaddr + x.tail * x.recBytes) (bs.take x.recBytes)).whole s with
        | .ok s _ =>
          let s := if fromRec then s else (s.detInput l.id 3 (BitVec.ofNat 64 ch) 0 bs).1
          let s : State := { s with chans := s.chans.map fun y => if y.part == part && y.n == ch then { y with occupied := y.occupied + 1 } else y }
          (s.acted l.ctx).noteRecord l.id c.node (s.ticksOf l.ctx) (some ch)
        | .viol s va k lv ipa => s.agentViolate l.ctx (some l.id) 6 0 (BitVec.ofInt 64 va) k lv ipa .engineWrite
        | .fault _ va e =>
          let pf : PageFault := ⟨s.seq, l.ctx, BitVec.ofInt 64 va, 5, e, none, none, none,
            [⟨.forwardRecordArrival, { a := part, b := ch, d := own, e := if fromRec then 1 else 0, bytes := bs }⟩], 0⟩
          ({ s.fresh with faults := s.faults ++ [pf] } : State).push .pageFaultResolution { a := s.seq }

/-- FORWARD_RECORD_ARRIVAL. -/
def execForwardRecordArrival (s : State) : Res := .next (s.forwardArrive s.ev.a s.ev.b s.ev.bytes (s.ev.f == 1) (s.ev.e == 1) s.ev.d)

/-- CHANNEL_ENABLE (R346, R347): an entry of the table is written; a receive entry is enabled only for a graph that runs with
its COMPL, whose node takes 64-byte records and has room for it. It brings the partition, the entry and its four qwords.
DEDUCED (log 56). -/
def State.chanEnable (s : State) (part n : Nat) (e : BitVec 256) : State :=
  match s.part? part with
  | none => s
  | some p =>
    let others := s.chans.filter fun c => !(c.part == part && c.n == n)
    let c : Chan := ⟨part, n, e, e.toNat / 2 ^ 64 % 2 ^ 32, 0⟩
    let write (s : State) : State :=
      match s.translate2 p (p.fwdcfg.toNat / 2 ^ 16 * 65536 + 32 * n) .hostWrite with
      | (s, .ok pa _) => s.homeWrite pa (leBytes 32 e.toNat)
      | (s, _) => s
    if p.fwdCount ≤ n then s
    else if !e.getLsbD 21 then
      -- a graph that only this entry kept may end now (R81, R347)
      (write { s with chans := others }).pushNew ((s.launches.filter fun l => l.graph && !l.ended && s.inPart part l.ctx).map fun l =>
        ⟨.graphEnd, { a := l.id }⟩)
    else if !c.receives then write { s with chans := others ++ [c] }
    else match s.launches.find? fun l => l.graph && !l.ended && l.compl == c.compl &&
        (match s.partOf l.ctx with | some x => x.n == part | none => false) with
      | none => s
      | some l => match l.nodes[c.node]? with
        | none => s
        | some x =>
          let into := (l.nodes.flatMap (·.edges)).filter fun e => e.1 == c.node
          let need := into.foldl (fun m e => max m e.2) 0 + 32
          let sum := (others.filter fun y => y.part == part && y.receives && y.compl == c.compl && y.node == c.node).foldl
            (fun m y => m + y.slots) c.slots
          if x.recBytes ≠ 64 ∨ x.qcap < sum + need then s else write { s with chans := others ++ [c] }

/-- CHANNEL_ENABLE. DEDUCED (log 56). -/
def execChannelEnable (s : State) : Res :=
  .next (s.chanEnable s.ev.a s.ev.b
    (BitVec.ofNat 64 s.ev.f ++ BitVec.ofNat 64 s.ev.e ++ BitVec.ofNat 64 s.ev.d ++ BitVec.ofNat 64 s.ev.c))

/-! ## Ends (R53, R81) -/

/-- The group's batch has ended, and its slots are free (R80). -/
def Node.endBatch (x : Node) (g : Nat) : Node := { x with batches := x.batches.filter fun b => b.1 != g }

/-- A receive channel's slot is free again. -/
def Chan.freeSlot (c : Chan) : Chan := { c with occupied := c.occupied - 1 }

/-- A command reads or writes its group's vat (R53): of the array, the feeder and the stream reader, and a copy or network command
with an extent or its barrier in the scratchpad. -/
def State.usesVat (s : State) (c : Cmd) : Bool :=
  [1, 2, 3].contains c.engine ||
  ((c.engine == 0 || c.engine == 7) && (c.bar.toNat / 2 ^ 32 == 2 ^ 30 ||
    s.ranges.any fun r => r.owner == c.id && (r.kind == 0 || r.kind == 1) && r.pad == some c.g))

/-- Something that the group's waves issued still uses its vat; a FEED whose record is not yet decided may (R53). -/
def State.vatBusy (s : State) (g : Nat) : Bool :=
  (s.cmds.any fun c => c.g == g && s.usesVat c) || s.fills.any fun f => f.g == g && f.kind == 2

/-- Registrations of a wave at global barriers: one for each watch, and one for each wait that uses none (R292, R293). -/
def Wave.registrations (v : Wave) : List Nat :=
  v.watches.map Watch.addr ++ v.frags.filterMap fun f => match f.wait with
    | some (.barrier none a _) => if f.viaWatch then none else some a
    | _ => none

/-- The homes drop, or take again, the registrations of a group's waves (R293, R423). -/
def State.watchGroup (s : State) (g : Nat) (more : Bool) : State :=
  ((s.waves.filter fun v => v.g == g).flatMap Wave.registrations).foldl (fun s a => s.barWatch (Bar.ofAddr a) more) s

/-- A node group's unused reservations are released and the slots that it consumed are freed (R80); permits go back (R350). -/
def State.endBatch (s : State) (gr : Group) (n : Nat) : State :=
  let part := match s.partOf gr.ctx with | some p => p.n | none => 0
  let s := s.updLaunch gr.launch fun l =>
    let edges := match l.nodes[n]? with | some x => x.edges | none => []
    let l := (List.range edges.length).foldl (fun (l : Launch) k =>
      l.updNode (edges.getD k (0, 0)).1 fun y => { y with resv := y.resv - gr.reserved.getD k 0 }) l
    l.updNode n fun y => y.endBatch gr.g
  gr.consumed.foldl (fun (s : State) c => match c with
    | none => s
    | some ch =>
      let s : State := { s with chans := s.chans.map fun (y : Chan) => if y.part == part && y.n == ch && y.receives then y.freeSlot else y }
      match s.chans.find? fun (y : Chan) => y.part == part && y.n == ch && y.receives with
      | none => s
      | some y =>
        if s.isOwnPkg y.peer then
          match s.chans.find? fun (x : Chan) => x.n == y.peerch && !x.receives && x.peer == y.peer with
          | some x => s.push .permitReturn { a := x.part, b := x.n }
          | none => s
        else s.emit (.permit part ch)) s

/-- The group's end itself: its waves are gone, what they completed counts for the watchdog (R88), its node's queue is told, and
the last group of a grid ends it. -/
def State.endGroup (s : State) (gr : Group) : State :=
  let s := s.watchGroup gr.g false
  let units := (s.waves.filter fun v => v.g == gr.g).foldl (fun n v => n + v.units) 0
  let s := s.updCtx gr.ctx fun c => { c with acts := c.acts + units }
  let s : State := { s with waves := s.waves.filter fun v => v.g != gr.g }
  let s := s.updGroup gr.g fun x => { x with ended := true, reserved := [], consumed := [] }
  let s := match gr.node with | none => s | some n => s.endBatch gr n
  let s := s.updLaunch gr.launch fun l => { l with groupsEnded := l.groupsEnded + 1 }
  match s.launch? gr.launch with
  | none => s
  | some l =>
    if l.graph then (s.push .nodeGroupStart { a := l.id, b := 0 }).push .graphEnd { a := l.id }
    else if l.groupsEnded = count3 l.gdim * count3 l.cdim then s.push .gridCompletionArrival { a := l.id } else s

/-- GROUP_END (R53): every wave has exited, and the group has ended. It keeps its wave slots and granules until what uses its vat
has completed. It brings the group. DEDUCED (log 40). -/
def State.groupEnd (s : State) (g : Nat) : State :=
  match s.group? g with
  | none => s
  | some gr =>
    if gr.freed || (s.waves.any fun v => v.g == g && !v.frags.isEmpty) then s
    else
      let s := if gr.ended then s else s.endGroup gr
      if s.vatBusy g then s.push .groupEnd { a := g }
      else
        let s := (s.updGroup g fun x => { x with freed := true, resident := false, pad := [], queues := [] }).leaveVats [gr.core]
        s.push .clusterPlacement { a := match s.partOf gr.ctx with | some p => p.n | none => 0 }

/-- GROUP_END. -/
def execGroupEnd (s : State) : Res := .next (s.groupEnd s.ev.a)

/-- R81, R347: every queue is empty, no group runs, and no enabled receive entry names the graph. -/
def State.graphOver (s : State) (l : Launch) : Bool :=
  l.graph && l.eligible && l.nodes.all (fun x => x.srcs.isEmpty) && !(s.groups.any fun g => g.launch == l.id && !g.ended) &&
  !(s.chans.any fun c => c.receives && c.compl == l.compl && (match s.partOf l.ctx with | some p => p.n == c.part | none => false))

/-- GRAPH_END (R81). It brings the launch. -/
def execGraphEnd (s : State) : Res :=
  match s.launch? s.ev.a with
  | some l => .next (if !l.ended && s.graphOver l then s.push .gridCompletionArrival { a := l.id } else s)
  | none => .next s

/-- Stores and atomics of the launch still on their way, and its engine commands (R53). -/
def State.launchBusy (s : State) (id : Nat) : Bool :=
  let mine (g : Nat) : Bool := match s.group? g with | some gr => gr.launch == id | none => false
  (s.regq.any fun r => mine r.g) || (s.reqs.any fun r => mine r.g && r.kind.isAtomic && !r.performed) ||
  (s.fills.any fun f => f.kind == 2 && mine f.g) ||
  s.cmds.any fun c => c.launch == id && c.engine != 5

/-- The end of a launch: its groups and the copy of its argument block are gone; a context with no launch left is idle. The
record of a group whose LAUNCH is not decided yet stays until it is (R69). -/
def State.dropLaunch (s : State) (l : Launch) : State :=
  let s := s.leaveVats ((s.groups.filter fun g => g.launch == l.id && g.resident && !g.freed).map Group.core)
  let s : State := { s with
    groups := (s.groups.filter fun g => g.launch != l.id || s.fills.any fun f => f.kind == 0 && f.g == g.g).map fun g =>
      if g.launch == l.id then { g with ended := true, freed := true, resident := false } else g
    mem := memDrop s.mem (argPa l.id) (argPa l.id + 8192) }
  let s := s.updLaunch l.id fun l => { l with ended := true, args := 0, evicted := [] }
  -- cores are free again (R72)
  let s := s.pushNew [⟨.clusterPlacement, { a := match s.partOf l.ctx with | some p => p.n | none => 0 }⟩]
  if (s.liveLaunches l.ctx).isEmpty then
    -- a root written meanwhile takes effect (R373)
    s.updCtx l.ctx fun c => if c.phase = .running then { c with phase := .idle, root := c.rootNext.getD c.root, rootNext := none } else c
  else s

/-- GRID_COMPLETION_ARRIVAL (R53, R81): the single arrival at COMPL, once nothing of the grid is on its way. A page fault of
COMPL is resolved first. It brings the launch. -/
def State.gridArrive (s : State) (id : Nat) (failed : Bool) : State :=
  match s.launch? id with
  | none => s
  | some l =>
    let over_ := if l.graph then s.graphOver l else decide (l.groupsEnded = count3 l.gdim * count3 l.cdim)
    let compl : DWord := BitVec.ofNat 64 l.compl
    if l.ended || !over_ then s
    else if s.launchBusy id then s.push .gridCompletionArrival { a := id }
    else if l.compl = 0 then s.dropLaunch l
    else match s.translate (s.ctlCore l.ctx) l.ctx l.compl .atomic with
      | (s, .ok pa _) => (s.dropLaunch l).agentArrive l.ctx none 16 0xFFFF compl (.glob pa) 1 false
      | (s, .viol k lv ipa) => (s.dropLaunch l).agentViolate l.ctx none 16 0xFFFF compl k lv ipa .engineWrite
      | (s, .resolvable e) =>
        if failed then (s.dropLaunch l).agentViolate l.ctx none 16 0xFFFF compl 10 s.ev.lv s.ev.ipa .engineWrite
        else
          let pf : PageFault := ⟨s.seq, l.ctx, compl, Acc.engineWrite.code, e, none, none, none, [⟨.gridCompletionArrival, { a := id }⟩], 0⟩
          ({ s.fresh with faults := s.faults ++ [pf] } : State).push .pageFaultResolution { a := s.seq }

/-- GRID_COMPLETION_ARRIVAL. -/
def execGridCompletionArrival (s : State) : Res := .next (s.gridArrive s.ev.a (s.ev.f == 1))

/-! ## Range units (R82, R110, R111) -/

/-- A unit as it stands; exhausted until a RANGESET (R110), and a grab of it then returns `first` 0. DESIGN CHOICE (log 74). -/
def Ctx.unit (c : Ctx) (wedge u : Nat) : RangeUnit :=
  match c.units.find? fun x => x.wedge == wedge && x.unit == u with | some x => x | none => ⟨wedge, u, 0, 0, 1, 1⟩

def Ctx.setUnit (c : Ctx) (x : RangeUnit) : Ctx :=
  { c with units := (c.units.filter fun y => !(y.wedge == x.wedge && y.unit == x.unit)) ++ [x] }

/-- R82: the next chunk. -/
def RangeUnit.grab (u : RangeUnit) : RangeUnit × Int × Int :=
  let left := u.last - u.next
  if left ≤ 0 then (u, u.next, 0)
  else
    let size := min left (max (u.chunk : Int) ((left + u.parts - 1) / u.parts))
    ({ u with next := u.next + size }, u.next, size)

/-- R110. The unit has its new range when the word issues, before it serves any grab not yet served. DESIGN CHOICE (log 74). -/
def execRangeset (a b c : BitVec 7) (s : State) : Res :=
  s.issue {} (fun i => sOk i.wv a.toNat && sOk i.wv b.toNat && sOk i.wv c.toNat) true
    (sSrcs [(0, a.toNat), (1, b.toNat), (2, c.toNat)]) [] fun i =>
    let x := (i.wv.sreg a.toNat).val.toNat
    let u : RangeUnit := ⟨wedgeOf i.grp.core, x % 16, (i.wv.sreg b.toNat).val.toInt, (i.wv.sreg c.toNat).val.toInt,
      max 1 (x / 2 ^ 16 % 2 ^ 16), max 1 (x / 2 ^ 32)⟩
    .next ((s.updCtx i.grp.ctx fun k => k.setUnit u).retire i)

/-- R111: both destinations are empty until the grab is served. -/
def execGrab (a b c : BitVec 7) (s : State) : Res :=
  s.issue {} (fun i => sOk i.wv a.toNat && sOk i.wv b.toNat && sOk i.wv c.toNat) true (sSrcs [(2, c.toNat)])
    [(true, a.toNat), (true, b.toNat)] fun i =>
    let f : Fill := ⟨s.seq, i.c.g, i.c.w, a.toNat, some b.toNat, 3, BitVec.ofNat 64 ((i.wv.sreg c.toNat).val.toNat % 16),
      BitVec.ofNat 64 (wedgeOf i.grp.core), []⟩
    let s := ({ s.fresh with fills := s.fills ++ [f] } : State).push .grabServed { a := s.seq }
    .next ((s.updCur i fun w => (w.emptyS a.toNat).emptyS b.toNat).retire i)

/-- GRAB_SERVED (R82, R111): the unit's chunk; first and size fill together, size last. It brings the fill. -/
def State.grabFill (s : State) (id : Nat) : State :=
  match s.fills.find? fun f => f.id == id && f.kind == 3 with
  | none => s
  | some f =>
    -- grabs on one unit are served in their order of arrival
    let ahead := s.fills.any fun x => x.kind == 3 && x.x == f.x && x.y == f.y && decide (x.id < id) &&
      (match s.group? x.g, s.group? f.g with | some a, some b => a.ctx == b.ctx | _, _ => false)
    if ahead then s.push .grabServed { a := id }
    else
      let s := { s with fills := s.fills.filter fun x => x.id != id }
      match (s.group? f.g).bind fun gr => s.ctx? gr.ctx with
      | none => s
      | some c =>
        let r := (c.unit f.y.toNat f.x.toNat).grab
        let s := s.updCtx c.id fun k => k.setUnit r.1
        (s.updWave f.g f.w fun w =>
          (w.setS f.s (BitVec.ofInt 64 r.2.1) tI64).setS (f.s2.getD 0) (BitVec.ofInt 64 r.2.2) tI64).resave f.g f.w

/-- GRAB_SERVED. -/
def execGrabServed (s : State) : Res := .next (s.grabFill s.ev.a)

end Sys2Proof.Machine
end

