-- ==== Sys2Proof/Machine/Recovery.lean ====
section
/-! DEFINITION. Stops, resume and withdrawal of contexts (R404 to R415), eviction and restore of clusters (R416 to R424), and
memory faults (R425 to R427). -/

namespace Sys2Proof.Machine

open Host

/-! ## Eviction (R422) -/

/-- Clusters of a context that hold a core: launch and cluster. -/
def State.residentClusters (s : State) (ctx : Nat) : List (Nat × Nat) :=
  ((s.groups.filter fun g => g.ctx == ctx && g.resident && !g.freed).map fun g => (g.launch, g.cluster)).eraseDups

/-- Window accesses and stores of a cluster's waves that are still on their way (R422, steps 2 and 4). -/
def State.clusterBusy (s : State) (gs : List Group) : Bool :=
  let mine (g : Nat) : Bool := gs.any fun x => x.g == g
  (s.reqs.any fun r => mine r.g && match r.kind with | .peer .. => true | _ => false) || s.regq.any fun r => mine r.g

/-- R416: the lowest save slot of a launch that no group uses. -/
def State.freeSlot (s : State) (launch : Nat) : Nat :=
  let used := (s.groups.filter fun g => g.launch == launch && !g.freed).filterMap Group.slot
  ((List.range 32768).find? fun n => !used.contains n).getD 0

/-- The slot map byte that holds a slot's bit, as the launch's groups use the slots, those given up left out. -/
def State.mapChunk (s : State) (launch slot : Nat) (gone : List Nat) : Chunk :=
  let used := ((s.groups.filter fun g => g.launch == launch && !g.freed).filterMap Group.slot).filter fun n => !gone.contains n
  (4096 + slot / 8, [slotMapByte used (slot / 8)])

/-- Save one group: its slot, its image and the slot map. DESIGN CHOICE (log 44). -/
def State.saveGroup (s : State) (core : Nat) (l : Launch) (g : Nat) : MemRes Unit :=
  match s.group? g with
  | none => .ok s ()
  | some gr =>
    let slot := s.freeSlot l.id
    let s := s.updGroup g fun x => { x with slot := some slot }
    let gr := { gr with slot := some slot }
    (s.writeChunks core gr.ctx (l.slotAt slot) (s.slotChunks gr)).andThen fun s _ =>
      s.writeChunks core gr.ctx l.area [s.mapChunk l.id slot []]

def State.saveGroups (s : State) (core : Nat) (l : Launch) : List Group → MemRes Unit
  | [] => .ok s ()
  | g :: gs => (s.saveGroup core l g.g).andThen fun s _ => s.saveGroups core l gs

/-- How an eviction ends. -/
inductive Evict where
  | done (s : State)
  /-- a write to the save area fails: the cluster stays, frozen (R424) -/
  | failed (s : State)
  /-- a page fault of the save area, in the service group's hands -/
  | held (s : State)

/-- Cores are free again, and the partition's scheduler tries what waits (R72). -/
def State.roomFree (s : State) (ctx : Nat) : State :=
  s.pushNew [⟨.clusterPlacement, { a := match s.partOf ctx with | some p => p.n | none => 0 }⟩]

/-- A page of a save area is to be resolved first; `retry` comes then (R386). -/
def State.areaHeld (s : State) (ctx : Nat) (va : Int) (acc : Acc) (e : EntryAt) (retry : Event) : State :=
  let pf : PageFault := ⟨s.seq, ctx, BitVec.ofInt 64 va, acc.code, e, none, none, none, [retry], 0⟩
  ({ s.fresh with faults := s.faults ++ [pf] } : State).push .pageFaultResolution { a := s.seq }

/-- R422, steps 3 to 6, once nothing is on its way: commands stop, dirty sets are surrendered, the images are written, and the
cores are freed. The cluster stands at the head of its launch's evicted ones (R76). -/
def State.evict (s : State) (l : Launch) (cluster : Nat) (retry : Event) : Evict :=
  let gs := (s.clusterGroups l.id cluster).filter Group.resident
  let mine (g : Nat) : Bool := gs.any fun x => x.g == g
  let s : State := { s with cmds := s.cmds.map fun c => if mine c.g && c.saved c.g then { c with halted := true } else c }
  let s := ((gs.map Group.core).eraseDups).foldl (fun s c => s.writeBack c l.ctx fun _ => true) s
  match s.saveGroups (s.ctlCore l.ctx) l gs with
  | .ok s _ =>
    let s : State := { s with
      groups := s.groups.map fun g => if mine g.g then { g with resident := false, outAt := s.seq } else g
      missq := s.missq.filter fun q => !mine q.2.1 }
    -- the homes watch no barrier for a wave that is out (R293)
    let s := gs.foldl (fun s g => s.watchGroup g.g false) s
    .done ((s.fresh.leaveVats (gs.map Group.core)).updLaunch l.id fun x => { x with evicted := cluster :: x.evicted })
  | .viol _ va k lv ipa => .failed (s.agentViolate l.ctx (some l.id) 16 0xFFFF (BitVec.ofInt 64 va) k lv ipa .engineWrite)
  | .fault _ va e => .held (s.areaHeld l.ctx va .engineWrite e retry)

/-- A save whose page fault could not be resolved (R387, kind 10): the event brings what failed. -/
def State.evictUnresolved (s : State) (l : Launch) : State :=
  s.agentViolate l.ctx (some l.id) 16 0xFFFF (BitVec.ofNat 64 s.ev.va) 10 s.ev.lv s.ev.ipa .engineWrite

/-- CLUSTER_EVICTION (R422). A cluster whose last wave has exited is not saved (R424), nor one whose context stops. It brings the
launch and the cluster. -/
def State.evictCluster (s : State) (launch cluster : Nat) (again : Bool) : State :=
  match s.launch? launch with
  | none => s
  | some l =>
    let gs := (s.clusterGroups launch cluster).filter Group.resident
    let runs := match s.ctx? l.ctx with | some c => c.phase == .running | none => false
    if gs.isEmpty || gs.all Group.ended || !runs then s
    else if again then s.evictUnresolved l
    else
      let e : Event := ⟨.clusterEviction, { a := launch, b := cluster }⟩
      if s.clusterBusy gs then s.pushAll [e]
      else match s.evict l cluster e with
        | .done s => s.roomFree l.ctx
        | .failed s => s
        | .held s => s

/-- CLUSTER_EVICTION. -/
def execClusterEviction (s : State) : Res := .next (s.evictCluster s.ev.a s.ev.b (s.ev.f == 1))

/-! ## Restarting what was stopped -/

/-- The events that carry the commands of a context on. -/
def State.kickCmds (s : State) (ctx : Nat) : State :=
  s.pushNew ((s.cmds.filter fun c => c.ctx == ctx && !c.halted).map Cmd.kick).eraseDups

/-- The watches of a group's waves are registered again, and their barrier waits look at the barriers' phases (R293, R423). -/
def State.recheckWaits (s : State) (g : Nat) : State :=
  let s := s.watchGroup g true
  (s.waves.filter fun v => v.g == g).foldl (fun s v => v.frags.foldl (fun s f => match f.wait with
    | some (.barrier pad a _) =>
      let b : Bar := match pad with | some q => .pad q a | none => Bar.ofAddr a
      (match s.barRead b with
      | some w => if f.awaitsAt pad a w.phase then s.tellIds pad a w.phase [v.g, v.w, f.id] else s
      | none => s)
    | _ => s) s) s

/-- R423 for one cluster: the groups take cores, every core invalidates, watches and waits go on, section grants that landed take
their acquire, commands go on, started ones first; none when the cluster does not fit. DESIGN CHOICE (log 44). -/
def State.restoreOne (s : State) (p : Part) (l : Launch) (cluster : Nat) : Option State :=
  match s.restoreCores p l cluster with
  | none => none
  | some cores =>
    let gs := s.clusterGroups l.id cluster
    let coreOf (g : Nat) : Option Nat := (((gs.map Group.g).zip cores).find? fun x => x.1 == g).map (·.2)
    let mine (g : Nat) : Bool := gs.any fun x => x.g == g
    let s : State := { s with
      groups := s.groups.map fun g => if mine g.g then
        { g with core := (coreOf g.g).getD g.core, resident := true, slot := none } else g }
    let s := s.updLaunch l.id fun x => { x with evicted := x.evicted.filter fun y => y != cluster }
    let s := cores.foldl (fun s c => s.invalidate c) s
    let s := gs.foldl (fun s g => s.recheckWaits g.g) s
    let s := gs.foldl (fun s g => s.lateGrants g.g) s
    let back (c : Cmd) : Cmd := { c with halted := false, unit := (coreOf c.g).getD c.unit }
    let cs := (s.cmds.filter fun c => mine c.g && c.saved c.g).map back
    let s : State := { s with
      cmds := (s.cmds.filter fun c => !(mine c.g && c.saved c.g)) ++ (cs.filter Cmd.started) ++ cs.filter fun c => !c.started }
    some (s.kickCmds l.ctx)

def State.restoreAll (s : State) (p : Part) (l : Launch) : List Nat → Option State
  | [] => some s
  | c :: cs => match s.restoreOne p l c with
    | some s => s.restoreAll p l cs
    | none => none

/-- R416: a restore frees its clusters' slots, in the map in memory too. -/
def State.freeMap (s : State) (core : Nat) (l : Launch) (gone : List Nat) : List Nat → MemRes Unit
  | [] => .ok s ()
  | n :: ns => (s.writeChunks core l.ctx l.area [s.mapChunk l.id n gone]).andThen fun s _ => s.freeMap core l gone ns

/-- A save slot that cannot be read, or a slot map that cannot be written, stops the context (R387, R424). -/
def State.restoreFails (s : State) (l : Launch) (va : DWord) (k lv ipa : Nat) (acc : Acc) : State :=
  s.agentViolate l.ctx (some l.id) 16 0xFFFF va k lv ipa acc

/-- CLUSTER_RESTORE (R423): the groups' state is read back from their slots, then the clusters return; those of a co-resident
launch together (R75). A page of the save area that is to be resolved first holds the restore. It brings the launch and the
cluster, and 1 for one that the slot map's page held. -/
def State.restoreCluster (s : State) (launch cluster : Nat) (failed : Bool) : State :=
  match s.launch? launch with
  | none => s
  | some l =>
    match s.partOf l.ctx, s.ctx? l.ctx with
    | some p, some c =>
      let cs := if l.coresident then s.backTogether l else [cluster]
      let core := s.ctlCore l.ctx
      let gs := cs.flatMap fun k => s.clusterGroups l.id k
      let slots := gs.filterMap Group.slot
      if c.phase ≠ .running || !l.evicted.contains cluster || (s.restoreAll p l cs).isNone then s
      else if failed then
        s.restoreFails l (BitVec.ofNat 64 s.ev.va) 10 s.ev.lv s.ev.ipa (if s.ev.c = 1 then .engineWrite else .engineRead)
      else match s.reloadGroups core l gs with
        | .viol s va k lv ipa => s.restoreFails l (BitVec.ofInt 64 va) k lv ipa .engineRead
        | .fault s va e => s.areaHeld l.ctx va .engineRead e ⟨.clusterRestore, { a := launch, b := cluster }⟩
        | .ok s _ => match s.freeMap core l slots slots with
          | .viol s va k lv ipa => s.restoreFails l (BitVec.ofInt 64 va) k lv ipa .engineWrite
          | .fault s va e => s.areaHeld l.ctx va .engineWrite e ⟨.clusterRestore, { a := launch, b := cluster, c := 1 }⟩
          | .ok s _ => (s.restoreAll p l cs).getD s
    | _, _ => s

/-- CLUSTER_RESTORE. -/
def execClusterRestore (s : State) : Res := .next (s.restoreCluster s.ev.a s.ev.b (s.ev.f == 1))

/-! ## Stops (R404 to R407) -/

/-- HALT (R405): an agent raises a stop-class cause. It brings the context, the cause, the engine, the unit, the address and the
detail, and in its list the launch for which the agent acts, if it acts for one (R410). DEDUCED (log 46). -/
def execHalt (s : State) : Res :=
  if 0x20 ≤ s.ev.b ∧ s.ev.b ≤ 0x28 then
    .next (s.raiseStop s.ev.a s.ev.ids.head?
      { cause := s.ev.b, engine := s.ev.c, unit := s.ev.d, addr := BitVec.ofNat 64 s.ev.e, detail := BitVec.ofNat 64 s.ev.f })
  else .next s

/-- R406: every agent has stopped and no store of the context is on its way. DEDUCED (log 46). -/
def State.agentsStopped (s : State) (ctx : Nat) : Bool :=
  !(s.agenda.any fun e => e.what == .agentStop && e.args.a == ctx) &&
  !(s.clusterBusy (s.groups.filter fun g => g.ctx == ctx))

/-- Pairs written one after the other in a list of numbers. -/
def hasPair (c : Nat × Nat) : List Nat → Bool
  | a :: b :: l => (a == c.1 && b == c.2) || hasPair c l
  | _ => false

/-- Save the context's clusters one by one; one whose save fails stays on its cores and is passed over (R424). `bad` lists those
that have failed so far, launch and cluster. -/
def State.saveAll (s : State) (ctx : Nat) (bad : List Nat) : List (Nat × Nat) → Evict
  | [] => .done s
  | c :: cs => match hasPair c bad, s.launch? c.1 with
    | false, some l => match s.evict l c.2 ⟨.stopSaveComplete, { a := ctx, ids := bad ++ [c.1, c.2] }⟩ with
      | .done s => (s.roomFree ctx).saveAll ctx bad cs
      | .failed s => s.saveAll ctx (bad ++ [c.1, c.2]) cs
      | .held s => .held s
    | _, _ => s.saveAll ctx bad cs

/-- Everything that a context holds beside its launches is freed. -/
def State.freeHeld (s : State) (ctx : Nat) : State :=
  let gone (g : Nat) : Bool := s.groups.any fun x => x.g == g && x.ctx == ctx
  -- each watch ends, and each wait of BWAIT that had none (R292, R293)
  let s := (s.groups.filter fun x => x.ctx == ctx && x.resident).foldl (fun s x => s.watchGroup x.g false) s
  -- the last releaser of each key is surrendered before its entry goes (R305)
  let s := (s.secs.filter fun e => e.ctx == ctx).foldl (fun s e => s.surrenderKey e) s
  let objs := ((s.ranges.filter fun r => r.ctx == ctx && (r.kind == 2 || r.kind == 3)).map RangeEntry.owner).eraseDups
  let s := objs.foldl (fun s k => s.freeObject ctx k) s
  let ray (id : Nat) : Bool := s.rays.any fun r => r.id == id && r.ctx == ctx
  let held (r : Req) : Bool := s.faults.any fun f => match f.req with | some x => x.1 == r.id | none => false
  { s with
    waves := s.waves.filter fun v => !gone v.g
    reqs := s.reqs.filter fun r => !(r.ctx == ctx && held r)
    faults := s.faults.filter fun f => f.ctx != ctx
    ranges := s.ranges.filter fun r => r.ctx != ctx
    tokens := s.tokens.filter fun t => t.ctx != ctx
    fills := s.fills.filter fun f => !gone f.g
    colls := s.colls.filter fun c => !(s.cmds.any fun k => k.id == c.id && k.ctx == ctx)
    cmds := s.cmds.filter fun c => c.ctx != ctx
    svc := s.svc.filter fun r => r.ctx != ctx
    secs := s.secs.filter fun e => e.ctx != ctx
    calls := s.calls.filter fun c => c.ctx != ctx
    streams := s.streams.filter fun x => !gone x.g
    gangs := s.gangs.filter fun x => !(x.members.any gone)
    visits := s.visits.filter fun v => !ray v.ray
    rays := s.rays.filter fun r => r.ctx != ctx
    samples := s.samples.filter fun m => !gone m.g
    missq := s.missq.filter fun q => !gone q.2.1
    l0 := s.l0.filter fun e => e.ctx != some ctx
    tlb := s.tlb.filter fun e => e.ctx != some ctx }

/-- R415: what the context holds is freed, its launches go without an arrival, and CTXSTATE becomes 3. DEDUCED (log 47). -/
def State.withdrawNow (s : State) (ctx : Nat) : State :=
  let s := s.freeHeld ctx
  let s := (s.liveLaunches ctx).foldl (fun s l => s.dropLaunch l) s
  let s := (s.updCtx ctx fun c => { c with
    phase := .withdrawn, leaving := false, shapes := [], units := [], root := c.rootNext.getD c.root, rootNext := none }).wakeEngine
  s.roomFree ctx

/-- The stop is complete: CTXSTATE 2 and MSI-X vector 0 (R406); a root written meanwhile takes effect (R373), and a context that is
being withdrawn goes (R415). DEDUCED (log 46). -/
def State.stopDone (s : State) (ctx : Nat) : State :=
  let leaving := (s.ctx? ctx).any Ctx.leaving
  let s := (s.updCtx ctx fun c => { c with phase := .stopped, root := c.rootNext.getD c.root, rootNext := none }).emit (.msix (vfOf ctx) 0)
  if leaving then s.withdrawNow ctx else s

/-- STOP_SAVE_COMPLETE (R406), at its turn: the clusters that are still on cores are saved. `bad` lists those whose save has
failed. -/
def State.saveFrom (s : State) (ctx : Nat) (bad : List Nat) : State :=
  match s.saveAll ctx bad (s.residentClusters ctx) with
  | .done s => s.stopDone ctx
  | .failed s => s.stopDone ctx
  | .held s => s

/-- STOP_SAVE_COMPLETE (R406). It brings the context, and as launch and cluster in turn the clusters whose save has failed; the last
is the one that a page of its save area held. A page that could not be resolved leaves that cluster frozen, with its own cause
record (R424). DEDUCED (log 46). -/
def State.stopSave (s : State) (ctx : Nat) (again : Bool) : State :=
  match s.ctx? ctx with
  | none => s
  | some c =>
    if c.phase ≠ .stopping then s
    else if !s.agentsStopped ctx then s.pushAll [⟨.stopSaveComplete, { a := ctx, ids := s.ev.ids }⟩]
    else if again then
      let s := match s.ev.ids[s.ev.ids.length - 2]?.bind s.launch? with
        | some l => s.evictUnresolved l
        | none => s
      s.saveFrom ctx s.ev.ids
    else s.saveFrom ctx (s.ev.ids.take (s.ev.ids.length - 2))

/-- STOP_SAVE_COMPLETE. -/
def execStopSaveComplete (s : State) : Res := .next (s.stopSave s.ev.a (s.ev.f == 1))

/-! ## Resume (R414) -/

/-- Records of a launch's area whose token matches nothing that was stopped: their slots (R411). DESIGN CHOICE (log 45). -/
def State.badTokens (s : State) (l : Launch) : List Nat :=
  let count := s.stopRead l.ctx l.area 8 / 2 ^ 16 % 2 ^ 16
  ((List.range (min 63 count)).map (· + 1)).filter fun k =>
    let r := s.stopRead l.ctx (l.area + BitVec.ofNat 64 (64 * k)) 64
    let engine := r / 2 ^ 8 % 256
    let tok := r / 2 ^ 384 % 2 ^ 64
    ebit r 49 && !(s.cmds.any fun c => c.ctx == l.ctx && c.halted && c.engine == engine && (Config.token (s.tokenOf c)).toNat == tok) &&
      !(engine == 9 && tok == (Config.token (rayToken (r / 2 ^ 16 % 2 ^ 16))).toNat) && !(engine == 13 && tok == (Config.token recToken).toNat)

/-- Step 1: the software fields of a launch's header are read again, its counts start anew. DEDUCED (log 47). -/
def State.rereadHeader (s : State) (l : Launch) : State :=
  let q (k : Nat) : Nat := s.stopRead l.ctx (l.area + BitVec.ofNat 64 (8 * k)) 8
  let base : DWord := BitVec.ofNat 64 (q 3 / 2 ^ 12 * 2 ^ 12)
  let stops := q 6 % 2 ^ 32
  let s := s.updLaunch l.id fun x => { x with
    recBase := base, recBytes := q 4, replay := ebit (q 3) 0
    recUsed := if base = x.recBase then x.recUsed else 0 }
  let s := State.detFlush l.id l.recHeld s
  (s.stopWrite l.ctx l.area (leBytes 8 0)).stopWrite l.ctx (l.area + 0x30) (leBytes 4 ((stops + 1) % 2 ^ 32))

/-- Requests, rays, service records and launches of a context go on. -/
def State.rekick (s : State) (ctx : Nat) : State :=
  let lands (r : Req) : List Event :=
    ((lanesOf r.lanes).filter fun l => !r.surr.getLsbD l && !(s.faults.any fun f => f.req == some (r.id, l))).map fun l =>
      ⟨if r.kind.isAtomic then .atomicAtHome else .loadResultLands, { a := r.id, b := l }⟩
  let s := s.pushNew ((s.reqs.filter fun r => r.ctx == ctx).flatMap lands)
  -- queued visits, and rays with treelets left in the visit in progress (R224)
  let wedges := s.visits.map Visit.wedge ++ (s.rays.filter fun r => r.ctx == ctx && !r.todo.isEmpty).map Ray.wedge
  let s := s.pushNew (wedges.eraseDups.map fun w => ⟨.treeletVisit, { a := w }⟩)
  let s := s.pushNew (((s.svc.filter fun r => r.ctx == ctx && !r.taken).map SvcRec.wheel).eraseDups.map fun w => ⟨.serviceBatch, { a := w }⟩)
  let ls := s.liveLaunches ctx
  let s := s.pushNew (ls.map fun l => ⟨.launchEligible, { a := l.id }⟩)
  let s := s.pushNew ((ls.filter Launch.graph).flatMap fun l =>
    [⟨.nodeGroupStart, { a := l.id, b := 0 }⟩, ⟨.graphEnd, { a := l.id }⟩])
  s.roomFree ctx

/-- R414. DEDUCED (log 47). -/
def State.resume (s : State) (ctx : Nat) : State :=
  let ls := s.areaLaunches ctx
  let bad := ls.flatMap fun l => (s.badTokens l).map fun k => (l.id, k)
  let s := s.updCtx ctx fun c => { c with phase := .running, wdogTicks := 0 }
  let s := ls.foldl (fun s l => s.rereadHeader l) s
  if !bad.isEmpty then
    bad.foldl (fun s b => s.raiseStop ctx (some b.1)
      { cause := 0x24, engine := 16, unit := 0xFFFF, addr := BitVec.ofNat 64 b.2, detail := 0 }) s
  else
    -- commands of clusters that are out wait for their restore
    let out (c : Cmd) : Bool := c.saved c.g && (match s.group? c.g with | some g => !g.resident && !g.freed | none => false)
    let s : State := { s with cmds := s.cmds.map fun c => if c.ctx == ctx && !out c then { c with halted := false } else c }
    (s.kickCmds ctx).rekick ctx

/-- A context of the partition that CTXCTL names (R413). -/
def State.ctxOfPart (s : State) (part ctx : Nat) : Option Ctx :=
  match s.partOf ctx with
  | some p => if p.n = part then s.ctx? ctx else none
  | none => none

/-- CTXCTL_RESUME (R413, R414). It brings the partition and the context. -/
def State.ctxResume (s : State) (part ctx : Nat) : State :=
  match s.ctxOfPart part ctx with
  | some c => if c.phase = .stopped && !c.lost then s.resume c.id else s
  | none => s

/-- CTXCTL_RESUME. -/
def execCtxctlResume (s : State) : Res := .next (s.ctxResume s.ev.a s.ev.b)

/-- CTXCTL_STOP (R413): HOST_STOP with DETAIL 1. It brings the partition and the context. DEDUCED (log 47). -/
def State.ctxStop (s : State) (part ctx : Nat) : State :=
  match s.ctxOfPart part ctx with
  | some c =>
    if c.phase = .running then s.raiseStop c.id none { cause := 0x28, engine := 16, unit := 0xFFFF, addr := 0, detail := 1 } else s
  | none => s

/-- CTXCTL_STOP. -/
def execCtxctlStop (s : State) : Res := .next (s.ctxStop s.ev.a s.ev.b)

/-! ## Withdrawal (R415) -/

/-- R415: a running context first stops with HOST_STOP, and goes when that stop is complete; so does one that is stopping already.
`detail` is 2 for a withdrawal, 3 for the destruction of its partition. DEDUCED (log 47). -/
def State.withdraw (s : State) (ctx detail : Nat) : State :=
  match s.ctx? ctx with
  | none => s
  | some c => match c.phase with
    | .withdrawn => s
    | .running =>
      (s.raiseStop ctx none { cause := 0x28, engine := 16, unit := 0xFFFF, addr := 0, detail := BitVec.ofNat 64 detail }).updCtx ctx
        fun c => { c with leaving := true }
    | .stopping => s.updCtx ctx fun c => { c with leaving := true }
    | .idle | .stopped => s.withdrawNow ctx

/-- CTXCTL_WITHDRAW (R413, R415). It brings the partition and the context. -/
def State.ctxWithdraw (s : State) (part ctx : Nat) : State :=
  match s.ctxOfPart part ctx with
  | some c => s.withdraw c.id 2
  | none => s

/-- CTXCTL_WITHDRAW. -/
def execCtxctlWithdraw (s : State) : Res := .next (s.ctxWithdraw s.ev.a s.ev.b)

/-- CTXCTL as a kernel-mode wave writes it (R413): the context and the action. -/
def State.ctxctl (s : State) (part : Nat) (v : DWord) : State :=
  let ctx := v.toNat % 2 ^ 15
  match v.toNat / 2 ^ 18 % 4 with
  | 1 => s.ctxResume part ctx
  | 2 => s.ctxWithdraw part ctx
  | 3 => s.ctxStop part ctx
  | _ => s

/-- CTXROOT_WRITE (R373): a root, taken at once unless the context runs; clearing EN withdraws it. It brings the function, the
context within it and the value. CTXWDOG and SECOVF take their reset values when the context's registers first exist, and keep
what was written at a launch and when a withdrawn context is enabled again. A context whose EN stays clear keeps the value and
stays as it is. DEDUCED (log 47); DESIGN CHOICE (log 70). -/
def State.rootWrite (s : State) (vf k : Nat) (v : DWord) : State :=
  match s.partOfVf vf with
  | none => s.emit (.host vf 1 [])
  | some _ =>
    if 64 ≤ k then s.emit (.host vf 1 [])
    else
      let s := s.emit (.host vf 0 [])
      let id := k + 64 * vf
      let v : DWord := BitVec.ofNat 64 (v.toNat % 2 ^ 57 / 2 ^ 15 * 2 ^ 15 + v.toNat % 2)
      match s.ctx? id with
      | none => { s with ctxs := s.ctxs ++ [freshCtx id v] }
      | some c =>
        if c.phase = .running || c.phase = .stopping then
          let s := s.updCtx id fun c => { c with rootNext := some v }
          if v.getLsbD 0 then s else s.withdraw id 2
        else if !v.getLsbD 0 then (if c.root.getLsbD 0 then s.withdraw id 2 else s).updCtx id fun c => { c with root := v }
        else s.updCtx id fun c => { c with root := v, phase := if c.phase = .withdrawn then .idle else c.phase }

/-- CTXROOT_WRITE. -/
def execCtxrootWrite (s : State) : Res := .next (s.rootWrite s.ev.a s.ev.b (BitVec.ofNat 64 s.ev.c))

/-! ## Transient and lasting faults (R425 to R427) -/

/-- Partition number of a log entry; 31 for none. -/
def State.partNo (s : State) (ctx : Nat) : Nat := match s.partOf ctx with | some p => p.n | none => 31

/-- The launch whose group made the access that fails, where it is known: the number that the event brings, less one; 0 for an
access of no launch, of which every stopped launch's area takes a copy (R410). -/
def State.evLaunch (s : State) : Option Nat := if s.ev.f = 0 then none else some (s.ev.f - 1)

/-- A read that has failed for good gives no value: the landing of its lane, or the next work of its command, does not come. What
stands is tried again when the context resumes (R414). -/
def State.dropAccess (s : State) (kind id lane : Nat) : State :=
  let gone (e : Event) : Bool :=
    if kind = 1 then (e.what == .loadResultLands || e.what == .atomicAtHome) && e.args.a == id && e.args.b == lane
    else kind == 2 && match s.cmd? id with | some c => e.what == c.kick.what && e.args.a == c.kick.args.a && e.args.b == c.kick.args.b | none => false
  { s with agenda := s.agenda.filter fun e => !gone e }

/-- HBM_READ_FAILURE (R425): a failed read is retried once. It brings the context, the physical address, 1 when the retry
succeeds, 1 for an integrity failure, the virtual address where one exists, and the launch plus one (0 for none); and in its list
what reads: the code of the access (R387), 1 for a request in flight or 2 for an engine command, its number, and the lane.
DEDUCED (log 51). -/
def execHbmReadFailure (s : State) : Res :=
  let ctx := s.ev.a
  let launch := s.evLaunch
  let pa := s.ev.b
  let integrity := s.ev.d == 1
  let addr : DWord := BitVec.ofNat 64 (if s.ev.e = 0 then pa else s.ev.e)
  let who (k : Nat) : Nat := s.ev.ids.getD k 0
  let s := s.logError ⟨BitVec.ofNat 64 pa, s.partNo ctx, 1, 0, if s.ev.c = 1 then 0 else 1, s.hbeatOf ctx⟩
  if s.ev.c = 1 then .next s
  else
    let s := match integrity, s.partOf ctx with
      | true, some p => s.logViolation p.n ⟨addr, BitVec.ofNat 64 (if s.ev.e = 0 then 0 else s.ipaOf ctx s.ev.e), false, ctx,
          BitVec.ofNat 16 (8 * 4096 + who 0 * 256), p.hbeat⟩
      | _, _ => s
    .next ((s.dropAccess (who 1) (who 2) (who 3)).raiseStop ctx launch
      { cause := if integrity then 0x20 else 0x21, engine := 14, unit := wedgeOf (s.homeCore ctx pa), addr := addr
        detail := BitVec.ofNat 64 pa })

/-- SECDED_ERROR (R426): a single-bit error is corrected, a double-bit error in a clean LLC line refetched, any other stops the
owning context. It brings the context, the address, 1 for a double-bit error, 1 for a clean LLC line, the wedge or core that holds
the word (R409), and the launch plus one (0 for none). DEDUCED (log 51). -/
def execSecdedError (s : State) : Res :=
  let ctx := s.ev.a
  let launch := s.evLaunch
  let lasting := s.ev.c == 1 && s.ev.d != 1
  let addr : DWord := BitVec.ofNat 64 s.ev.b
  let kind : BitVec 4 := if lasting then 1 else 0
  let s := s.logError ⟨addr, s.partNo ctx, 1, 1, kind, s.hbeatOf ctx⟩
  if lasting then .next (s.raiseStop ctx launch { cause := 0x21, engine := 14, unit := s.ev.e, addr := addr, detail := addr })
  else .next s

end Sys2Proof.Machine
end

