-- ==== Sys2Proof/Machine/Fabric.lean ====
section
/-! DEFINITION. What the fabric manager and the root of trust do (R17, R326, R366 to R374, R389 to R392): partitions, functions,
ports and links, import grants, keys, attestation, and registers written by function page or management controller. -/

namespace Sys2Proof.Machine

open Host

/-! ## Registers (R373, R374) -/

/-- Bits [hi:lo] of a value, in place. -/
def maskBits (v : DWord) (lo hi : Nat) : DWord := BitVec.ofNat 64 (v.toNat / 2 ^ lo % 2 ^ (hi + 1 - lo) * 2 ^ lo)

/-- A context of a function that belongs to a partition has registers before its root is written. -/
def State.ensureCtx (s : State) (ctx : Nat) : State :=
  if (s.ctx? ctx).isSome || (s.partOf ctx).isNone then s else { s with ctxs := s.ctxs ++ [freshCtx ctx 0] }

/-- A register of a partition: MIGTHR, FWDCFG, DISPCFG (R264, R346, R393); reserved bits read zero (R4). DEDUCED (log 56). -/
def Part.writeReg (p : Part) (reg : Nat) (v : DWord) : Part :=
  if reg = 0x106 then { p with migthr := maskBits v 0 20 }
  else if reg = 0x109 then { p with fwdcfg := maskBits v 16 63 ||| maskBits v 0 12 }
  else if reg = 0x10C then { p with dispcfg := maskBits v 8 56 ||| maskBits v 0 0 }
  else p

/-- A register of a context: CTXWDOG at once (R88), SECOVF for the next placement (R318). -/
def Ctx.writeReg (c : Ctx) (reg : Nat) (v : DWord) : Ctx :=
  if reg = 0x107 then { c with wdog := v.setWidth 32 }
  else if reg = 0x108 then { c with secovfNext := v }
  else c

/-- A register of a function: WINBASE and WINSIZE (R373). -/
def Vf.writeReg (f : Vf) (reg : Nat) (v : DWord) : Vf :=
  if reg = 0x1410 then { f with winbase := v.toNat % 2 ^ 57 / 4096 * 4096 }
  else if reg = 0x1418 then { f with winsize := v.toNat / 4096 * 4096 }
  else f

/-- The state that a function has before anything of it is written (R371). -/
def State.ensureVf (s : State) (n : Nat) : State :=
  if (s.vf? n).isSome || decide (512 ≤ n) then s else { s with vfs := s.vfs ++ [freshVf n none] }

/-- A write of a register with no event of its own (R374): its number (the function page's offset for WINBASE and WINSIZE), the
partition, context or function it belongs to, and the value. -/
def State.regWrite (s : State) (reg x : Nat) (v : DWord) : State :=
  if reg = 0x106 || reg = 0x109 || reg = 0x10C then
    let s := s.updPart x fun p => p.writeReg reg v
    if reg = 0x106 then s.migTrigger x else s
  else if reg = 0x107 || reg = 0x108 then (s.ensureCtx x).updCtx x fun c => c.writeReg reg v
  else if reg = 0x1410 || reg = 0x1418 then (s.ensureVf x).updVf x fun f => f.writeReg reg v
  else s

/-- REGISTER_WRITE (R374): by the fabric manager through the management controller, which takes nothing but an image while the module
is in recovery (R448), or by a host through its function page, which answers with an error for a function of no partition (R371)
and otherwise takes the write. -/
def State.outsideWrite (s : State) (reg x : Nat) (v : DWord) : State :=
  let page := reg = 0x107 || reg = 0x108
  if page && (s.partOf x).isNone then s.emit (.host (vfOf x) 1 [])
  else if s.top.stage = .recovery then s
  else if page then (s.regWrite reg x v).emit (.host (vfOf x) 0 [])
  else s.regWrite reg x v

/-- REGISTER_WRITE. -/
def execRegisterWrite (s : State) : Res := .next (s.outsideWrite s.ev.a s.ev.b (BitVec.ofNat 64 s.ev.c))

/-! ## Identity (R326) -/

/-- PACKAGE_IDENTITY_WRITE (R326): not while any partition exists, nor in recovery (R448). It brings the identity. -/
def execPackageIdentityWrite (s : State) : Res :=
  .next (if s.parts.isEmpty && s.top.stage != .recovery then { s with top := { s.top with pkgid := some (BitVec.ofNat 18 s.ev.a) } } else s)

/-! ## Creation and destruction of partitions (R366, R369, R447) -/

/-- Wedges that belong to some partition. -/
def State.takenWedges (s : State) : BitVec 20 := s.parts.foldl (fun m p => m ||| p.wedges) 0

/-- R447, stage 6: a partition number that is free, and wedges that are released and unassigned. -/
def State.canCreate (s : State) (n : Nat) (w : BitVec 20) : Bool :=
  s.top.stage == .released && decide (n < 20) && (s.part? n).isNone && w != 0 && w &&& ~~~s.top.released == 0 &&
  w &&& s.takenWedges == 0

/-- PARTITION_CREATE (R447): fresh keys, MODE at its reset value, the heartbeat at zero. It brings the number, the wedges and the
root of the second-stage tables. DESIGN CHOICE (log 4). -/
def State.createPart (s : State) (n : Nat) (w : BitVec 20) (root2 : DWord) : State :=
  if !s.canCreate n w then s
  else
    let root : DWord := maskBits root2 15 56
    { s with
      top := { s.top with keys := s.top.keys + 1 }
      parts := s.parts ++ [freshPart n w root s.top.keys] }

/-- PARTITION_CREATE. -/
def execPartitionCreate (s : State) : Res :=
  .next (s.createPart s.ev.a (BitVec.ofNat 20 s.ev.b) (BitVec.ofNat 64 s.ev.c))

/-- R369, step 3: everything that the partition's wedges hold, and the keyed contents of their stacks (step 4).
DEDUCED (log 53). -/
def State.zeroWedges (s : State) (p : Part) : State :=
  let core (c : Nat) : Bool := p.wedges.getLsbD (wedgeOf c)
  let stack (a : Nat) : Bool := decide (a < 2 ^ 56) && p.wedges.getLsbD (a / 2 ^ 36)
  let press (n : Nat) : Bool := s.top.ports.any fun q => q.1 == n && q.2 == p.n
  { s with
    mem := s.mem.filter fun c => !stack c.1
    vatUsed := s.vatUsed.filter fun c => !core c
    l0 := s.l0.filter fun e => !core e.unit
    tlb := s.tlb.filter fun e => !p.wedges.getLsbD e.unit
    l1 := s.l1.filter fun e => !core e.core
    regq := s.regq.filter fun r => !core r.core
    owners := s.owners.filter fun o => !core o.core
    dir := s.dir.filter fun r => !core r.core
    surrs := s.surrs.filter fun x => !core x.core
    ranges := s.ranges.filter fun r => r.part != p.n
    borrow := s.borrow.filter fun b => b.part != p.n
    chans := s.chans.filter fun c => c.part != p.n
    fwds := s.fwds.filter fun f => f.part != p.n
    peerWatches := s.peerWatches.filter fun x => !stack x.1
    copyTurn := s.copyTurn.filter fun t => !core t.1
    svc := s.svc.filter fun r => r.part != p.n
    svcTurn := s.svcTurn.filter fun t => t.2 != p.n
    svcDone := s.svcDone.filter fun t => t.2.1 != p.n
    secs := s.secs.filter fun e => !p.wedges.getLsbD e.home
    arrayTurn := s.arrayTurn.filter fun t => !core t.1
    visits := s.visits.filter fun v => !p.wedges.getLsbD v.wedge
    rays := s.rays.filter fun r => !p.wedges.getLsbD r.wedge
    rayTurn := s.rayTurn.filter fun t => !p.wedges.getLsbD t.1
    colls := s.colls.filter fun c => c.part != p.n
    staging := s.staging.filter fun x => !press x.press
    heads := s.heads.filter fun h => !p.wedges.getLsbD h.wedge }

/-- R369, step 5: ports, links, multicast entries, functions and wedges are unassigned. DEDUCED (log 53). -/
def State.unassign (s : State) (n : Nat) : State :=
  let mine (ctx : Nat) : Bool := s.inPart n ctx
  { s with
    top := { s.top with
      ports := s.top.ports.filter fun q => q.2 != n
      links := s.top.links.filter fun q => q.2 != n
      sessions := s.top.sessions.filter fun x => x.part != n }
    mcast := s.mcast.filter fun e => mcPart (leNat e.2) != n
    launches := s.launches.filter fun l => !mine l.ctx
    reqs := s.reqs.filter fun r => !mine r.ctx
    sends := s.sends.filter fun x => !mine x.ctx
    faults := s.faults.filter fun f => !mine f.ctx
    ctxs := s.ctxs.filter fun c => !mine c.id
    vfs := s.vfs.map fun f => if f.part = some n then { f with part := none } else f
    parts := s.parts.filter fun p => p.n != n
    agenda := s.agenda.filter fun e => !(e.args.a == n && (e.what == .heartbeatTick || e.what == .quantumExpiry ||
      e.what == .assayAudit || e.what == .sectionDeadlockSearch || e.what == .migrationCounterHalving ||
      e.what == .pageMigration || e.what == .clusterPlacement)) }

/-- R369, step 1: every context that runs stops with HOST_STOP, DETAIL 3. -/
def State.stopPart (s : State) (n : Nat) : State :=
  (s.ctxs.filter fun c => s.inPart n c.id && c.phase == .running).foldl (fun s c =>
    s.raiseStop c.id none { cause := 0x28, engine := 16, unit := 0xFFFF, addr := 0, detail := 3 }) s

/-- PARTITION_DESTROY (R369). First the contexts stop and submissions are turned away; once every stop is complete, the rest. It
brings the partition. DEDUCED (log 53). -/
def State.destroy (s : State) (n : Nat) : State :=
  match s.part? n with
  | none => s
  | some p =>
    let e : Event := ⟨.partitionDestroy, { a := n }⟩
    if !p.closing then ((s.updPart n fun p => { p with closing := true }).stopPart n).pushAll [e]
    else if s.ctxs.any fun c => s.inPart n c.id && (c.phase == .stopping || c.phase == .running) then (s.stopPart n).pushNew [e]
    else
      let s := (s.ctxs.filter fun c => s.inPart n c.id && c.phase != .withdrawn).foldl (fun s c => s.withdrawNow c.id) s
      (s.zeroWedges p).unassign n

/-- PARTITION_DESTROY. DEDUCED (log 53). -/
def execPartitionDestroy (s : State) : Res := .next (s.destroy s.ev.a)

/-! ## Assignments -/

/-- A port or a link changes hands: the session of its last partition ends, and with a new one a session with a key of its own is
negotiated (R390). DESIGN CHOICE (log 14). -/
def Module.rekey (m : Module) (link : Bool) (n : Nat) (part : Option Nat) : Module :=
  let rest := m.sessions.filter fun x => !(x.link == link && x.n == n)
  match part with
  | none => { m with sessions := rest }
  | some p =>
    if m.sessions.any fun x => x.link == link && x.n == n && x.part == p then m
    else { m with sessions := rest ++ [⟨p, link, n, m.keys⟩], keys := m.keys + 1 }

/-- PORT_ASSIGNMENT (R17): a port with its press, or a link, goes to one partition or to none. It brings 1 for a link, the
number, and the partition plus 1 or 0. -/
def execPortAssignment (s : State) : Res :=
  let n := s.ev.b
  let give (l : List (Nat × Nat)) : List (Nat × Nat) :=
    (l.filter fun q => q.1 != n) ++ (if s.ev.c = 0 then [] else [(n, s.ev.c - 1)])
  let top := s.top.rekey (s.ev.a = 1) n (if s.ev.c = 0 then none else some (s.ev.c - 1))
  if s.ev.c ≠ 0 && (s.part? (s.ev.c - 1)).isNone then .next s
  else if s.ev.a = 1 then
    .next (if n < 16 then { s with top := { top with links := give s.top.links } } else s)
  else .next (if n < 8 then { s with
      top := { top with ports := give s.top.ports }
      -- the press's staging goes with the partition that had it (R17)
      staging := if s.ev.c ≠ 0 && s.top.ports.contains (n, s.ev.c - 1) then s.staging else s.staging.filter fun x => x.press != n } else s)

/-- VIRTUAL_FUNCTION_ASSIGNMENT (R371): a function that moves loses its contexts. It brings the function, and the partition plus 1
or 0. -/
def State.assignVf (s : State) (vf part : Nat) : State :=
  let to_ : Option Nat := if part = 0 then none else some (part - 1)
  if 512 ≤ vf || s.top.stage == .recovery || (part ≠ 0 && (s.part? (part - 1)).isNone) then s
  else match s.vf? vf with
    | none => { s with vfs := s.vfs ++ [freshVf vf to_] }
    | some f =>
      if f.part = to_ then s
      else
        let mine := s.ctxs.filter fun c => vfOf c.id == vf
        let s := mine.foldl (fun s c => s.withdraw c.id 2) s
        if mine.any fun c => c.phase == .running || c.phase == .stopping then
          -- its contexts stop first
          s.pushAll [⟨.virtualFunctionAssignment, { a := vf, b := part }⟩]
        else
        let s : State := { s with
          launches := s.launches.filter fun l => vfOf l.ctx != vf
          ctxs := s.ctxs.filter fun c => vfOf c.id != vf }
        s.updVf vf fun f => { f with part := to_ }

/-- VIRTUAL_FUNCTION_ASSIGNMENT. -/
def execVirtualFunctionAssignment (s : State) : Res := .next (s.assignVf s.ev.a s.ev.b)

/-- IMPORT_GRANT_WRITE (R389); reserved bits read as zero (R3). It brings the partition, the slot and the grant's first three qwords. -/
def execImportGrantWrite (s : State) : Res :=
  let v : DWord := BitVec.ofNat 64 s.ev.c
  let g : Grant := ⟨s.ev.b, maskBits v 60 63 ||| maskBits v 0 22, s.ev.d % 2 ^ 57 / 4096 * 4096, s.ev.e % 2 ^ 57 / 4096 * 4096⟩
  if s.ev.b < 256 then
    .next (s.updPart s.ev.a fun p => { p with grants := (p.grants.filter fun x => x.slot != s.ev.b) ++ [g] })
  else .next s

/-- TENANT_KEY_IMPORT (R390): a key wrapped to an attested session of the partition. It brings the partition, the key's number
and whether such a session stands. DESIGN CHOICE (log 15). -/
def execTenantKeyImport (s : State) : Res :=
  .next (if s.ev.c = 1 then s.updPart s.ev.a fun p => { p with tenant := some s.ev.b } else s)

/-! ## Attestation (R392) -/

/-- Numbers below n that satisfy a test, four bytes each, after their count. -/
def packSet (n : Nat) (f : Nat → Bool) : List Byte :=
  let xs := (List.range n).filter f
  leBytes 4 xs.length ++ xs.flatMap (leBytes 4)

/-- A partition's assignment, each kind in ascending number: what CONFIG is the digest of. DESIGN CHOICE (log 54). -/
def State.assignment (s : State) (p : Part) : List Byte :=
  packSet 20 (fun w => p.wedges.getLsbD w) ++
  packSet 8 (fun n => s.top.ports.contains (n, p.n)) ++
  packSet 16 (fun n => s.top.links.contains (n, p.n)) ++
  packSet 512 (fun n => s.vfs.any fun f => f.n == n && f.part == some p.n) ++
  (List.range 256).flatMap fun k => match p.grants.find? fun g => g.slot == k with
    | some g => leBytes 4 k ++ leBytes 8 g.q0.toNat ++ leBytes 8 g.base ++ leBytes 8 g.len
    | none => []

/-- A digest, at its width. DESIGN CHOICE (log 14). -/
def digest (bs : List Byte) : List Byte := (Config.sha256 bs ++ List.replicate 32 0).take 32
/-- A field of n bytes. DESIGN CHOICE (log 54). -/
def field (n : Nat) (bs : List Byte) : List Byte := (bs ++ List.replicate n 0).take n

/-- Bytes 0x000 to 0x0FF of a report (R392). DESIGN CHOICE (log 14, 54). -/
def State.reportBody (s : State) (p : Part) (nonce : List Byte) : List Byte :=
  leBytes 4 1 ++ leBytes 4 p.n ++ leBytes 8 p.wedges.toNat ++ leBytes 8 p.hbeat ++ field 32 nonce ++ field 32 s.top.mroot ++
  field 32 s.top.mmgmt ++ field 32 s.top.msvc ++ digest (s.assignment p) ++ leBytes 4 s.top.rot ++ List.replicate 68 0

/-- ATTESTATION_REQUEST (R392). It brings the partition and the nonce. -/
def execAttestationRequest (s : State) : Res :=
  match s.part? s.ev.a with
  | none => .next s
  | some p =>
    let body := s.reportBody p s.ev.bytes
    .next (s.fresh.emit (.report (body ++ field 384 (Config.sign s.seq body))))

end Sys2Proof.Machine
end

