-- ==== Sys2Proof/Machine/Bringup.lean ====
section
/-! DEFINITION. Power-on, bring-up and power-off (R18, R391, R447, R448). -/

namespace Sys2Proof.Machine

open Host

/-- FIRMWARE_VERIFICATION (R391) failed at a stage: the module stays in recovery, and the failure is reported. -/
def State.toRecovery (s : State) (stage : Nat) : State :=
  ({ s with top := { s.top with stage := .recovery } } : State).emit (.mgmt 0 stage)

/-- POWER_ON (R447, stages 1 and 2): the root of trust, the standby when the primary fails its self-test (R18), verifies and
measures its own firmware and the management controller's. An image written in recovery stands for the latter (R448). It
brings 1 when the primary passes, the length of the root-of-trust image, and both images. DESIGN CHOICE (log 4, 14). -/
def State.powerOn (s : State) (primaryOk : Bool) (n : Nat) (bytes : List Byte) : State :=
  if s.top.stage ≠ .off then s
  else
    let root := bytes.take n
    let mgmt := if s.top.recImage.isEmpty then bytes.drop n else s.top.recImage
    let s : State := { s with top := { s.top with rot := if primaryOk then 0 else 1, stage := .rootOk } }
    if !Config.signatureOk root then s.toRecovery 2
    else
      let s : State := { s with top := { s.top with mroot := digest root } }
      if !Config.signatureOk mgmt then s.toRecovery 2
      else { s with top := { s.top with mmgmt := digest mgmt, stage := .firmwareOk } }

/-- POWER_ON. -/
def execPowerOn (s : State) : Res := .next (s.powerOn (s.ev.a == 1) s.ev.b s.ev.bytes)

/-- A stack that fails training is logged as lasting (R447, stage 3). -/
def State.trainFail (s : State) (w : Nat) : State := s.logError ⟨BitVec.ofNat 64 (w * 2 ^ 36), 31, 1, 0, 1, 0⟩

/-- The resident service group of a wheel (R13, R447): two wave slots and four granules of its service core. What its firmware runs is
its own (Config.service), so its waves hold no lanes. DESIGN CHOICE (log 12). -/
def serviceGroup (g core : Nat) : Group :=
  { blankGroup g 0 g noCtx 0 0 (0, 0, 0) (0, 0, 0) core ⟨0, 64, 128, 128, 0, 0, 0, 0⟩ with granules := 4, kernel := true }

/-- The service firmware is loaded on the service core of every wheel that has one (R13, R447). -/
def State.loadService (s : State) : State :=
  ((List.range 10).filterMap s.serviceCore).foldl (fun s core =>
    let g := s.seq
    { s.fresh with
      groups := s.groups ++ [serviceGroup g core]
      waves := s.waves ++ [freshWave g 0 0 128 128 0 0 false 0, freshWave g 1 0 128 128 0 0 false 0] }) s

/-- HBM_TRAINING_COMPLETE (R447, stages 3 to 5): wedges whose stacks failed are held in reset; the others are released, with
everything in them zero, and the service firmware is verified, measured and loaded. It brings the mask of the failed
stacks and the image. -/
def State.trained (s : State) (failed : BitVec 20) (svc : List Byte) : State :=
  if s.top.stage ≠ .firmwareOk then s
  else
    let s := ((List.range 20).filter fun w => failed.getLsbD w).foldl (fun s w => s.trainFail w) s
    let s := if failed = 0 then s else s.emit (.mgmt 1 failed.toNat)
    let s : State := { s with top := { s.top with released := ~~~failed } }
    if !Config.signatureOk svc then s.toRecovery 5
    else ({ s with top := { s.top with msvc := digest svc, stage := .released } } : State).loadService

/-- HBM_TRAINING_COMPLETE. -/
def execHbmTrainingComplete (s : State) : Res := .next (s.trained (BitVec.ofNat 20 s.ev.a) s.ev.bytes)

/-- RECOVERY_FIRMWARE_WRITE (R448): only in recovery; an image that fails verification is not kept (R391). It brings the image.
DEDUCED (log 52). -/
def execRecoveryFirmwareWrite (s : State) : Res :=
  if s.top.stage ≠ .recovery then .next s
  else if !Config.signatureOk s.ev.bytes then .next (s.emit (.mgmt 0 2))
  else .next { s with top := { s.top with recImage := s.ev.bytes } }

/-- Events that the world outside the module brings: hosts, the fabric manager, peers, power. DEDUCED (log 52). -/
def outsideEvents : List Instr :=
  [.hostSubmission, .hostPlainLoad, .hostPlainStore, .syncWindowLoad, .syncWindowStore, .hostSnoop, .ctxrootWrite, .invStage1Page,
   .invContext, .ctxctlResume, .ctxctlWithdraw, .ctxctlStop, .modeWrite, .borrowcfgWrite, .registerWrite,
   .packageIdentityWrite, .partitionCreate, .portAssignment, .channelEnable, .multicastEntryWrite, .importGrantWrite,
   .attestationRequest, .recoveryFirmwareWrite, .powerOn, .hbmTrainingComplete, .powerOff, .virtualFunctionAssignment,
   .tenantKeyImport, .networkReceive, .remoteAccessArrival]

/-- POWER_OFF (R448): everything the module holds goes; the memories of its hosts, what it has sent, an image written in
recovery and what the outside world will still do to it stay. DEDUCED (log 52). -/
def State.powerOff (s : State) : State :=
  { State.reset with
    top := { State.reset.top with recImage := s.top.recImage }
    mem := s.mem.filter fun c => isHostPa c.1
    turns := s.turns
    agenda := s.agenda.filter fun e => outsideEvents.contains e.what
    out := s.out
    hostEpoch := s.hostEpoch
    seq := s.seq }

/-- POWER_OFF. -/
def execPowerOff (s : State) : Res := .next s.powerOff

end Sys2Proof.Machine
end

