-- ==== Sys2Proof/Machine/HostAccess.lean ====
section
/-! DEFINITION. What hosts do to the module through CXL (R262, R263, R375): the windows of a function, and snoops. -/

namespace Sys2Proof.Machine

open Host

/-- What bytes of a partition's intermediate addresses come to (R375, R381). -/
inductive IpaRes where
  | ok (s : State) (pas : List Nat)
  | viol (s : State) (kind level ipa : Nat)
  | resolvable (s : State) (entry : EntryAt)

/-- Physical address of each byte of [ipa, ipa + n). -/
def State.ipaSpan (s : State) (p : Part) (ipa : Nat) (acc : Acc) : Nat → IpaRes
  | 0 => .ok s []
  | n + 1 =>
    match s.translate2 p ipa acc with
    | (s, .viol k l i) => .viol s k l i
    | (s, .resolvable e) => .resolvable s e
    | (s, .ok pa _) => match s.ipaSpan p (ipa + 1) acc n with
      | .ok s pas => .ok s (pa :: pas)
      | r => r

/-- Bytes at a list of physical addresses, as their homes have them. -/
def State.bytesAt (s : State) : List Nat → Option (List Byte)
  | [] => some []
  | pa :: pas => match s.homeByte pa, s.bytesAt pas with
    | some b, some bs => some (b :: bs)
    | _, _ => none

/-- Write bytes at a list of physical addresses, at their homes (R241). -/
def State.writeAt (s : State) : List Nat → List Byte → State
  | pa :: pas, b :: bs => (s.homeWrite pa [b]).writeAt pas bs
  | _, _ => s

/-- R375, R388: a host access that fails is logged and answered with an error. DEDUCED (log 49). -/
def State.hostFail (s : State) (p : Part) (vf off : Nat) (acc : Acc) (kind level ipa : Nat) : State :=
  (s.logViolation p.n ⟨BitVec.ofNat 64 off, BitVec.ofNat 64 ipa, true, 0, BitVec.ofNat 16 (kind * 4096 + acc.code * 256 + level),
    p.hbeat⟩).emit (.host vf 1 [])

/-- A host access through a window: the function's partition and the intermediate address, or the response at once. A function
of a replayed DET context answers retry (R432). -/
def State.hostWindow (s : State) (vf off n : Nat) (sync : Bool) (k : Part → Nat → State) : State :=
  match s.vf? vf, s.partOfVf vf with
  | some v, some p =>
    if s.launches.any fun l => l.det && l.replay && !l.ended && vfOf l.ctx == vf then s.emit (.host vf 2 [])
    else
      let o := if sync then off - v.winsize else off
      if (sync && decide (off < v.winsize)) || decide (v.winsize < o + n) then s.emit (.host vf 1 [])
      else k p (v.winbase + o)
  | _, _ => s.emit (.host vf 1 [])

/-- The access waits for the service group, and runs again (R386). DEDUCED (log 49). -/
def State.hostHeld (s : State) (vf off : Nat) (acc : Acc) (entry : EntryAt) (e : Event) : State :=
  let e := s.accepted e
  let pf : PageFault := ⟨s.seq, 64 * vf, BitVec.ofNat 64 off, acc.code, entry, none, none, none, [e], 0⟩
  ({ s.fresh with faults := s.faults ++ [pf] } : State).push .pageFaultResolution { a := s.seq }

/-- An access that has failed after a page fault could not be resolved (R387, kind 10). -/
def State.hostAgain (s : State) (vf off : Nat) (acc : Acc) : State :=
  match s.partOfVf vf with
  | some p => s.hostFail p vf off acc 10 s.ev.lv s.ev.ipa
  | none => s.emit (.host vf 1 [])

/-- R263: a load; through the sync window an acquire, for which the last releaser is surrendered and no L1 invalidated. -/
def State.hostLoad (s : State) (vf off n : Nat) (sync : Bool) (e : Event) : State :=
  s.hostWindow vf off n sync fun p ipa =>
    match s.ipaSpan p ipa .hostRead n with
    | .viol s k l i => s.hostFail p vf off .hostRead k l i
    | .resolvable s en => s.hostHeld vf off .hostRead en e
    | .ok s pas =>
      let s := if !sync then s else pas.foldl (fun (s : State) pa => match s.recordOf (pa / 4) with
        | some r =>
          let s := s.writeBack r.core r.ctx fun _ => true
          { s with dir := s.dir.filter fun x => x.word != r.word }
        | none => s) s
      match s.bytesAt pas with
      | none => s.hostFail p vf off .hostRead 8 0 ipa
      | some bs => (s.emit (.host vf 0 bs)).hostCounts p.n ipa

/-- R431: a host write is an input of the function's DET contexts. -/
def State.hostInput (s : State) (vf loc : Nat) (bs : List Byte) : State :=
  (s.launches.filter fun l => l.det && !l.ended && vfOf l.ctx == vf).foldl
    (fun s l => (s.detInput l.id 1 (BitVec.ofNat 64 loc) 0 bs).1) s

/-- R263: a store, written at the home after a recall; through the sync window a release that leaves the variable's record as
it stands. A write to an IMMUTABLE object is refused (R261). -/
def State.hostStore (s : State) (vf off : Nat) (bs : List Byte) (sync : Bool) (e : Event) : State :=
  s.hostWindow vf off bs.length sync fun p ipa =>
    match s.ipaSpan p ipa .hostWrite bs.length with
    | .viol s k l i => s.hostFail p vf off .hostWrite k l i
    | .resolvable s en => s.hostHeld vf off .hostWrite en e
    | .ok s pas =>
      if pas.any fun pa => s.touchesObject 3 pa 1 then s.hostFail p vf off .hostWrite 7 0 ipa
      else ((((s.hostInput vf ipa bs).writeAt pas bs)).emit (.host vf 0 [])).hostCounts p.n ipa

/-- CTXSTATE of a context as its function page reads it (R373). DESIGN CHOICE (log 57). -/
def Ctx.stateWord (c : Ctx) : DWord :=
  let p : Nat := match c.phase with | .idle => 0 | .running => 1 | .stopping => 1 | .stopped => 2 | .withdrawn => 3
  BitVec.ofNat 64 (bitIf c.lost 16 + c.cause.toNat * 256 + p)

/-- A load from the function page (R373): 8-byte registers, little-endian; what is write-only, reserved or not a register reads
as zero (R4). CTXROOT reads the root in effect. DESIGN CHOICE (log 57). -/
def State.pageWord (s : State) (v : Vf) (off : Nat) : Nat :=
  let c (k : Nat) : Ctx := (s.ctx? (64 * v.n + k)).getD (freshCtx (64 * v.n + k) 0)
  if off = 0x1408 then v.invdone.toNat
  else if off = 0x1410 then v.winbase
  else if off = 0x1418 then v.winsize
  else if 0x1000 ≤ off ∧ off < 0x1400 then
    if off % 16 = 0 then (c ((off - 0x1000) / 16)).root.toNat else (c ((off - 0x1000) / 16)).stateWord.toNat
  else if 0x1800 ≤ off ∧ off < 0x1C00 then
    if off % 16 = 0 then (c ((off - 0x1800) / 16)).wdog.toNat else (c ((off - 0x1800) / 16)).secovf.toNat
  else 0

/-- A load of n bytes at an offset of a function's function page (R373). -/
def State.pageLoad (s : State) (vf off n : Nat) : State :=
  match s.vf? vf, s.partOfVf vf with
  | none, _ | _, none => s.emit (.host vf 1 [])
  | some v, some _ => s.emit (.host vf 0 (((List.range n).map fun k => BitVec.ofNat 8 (s.pageWord v ((off + k) / 8 * 8) / 2 ^ (8 * ((off + k) % 8))))))

/-- HOST_PLAIN_LOAD (R263), and with d = 1 a load from the function page (R373). It brings the function, the offset and the
length. -/
def execHostPlainLoad (s : State) : Res :=
  let e : Event := ⟨.hostPlainLoad, { a := s.ev.a, b := s.ev.b, c := s.ev.c }⟩
  .next (if s.ev.d = 1 then s.pageLoad s.ev.a s.ev.b s.ev.c
    else if s.ev.f = 1 then s.hostAgain s.ev.a s.ev.b .hostRead
    else s.hostLoad s.ev.a s.ev.b s.ev.c false e)

/-- HOST_PLAIN_STORE (R263). It brings the function, the offset and the bytes. -/
def execHostPlainStore (s : State) : Res :=
  let e : Event := ⟨.hostPlainStore, { a := s.ev.a, b := s.ev.b, bytes := s.ev.bytes, d := s.ev.d, e := s.ev.e }⟩
  .next (if s.ev.f = 1 then s.hostAgain s.ev.a s.ev.b .hostWrite else s.hostStore s.ev.a s.ev.b s.ev.bytes false e)

/-- SYNC_WINDOW_LOAD (R263). It brings the function, the offset and the length. -/
def execSyncWindowLoad (s : State) : Res :=
  let e : Event := ⟨.syncWindowLoad, { a := s.ev.a, b := s.ev.b, c := s.ev.c }⟩
  .next (if s.ev.f = 1 then s.hostAgain s.ev.a s.ev.b .hostRead else s.hostLoad s.ev.a s.ev.b s.ev.c true e)

/-- SYNC_WINDOW_STORE (R263): a release, performed after every earlier write that the logical device has accepted. It brings
the function, the offset and the bytes. -/
def execSyncWindowStore (s : State) : Res :=
  let e : Event := ⟨.syncWindowStore, { a := s.ev.a, b := s.ev.b, bytes := s.ev.bytes, d := s.ev.d, e := s.ev.e }⟩
  .next (if s.ev.f = 1 then s.hostAgain s.ev.a s.ev.b .hostWrite
    else if s.earlierWrite e then s.fresh.pushAll [s.accepted e]
    else s.hostStore s.ev.a s.ev.b s.ev.bytes true e)

/-- HOST_SNOOP (R262): the home recalls the line, every device copy goes, and the answer is the line's 128 bytes, those that the
device stored among them. What the host then writes to its line stands in the event's bytes, from the address on; what it does
elsewhere in its memory is open (Config.hostByte). It brings the address. DEDUCED (log 49). -/
def State.snoop (s : State) (pa : Nat) (bs : List Byte) : State :=
  if !isHostPa pa then s
  else
    let line := pa / 128 * 128
    let s := s.recallSpan line 128
    let s : State := { s with
      l1 := s.l1.filterMap fun e =>
        if e.word / 32 == pa / 128 then (if e.dm = 0 then none else some { e with mask := e.dm }) else some e }
    let s := s.emit (.host (32 * (pa / 2 ^ 52 % 16)) 0 ((s.bytesAt ((List.range 128).map (line + ·))).getD []))
    { s.writeAt ((List.range (line + 128 - pa)).map (pa + ·)) bs with hostEpoch := s.hostEpoch + 1 }

/-- HOST_SNOOP. -/
def execHostSnoop (s : State) : Res := .next (s.snoop s.ev.a s.ev.bytes)

end Sys2Proof.Machine
end

