-- ==== Sys2Proof/Machine/Display.lean ====
section
/-! DEFINITION. Display engines and encoders (R393, R394). -/

namespace Sys2Proof.Machine

open Host

/-! ## Head records (R393) -/

/-- Bits [lo, lo + w) of the qword at byte q of a record. -/
def headField (r : List Byte) (q lo w : Nat) : Nat := leNat ((r.drop q).take 8) / 2 ^ lo % 2 ^ w

def headEn (r : List Byte) : Bool := headField r 0 63 1 = 1
def headFb (r : List Byte) (sel : Nat) : Nat := headField r (8 * sel) 0 57
def headHz (r : List Byte) : Nat := headField r 0x10 56 8
/-- Bytes of a pixel: RGBA16F or RGBA8. DESIGN CHOICE (log 55). -/
def headPixel (r : List Byte) : Nat := if headField r 0x10 48 4 = 12 then 8 else 4
/-- Bytes from row to row. -/
def headPitch (r : List Byte) : Nat := headField r 0x10 32 16 * 128
def headHeight (r : List Byte) : Nat := headField r 0x10 16 16
def headWidth (r : List Byte) : Nat := headField r 0x10 0 16
/-- Renditions that are ON. -/
def headOn (r : List Byte) : List Nat := [0, 1].filter fun j => headField r (0x20 + 8 * j) 63 1 = 1
/-- Codec and bit rate of rendition j. -/
def headCodec (r : List Byte) (j : Nat) : Nat := headField r (0x20 + 8 * j) 61 2
def headKbps (r : List Byte) (j : Nat) : Nat := headField r (0x20 + 8 * j) 0 32
def headRing (r : List Byte) : Nat := headField r 0x30 0 57 / 128 * 128
def headRingLen (r : List Byte) : Nat := headField r 0x38 32 32
/-- Pixels per second of the record's renditions. -/
def headLoad (r : List Byte) : Nat := (headOn r).length * (headWidth r * headHeight r * headHz r)

/-- The record with EN clear. -/
def headOff (r : List Byte) : List Byte := r.set 7 (BitVec.ofNat 8 ((r.getD 7 0).toNat % 128))

/-- IPA of a head's record: the partition's head table (DISPCFG) and the head's number. DESIGN CHOICE (log 55). -/
def Part.headAt (p : Part) (head : Nat) : Nat := p.dispcfg.toNat % 2 ^ 57 / 256 * 256 + 64 * head

/-- A display engine's access that fails is logged as one made by no context (R388). -/
def State.displayFail (s : State) (p : Part) (acc : Acc) (kind level ipa : Nat) : State :=
  s.logViolation p.n ⟨BitVec.ofNat 64 ipa, BitVec.ofNat 64 ipa, true, 0, BitVec.ofNat 16 (kind * 4096 + acc.code * 256 + level),
    p.hbeat⟩

/-- The event waits for the service group (R386). DESIGN CHOICE (log 55). -/
def State.displayHeld (s : State) (ipa : Nat) (acc : Acc) (entry : EntryAt) (e : Event) : State :=
  let pf : PageFault := ⟨s.seq, noCtx, BitVec.ofNat 64 ipa, acc.code, entry, none, none, none, [e], 0⟩
  ({ s.fresh with faults := s.faults ++ [pf] } : State).push .pageFaultResolution { a := s.seq }

/-- Read n bytes of the partition's intermediate space as an engine. -/
def State.displayRead (s : State) (p : Part) (ipa n : Nat) (e : Event) (k : State → List Byte → State) : State :=
  match s.ipaSpan p ipa .engineRead n with
  | .viol s kd l i => s.displayFail p .engineRead kd l i
  | .resolvable s en => s.displayHeld ipa .engineRead en e
  | .ok s pas => match s.bytesAt pas with
    | some bs => k s bs
    | none => s.displayFail p .engineRead 8 0 ipa

/-- Write bytes there as an engine. -/
def State.displayWrite (s : State) (p : Part) (ipa : Nat) (bs : List Byte) (e : Event) (k : State → State) : State :=
  match s.ipaSpan p ipa .engineWrite bs.length with
  | .viol s kd l i => s.displayFail p .engineWrite kd l i
  | .resolvable s en => s.displayHeld ipa .engineWrite en e
  | .ok s pas =>
    if pas.any fun pa => s.touchesObject 3 pa 1 then s.displayFail p .engineWrite 7 0 ipa
    else k (s.writeAt pas bs)

/-- An event of the display engines that a page fault held and that cannot go on (R387, kind 10). -/
def State.displayLost (s : State) (w : Nat) (acc : Acc) : State :=
  match s.partOfWedge w with
  | some p => s.displayFail p acc 10 s.ev.lv s.ev.ipa
  | none => s

/-! ## Enabling (R394) -/

/-- R394: the wedge's encoders would be beyond their limits with this record. -/
def State.headRefused (s : State) (w head : Nat) (r : List Byte) : Bool :=
  let rs := r :: ((s.heads.filter fun h => h.wedge == w && h.head != head).map Head.record)
  decide (8 < rs.foldl (fun n x => n + (headOn x).length) 0) || decide (1990656000 < rs.foldl (fun n x => n + headLoad x) 0)

/-- HEAD_ENABLE (R393, R394): a head's record is written; EN reads back 0 when it is refused. It brings the wedge, the head and
the record. -/
def State.headEnable (s : State) (w head : Nat) (r : List Byte) (e : Event) : State :=
  match s.partOfWedge w with
  | none => s
  | some p =>
    if 4 ≤ head || r.length ≠ 64 || !p.dispcfg.getLsbD 0 then s
    else
      let r := if headEn r && s.headRefused w head r then headOff r else r
      s.displayWrite p (p.headAt head) r e fun s =>
        { s with heads := (s.heads.filter fun h => !(h.wedge == w && h.head == head)) ++
            (if headEn r then [⟨w, head, r, 0, 0⟩] else []) }

/-- HEAD_ENABLE. -/
def execHeadEnable (s : State) : Res :=
  let e : Event := ⟨.headEnable, { a := s.ev.a, b := s.ev.b, bytes := s.ev.bytes }⟩
  .next (if s.ev.f = 1 then s.displayLost s.ev.a .engineWrite
    else s.headEnable s.ev.a s.ev.b s.ev.bytes e)

/-! ## Frames (R393, R394) -/

/-- The acquire of SEL's word (R245): its last releaser is surrendered. -/
def State.displayAcquire (s : State) (pa : Nat) : State :=
  match s.recordOf (pa / 4) with
  | some r =>
    let s := s.writeBack r.core r.ctx fun _ => true
    { s with dir := s.dir.filter fun x => x.word != r.word }
  | none => s

/-- Read the rows of a frame buffer. -/
def State.readRows (s : State) (p : Part) (r : List Byte) (base : Nat) (e : Event) (k : State → List Byte → State) :
    Nat → List Byte → State
  | 0, acc => k s acc
  | n + 1, acc =>
    s.displayRead p (base + headPitch r * (headHeight r - (n + 1))) (headWidth r * headPixel r) e fun s bs =>
      s.readRows p r base e k n (acc ++ bs)

/-- FRAME_START (R393): SEL is acquired and the frame buffer it selects is read whole, shown, and encoded when a rendition is ON. It
brings the wedge and the head. -/
def State.frameStart (s : State) (w head : Nat) (e : Event) : State :=
  match s.partOfWedge w, s.heads.find? fun h => h.wedge == w && h.head == head with
  | some p, some h =>
    if !p.dispcfg.getLsbD 0 then s
    else match s.translate2 p (p.headAt head + 0x18) .engineRead with
      | (s, .viol k l i) => s.displayFail p .engineRead k l i
      | (s, .resolvable en) => s.displayHeld (p.headAt head + 0x18) .engineRead en e
      | (s, .ok pa _) =>
        let s := s.displayAcquire pa
        match s.homeBytes pa 4 with
        | none => s.displayFail p .engineRead 8 0 (p.headAt head + 0x18)
        | some sel =>
          let base := headFb h.record (leNat sel % 2)
          s.readRows p h.record base e (fun s bs =>
            let s := s.emit (.frame w head bs)
            if (headOn h.record).isEmpty then s else s.push .encoderFrameComplete { a := w, b := head, bytes := bs }) (headHeight h.record) []
  | _, _ => s

/-- FRAME_START. -/
def execFrameStart (s : State) : Res :=
  let e : Event := ⟨.frameStart, { a := s.ev.a, b := s.ev.b }⟩
  .next (if s.ev.f = 1 then s.displayLost s.ev.a .engineRead else s.frameStart s.ev.a s.ev.b e)

/-- Write bytes into a head's ring from a place on, around its data area. -/
def State.ringWrite (s : State) (p : Part) (ring size : Nat) (e : Event) (k : State → State) : List Byte → Nat → State
  | [], _ => k s
  | b :: bs, pos => s.displayWrite p (ring + pos % size) [b] e fun s => s.ringWrite p ring size e k bs (pos + 1)

/-- The encoder's arrival at the ring's barrier; a line that fails its check is logged (R15, R388). -/
def State.displayArrive (s : State) (p : Part) (ipa pa : Nat) : State :=
  if (s.barRead (.glob pa)).isNone then s.displayFail p .engineWrite 8 0 ipa else s.barArrive (.glob pa) 1 false

/-- ENCODER_FRAME_COMPLETE (R394): the frame's access units stand in the ring, and the encoder arrives once at the ring's
barrier. It brings the wedge, the head and the pixels of the frame. -/
def State.encoderDone (s : State) (w head : Nat) (pixels : List Byte) (e : Event) : State :=
  match s.partOfWedge w, s.heads.find? fun h => h.wedge == w && h.head == head with
  | some p, some h =>
    let ring := headRing h.record
    let len := headRingLen h.record
    if len < 128 then s
    else
      let size := len - 16
      let units := (headOn h.record).flatMap fun j =>
        Config.encoded (2 * s.seq + j) (headCodec h.record j) (headKbps h.record j) (headField h.record 0x10 48 4) (headWidth h.record)
          (headHeight h.record) pixels
      s.ringWrite p ring size e (fun s =>
        let s : State := ({ s with heads := s.heads.map fun x =>
          if x.wedge == w && x.head == head then { x with pos := (h.pos + units.length) % size, frames := x.frames + 1 } else x } : State).fresh
        match s.translate2 p (ring + size) .engineWrite with
        | (s, .viol k l i) => s.displayFail p .engineWrite k l i
        | (s, .resolvable en) => s.displayHeld (ring + size) .engineWrite en ⟨.encoderFrameComplete, { a := w, b := head, c := 1 }⟩
        | (s, .ok pa _) => s.displayArrive p (ring + size) pa) units h.pos
  | _, _ => s

/-- The arrival alone, which waited for a page. -/
def State.encoderArrive (s : State) (w head : Nat) (e : Event) : State :=
  match s.partOfWedge w, s.heads.find? fun h => h.wedge == w && h.head == head with
  | some p, some h =>
    let bar := headRing h.record + headRingLen h.record - 16
    match s.translate2 p bar .engineWrite with
    | (s, .viol k l i) => s.displayFail p .engineWrite k l i
    | (s, .resolvable en) => s.displayHeld bar .engineWrite en e
    | (s, .ok pa _) => s.displayArrive p bar pa
  | _, _ => s

/-- ENCODER_FRAME_COMPLETE. DESIGN CHOICE (log 55). -/
def execEncoderFrameComplete (s : State) : Res :=
  let e : Event := ⟨.encoderFrameComplete, { a := s.ev.a, b := s.ev.b, c := s.ev.c, bytes := s.ev.bytes }⟩
  .next (if s.ev.f = 1 then s.displayLost s.ev.a .engineWrite
    else if s.ev.c = 1 then s.encoderArrive s.ev.a s.ev.b e else s.encoderDone s.ev.a s.ev.b s.ev.bytes e)

end Sys2Proof.Machine
end

