-- ==== Sys2Proof/Machine/Heartbeat.lean ====
section
/-! DEFINITION. The heartbeat and what hangs on it (R19 to R21, R73, R81, R87, R88): a tick of a partition, the assay engines,
the context watchdog, power holds (R445) and the MODE register (R442). -/

namespace Sys2Proof.Machine

open Host

/-! ## MODE (R442) and power holds (R445) -/

/-- A write of MODE: W1C of THR, HBPER kept when 3 is written. -/
def modeWritten (old v : DWord) : DWord :=
  let hb := if v.toNat / 16 % 4 = 3 then old.toNat / 16 % 4 else v.toNat / 16 % 4
  let thr := old.getLsbD 31 && !v.getLsbD 31
  BitVec.ofNat 64 ((if thr then 2 ^ 31 else 0) + v.toNat / 64 % 8 * 64 + hb * 16 + v.toNat % 4)

/-- MODE of a partition, written through the management controller or by SSET (R374, R442). -/
def State.modeWrite (s : State) (part : Nat) (v : DWord) : State := s.updPart part fun p => { p with mode := modeWritten p.mode v }

/-- MODE_WRITE (R442, R443). It brings the partition and the value. -/
def execModeWrite (s : State) : Res := .next (s.modeWrite s.ev.a (BitVec.ofNat 64 s.ev.b))

/-- POWER_HOLD (R445): work is held at a boundary and THR is set. It brings the wedge. -/
def execPowerHold (s : State) : Res :=
  match s.partOfWedge s.ev.a with
  | some p => .next (s.updPart p.n fun p => { p with mode := p.mode ||| BitVec.ofNat 64 (2 ^ 31) })
  | none => .next s

/-! ## The context watchdog (R88) -/

/-- Units completed by the context's waves, engine commands completed and network arrivals landed. DEDUCED (log 43). -/
def State.progress (s : State) (c : Ctx) : Nat :=
  c.acts + (s.waves.filter fun v => match s.group? v.g with | some g => g.ctx == c.id | none => false).foldl
    (fun n v => n + v.units) 0

/-- Some wave of the context is blocked. -/
def State.someBlocked (s : State) (ctx : Nat) : Bool :=
  s.waves.any fun v => match s.group? v.g with
    | some g => g.ctx == ctx && g.resident && !v.frags.isEmpty && !(v.frags.any (s.fragReady g v))
    | none => false

/-- One tick of a context's watchdog. DEDUCED (log 43). -/
def State.watchTick (s : State) (c : Ctx) : State :=
  if c.wdog = 0 || c.phase ≠ .running || !s.hasResident c.id then s
  else
    let n := s.progress c
    if n ≠ c.seen || !s.someBlocked c.id then s.updCtx c.id fun c => { c with seen := n, wdogTicks := 0 }
    else
      let s := s.updCtx c.id fun c => { c with wdogTicks := c.wdogTicks + 1 }
      if c.wdog.toNat ≤ c.wdogTicks + 1 then s.push .contextWatchdog { a := c.id } else s

/-- CONTEXT_WATCHDOG (R88). It brings the context. -/
def execContextWatchdog (s : State) : Res :=
  match s.ctx? s.ev.a with
  | none => .next s
  | some c =>
    if c.wdog = 0 || decide (c.wdogTicks < c.wdog.toNat) || c.phase ≠ .running then .next s
    else .next ((s.updCtx c.id fun c => { c with wdogTicks := 0 }).raiseStop c.id none
      { cause := 0x27, engine := 16, unit := 0xFFFF, addr := 0, detail := 0, total := c.wdog.setWidth 64 })

/-! ## The tick -/

/-- Core cycles of a quantum of 2 ms (R73). DESIGN CHOICE (log 58). -/
def quantumCycles : Nat := 2000000

/-- R87, R89: page faults that the service group has not resolved within 2^20 ticks stop their contexts. A host's access has no
context to stop (R375). The logged address is the queue (R404). DESIGN CHOICE (log 58). -/
def State.faultsLate (s : State) (sel : Nat → Bool) : State :=
  let host (f : PageFault) : Bool := f.retry.any fun e =>
    isHostWrite e.what || e.what == .hostPlainLoad || e.what == .syncWindowLoad
  let s : State := { s with faults := s.faults.map fun f => if sel f.ctx then { f with ticks := f.ticks + 1 } else f }
  (s.faults.filter fun f => sel f.ctx && f.ticks == 2 ^ 20 && !host f).foldl (fun s f =>
    let wheel := wheelOf (wedgeOf (s.ctlCore f.ctx))
    let part := (s.partOf f.ctx).elim 0 Part.n
    s.raiseStop f.ctx none
      { cause := 0x27, engine := 12, unit := 2 * wheel, addr := BitVec.ofNat 64 wheel, detail := BitVec.ofNat 64 wheel
        done := BitVec.ofNat 64 (s.svcAnswered wheel part), total := BitVec.ofNat 64 (s.svcCount wheel part) }) s

/-- What a tick does for the contexts that `sel` names, beside the count: fences (R251), section limits (R322), service records
and page faults (R87), watchdogs (R88), launches that depend on barriers (R71), batches of records (R81). -/
def State.tickWork (s : State) (sel : Nat → Bool) : State :=
  let s := (s.fenceTicks sel).secTick sel
  let s : State := { s with svc := s.svc.map fun r => if sel r.ctx then { r with queuedAt := r.queuedAt + 1 } else r }
  let s := s.pushAll ((s.svc.filter fun r => sel r.ctx && r.queuedAt == 2 ^ 20).map fun r => ⟨.serviceWatchdog, { a := r.id }⟩)
  let s := s.faultsLate sel
  let s := (s.ctxs.filter fun c => sel c.id).foldl (fun s c => s.watchTick c) s
  let ls := s.launches.filter fun l => !l.ended && sel l.ctx
  let s := s.pushNew ((ls.filter fun l => !l.eligible).map fun l => ⟨.launchEligible, { a := l.id }⟩)
  s.pushNew ((ls.filter fun l => l.graph && l.eligible && l.nodes.any fun x => !x.srcs.isEmpty).map fun l =>
    ⟨.nodeBatchTimeout, { a := l.id }⟩)

/-- What comes about every so many ticks: audits, whose channels are frozen until the next tick, and the deadlock search (R21,
R321), counters (R264), quanta (R73). -/
def State.tickSlow (s : State) (p : Part) (hb : Nat) : State :=
  let s := s.updPart p.n fun p => { p with frozen := hb % 1024 == 0 }
  let s := if hb % 1024 = 0 then (s.push .assayAudit { a := p.n }).push .sectionDeadlockSearch { a := p.n } else s
  let s := if hb % 65536 = 0 then s.push .migrationCounterHalving { a := p.n } else s
  if p.cycle / quantumCycles ≠ (p.cycle - p.period) / quantumCycles then s.push .quantumExpiry { a := p.n } else s

/-- HEARTBEAT_TICK (R19, R20): the count advances by one, and a new period is in force from this boundary. Reads of HBEAT take the
new value; what else is stated in ticks follows the heartbeat in a context that is not DET (R428). -/
def State.heartbeat (s : State) (part : Nat) : State :=
  match s.part? part with
  | none => s
  | some p =>
    let hb := p.hbeat + 1
    let s := s.updPart part fun p => { p with hbeat := hb, period := hbPeriod p.mode }
    let s := s.hbeatFills part hb
    (s.tickWork fun c => s.inPart part c && !s.detCtx c).tickSlow p hb

/-- A virtual tick of a DET context (R428): everything that a rule states in ticks but reads of HBEAT. -/
def State.virtualTick (s : State) (part ctx : Nat) : State :=
  let s := s.tickWork fun c => c == ctx
  if s.ticksOf ctx % 1024 = 0 then s.push .sectionDeadlockSearch { a := part, b := ctx + 1 } else s

/-- HEARTBEAT_TICK. It brings the partition, and for a virtual tick the context plus 1. -/
def execHeartbeatTick (s : State) : Res :=
  .next (if s.ev.b = 0 then s.heartbeat s.ev.a else s.virtualTick s.ev.a (s.ev.b - 1))

/-! ## Assay engines (R21) -/

/-- A channel that an audit finds wrong: its context, the engine's block, the channel, the sum found and the total. -/
structure Audit where
  ctx : Nat
  unit : Nat
  chan : Nat
  found : Nat
  total : Nat

/-- The rind die, as an assay engine's number, whose links or ports carry a partition's channels (R16, R21). DEDUCED (log 50). -/
def State.rindOf (s : State) (part route pkg : Nat) : Nat :=
  let n := if s.byLink part route pkg then ((s.top.links.find? fun l => l.2 == part).elim 0 fun l => l.1 / 8)
    else ((s.top.ports.find? fun l => l.2 == part).elim 0 fun l => l.1 / 4)
  20 + n

/-- Forwarding channels: permits held and records sent and not yet acknowledged, against the entry's SLOTS. DEDUCED (log 50). -/
def State.auditSend (s : State) (part : Nat) : List Audit :=
  (s.chans.filter fun c => c.part == part && !c.receives).flatMap fun c =>
    let out := s.fwds.filter fun f => f.part == part && f.ch == c.n
    let found := c.permits + out.length
    if found = c.slots then []
    else
      let waiting := s.waves.filterMap fun v => match s.group? v.g with
        | some g => if s.inPart part g.ctx && v.frags.any (fun f => f.wait == some (.permit c.n)) then some g.ctx else none
        | none => none
      (out.map Fwd.ctx ++ waiting).eraseDups.map fun x => ⟨x, s.rindOf part c.route c.peer, c.n, found, c.slots⟩

/-- Records of a channel that stand in a graph's queues or in groups that consume them. -/
def State.heldFrom (s : State) (l : Launch) (ch : Nat) : Nat :=
  (l.nodes.foldl (fun n x => n + (x.srcs.filter (· == some ch)).length) 0) +
  (s.groups.filter fun g => g.launch == l.id && !g.freed).foldl (fun n g => n + (g.consumed.filter (· == some ch)).length) 0

def State.auditReceive (s : State) (part : Nat) : List Audit :=
  (s.chans.filter fun c => c.part == part && c.receives).flatMap fun c =>
    (s.launches.filter fun l => l.graph && !l.ended && l.compl == c.compl && s.inPart part l.ctx).filterMap fun l =>
      let found := c.slots - c.occupied + s.heldFrom l c.n
      if found = c.slots then none else some ⟨l.ctx, s.rindOf part c.route c.peer, c.n, found, c.slots⟩

/-- A queue whose permits are its free slots: slots taken and permits left, against the total; off only when it holds more. -/
def queueAudit (ctx unit chan used total : Nat) : List Audit :=
  if used + (total - used) = total then [] else [⟨ctx, unit, chan, used + (total - used), total⟩]

/-- Feeder queues of 16 vectors and service queues of 256 records, by the engine of their wedge; press queues of 16 collectives,
by that of the press's rind die (R16). DEDUCED (log 50). -/
def State.auditQueues (s : State) (part : Nat) : List Audit :=
  ((s.groups.filter fun g => s.inPart part g.ctx && !g.freed).flatMap fun g =>
    g.queues.flatMap fun q => queueAudit g.ctx (wedgeOf g.core) q.q q.vecs.length 16) ++
  ((s.svc.filter fun r => r.part == part).flatMap fun r => queueAudit r.ctx (2 * r.wheel) r.wheel (s.svcCount r.wheel part) 256) ++
  (s.cmds.filter fun c => c.engine == 5 && s.inPart part c.ctx).flatMap fun c =>
    queueAudit c.ctx (20 + c.unit / 4) c.unit (s.queueOf 5 c.unit).length 16

/-- ASSAY_AUDIT (R21): a mismatch raises LOST_PERMIT for the owning context. It brings the partition. DEDUCED (log 50). -/
def State.audit (s : State) (part : Nat) : State :=
  (s.auditSend part ++ s.auditReceive part ++ s.auditQueues part).foldl (fun s a =>
    s.raiseStop a.ctx none
      { cause := 0x22, engine := 11, unit := a.unit, addr := BitVec.ofNat 64 a.chan, detail := BitVec.ofNat 64 a.chan
        done := BitVec.ofNat 64 a.found, total := BitVec.ofNat 64 a.total }) s

/-- ASSAY_AUDIT. -/
def execAssayAudit (s : State) : Res := .next (s.audit s.ev.a)

end Sys2Proof.Machine
end

