-- ==== Sys2Proof/Machine/Invalidate.lean ====
section
/-! DEFINITION. Invalidation of translations (R384, R385): INV of a function page, and TLBINV. -/

namespace Sys2Proof.Machine

open Host

/-- Fields of the format that INV and TLBINV share (R384). -/
def invScope (v : Nat) : Nat := v / 2 ^ 10 % 4
def invCtx (v : Nat) : Nat := v % 64
def invPage (v : Nat) : Nat := v / 2 ^ 12 * 2 ^ 12

/-- Drop the combined entries that a test selects. DEDUCED (log 48). -/
def State.dropTlb (s : State) (gone : TlbEntry → Bool) : State :=
  { s with l0 := s.l0.filter fun e => !gone e, tlb := s.tlb.filter fun e => !gone e }

/-- The entry may come from the page that holds an address: pages are at most 4 GiB, and aligned. DEDUCED (log 48). -/
def samePage (base addr : Nat) : Bool := base / 2 ^ 32 == addr / 2 ^ 32

/-- SCOPE 0 to 3 (R384). -/
def dropPage1 (ctx addr : Nat) (e : TlbEntry) : Bool := e.ctx == some ctx && samePage e.vbase addr
def dropCtx (ctx : Nat) (e : TlbEntry) : Bool := e.ctx == some ctx
def dropPage2 (part ipa : Nat) (e : TlbEntry) : Bool := e.part == part && samePage e.ibase ipa
def dropPart (part : Nat) (e : TlbEntry) : Bool := e.part == part

/-- Requests in flight of a partition: they may have used the entries. -/
def State.partReqs (s : State) (part : Nat) : List Nat :=
  (s.reqs.filter fun r => match s.partOf r.ctx with | some p => p.n == part | none => false).map Req.id

/-- Stores of a partition that are on their way to their homes. -/
def State.partRegs (s : State) (part : Nat) : List Reg := s.regq.filter fun r => (s.group? r.g).any fun g => s.inPart part g.ctx

/-- The drop is made, and completes when the accesses in flight have been performed (R385); an engine's unit translates its accesses
and performs them in one event, so none of its is in flight between events. `vf` is the function whose INVDONE
counts it, `wave` the wave that waits for it. DEDUCED (log 48). -/
def State.invalStart (s : State) (part : Nat) (vf : Option Nat) (gone : TlbEntry → Bool) (wave : Option (Nat × Nat) := none) : State :=
  let s := s.dropTlb gone
  ({ s.fresh with invals := s.invals ++ [⟨s.seq, vf, s.partReqs part, wave, s.partRegs part⟩] } : State).push .invalidationComplete { a := s.seq }

/-- A write of INV: SCOPE 2 and 3 are ignored. -/
def State.invWrite (s : State) (vf v : Nat) : State :=
  match s.partOfVf vf with
  | none => s.emit (.host vf 1 [])
  | some p =>
    let s := s.emit (.host vf 0 [])
    let ctx := 64 * vf + invCtx v
    if invScope v = 0 then s.invalStart p.n (some vf) (dropPage1 ctx (invPage v))
    else if invScope v = 1 then s.invalStart p.n (some vf) (dropCtx ctx)
    else s

/-- A write of TLBINV by a kernel-mode wave that serves a context of the partition: `vf` is that context's function. -/
def State.tlbinvWrite (s : State) (part vf v : Nat) (wave : Option (Nat × Nat) := none) : State :=
  match s.part? part with
  | none => s
  | some p =>
    let ctx := 64 * vf + invCtx v
    if invScope v = 0 then s.invalStart p.n none (dropPage1 ctx (invPage v)) wave
    else if invScope v = 1 then s.invalStart p.n none (dropCtx ctx) wave
    else if invScope v = 2 then s.invalStart p.n none (dropPage2 p.n (invPage v)) wave
    else s.invalStart p.n none (dropPart p.n) wave

/-- INV_STAGE1_PAGE (R384). It brings the function and the value written. -/
def execInvStage1Page (s : State) : Res := .next (s.invWrite s.ev.a s.ev.b)
/-- INV_CONTEXT (R384). It brings the function and the value written. -/
def execInvContext (s : State) : Res := .next (s.invWrite s.ev.a s.ev.b)

/-- TLBINV_STAGE1_PAGE (R384). It brings the context served and the value written. -/
def execTlbinvStage1Page (s : State) : Res :=
  match s.partOf s.ev.a with
  | some p => .next (s.tlbinvWrite p.n (vfOf s.ev.a) s.ev.b)
  | none => .next s
/-- TLBINV_CONTEXT (R384). It brings the context served and the value written. -/
def execTlbinvContext (s : State) : Res :=
  match s.partOf s.ev.a with
  | some p => .next (s.tlbinvWrite p.n (vfOf s.ev.a) s.ev.b)
  | none => .next s
/-- TLBINV_STAGE2_PAGE (R384). It brings the partition and the value written. -/
def execTlbinvStage2Page (s : State) : Res := .next (s.tlbinvWrite s.ev.a 0 s.ev.b)
/-- TLBINV_PARTITION (R384). It brings the partition and the value written. -/
def execTlbinvPartition (s : State) : Res := .next (s.tlbinvWrite s.ev.a 0 s.ev.b)

/-- INVALIDATION_COMPLETE (R385): once every access that used the entries has been performed, INVDONE counts. It brings the
invalidation. -/
def State.invalDone (s : State) (id : Nat) : State :=
  match s.invals.find? fun x => x.id == id with
  | none => s
  | some x =>
    if x.reqs.any (fun r => (s.req? r).isSome) || x.regs.any s.regq.contains then s.push .invalidationComplete { a := id }
    else
      let s : State := { s with invals := s.invals.filter fun y => y.id != id }
      match x.vf with
      | some v => s.updVf v fun y => { y with invdone := y.invdone + 1 }
      | none => s

/-- INVALIDATION_COMPLETE. DEDUCED (log 48). -/
def execInvalidationComplete (s : State) : Res := .next (s.invalDone s.ev.a)

end Sys2Proof.Machine
end

