-- ==== Sys2Proof/Machine/Kernel.lean ====
section
/-! DEFINITION. SGET and SSET (R114, R115, R39): the user registers of System.lean, and the kernel-mode registers, which a wave of a
service group reaches and which act for the context of the record that it serves (R374). -/

namespace Sys2Proof.Machine

open Host

/-- A kernel-mode register as SGET reads it, for the partition and the context that the group serves; what is write-only reads as
zero (R4). None for a number that names no register. -/
def State.kernelRead (s : State) (gr : Group) (n : Nat) : Option DWord :=
  let ctx := gr.servedCtx
  let part (f : Part → DWord) : Option DWord := some (match s.servedPart gr with | some p => f p | none => 0)
  let own (f : Ctx → DWord) : Option DWord := some (match s.ctx? ctx with | some c => f c | none => 0)
  if n = 0x100 then part Part.mode
  else if n = 0x101 then some (BitVec.ofNat 64 ctx)
  else if n = 0x102 then part fun p => BitVec.ofNat 64 (p.n * 2 ^ 32 + p.wedges.toNat)
  else if n = 0x106 then part Part.migthr
  else if n = 0x107 then own fun c => c.wdog.setWidth 64
  else if n = 0x108 then own Ctx.secovf
  else if n = 0x109 then part Part.fwdcfg
  else if n = 0x10A then part Part.borrowcfg
  else if n = 0x10B then some 0
  else if n = 0x10C then part Part.dispcfg
  else if n = 0x10D then some 0
  else none

/-- A write of a kernel-mode register by wave w of a group, for the partition and the context that it serves (R374). Read-only
registers keep their values (R4). -/
def State.kernelWrite (s : State) (gr : Group) (w n : Nat) (v : DWord) : State :=
  let ctx := gr.servedCtx
  match s.servedPart gr with
  | none => s
  | some p =>
    if n = 0x100 then s.modeWrite p.n v
    else if n = 0x107 || n = 0x108 then s.regWrite n ctx v
    else if n = 0x10A then s.borrowWrite p.n v.toNat
    else if n = 0x10B then s.tlbinvWrite p.n (vfOf ctx) v.toNat (some (gr.g, w))
    else if n = 0x10D then s.ctxctl p.n v
    else s.regWrite n p.n v

/-- Numbers that name a system register for the issuing wave: a user wave takes PRIVILEGED at every kernel-mode number (R39). -/
def State.sysNamed (s : State) (i : Iss) (n : Nat) : Bool :=
  if kernelReg n then !i.grp.kernel || (s.kernelRead i.grp n).isSome else (s.sysRead i n).isSome
/-- The word traps with PRIVILEGED. -/
def Iss.mayNot (i : Iss) (n : Nat) : Bool := kernelReg n && !i.grp.kernel

/-- The operands of a word of a kernel-mode wave that names a kernel-mode register, checked once it is known that it may. -/
def State.kernelIssue (s : State) (i : Iss) (srcs : List Src) (dsts : List (Bool × Nat)) (k : Res) : Res :=
  match s.checkAll i i.wv srcs dsts with
  | .wait w => .next (s.block i w)
  | .trap c f => .next (s.trap i c 0 f)
  | .go => k

/-- R114, R115: S[d] takes the register's value; a read of HBEAT fills at the next tick. DEDUCED (log 63). -/
def execSget (d : BitVec 7) (n : BitVec 11) (s : State) : Res :=
  s.issue {} (fun i => sOk i.wv d.toNat && s.sysNamed i n.toNat) false []
    (if kernelReg n.toNat then [] else [(true, d.toNat)]) fun i =>
    if i.mayNot n.toNat then .next (s.privileged i n.toNat)
    else if kernelReg n.toNat then
      s.kernelIssue i [] [(true, d.toNat)] (.next
        ((s.updCur i fun w => w.setS d.toNat ((s.kernelRead i.grp n.toNat).getD 0) tRAW).retire i))
    else if n = 0x010 then
      let f : Fill := ⟨s.seq, i.c.g, i.c.w, d.toNat, none, 4, 0, 0, []⟩
      .next ((({ s.fresh with fills := s.fills ++ [f] } : State).updCur i fun w => w.emptyS d.toNat).retire i)
    else
      let v := (s.sysRead i n.toNat).getD 0
      let r := if n = 0x011 then s.detInput i.ln.id 5 (detWhere i.grp i.wv.w 0) v [] else (s, v, [])
      .next ((r.1.updCur i fun w => w.setS d.toNat r.2.1 tRAW).retire i)

/-- R114, R396: the register takes the value of S[a]. -/
def execSset (a : BitVec 7) (n : BitVec 11) (s : State) : Res :=
  s.issue {} (fun i => sOk i.wv a.toNat && s.sysNamed i n.toNat) false
    (if kernelReg n.toNat then [] else sSrcs [(0, a.toNat)]) [] fun i =>
    if i.mayNot n.toNat then .next (s.privileged i n.toNat)
    else
      let x := (i.wv.sreg a.toNat).val
      if kernelReg n.toNat then
        s.kernelIssue i (sSrcs [(0, a.toNat)]) [] (.next ((s.kernelWrite i.grp i.c.w n.toNat x).retire i))
      else
        let s := s.updCur i fun w => w.sysWrite n.toNat x i.fr.frame
        -- MSTAT: FAULT and DISCARD clear where S[a] holds ones (R202)
        let s := if n = 0x042 then s.updGroup i.c.g fun g => { g with mstat := g.mstat &&& ~~~(x.setWidth 32 &&& 0xC0000000) } else s
        .next (s.retire i)

end Sys2Proof.Machine
end

