-- ==== Sys2Proof/Machine/LaneArith.lean ====
section
/-! DEFINITION. The lane arithmetic, exchange and movement words of majors 0x00 to 0x19 (R146 to R172). -/

namespace Sys2Proof.Machine

/-! ## Shapes of lane operations -/

/-- Values and flags of the lanes of a mask. -/
def mapLanes (who : LaneMask) (f : Nat → Nat × FpFlags) : List Nat × FpFlags :=
  let rs := (List.range 32).map fun l => if who.getLsbD l then f l else (0, 0)
  (rs.map (·.1), rs.foldl (fun a r => a ||| r.2) 0)

/-- Lane l of operand k. -/
def at_ (vals : List (List Nat)) (k l : Nat) : Nat := (vals.getD k []).getD l 0

/-- One destination register with one tag. -/
def out1 (d : Nat) (tag : BitVec 4) (r : List Nat × FpFlags) : LaneOut := .ok [(d, tag, r.1)] r.2

/-- A pair of destination registers from 64-bit values (R122). -/
def outPair (d : Nat) (lo hi : BitVec 4) (r : List Nat × FpFlags) : LaneOut :=
  .ok [(d, lo, r.1.map (· % 2 ^ 32)), (d + 1, hi, r.1.map (· / 2 ^ 32))] r.2

def accRep (d a b : Bool) : Accepts := { rep := some (d, a, b) }

/-- d ← f a b. -/
def op2 (rd : Reader) (tag : BitVec 4) (f : Rnd → Nat → Nat → Nat × FpFlags) (d a b : Nat) (ea eb : Bool) : LaneOp where
  srcs _ := [⟨0, false, a, 1, rd, ea⟩, ⟨1, false, b, 1, rd, eb⟩]
  dsts _ := [d]
  run _ m who v := out1 d tag (mapLanes who fun l => f m (at_ v 0 l) (at_ v 1 l))

/-- d ← f a b z, z the old d (R147). -/
def op3 (rd : Reader) (tag : BitVec 4) (f : Rnd → Nat → Nat → Nat → Nat × FpFlags) (d a b : Nat) (ea eb : Bool) :
    LaneOp where
  srcs _ := [⟨0, false, a, 1, rd, ea⟩, ⟨1, false, b, 1, rd, eb⟩, ⟨3, false, d, 1, rd, false⟩]
  dsts _ := [d]
  run _ m who v := out1 d tag (mapLanes who fun l => f m (at_ v 0 l) (at_ v 1 l) (at_ v 2 l))

/-- d ← f a. -/
def op1 (rd : Reader) (tag : BitVec 4) (f : Rnd → Nat → Nat × FpFlags) (d a : Nat) (ea : Bool) : LaneOp where
  srcs _ := [⟨0, false, a, 1, rd, ea⟩]
  dsts _ := [d]
  run _ m who v := out1 d tag (mapLanes who fun l => f m (at_ v 0 l))

/-- FP64 pairs (R156): d pair ← f a b. -/
def opD2 (f : Rnd → Nat → Nat → Nat × FpFlags) (d a b : Nat) (ea eb : Bool) : LaneOp where
  srcs _ := [⟨0, false, a, 2, .pair, ea⟩, ⟨1, false, b, 2, .pair, eb⟩]
  dsts _ := [d, d + 1]
  extra _ := even a && even b && even d
  run _ m who v := outPair d tFP64L tFP64H (mapLanes who fun l => f m (at_ v 0 l) (at_ v 1 l))

/-- Comparison of FP64 pairs into one register. -/
def opDC (f : Nat → Nat → Bool × FpFlags) (d a b : Nat) (ea eb : Bool) : LaneOp where
  srcs _ := [⟨0, false, a, 2, .pair, ea⟩, ⟨1, false, b, 2, .pair, eb⟩]
  dsts _ := [d]
  extra _ := even a && even b
  run _ _ who v := out1 d tI32 (mapLanes who fun l =>
    let r := f (at_ v 0 l) (at_ v 1 l)
    (if r.1 then 0xFFFFFFFF else 0, r.2))

/-- R148. -/
def cmp32 (b : Bool) : Nat := if b then 0xFFFFFFFF else 0
def noFl (n : Nat) : Nat × FpFlags := (n, 0)
def w32 (x : Nat) : Word := BitVec.ofNat 32 x

/-- The integer and logic results of R150 and R151, on lane words. -/
def mulh32 (x y : Word) : Word := BitVec.ofInt 32 (x.toInt * y.toInt / 2 ^ 32)
def div32 (x y : Word) : Word :=
  if y = 0 then 0xFFFFFFFF else if x = 0x80000000 ∧ y = 0xFFFFFFFF then 0x80000000 else x.sdiv y
def divu32 (x y : Word) : Word := if y = 0 then 0xFFFFFFFF else x / y
def rem32 (x y : Word) : Word :=
  if y = 0 then x else if x = 0x80000000 ∧ y = 0xFFFFFFFF then 0 else x.srem y
def clz (w x : Nat) : Nat := if x = 0 then w else w - 1 - Nat.log2 x
def popc (w x : Nat) : Nat := ((List.range w).filter fun k => ebit x k).length
def abs32 (x : Word) : Word := if x.msb then -x else x
def shiftKind32 (k : Nat) (x : Word) (n : Nat) : Word :=
  if k = 0 then x <<< n else if k = 1 then x >>> n else if k = 2 then x.sshiftRight n else x.rotateLeft n

/-- Two-source word on lane words. -/
def int2 (rd : Reader) (tag : BitVec 4) (f : Word → Word → Word) := op2 rd tag fun _ x y => noFl (f (w32 x) (w32 y)).toNat
def cmpI (f : Word → Word → Bool) := op2 .int tI32 fun _ x y => noFl (cmp32 (f (w32 x) (w32 y)))
/-- FP32 word. -/
def f2 (f : Rnd → Nat → Nat → Nat × FpFlags) := op2 .fp32 tFP32 f
def fCmp (f : Nat → Nat → Bool × FpFlags) := op2 .fp32 tI32 fun _ x y => (cmp32 (f x y).1, (f x y).2)
/-- Packed word (R157): two elements of 16 bits. -/
def pk2 (rd : Reader) (tag : BitVec 4) (f : Rnd → Nat → Nat → Nat × FpFlags) := op2 rd tag fun m x y =>
  let lo := f m (x % 65536) (y % 65536)
  let hi := f m (x / 65536) (y / 65536)
  (lo.1 + 65536 * hi.1, lo.2 ||| hi.2)
def pk3 (rd : Reader) (tag : BitVec 4) (f : Rnd → Nat → Nat → Nat → Nat × FpFlags) := op3 rd tag fun m x y z =>
  let lo := f m (x % 65536) (y % 65536) (z % 65536)
  let hi := f m (x / 65536) (y / 65536) (z / 65536)
  (lo.1 + 65536 * hi.1, lo.2 ||| hi.2)

/-- Run a VV word with three register fields. -/
def vv3 (d a b : BitVec 7) (ea eb : Bool) (op : Nat → Nat → Nat → Bool → Bool → LaneOp) (s : State) : Res :=
  laneWord (accRep true true true) d.toNat a.toNat b.toNat (fun _ d a b => op d a b ea eb) s
/-- Run a VV word with fields d and a. -/
def vv2 (d a : BitVec 7) (ea : Bool) (op : Nat → Nat → Bool → LaneOp) (s : State) : Res :=
  laneWord (accRep true true false) d.toNat a.toNat 0 (fun _ d a _ => op d a ea) s
/-- Run a VI word (R29, R31). -/
def vi (d a : BitVec 7) (n : BitVec 11) (rd : Reader) (tag : BitVec 4) (f : Word → Word → Word) (s : State) : Res :=
  laneWord { imm := true, rep := some (true, true, false) } d.toNat a.toNat 0
    (fun c d a _ => op1 rd tag (fun _ x => noFl (f (w32 x) (imm32 c 11 n.toNat)).toNat) d a false) s

/-! ## Integer and logic (R150, R151) -/

/-- R150: x + y. -/
def execVadd (d a b : BitVec 7) (ea eb : Bool) (s : State) : Res := vv3 d a b ea eb (int2 .int tI32 (· + ·)) s
/-- R150: x − y. -/
def execVsub (d a b : BitVec 7) (ea eb : Bool) (s : State) : Res := vv3 d a b ea eb (int2 .int tI32 (· - ·)) s
/-- R150: low half of the product. -/
def execVmul (d a b : BitVec 7) (ea eb : Bool) (s : State) : Res := vv3 d a b ea eb (int2 .int tI32 (· * ·)) s
/-- R150: high half of the signed product. -/
def execVmulh (d a b : BitVec 7) (ea eb : Bool) (s : State) : Res := vv3 d a b ea eb (int2 .int tI32 mulh32) s
/-- R150. -/
def execVand (d a b : BitVec 7) (ea eb : Bool) (s : State) : Res := vv3 d a b ea eb (int2 .bit tRAW (· &&& ·)) s
/-- R150. -/
def execVor (d a b : BitVec 7) (ea eb : Bool) (s : State) : Res := vv3 d a b ea eb (int2 .bit tRAW (· ||| ·)) s
/-- R150. -/
def execVxor (d a b : BitVec 7) (ea eb : Bool) (s : State) : Res := vv3 d a b ea eb (int2 .bit tRAW (· ^^^ ·)) s
/-- R150: x AND NOT y. -/
def execVandn (d a b : BitVec 7) (ea eb : Bool) (s : State) : Res :=
  vv3 d a b ea eb (int2 .bit tRAW fun x y => x &&& ~~~y) s
/-- R150: shift left by y[4:0]. -/
def execVshl (d a b : BitVec 7) (ea eb : Bool) (s : State) : Res :=
  vv3 d a b ea eb (int2 .bit tRAW fun x y => x <<< (y.toNat % 32)) s
/-- R150: logical shift right. -/
def execVshr (d a b : BitVec 7) (ea eb : Bool) (s : State) : Res :=
  vv3 d a b ea eb (int2 .bit tRAW fun x y => x >>> (y.toNat % 32)) s
/-- R150: arithmetic shift right. -/
def execVsar (d a b : BitVec 7) (ea eb : Bool) (s : State) : Res :=
  vv3 d a b ea eb (int2 .bit tRAW fun x y => x.sshiftRight (y.toNat % 32)) s
/-- R150: rotate left. -/
def execVrot (d a b : BitVec 7) (ea eb : Bool) (s : State) : Res :=
  vv3 d a b ea eb (int2 .bit tRAW fun x y => x.rotateLeft (y.toNat % 32)) s
/-- R150: signed minimum. -/
def execVmin (d a b : BitVec 7) (ea eb : Bool) (s : State) : Res :=
  vv3 d a b ea eb (int2 .int tI32 fun x y => if y.slt x then y else x) s
/-- R150: signed maximum. -/
def execVmax (d a b : BitVec 7) (ea eb : Bool) (s : State) : Res :=
  vv3 d a b ea eb (int2 .int tI32 fun x y => if x.slt y then y else x) s
/-- R150: unsigned minimum. -/
def execVminu (d a b : BitVec 7) (ea eb : Bool) (s : State) : Res :=
  vv3 d a b ea eb (int2 .int tI32 fun x y => if y < x then y else x) s
/-- R150: unsigned maximum. -/
def execVmaxu (d a b : BitVec 7) (ea eb : Bool) (s : State) : Res :=
  vv3 d a b ea eb (int2 .int tI32 fun x y => if x < y then y else x) s
/-- R150, R148. -/
def execVceq (d a b : BitVec 7) (ea eb : Bool) (s : State) : Res := vv3 d a b ea eb (cmpI fun x y => x = y) s
/-- R150, R148. -/
def execVcne (d a b : BitVec 7) (ea eb : Bool) (s : State) : Res := vv3 d a b ea eb (cmpI fun x y => x ≠ y) s
/-- R150, R148. -/
def execVclt (d a b : BitVec 7) (ea eb : Bool) (s : State) : Res := vv3 d a b ea eb (cmpI fun x y => x.slt y) s
/-- R150, R148. -/
def execVcltu (d a b : BitVec 7) (ea eb : Bool) (s : State) : Res := vv3 d a b ea eb (cmpI fun x y => x < y) s

/-- VSEL's operation: z selects; the tag is a's when a and b carry one tag. -/
def opSel (d a b : Nat) (ea eb : Bool) : LaneOp where
  srcs _ := [⟨0, false, a, 1, .bit, ea⟩, ⟨1, false, b, 1, .bit, eb⟩, ⟨3, false, d, 1, .bit, false⟩]
  dsts _ := [d]
  run wv _ who v := out1 d (if (wv.vreg a).tag = (wv.vreg b).tag then (wv.vreg a).tag else tRAW) (mapLanes who fun l =>
    noFl ((w32 (at_ v 0 l) &&& w32 (at_ v 2 l)) ||| (w32 (at_ v 1 l) &&& ~~~ w32 (at_ v 2 l))).toNat)
/-- R150. -/
def execVsel (d a b : BitVec 7) (ea eb : Bool) (s : State) : Res := vv3 d a b ea eb opSel s
/-- R150. -/
def execVabs (d a : BitVec 7) (ea : Bool) (s : State) : Res :=
  vv2 d a ea (op1 .int tI32 fun _ x => noFl (abs32 (w32 x)).toNat) s
/-- R150. -/
def execVclz (d a : BitVec 7) (ea : Bool) (s : State) : Res := vv2 d a ea (op1 .bit tI32 fun _ x => noFl (clz 32 x)) s
/-- R150. -/
def execVpopc (d a : BitVec 7) (ea : Bool) (s : State) : Res := vv2 d a ea (op1 .bit tI32 fun _ x => noFl (popc 32 x)) s
/-- R150: x × y + z. -/
def execVmad (d a b : BitVec 7) (ea eb : Bool) (s : State) : Res :=
  vv3 d a b ea eb (op3 .int tI32 fun _ x y z => noFl (w32 x * w32 y + w32 z).toNat) s
/-- R151. -/
def execVdiv (d a b : BitVec 7) (ea eb : Bool) (s : State) : Res := vv3 d a b ea eb (int2 .int tI32 div32) s
/-- R151. -/
def execVdivu (d a b : BitVec 7) (ea eb : Bool) (s : State) : Res := vv3 d a b ea eb (int2 .int tI32 divu32) s
/-- R151. -/
def execVrem (d a b : BitVec 7) (ea eb : Bool) (s : State) : Res := vv3 d a b ea eb (int2 .int tI32 rem32) s
/-- R150. -/
def execVaddi (d a : BitVec 7) (i : BitVec 11) (s : State) : Res := vi d a i .int tI32 (· + ·) s
/-- R150. -/
def execVandi (d a : BitVec 7) (i : BitVec 11) (s : State) : Res := vi d a i .bit tRAW (· &&& ·) s
/-- R150. -/
def execVori (d a : BitVec 7) (i : BitVec 11) (s : State) : Res := vi d a i .bit tRAW (· ||| ·) s
/-- R150. -/
def execVxori (d a : BitVec 7) (i : BitVec 11) (s : State) : Res := vi d a i .bit tRAW (· ^^^ ·) s
/-- R150, R29: shift by an immediate count. -/
def execVshi (d a : BitVec 7) (k : BitVec 2) (n : BitVec 5) (s : State) : Res :=
  laneWord (accRep true true false) d.toNat a.toNat 0
    (fun _ d a _ => op1 .bit tRAW (fun _ x => noFl (shiftKind32 k.toNat (w32 x) n.toNat).toNat) d a false) s
/-- R150: the immediate in every lane. -/
def execVmovi (d : BitVec 7) (i : BitVec 11) (s : State) : Res :=
  laneWord { imm := true, rep := some (true, false, false) } d.toNat 0 0
    (fun c d _ _ =>
      { srcs := fun _ => [], dsts := fun _ => [d]
        run := fun _ _ who _ => out1 d tI32 (mapLanes who fun _ => noFl (imm32 c 11 i.toNat).toNat) }) s

/-! ## FP32 (R152 to R155) -/

/-- R152. -/
def execVfadd (d a b : BitVec 7) (ea eb : Bool) (s : State) : Res := vv3 d a b ea eb (f2 Fmt.fp32.add) s
/-- R152. -/
def execVfsub (d a b : BitVec 7) (ea eb : Bool) (s : State) : Res := vv3 d a b ea eb (f2 Fmt.fp32.sub) s
/-- R152. -/
def execVfmul (d a b : BitVec 7) (ea eb : Bool) (s : State) : Res := vv3 d a b ea eb (f2 Fmt.fp32.mul) s
/-- R154. -/
def execVfmin (d a b : BitVec 7) (ea eb : Bool) (s : State) : Res :=
  vv3 d a b ea eb (f2 fun _ => Fmt.fp32.minMax false) s
/-- R152: one rounding of a × b + z. -/
def execVfma (d a b : BitVec 7) (ea eb : Bool) (s : State) : Res := vv3 d a b ea eb (op3 .fp32 tFP32 Fmt.fp32.fma) s
/-- R152: one rounding of z − a × b. -/
def execVfnma (d a b : BitVec 7) (ea eb : Bool) (s : State) : Res := vv3 d a b ea eb (op3 .fp32 tFP32 Fmt.fp32.fnma) s
/-- R154. -/
def execVfmax (d a b : BitVec 7) (ea eb : Bool) (s : State) : Res :=
  vv3 d a b ea eb (f2 fun _ => Fmt.fp32.minMax true) s
/-- R152: exact, no flag. -/
def execVfcpsgn (d a b : BitVec 7) (ea eb : Bool) (s : State) : Res :=
  vv3 d a b ea eb (f2 fun _ x y => noFl (Fmt.fp32.copySign x y)) s
/-- R155. -/
def execVfceq (d a b : BitVec 7) (ea eb : Bool) (s : State) : Res := vv3 d a b ea eb (fCmp Fmt.fp32.ceq) s
/-- R155. -/
def execVfclt (d a b : BitVec 7) (ea eb : Bool) (s : State) : Res := vv3 d a b ea eb (fCmp Fmt.fp32.clt) s
/-- R155. -/
def execVfcle (d a b : BitVec 7) (ea eb : Bool) (s : State) : Res := vv3 d a b ea eb (fCmp Fmt.fp32.cle) s
/-- R155. -/
def execVfcun (d a b : BitVec 7) (ea eb : Bool) (s : State) : Res := vv3 d a b ea eb (fCmp Fmt.fp32.cun) s

/-! ## FP64 pairs (R156) -/

/-- R156. -/
def execVdadd (d a b : BitVec 7) (ea eb : Bool) (s : State) : Res := vv3 d a b ea eb (opD2 Fmt.fp64.add) s
/-- R156. -/
def execVdsub (d a b : BitVec 7) (ea eb : Bool) (s : State) : Res := vv3 d a b ea eb (opD2 Fmt.fp64.sub) s
/-- R156. -/
def execVdmul (d a b : BitVec 7) (ea eb : Bool) (s : State) : Res := vv3 d a b ea eb (opD2 Fmt.fp64.mul) s
/-- VDFMA's operation, z the pair d. -/
def opDfma (d a b : Nat) (ea eb : Bool) : LaneOp where
  srcs _ := [⟨0, false, a, 2, .pair, ea⟩, ⟨1, false, b, 2, .pair, eb⟩, ⟨3, false, d, 2, .pair, false⟩]
  dsts _ := [d, d + 1]
  extra _ := even a && even b && even d
  run _ m who v :=
    outPair d tFP64L tFP64H (mapLanes who fun l => Fmt.fp64.fma m (at_ v 0 l) (at_ v 1 l) (at_ v 2 l))
/-- R156. -/
def execVdfma (d a b : BitVec 7) (ea eb : Bool) (s : State) : Res := vv3 d a b ea eb opDfma s
/-- R154, R156. -/
def execVdmin (d a b : BitVec 7) (ea eb : Bool) (s : State) : Res :=
  vv3 d a b ea eb (opD2 fun _ => Fmt.fp64.minMax false) s
/-- R154, R156. -/
def execVdmax (d a b : BitVec 7) (ea eb : Bool) (s : State) : Res :=
  vv3 d a b ea eb (opD2 fun _ => Fmt.fp64.minMax true) s
/-- R155, R156. -/
def execVdceq (d a b : BitVec 7) (ea eb : Bool) (s : State) : Res := vv3 d a b ea eb (opDC Fmt.fp64.ceq) s
/-- R155, R156. -/
def execVdclt (d a b : BitVec 7) (ea eb : Bool) (s : State) : Res := vv3 d a b ea eb (opDC Fmt.fp64.clt) s

/-! ## Packed halves (R157) -/

/-- R157. -/
def execVhadd (d a b : BitVec 7) (ea eb : Bool) (s : State) : Res := vv3 d a b ea eb (pk2 .fp16x2 tFP16 Fmt.fp16.add) s
/-- R157. -/
def execVhmul (d a b : BitVec 7) (ea eb : Bool) (s : State) : Res := vv3 d a b ea eb (pk2 .fp16x2 tFP16 Fmt.fp16.mul) s
/-- R157. -/
def execVhfma (d a b : BitVec 7) (ea eb : Bool) (s : State) : Res := vv3 d a b ea eb (pk3 .fp16x2 tFP16 Fmt.fp16.fma) s
/-- R154, R157. -/
def execVhmax (d a b : BitVec 7) (ea eb : Bool) (s : State) : Res :=
  vv3 d a b ea eb (pk2 .fp16x2 tFP16 fun _ => Fmt.fp16.minMax true) s
/-- R157. -/
def execVbadd (d a b : BitVec 7) (ea eb : Bool) (s : State) : Res := vv3 d a b ea eb (pk2 .bf16x2 tBF16 Fmt.bf16.add) s
/-- R157. -/
def execVbmul (d a b : BitVec 7) (ea eb : Bool) (s : State) : Res := vv3 d a b ea eb (pk2 .bf16x2 tBF16 Fmt.bf16.mul) s
/-- R157. -/
def execVbfma (d a b : BitVec 7) (ea eb : Bool) (s : State) : Res := vv3 d a b ea eb (pk3 .bf16x2 tBF16 Fmt.bf16.fma) s
/-- R154, R157. -/
def execVbmax (d a b : BitVec 7) (ea eb : Bool) (s : State) : Res :=
  vv3 d a b ea eb (pk2 .bf16x2 tBF16 fun _ => Fmt.bf16.minMax true) s

/-! ## Transcendentals and classification (R158 to R160) -/

/-- R158. -/
def execVrcp (d a : BitVec 7) (ea : Bool) (s : State) : Res := vv2 d a ea (op1 .fp32 tFP32 fun _ => vrcp32) s
/-- R158. -/
def execVrsq (d a : BitVec 7) (ea : Bool) (s : State) : Res := vv2 d a ea (op1 .fp32 tFP32 fun _ => vrsq32) s
/-- R158: correctly rounded. -/
def execVsqrt (d a : BitVec 7) (ea : Bool) (s : State) : Res := vv2 d a ea (op1 .fp32 tFP32 Fmt.fp32.sqrt) s
/-- R158. -/
def execVexp2 (d a : BitVec 7) (ea : Bool) (s : State) : Res := vv2 d a ea (op1 .fp32 tFP32 fun _ => vexp232) s
/-- R158. -/
def execVlog2 (d a : BitVec 7) (ea : Bool) (s : State) : Res := vv2 d a ea (op1 .fp32 tFP32 fun _ => vlog232) s
/-- R158. -/
def execVsin (d a : BitVec 7) (ea : Bool) (s : State) : Res := vv2 d a ea (op1 .fp32 tFP32 fun _ => vsincos32 false) s
/-- R158. -/
def execVcos (d a : BitVec 7) (ea : Bool) (s : State) : Res := vv2 d a ea (op1 .fp32 tFP32 fun _ => vsincos32 true) s
/-- R160. -/
def execVfclass (d a : BitVec 7) (ea : Bool) (s : State) : Res :=
  vv2 d a ea (op1 .fp32 tI32 fun _ x => noFl (2 ^ Fmt.fp32.classBit x)) s

/-! ## Conversions and tags (R161 to R167) -/

/-- Element format of a tag code. -/
def elemOfTag (t : Nat) : Elem :=
  if t = 2 then .flt .fp32 else if t = 4 then .flt .fp64 else if t = 5 then .flt .fp16 else if t = 6 then .flt .bf16
  else if t = 7 then .flt .e4m3 else if t = 8 then .flt .e5m2 else if t = 9 then .int 8 else if t = 10 then .int 16
  else if t = 12 then .int 64 else .int 32

/-- The groups of R162: 1 single, 2 half, 4 quarter (elements per register), 0 wide, 9 for a tag that is none. -/
def groupOfTag (t : Nat) : Nat :=
  if t = 0 ∨ t = 14 ∨ t = 11 ∨ t = 1 ∨ t = 2 then 1
  else if t = 5 ∨ t = 6 ∨ t = 10 then 2
  else if t = 7 ∨ t = 8 ∨ t = 9 then 4
  else if t = 4 ∨ t = 12 then 0 else 9

/-- The source format VCVT takes (R162): group and whether it is a readable pair. -/
def cvtGroup (wv : Wave) (a : Nat) : Nat :=
  let g := groupOfTag (wv.vreg a).tag.toNat
  if g = 0 ∧ ¬ (even a ∧ a + 1 < wv.vcount) then 9 else g

/-- One element under a selector. -/
def cvtSel (sel : Nat) (src dst : Elem) (x : Nat) : Nat × FpFlags :=
  cvtElem (.sel (ebit sel 6)) (BitVec.ofNat 2 (sel / 16)) src dst x

def wideTgt (t : Nat) : Bool := t = 4 || t = 12

/-- VCVT (R163). -/
def opCvt (d a sel : Nat) (ea : Bool) : LaneOp where
  srcs wv := [⟨0, false, a, if cvtGroup wv a = 0 then 2 else 1, .bit, ea⟩]
  dsts _ := if wideTgt (sel % 16) then [d, d + 1] else [d]
  extra _ := cvtTarget true (BitVec.ofNat 7 sel) && decide (sel < 128) && (!wideTgt (sel % 16) || even d)
  mismatch wv :=
    let sg := cvtGroup wv a
    let dg := groupOfTag (sel % 16)
    if sg = 9 ∨ ¬ (sg = dg ∨ (sg = 0 ∧ dg = 1) ∨ (sg = 1 ∧ dg = 0)) then some (sel % 16, (wv.vreg a).tag.toNat) else none
  run wv _ who v :=
    let sg := cvtGroup wv a
    let tgt := sel % 16
    let se := elemOfTag (wv.vreg a).tag.toNat
    let de := elemOfTag tgt
    let n := if sg = 0 then 1 else sg
    let r := mapLanes who fun l =>
      let es := (elems n se.width (at_ v 0 l)).map (cvtSel sel se de)
      (packElems de.width (es.map (·.1)), es.foldl (fun f e => f ||| e.2) 0)
    if tgt = 4 then outPair d tFP64L tFP64H r
    else if tgt = 12 then outPair d tI64 tI64 r
    else out1 d (BitVec.ofNat 4 tgt) r
/-- R163. -/
def execVcvt (d a s7 : BitVec 7) (ea : Bool) (s : State) : Res :=
  laneWord (accRep true true true) d.toNat a.toNat s7.toNat (fun _ d a b => opCvt d a b ea) s

/-- Registers a packing or unpacking VCVTS reads and writes: counts by group pair; none when the pair is no row of R164. -/
def cvtsShape (sg dg : Nat) : Option (Nat × Nat) :=
  if sg = 1 ∧ (dg = 2 ∨ dg = 4) then some (dg, 1)
  else if sg = 2 ∧ dg = 4 then some (2, 1)
  else if (sg = 2 ∨ sg = 4) ∧ dg = 1 then some (1, sg)
  else if sg = 4 ∧ dg = 2 then some (1, 2) else none

/-- VCVTS (R164). -/
def opCvts (d a sel : Nat) (ea : Bool) : LaneOp where
  srcs wv :=
    let n := match cvtsShape (groupOfTag (wv.vreg a).tag.toNat) (groupOfTag (sel % 16)) with
      | some (n, _) => n
      | none => 1
    (List.range n).map fun k => ⟨0, false, a + k, 1, .bit, ea⟩
  dsts wv :=
    let n := match cvtsShape (groupOfTag (wv.vreg a).tag.toNat) (groupOfTag (sel % 16)) with
      | some (_, n) => n
      | none => 1
    (List.range n).map (d + ·)
  extra wv := cvtTarget false (BitVec.ofNat 7 sel) && decide (sel < 128) && vOk wv (a + 3) && vOk wv (d + 3)
  mismatch wv :=
    let sg := groupOfTag (wv.vreg a).tag.toNat
    match cvtsShape sg (groupOfTag (sel % 16)) with
    | none => some (sel % 16, (wv.vreg a).tag.toNat)
    | some (ns, _) =>
      ((List.range ns).find? fun k => groupOfTag (wv.vreg (a + k)).tag.toNat != sg).map fun k =>
        (sel % 16, (wv.vreg (a + k)).tag.toNat)
  run wv _ who v :=
    let tgt := sel % 16
    let sg := groupOfTag (wv.vreg a).tag.toNat
    let dg := groupOfTag tgt
    let n := (cvtsShape sg dg).getD (1, 1)
    let de := elemOfTag tgt
    -- every element of the sources in order, each from its own register's format
    let all : Nat → List (Nat × FpFlags) := fun l => (List.range n.1).flatMap fun k =>
      let se := elemOfTag (wv.vreg (a + k)).tag.toNat
      (elems sg se.width (at_ v k l)).map (cvtSel sel se de)
    let rows := (List.range n.2).map fun k =>
      mapLanes who fun l =>
        let es := ((all l).drop (k * dg)).take dg
        (packElems de.width (es.map (·.1)), es.foldl (fun f e => f ||| e.2) 0)
    .ok ((List.range n.2).map fun k => (d + k, BitVec.ofNat 4 tgt, (rows.getD k ([], 0)).1))
      (rows.foldl (fun f r => f ||| r.2) 0)
/-- R164. -/
def execVcvts (d a s7 : BitVec 7) (ea : Bool) (s : State) : Res :=
  laneWord (accRep true true true) d.toNat a.toNat s7.toNat (fun _ d a b => opCvts d a b ea) s

/-- VRETAG (R166): a stepped code above 14 is illegal. -/
def opRetag (d a c : Nat) (ea : Bool) : LaneOp where
  srcs _ := [⟨0, false, a, 1, .bit, ea⟩]
  dsts _ := [d]
  extra _ := decide (c < 15)
  run _ _ who v := out1 d (BitVec.ofNat 4 c) (mapLanes who fun l => noFl (at_ v 0 l))
/-- R166. -/
def execVretag (d a : BitVec 7) (c : BitVec 4) (ea : Bool) (s : State) : Res :=
  laneWord (accRep true true true) d.toNat a.toNat c.toNat (fun _ d a b => opRetag d a b ea) s
/-- R167. -/
def opGettag (d a : Nat) (ea : Bool) : LaneOp where
  srcs _ := [⟨0, false, a, 1, .bit, ea⟩]
  dsts _ := [d]
  run wv _ who _ := out1 d tI32 (mapLanes who fun _ => noFl (wv.vreg a).tag.toNat)
/-- R167. -/
def execVgettag (d a : BitVec 7) (ea : Bool) (s : State) : Res := vv2 d a ea opGettag s

/-! ## Quad and wave exchange (R168 to R172) -/

/-- A word without REP. -/
def plainLane (d a b : BitVec 7) (op : LaneOp) (s : State) : Res :=
  laneWord {} d.toNat a.toNat b.toNat (fun _ _ _ _ => op) s

/-- A lane move within the wave: lane l receives lane `f l` of a, with a's tag. -/
def opMove (d a : Nat) (ea : Bool) (ok : Bool) (f : Nat → Nat) : LaneOp where
  srcs _ := [⟨0, false, a, 1, .bit, ea⟩]
  dsts _ := [d]
  extra _ := ok
  run wv _ who v := out1 d (wv.vreg a).tag (mapLanes who fun l => noFl (at_ v 0 (f l)))
/-- R168. -/
def execVqswap (d a k : BitVec 7) (ea : Bool) (s : State) : Res :=
  plainLane d a 0 (opMove d.toNat a.toNat ea (decide (1 ≤ k.toNat ∧ k.toNat ≤ 3)) fun l => Nat.xor l k.toNat) s
/-- R168. -/
def execVqbcast (d a j : BitVec 7) (ea : Bool) (s : State) : Res :=
  plainLane d a 0 (opMove d.toNat a.toNat ea (decide (j.toNat ≤ 3)) fun l => l / 4 * 4 + j.toNat) s
/-- R168: difference of two lanes of the quad. -/
def opDiff (d a m : Nat) (ea : Bool) (hi lo : Nat → Nat) : LaneOp where
  srcs _ := [⟨0, false, a, 1, .fp32, ea⟩]
  dsts _ := [d]
  extra _ := decide (m ≤ 1)
  run _ md who v := out1 d tFP32 (mapLanes who fun l => Fmt.fp32.sub md (at_ v 0 (hi l)) (at_ v 0 (lo l)))
/-- R168. -/
def execVddx (d a m : BitVec 7) (ea : Bool) (s : State) : Res :=
  plainLane d a 0 (opDiff d.toNat a.toNat m.toNat ea
    (fun l => l / 4 * 4 + (if m = 0 then l / 2 % 2 * 2 else 0) + 1)
    (fun l => l / 4 * 4 + (if m = 0 then l / 2 % 2 * 2 else 0))) s
/-- R168. -/
def execVddy (d a m : BitVec 7) (ea : Bool) (s : State) : Res :=
  plainLane d a 0 (opDiff d.toNat a.toNat m.toNat ea
    (fun l => l / 4 * 4 + 2 + (if m = 0 then l % 2 else 0))
    (fun l => l / 4 * 4 + (if m = 0 then l % 2 else 0))) s

/-- R169. -/
def opShfl (d a b : Nat) (ea eb : Bool) : LaneOp where
  srcs _ := [⟨0, false, a, 1, .bit, ea⟩, ⟨1, false, b, 1, .int, eb⟩]
  dsts _ := [d]
  run wv _ who v := out1 d (wv.vreg a).tag (mapLanes who fun l => noFl (at_ v 0 (at_ v 1 l % 32)))
/-- R169. -/
def execVshfl (d a b : BitVec 7) (ea eb : Bool) (s : State) : Res :=
  plainLane d a b (opShfl d.toNat a.toNat b.toNat ea eb) s

/-- R169. -/
def opBallot (d a : Nat) (ea : Bool) : LaneOp where
  srcs _ := [⟨0, false, a, 1, .bit, ea⟩]
  dsts _ := [d]
  run _ _ who v :=
    let m := laneFilter who fun l => at_ v 0 l != 0
    out1 d tRAW (mapLanes who fun _ => noFl m.toNat)
/-- R169. -/
def execVballot (d a : BitVec 7) (ea : Bool) (s : State) : Res := plainLane d a 0 (opBallot d.toNat a.toNat ea) s

/-- The operations of R170: reader, identity, tag and combination. -/
def redOp (o : Nat) : Reader × Nat × BitVec 4 × (Rnd → Nat → Nat → Nat × FpFlags) :=
  let i2 (f : Word → Word → Word) : Rnd → Nat → Nat → Nat × FpFlags := fun _ x y => noFl (f (w32 x) (w32 y)).toNat
  match o with
  | 0 => (.int, 0, tI32, i2 (· + ·))
  | 1 => (.int, 0x7FFFFFFF, tI32, i2 fun x y => if y.slt x then y else x)
  | 2 => (.int, 0x80000000, tI32, i2 fun x y => if x.slt y then y else x)
  | 3 => (.int, 0xFFFFFFFF, tI32, i2 fun x y => if y < x then y else x)
  | 4 => (.int, 0, tI32, i2 fun x y => if x < y then y else x)
  | 5 => (.bit, 0xFFFFFFFF, tRAW, i2 (· &&& ·))
  | 6 => (.bit, 0, tRAW, i2 (· ||| ·))
  | 7 => (.bit, 0, tRAW, i2 (· ^^^ ·))
  | 8 => (.fp32, 0x80000000, tFP32, Fmt.fp32.add)
  | 9 => (.fp32, 0x7F800000, tFP32, fun _ => Fmt.fp32.minMax false)
  | _ => (.fp32, 0xFF800000, tFP32, fun _ => Fmt.fp32.minMax true)

/-- One level of R171's tree: neighbours combined, the lower first. -/
def combinePairs (f : Nat → Nat → Nat × FpFlags) : List (Option Nat) → List (Option Nat) × FpFlags
  | p :: q :: t =>
    let r := match p, q with
      | some x, some y => (some (f x y).1, (f x y).2)
      | some x, none => (some x, (0 : FpFlags))
      | none, y => (y, 0)
    let rest := combinePairs f t
    (r.1 :: rest.1, r.2 ||| rest.2)
  | t => (t, 0)

def treeLevels (f : Nat → Nat → Nat × FpFlags) : Nat → List (Option Nat) → FpFlags → List (Option Nat) × FpFlags
  | 0, l, fl => (l, fl)
  | n + 1, l, fl => let r := combinePairs f l; treeLevels f n r.1 (fl ||| r.2)

/-- An operand as a chain of combinations takes it: no payload and no sign of a NaN goes on, and a signalling one sets invalid
(R119), though it meets no other operand. -/
def redLeaf (r : Reader) (x : Nat) : Nat × FpFlags :=
  if r = .fp32 then (match Fmt.fp32.unpack x with
    | .nan s => (Fmt.fp32.nan, if s then flInvalid else 0)
    | _ => (x, 0))
  else (x, 0)

/-- VREDUCE (R170, R171). -/
def opReduce (d a o : Nat) (ea : Bool) : LaneOp where
  srcs _ := [⟨0, false, a, 1, (redOp o).1, ea⟩]
  dsts _ := [d]
  extra _ := decide (o ≤ 10)
  run _ m who v :=
    let leaf (l : Nat) : Nat × FpFlags := redLeaf (redOp o).1 (at_ v 0 l)
    let leaves := (List.range 32).map fun l => if who.getLsbD l then some (leaf l).1 else none
    let r := treeLevels ((redOp o).2.2.2 m) 5 leaves (orLanes who ((List.range 32).map fun l => (leaf l).2))
    .ok [(d, (redOp o).2.2.1, List.replicate 32 ((r.1.getD 0 none).getD 0))] r.2
/-- R170, R171. -/
def execVreduce (d a : BitVec 7) (o : BitVec 4) (ea : Bool) (s : State) : Res :=
  plainLane d a 0 (opReduce d.toNat a.toNat o.toNat ea) s

/-- The running values of VSCAN (R171): each lane's value and the flags. -/
def scanLanes (f : Nat → Nat → Nat × FpFlags) (excl : Bool) (ident : Nat) (who : LaneMask) (x : Nat → Nat) :
    List Nat → Option Nat → List Nat × FpFlags
  | [], _ => ([], 0)
  | l :: ls, acc =>
    if who.getLsbD l then
      let r := match acc with | none => (x l, (0 : FpFlags)) | some p => f p (x l)
      let rest := scanLanes f excl ident who x ls (some r.1)
      ((if excl then acc.getD ident else r.1) :: rest.1, r.2 ||| rest.2)
    else
      let rest := scanLanes f excl ident who x ls acc
      (0 :: rest.1, rest.2)

/-- VSCAN (R170, R171). -/
def opScan (d a : Nat) (excl : Bool) (o : Nat) (ea : Bool) : LaneOp where
  srcs _ := [⟨0, false, a, 1, (redOp o).1, ea⟩]
  dsts _ := [d]
  extra _ := decide (o ≤ 10)
  run _ m who v :=
    let leaf (l : Nat) : Nat × FpFlags := redLeaf (redOp o).1 (at_ v 0 l)
    let r := scanLanes ((redOp o).2.2.2 m) excl (redOp o).2.1 who (fun l => (leaf l).1) (List.range 32) none
    .ok [(d, (redOp o).2.2.1, r.1)] (r.2 ||| orLanes who ((List.range 32).map fun l => (leaf l).2))
/-- R170, R171. -/
def execVscan (d a : BitVec 7) (e : Bool) (o : BitVec 4) (ea : Bool) (s : State) : Res :=
  plainLane d a 0 (opScan d.toNat a.toNat e o.toNat ea) s

/-- R172: S[b][31:0] in each lane. -/
def execVmovs (d b : BitVec 7) (eb : Bool) (s : State) : Res :=
  plainLane d 0 b
    { srcs := fun _ => [⟨1, true, b.toNat, 1, .bit, eb⟩], dsts := fun _ => [d.toNat]
      run := fun _ _ who v => out1 d.toNat tRAW (mapLanes who fun l => noFl (at_ v 0 l % 2 ^ 32)) } s
/-- R172. -/
def execVlaneid (d : BitVec 7) (s : State) : Res :=
  plainLane d 0 0
    { srcs := fun _ => [], dsts := fun _ => [d.toNat]
      run := fun _ _ who _ => out1 d.toNat tI32 (mapLanes who noFl) } s
/-- R172: the lane that the lowest lane of F names. -/
def opReadlane (d a b : Nat) (ea eb : Bool) : LaneOp where
  srcs _ := [⟨0, false, a, 1, .bit, ea⟩, ⟨1, false, b, 1, .int, eb⟩]
  dsts _ := [d]
  run wv _ who v :=
    let i := at_ v 1 ((lanesOf who).headD 0) % 32
    out1 d (wv.vreg a).tag (mapLanes who fun _ => noFl (at_ v 0 i))
/-- R172. -/
def execVreadlane (d a b : BitVec 7) (ea eb : Bool) (s : State) : Res :=
  plainLane d a b (opReadlane d.toNat a.toNat b.toNat ea eb) s
/-- R172: lanes of F with equal patterns. -/
def opMark (d a : Nat) (ea : Bool) : LaneOp where
  srcs _ := [⟨0, false, a, 1, .bit, ea⟩]
  dsts _ := [d]
  run _ _ who v := out1 d tRAW (mapLanes who fun l => noFl (laneFilter who fun m => at_ v 0 m == at_ v 0 l).toNat)
/-- R172. -/
def execVmark (d a : BitVec 7) (ea : Bool) (s : State) : Res := plainLane d a 0 (opMark d.toNat a.toNat ea) s

end Sys2Proof.Machine
end

