-- ==== Sys2Proof/Machine/Streams.lean ====
section
/-! DEFINITION. Operand streams (R194, R195, R451) and the feeder (R83, R84, R203 to R205). -/

namespace Sys2Proof.Machine

open Host

/-! ## Streams -/

def State.stream? (s : State) (id : Nat) : Option Stream := s.streams.find? fun x => x.id == id
def State.updStream (s : State) (id : Nat) (f : Stream → Stream) : State :=
  { s with streams := s.streams.map fun x => if x.id == id then f x else x }
def Stream.sub? (st : Stream) (g : Nat) : Option Subscriber := st.subs.find? fun x => x.g == g
def Stream.updSub (st : Stream) (g : Nat) (f : Subscriber → Subscriber) : Stream :=
  { st with subs := st.subs.map fun x => if x.g == g then f x else x }
def Stream.rec_ (st : Stream) : Shape := st.shape

/-- Bytes of a slot (R194). -/
def Stream.slot (st : Stream) : Nat :=
  if st.rowKind then (st.rows * st.ks * fmtBytes st.rec_.fmt + 127) / 128 * 128 else 8192

/-- The stream (SRANK, Q) if the group subscribes to it. -/
def State.streamFor (s : State) (gr : Group) (srank q : Nat) : Option Stream :=
  match s.peer? gr srank with
  | none => none
  | some o => s.streams.find? fun x => x.g == o.g && x.q == q && (x.sub? gr.g).isSome

/-- The next block a command of the group claims (R195), if one is left. -/
def State.claim (s : State) (st : Stream) (g : Nat) : Option (State × Nat) :=
  match st.sub? g with
  | none => none
  | some x => if st.nblocks ≤ x.claimed then none
    else some (s.updStream st.id fun y => y.updSub g fun z => { z with claimed := z.claimed + 1 }, x.claimed)

/-- A subscriber has read or discarded a block: its slot is free; when every subscriber has used every block the stream ends
and its windows are unlocked (R194, R195). -/
def State.useBlock (s : State) (id g t : Nat) : State :=
  let s := s.updStream id fun y =>
    let y := y.updSub g fun z => if z.used.contains t then z else { z with used := z.used ++ [t] }
    { y with beside := y.beside.filter fun b => !(y.subs.all fun z => z.used.contains b.t) }
  match s.stream? id with
  | none => s
  | some st =>
    if (st.subs.all fun z => decide (st.nblocks ≤ z.used.length)) then
      let ctx := match s.cmd? id with | some c => c.ctx | none => 0
      (({ s with streams := s.streams.filter fun y => y.id != id } : State).unlock id).dropCmd id |>.acted ctx
    else s.push .streamBlockDelivered { a := st.g, b := st.q }

/-- The block's stored bytes in its slot's layout (R451). -/
def Stream.pack (st : Stream) (xs : List Nat) : List Byte :=
  let body := packBlock st.rec_.fmt st.rec_.prec st.ks xs
  body ++ List.replicate (st.slot - body.length) 0

/-- The block's elements read back from its slot. -/
def Stream.unpack (st : Stream) (gr : Group) (t n : Nat) : List Nat :=
  unpackBlock st.rec_.fmt st.rec_.prec st.ks n fun k => gr.padByte (st.woff + t % st.win * st.slot + k)

/-- Coordinates of block t (R194). -/
def Stream.coords (st : Stream) (t : Nat) : List Coord :=
  let k := st.k0 + t * st.ks
  if st.rowKind then st.rec_.rowCoords k st.n0 0 st.ks st.rows
  else st.rec_.blockCoords k st.n0 0 0 st.ks (match stationary st.rec_.fmt st.rec_.prec with | some f => f.ns | none => 128)

/-- STREAM_BLOCK_DELIVERED (R195): the next block is read once, when its slot is free at every subscriber, and written into
each of them. It brings the owner's group and the stream's number. -/
def State.streamDeliver (s : State) (g q : Nat) : State :=
  match s.streams.find? fun x => x.g == g && x.q == q with
  | none => s
  | some st => match s.cmd? st.id, s.group? g with
    | some c, some gr =>
      let t := st.read
      let free := st.subs.all fun z => decide (t < st.win) || z.used.contains (t - st.win)
      if !s.cmdGoes c || !free || decide (st.nblocks ≤ t) || (s.faults.any fun f => f.cmd == some c.id) then s
      else match s.regionOf gr st.rec_ with
        | none => s
        | some reg =>
          c.access .engineRead ((s.blockRead c.unit c.ctx reg st.rec_ (st.coords t)).whole s) fun s xs =>
            let bytes := st.pack (xs.map (·.1))
            let side : Beside := ⟨t, xs.map (·.2), if st.rowKind then [] else gr.smoothOf st.rec_ (st.k0 + t * st.ks) st.ks⟩
            let s := st.subs.foldl (fun s z => s.padWrite z.g (st.woff + t % st.win * st.slot) bytes) s
            let s := s.updStream st.id fun y => { y with read := t + 1, beside := y.beside ++ [side] }
            let s := s.updCmd c.id fun x => { x with done := t + 1, started := true }
            let s := st.subs.foldl (fun s z => if z.drop.contains t then s.useBlock st.id z.g t else s) s
            let cores := (st.subs.filterMap fun z => (s.group? z.g).map (·.core)).eraseDups
            let s := s.pushAll (cores.map fun k => ⟨.arrayCommandStart, { a := k }⟩)
            s.push .streamBlockDelivered { a := g, b := q }
    | _, _ => s

/-- STREAM_BLOCK_DELIVERED. -/
def execStreamBlockDelivered (s : State) : Res := .next (s.streamDeliver s.ev.a s.ev.b)

/-- MISALIGNED of a command whose shape leaves its scratchpad (R177). -/
def State.outsidePad (s : State) (i : Iss) (f : DWord) : State := s.trap i 0x08 f (i.fr.live.setWidth 64)

/-- STREAM (R194): checked, discarded while its number is active, or registered with every subscriber. -/
def execStream (a b c : BitVec 7) (s : State) : Res :=
  s.issue {} (fun i => sOk i.wv a.toNat && sOk i.wv b.toNat && sOk i.wv c.toNat) true
    (sSrcs [(0, a.toNat)]) [] fun i =>
    let va := (i.wv.sreg a.toNat).val.toNat
    let vb := (i.wv.sreg b.toNat).val.toNat
    let vc := (i.wv.sreg c.toNat).val.toNat
    let r := s.shapeOf i.grp.ctx (va % 256)
    let rowKind := ebit va 11
    let q := va / 2 ^ 8 % 8
    let ranks := (List.range 16).filter fun k => ebit va (16 + k)
    let subs := ranks.map fun k => s.peer? i.grp k
    let ks : Option Nat := if rowKind then rowBlockK r.fmt (vc / 2 ^ 28 % 8) else (stationary r.fmt r.prec).map (·.ks)
    let st : Stream := {
      id := s.seq, g := i.c.g, q := q, shape := r, nblocks := va / 2 ^ 32, win := va / 2 ^ 12 % 16 + 1, rowKind := rowKind
      n0 := vb / 2 ^ 32, k0 := vb % 2 ^ 32, ks := ks.getD 0, rows := vc / 2 ^ 20 % 256 + 1, woff := vc % 2 ^ 20
      subs := subs.filterMap fun o => o.map fun gr => ⟨gr.g, 0, [], []⟩, read := 0, beside := [] }
    let past := subs.any fun o => match o with
      | some gr => decide (gr.padSize < st.woff + st.win * st.slot)
      | none => true
    if st.nblocks = 0 || ranks.isEmpty || (subs.any fun o => o.isNone) || (!rowKind && ks.isNone) then .next (s.illegal i)
    else i.alsoS s 1 b.toNat (i.alsoS s 2 c.toNat (if past || st.woff % 128 != 0 || ks.isNone then .next (s.illegal i)
    else if (s.streams.any fun x => x.g == i.c.g && x.q == q) then
      .next ((s.updGroup i.c.g fun g => { g with mstat := g.mstat ||| 0x40000000 }).retire i)
    else
      let e := s.arrayExt i.grp r
      match e.2 with
      | some f => .next (s.outsidePad i f)
      | none =>
        let wins := st.subs.map fun z => (⟨some z.g, st.woff, st.woff + st.win * st.slot⟩ : Ext)
        match s.engineWait i 3 [e.1] wins with
        | some w => .next (s.block i w)
        | none =>
          let cm := { i.cmd s 3 q (BitVec.ofNat 64 va) (BitVec.ofNat 64 vb) (BitVec.ofNat 64 vc) 0 st.nblocks false 0 with detail := BitVec.ofNat 64 q }
          let s : State := { s with streams := s.streams ++ [st] }
          .next ((s.addCmd i cm [e.1] wins [⟨.streamBlockDelivered, { a := i.c.g, b := q }⟩]).retire i)))

/-! ## Affine access records (R203) -/

def arBits (r : List Byte) (q lo w : Nat) : Nat := leNat ((r.drop (8 * q)).take 8) / 2 ^ lo % 2 ^ w
def arQueue (r : List Byte) : Nat := arBits r 0 8 3
def arShape (r : List Byte) : Nat := arBits r 0 0 8
def arLoops (r : List Byte) : Nat := arBits r 0 12 3 + 1
def arCount (r : List Byte) (j : Nat) : Nat := if j < arLoops r then arBits r (3 + j) 0 16 + 1 else 1
def arStep (r : List Byte) (j : Nat) : Int := toIntBits 32 (arBits r (3 + j) 32 32)
def arDim (r : List Byte) (j : Nat) : Nat := arBits r (3 + j) 16 2
/-- Elements of the record. -/
def arTotal (r : List Byte) : Nat := arCount r 0 * arCount r 1 * arCount r 2 * arCount r 3 * arCount r 4

/-- R204, status 2. A shape whose elements R203 does not deliver counts as an image. DEDUCED (log 36). -/
def arMalformed (r : List Byte) (sh : Shape) : Bool :=
  let loops := arLoops r
  arBits r 0 20 12 != 0 || arBits r 0 11 1 != 0 || decide (5 < loops) ||
  ((List.range 5).any fun j => if j < loops then arBits r (3 + j) 18 14 != 0 else arBits r (3 + j) 0 64 != 0) ||
  sh.fmt == 0 || sh.fmt == 3 || decide (12 ≤ sh.fmt) ||
  (ebit (arBits r 0 0 64) 15 && (decide (sh.ndim ≤ arBits r 0 16 2) || decide (sh.ndim ≤ arBits r 0 18 2)))

/-- Element n of the loops, loop 0 fastest. The start coordinates are read as signed numbers, as the steps are, and as all coordinates
that may lie outside a shape. DESIGN CHOICE (log 80). -/
def arCoord (r : List Byte) (n : Nat) : Coord :=
  let o (k : Nat) : Int := toIntBits 32 (arBits r (1 + k / 2) (32 * (k % 2)) 32)
  let start : Coord := ⟨o 0, o 1, o 2, o 3⟩
  let step (x : Coord × Nat) (j : Nat) : Coord × Nat :=
    (x.1.add (arDim r j) ((x.2 % arCount r j : Nat) * arStep r j), x.2 / arCount r j)
  ((List.range (min 5 (arLoops r))).foldl step (start, n)).1

/-- The predicate drops the element (R203). -/
def arDrops (r : List Byte) (c : Coord) : Bool :=
  ebit (arBits r 0 0 64) 15 &&
  decide (c.get (arBits r 0 16 2) > c.get (arBits r 0 18 2) + toIntBits 32 (arBits r 0 32 32))

/-- One element as the feeder pushes it. -/
def State.feedElem (s : State) (core ctx : Nat) (reg : Region) (sh : Shape) (r : List Byte) (n : Nat) : MemRes Nat :=
  let c := arCoord r n
  if !sh.inside c || arDrops r c then .ok s 0
  else (s.elemRead core ctx reg sh c).andThen fun s x => .ok s (deliver sh.fmt x).1

/-! ## The feeder -/

/-- FEED (R204): the record is read at issue and its extent locked; the status fills later. DEDUCED (log 36). -/
def execFeed (a b : BitVec 7) (s : State) : Res :=
  s.issue {} (fun i => sOk i.wv a.toNat && sOk i.wv b.toNat) true (sSrcs [(1, b.toNat)]) [(true, a.toNat)] fun i =>
    match s.accessWait i.c.g i.c.w false true with
    | some w => .next (s.block i w)
    | none =>
      let va := (i.wv.sreg b.toNat).val
      let take (s : State) (bs : List Byte) (srcs : List Ext) : Res :=
        let f : Fill := ⟨s.seq, i.c.g, i.c.w, a.toNat, none, 2, BitVec.ofNat 64 (arQueue bs), va,
          bs ++ (if bs.isEmpty then [] else leBytes 64 (s.shapeOf i.grp.ctx (arShape bs)).toNat ++ leBytes 8 i.c.unitPc.toNat)⟩
        let part := match s.partOf i.grp.ctx with | some p => p.n | none => 0
        let s := s.lockFor part i.grp.ctx 2 i.grp.core s.seq srcs []
        let s := ({ s.fresh with fills := s.fills ++ [f] } : State).push .feedStatusFill { a := f.id }
        .next ((s.updCur i fun w => w.emptyS a.toNat).retire i)
      if va.toNat % 64 ≠ 0 then take s [] []
      else readRecord s i va 64 fun s bs =>
        let sh := s.shapeOf i.grp.ctx (arShape bs)
        if arMalformed bs sh then take s bs []
        else
          let e := s.arrayExt i.grp sh
          match e.2 with
          | some f => .next (s.outsidePad i f)
          | none => match s.engineWait i 2 [e.1] [] with
            | some w => .next (s.block i w)
            | none => take s bs [e.1]

/-- FEED_STATUS_FILL (R204): accepted into the group's feeder, or refused. It brings the fill. DEDUCED (log 36). -/
def State.feedFill (s : State) (id : Nat) : State :=
  match s.fills.find? fun f => f.id == id && f.kind == 2 with
  | none => s
  | some f => match s.group? f.g with
    | none => s
    | some gr =>
      let r := f.bytes.take 64
      let sh : Shape := BitVec.ofNat 512 (leNat ((f.bytes.drop 64).take 64))
      let mine := s.cmds.filter fun c => c.engine == 2 && c.g == f.g
      if f.bytes.isEmpty || arMalformed r sh then (s.fillStatus f 2).unlock f.id
      -- one record runs and up to four are pending
      else if 5 ≤ mine.length then (s.fillStatus f 1).unlock f.id
      else
        let c : Cmd := {
          id := f.id, engine := 2, unit := gr.core, g := f.g, w := f.w, ctx := gr.ctx, launch := gr.launch, op := arQueue r
          pc := BitVec.ofNat 64 (leNat (f.bytes.drop 128)), a := 0, b := f.y, c := 0, d := 0, len := arTotal r, byteMode := false
          bar := 0, done := 0, started := false, halted := !gr.resident, payload := f.bytes.take 128, detail := f.y }
        let s : State := { s with cmds := s.cmds ++ [c] }
        (s.fillStatus f 0).push .feederPush { a := f.g }

/-- FEED_STATUS_FILL. -/
def execFeedStatusFill (s : State) : Res := .next (s.feedFill s.ev.a)

/-- FEEDER_PUSH (R83): the running record pushes its next vector while its queue holds fewer than 16. It brings the group. -/
def State.feederPush (s : State) (g : Nat) : State :=
  match s.group? g, s.cmds.find? fun c => c.engine == 2 && c.g == g with
  | some gr, some c =>
    let r := c.payload.take 64
    let sh : Shape := BitVec.ofNat 512 (leNat (c.payload.drop 64))
    if !s.cmdGoes c || decide (16 ≤ (gr.queue c.op).length) || (s.faults.any fun f => f.cmd == some c.id) then s
    else match s.regionOf gr sh with
      | none => s
      | some reg =>
        let n := min 32 (c.len - c.done)
        c.access .engineRead (eachMem (fun s k => s.feedElem c.unit c.ctx reg sh r (c.done + k)) (List.range n) s) fun s xs =>
          let v : BitVec 4 × List Word := (deliverTag sh.fmt, (List.range 32).map fun l => BitVec.ofNat 32 (xs.getD l 0))
          let s := s.updGroup g fun gr => { gr with queues :=
            if (gr.queues.any fun x => x.q == c.op) then
              (gr.queues.map fun x => if x.q == c.op then { x with vecs := x.vecs ++ [v] } else x)
            else gr.queues ++ [⟨c.op, [v]⟩] }
          if c.done + n < c.len then
            (s.updCmd c.id fun x => { x with done := x.done + n, started := true }).push .feederPush { a := g }
          else
            -- the record is complete
            let s := ((s.unlock c.id).dropCmd c.id).acted c.ctx
            s.push .feederPush { a := g }
  | _, _ => s

/-- FEEDER_PUSH. -/
def execFeederPush (s : State) : Res := .next (s.feederPush s.ev.a)

/-- QBIND (R205). -/
def execQbind (a b : BitVec 7) (s : State) : Res :=
  s.issue {} (fun i => sOk i.wv a.toNat && sOk i.wv b.toNat) true (sSrcs [(0, a.toNat), (1, b.toNat)]) [] fun i =>
    let q := (i.wv.sreg a.toNat).val.toNat % 8
    let v := 120 + (i.wv.sreg b.toNat).val.toNat % 8
    if !vOk i.wv v then .next (s.illegal i)
    else if (i.wv.port? v).isNone && (i.wv.vreg v).pend != 0 then .next (s.block i (.empty false v))
    else
      .next ((s.updCur i fun w => { w with
        ports := (w.ports.filter fun p => p.1 != v) ++ [(v, q)]
        vregs := w.vregs.set v ⟨List.replicate 32 0, tRAW, 0⟩ }).retire i)

/-- QUNBIND (R205): the ports hold zero; the last wave to unbind discards the queue and its running record. -/
def execQunbind (a : BitVec 7) (s : State) : Res :=
  s.issue {} (fun i => sOk i.wv a.toNat) true (sSrcs [(0, a.toNat)]) [] fun i =>
    let q := (i.wv.sreg a.toNat).val.toNat % 8
    let s := s.updCur i fun w => { w with
      ports := w.ports.filter fun p => p.2 != q
      vregs := (w.ports.filter fun p => p.2 == q).foldl (fun vs p => vs.set p.1 ⟨List.replicate 32 0, tRAW, 0⟩) w.vregs }
    let bound := s.waves.any fun w => w.g == i.c.g && w.ports.any fun p => p.2 == q
    let s := if bound then s
      else
        let s := s.updGroup i.c.g fun g => { g with queues := g.queues.filter fun x => x.q != q }
        match s.cmds.find? fun c => c.engine == 2 && c.g == i.c.g with
        | some c => if c.op = q then ((s.unlock c.id).dropCmd c.id).push .feederPush { a := i.c.g } else s
        | none => s
    .next (s.retire i)

end Sys2Proof.Machine
end

