-- ==== Sys2Proof/Machine/Matrix.lean ====
section
/-! DEFINITION. The words of the matrix arrays (R182 to R201) at issue, and the array's work: commands of each group in
order, row by row, gangs and their partner faults, and completion (R188, R193, R196, R197). -/

namespace Sys2Proof.Machine

open Host

/-! ## At issue -/

/-- Tile registers that the launch, or the group's node, configures (R27, R107). -/
def Iss.tiles (i : Iss) : Nat :=
  match i.grp.node with
  | some n => (match i.ln.nodes[n]? with | some x => x.tiles | none => 0)
  | none => i.ln.tiles

/-- BAR and BOFF of a word: the window address of the barrier, or 0 (R206). -/
def boffBar (x : Nat) : DWord := if ebit x 9 then BitVec.ofNat 64 (2 ^ 62 + x / 2 ^ 10 % 2 ^ 20 * 16) else 0
/-- BAR names 16 bytes outside the scratchpad. -/
def boffBad (gr : Group) (x : Nat) : Bool := ebit x 9 && decide (gr.padSize < x / 2 ^ 10 % 2 ^ 20 * 16 + 16)

/-- TAG_MISMATCH with FIELD, WANT and FOUND (R450). DEDUCED (log 8). -/
def State.formats (s : State) (i : Iss) (field want found : Nat) : State := s.trap i 0x04 0 (tagInfo false field want found)

/-- A tile named by a word, with WANT the command's tile tag (R183): its configuration, or the FOUND of the mismatch.
DEDUCED (log 8, 35). -/
def tileCheck (gr : Group) (t : Nat) (want : Option Nat) : Except Nat (BitVec 48) :=
  match gr.tile? t with
  | none => .error 0
  | some x => match want with
    | none => .ok x.cfg
    | some w => if tileTag (cfgFmt x.cfg) = w then .ok x.cfg else .error (tileTag (cfgFmt x.cfg))

/-- The valid counts of the group as a command keeps them (R189). -/
def Group.counts (gr : Group) : Nat := gr.mv + 2 ^ 8 * gr.nv + 2 ^ 32 * gr.kv
def Cmd.mv (c : Cmd) : Nat := c.d.toNat % 2 ^ 8
def Cmd.nv (c : Cmd) : Nat := c.d.toNat / 2 ^ 8 % 2 ^ 8
def Cmd.kv (c : Cmd) : Nat := c.d.toNat / 2 ^ 32
def Cmd.cfg (c : Cmd) : BitVec 48 := c.c.setWidth 48
def Cmd.tile (c : Cmd) : Nat := c.c.toNat / 2 ^ 48 % 16
def Cmd.shapeRec (c : Cmd) : Shape := BitVec.ofNat 512 (leNat (c.payload.take 64))

/-- A configuration and a tile number as a command keeps them. -/
def tileWord (t : Nat) (cfg : BitVec 48) : DWord := BitVec.ofNat 64 (cfg.toNat + t * 2 ^ 48)

/-- An array word: registers, tile number and whatever else makes it illegal by itself, S[a] of field a, then its own checks (R206),
which read its later sources. -/
def arrayWord (srcs : List (Nat × Nat)) (t : Option Nat) (s : State) (k : Iss → (Nat → Nat) → Res) (legal : Iss → Bool := fun _ => true) :
    Res :=
  s.issue {} (fun i => legal i && (srcs.all fun x => sOk i.wv x.2) && (match t with | some t => decide (t < i.tiles) | none => true)) true
    (sSrcs (srcs.take 1)) [] fun i => k i fun n => (i.wv.sreg n).val.toNat

/-- The command of an array word. -/
def Iss.arrayCmd (i : Iss) (s : State) (op : Nat) (a b : Nat) (tile : DWord) (len : Nat) (bar : DWord) : Cmd :=
  i.cmd s 1 op (BitVec.ofNat 64 a) (BitVec.ofNat 64 b) tile (BitVec.ofNat 64 i.grp.counts) len false bar

/-- Take an array command into its core's queue. -/
def arrayTake (s : State) (i : Iss) (c : Cmd) (srcs dsts : List Ext) (f : State → State) : Res :=
  match s.engineWait i 1 srcs dsts with
  | some w => .next (s.block i w)
  | none => .next (f ((s.addCmd i c srcs dsts [⟨.arrayCommandStart, { a := i.grp.core }⟩]).retire i))

/-- A command that touches no memory. DEDUCED (log 35). -/
def arrayPlain (s : State) (i : Iss) (c : Cmd) (f : State → State) : Res :=
  .next (f ((s.addCmd i c [] [] [⟨.arrayCommandStart, { a := i.grp.core }⟩]).retire i))

/-- MTCFG (R182). -/
def execMtcfg (a : BitVec 7) (t : BitVec 4) (s : State) : Res :=
  arrayWord [(0, a.toNat)] (some t.toNat) s fun i r =>
    let cfg : BitVec 48 := BitVec.ofNat 48 (r a.toNat)
    if cfgFmt cfg = 3 || decide (cfgOff cfg < 16) || (cfgFmt cfg = 1 && decide (64 < cfgCols cfg)) ||
        decide (i.grp.accSize < cfgOff cfg * 1024 + cfgRows cfg * cfgCols cfg * tileSize (cfgFmt cfg)) then .next (s.illegal i)
    else
      arrayPlain s i (i.arrayCmd s 0 0 0 (tileWord t.toNat cfg) 0 0) fun s =>
        s.updGroup i.c.g fun g => g.setTile ⟨t.toNat, true, g.tileInvalid t.toNat, cfg⟩

/-- MZERO (R183). -/
def execMzero (t : BitVec 4) (s : State) : Res :=
  arrayWord [] (some t.toNat) s fun i _ =>
    match tileCheck i.grp t.toNat none with
    | .error f => .next (s.formats i 2 0 f)
    | .ok cfg => arrayPlain s i (i.arrayCmd s 1 0 0 (tileWord t.toNat cfg) 0 0) id

/-- MLDW (R190). A stream of KIND 1 has no block for MLDW, and one of KIND 0 no rows for MSTR: either is as one that is not
registered. DESIGN CHOICE (log 80). -/
def execMldw (a b c : BitVec 7) (s : State) : Res :=
  arrayWord [(0, a.toNat), (1, b.toNat), (2, c.toNat)] none s (legal := fun i => i.grp.accSize != 0) fun i r =>
    let x := r a.toNat
    let rest (k : Res) : Res := i.alsoS s 1 b.toNat (i.alsoS s 2 c.toNat k)
    if ebit x 8 then
      match s.streamFor i.grp (x / 2 ^ 12 % 16) (x / 2 ^ 9 % 8) with
      | none => .next (s.trap i 0x03 0 (emptyInfo 0 0))
      | some st => match (if st.rowKind then none else s.claim st i.c.g) with
        | none => .next (s.trap i 0x03 0 (emptyInfo 0 0))
        | some (s', n) =>
          let cm := { i.arrayCmd s 2 x 0 0 0 0 with payload := leBytes 64 st.shape.toNat, blocks := [(st.id, n)] }
          rest (arrayPlain s' i cm fun s => s.updGroup i.c.g fun g => { g with shadowFmt := st.rec_.fmt })
    else
      let sh := s.shapeOf i.grp.ctx (x % 256)
      match stationary sh.fmt sh.prec with
      | none => .next (s.formats i 0 0 (fmtTag sh.fmt))
      | some _ =>
        let e := s.arrayExt i.grp sh
        rest (match e.2 with
        | some f => .next (s.outsidePad i f)
        | none =>
          let cm := { i.arrayCmd s 2 (r b.toNat) (r c.toNat) 0 0 0 with payload := leBytes 64 sh.toNat }
          arrayTake s i cm [e.1] [] fun s => s.updGroup i.c.g fun g => { g with shadowFmt := sh.fmt })

/-- MSWAP (R191). -/
def execMswap (s : State) : Res :=
  arrayWord [] none s fun i _ =>
    arrayPlain s i (i.arrayCmd s 3 0 0 0 0 0) fun s =>
      s.updGroup i.c.g fun g => { g with planeFmt := g.shadowFmt, shadowFmt := g.planeFmt }

/-- The block that MSTR takes of a stream (R192, R195): the stream, and the state and the block of its claim. -/
def State.rowBlock (s : State) (gr : Group) (x : Nat) : Option (Stream × State × Nat) :=
  ((s.streamFor gr (x / 2 ^ 12 % 16) (x / 2 ^ 9 % 8)).filter fun z => z.rowKind).bind fun z => (s.claim z gr.g).map fun y => (z, y.1, y.2)

/-- MSTR (R192). The command keeps m0 and ZERO in `a`, T0, the rows and i2 in `b`. -/
def execMstr (a b : BitVec 7) (t : BitVec 4) (s : State) : Res :=
  arrayWord [(0, a.toNat), (1, b.toNat)] (some t.toNat) s fun i r =>
    let x := r a.toNat
    let y := r b.toNat
    let st : Option (Stream × State × Nat) := if ebit x 8 then s.rowBlock i.grp x else none
    let sh : Shape := match st with | some z => z.1.rec_ | none => s.shapeOf i.grp.ctx (x % 256)
    match stationary i.grp.planeFmt 8 with
    | none => .next (s.formats i 0 0 0)
    | some fit =>
      if ebit x 8 && st.isNone then .next (s.trap i 0x03 0 (emptyInfo 0 0))
      else if !fit.acts.contains sh.fmt then .next (s.formats i 0 (actWant fit) (fmtTag sh.fmt))
      else i.alsoS s 1 b.toNat (if boffBad i.grp y then .next (s.illegal i)
      else match tileCheck i.grp t.toNat (some (tileTag fit.tile)) with
        | .error f => .next (s.formats i 2 (tileTag fit.tile) f)
        | .ok cfg =>
          let rows : Nat := match st with | some z => z.1.rows | none => x / 2 ^ 16 % 128 + 1
          let t0 := x / 2 ^ 24 % 128
          let m0 : Nat := match st with | some z => z.1.n0 | none => x / 2 ^ 32
          if cfgRows cfg < t0 + rows then .next (s.illegal i)
          else
            let cm := { i.arrayCmd s 4 (m0 + 2 ^ 32 * (x / 2 ^ 31 % 2)) (t0 + 2 ^ 8 * rows + 2 ^ 32 * (y / 2 ^ 32))
              (tileWord t.toNat cfg) rows (boffBar y) with payload := leBytes 64 sh.toNat }
            match st with
            | some (z, s, n) => arrayPlain s i { cm with blocks := [(z.id, n)] } id
            | none =>
              let e := s.arrayExt i.grp sh
              match e.2 with
              | some f => .next (s.outsidePad i f)
              | none => arrayTake s i cm [e.1] [] id)

/-- MVALID (R189). -/
def execMvalid (a b c : BitVec 7) (s : State) : Res :=
  arrayWord [(0, a.toNat), (1, b.toNat), (2, c.toNat)] none s fun i r =>
    if 128 < r a.toNat then .next (s.illegal i)
    else i.alsoS s 1 b.toNat (i.alsoS s 2 c.toNat (if 128 < r c.toNat then .next (s.illegal i)
    else arrayPlain s i (i.arrayCmd s 6 0 0 0 0 0) fun s =>
      s.updGroup i.c.g fun g => { g with mv := r a.toNat, kv := r b.toNat % 2 ^ 32, nv := r c.toNat }))

/-- The blocks that a gang member claims at issue: up to `n` of its column's stream (R195). DEDUCED (log 35). -/
def State.claimMany (s : State) (st : Stream) (g : Nat) : Nat → List (Nat × Nat) → State × List (Nat × Nat)
  | 0, acc => (s, acc)
  | n + 1, acc => match s.stream? st.id with
    | none => (s, acc)
    | some y => match s.claim y g with
      | none => (s, acc)
      | some (s, t) => s.claimMany st g n (acc ++ [(st.id, t)])

/-- The member of a gang at position p (R196): its command in its own core's queue. The command keeps m0 in bits [39:0] of `a`,
where m0 + 128 × i may pass 2^32, and ZERO in bit 40. -/
def State.gangMember (s : State) (i : Iss) (x y gang : Nat) (sh : Shape) (t p : Nat) (m : Group) : State :=
  let kb := x / 2 ^ 32 % 2 ^ 16
  let gc := x / 2 ^ 18 % 8 + 1
  let m0 := y / 2 ^ 32 + if sh.space = 1 then 0 else 128 * (p / gc)
  let q := x / 2 ^ 21 % 8 + p % gc
  let srank := x / 2 ^ 24 % 16
  let claimed := match s.streamFor m srank q with
    | some st => if st.rowKind then (s, []) else s.claimMany st m.g kb []
    | none => (s, [])
  let s := claimed.1
  let cfg : Nat := match m.tile? t with | some z => z.cfg.toNat + 2 ^ 63 | none => 0
  let cm : Cmd := { i.arrayCmd s 5 (m0 + 2 ^ 40 * (y / 2 ^ 8 % 2)) (q + 2 ^ 8 * srank + 2 ^ 16 * i.grp.clrank + 2 ^ 32 * gang)
      (BitVec.ofNat 64 (cfg + t * 2 ^ 48)) (kb * 2 ^ 32 + 128) 0 with
    g := m.g, unit := m.core, payload := leBytes 64 sh.toNat, blocks := claimed.2 }
  let s := (s.addCmd i cm [] [] [⟨.arrayCommandStart, { a := m.core }⟩])
  s.updGroup m.g fun g => { g with planeFmt := 0, shadowFmt := 0 }

/-- MGANG (R196). -/
def execMgang (a b : BitVec 7) (t : BitVec 4) (s : State) : Res :=
  arrayWord [(0, a.toNat), (1, b.toNat)] (some t.toNat) s fun i r =>
    let x := r a.toNat
    let y := r b.toNat
    let gc := x / 2 ^ 18 % 8 + 1
    let gr := x / 2 ^ 16 % 4 + 1
    let ranks := (List.range 16).filter fun k => ebit x k
    let ms := ranks.filterMap fun k => s.peer? i.grp k
    if decide (5 < gc) || decide (3 < gr) || ranks.length != gr * gc || ms.length != ranks.length ||
        decide (8 < x / 2 ^ 21 % 8 + gc) || decide (x / 2 ^ 32 % 2 ^ 16 = 0) then .next (s.illegal i)
    else i.alsoS s 1 b.toNat (if boffBad i.grp y then .next (s.illegal i)
    else
      let sh := s.shapeOf i.grp.ctx (y % 256)
      -- every member's source extent, one that leaves its scratchpad too: R197 lets that member read the bytes inside
      let exts := (ms.map fun m => (s.arrayExt m sh).1).filter fun e => decide (e.lo < e.hi)
      match s.engineWait i 1 exts.eraseDups [] with
      | some w => .next (s.block i w)
      | none =>
        let gang := s.seq
        let part := match s.partOf i.grp.ctx with | some p => p.n | none => 0
        let s := (s.lockFor part i.grp.ctx 1 i.grp.core gang exts.eraseDups []).fresh
        let s : State := { s with gangs := s.gangs ++
          [⟨gang, ms.map (·.g), false, if ebit y 9 then some (y / 2 ^ 10 % 2 ^ 20 * 16) else none, ms.map (·.g)⟩] }
        let s := (List.range ms.length).foldl (fun s p => match ms[p]? with
          | some m => s.gangMember i x y gang sh t.toNat p m
          | none => s) s
        .next (s.retire i))

/-- MJOIN (R199). -/
def execMjoin (a b : BitVec 7) (s : State) : Res :=
  arrayWord [(0, a.toNat), (1, b.toNat)] none s fun i r =>
    let x := r a.toNat
    let y := r b.toNat
    let ts := x / 16 % 16
    let td := x % 16
    match s.peer? i.grp (x / 2 ^ 8 % 16) with
    | none => .next (s.illegal i)
    | some p =>
      if i.tiles ≤ ts || i.tiles ≤ td then .next (s.illegal i)
      else match tileCheck i.grp td none with
        | .error f => .next (s.formats i 0 0 f)
        | .ok cd => match tileCheck p ts none with
          | .error f => .next (s.formats i 0 (tileTag (cfgFmt cd)) f)
          | .ok cs =>
            if cfgFmt cs ≠ cfgFmt cd ∨ cfgRows cs ≠ cfgRows cd ∨ cfgCols cs ≠ cfgCols cd then
              .next (s.formats i 0 (tileTag (cfgFmt cd)) (tileTag (cfgFmt cs)))
            else i.alsoS s 1 b.toNat (if boffBad i.grp y then .next (s.illegal i)
              else arrayPlain s i (i.arrayCmd s 7 (tileWord ts cs).toNat p.g (tileWord td cd) (cfgRows cd) (boffBar y)) id)

/-- Shape formats that MTLD and MTST take for a tile format (R200). -/
def moveFormats (store : Bool) (tf : Nat) : List Nat :=
  if tf = 0 then [2, 6, 5, 7, 8] else if tf = 1 then [3] else if store then [1, 4, 9, 2, 6, 5, 7, 8] else [1, 4, 9]

/-- MTLD and MTST at issue (R200). -/
def moveTile (store : Bool) (a b : BitVec 7) (t : BitVec 4) (s : State) : Res :=
  arrayWord [(0, a.toNat), (1, b.toNat)] (some t.toNat) s fun i r =>
    let x := r a.toNat
    let sh := s.shapeOf i.grp.ctx (x % 256)
    if sh.fmt = 0 then .next (s.formats i 0 0 0)
    else if boffBad i.grp x then .next (s.illegal i)
    else i.alsoS s 1 b.toNat (match tileCheck i.grp t.toNat none with
      | .error f => .next (s.formats i 2 0 f)
      | .ok cfg =>
        if !(moveFormats store (cfgFmt cfg)).contains sh.fmt then .next (s.formats i 0 0 (fmtTag sh.fmt))
        else
          let e := s.arrayExt i.grp sh
          match e.2 with
          | some f => .next (s.outsidePad i f)
          | none => match (if store then s.tokenWord i e.1 else none) with
            | some f => .next (s.trap i 0x0D f.1 f.2)
            | none =>
              if store && sh.cls = 2 then .next (s.violate i (BitVec.ofNat 64 sh.base) 7 0 0 .engineWrite 0)
              else
                let cm := { i.arrayCmd s (if store then 9 else 8) (r b.toNat) 0 (tileWord t.toNat cfg) (cfgRows cfg) (boffBar x) with
                  payload := leBytes 64 sh.toNat }
                arrayTake s i cm (if store then [] else [e.1]) (if store then [e.1] else []) id)

/-- R200. -/
def execMtld (a b : BitVec 7) (t : BitVec 4) (s : State) : Res := moveTile false a b t s
/-- R200. -/
def execMtst (a b : BitVec 7) (t : BitVec 4) (s : State) : Res := moveTile true a b t s

/-- Elements that a row or column word moves, the limit of its index, and its registers (R201). -/
def lineSpan (row : Bool) (cfg : BitVec 48) (v : Nat) : Nat × Nat × List Nat :=
  let n := if row then cfgCols cfg else cfgRows cfg
  let step : Nat := if cfgFmt cfg = 1 then 2 else 1
  (n, if row then cfgRows cfg else cfgCols cfg, (List.range ((n + 31) / 32 * step)).map (v + ·))

/-- MTROW, MTCOL, MTWROW, MTWCOL at issue (R201). The command keeps the lanes of the issuing fragment in `len`. -/
def moveLine (row write : Bool) (op : Nat) (a b : BitVec 7) (t : BitVec 4) (s : State) : Res :=
  arrayWord [(0, a.toNat), (1, b.toNat)] (some t.toNat) s fun i r =>
    let first := r b.toNat % 128
    i.alsoS s 1 b.toNat (if !(if write then vOk i.wv first else vDst i.wv first) then .next (s.illegal i)
    else match tileCheck i.grp t.toNat none with
    | .error f => .next (s.formats i 2 0 f)
    | .ok cfg =>
      let idx := r a.toNat % 128
      let v := r b.toNat % 128
      let sp := lineSpan row cfg v
      if sp.2.1 ≤ idx || !(sp.2.2.all fun n => if write then vOk i.wv n else vDst i.wv n) || (cfgFmt cfg = 1 && v % 2 != 0) then
        .next (s.illegal i)
      else
        let srcs : List Src := if write then sp.2.2.map fun n => ⟨1, false, n, 1, .bit, false⟩ else []
        match s.checkAll i i.wv srcs (if write then [] else sp.2.2.map fun n => (false, n)) with
        | .wait w => .next (s.block i w)
        | .trap c f => .next (s.trap i c 0 f)
        | .go =>
          let s := s.popPorts i srcs
          let wv := (s.wave? i.c.g i.c.w).getD i.wv
          let cm := { i.arrayCmd s op idx v (tileWord t.toNat cfg) i.fr.live.toNat 0 with
            payload := if write then sp.2.2.flatMap fun n => (wv.vreg n).lanes.flatMap fun x => leBytes 4 x.toNat else [] }
          arrayPlain s i cm fun s =>
            if write then s else s.updCur i fun w => sp.2.2.foldl (fun w n => w.emptyV n i.fr.live) w)

/-- R201. -/
def execMtrow (a b : BitVec 7) (t : BitVec 4) (s : State) : Res := moveLine true false 10 a b t s
/-- R201. -/
def execMtcol (a b : BitVec 7) (t : BitVec 4) (s : State) : Res := moveLine false false 11 a b t s
/-- R201. -/
def execMtwrow (a b : BitVec 7) (t : BitVec 4) (s : State) : Res := moveLine true true 12 a b t s
/-- R201. -/
def execMtwcol (a b : BitVec 7) (t : BitVec 4) (s : State) : Res := moveLine false true 13 a b t s

/-! ## The array's work -/

/-- A command's work is done; its completion follows. -/
def State.arrayFinish (s : State) (c : Cmd) : State :=
  (s.updCmd c.id fun x => { x with finished := true }).push .arrayCommandComplete { a := c.id }

/-- The group's accumulators of a row. -/
def Group.rowAcc (gr : Group) (cfg : BitVec 48) (r cols : Nat) : List Nat := (List.range cols).map fun n => gr.cell cfg r n

/-- One row into the tile (R185): nothing beyond MV, NV or the tile (R185, R436). -/
def State.rowInto (s : State) (c : Cmd) (gr : Group) (p : Plane) (actFmt tileRow m : Nat) (zero : Bool) (row : List (Nat × Nat)) :
    State :=
  let cfg := c.cfg
  if c.mv ≤ m || cfgRows cfg ≤ tileRow then s
  else
    let cols := min (min p.ns c.nv) (cfgCols cfg)
    let acc := if zero then List.replicate cols 0 else gr.rowAcc cfg tileRow cols
    let out := streamRow p (cfgFmt cfg) actFmt c.kv cols row acc
    s.setCells gr.g cfg ((List.range cols).map fun n => (tileRow, n, out.getD n 0))

/-- An activation row as the array reads it: elements and scales along K of the stationary block (R192). Elements that take
part in no product are not read. -/
def State.actRow (s : State) (c : Cmd) (gr : Group) (p : Plane) (sh : Shape) (m i2 : Nat) : MemRes (List (Nat × Nat)) :=
  match s.regionOf gr sh with
  | none => .ok s []
  | some reg => eachMem (fun s k =>
      if c.kv ≤ p.k0 + k then .ok s (0, 127)
      else
        let co := sh.kCoord (p.k0 + k : Nat) (m : Nat) (i2 : Nat) 0
        (s.blockElem c.unit c.ctx reg sh co).andThen fun s x =>
          (s.scaleOf c.unit c.ctx reg sh co).andThen fun s e => .ok s (x, e)) (List.range p.ks) s

/-- A gang member has ended its part (R196): both planes hold no block; the last member completes the gang. -/
def State.memberEnd (s : State) (c : Cmd) : State :=
  let gang := c.b.toNat / 2 ^ 32
  let s := s.updGroup c.g fun g => { g with plane := none, shadow := none }
  let s : State := { s with gangs := s.gangs.map fun x => if x.id == gang then { x with left := x.left.filter fun g => g != c.g } else x }
  let s := if (s.gangs.any fun x => x.id == gang && x.left.isEmpty) then s.push .gangCompletion { a := gang } else s
  s.arrayFinish c

/-- A partner fault (R197, R202): the tile takes the invalid mark, MSTAT the cause, and the blocks left are discarded. -/
def State.partnerFault (s : State) (c : Cmd) (cause : Nat) : State :=
  let gang := c.b.toNat / 2 ^ 32
  let s := s.updGroup c.g fun g =>
    let g := if (g.tile? c.tile).isSome then g else { g with tiles := g.tiles ++ [⟨c.tile, false, true, 0⟩] }
    { g with
      mstat := BitVec.ofNat 32 (2 ^ 31 + g.mstat.toNat / 2 ^ 30 % 2 * 2 ^ 30 + c.tile * 2 ^ 20 + c.b.toNat / 2 ^ 16 % 16 * 2 ^ 16 +
        c.pos % 256 * 2 ^ 8 + cause) }
  let s := s.markTile c.g c.tile true
  let s : State := { s with gangs := s.gangs.map fun x => if x.id == gang then { x with error := true } else x }
  -- the chunks that claimed no block yet claim one now, so that it is discarded too
  let late : State × List (Nat × Nat) := match (s.group? c.g).bind fun gr => s.streamFor gr (c.b.toNat / 2 ^ 8 % 16) (c.b.toNat % 8) with
    | some st => if st.rowKind then (s, []) else s.claimMany st c.g (c.len / 2 ^ 32 - c.blocks.length) []
    | none => (s, [])
  let s := late.1
  let c := { c with blocks := c.blocks ++ late.2 }
  let s := (c.blocks.drop c.pos).foldl (fun s x => match s.stream? x.1 with
    | none => s
    | some st => if x.2 < st.read then s.useBlock x.1 c.g x.2
      else s.updStream x.1 fun y => y.updSub c.g fun z => { z with drop := z.drop ++ [x.2] }) s
  s.memberEnd c

/-- The block of a stream as a plane, read from the group's slot (R190, R451). -/
def Stream.plane (st : Stream) (gr : Group) (t : Nat) : Option Plane :=
  (stationary st.rec_.fmt st.rec_.prec).map fun fit =>
    let xs := st.unpack gr t (fit.ks * fit.ns)
    let side := st.beside.find? fun b => b.t == t
    let sc := match side with | some b => b.scales | none => []
    let sm := match side with | some b => b.smooth | none => []
    makePlane st.rec_ fit (st.k0 + t * st.ks) ((List.range xs.length).map fun k => (xs.getD k 0, sc.getD k 127)) sm

/-- Bytes of an activation that a chunk reads for a member lie within the scratchpad (R197). -/
def State.chunkInside (s : State) (c : Cmd) (gr : Group) (p : Plane) (sh : Shape) : Bool :=
  match s.regionOf gr sh with
  | none => false
  | some .glob => true
  | some (.pad g) =>
    let size : Nat := match s.group? g with | some x => x.padSize | none => 0
    let m0 := c.a.toNat % 2 ^ 40
    ((List.range (min 128 c.mv)).all fun m => (List.range p.ks).all fun k =>
      let co := sh.kCoord (p.k0 + k : Nat) (m0 + m : Nat) 0 0
      !sh.inside co ||
        (decide (0 ≤ sh.addrOf co) && decide (sh.addrOf co + fmtBytes sh.fmt ≤ size)))

/-- One step of a gang member (R196, R197): the chunk's block into the stationary plane, or one row. -/
def State.gangStep (s : State) (c : Cmd) (gr : Group) : State :=
  let sh := c.shapeRec
  let kb := c.len / 2 ^ 32
  if c.pend = 0 then
    -- the chunk is checked as the array reaches it
    let claim : Option (State × Nat × Nat) := match c.blocks[c.pos]? with
      | some b => some (s, b)
      | none => match s.streamFor gr (c.b.toNat / 2 ^ 8 % 16) (c.b.toNat % 8) with
        | none => none
        | some st => if st.rowKind then none else (s.claim st c.g).map fun x => (x.1, st.id, x.2)
    match claim with
      -- MLDW's stream comes before MSTR's tile and activation (R196, R437)
      | none => s.partnerFault c 0x03
      | some (s, sid, t) =>
        let c := if c.pos < c.blocks.length then c else { c with blocks := c.blocks ++ [(sid, t)] }
        let s := s.updCmd c.id fun x => { x with blocks := c.blocks }
        if !c.c.getLsbD 63 || sh.fmt = 0 then s.partnerFault c 0x04
        else match s.stream? sid with
        | none => s.partnerFault c 0x03
        | some st => match stationary st.rec_.fmt st.rec_.prec with
          | none => s.partnerFault c 0x04
          | some fit =>
            if fit.tile ≠ cfgFmt c.cfg || !fit.acts.contains sh.fmt then s.partnerFault c 0x04
            else if st.read ≤ t then s
            else match st.plane gr t with
              | none => s.partnerFault c 0x04
              | some p =>
                if !s.chunkInside c gr p sh then s.partnerFault c 0x08
                else
                  let s := s.useBlock sid c.g t
                  -- MLDW, then MSWAP
                  let s := s.updGroup c.g fun g => { g with plane := some p, shadow := g.plane }
                  (s.updCmd c.id fun x => { x with pend := 1 }).push .arrayCommandStart { a := c.unit }
  else match gr.plane with
    | none => s
    | some p =>
      let rows := min 128 (min c.mv (cfgRows c.cfg))
      let next (s : State) : State :=
        if c.done + 1 < rows then (s.updCmd c.id fun x => { x with done := c.done + 1 }).push .arrayCommandStart { a := c.unit }
        else if c.pos + 1 < kb then
          (s.updCmd c.id fun x => { x with done := 0, pos := c.pos + 1, pend := 0 }).push .arrayCommandStart { a := c.unit }
        else (s.updCmd c.id fun x => { x with done := 0, pos := kb, pend := 0 }).memberEnd c
      if rows ≤ c.done then next s
      else c.access .engineRead (s.actRow c gr p sh (c.a.toNat % 2 ^ 40 + c.done) 0) fun s row =>
        next (s.rowInto c gr p sh.fmt c.done c.done (ebit c.a.toNat 40 && decide (c.pos = 0)) row)

/-- A value times 2^k rounded once into a format (R200); none stands for a scale of 0xFF. -/
def scaled (f : Fmt) (ov : Over) (v : FVal) (k : Option Int) : Nat :=
  match k, v with
  | none, _ => f.nan
  | _, .nan _ => f.nan
  | _, .inf n => if f.finiteTop then f.withSign n f.maxFinite else f.withSign n f.inf
  | some k, .fin n m e => (f.roundExact rne ov n (Exact.ofFin n m (e + k))).1

/-- MTLD's element (R200): shape bits and scale exponent to tile bits. -/
def loadCell (tf fmt x e : Nat) : Nat :=
  if tf = 1 then x
  else if tf = 2 then match fmtElem fmt with
    | some (.int w) => ofIntBits 32 (toIntBits w x)
    | _ => x
  else match fmtFloat fmt with
    | some f => scaled .fp32 .ieee (f.unpack x) (if e = 255 then none else some ((e : Int) - 127))
    | none => x

/-- MTST's element (R200): tile bits to shape bits. `e` is the destination's scale exponent. -/
def storeCell (tf fmt scmode x e : Nat) : Nat :=
  if tf = 1 then x
  else if tf = 2 then
    let v := toIntBits 32 x
    match fmtElem fmt with
    | some (.int w) => (cvtElem .onRead rne (.int 32) (.int w) x).1
    | some (.flt f) =>
      let e : Nat := if scmode = 1 then e else 127
      scaled f .saturate (.fin (decide (v < 0)) v.natAbs 0) (if e = 255 then none else some ((e : Int) - 127))
    | none => x
  else match fmtFloat fmt with
    | some f => scaled f .saturate (Fmt.fp32.unpack x) (if e = 255 then none else some (127 - (e : Int)))
    | none => x

/-- One row of MTLD or MTST. -/
def State.moveRow (s : State) (c : Cmd) (gr : Group) (reg : Region) (sh : Shape) (store : Bool) : MemRes Unit :=
  let cfg := c.cfg
  let r := c.done
  let n0 := c.a.toNat % 2 ^ 32
  let m0 := c.a.toNat / 2 ^ 32
  let at_ (n : Nat) : Coord := ⟨(n0 + n : Nat), (m0 + r : Nat), 0, 0⟩
  if store then
    (eachMem (fun s n =>
      if !sh.inside (at_ n) then .ok s ()
      else (s.scaleOf c.unit c.ctx reg sh (at_ n)).andThen fun s e =>
        s.engWrite c.unit c.ctx reg (sh.addrOf (at_ n))
          (leBytes (fmtBytes sh.fmt) (storeCell (cfgFmt cfg) sh.fmt sh.scmode (gr.cell cfg r n) e)))
      (List.range (cfgCols cfg)) s).andThen fun s _ => .ok s ()
  else
    (eachMem (fun s n =>
      if !sh.inside (at_ n) then .ok s 0
      else (s.blockElem c.unit c.ctx reg sh (at_ n)).andThen fun s x =>
        (s.scaleOf c.unit c.ctx reg sh (at_ n)).andThen fun s e => .ok s (loadCell (cfgFmt cfg) sh.fmt x e))
      (List.range (cfgCols cfg)) s).andThen fun s xs =>
        .ok (s.setCells c.g cfg ((List.range (cfgCols cfg)).map fun n => (r, n, xs.getD n 0))) ()

/-- MTROW and MTCOL fill their registers (R201), lane by lane as every long-latency result lands (R130, R137, R97). -/
def State.landLine (s : State) (c : Cmd) (gr : Group) (row : Bool) : State :=
  let cfg := c.cfg
  let sp := lineSpan row cfg c.b.toNat
  let idx := c.a.toNat
  let bad := gr.tileInvalid c.tile
  let el (e : Nat) : Nat := if bad || decide (sp.1 ≤ e) then 0 else if row then gr.cell cfg idx e else gr.cell cfg e idx
  let wide := cfgFmt cfg == 1
  let who : LaneMask := BitVec.ofNat 32 c.len
  (s.updWave c.g c.w fun w => (List.range sp.2.2.length).foldl (fun w j =>
    let reg := sp.2.2.getD j 0
    let val (l : Nat) : Word :=
      if wide then BitVec.ofNat 32 (el (32 * (j / 2) + l) / 2 ^ (32 * (j % 2))) else BitVec.ofNat 32 (el (32 * j + l))
    let tag : BitVec 4 := if bad then tMIXED else if wide then (if j % 2 = 0 then tFP64L else tFP64H) else
      BitVec.ofNat 4 (tileTag (cfgFmt cfg))
    (lanesOf who).foldl (fun w l => w.landV reg l tag (val l) who) w) w).resave c.g c.w

/-- MTWROW and MTWCOL copy the registers' bits into the tile (R201). -/
def State.writeLine (s : State) (c : Cmd) (row : Bool) : State :=
  let cfg := c.cfg
  let sp := lineSpan row cfg c.b.toNat
  let idx := c.a.toNat
  let word (j l : Nat) : Nat := leNat ((c.payload.drop (4 * (32 * j + l))).take 4)
  let el (e : Nat) : Nat := if cfgFmt cfg = 1 then word (2 * (e / 32)) (e % 32) + 2 ^ 32 * word (2 * (e / 32) + 1) (e % 32)
    else word (e / 32) (e % 32)
  s.setCells c.g cfg ((List.range sp.1).map fun e => if row then (idx, e, el e) else (e, idx, el e))

/-- MJOIN's element (R199). -/
def joinCell (tf x y : Nat) : Nat :=
  if tf = 2 then (x + y) % 2 ^ 32 else sumVals (tileFmt tf) [(tileFmt tf).unpack x, (tileFmt tf).unpack y]

/-- One step of a command that the array runs: the whole of a short one, one row of a long one. An MSTR whose row stream has
another K_s than the stationary plane reads K_s of the plane's elements from where its own row starts in the slot.
DESIGN CHOICE (log 80). -/
def State.arrayStep (s : State) (c : Cmd) (gr : Group) : State :=
  let s := s.updCmd c.id fun x => { x with started := true }
  let cfg := c.cfg
  let sh := c.shapeRec
  let again (s : State) : State := s.push .arrayCommandStart { a := c.unit }
  let row (s : State) (k : State) : State :=
    if c.done + 1 < c.len then again (s.updCmd c.id fun x => { x with done := c.done + 1 })
    else (k.updCmd c.id fun x => { x with done := c.done + 1 }).arrayFinish c
  if c.op = 0 then (s.markTile c.g c.tile false).arrayFinish c
  else if c.op = 1 then
    let s := s.setCells c.g cfg ((List.range (cfgRows cfg * cfgCols cfg)).map fun p => (p / cfgCols cfg, p % cfgCols cfg, 0))
    (s.markTile c.g c.tile false).arrayFinish c
  else if c.op = 2 then
    match c.blocks with
    | b :: _ => match s.stream? b.1 with
      | none => s.arrayFinish c
      | some st =>
        let p := st.plane gr b.2
        ((s.updGroup c.g fun g => { g with shadow := p }).useBlock b.1 c.g b.2).arrayFinish c
    | [] => match stationary sh.fmt sh.prec, s.regionOf gr sh with
      | some fit, some reg =>
        let k0 := c.a.toNat % 2 ^ 32
        c.access .engineRead (s.blockRead c.unit c.ctx reg sh
          (sh.blockCoords k0 (c.a.toNat / 2 ^ 32) (c.b.toNat % 2 ^ 32) (c.b.toNat / 2 ^ 32) fit.ks fit.ns)) fun s xs =>
          (s.updGroup c.g fun g => { g with shadow := some (makePlane sh fit k0 xs (gr.smoothOf sh k0 fit.ks)) }).arrayFinish c
      | _, _ => s.arrayFinish c
  else if c.op = 3 then (s.updGroup c.g fun g => { g with plane := g.shadow, shadow := g.plane }).arrayFinish c
  else if c.op = 4 then
    match gr.plane with
    | none => s.arrayFinish c
    | some p =>
      let t0 := c.b.toNat % 2 ^ 8
      let zero := ebit c.a.toNat 32
      let into (s : State) (xs : List (Nat × Nat)) : State := s.rowInto c gr p sh.fmt (t0 + c.done) c.done zero xs
      match c.blocks with
      | b :: _ => match s.stream? b.1 with
        | none => s.arrayFinish c
        | some st =>
          let side := st.beside.find? fun x => x.t == b.2
          let el := st.unpack gr b.2 (st.rows * st.ks)
          let xs := (List.range p.ks).map fun k =>
            (el.getD (c.done * st.ks + k) 0, match side with | some x => x.scales.getD (c.done * st.ks + k) 127 | none => 127)
          let s := into s xs
          row s (s.useBlock b.1 c.g b.2)
      | [] =>
        if c.mv ≤ c.done then row s s
        else c.access .engineRead (s.actRow c gr p sh (c.a.toNat % 2 ^ 32 + c.done) (c.b.toNat / 2 ^ 32)) fun s xs =>
          let s := into s xs
          row s s
  else if c.op = 5 then s.gangStep c gr
  else if c.op = 7 then
    match s.group? c.b.toNat with
    | none => s.arrayFinish c
    | some pg =>
      let cs : BitVec 48 := c.a.setWidth 48
      let ts := c.a.toNat / 2 ^ 48 % 16
      if gr.tileInvalid c.tile || pg.tileInvalid ts then (s.markTile c.g c.tile true).arrayFinish c
      else
        let s := s.setCells c.g cfg ((List.range (cfgCols cfg)).map fun n =>
          (c.done, n, joinCell (cfgFmt cfg) (gr.cell cfg c.done n) (pg.cell cs c.done n)))
        row s s
  else if c.op = 8 then
    match s.regionOf gr sh with
    | none => s.arrayFinish c
    | some reg => c.access .engineRead (s.moveRow c gr reg sh false) fun s _ => row s (s.markTile c.g c.tile false)
  else if c.op = 9 then
    match s.regionOf gr sh with
    | none => s.arrayFinish c
    | some reg =>
      if gr.tileInvalid c.tile then (s.updCmd c.id fun x => { x with error := true }).arrayFinish c
      else c.access .engineWrite ((s.moveRow c gr reg sh true).whole s) fun s _ => row s s
  else if c.op = 10 then (s.landLine c gr true).arrayFinish c
  else if c.op = 11 then (s.landLine c gr false).arrayFinish c
  else if c.op = 12 then (s.writeLine c true).arrayFinish c
  else if c.op = 13 then (s.writeLine c false).arrayFinish c
  else s.arrayFinish c

/-- The command waits in the array for a block that has not landed (R195). DEDUCED (log 35). -/
def State.arrayWaits (s : State) (c : Cmd) : Bool :=
  match (if c.op = 5 then (if c.pend = 0 then c.blocks[c.pos]? else none) else c.blocks.head?) with
  | some b => match s.stream? b.1 with
    | some st => decide (st.read ≤ b.2)
    | none => false
  | none => false

/-- The oldest unfinished array command of each group of a core (R188), if it can work now. While one waits for a stream's block or
for a page, the array runs those of other groups. DESIGN CHOICE (log 80). -/
def State.arrayHeads (s : State) (core : Nat) : List Cmd :=
  let q := s.queueOf 1 core
  let gs := (q.map (·.g)).eraseDups
  (gs.filterMap fun g => q.find? fun c => c.g == g).filter fun c =>
    s.cmdGoes c && !c.finished && !s.arrayWaits c && !(s.faults.any fun f => f.cmd == some c.id)

/-- The command that the array runs: the one under way, else that of the next group in turn (R188). DEDUCED (log 35). -/
def State.arrayPick (s : State) (core : Nat) : Option Cmd :=
  let hs := s.arrayHeads core
  match hs.find? fun c => c.started with
  | some c => some c
  | none =>
    let last : Nat := match s.arrayTurn.find? fun x => x.1 == core with | some x => x.2 | none => 0
    let low (cs : List Cmd) : Option Cmd := cs.foldl (fun (o : Option Cmd) (c : Cmd) => match o with
      | some (b : Cmd) => if c.g < b.g then some c else some b
      | none => some c) none
    let later : List Cmd := hs.filter fun c => Nat.blt last c.g
    (low later).or (low hs)

/-- ARRAY_COMMAND_START (R188): one step of the core's array. It brings the core. -/
def State.arrayStart (s : State) (core : Nat) : State :=
  match s.arrayPick core with
  | none => s
  | some c => match s.group? c.g with
    | none => s
    | some gr =>
      let s : State := { s with arrayTurn := (s.arrayTurn.filter fun x => x.1 != core) ++ [(core, c.g)] }
      s.arrayStep c gr

/-- ARRAY_COMMAND_START. -/
def execArrayCommandStart (s : State) : Res := .next (s.arrayStart s.ev.a)

/-- ARRAY_COMMAND_COMPLETE (R188): entries freed, the barrier's arrival, and the array goes on. It brings the command. -/
def State.arrayDone (s : State) (id : Nat) : State :=
  match s.cmd? id with
  | none => s
  | some c =>
    if c.engine ≠ 1 || !c.finished || !s.cmdGoes c then s
    else
      let s := ((s.unlock id).dropCmd id).acted c.ctx
      let s := s.cmdBar c (fun w => w.arrive 1 c.error) (barPacket 0 (1 + (if c.error then 2 ^ 16 else 0)))
      s.push .arrayCommandStart { a := c.unit }

/-- ARRAY_COMMAND_COMPLETE. -/
def execArrayCommandComplete (s : State) : Res := .next (s.arrayDone s.ev.a)

/-- GANG_COMPLETION (R196, R197): every member has completed or aborted; each member's barrier gets one arrival. It brings
the gang. -/
def State.gangDone (s : State) (id : Nat) : State :=
  match s.gangs.find? fun x => x.id == id with
  | none => s
  | some x =>
    if !x.left.isEmpty then s
    else
      let s := ({ s with gangs := s.gangs.filter fun y => y.id != id } : State).unlock id
      match x.boff with
      | none => s
      | some off => x.members.foldl (fun s g => s.barArrive (.pad g off) 1 x.error) s

/-- GANG_COMPLETION. -/
def execGangCompletion (s : State) : Res := .next (s.gangDone s.ev.a)

end Sys2Proof.Machine
end

