-- ==== Sys2Proof/Machine/Press.lean ====
section
/-! DEFINITION. The press (R356 to R365, R438 to R441): the collective record, tiles and their merges, binary swap and ring,
lost tiles, and completion. -/

namespace Sys2Proof.Machine

open Host

/-! ## The collective record (R357) -/

/-- Bits [lo + w - 1 : lo] of qword q of a record. -/
def recBits (r : List Byte) (q lo w : Nat) : Nat := leNat ((r.drop (8 * q)).take 8) / 2 ^ lo % 2 ^ w

def rcCollid (r : List Byte) : Nat := recBits r 0 32 32
def rcRank (r : List Byte) : Nat := recBits r 0 24 8
def rcRanks (r : List Byte) : Nat := recBits r 0 16 8 + 1
def rcMerge (r : List Byte) : Nat := recBits r 0 7 3
def rcRing (r : List Byte) : Bool := recBits r 0 6 1 == 1
def rcSum (r : List Byte) : Bool := 3 ≤ rcMerge r
/-- Sums always gather. -/
def rcGather (r : List Byte) : Bool := recBits r 0 12 1 == 1 || rcSum r

/-- The record and the two shapes that a press command keeps. -/
def Cmd.pressRec (c : Cmd) : List Byte := c.payload.take 64
def Cmd.pressIn (c : Cmd) : Shape := BitVec.ofNat 512 (leNat ((c.payload.drop 64).take 64))
def Cmd.pressOut (c : Cmd) : Shape := BitVec.ofNat 512 (leNat ((c.payload.drop 128).take 64))

/-- R358. -/
def State.pressMalformed (s : State) (p : Part) (r : List Byte) (inn out : Shape) : Bool :=
  let ranks := rcRanks r
  let bar := recBits r 3 0 64
  let rsv := recBits r 0 13 3 + recBits r 0 0 6 + recBits r 2 29 35 + recBits r 4 13 51 + recBits r 5 0 64 + recBits r 6 0 64 +
    recBits r 7 0 64
  rsv != 0 || ranks == 1 || recBits r 0 10 2 == 3 || decide (4 < rcMerge r) || decide (ranks ≤ rcRank r) ||
  (!rcRing r && 2 ^ Nat.log2 ranks != ranks) || (rcRing r && !rcSum r) ||
  inn.fmt == 0 || out.fmt == 0 || inn.space != 0 || out.space != 0 ||
  (if rcSum r then
    !(inn.fmt == 2 || inn.fmt == 6) || out.fmt != (if rcMerge r = 3 then 2 else 6) || inn.count != out.count
   else inn.fmt != 14 || out.fmt != 14 || inn.size 0 != out.size 0 || inn.size 1 != out.size 1) ||
  (recBits r 4 12 1 == 1 && (s.sendChan p (recBits r 4 0 12)).isNone) ||
  (bar != 0 && (bar % 16 != 0 || decide (2 ^ 57 ≤ bar)))

/-- The status that a press gives a record (R356). -/
def State.pressStatus (s : State) (p : Part) (press : Nat) (r : List Byte) (inn out : Shape) : Nat :=
  if !(s.top.ports.contains (press, p.n)) then 3
  else if s.pressMalformed p r inn out then 1
  else if 16 ≤ (s.queueOf 5 press).length then 2 else 0

/-- PRESS (R356, R365). The press decides as the record is read; LOSSDEF is read on acceptance (R443). DEDUCED (log 37). -/
def execPress (a b c : BitVec 7) (s : State) : Res :=
  s.issue {} (fun i => sOk i.wv a.toNat && sOk i.wv b.toNat && sOk i.wv c.toNat) true (sSrcs [(1, b.toNat), (2, c.toNat)])
    [(true, a.toNat)] fun i =>
    match s.accessWait i.c.g i.c.w false true with
    | some w => .next (s.block i w)
    | none => readRecord s i (i.wv.sreg b.toNat).val 64 fun s r =>
      let press := (i.wv.sreg c.toNat).val.toNat % 8
      match s.partOf i.grp.ctx with
      | none => .next (s.violate i 0 12 0 0 .engineRead 0)
      | some p =>
        let inn := s.shapeOf i.grp.ctx (recBits r 2 0 8)
        let out := s.shapeOf i.grp.ctx (recBits r 2 8 8)
        let st := s.pressStatus p press r inn out
        let fill (s : State) : State := s.updCur i fun w => w.setS a.toNat (BitVec.ofNat 64 st) tI32
        if st ≠ 0 then .next ((fill s).retire i)
        else
          let src : Ext := ⟨none, inn.extent.1.toNat, inn.extent.2.toNat⟩
          let dst : Ext := ⟨none, out.extent.1.toNat, out.extent.2.toNat⟩
          match s.tokenWord i dst with
          | some t => .next (s.trap i 0x0D t.1 t.2)
          | none => match s.engineWait i 5 [src] [dst] with
            | some w => .next (s.block i w)
            | none =>
              let loss := recBits r 0 10 2
              let tiles : Nat := if rcSum r then (inn.count + 1023) / 1024 else (inn.size 0 + 7) / 8 * ((inn.size 1 + 7) / 8)
              let cm := { i.cmd s 5 3 0 0 0 0 tiles false (BitVec.ofNat 64 (recBits r 3 0 64)) with
                unit := press, detail := BitVec.ofNat 64 (rcCollid r * 2 ^ 32)
                payload := r ++ leBytes 64 inn.toNat ++ leBytes 64 out.toNat }
              let co : Coll := ⟨s.seq, p.n, BitVec.ofNat 64 (leNat (r.take 8)), loss == 1 || (loss == 0 && !p.mode.getLsbD 8),
                [], [], [], 0, false, false⟩
              let s := s.addCmd i cm [src] [dst] [⟨.pressCollectiveStart, { a := press }⟩]
              .next ((fill { s with colls := s.colls ++ [co] }).retire i)

/-! ## Tiles (R359, R438) -/

/-- A pixel: four FP16 channels and an FP32 depth, or four weighted FP32 channels and an FP32 count. -/
abbrev Pixel := List Nat

/-- Channel and last-word bytes of a pixel in a packet. -/
def pixBytes (wide : Bool) (p : Pixel) : List Byte :=
  let w : Nat := if wide then 4 else 2
  (List.range 4).flatMap (fun k => leBytes w (p.getD k 0)) ++ leBytes 4 (p.getD 4 0)
def pixOf (wide : Bool) (bs : List Byte) : Pixel :=
  let w : Nat := if wide then 4 else 2
  (List.range 4).map (fun k => leNat ((bs.drop (w * k)).take w)) ++ [leNat ((bs.drop (4 * w)).take 4)]
def pixSize (wide : Bool) : Nat := if wide then 20 else 12

/-- R359: an image tile encoded: EMPTY, CONST or RAW. -/
def imageTile (wide : Bool) (t : Nat) (px : List (Option Pixel)) : List Byte :=
  let cover := (List.range 64).foldl (fun a k => if (px.getD k none).isSome then a + 2 ^ k else a) 0
  let on := px.filterMap id
  let hdr (mode : Nat) : List Byte := leBytes 8 cover ++ leBytes 8 (t * 2 ^ 32 + (if wide then 4 else 0) + mode)
  match on with
  | [] => hdr 0
  | p :: _ =>
    if on.all (· == p) then hdr 1 ++ pixBytes wide p
    else hdr 2 ++ px.flatMap fun o => match o with
      | some p => pixBytes wide p
      | none => List.replicate (pixSize wide) 0

def tileCover (pk : List Byte) : Nat := leNat (pk.take 8)
def tileMode (pk : List Byte) : Nat := leNat ((pk.drop 8).take 8) % 4
def tileIndex (pk : List Byte) : Nat := leNat ((pk.drop 8).take 8) / 2 ^ 32

/-- Pixels of an image tile packet. -/
def tilePixels (wide : Bool) (pk : List Byte) : List (Option Pixel) :=
  let n := pixSize wide
  (List.range 64).map fun k =>
    if !ebit (tileCover pk) k then none
    else if tileMode pk = 1 then some (pixOf wide ((pk.drop 16).take n))
    else some (pixOf wide ((pk.drop (16 + n * k)).take n))

/-- A tensor tile encoded (R359). -/
def tensorTile (t : Nat) (xs : List Nat) : List Byte :=
  let body := xs.flatMap (leBytes 4)
  leBytes 8 0 ++ leBytes 8 (t * 2 ^ 32 + 8 + 2) ++ body ++ List.replicate (4096 - body.length) 0
def tensorElems (pk : List Byte) : List Nat := (List.range 1024).map fun k => leNat ((pk.drop (16 + 4 * k)).take 4)

/-- The form of a packet agrees with the merge. -/
def tileFits (sum wide : Bool) (pk : List Byte) : Bool :=
  let h := leNat ((pk.drop 8).take 8)
  let m := tileMode pk
  decide (h / 16 % 2 ^ 28 = 0) && (ebit h 3 == sum) && (ebit h 2 == (wide && !sum)) &&
  (if sum then m == 2 && pk.length == 4112
   else (m == 0) == (tileCover pk == 0) &&
     ((m == 0 && pk.length == 16) || (m == 1 && pk.length == 16 + pixSize wide) || (m == 2 && pk.length == 16 + 64 * pixSize wide)))

/-! ## Merges (R360, R361) -/

/-- 1 − x, exactly. -/
def oneMinus : FVal → FVal
  | .nan b => .nan b
  | .inf n => .inf (!n)
  | .fin n m e =>
    let x := (Exact.mk 1 0).add (Exact.ofFin (!n) m e)
    .fin (decide (x.m < 0)) x.m.natAbs x.e

/-- a × b + c rounded once into a format with R134's saturation; zeros as R186 gives. -/
def fmaSat (f : Fmt) (a b c : FVal) : Nat :=
  match a, b, c with
  | .fin n1 m1 e1, .fin n2 m2 e2, .fin n3 m3 e3 =>
    (f.roundExact rne .saturate ((n1 != n2) && n3)
      (((Exact.ofFin n1 m1 e1).mul (Exact.ofFin n2 m2 e2)).add (Exact.ofFin n3 m3 e3))).1
  | _, _, _ => (f.fmaVal rne a b (some c)).1

/-- The depth of the second is less; a NaN is farther than every number (R360). -/
def depthLess (first second : Nat) : Bool :=
  let a := Fmt.fp32.unpack first
  let b := Fmt.fp32.unpack second
  if b.isNan then false else if a.isNan then true else b.lt a

/-- A pixel covered in both operands (R360). -/
def mergePixel (merge : Nat) (x y : Pixel) : Pixel :=
  if merge = 0 then (if depthLess (x.getD 4 0) (y.getD 4 0) then y else x)
  else if merge = 1 then
    let yFront := depthLess (x.getD 4 0) (y.getD 4 0)
    let fr := if yFront then y else x
    let bk := if yFront then x else y
    let inv := oneMinus (Fmt.fp16.unpack (fr.getD 3 0))
    (List.range 4).map (fun k => fmaSat .fp16 inv (Fmt.fp16.unpack (bk.getD k 0)) (Fmt.fp16.unpack (fr.getD k 0))) ++ [fr.getD 4 0]
  else (List.range 5).map fun k => (Fmt.fp32.add rne (x.getD k 0) (y.getD k 0)).1

/-- Two tiles merged, first operand first; the result encoded again. An EMPTY operand yields the other as it is (R359). -/
def mergeTiles (merge t : Nat) (x y : List Byte) : List Byte :=
  if 3 ≤ merge then
    tensorTile t (List.zipWith (fun a b => (Fmt.fp32.add rne a b).1) (tensorElems x) (tensorElems y))
  else if tileMode x = 0 then y
  else if tileMode y = 0 then x
  else
    let wide := merge == 2
    imageTile wide t (List.zipWith (fun (p q : Option Pixel) => match p, q with
      | some a, some b => some (mergePixel merge a b)
      | some a, none => some a
      | none, o => o) (tilePixels wide x) (tilePixels wide y))

/-! ## Reading IN and writing OUT -/

/-- Element n of a tensor, dimension 0 fastest (R359). -/
def Shape.nth (r : Shape) (n : Nat) : Coord :=
  let a := max 1 (r.size 0)
  let b := max 1 (r.size 1)
  let c := max 1 (r.size 2)
  ⟨(n % a : Nat), (n / a % b : Nat), (n / a / b % c : Nat), (n / a / b / c : Nat)⟩

/-- Pixel k of tile t of an image (R359): tiles and pixels in row-major order. -/
def Shape.tilePixel (r : Shape) (t k : Nat) : Coord :=
  let per := max 1 ((r.size 0 + 7) / 8)
  ⟨(t % per * 8 + k % 8 : Nat), (t / per * 8 + k / 8 : Nat), 0, 0⟩

/-- An input pixel as the press takes it (R359, R360): none when uncovered. For SAMPLES the depth word is a count, and the
channels are weighted by it. -/
def pixelIn (merge : Nat) (bs : List Byte) : Option Pixel :=
  let p := pixOf false bs
  let d := p.getD 4 0
  if merge = 2 then
    if toIntBits 32 d ≤ 0 then none
    else
      let n : FVal := .fin false d 0
      some ((List.range 4).map (fun k => (Fmt.fp32.fmaVal rne (Fmt.fp16.unpack (p.getD k 0)) n none).1) ++
        [(Fmt.fp32.roundExact rne .ieee false ⟨d, 0⟩).1])
  else if d = 0x7F800000 then none else some p

/-- A result pixel as OUT takes it (R360). -/
def pixelOut (merge : Nat) (o : Option Pixel) : List Byte :=
  match o with
  | none => leBytes 8 0 ++ leBytes 4 (if merge = 2 then 0 else 0x7F800000)
  | some p =>
    if merge = 2 then
      let n := Fmt.fp32.unpack (p.getD 4 0)
      (List.range 4).flatMap (fun k => leBytes 2 (quotient .fp16 .ieee (Fmt.fp32.unpack (p.getD k 0)) n)) ++
        leBytes 4 (cvtElem .onRead rne (.flt .fp32) (.int 32) (p.getD 4 0)).1
    else pixBytes false p

/-- Read a list of elements of a global shape, each n bytes; none outside the shape. -/
def State.readElems (s : State) (core ctx : Nat) (r : Shape) (n : Nat) : List Coord → MemRes (List (Option (List Byte)))
  | [] => .ok s []
  | co :: cs =>
    if !r.inside co then
      match s.readElems core ctx r n cs with
      | .ok s xs => .ok s (none :: xs)
      | x => x
    else match s.engRead core ctx .glob (r.addrOf co) n with
      | .viol s a k l i => .viol s a k l i
      | .fault s a e => .fault s a e
      | .ok s bs => match s.readElems core ctx r n cs with
        | .ok s xs => .ok s (some bs :: xs)
        | x => x

/-- This rank's own tile t (R359, R361), encoded. -/
def State.ownTile (s : State) (core ctx : Nat) (r : List Byte) (inn : Shape) (t : Nat) : MemRes (List Byte) :=
  if rcSum r then
    let cs := ((List.range 1024).map (1024 * t + ·)).filter (· < inn.count)
    match s.readElems core ctx inn (fmtBytes inn.fmt) (cs.map inn.nth) with
    | .ok s xs => .ok s (tensorTile t (xs.map fun o =>
        let x := leNat (o.getD [])
        if inn.fmt = 2 then x else (cvtElem .onRead rne (.flt .bf16) (.flt .fp32) x).1))
    | .viol s a k l i => .viol s a k l i
    | .fault s a e => .fault s a e
  else match s.readElems core ctx inn 12 ((List.range 64).map (inn.tilePixel t)) with
    | .ok s xs => .ok s (imageTile (rcMerge r == 2) t (xs.map fun o => match o with
        | some bs => pixelIn (rcMerge r) bs
        | none => none))
    | .viol s a k l i => .viol s a k l i
    | .fault s a e => .fault s a e

def State.ownTiles (s : State) (core ctx : Nat) (r : List Byte) (inn : Shape) : List Nat → MemRes (List (Nat × List Byte))
  | [] => .ok s []
  | t :: ts => match s.ownTile core ctx r inn t with
    | .viol s a k l i => .viol s a k l i
    | .fault s a e => .fault s a e
    | .ok s x => match s.ownTiles core ctx r inn ts with
      | .ok s xs => .ok s ((t, x) :: xs)
      | y => y

/-- The bytes of OUT that a final tile gives: address and bytes of each element inside OUT. -/
def tileOut (r : List Byte) (out : Shape) (t : Nat) (pk : List Byte) : List (Int × List Byte) :=
  if rcSum r then
    let xs := tensorElems pk
    (((List.range 1024).filter fun k => 1024 * t + k < out.count).map fun k =>
      let x := xs.getD k 0
      let v : Nat := if out.fmt = 2 then x else match Fmt.fp32.unpack x with
        | .nan _ => Fmt.bf16.nan
        | .inf n => Fmt.bf16.withSign n Fmt.bf16.inf
        | .fin n m e => (Fmt.bf16.roundExact rne .ieee n (Exact.ofFin n m e)).1
      (out.addrOf (out.nth (1024 * t + k)), leBytes (fmtBytes out.fmt) v))
  else
    let px := tilePixels (rcMerge r == 2) pk
    ((List.range 64).filter fun k => out.inside (out.tilePixel t k)).map fun k =>
      (out.addrOf (out.tilePixel t k), pixelOut (rcMerge r) (px.getD k none))

/-- Write elements at the homes. -/
def State.writeElems (s : State) (core ctx : Nat) : List (Int × List Byte) → MemRes Unit
  | [] => .ok s ()
  | (a, bs) :: rest =>
    match s.engWrite core ctx .glob a bs with
    | .ok s _ => s.writeElems core ctx rest
    | x => x

/-- Consecutive pieces of a byte list, of the lengths of those of another. -/
def cutLike : List (Int × List Byte) → List Byte → List (Int × List Byte)
  | [], _ => []
  | (a, xs) :: rest, bs => (a, bs.take xs.length) :: cutLike rest (bs.drop xs.length)

/-- WHERE of a tile's result in a recording: the address of its first element in OUT (R431). DEDUCED (log 60). -/
def tileWhere (es : List (Int × List Byte)) : DWord := BitVec.ofInt 64 (match es with | e :: _ => e.1 | [] => 0)

/-- A final tile is written into OUT, whole; it is an input of a DET context (R431). -/
def State.writeTile (s : State) (c : Cmd) (x : PressTile) : MemRes Unit :=
  let es := tileOut c.pressRec c.pressOut x.t x.packet
  let d := s.detInput c.launch 2 (tileWhere es) 0 (es.flatMap fun e => e.2)
  (d.1.writeElems (s.ctlCore c.ctx) c.ctx (cutLike es d.2.2)).whole s

/-! ## Who keeps and sends what (R362, R363) -/

/-- Binary swap: the range of rank k after r rounds. -/
def swapRange (tiles k : Nat) : Nat → Nat × Nat
  | 0 => (0, tiles)
  | r + 1 =>
    let x := swapRange tiles k r
    let mid := x.1 + (x.2 - x.1 + 1) / 2
    if ebit k r then (mid, x.2) else (x.1, mid)

def inRange (x : Nat × Nat) (t : Nat) : Bool := decide (x.1 ≤ t) && decide (t < x.2)

/-- Ring: the block of a tile among p. -/
def ringBlock (tiles p t : Nat) : Nat := ((List.range p).find? fun b => decide (b * tiles / p ≤ t) && decide (t < (b + 1) * tiles / p)).getD 0

def swapRounds (p : Nat) : Nat := Nat.log2 p
/-- k XOR 2^r. -/
def partner (k r : Nat) : Nat := if ebit k r then k - 2 ^ r else k + 2 ^ r

/-- The tiles that a rank writes into OUT (R441). -/
def neededTile (r : List Byte) (tiles t : Nat) : Bool :=
  rcGather r || inRange (swapRange tiles (rcRank r) (swapRounds (rcRanks r))) t

/-- What a tile at a level makes its rank send, and whether it is final there. Each send is (rank, gathering). -/
def tileSends (r : List Byte) (tiles t level : Nat) : List (Nat × Bool) × Bool :=
  let k := rcRank r
  let p := rcRanks r
  if rcRing r then
    let b := ringBlock tiles p t
    if level = 0 then ([], false)
    else if k = b then ((if (k + 1) % p = b then [] else [((k + 1) % p, true)]), true)
    else ([((k + 1) % p, false)], false)
  else
    let n := swapRounds p
    if level = n then
      ((if rcGather r then (List.range n).reverse.map fun j => (partner k j, true) else []), true)
    else if inRange (swapRange tiles k (level + 1)) t then ([], false)
    else ([(partner k level, false)], false)

/-- Where a result received in the gathering goes on to (R362, R363). -/
def gatherSends (r : List Byte) (tiles t src : Nat) : List (Nat × Bool) :=
  let k := rcRank r
  let p := rcRanks r
  if rcRing r then (if (k + 1) % p = ringBlock tiles p t then [] else [((k + 1) % p, true)])
  else match (List.range (swapRounds p)).find? fun j => partner k j == src with
    | some j => (List.range j).reverse.map fun x => (partner k x, true)
    | none => []

/-- The round of a tile, beside the rank and the gathering: for a ring, its block. -/
def roundOf (r : List Byte) (tiles t : Nat) : Nat := if rcRing r then ringBlock tiles (rcRanks r) t else 0

/-- This rank sends a tile to a rank, in the gathering or before it, at some time in the collective (R362, R363). -/
def sendsTo (r : List Byte) (tiles t to_ : Nat) (gather : Bool) : Bool :=
  let k := rcRank r
  let p := rcRanks r
  if rcRing r then
    let b := ringBlock tiles p t
    to_ == (k + 1) % p && (if gather then to_ != b else k != b)
  else (List.range (swapRounds p)).any fun j => partner k j == to_ &&
    (if gather then rcGather r && inRange (swapRange tiles k (j + 1)) t
     else inRange (swapRange tiles k j) t && !inRange (swapRange tiles k (j + 1)) t)

/-- The tiles of one round: what this rank sends in it to one rank. -/
def roundTiles (r : List Byte) (tiles to_ : Nat) (gather : Bool) (round : Nat) : List Nat :=
  (List.range tiles).filter fun t => roundOf r tiles t == round && sendsTo r tiles t to_ gather

/-- The level at which rank `src`'s tile is merged here, if it sends one. -/
def mergeLevel (r : List Byte) (tiles t src : Nat) : Option Nat :=
  let k := rcRank r
  let p := rcRanks r
  if rcRing r then
    let b := ringBlock tiles p t
    if src = (k + p - 1) % p && k != (b + 1) % p then some 0 else none
  else (List.range (swapRounds p)).find? fun j => partner k j == src && inRange (swapRange tiles k (j + 1)) t

/-! ## Running a collective -/

def State.coll? (s : State) (id : Nat) : Option Coll := s.colls.find? fun c => c.id == id
def State.updColl (s : State) (id : Nat) (f : Coll → Coll) : State :=
  { s with colls := s.colls.map fun c => if c.id == id then f c else c }
def Coll.tile (c : Coll) (t : Nat) : Option PressTile := c.tiles.find? fun x => x.t == t
def Coll.setTile (c : Coll) (x : PressTile) : Coll := { c with tiles := c.tiles.map fun y => if y.t == x.t then x else y }

/-- The collective that the press runs: the oldest it holds (R365). -/
def State.pressHead (s : State) (press : Nat) : Option (Cmd × Coll) :=
  match s.queueOf 5 press with
  | c :: _ => (s.coll? c.id).map fun k => (c, k)
  | [] => none

/-- The press is its partition's, and the module has an identity; an unassigned port carries no traffic (R17, R326). -/
def State.pressOpen (s : State) (press part : Nat) : Bool := s.top.ports.contains (press, part) && s.top.pkgid.isSome

/-- A packet leaves for a rank: the peer's rank-table entry, the first qword of the sender's record, its rank, 1 in the gathering
with 2 for a notice, the packet's number, and what it carries. -/
def State.pressPacket (s : State) (c : Cmd) (co : Coll) (x : PressSend) (what : List Byte) : State :=
  let e := recBits (c.payload.drop (192 + 8 * x.rank)) 0 0 21
  if s.pressOpen c.unit co.part then
    s.emit (.press c.unit e (leBytes 8 co.word0.toNat ++ leBytes 1 (rcRank c.pressRec) ++
      leBytes 1 ((if x.gather then 1 else 0) + if x.notice then 2 else 0) ++ leBytes 8 x.id ++ what))
  else s

/-- Send a tile's packet to a rank, and await its acknowledgement (R342). -/
def State.sendTile (s : State) (c : Cmd) (co : Coll) (t to_ : Nat) (gather : Bool) (pk : List Byte) : State :=
  let x : PressSend := ⟨s.seq, to_, t, gather, false, 0, 0⟩
  (s.fresh.updColl co.id fun k => { k with sends := k.sends ++ [x] }).pressPacket c co x pk

def State.sendTiles (s : State) (c : Cmd) (co : Coll) (t : Nat) (pk : List Byte) (xs : List (Nat × Bool)) : State :=
  xs.foldl (fun s x => s.sendTile c co t x.1 x.2 pk) s

/-- The tiles of a round that were lost. -/
def Coll.lostOf (co : Coll) (to_ : Nat) (gather : Bool) (ts : List Nat) : List Nat :=
  ts.filter fun t => co.sends.any fun y => !y.notice && y.rank == to_ && y.gather == gather && y.t == t && decide (2 ≤ y.st)

/-- Every tile of a round is acknowledged or lost. -/
def Coll.roundOver (co : Coll) (to_ : Nat) (gather : Bool) (ts : List Nat) : Bool :=
  ts.all fun t => co.sends.any fun y => !y.notice && y.rank == to_ && y.gather == gather && y.t == t && (y.st == 1 || y.st == 2)

/-- What something that a press has sent carries: the tile's packet, or a notice's lost tiles. -/
def Coll.carries (co : Coll) (r : List Byte) (tiles : Nat) (x : PressSend) : List Byte :=
  if x.notice then (co.lostOf x.rank x.gather (roundTiles r tiles x.rank x.gather x.t)).flatMap (leBytes 4)
  else match co.tile x.t with
    | some y => y.packet
    | none => []

/-- The closing notice of a tile's round, once every tile of it is acknowledged or lost: it names the lost ones (R364). Under STOP a
loss closes the round at once. DEDUCED (log 37). -/
def State.closeRound (s : State) (c : Cmd) (x : PressSend) : State :=
  match s.coll? c.id with
  | none => s
  | some co =>
    let b := roundOf c.pressRec c.len x.t
    let ts := roundTiles c.pressRec c.len x.rank x.gather b
    if co.roundOver x.rank x.gather ts || (co.stops && co.lostOf x.rank x.gather ts != []) then
      let y : PressSend := ⟨s.seq, x.rank, b, x.gather, true, 0, 0⟩
      (s.fresh.updColl co.id fun k => { k with sends := k.sends ++ [y] }).pressPacket c co y (co.carries c.pressRec c.len y)
    else s

/-- A tile has reached a level with a value: it is sent on, or final. -/
def State.setLevel (s : State) (c : Cmd) (co : Coll) (t level : Nat) (pk : List Byte) : State :=
  let x := tileSends c.pressRec c.len t level
  let s := s.updColl co.id fun k => k.setTile ⟨t, level, pk, x.2, false⟩
  s.sendTiles c co t pk x.1

/-- The value of a tile whose result was lost on the way in the gathering: EMPTY, and for a sum an unstated value.
DEDUCED (log 37). -/
def State.lostResult (s : State) (c : Cmd) (sum wide : Bool) (t : Nat) : State × List Byte :=
  if sum then (s.fresh, tensorTile t ((List.range 1024).map fun k =>
    (Config.openValue (s.openKey c.g c.w * 1024 + k)).toNat % 2 ^ 32))
  else (s, imageTile wide t [])

/-- One staged packet is taken: merged, or kept as the result; a packet of an earlier delivery is dropped (R440).
DEDUCED (log 37). -/
def State.takeTile (s : State) (c : Cmd) (co : Coll) (g : Staged) : State :=
  let r := c.pressRec
  match co.tile g.tile with
  | none => s
  | some x =>
    -- a tile that came is an arrival for the context (R88)
    let s := (if g.packet.isSome then s.acted c.ctx else s).updColl co.id fun k => { k with got := k.got ++ [(g.src, g.tile, g.gather)] }
    if g.gather then
      let v : State × List Byte := match g.packet with
        | some pk => (s, pk)
        | none => s.lostResult c (rcSum r) (rcMerge r == 2) g.tile
      let s := v.1.updColl co.id fun k => k.setTile { x with packet := v.2, final := true, written := false }
      s.sendTiles c co g.tile v.2 (gatherSends r c.len g.tile g.src)
    else
      let y := match g.packet with
        | none => x.packet
        | some pk =>
          -- the lower rank's data are the first operand of a swap; a ring's own value is the second
          if rcRing r || decide (g.src < rcRank r) then mergeTiles (rcMerge r) g.tile pk x.packet
          else mergeTiles (rcMerge r) g.tile x.packet pk
      s.setLevel c co g.tile (x.level + 1) y

/-- The packet can be taken now. -/
def Coll.ready (co : Coll) (r : List Byte) (tiles : Nat) (g : Staged) : Bool :=
  match co.tile g.tile with
  | none => false
  | some x => !co.got.contains (g.src, g.tile, g.gather) &&
    (if g.gather then !x.final else mergeLevel r tiles g.tile g.src == some x.level)

/-- Packets of the collective in the staging store. -/
def Staged.of_ (g : Staged) (press : Nat) (co : Coll) : Bool :=
  g.press == press && g.word0.toNat / 2 ^ 32 == co.word0.toNat / 2 ^ 32

/-- A peer announces a different NRM1, ALGO, MERGE or GATHER (R358). -/
def announceDiffers (a b : DWord) : Bool :=
  a.toNat / 2 ^ 16 % 2 ^ 8 != b.toNat / 2 ^ 16 % 2 ^ 8 || a.toNat / 2 ^ 6 % 16 != b.toNat / 2 ^ 6 % 16 ||
  a.getLsbD 12 != b.getLsbD 12

/-- Take staged packets as long as one can be taken. -/
def State.takeStaged (c : Cmd) : Nat → State → State
  | 0, s => s
  | n + 1, s => match s.coll? c.id with
    | none => s
    | some co =>
      match s.staging.find? fun g => g.of_ c.unit co && co.ready c.pressRec c.len g with
      | none => s
      | some g => State.takeStaged c n (({ s with staging := s.staging.erase g } : State).takeTile c co g)

/-- A tile of OUT is held. -/
def State.tileHeld (s : State) (c : Cmd) (x : PressTile) : State :=
  (s.updColl c.id fun k => k.setTile { x with written := true }).updCmd c.id fun y => { y with done := y.done + 1 }

/-- Write into OUT the final tiles that it does not hold yet; a failing write stops the context or waits (R304).
DEDUCED (log 37). -/
def State.writeTiles (c : Cmd) : List PressTile → State → State
  | [], s => s
  | x :: xs, s =>
    match s.writeTile c x with
    | .ok s _ => State.writeTiles c xs (s.tileHeld c x)
    | .viol s va kd l ipa => s.cmdViolate c (BitVec.ofInt 64 va) kd l ipa .engineWrite
    | .fault s va e => s.cmdFault c (BitVec.ofInt 64 va) .engineWrite e

/-- The launch that issued a collective is being replayed: its results come from the recording (R432). -/
def State.replays (s : State) (c : Cmd) : Bool := (s.launch? c.launch).any fun l => l.det && l.replay

/-- Every merge that the rank owes is made: a tile is final, or it has gone to the rank that keeps it (R362, R363). -/
def PressTile.settled (r : List Byte) (tiles : Nat) (x : PressTile) : Bool :=
  x.final || (!rcGather r && !inRange (swapRange tiles (rcRank r) (x.level + 1)) x.t)

/-- OUT holds every tile that the rank writes (R441); and but in a replay the rank owes no merge and no send, and each that it
made is acknowledged or lost, so that its completion carries what R364 says. DEDUCED (log 37). -/
def Coll.whole (co : Coll) (r : List Byte) (tiles : Nat) (replays : Bool) : Bool :=
  co.tiles.all (fun x => !neededTile r tiles x.t || x.written) &&
  (replays || (co.tiles.all (PressTile.settled r tiles) && co.sends.all fun x => x.st == 1 || (x.st == 2 && !x.notice)))

/-- The completion, when the rank's part is done (R365, R441). -/
def State.pressWhole (s : State) (c : Cmd) : State :=
  match s.coll? c.id with
  | none => s
  | some co =>
    if co.whole c.pressRec c.len (s.replays c) then s.pushNew [⟨.pressComplete, { a := c.unit }⟩] else s

/-- Lost tiles that notices have named are counted, and the loss policy applies: under STOP, and for a notice that was lost, the
context stops, and the peer sends again when its context resumes; under EMPTY each takes its merge as EMPTY (R364). -/
def State.pressLosses (s : State) (c : Cmd) (co : Coll) : State :=
  let told := s.staging.filter fun g => g.of_ c.unit co && g.note != 0
  if told.isEmpty then s
  else
    let named := (told.filter fun g => g.note == 1).length
    let n := co.lost + named
    let det : DWord := BitVec.ofNat 64 (rcCollid c.pressRec * 2 ^ 32 + n % 2 ^ 16)
    let s := (s.updColl c.id fun k => { k with lost := n, error := k.error || (!co.stops && named != 0) }).updCmd c.id fun x =>
      { x with detail := det }
    let s : State := { s with staging := s.staging.filterMap fun g =>
      if !(g.of_ c.unit co) || g.note == 0 then some g
      else if co.stops || g.note == 2 then none else some { g with note := 0 } }
    if co.stops || told.any (fun g => g.note == 2) then
      s.cmdStop { c with detail := det } 0x26 (BitVec.ofNat 64 (rcCollid c.pressRec)) det
    else s

/-- Carry the collective on: losses counted, packets taken, results written, and the completion when the rank's part is done. -/
def State.pressRun (s : State) (c : Cmd) : State :=
  match s.coll? c.id with
  | none => s
  | some co =>
    if s.replays c || !(s.pressOpen c.unit co.part) then s.pressWhole c
    else if s.staging.any fun g => g.of_ c.unit co && announceDiffers g.word0 co.word0 then
      s.cmdStop c 0x24 (BitVec.ofNat 64 (rcCollid c.pressRec)) c.detail
    else
      -- a packet whose form is none of R359's for this merge is no tile of the collective
      let s : State := { s with staging := s.staging.filter fun g => !g.of_ c.unit co ||
        (match g.packet with | some pk => tileFits (rcSum c.pressRec) (rcMerge c.pressRec == 2) pk | none => true) }
      let s := s.pressLosses c co
      if (s.cmd? c.id).any fun x => x.halted then s
      else
      let s := State.takeStaged c s.staging.length s
      match s.coll? c.id with
      | none => s
      | some co =>
        (State.writeTiles c (co.tiles.filter fun x => x.final && !x.written && neededTile c.pressRec c.len x.t) s).pressWhole c

/-- A press result that a recording supplies (R432): the tile of a running collective whose first byte of OUT lies at the
address. None where no tile begins there. DEDUCED (log 60). -/
def State.replayTile (s : State) (launch loc : Nat) : Option State :=
  (s.cmds.filter fun c => c.engine == 5 && c.launch == launch && c.started).findSome? fun c => match s.coll? c.id with
    | none => none
    | some co =>
      (co.tiles.find? fun x => !x.written && neededTile c.pressRec c.len x.t &&
          (tileWhere (tileOut c.pressRec c.pressOut x.t x.packet)).toNat == loc).map fun x =>
        (State.writeTiles c [x] s).pressWhole c

/-- PRESS_COLLECTIVE_START: the oldest collective of the press starts: its rank table is checked, IN read, and the first
tiles sent (R358, R362). One that runs already goes on after a stop, sending again the tiles and notices whose loss stopped it. It
brings the press. DEDUCED (log 37). -/
def State.pressStart (s : State) (press : Nat) : State :=
  match s.pressHead press with
  | none => s
  | some (c, co) =>
    if !s.cmdGoes c || (s.faults.any fun f => f.cmd == some c.id) then s
    else if c.started && !co.tiles.isEmpty then
      let again := co.sends.filter fun x => x.st == 3
      let s := again.foldl (fun s x => s.pressPacket c co x (co.carries c.pressRec c.len x)) s
      (s.updColl c.id fun k => { k with sends := k.sends.map fun x =>
        if x.st == 3 then { x with st := 0, retry := 0 } else x }).pressRun c
    else
      let core := s.ctlCore c.ctx
      let r := c.pressRec
      let tab := recBits r 1 0 64
      c.access .engineRead (s.engRead core c.ctx .glob tab (8 * rcRanks r)) fun s ents =>
        let mine := recBits (ents.drop (8 * rcRank r)) 0 0 21
        let pk := match s.top.pkgid with | some k => k.toNat | none => 2 ^ 18
        let s := s.updCmd c.id fun x => { x with started := true }
        if mine ≠ press * 2 ^ 18 + pk then s.cmdStop c 0x24 (BitVec.ofNat 64 (rcCollid r)) c.detail
        else c.access .engineRead ((s.ownTiles core c.ctx r c.pressIn (List.range c.len)).whole s) fun s ts =>
          let c := { c with payload := c.payload.take 192 ++ ents, started := true }
          let s := s.updCmd c.id fun x => { x with payload := c.payload }
          let s := s.updColl c.id fun k => { k with tiles := ts.map fun t => ⟨t.1, 0, t.2, false, false⟩ }
          let s := ts.foldl (fun s t =>
            let first : Bool := rcRing r && rcRank r == (ringBlock c.len (rcRanks r) t.1 + 1) % rcRanks r
            s.setLevel c co t.1 (if first then 1 else 0) t.2) s
          s.pressRun c

/-- PRESS_COLLECTIVE_START. -/
def execPressCollectiveStart (s : State) : Res := .next (s.pressStart s.ev.a)

/-- A packet enters the staging store of 1 MiB, and is acknowledged at once (R440); while the store is full, credit is withheld and
the packet waits (R365), but for a tile of the collective that the press runs, which needs no room there. A second delivery is
acknowledged and dropped. -/
def State.stageTile (s : State) (g : Staged) (num : Nat) (runs : Option Coll) (ev : EvArgs) : State :=
  let mine : Staged → Bool := fun x => match runs with | some co => x.of_ g.press co | none => false
  let used := (s.staging.filter fun x => x.press == g.press && !mine x).foldl (fun n x => n + (x.packet.getD []).length) 0
  let collid := g.word0.toNat / 2 ^ 32
  let key := (g.press, collid, g.src, num)
  let same : Staged → Bool := fun x => x.press == g.press && x.src == g.src && x.word0.toNat / 2 ^ 32 == collid &&
    x.gather == g.gather && x.tile == g.tile
  let ack (s : State) : State := s.emit (.pressAck g.press g.src collid num)
  if s.pressHad.contains key || s.staging.any same then ack s
  else if !(mine g) && decide (2 ^ 20 < used + (g.packet.getD []).length) then s.push .pressTileArrival ev
  else ack { s with staging := s.staging ++ [g], pressHad := s.pressHad ++ [key] }

/-- The collective that a press runs for a partition, if a packet is of it. -/
def State.runsFor (s : State) (press part : Nat) (word0 : DWord) : Option (Cmd × Coll) :=
  (s.pressHead press).filter fun x => x.1.started && x.2.part == part && word0.toNat / 2 ^ 32 == x.2.word0.toNat / 2 ^ 32

/-- A running collective takes what has come, unless its context stands or waits for a page. -/
def State.pressGoes (s : State) (c : Cmd) : State :=
  if s.cmdGoes c && !(s.faults.any fun f => f.cmd == some c.id) then s.pressRun c else s

/-- PRESS_TILE_ARRIVAL (R440): staged, then merged when its collective runs and its turn has come. -/
def State.pressArrival (s : State) (press src : Nat) (word0 : DWord) (gather : Bool) (num : Nat) (pk : List Byte) (ev : EvArgs) : State :=
  -- an unassigned port carries no traffic, and a module without an identity has none (R17, R326)
  match s.top.ports.find? fun q => q.1 == press with
  | none => s
  | some q =>
  if s.top.pkgid.isNone then s
  else if s.replaying q.2 then s.discarded q.2 3 word0
  else
    let g : Staged := ⟨press, src, word0, gather, some pk, tileIndex pk, 0⟩
    match s.runsFor press q.2 word0 with
    | some (c, co) =>
      -- a second delivery of one tile is merged once (R440)
      if co.got.contains (src, tileIndex pk, gather) then s.emit (.pressAck press src (word0.toNat / 2 ^ 32) num)
      else if !announceDiffers word0 co.word0 && !tileFits (rcSum c.pressRec) (rcMerge c.pressRec == 2) pk then s
      else (s.stageTile g num (some co) ev).pressGoes c
    | none => s.stageTile g num none ev

/-- PRESS_TILE_ARRIVAL. It brings the press, the sending rank, the first qword of the sender's record, 1 in the gathering, the
sender's number of the packet, and the tile's packet. -/
def execPressTileArrival (s : State) : Res :=
  .next (s.pressArrival s.ev.a s.ev.b (BitVec.ofNat 64 s.ev.c) (s.ev.d == 1) s.ev.e s.ev.bytes s.ev)

/-- PRESS_TILE_LOSS (R364): a round's closing notice names tiles that their sender could not deliver, or is itself lost. It waits
with the tiles until its collective runs. -/
def State.pressLoss (s : State) (press src : Nat) (word0 : DWord) (gather : Bool) (tiles : List Nat) (noticeLost : Bool) (num : Nat) : State :=
  match s.top.ports.find? fun q => q.1 == press with
  | none => s
  | some q =>
  if s.top.pkgid.isNone then s
  else if s.replaying q.2 then s.discarded q.2 3 word0
  else
    let key := (press, word0.toNat / 2 ^ 32, src, num)
    let new : List Staged := if noticeLost then [⟨press, src, word0, gather, none, 0, 2⟩]
      else if s.pressHad.contains key then [] else tiles.map fun t => ⟨press, src, word0, gather, none, t, 1⟩
    let s : State := { s with staging := s.staging ++ new }
    let s : State := if noticeLost then s
      else ({ s with pressHad := if s.pressHad.contains key then s.pressHad else s.pressHad ++ [key] } : State).emit
        (.pressAck press src (word0.toNat / 2 ^ 32) num)
    match s.runsFor press q.2 word0 with
    | some (c, _) => s.pressGoes c
    | none => s

/-- PRESS_TILE_LOSS. It brings the press, the sending rank, the first qword of the sender's record, 1 in the gathering, the tiles, 1
for a lost notice, and the sender's number of the notice. -/
def execPressTileLoss (s : State) : Res :=
  .next (s.pressLoss s.ev.a s.ev.b (BitVec.ofNat 64 s.ev.c) (s.ev.d == 1) s.ev.ids (s.ev.e == 1) s.ev.f)

/-! ## Acknowledgements and retransmissions -/

/-- A tile or a notice is acknowledged; one that took a retransmission was a transient failure (R342, R364). -/
def State.pressAcked (s : State) (c : Cmd) (x : PressSend) : State :=
  if x.st ≠ 0 then s
  else
    let s := if x.retry = 0 then s
      else s.logError ⟨0, match s.partOf c.ctx with | some p => p.n | none => 31, 1, 3, 0, s.hbeatOf c.ctx⟩
    let s := s.setSend x.id 1
    (if x.notice then s else s.closeRound c x).pressWhole c

/-- A tile or a notice is lost (R364): under EMPTY the sender's completion carries the error bit too and the collective goes on;
under STOP, and for a notice under either policy, its context stops, and what was lost goes again when it resumes. -/
def State.pressLost (s : State) (c : Cmd) (co : Coll) (x : PressSend) : State :=
  let stop := co.stops || x.notice
  let n := if x.notice then co.lost else co.lost + 1
  let det : DWord := BitVec.ofNat 64 (rcCollid c.pressRec * 2 ^ 32 + n % 2 ^ 16)
  let s := ((s.setSend x.id (if stop then 3 else 2)).updColl c.id fun k => { k with lost := n, error := k.error || !stop }).updCmd c.id
    fun y => { y with detail := det }
  let s := if x.notice then s else s.closeRound c x
  if stop then s.cmdStop { c with detail := det } 0x26 (BitVec.ofNat 64 (rcCollid c.pressRec)) det
  else s.pressWhole c

/-- A packet of a press is not acknowledged in time (R342): sent again, up to seven times, and then lost. -/
def State.pressRetry (s : State) (c : Cmd) (co : Coll) (x : PressSend) : State :=
  if x.st ≠ 0 then s
  else if x.retry < 7 then
    (s.updColl co.id fun k => { k with sends := k.sends.map fun y => if y.id == x.id then { y with retry := y.retry + 1 } else y }).pressPacket
      c co x (co.carries c.pressRec c.len x)
  else s.pressLost c co x

/-- NETWORK_UNIT_ACK (R344, R440): a network command's unit is held at its end, or a press's tile or notice is acknowledged. It
brings the command, or the number of what the press sent. DEDUCED (log 38). -/
def execNetworkUnitAck (s : State) : Res :=
  .next (match s.pressSend? s.ev.a with
    | some (c, _, x) => s.pressAcked c x
    | none => s.netUnit s.ev.a)

/-- RETRANSMIT_TIMEOUT (R342). It brings the command, the record, the arrival or the number of what a press sent. DESIGN CHOICE
(log 61). -/
def execRetransmitTimeout (s : State) : Res :=
  .next (match s.pressSend? s.ev.a with
    | some (c, co, x) => s.pressRetry c co x
    | none => s.retransmit s.ev.a s.ev.b)

/-- OUT's bytes through a multicast entry (R355, R365), in packets of 4,096 bytes: each destination's address is the entry's
plus the distance from OUT's first byte. -/
def State.pressCast (c : Cmd) (e lo hi : Nat) : Nat → Nat → State → MemRes Unit
  | 0, _, s => .ok s ()
  | fuel + 1, off, s =>
    if hi ≤ lo + off then .ok s ()
    else
      let core := s.ctlCore c.ctx
      let n := min 4096 (hi - lo - off)
      match s.engRead core c.ctx .glob (lo + off : Nat) n with
      | .viol s a k l i => .viol s a k l i
      | .fault s a x => .fault s a x
      | .ok s bs => match (s.sendAll core c.ctx bs ((mcUsed e).map fun j => mcBase e j + BitVec.ofNat 64 off)).whole s with
        | .ok s _ => State.pressCast c e lo hi fuel (off + 4096) s
        | x => x

/-- A completion barrier whose page is to be resolved first (R386): the completion comes again when it is. -/
def State.pressWaits (s : State) (c : Cmd) (again : Event) (bars : List DWord) : Option State :=
  if s.ev.f = 1 then none
  else bars.findSome? fun bar =>
    if bar = 0 || isGalord bar then none
    else match s.translate (s.ctlCore c.ctx) c.ctx bar.toNat .atomic with
      | (s, .resolvable e) =>
        if s.faults.any fun f => f.retry.contains again then some s
        else
          let pf : PageFault := ⟨s.seq, c.ctx, bar, Acc.engineWrite.code, e, none, none, none, [again], 0⟩
          some (({ s.fresh with faults := s.faults ++ [pf] } : State).push .pageFaultResolution { a := s.seq })
      | _ => none

/-- An arrival at a completion barrier (R266, R365). -/
def State.pressBar (s : State) (c : Cmd) (bar : DWord) (error : Bool) : State :=
  let unit := c.unit
  if bar = 0 then s
  else if isGalord bar then
    match s.galord c.ctx bar .atomic 16 with
    | (s, .own pa) => s.agentArrive c.ctx (some c.launch) 5 unit bar (.glob pa) 1 error
    | (s, .peer) => s.agentArrive c.ctx (some c.launch) 5 unit bar (.remote bar) 1 error
    | (s, .viol k l i) => s.cmdViolate c bar k l i .engineWrite
    | (s, _) => s.cmdViolate c bar 9 0 0 .engineWrite
  else match s.translate (s.ctlCore c.ctx) c.ctx bar.toNat .atomic with
    | (s, .ok pa _) => s.agentArrive c.ctx (some c.launch) 5 unit bar (.glob pa) 1 error
    | (s, .viol k l i) => s.cmdViolate c bar k l i .engineWrite
    | (s, .resolvable e) => s.cmdViolate c bar 10 e.level e.ipa .engineWrite

/-- The last of R365's steps: the node record leaves when its channel has a permit, and the press starts its next collective. -/
def State.pressNode (s : State) (c : Cmd) (co : Coll) : State :=
  let r := c.pressRec
  let ch := recBits r 4 0 12
  let close (s : State) : State :=
    let s := (s.dropCmd c.id).acted c.ctx
    let s := { s with colls := s.colls.filter fun k => k.id != c.id
                      staging := s.staging.filter fun g => !g.of_ c.unit co }
    if (s.queueOf 5 c.unit).isEmpty then s else s.push .pressCollectiveStart { a := c.unit }
  match s.part? co.part with
  | none => close s
  | some p =>
    if recBits r 4 12 1 ≠ 1 then close s
    else if !s.chanOk p ch then s.cmdViolate c (BitVec.ofNat 64 ch) 12 0 0 .engineWrite
    else if (s.sendChan p ch).any fun x => x.permits == 0 then s
    else close (s.sendRecord c.ctx c.launch p ch 0 (rcCollid r)
      (leBytes 8 ((if co.error then 1 else 0) + co.lost % 2 ^ 16 * 2 ^ 16) ++ List.replicate 48 0))

/-- PRESS_COMPLETE (R365, R441): OUT is written and held; the multicast goes out, the entries are freed, BAR gets its
arrival and the node record leaves. Then the press starts its next collective. It brings the press. -/
def State.pressDone (s : State) (press : Nat) : State :=
  match s.pressHead press with
  | none => s
  | some (c, co) =>
    let r := c.pressRec
    if !s.cmdGoes c || !c.started || !co.whole r c.len (s.replays c) then s
    else if co.arrived then s.pressNode c co
    else
      let cast := recBits r 2 16 1 == 1
      let e := s.mcastEntry (recBits r 2 17 12)
      let ext := c.pressOut.extent
      match s.pressWaits c ⟨.pressComplete, { a := press }⟩ (c.bar :: if cast then (mcUsed e).map (mcBar e) else []) with
      | some s => s
      | none =>
      let finish (s : State) : State :=
        let s := (s.unlock c.id).pressBar c c.bar co.error
        let s := if cast then (mcUsed e).foldl (fun s j => s.pressBar c (mcBar e j) co.error) s else s
        (s.updColl c.id fun k => { k with arrived := true }).pressNode c co
      if !cast then finish s
      else if mcPart e ≠ co.part then s.cmdViolate c (BitVec.ofNat 64 (recBits r 2 17 12)) 11 0 0 .engineWrite
      else c.access .engineWrite (State.pressCast c e ext.1.toNat ext.2.toNat (ext.2.toNat / 4096 + 1) 0 s) fun s _ => finish s

/-- PRESS_COMPLETE. -/
def execPressComplete (s : State) : Res := .next (s.pressDone s.ev.a)

end Sys2Proof.Machine
end

