-- ==== Sys2Proof/Machine/Ray.lean ====
section
/-! DEFINITION. The ray units (R207 to R224): scenes and their checks, ray arithmetic, traversal by visits, and VTRACE. FP32
numbers are their bits. -/

namespace Sys2Proof.Machine

open Host

/-! ## FP32 arithmetic under RNE -/

def fval (x : Nat) : FVal := Fmt.fp32.unpack x
def fadd (x y : Nat) : Nat := (Fmt.fp32.add rne x y).1
def fsub (x y : Nat) : Nat := (Fmt.fp32.sub rne x y).1
def fmul (x y : Nat) : Nat := (Fmt.fp32.mul rne x y).1
def fdiv (x y : Nat) : Nat := quotient .fp32 .ieee (fval x) (fval y)
def fone : Nat := 0x3F800000
def finf : Nat := 0x7F800000
def fzero (x : Nat) : Bool := x % 2 ^ 31 == 0
def fnan (x : Nat) : Bool := (fval x).isNan
def ffinite (x : Nat) : Bool := x / 2 ^ 23 % 2 ^ 8 != 255
def fle (x y : Nat) : Bool := !fnan x && !fnan y && !(fval y).lt (fval x)
def flt (x y : Nat) : Bool := !fnan x && !fnan y && (fval x).lt (fval y)
def fmax (x y : Nat) : Nat := (Fmt.fp32.minMax true x y).1
def fmin (x y : Nat) : Nat := (Fmt.fp32.minMax false x y).1

def FVal.zero? : FVal → Bool
  | .fin _ 0 _ => true
  | _ => false

/-- A product in which a zero factor gives +0, whatever the other factor is (R211). -/
def mulZero (a b : FVal) : FVal := if a.zero? || b.zero? then .fin false 0 0 else mulVal a b (some 0)

/-- A value rounded into FP32 in a direction. -/
def roundDir (mode : Rnd) (v : FVal) : Nat :=
  match v with
  | .nan _ => Fmt.fp32.nan
  | .inf n => Fmt.fp32.withSign n finf
  | .fin n m e => (Fmt.fp32.roundExact mode .ieee n (Exact.ofFin n m e)).1

/-- The exact difference of two FP32 values. -/
def exactSub (x y : FVal) : FVal :=
  match x, y with
  | .fin n m e, .fin n2 m2 e2 =>
    let d := (Exact.ofFin n m e).add (Exact.ofFin (!n2) m2 e2)
    .fin (decide (d.m < 0)) d.m.natAbs d.e
  | .inf n, .fin .. => .inf n
  | .fin .., .inf n => .inf (!n)
  | .inf n, .inf n2 => if n = n2 then .nan false else .inf n
  | _, _ => .nan false

/-! ## A ray's constants (R210, R211) -/

/-- A ray in one space. -/
structure RayConst where
  o : List Nat
  d : List Nat
  rinv : List Nat
  kx : Nat
  ky : Nat
  kz : Nat
  sx : Nat
  sy : Nat
  sz : Nat

def comp (v : List Nat) (k : Nat) : Nat := v.getD k 0

def rayConst (o d : List Nat) : RayConst :=
  let mag (k : Nat) : Nat := comp d k % 2 ^ 31
  let kz : Nat := if mag 0 ≥ mag 1 ∧ mag 0 ≥ mag 2 then 0 else if mag 1 ≥ mag 2 then 1 else 2
  let a := (kz + 1) % 3
  let b := (kz + 2) % 3
  let neg := decide (2 ^ 31 ≤ comp d kz)
  let kx := if neg then b else a
  let ky := if neg then a else b
  let dz := comp d kz
  ⟨o, d, d.map (fdiv fone), kx, ky, kz, fdiv (comp d kx) dz, fdiv (comp d ky) dz, fdiv fone dz⟩

/-- R210: the ray is refused before it traverses anything. -/
def rayRefused (o d : List Nat) (tmin tmax : Nat) : Bool :=
  fnan tmin || fnan tmax || flt tmax tmin || !(o.all ffinite) || !(d.all ffinite) || d.all fzero

/-- R211: the ray in the space of an instance whose matrix is given row by row; none when it skips the instance. -/
def rayInto (m : List Nat) (o d : List Nat) : Option (List Nat × List Nat) :=
  let row (v : List Nat) (i : Nat) (withT : Bool) : Nat :=
    let ps := (List.range 3).map fun k => mulZero (fval (m.getD (4 * i + k) 0)) (fval (comp v k))
    sumVals .fp32 (ps ++ if withT then [fval (m.getD (4 * i + 3) 0)] else [])
  let o' := (List.range 3).map fun i => row o i true
  let d' := (List.range 3).map fun i => row d i false
  if !(o'.all ffinite) || !(d'.all ffinite) || d'.all fzero then none else some (o', d')

/-! ## Tests (R212 to R214) -/

/-- R212: a box as six FP32 values; its near distance when it is hit. -/
def boxNear (c : RayConst) (box : List Nat) (tmin tcur : Nat) : Option Nat :=
  if box.any fnan then none
  else
    let axis (i : Nat) : Option (Nat × Nat) :=
      let lo := comp box i
      let hi := comp box (3 + i)
      let o := comp c.o i
      if fzero (comp c.d i) then (if fle lo o && fle o hi then some (Fmt.fp32.withSign true finf, finf) else none)
      else
        let r := fval (comp c.rinv i)
        let p := mulZero (exactSub (fval lo) (fval o)) r
        let q := mulZero (exactSub (fval hi) (fval o)) r
        let lowV := if q.lt p then q else p
        let highV := if q.lt p then p else q
        let up := roundDir ru highV
        some (roundDir rd lowV, roundDir ru (mulVal (fval up) (.fin false (2 ^ 22 + 1) (-22)) (some 0)))
    match axis 0, axis 1, axis 2 with
    | some x, some y, some z =>
      let near := fmax (fmax (fmax x.1 y.1) z.1) tmin
      let far := fmin (fmin (fmin x.2 y.2) z.2) tcur
      if fle near far then some near else none
    | _, _, _ => none

/-- R213 and R214: a triangle as nine FP32 values; t, u and v of its candidate. -/
def triangleHit (c : RayConst) (vs : List Nat) (cullBack cullFront : Bool) : Option (Nat × Nat × Nat) :=
  let rel (k : Nat) : List Nat := (List.range 3).map fun i => fsub (vs.getD (3 * k + i) 0) (comp c.o i)
  let shear (p : List Nat) : Nat × Nat × Nat :=
    (fsub (comp p c.kx) (fmul c.sx (comp p c.kz)), fsub (comp p c.ky) (fmul c.sy (comp p c.kz)), fmul c.sz (comp p c.kz))
  let a := shear (rel 0)
  let b := shear (rel 1)
  let g := shear (rel 2)
  let edge (p q : Nat × Nat × Nat) : Nat := fsub (fmul p.1 q.2.1) (fmul p.2.1 q.1)
  let u := edge g b
  let v := edge a g
  let w := edge b a
  let wide (p q : Nat × Nat × Nat) : Nat :=
    (Fmt.fp64.addVal rne (mulVal (fval p.1) (fval q.2.1) (some 0)) (mulVal (fval p.2.1) (fval q.1) (some 0)).negate).1
  let again := fzero u || fzero v || fzero w
  let f64 (x : Nat) : FVal := Fmt.fp64.unpack x
  let vals : List FVal := if again then [f64 (wide g b), f64 (wide a g), f64 (wide b a)] else [fval u, fval v, fval w]
  let pos := vals.all fun x => x.zero? || !x.neg
  let neg := vals.all fun x => x.zero? || x.neg
  let inside := !(vals.any FVal.isNan) && (pos || neg) && !(vals.all FVal.zero?)
  if !inside then none
  else
    let u := if again then roundDir rne (vals.getD 0 (.nan false)) else u
    let v := if again then roundDir rne (vals.getD 1 (.nan false)) else v
    let w := if again then roundDir rne (vals.getD 2 (.nan false)) else w
    let det := fadd (fadd u v) w
    let tt := fadd (fadd (fmul u a.2.2) (fmul v b.2.2)) (fmul w g.2.2)
    let t := fdiv tt det
    let detNeg := decide (2 ^ 31 ≤ det)
    if fzero det || !ffinite det || fnan t || (detNeg && cullBack) || (!detNeg && cullFront) then none
    else some (t, fdiv v det, fdiv w det)

/-! ## Candidates (R215, R216) -/

/-- What a visit changes of a ray: the current distance, the kept hit, the visits it adds, and whether the ray has ended. -/
structure Walk where
  tcur : Nat
  hit : Option (Nat × Nat × Nat × Nat)
  more : List Visit
  ended : Bool

/-- R215. -/
def Walk.offer (w : Walk) (r : Ray) (t inst word u v : Nat) : Walk :=
  if !(fle r.tmin t && fle t w.tcur) then w
  else
    let better := flt t w.tcur || (match w.hit with
      | none => true
      | some h => decide (inst < h.1) || (inst == h.1 && decide (word < h.2.1)))
    if !better then w else { w with tcur := t, hit := some (inst, word, u, v), ended := r.any }

/-- How a visit stops early. -/
inductive RayStop where
  | viol (s : State) (va : Int) (kind level ipa : Nat)
  | fault (s : State) (va : Int) (entry : EntryAt)
  /-- ENGINE_FAULT with the address read (R209) -/
  | engine (s : State) (addr : Nat)

abbrev RayRes := Except RayStop

/-- Read n bytes of a scene (R221). DEDUCED (log 34). -/
def State.sceneRead (s : State) (r : Ray) (a n : Nat) : RayRes (State × List Byte) :=
  match s.engRead r.core r.ctx .glob a n with
  | .ok s bs => .ok (s, bs)
  | .viol s va k l i => .error (.viol s va k l i)
  | .fault s va e => .error (.fault s va e)

def wordsAt (bs : List Byte) (off n : Nat) : List Nat := (List.range n).map fun k => leNat ((bs.drop (off + 4 * k)).take 4)
def zeroBytes (bs : List Byte) (lo hi : Nat) : Bool := ((bs.drop lo).take (hi - lo)).all (· == 0)

/-- A scene as its header gives it (R207). -/
structure Scene where
  table : Nat
  n : Nat

def State.sceneHead (s : State) (r : Ray) : RayRes (State × Scene) :=
  match s.sceneRead r r.scene 64 with
  | .error e => .error e
  | .ok (s, bs) =>
    let table := leNat (bs.take 8)
    let n := leNat ((bs.drop 8).take 4)
    if n = 0 ∨ 2 ^ 24 < n ∨ table % 16 ≠ 0 ∨ !zeroBytes bs 12 64 then .error (.engine s r.scene) else .ok (s, ⟨table, n⟩)

/-- A treelet's address and size (R207, R209). -/
def State.treelet (s : State) (r : Ray) (sc : Scene) (t : Nat) : RayRes (State × Nat × Nat) :=
  match s.sceneRead r (sc.table + 16 * t) 16 with
  | .error e => .error e
  | .ok (s, bs) =>
    let a := leNat (bs.take 8)
    let n := leNat ((bs.drop 8).take 4)
    if a % 128 ≠ 0 ∨ n % 128 ≠ 0 ∨ n = 0 ∨ 65536 < n ∨ !zeroBytes bs 12 16 then .error (.engine s (sc.table + 16 * t))
    else .ok (s, a, n)

/-- Fields of a child reference (R208). -/
def refKind (x : Nat) : Nat := x / 2 ^ 29 % 8
def refCount (x : Nat) : Nat := x / 2 ^ 24 % 32 + 1
/-- DEDUCED (log 34). -/
def refOff (x : Nat) : Nat := x % 2 ^ 12 * 16
def refTree (x : Nat) : Nat := x % 2 ^ 24

/-- A reference that R209 refuses in a treelet of `bytes` bytes. -/
def refBad (sc : Scene) (bytes x : Nat) : Bool :=
  let k := refKind x
  let fits (n : Nat) : Bool := decide (refOff x + n ≤ bytes)
  decide (6 ≤ k) || (k != 2 && refCount x != 1) || (k != 5 && x / 2 ^ 12 % 2 ^ 12 != 0) ||
  (if k = 0 then x % 2 ^ 12 != 0
   else if k = 1 then refOff x % 128 != 0 || !fits 128
   else if k = 2 then !fits (48 * refCount x)
   else if k = 3 then !fits 64
   else if k = 4 then !fits 32
   else decide (sc.n ≤ refTree x))

/-- The ray as it stands in a visit: its constants and its instance id. -/
structure Here where
  c : RayConst
  inst : Nat

/-- The instance of a visit: its matrix and id, its checks made (R209). -/
def State.instance_ (s : State) (r : Ray) (sc : Scene) (a : Nat) : RayRes (State × List Nat × Nat × Nat × Nat) :=
  match s.sceneRead r a 64 with
  | .error e => .error e
  | .ok (s, bs) =>
    let id := (wordsAt bs 0x30 1).getD 0 0
    let root := leNat ((bs.drop 0x38).take 3)
    if id = 0xFFFFFFFF ∨ sc.n ≤ root ∨ !zeroBytes bs 0x35 0x38 ∨ !zeroBytes bs 0x3B 0x40 then .error (.engine s a)
    else .ok (s, wordsAt bs 0 12, id, leNat ((bs.drop 0x34).take 1), root)

/-- Triangles of a leaf, one after another. -/
def State.triangles (r : Ray) (h : Here) (a : Nat) : Nat → State → Walk → RayRes (State × Walk)
  | 0, s, w => .ok (s, w)
  | n + 1, s, w =>
    if w.ended then .ok (s, w)
    else match s.sceneRead r a 48 with
      | .error e => .error e
      | .ok (s, bs) =>
        let id := (wordsAt bs 0x24 1).getD 0 0
        if 2 ^ 30 ≤ id ∨ !zeroBytes bs 0x28 0x30 then .error (.engine s a)
        else
          let w := match triangleHit h.c (wordsAt bs 0 9) r.cullBack r.cullFront with
            | some x => w.offer r x.1 h.inst (0x40000000 + id) x.2.1 x.2.2
            | none => w
          State.triangles r h (a + 48) n s w

/-- The hit children of a node with their near distances, ascending, the lower index first on a tie (R212). -/
def sortNear : List (Nat × Nat) → List (Nat × Nat)
  | [] => []
  | x :: xs =>
    let rec ins (y : Nat × Nat) : List (Nat × Nat) → List (Nat × Nat)
      | [] => [y]
      | z :: zs => if flt z.1 y.1 then z :: ins y zs else y :: z :: zs
    ins x (sortNear xs)

/-- A box node of a treelet and all it leads to there (R219), on a path of at most `fuel` box nodes (R209). -/
def State.node (r : Ray) (v : Visit) (sc : Scene) (base bytes : Nat) (h : Here) :
    Nat → Nat → State → Walk → RayRes (State × Walk)
  | 0, off, s, _ => .error (.engine s (base + off))
  | fuel + 1, off, s, w =>
    if w.ended then .ok (s, w)
    else match s.sceneRead r (base + off) 128 with
      | .error e => .error e
      | .ok (s, bs) =>
        let refs := wordsAt bs 0x60 4
        if (refs.any (refBad sc bytes)) || !zeroBytes bs 0x70 0x80 then .error (.engine s (base + off))
        else
          let hits := (List.range 4).filterMap fun j =>
            if refKind (refs.getD j 0) = 0 then none
            else (boxNear h.c (wordsAt bs (0x18 * j) 6) r.tmin w.tcur).map fun near => (near, refs.getD j 0)
          (sortNear hits).foldl (fun acc x => match acc with
            | .error e => .error e
            | .ok (s, w) =>
              let ref := x.2
              let k := refKind ref
              let a := base + refOff ref
              -- culled against the current distance
              if w.ended || flt w.tcur x.1 then .ok (s, w)
              else if k = 1 then State.node r v sc base bytes h fuel (refOff ref) s w
              else if k = 2 then State.triangles r h a (refCount ref) s w
              else if k = 3 then
                if v.inst.isSome then .error (.engine s a)
                else match s.instance_ r sc a with
                  | .error e => .error e
                  | .ok (s, m, _, mask, root) =>
                    if Nat.land mask r.mask.toNat = 0 || (rayInto m r.o r.d).isNone then .ok (s, w)
                    else if sc.n < v.edges + 1 then .error (.engine s a)
                    else .ok (s, { w with more := w.more ++ [⟨r.id, r.wedge, root, x.1, some a, v.edges + 1⟩] })
              else if k = 4 then match s.sceneRead r a 32 with
                | .error e => .error e
                | .ok (s, bs) =>
                  let id := (wordsAt bs 0x18 1).getD 0 0
                  if 2 ^ 30 ≤ id ∨ !zeroBytes bs 0x1C 0x20 then .error (.engine s a)
                  else match boxNear h.c (wordsAt bs 0 6) r.tmin w.tcur with
                    | some t => .ok (s, w.offer r t h.inst (0x80000000 + id) 0 0)
                    | none => .ok (s, w)
              else if sc.n < v.edges + 1 then .error (.engine s (base + off))
              else .ok (s, { w with more := w.more ++ [⟨r.id, r.wedge, refTree ref, x.1, v.inst, v.edges + 1⟩] }))
            (.ok (s, w))

/-- One visit (R219). -/
def State.runVisit (s : State) (r : Ray) (v : Visit) : RayRes (State × Walk) :=
  let w : Walk := ⟨r.tcur, r.hit, [], false⟩
  if flt r.tcur v.near then .ok (s, w)
  else match s.sceneHead r with
    | .error e => .error e
    | .ok (s, sc) => match s.treelet r sc v.treelet with
      | .error e => .error e
      | .ok (s, base, bytes) => match v.inst with
        | none => State.node r v sc base bytes ⟨rayConst r.o r.d, 0xFFFFFFFF⟩ (bytes / 128) 0 s w
        | some a => match s.instance_ r sc a with
          | .error e => .error e
          | .ok (s, m, id, _, _) => match rayInto m r.o r.d with
            | none => .ok (s, w)
            | some x => State.node r v sc base bytes ⟨rayConst x.1 x.2, id⟩ (bytes / 128) 0 s w

/-! ## Visits as events -/

/-- A ray stops its context (R209); DETAIL has the visits queued, whatever the cause (R411). DEDUCED (log 51). -/
def State.rayStop (s : State) (r : Ray) (cause : Nat) (addr : DWord) : State :=
  s.raiseStop r.ctx (some r.launch) { s.rayRecord r.ctx r.launch r.core with cause := cause, addr := addr, causeRec := true }

/-- A read of the scene violates (R209, R387): logged, and the context stops. -/
def State.rayViolate (s : State) (r : Ray) (va : DWord) (kind level ipa : Nat) : State :=
  (s.logAccess r.ctx va kind level ipa Acc.engineRead.code).1.rayStop r 0x20 va

def State.ctxRuns (s : State) (ctx : Nat) : Bool := match s.ctx? ctx with | some x => x.phase == .running | none => false

/-- A ray that its ray unit can go on with: its context runs, and no read of it waits for a page. -/
def State.rayGoes (s : State) (r : Ray) : Bool :=
  s.ctxRuns r.ctx && !(s.faults.any fun f => f.retry.any fun e => e.what == .treeletVisit && e.args.b == r.id && e.args.a == r.wedge)

/-- The treelet queue that a visit stands in (R219): its ray's context and scene, and the target treelet, as one number. -/
def State.queueKey (s : State) (v : Visit) : Nat :=
  match s.rays.find? fun r => r.id == v.ray with
  | some r => (r.ctx * 2 ^ 64 + r.scene) * 2 ^ 64 + v.treelet
  | none => v.treelet

/-- The oldest visit of the next treelet queue in turn among those of a wedge that can be served (R219). -/
def State.nextVisit (s : State) (wedge : Nat) : Option Visit :=
  let can (v : Visit) : Bool := match s.rays.find? fun r => r.id == v.ray with
    | some r => s.rayGoes r && r.todo.isEmpty
    | none => true
  let vs := s.visits.filter fun v => v.wedge == wedge && can v
  let last : Nat := match s.rayTurn.find? fun x => x.1 == wedge with | some x => x.2 | none => 0
  let ts : List Nat := vs.map s.queueKey
  let later : List Nat := ts.filter fun t => Nat.blt last t
  let pickT (ts : List Nat) : Option Nat := ts.foldl (fun o t => match o with | some b => some (min b t) | none => some t) none
  match (pickT later).or (pickT ts) with
  | some t => vs.find? fun v => s.queueKey v == t
  | none => none

/-- What a ray unit of the wedge does next: a treelet that it took upon itself within a visit, else a visit from the queues; with
whether the visit came from a queue. -/
def State.rayWork (s : State) (wedge : Nat) : Option (Visit × Bool) :=
  match s.rays.find? fun r => r.wedge == wedge && !r.todo.isEmpty && s.rayGoes r with
  | some r => r.todo.head?.map fun v => (v, false)
  | none => (s.nextVisit wedge).map fun v => (v, true)

/-- Children that a ray can still enqueue: its count has 16 bits, and the wedge's pool has room for so many visits (R219). -/
def State.visitRoom (s : State) (r : Ray) : Nat :=
  min (65535 - r.count) (Config.visitPool - (s.visits.filter fun v => v.wedge == r.wedge).length)

/-- The ray has no visit left: its result lands (R219). -/
def State.rayOver (s : State) (id : Nat) : State :=
  let s : State := { s with
    visits := s.visits.filter fun v => v.ray != id
    rays := s.rays.map fun r => if r.id == id then { r with count := 0, todo := [] } else r }
  s.push .rayResultLands { a := id }

/-- TREELET_VISIT (R219): a ray unit traverses one treelet of a visit. Children beyond what the count or the pool takes it
traverses itself, one after another, before the visit ends. It brings the wedge. -/
def State.treeletVisit (s : State) (wedge : Nat) : State :=
  match s.rayWork wedge with
  | none => s
  | some (v, queued) =>
    match s.rays.find? fun r => r.id == v.ray with
    | none => { s with visits := s.visits.erase v }
    | some r =>
      match s.runVisit r v with
      | .error (.viol s va k l ipa) => s.rayViolate r (BitVec.ofInt 64 va) k l ipa
      | .error (.fault s va e) =>
        let pf : PageFault := ⟨s.seq, r.ctx, BitVec.ofInt 64 va, Acc.engineRead.code, e, none, none, none,
          [⟨.treeletVisit, { a := wedge, b := r.id, c := (BitVec.ofInt 64 va).toNat }⟩], 0⟩
        ({ s.fresh with faults := s.faults ++ [pf] } : State).push .pageFaultResolution { a := s.seq }
      | .error (.engine s a) => s.rayStop r 0x24 (BitVec.ofNat 64 a)
      | .ok (s, w) =>
        let k := min w.more.length (s.visitRoom r)
        let todo := (if queued then [] else r.todo.drop 1) ++ w.more.drop k
        let n := r.count + k - (if todo.isEmpty then 1 else 0)
        let s : State := { s with
          visits := (if queued then s.visits.erase v else s.visits) ++ w.more.take k
          rays := s.rays.map fun x => if x.id == r.id then { x with tcur := w.tcur, hit := w.hit, count := n, todo := todo } else x
          rayTurn := if queued then (s.rayTurn.filter fun x => x.1 != wedge) ++ [(wedge, s.queueKey v)] else s.rayTurn }
        let s := if w.ended || n = 0 then s.rayOver r.id else s
        if (s.visits.any fun v => v.wedge == wedge) || (s.rays.any fun x => x.wedge == wedge && !x.todo.isEmpty) then
          s.push .treeletVisit { a := wedge } else s

/-- TREELET_VISIT. A read whose page fault could not be resolved stops its context with kind 10 (R209, R386, R387). -/
def execTreeletVisit (s : State) : Res :=
  if s.ev.f = 1 then
    match s.rays.find? fun r => r.id == s.ev.b with
    | some r => .next (s.rayViolate r (BitVec.ofNat 64 s.ev.va) 10 s.ev.lv s.ev.ipa)
    | none => .next s
  else .next (s.treeletVisit s.ev.a)

/-- The four results of a ray (R223). -/
def Ray.results (r : Ray) : List (BitVec 4 × Nat) :=
  match r.hit with
  | none => [(tFP32, finf), (tI32, 0), (tI32, 0xFFFFFFFF), (tFP16, 0)]
  | some (inst, word, u, v) =>
    let h (x : Nat) : Nat := (cvtElem .onRead rne (.flt .fp32) (.flt .fp16) x).1
    [(tFP32, r.tcur), (tI32, word), (tI32, inst),
     (tFP16, if decide (2 ^ 31 ≤ word) then 0 else h u + 2 ^ 16 * h v)]

/-- RAY_RESULT_LANDS (R219, R223): the lane's registers receive the result and the entry is freed. It brings the ray. -/
def State.rayLands (s : State) (id : Nat) : State :=
  match s.rays.find? fun r => r.id == id with
  | none => s
  | some r =>
    if r.count ≠ 0 then s
    else
      let s := ({ s with rays := s.rays.filter fun x => x.id != id } : State).wakeEngine
      -- in the saved image too while the wave is out (R224)
      (s.updWave r.g r.w fun w => (List.range 4).foldl (fun w k =>
        let x := r.results.getD k (0, 0)
        w.landV (r.dst + k) r.lane x.1 (BitVec.ofNat 32 x.2) r.who) w).resave r.g r.w

/-- RAY_RESULT_LANDS. -/
def execRayResultLands (s : State) : Res := .next (s.rayLands s.ev.a)

/-! ## VTRACE (R222, R223) -/

/-- Two register spans overlap. -/
def spansMeet (a n b m : Nat) : Bool := decide (a < b + m) && decide (b < a + n)

/-- VTRACE: form f[0] selects any hit, f[1] a packet, which changes timing alone (R220). DEDUCED (log 34). -/
def execVtrace (d a b : BitVec 7) (ea eb : Bool) (f : BitVec 2) (s : State) : Res :=
  let srcs : List Src := ((List.range 8).map fun k => (⟨0, false, a.toNat + k, 1, .fp32, ea⟩ : Src)) ++ [⟨1, true, b.toNat, 1, .bit, eb⟩]
  s.issue {} (fun i => vOk i.wv (a.toNat + 7) && ((List.range 4).all fun k => vDst i.wv (d.toNat + k)) && sOk i.wv b.toNat &&
      !spansMeet d.toNat 4 a.toNat 8) false srcs ((List.range 4).map fun k => (false, d.toNat + k)) fun i =>
    let x := (i.wv.sreg b.toNat).val.toNat
    let sh := s.shapeOf i.grp.ctx (x % 256)
    if sh.fmt ≠ 15 then .next (s.trap i 0x04 0 (shapeInfo 1 0 sh.fmt))
    else
      let wedge := wedgeOf i.grp.core
      let lanes := lanesOf i.fr.live
      match s.accessWait i.c.g i.c.w false true with
      | some w => .next (s.block i w)
      | none =>
        if 262144 < (s.rays.filter fun r => r.wedge == wedge).length + lanes.length then .next (s.block i .engine)
        else
          let wv := s.portView i i.wv srcs
          let s := s.popPorts i srcs
          let vals := srcs.map (readSrc wv)
          let get (k l : Nat) : Nat := ((vals.getD k ([], [])).1).getD l 0
          let fl := vals.foldl (fun a x => a ||| orLanes i.fr.live x.2) 0
          let s := s.updCur i fun w => { w with regs := { w.regs with fpflags := w.regs.fpflags ||| fl } }
          let s := lanes.foldl (fun (s : State) l =>
            let o := (List.range 3).map fun k => get k l
            let dd := (List.range 3).map fun k => get (3 + k) l
            let refused := rayRefused o dd (get 6 l) (get 7 l)
            let r : Ray := ⟨s.seq, wedge, i.grp.core, i.grp.ctx, i.ln.id, i.c.g, i.c.w, l, i.fr.live, d.toNat, sh.base,
              f.getLsbD 0 && !i.ln.det, ebit x 17, ebit x 16, BitVec.ofNat 8 (x / 2 ^ 8), o, dd, get 6 l, get 7 l, none,
              if refused then 0 else 1, []⟩
            let s : State := { s.fresh with rays := s.rays ++ [r] }
            if refused then s.push .rayResultLands { a := r.id }
            else ({ s with visits := s.visits ++ [⟨r.id, wedge, 0, get 6 l, none, 0⟩] } : State).push .treeletVisit { a := wedge }) s
          .next ((s.updCur i fun w => (List.range 4).foldl (fun w k => w.emptyV (d.toNat + k) i.fr.live) w).retire i)

end Sys2Proof.Machine
end

