-- ==== Sys2Proof/Machine/Replay.lean ====
section
/-! DEFINITION. The replay of a DET context (R432): the inputs from outside that its recording supplies. -/

namespace Sys2Proof.Machine

open Host

/-- Bytes that a recording says landed at an address of the partition, in place; those that wait at a barrier among them see its
phase. DEDUCED (log 60). -/
def State.replayLand (s : State) (p : Part) (ipa : Nat) (bs : List Byte) : State :=
  (pagePieces ipa bs.length).foldl (fun s q => match s.translate2 p (ipa + q.1) .hostWrite with
    | (s, .ok pa _) => (s.homeWrite pa ((bs.drop q.1).take q.2)).wakeSpan pa q.2
    | (s, _) => s) s

/-- One input from outside, taken from the recording at its virtual cycle: a host's write (1), data landed (2), a work record (3),
a read of HBEAT (5) or a permit's return (8). -/
def State.replayInput (s : State) (launch : Nat) : State :=
  match s.launch? launch with
  | none => s
  | some l => match s.detPeek l, s.partOf l.ctx with
    | some (_, kind, loc, _), some p =>
      if kind = 2 ∧ loc < 2 ^ 63 then
        (s.replayTile launch loc).getD (s.detStop l 1)
      else
      let d := s.detInput launch kind (BitVec.ofNat 64 loc) 0 []
      if kind = 1 then d.1.replayLand p loc d.2.2
      else if kind = 2 then (d.1.replayLand p (loc % 2 ^ 45) d.2.2).landed p.n
      else if kind = 3 then d.1.forwardArrive p.n loc d.2.2 false true 0
      else if kind = 8 then d.1.permitBack p.n (loc % 2 ^ 63) true
      else if kind = 5 then
        (match s.fills.find? fun f => f.kind == 4 && (match s.group? f.g with
            | some gr => gr.launch == launch && detWhere gr f.w 32 == BitVec.ofNat 64 loc
            | none => false) with
        | some f => s.hbeatFill f 0
        | none => s.detStop l 1)
      else s
    | _, _ => s

/-- DET_RECORDER_INPUT (R432). With f = 1 it supplies the next input from outside of the launch it brings; with f = 2 a read of
HBEAT, whose number it brings, takes the heartbeat's value; else it takes an input of the launch: the kind, the place, the value
and the payload. DEDUCED (log 60). -/
def execDetRecorderInput (s : State) : Res :=
  .next (if s.ev.f = 1 then s.replayInput s.ev.a
    else if s.ev.f = 2 then match s.fills.find? fun f => f.id == s.ev.a && f.kind == 4 with
      | some f => s.hbeatFill f (BitVec.ofNat 64 s.ev.b)
      | none => s
    else (s.detInput s.ev.a s.ev.b (BitVec.ofNat 64 s.ev.c) (BitVec.ofNat 64 s.ev.d) s.ev.bytes).1)

end Sys2Proof.Machine
end

