-- ==== Sys2Proof/Machine/Sample.lean ====
section
/-! DEFINITION. Texture sampling (R225 to R229). FP32 numbers are their bits. -/

namespace Sys2Proof.Machine

open Host

/-! ## Texels (R226) -/

/-- An image's width or height at a level (R225). -/
def levelSize (n l : Nat) : Nat := max 1 (n / 2 ^ l)

/-- The index that an address mode uses; none is the border. -/
def texIndex (mode n : Nat) (i : Int) : Option Nat :=
  if mode = 0 then some (i % (n : Int)).toNat
  else if mode = 1 then some (min (max i 0) (n - 1)).toNat
  else if mode = 2 then
    let j := (i % (2 * n : Int)).toNat
    some (if j < n then j else 2 * n - 1 - j)
  else if 0 ≤ i ∧ i < n then some i.toNat else none

/-- A texel's four channels. -/
def texelVals (fmt : Nat) (bs : List Byte) : List FVal :=
  let zero : FVal := .fin false 0 0
  let one : FVal := .fin false 1 0
  let half (k : Nat) : FVal := Fmt.fp16.unpack (leNat ((bs.drop (2 * k)).take 2))
  if fmt = 2 then [fval (leNat (bs.take 4)), zero, zero, one]
  else if fmt = 5 then [half 0, zero, zero, one]
  else if fmt = 6 then [Fmt.bf16.unpack (leNat (bs.take 2)), zero, zero, one]
  else if fmt = 13 then (List.range 4).map fun k =>
    fval (quotient .fp32 .ieee (.fin false (leNat ((bs.drop k).take 1)) 0) (.fin false 255 0))
  else (List.range 4).map half

/-! ## Filtering (R227, R228) -/

def FVal.floor (v : FVal) : Int := v.exact.floorScaled 0

/-- A fraction's distance from its floor in 256ths, rounded; a full 256 moves on by one. -/
def split256 (v : FVal) : Int × Nat :=
  let i := v.floor
  let d := v.exact.add ⟨-i, 0⟩
  let q := (roundInt rne false d.m.natAbs (d.e + 8)).1.toNat
  if q = 256 then (i + 1, 0) else (i, q)

/-- RNE(u × n). DESIGN CHOICE (log 31). -/
def scaleCoord (u n : Nat) : Nat := roundDir rne (mulVal (fval u) (.fin false n 0) (some 0))

/-- One axis of a lane at a level: the indices it reads and their weights in 256ths; none when the scaled coordinate is
beyond FP32. -/
def sampleAxis (nearest : Bool) (u n : Nat) : Option (List (Nat × Int)) :=
  let p := scaleCoord u n
  if !ffinite p then none
  else if nearest then some [(256, (fval p).floor)]
  else
    let x := split256 (fval (fsub p 0x3F000000))
    some [(256 - x.2, x.1), (x.2, x.1 + 1)]

/-- What S[b] asks for (R225). -/
structure SampleArgs where
  layer : Nat
  chan : Nat
  nearest : Bool
  amu : Nat
  amv : Nat

def sampleArgs (x : Nat) : SampleArgs :=
  ⟨x / 2 ^ 32 % 2 ^ 16, x / 2 ^ 14 % 4, ebit x 12, x / 2 ^ 8 % 4, x / 2 ^ 10 % 4⟩

/-- What a lane returns: zeros, values that R227 does not give, the weighted texels in 2^-24ths, or the four texels of
GATHER4. -/
inductive Plan where
  | zero
  | unstated
  | taps (ts : List (Nat × Option Coord))
  | gather (ts : List (Option Coord))

/-- The texel at raw indices of a level. -/
def texAt (r : Shape) (g : SampleArgs) (l : Nat) (i j : Int) : Option Coord :=
  match texIndex g.amu (levelSize (r.size 0) l) i, texIndex g.amv (levelSize (r.size 1) l) j with
  | some x, some y => some ⟨x, y, l, g.layer⟩
  | _, _ => none

/-- The texels of one level, weighted; `wl` is the level's own weight in 256ths. DEDUCED (log 32). -/
def levelTaps (r : Shape) (g : SampleArgs) (u v l wl : Nat) : Option (List (Nat × Option Coord)) :=
  match sampleAxis g.nearest u (levelSize (r.size 0) l), sampleAxis g.nearest v (levelSize (r.size 1) l) with
  | some xs, some ys => some (ys.flatMap fun y => xs.map fun x => (x.1 * y.1 * wl, texAt r g l x.2 y.2))
  | _, _ => none

/-- λ clamped to [0, SIZE2 − 1], NaN as 0 (R228). -/
def clampLambda (lam top : Nat) : FVal :=
  match fval lam with
  | .nan _ => .fin false 0 0
  | .inf n => .fin false (if n then 0 else top) 0
  | .fin n m e =>
    let x := Exact.ofFin n m e
    if x.lt ⟨0, 0⟩ then .fin false 0 0 else if (Exact.mk top 0).lt x then .fin false top 0 else .fin n m e

/-- The levels of a lane and their weights in 256ths. -/
def sampleLevels (r : Shape) (lam : Option Nat) : List (Nat × Nat) :=
  match lam with
  | none => [(0, 256)]
  | some x =>
    let q := split256 (clampLambda x (r.size 2 - 1))
    let l := q.1.toNat
    if l + 1 = r.size 2 then [(l, 256)] else [(l, 256 - q.2), (l + 1, q.2)]

/-- A lane's texels: `lam` is its λ, if the form has one. -/
def lanePlan (r : Shape) (g : SampleArgs) (gather : Bool) (u v : Nat) (lam : Option Nat) : Plan :=
  if !ffinite u || !ffinite v then .zero
  else if gather then
    match sampleAxis false u (levelSize (r.size 0) 0), sampleAxis false v (levelSize (r.size 1) 0) with
    | some xs, some ys => .gather (ys.flatMap fun y => xs.map fun x => texAt r g 0 x.2 y.2)
    | _, _ => .unstated
  else
    (sampleLevels r lam).foldl (fun p l => match p, levelTaps r g u v l.1 l.2 with
      | .taps ts, some t => .taps (ts ++ t)
      | _, _ => .unstated) (.taps [])

def Plan.coords : Plan → List Coord
  | .taps ts => ts.filterMap (·.2)
  | .gather ts => ts.filterMap id
  | _ => []

/-- λ of R228 for the quad of a lane: u and v of every lane, helpers included. DEDUCED (log 32). -/
def quadLambda (r : Shape) (u v : List Nat) (l : Nat) : Nat :=
  let st (c : List Nat) (n k : Nat) : Nat := scaleCoord (c.getD k 0) n
  let q := l / 4 * 4
  let row := q + l / 2 % 2 * 2
  let col := q + l % 2
  let dx (c : List Nat) (n : Nat) : Nat := fsub (st c n (row + 1)) (st c n row)
  let dy (c : List Nat) (n : Nat) : Nat := fsub (st c n (col + 2)) (st c n col)
  let w := r.size 0
  let h := r.size 1
  let sq (a b : Nat) : Nat := fadd (fmul a a) (fmul b b)
  let rho2 := fmax (sq (dx u w) (dx v h)) (sq (dy u w) (dy v h))
  fmul 0x3F000000 (vlog232 rho2).1

/-! ## Reading (R226) -/

/-- A plain load of the wave: what its core's L1 or the home gives. -/
def State.plainRead (s : State) (core ctx : Nat) (a : Int) : Nat → MemRes (List Byte)
  | 0 => .ok s []
  | n + 1 =>
    if a < 0 ∨ (2 ^ 57 : Int) ≤ a then .viol s a 0 0 0
    else match s.translate core ctx a.toNat .load with
      | (s, .ok pa _) => match s.loadByte core pa with
        | none => .viol s a 8 0 0
        | some b => (s.plainRead core ctx (a + 1) n).andThen fun s bs => .ok s (b :: bs)
      | (s, .viol k l i) => .viol s a k l i
      | (s, .resolvable e) => .fault s a e

/-- A texel's bytes: after the wave's own earlier atomics on them (R238), and whole (R237). -/
def State.texelBytes (s : State) (i : Iss) (a : Int) (n : Nat) : MemRes (List Byte) :=
  match (if a < 0 ∨ (2 ^ 57 : Int) ≤ a then none else some (s.translate i.grp.core i.grp.ctx a.toNat .load)) with
  | some (s, .ok pa _) =>
    let s := (s.placeEarlier i.c.g i.c.w (BitVec.ofInt 64 a) n s.seq).settleAtomics i.c.g i.c.w pa n s.seq
    (s.freshen i.grp.core pa n).plainRead i.grp.core i.grp.ctx a n
  | _ => s.plainRead i.grp.core i.grp.ctx a n

/-- A texel, or the border's zeros. -/
def State.texel (s : State) (i : Iss) (r : Shape) (c : Option Coord) : MemRes (List FVal) :=
  match c with
  | none => .ok s (List.replicate 4 (.fin false 0 0))
  | some c => (s.texelBytes i (r.addrOf c) (fmtBytes r.fmt)).andThen fun s bs => .ok s (texelVals r.fmt bs)

/-- A lane's four results. DESIGN CHOICE (log 31); DEDUCED (log 32). -/
def State.sampleLane (s : State) (i : Iss) (r : Shape) (g : SampleArgs) (lane : Nat) : Plan → MemRes (List Nat)
  | .zero => .ok s [0, 0, 0, 0]
  | .unstated => .ok s ((List.range 4).map fun k => (Config.openValue (s.openKey i.c.g i.c.w * 1024 + 4 * lane + k)).toNat % 2 ^ 32)
  | .gather ts => (eachMem (fun s c => s.texel i r c) ts s).andThen fun s vs =>
      .ok s (vs.map fun t => sumVals .fp32 [t.getD g.chan (.nan false)])
  | .taps ts => (eachMem (fun s (c : Nat × Option Coord) => (s.texel i r c.2).andThen fun s v => .ok s (c.1, v)) ts s).andThen
      fun s vs => .ok s ((List.range 4).map fun k => sumVals .fp32 (vs.map fun t =>
        mulVal (.fin false t.1 (-24)) (t.2.getD k (.nan false)) (some 0)))

/-- Numbers in ascending order. -/
def sortInts : List Int → List Int
  | [] => []
  | x :: xs =>
    let rec ins (y : Int) : List Int → List Int
      | [] => [y]
      | z :: zs => if z < y then z :: ins y zs else y :: z :: zs
    ins x (sortInts xs)

/-! ## VSAMPLE -/

/-- A word that reads SPACE 0 pixels (R225). -/
def sampleImage (r : Shape) : Bool := [2, 5, 6, 12, 13, 14].contains r.fmt && r.space == 0

/-- VSAMPLE (R225 to R229): forms 0 BILIN, 1 TRILIN, 2 LOD, 3 GATHER4. DEDUCED (log 32). -/
def execVsample (d a b : BitVec 7) (ea eb : Bool) (f : BitVec 2) (s : State) : Res :=
  let nc : Nat := if f = 2 then 3 else 2
  let srcs : List Src := ((List.range nc).map fun k => (⟨0, false, a.toNat + k, 1, .fp32, ea⟩ : Src)) ++ [⟨1, true, b.toNat, 1, .bit, eb⟩]
  s.issue {} (fun i => ((List.range nc).all fun k => vOk i.wv (a.toNat + k)) && ((List.range 4).all fun k => vDst i.wv (d.toNat + k)) &&
      sOk i.wv b.toNat) false srcs ((List.range 4).map fun k => (false, d.toNat + k)) fun i =>
    let x := (i.wv.sreg b.toNat).val.toNat
    let g := sampleArgs x
    let r := s.shapeOf i.grp.ctx (x % 256)
    if !sampleImage r then .next (s.trap i 0x04 0 (shapeInfo 1 0 r.fmt))
    else if r.size 3 ≤ g.layer then .next (s.illegal i)
    else match s.accessWait i.c.g i.c.w false false with
      | some w => .next (s.block i w)
      | none =>
        let sp := s.popPorts i srcs
        let wv := s.portView i i.wv srcs
        let vals := srcs.map fun q => (readSrc wv q).1
        let u : List Nat := vals.getD 0 []
        let v : List Nat := vals.getD 1 []
        let plan (l : Nat) : Plan :=
          let lam : Option Nat :=
            if f = 1 then some (quadLambda r u v l) else if f = 2 then some ((vals.getD 2 []).getD l 0) else none
          lanePlan r g (f == 3) (u.getD l 0) (v.getD l 0) lam
        let lanes := lanesOf i.fr.live
        let addrs : List (Nat × DWord) := lanes.flatMap fun l =>
          (sortInts ((plan l).coords.map r.addrOf)).map fun a => (l, BitVec.ofInt 64 a)
        match s.lockTrap i.grp.ctx none false (fmtBytes r.fmt) addrs (·.toNat) with
        | some t => .next (s.trap i 0x06 t.1 t.2)
        | none =>
          match eachMem (fun s l => (s.sampleLane i r g l (plan l)).andThen fun s y => .ok s (l, y)) lanes sp with
          | .viol _ va k lv ipa => .next (s.violate i (BitVec.ofInt 64 va) k lv ipa .load 0)
          | .fault _ va e =>
            let q := s.fileFault i.grp.ctx (BitVec.ofInt 64 va) .load e none (some (i.c.g, i.c.w, i.c.f))
            .next (q.1.block i (.fault q.2))
          | .ok s rs =>
            let out (l : Nat) : List Nat := match rs.find? fun q => q.1 == l with | some q => q.2 | none => []
            let m : Sample := ⟨s.seq, i.c.g, i.c.w, d.toNat, i.fr.live, i.fr.live, (List.range 32).map out⟩
            let s : State := { s.fresh with samples := s.samples ++ [m] }
            let s := s.pushAll (lanes.map fun l => ⟨.sampleResultLands, { a := m.id, b := l }⟩)
            .next ((s.updCur i fun w => (List.range 4).foldl (fun w k => w.emptyV (d.toNat + k) i.fr.live) w).retire i)

/-- SAMPLE_RESULT_LANDS (R229): a lane's four registers fill. It brings the sample and the lane. -/
def execSampleResultLands (s : State) : Res :=
  let lane := s.ev.b
  .next (match s.samples.find? fun m => m.id == s.ev.a with
    | none => s
    | some m =>
      if !m.lanes.getLsbD lane then s
      else
        let left := m.lanes &&& ~~~(BitVec.ofNat 32 (2 ^ lane))
        let s : State := { s with samples := s.samples.filterMap fun x =>
          if x.id == m.id then (if left = 0 then none else some { x with lanes := left }) else some x }
        -- in the saved image too while the wave is out (R229)
        (s.updWave m.g m.w fun w => (List.range 4).foldl (fun w k =>
          w.landV (m.dst + k) lane tFP32 (BitVec.ofNat 32 ((m.vals.getD lane []).getD k 0)) m.who) w).resave m.g m.w)

end Sys2Proof.Machine
end

