-- ==== Sys2Proof/Machine/Service.lean ====
section
/-! DEFINITION. Service calls (R86, R87, R112, R113) and the service groups that answer them. What the firmware answers is its
own (Config.service); how a call is queued, taken and answered is here. -/

namespace Sys2Proof.Machine

open Host

/-- The words of a service call: its argument registers, S[b], and for VSVC the two destinations (R112). A release; a full
queue holds the unit (R86). -/
def serviceWord (d : Option Nat) (a b : BitVec 7) (ea eb : Bool) (s : State) : Res :=
  let srcs : List Src := [⟨0, false, a.toNat, 4, .bit, ea⟩, ⟨1, true, b.toNat, 1, .bit, eb⟩]
  let ds := match d with | some n => [(false, n), (false, n + 1)] | none => []
  s.issue {} (fun i => vOk i.wv (a.toNat + 3) && sOk i.wv b.toNat && ds.all fun x => vDst i.wv x.2) false srcs ds fun i =>
    match s.accessWait i.c.g i.c.w true true with
    | some w => .next (s.block i w)
    | none =>
      let wheel := wheelOf (wedgeOf i.grp.core)
      let part := match s.partOf i.grp.ctx with | some p => p.n | none => 0
      -- an audit of the queue freezes it for this tick (R21)
      if (s.partOf i.grp.ctx).any Part.frozen then .next (s.block i .assay)
      else if 256 ≤ s.svcCount wheel part then .next (s.block i (.serviceSlot wheel))
      else
        let s := s.popPorts i srcs
        let v := s.waveNow i
        let r : SvcRec :=
          { id := s.seq, wheel := wheel, part := part, ctx := i.grp.ctx, g := i.c.g, w := i.c.w, lanes := i.fr.live, dst := d
            service := (v.sreg b.toNat).val
            args := (List.range 32).map fun l => (List.range 4).map fun k => (v.vreg (a.toNat + k)).lane l
            queuedAt := 0, taken := false, req := none, who := i.fr.live, due := s.vclockOf i.grp.ctx + 65536 }
        let s := s.setRelts i.c.g i.c.w (i.wv.releaseTime (s.ticksOf i.grp.ctx))
        let s := ({ s.fresh with svc := s.svc ++ [r] } : State).push .serviceBatch { a := wheel }
        .next ((s.updCur i fun w => ds.foldl (fun w x => w.emptyV x.2 i.fr.live) w).retire i)

/-- R112, R113. -/
def execVsvc (d a b : BitVec 7) (ea eb : Bool) (s : State) : Res := serviceWord (some d.toNat) a b ea eb s
/-- R112, R113. -/
def execVsvcn (a b : BitVec 7) (ea eb : Bool) (s : State) : Res := serviceWord none a b ea eb s

/-- Units that wait for a slot of a wheel's queue try again. -/
def State.wakeService (s : State) (wheel : Nat) : State :=
  { s with waves := s.waves.map fun v =>
      { v with frags := v.frags.map fun f => if f.wait = some (.serviceSlot wheel) then { f with wait := none } else f } }

/-- A record that the service group may take: a stopped context's records stay queued (R405), and so do those of a queue that an
audit has frozen for this tick (R21); a VATOMX of a DET context comes at its virtual cycle (R429). -/
def State.svcReady (s : State) (r : SvcRec) : Bool :=
  !r.taken && !(s.part? r.part).any Part.frozen && !(r.req.isSome && s.detCtx r.ctx && decide (s.vclockOf r.ctx < r.due)) &&
    (r.from_.isSome || (match s.ctx? r.ctx with | some c => c.phase == .running | none => false))

/-- Partitions with records to take on a wheel, in ascending order. -/
def State.svcParts (s : State) (wheel : Nat) : List Nat :=
  (List.range 20).filter fun p => s.svc.any fun r => r.wheel == wheel && r.part == p && s.svcReady r

/-- The partition served next: round-robin, one batch at a time (R86). -/
def State.svcNext (s : State) (wheel : Nat) : Option Nat :=
  let ps := s.svcParts wheel
  match s.svcTurn.find? fun t => t.1 == wheel with
  | some t => match ps.find? fun p => decide (t.2 < p) with
    | some p => some p
    | none => ps.head?
  | none => ps.head?

def State.setTurn (s : State) (wheel part : Nat) : State :=
  { s with svcTurn := (s.svcTurn.filter fun t => t.1 != wheel) ++ [(wheel, part)] }

def State.svcCounts (s : State) (wheel part : Nat) : State :=
  { s with svcDone := (s.svcDone.filter fun x => !(x.1 == wheel && x.2.1 == part)) ++ [(wheel, part, s.svcAnswered wheel part + 1)] }

/-- The wheel's service group acts for a record's partition and context from now on (R374). A record that a peer sent has no
context of this module. -/
def State.svcServes (s : State) (wheel part ctx : Nat) : State :=
  { s with groups := s.groups.map fun g => if g.kernel && wheelOf (wedgeOf g.core) == wheel then { g with serves := some (part, ctx) } else g }

/-- Place of a record among those of a DET context (R430). -/
def State.svcKey (s : State) (r : SvcRec) : Nat :=
  (r.due * 2 ^ 120 + (match s.wave? r.g r.w with | some v => s.waveKey v | none => 0)) * 32 + (match r.req with | some x => x.2 | none => 0)

/-- The record of a partition that a service group takes next: the oldest, or, of a DET context's VATOMX, the first in R430's
order (R255). -/
def State.svcPick (s : State) (wheel part : Nat) : Option SvcRec :=
  let mine := s.svc.filter fun r => r.wheel == wheel && r.part == part && s.svcReady r
  match mine with
  | [] => none
  | r :: rs =>
    if r.req.isSome && s.detCtx r.ctx then
      some ((rs.filter fun x => x.ctx == r.ctx && x.req.isSome).foldl (fun b x => if s.svcKey x < s.svcKey b then x else b) r)
    else some r

/-- SERVICE_BATCH (R86, R113, R282, R336): the service group takes the next record. It brings the wheel. -/
def State.serviceTake (s : State) (wheel : Nat) : State :=
  match s.svcNext wheel with
  | none => s
  | some part =>
    match s.svcPick wheel part with
    | none => s
    | some r =>
      let s := ((s.setTurn wheel part).wakeService wheel).svcServes wheel part r.ctx
      let gone : State := ({ s with svc := s.svc.filter fun x => x.id != r.id } : State).svcCounts wheel part
      match r.from_, r.req, r.dst with
      | some (pkg, pa, ops), _, _ => gone.remoteRoutine r.part pkg pa r.service.toNat ops
      | none, some (id, lane), _ => gone.runRoutine id lane
      | none, none, none => gone
      | none, none, some _ =>
        let s : State := { s with svc := s.svc.map fun x => if x.id == r.id then { x with taken := true } else x }
        s.pushAll ((lanesOf r.lanes).map fun l => (⟨.serviceReplyLands, { a := r.id, b := l }⟩ : Event))

/-- SERVICE_BATCH. DESIGN CHOICE (log 12). -/
def execServiceBatch (s : State) : Res := .next (s.serviceTake s.ev.a)

/-- SERVICE_TURN_END (R86), due at least every 10 µs on every wheel that has records. A turn here is one batch, so the next batch is
the other partition's in any case; the end of a turn finds the service group at the queues again. It brings the wheel. -/
def State.serviceTurn (s : State) (wheel : Nat) : State :=
  if (s.svcParts wheel).isEmpty then s else s.pushNew [⟨.serviceBatch, { a := wheel }⟩]

/-- SERVICE_TURN_END. -/
def execServiceTurnEnd (s : State) : Res := .next (s.serviceTurn s.ev.a)

/-- SERVICE_REPLY_LANDS (R113): status and value fill the lane's destinations, an acquire; an unknown service answers
0xFFFF_FFFF and 0. The reply is an input of a DET context (R431). It brings the record and the lane. DESIGN CHOICE (log 12). -/
def State.replyLands (s : State) (id lane : Nat) : State :=
  match s.svc.find? fun r => r.id == id && r.taken with
  | none => s
  | some r =>
    if !r.lanes.getLsbD lane then s
    else
      let left := r.lanes &&& ~~~BitVec.ofNat 32 (2 ^ lane)
      let s : State := if left = 0 then ({ s with svc := s.svc.filter fun x => x.id != id } : State).svcCounts r.wheel r.part
        else { s with svc := s.svc.map fun x => if x.id == id then { x with lanes := left } else x }
      match r.dst, s.group? r.g with
      | some d, some gr =>
        let ans : Word × Word := match Config.service r.service (r.args.getD lane []) lane with
          | some x => x
          | none => (0xFFFFFFFF, 0)
        let x := s.detInput gr.launch 6 (detWhere gr r.w lane) (ans.1 ++ ans.2 : BitVec 64) []
        let v := x.2.1.toNat
        -- in the saved image too while the wave is out (R140)
        ((x.1.updWave r.g r.w fun w =>
          (w.landV d lane tI32 (BitVec.ofNat 32 (v / 2 ^ 32)) r.who).landV (d + 1) lane tRAW (BitVec.ofNat 32 v) r.who).resave r.g r.w).invalidate gr.core
      | _, _ => s

/-- SERVICE_REPLY_LANDS. -/
def execServiceReplyLands (s : State) : Res := .next (s.replyLands s.ev.a s.ev.b)

/-- SERVICE_WATCHDOG (R87): a record without a reply for 2^20 ticks stops its context, with the queue named. It brings the
record. DESIGN CHOICE (log 58). -/
def State.serviceLate (s : State) (id : Nat) : State :=
  match s.svc.find? fun r => r.id == id with
  | none => s
  | some r =>
    if r.queuedAt < 2 ^ 20 then s
    else s.raiseStop r.ctx none
      { cause := 0x27, engine := 12, unit := 2 * r.wheel, addr := BitVec.ofNat 64 r.wheel, detail := BitVec.ofNat 64 r.wheel
        done := BitVec.ofNat 64 (s.svcAnswered r.wheel r.part), total := BitVec.ofNat 64 (s.svcCount r.wheel r.part) }

/-- SERVICE_WATCHDOG. -/
def execServiceWatchdog (s : State) : Res := .next (s.serviceLate s.ev.a)

end Sys2Proof.Machine
end

