-- ==== Sys2Proof/Machine/Splat.lean ====
section
/-! DEFINITION. Splat compositing (R230 to R234). FP32 numbers are their bits. -/

namespace Sys2Proof.Machine

open Host

/-! ## Records (R230, R231) -/

/-- A record's fields 0 to 10 and its index. -/
structure SplatRec where
  i : Nat
  f : List Nat

/-- A record that is skipped. DEDUCED (log 33). -/
def SplatRec.skipped (r : SplatRec) : Bool :=
  let rho := r.f.getD 10 0
  (r.f.any fnan) || flt rho 0 || !ffinite rho

/-- The record's square meets a tile, ends closed. -/
def SplatRec.meets (r : SplatRec) (tx ty : Nat) : Bool :=
  let rho := r.f.getD 10 0
  let axis (m t : Nat) : Bool :=
    !((FVal.fin false (16 * t + 16) 0).lt (exactSub (fval m) (fval rho))) &&
    !((exactSub (fval m) (fval rho).negate).lt (.fin false (16 * t) 0))
  axis (r.f.getD 0 0) tx && axis (r.f.getD 1 0) ty

/-- Sort key of a depth. -/
def depthKey (z : Nat) : Nat := if z < 2 ^ 31 then z + 2 ^ 31 else 2 ^ 32 - 1 - z

/-- Ascending key, ascending index on a tie. -/
def sortDepth : List SplatRec → List SplatRec
  | [] => []
  | x :: xs =>
    let rec ins (y : SplatRec) : List SplatRec → List SplatRec
      | [] => [y]
      | z :: zs =>
        let ky := depthKey (y.f.getD 5 0)
        let kz := depthKey (z.f.getD 5 0)
        if kz < ky || (kz == ky && z.i < y.i) then z :: ins y zs else y :: z :: zs
    ins x (sortDepth xs)

/-! ## A pixel (R232) -/

/-- What a pixel has accumulated. -/
structure SplatAcc where
  c : List Nat := [0, 0, 0]
  t : Nat := fone
  d : Nat := 0
  stopped : Bool := false

/-- One record at a pixel centre. DEDUCED (log 33). -/
def SplatAcc.add (a : SplatAcc) (opthr px py : Nat) (r : SplatRec) : SplatAcc :=
  if a.stopped then a
  else
    let f (k : Nat) : Nat := r.f.getD k 0
    let dx := fval (fsub px (f 0))
    let dy := fval (fsub py (f 1))
    let m (x y : FVal) : FVal := mulVal x y (some 0)
    let q := sumVals .fp32 [m (m (fval (f 2)) dx) dx, m (m (m (.fin false 2 0) (fval (f 3))) dx) dy, m (m (fval (f 4)) dy) dy]
    let g := (vexp232 (fmul 0xBF000000 (fmul q 0x3FB8AA3B))).1
    let raw := fmul (f 6) g
    let alpha := if fnan raw then raw else fmin 0x3F7D70A4 raw
    if fnan alpha || flt alpha 0x3B808081 then a
    else
      let w := fmul a.t alpha
      let t := fmul a.t (fsub fone alpha)
      { c := (List.range 3).map fun k => fadd (a.c.getD k 0) (fmul w (f (7 + k)))
        d := fadd a.d (fmul w (f 5))
        t := t
        stopped := fle opthr (fsub fone t) }

/-- The 12 bytes of an output element. -/
def SplatAcc.bytes (a : SplatAcc) : List Byte :=
  let half (x : Nat) : Nat := (cvtElem .onRead rne (.flt .fp32) (.flt .fp16) x).1
  let o := fsub fone a.t
  ((a.c.map half) ++ [half o]).flatMap (leBytes 2) ++ leBytes 4 (if flt 0 o then fdiv a.d o else finf)

/-- A pixel of a tile from its sorted records. -/
def splatPixel (opthr x y : Nat) (rs : List SplatRec) : List Byte :=
  let centre (n : Nat) : Nat := roundDir rne (.fin false (2 * n + 1) (-1))
  (rs.foldl (fun (a : SplatAcc) r => a.add opthr (centre x) (centre y) r) {}).bytes

/-! ## SPLAT (R233, R234) -/

/-- What a SPLAT command keeps: the two shapes and OPTHR. -/
def Cmd.splatList (c : Cmd) : Shape := BitVec.ofNat 512 (leNat (c.payload.take 64))
def Cmd.splatOut (c : Cmd) : Shape := BitVec.ofNat 512 (leNat ((c.payload.drop 64).take 64))
def Cmd.splatThr (c : Cmd) : Nat := leNat ((c.payload.drop 128).take 4)
/-- TXN, TX0 and TY0 of S[b], COUNT of S[a]. -/
def Cmd.splatTxn (c : Cmd) : Nat := c.b.toNat / 2 ^ 32 % 2 ^ 16
def Cmd.splatTx0 (c : Cmd) : Nat := c.b.toNat % 2 ^ 16
def Cmd.splatTy0 (c : Cmd) : Nat := c.b.toNat / 2 ^ 16 % 2 ^ 16
def Cmd.splatCount (c : Cmd) : Nat := c.a.toNat / 2 ^ 32

/-- SPLAT. DEDUCED (log 33). -/
def execSplat (a b c : BitVec 7) (s : State) : Res :=
  s.issue {} (fun i => sOk i.wv a.toNat && sOk i.wv b.toNat && sOk i.wv c.toNat) true
    (sSrcs [(0, a.toNat), (1, b.toNat), (2, c.toNat)]) [] fun i =>
    let r := fun n => (i.wv.sreg n).val
    let x := r a.toNat
    let y := r b.toNat
    let bar := r c.toNat
    let list := s.shapeOf i.grp.ctx (x.toNat % 256)
    let out := s.shapeOf i.grp.ctx (x.toNat / 256 % 256)
    let txn := y.toNat / 2 ^ 32 % 2 ^ 16
    let tyn := y.toNat / 2 ^ 48
    let range (n : Nat) : Bool := decide (1 ≤ n) && decide (n ≤ 256)
    let listOk := list.fmt == 2 && list.space == 0 && decide (12 ≤ list.size 0)
    if !range txn || !range tyn || decide (list.size 1 < x.toNat / 2 ^ 32) then .next (s.illegal i)
    else if !listOk then .next (s.trap i 0x04 0 (shapeInfo 0 2 list.fmt))
    else if !(out.fmt == 14 && out.space == 0) then .next (s.trap i 0x04 0 (shapeInfo 0 0 out.fmt))
    else match s.barRefused i bar with
      | some s => .next s
      | none =>
          let src : Ext := ⟨none, list.extent.1.toNat, list.extent.2.toNat⟩
          let dst : Ext := ⟨none, out.extent.1.toNat, out.extent.2.toNat⟩
          match s.tokenWord i dst with
          | some t => .next (s.trap i 0x0D t.1 t.2)
          | none =>
            let wedge := wedgeOf i.grp.core
            let cm := { i.cmd s 4 4 x y 0 0 (txn * tyn) false bar with
              unit := wedge, payload := leBytes 64 list.toNat ++ leBytes 64 out.toNat ++ leBytes 4 i.wv.regs.opthr.toNat }
            engineTake s i cm [src] [dst] ⟨.splatCommandRun, { a := wedge }⟩

/-! ## Running a command (R234) -/

/-- The records of a command. -/
def State.splatRecords (s : State) (core : Nat) (c : Cmd) : MemRes (List SplatRec) :=
  let one (s : State) (i : Nat) : MemRes SplatRec :=
    (eachMem (fun s j => s.elemRead core c.ctx .glob c.splatList ⟨(j : Nat), (i : Nat), 0, 0⟩) (List.range 11) s).andThen
      fun s f => .ok s ⟨i, f⟩
  eachMem one (List.range c.splatCount) s

/-- One tile: its records sorted, its pixels inside OUT written. -/
def State.splatTile (s : State) (core : Nat) (c : Cmd) (rs : List SplatRec) : MemRes Unit :=
  let tx := c.splatTx0 + c.done % c.splatTxn
  let ty := c.splatTy0 + c.done / c.splatTxn
  let rs := sortDepth (rs.filter fun r => !r.skipped && r.meets tx ty)
  let px : List (Nat × Nat) := (List.range 256).map fun k => (16 * tx + k % 16, 16 * ty + k / 16)
  (eachMem (fun s (p : Nat × Nat) =>
    let co : Coord := ⟨p.1, p.2, 0, 0⟩
    if c.splatOut.inside co then s.engWrite core c.ctx .glob (c.splatOut.addrOf co) (splatPixel c.splatThr p.1 p.2 rs)
    else .ok s ()) px s).andThen fun s _ => .ok s ()

/-- The engine's next tile, or after the last one the command's completion; its commands run in their order of arrival, and a halted one lets the others by. -/
def State.splatRun (s : State) (wedge : Nat) : State :=
  match (s.queueOf 4 wedge).find? fun c => s.cmdGoes c with
  | none => s
  | some c =>
    if s.faults.any fun f => f.cmd == some c.id then s
    else if c.len ≤ c.done then
      match s.barWaits c ⟨.splatCommandRun, { a := wedge }⟩ with
      | some s => s
      | none =>
        let s := s.cmdDone c false
        if (s.queueOf 4 wedge).isEmpty then s else s.push .splatCommandRun { a := wedge }
    else
      let core := match s.group? c.g with | some g => g.core | none => 20 * wedge
      c.access .engineRead (s.splatRecords core c) fun s rs => c.access .engineWrite ((s.splatTile core c rs).whole s) fun s _ =>
        (s.updCmd c.id fun x => { x with started := true, done := x.done + 1 }).push .splatCommandRun { a := wedge }

/-- SPLAT_COMMAND_RUN (R234): a tile of the engine's current command. It brings the wedge. -/
def execSplatCommandRun (s : State) : Res := .next (s.splatRun s.ev.a)

end Sys2Proof.Machine
end

