-- ==== Sys2Proof/Machine/UniArith.lean ====
section
/-! DEFINITION. The uniform arithmetic words of majors 0x00 to 0x0B (R173, R174). -/

namespace Sys2Proof.Machine

def d64 (x : Nat) : DWord := BitVec.ofNat 64 x

/-- S[d] ← f S[a] S[b]. -/
def s2 (rd : Reader) (tag : BitVec 4) (f : Rnd → Nat → Nat → Nat × FpFlags) (d a b : BitVec 7) (s : State) : Res :=
  uniWord {} (fun _ =>
    { legal := fun v => sOk v a.toNat && sOk v b.toNat
      srcs := [⟨0, true, a.toNat, 1, rd, false⟩, ⟨1, true, b.toNat, 1, rd, false⟩]
      dst := d.toNat
      run := fun _ m v => ((f m (v.getD 0 0) (v.getD 1 0)).1, tag, (f m (v.getD 0 0) (v.getD 1 0)).2) }) s
/-- Integer word of two sources. -/
def sInt (f : DWord → DWord → DWord) := s2 .int64 tI64 fun _ x y => noFl (f (d64 x) (d64 y)).toNat
def sBit (f : DWord → DWord → DWord) := s2 .bit tRAW fun _ x y => noFl (f (d64 x) (d64 y)).toNat
def cmp64 (b : Bool) : Nat := if b then 2 ^ 64 - 1 else 0
def sCmp (f : DWord → DWord → Bool) := s2 .int64 tI64 fun _ x y => noFl (cmp64 (f (d64 x) (d64 y)))
/-- S[d] ← f S[a]. -/
def s1 (tag : BitVec 4) (f : Nat → Nat) (d a : BitVec 7) (s : State) : Res :=
  uniWord {} (fun _ =>
    { legal := fun v => sOk v a.toNat, srcs := [⟨0, true, a.toNat, 1, .bit, false⟩], dst := d.toNat
      run := fun _ _ v => (f (v.getD 0 0), tag, 0) }) s
/-- Immediate word (R29, R31). -/
def sImm (rd : Reader) (tag : BitVec 4) (f : DWord → DWord → DWord) (d a : BitVec 7) (n : BitVec 11) (s : State) : Res :=
  uniWord { imm := true } (fun c =>
    { legal := fun v => sOk v a.toNat, srcs := [⟨0, true, a.toNat, 1, rd, false⟩], dst := d.toNat
      run := fun _ _ v => ((f (d64 (v.getD 0 0)) (imm64 c 11 n.toNat)).toNat, tag, 0) }) s
/-- Three sources, z the old S[d] (R147), with a tag that may depend on the tags of a and b. -/
def s3 (rd : Reader) (tag : BitVec 4 → BitVec 4 → BitVec 4) (f : Rnd → Nat → Nat → Nat → Nat × FpFlags)
    (d a b : BitVec 7) (s : State) : Res :=
  uniWord {} (fun _ =>
    { legal := fun v => sOk v a.toNat && sOk v b.toNat
      srcs := [⟨0, true, a.toNat, 1, rd, false⟩, ⟨1, true, b.toNat, 1, rd, false⟩, ⟨3, true, d.toNat, 1, rd, false⟩]
      dst := d.toNat
      run := fun w m v =>
        let r := f m (v.getD 0 0) (v.getD 1 0) (v.getD 2 0)
        (r.1, tag (w.sreg a.toNat).tag (w.sreg b.toNat).tag, r.2) }) s

def shiftKind64 (k : Nat) (x : DWord) (n : Nat) : DWord :=
  if k = 0 then x <<< n else if k = 1 then x >>> n else if k = 2 then x.sshiftRight n else x.rotateLeft n

/-- R173. -/
def execSadd (d a b : BitVec 7) (s : State) : Res := sInt (· + ·) d a b s
/-- R173. -/
def execSsub (d a b : BitVec 7) (s : State) : Res := sInt (· - ·) d a b s
/-- R173. -/
def execSmul (d a b : BitVec 7) (s : State) : Res := sInt (· * ·) d a b s
/-- R173: high half of the signed product. -/
def execSmulh (d a b : BitVec 7) (s : State) : Res :=
  sInt (fun x y => BitVec.ofInt 64 (x.toInt * y.toInt / 2 ^ 64)) d a b s
/-- R173. -/
def execSand (d a b : BitVec 7) (s : State) : Res := sBit (· &&& ·) d a b s
/-- R173. -/
def execSor (d a b : BitVec 7) (s : State) : Res := sBit (· ||| ·) d a b s
/-- R173. -/
def execSxor (d a b : BitVec 7) (s : State) : Res := sBit (· ^^^ ·) d a b s
/-- R173. -/
def execSandn (d a b : BitVec 7) (s : State) : Res := sBit (fun x y => x &&& ~~~y) d a b s
/-- R173. -/
def execSshl (d a b : BitVec 7) (s : State) : Res := sBit (fun x y => x <<< (y.toNat % 64)) d a b s
/-- R173. -/
def execSshr (d a b : BitVec 7) (s : State) : Res := sBit (fun x y => x >>> (y.toNat % 64)) d a b s
/-- R173. -/
def execSsar (d a b : BitVec 7) (s : State) : Res := sBit (fun x y => x.sshiftRight (y.toNat % 64)) d a b s
/-- R173. -/
def execSrot (d a b : BitVec 7) (s : State) : Res := sBit (fun x y => x.rotateLeft (y.toNat % 64)) d a b s
/-- R173. -/
def execSmin (d a b : BitVec 7) (s : State) : Res := sInt (fun x y => if y.slt x then y else x) d a b s
/-- R173. -/
def execSmax (d a b : BitVec 7) (s : State) : Res := sInt (fun x y => if x.slt y then y else x) d a b s
/-- R173. -/
def execSminu (d a b : BitVec 7) (s : State) : Res := sInt (fun x y => if y < x then y else x) d a b s
/-- R173. -/
def execSmaxu (d a b : BitVec 7) (s : State) : Res := sInt (fun x y => if x < y then y else x) d a b s
/-- R173, R148. -/
def execSceq (d a b : BitVec 7) (s : State) : Res := sCmp (fun x y => x = y) d a b s
/-- R173, R148. -/
def execScne (d a b : BitVec 7) (s : State) : Res := sCmp (fun x y => x ≠ y) d a b s
/-- R173, R148. -/
def execSclt (d a b : BitVec 7) (s : State) : Res := sCmp (fun x y => x.slt y) d a b s
/-- R173, R148. -/
def execScltu (d a b : BitVec 7) (s : State) : Res := sCmp (fun x y => x < y) d a b s
/-- R173. -/
def execSsel (d a b : BitVec 7) (s : State) : Res :=
  s3 .bit (fun ta tb => if ta = tb then ta else tRAW)
    (fun _ x y z => noFl ((d64 x &&& d64 z) ||| (d64 y &&& ~~~ d64 z)).toNat) d a b s
/-- R173. -/
def execSclz (d a : BitVec 7) (s : State) : Res := s1 tI64 (clz 64) d a s
/-- R173. -/
def execSpopc (d a : BitVec 7) (s : State) : Res := s1 tI64 (popc 64) d a s
/-- R173. -/
def execSdivu (d a b : BitVec 7) (s : State) : Res := sInt (fun x y => if y = 0 then BitVec.allOnes 64 else x / y) d a b s
/-- R173. -/
def execSaddi (d a : BitVec 7) (i : BitVec 11) (s : State) : Res := sImm .int64 tI64 (· + ·) d a i s
/-- R173. -/
def execSandi (d a : BitVec 7) (i : BitVec 11) (s : State) : Res := sImm .bit tRAW (· &&& ·) d a i s
/-- R173. -/
def execSori (d a : BitVec 7) (i : BitVec 11) (s : State) : Res := sImm .bit tRAW (· ||| ·) d a i s
/-- R173, R29. -/
def execSshi (d a : BitVec 7) (k : BitVec 2) (n : BitVec 6) (s : State) : Res :=
  s1 tRAW (fun x => (shiftKind64 k.toNat (d64 x) n.toNat).toNat) d a s
/-- R173, R29, R31. -/
def execSmovi (d : BitVec 7) (i : BitVec 18) (s : State) : Res :=
  uniWord { imm := true } (fun c =>
    { legal := fun _ => true, srcs := [], dst := d.toNat
      run := fun _ _ _ => ((imm64 c 18 i.toNat).toNat, tI64, 0) }) s
/-- R173, R174. -/
def execSfadd (d a b : BitVec 7) (s : State) : Res := s2 .fp64 tFP64H Fmt.fp64.add d a b s
/-- R173, R174. -/
def execSfmul (d a b : BitVec 7) (s : State) : Res := s2 .fp64 tFP64H Fmt.fp64.mul d a b s
/-- R173, R174: one rounding. -/
def execSffma (d a b : BitVec 7) (s : State) : Res := s3 .fp64 (fun _ _ => tFP64H) Fmt.fp64.fma d a b s
/-- R173, R155. -/
def execSfclt (d a b : BitVec 7) (s : State) : Res :=
  s2 .fp64 tI64 (fun _ x y => (cmp64 (Fmt.fp64.clt x y).1, (Fmt.fp64.clt x y).2)) d a b s

end Sys2Proof.Machine
end

