-- ==== Sys2Proof/Machine/Dispatch.lean ====
section
/-! DEFINITION. The meaning of every instruction: one arm per constructor of Instr, each a direct call. -/

namespace Sys2Proof.Machine

open Host

def exec (i : Instr) (s : State) : Host.Outcome State Fault Refusal :=
  match i with
  | .vadd x0 x1 x2 x3 x4 => Sys2Proof.Machine.execVadd x0 x1 x2 x3 x4 s
  | .vsub x0 x1 x2 x3 x4 => Sys2Proof.Machine.execVsub x0 x1 x2 x3 x4 s
  | .vmul x0 x1 x2 x3 x4 => Sys2Proof.Machine.execVmul x0 x1 x2 x3 x4 s
  | .vmulh x0 x1 x2 x3 x4 => Sys2Proof.Machine.execVmulh x0 x1 x2 x3 x4 s
  | .vand x0 x1 x2 x3 x4 => Sys2Proof.Machine.execVand x0 x1 x2 x3 x4 s
  | .vor x0 x1 x2 x3 x4 => Sys2Proof.Machine.execVor x0 x1 x2 x3 x4 s
  | .vxor x0 x1 x2 x3 x4 => Sys2Proof.Machine.execVxor x0 x1 x2 x3 x4 s
  | .vandn x0 x1 x2 x3 x4 => Sys2Proof.Machine.execVandn x0 x1 x2 x3 x4 s
  | .vshl x0 x1 x2 x3 x4 => Sys2Proof.Machine.execVshl x0 x1 x2 x3 x4 s
  | .vshr x0 x1 x2 x3 x4 => Sys2Proof.Machine.execVshr x0 x1 x2 x3 x4 s
  | .vsar x0 x1 x2 x3 x4 => Sys2Proof.Machine.execVsar x0 x1 x2 x3 x4 s
  | .vrot x0 x1 x2 x3 x4 => Sys2Proof.Machine.execVrot x0 x1 x2 x3 x4 s
  | .vmin x0 x1 x2 x3 x4 => Sys2Proof.Machine.execVmin x0 x1 x2 x3 x4 s
  | .vmax x0 x1 x2 x3 x4 => Sys2Proof.Machine.execVmax x0 x1 x2 x3 x4 s
  | .vminu x0 x1 x2 x3 x4 => Sys2Proof.Machine.execVminu x0 x1 x2 x3 x4 s
  | .vmaxu x0 x1 x2 x3 x4 => Sys2Proof.Machine.execVmaxu x0 x1 x2 x3 x4 s
  | .vceq x0 x1 x2 x3 x4 => Sys2Proof.Machine.execVceq x0 x1 x2 x3 x4 s
  | .vcne x0 x1 x2 x3 x4 => Sys2Proof.Machine.execVcne x0 x1 x2 x3 x4 s
  | .vclt x0 x1 x2 x3 x4 => Sys2Proof.Machine.execVclt x0 x1 x2 x3 x4 s
  | .vcltu x0 x1 x2 x3 x4 => Sys2Proof.Machine.execVcltu x0 x1 x2 x3 x4 s
  | .vsel x0 x1 x2 x3 x4 => Sys2Proof.Machine.execVsel x0 x1 x2 x3 x4 s
  | .vabs x0 x1 x2 => Sys2Proof.Machine.execVabs x0 x1 x2 s
  | .vclz x0 x1 x2 => Sys2Proof.Machine.execVclz x0 x1 x2 s
  | .vpopc x0 x1 x2 => Sys2Proof.Machine.execVpopc x0 x1 x2 s
  | .vmad x0 x1 x2 x3 x4 => Sys2Proof.Machine.execVmad x0 x1 x2 x3 x4 s
  | .vdiv x0 x1 x2 x3 x4 => Sys2Proof.Machine.execVdiv x0 x1 x2 x3 x4 s
  | .vdivu x0 x1 x2 x3 x4 => Sys2Proof.Machine.execVdivu x0 x1 x2 x3 x4 s
  | .vrem x0 x1 x2 x3 x4 => Sys2Proof.Machine.execVrem x0 x1 x2 x3 x4 s
  | .vaddi x0 x1 x2 => Sys2Proof.Machine.execVaddi x0 x1 x2 s
  | .vandi x0 x1 x2 => Sys2Proof.Machine.execVandi x0 x1 x2 s
  | .vori x0 x1 x2 => Sys2Proof.Machine.execVori x0 x1 x2 s
  | .vxori x0 x1 x2 => Sys2Proof.Machine.execVxori x0 x1 x2 s
  | .vshi x0 x1 x2 x3 => Sys2Proof.Machine.execVshi x0 x1 x2 x3 s
  | .vmovi x0 x1 => Sys2Proof.Machine.execVmovi x0 x1 s
  | .vfadd x0 x1 x2 x3 x4 => Sys2Proof.Machine.execVfadd x0 x1 x2 x3 x4 s
  | .vfsub x0 x1 x2 x3 x4 => Sys2Proof.Machine.execVfsub x0 x1 x2 x3 x4 s
  | .vfmul x0 x1 x2 x3 x4 => Sys2Proof.Machine.execVfmul x0 x1 x2 x3 x4 s
  | .vfmin x0 x1 x2 x3 x4 => Sys2Proof.Machine.execVfmin x0 x1 x2 x3 x4 s
  | .vfma x0 x1 x2 x3 x4 => Sys2Proof.Machine.execVfma x0 x1 x2 x3 x4 s
  | .vfnma x0 x1 x2 x3 x4 => Sys2Proof.Machine.execVfnma x0 x1 x2 x3 x4 s
  | .vfmax x0 x1 x2 x3 x4 => Sys2Proof.Machine.execVfmax x0 x1 x2 x3 x4 s
  | .vfcpsgn x0 x1 x2 x3 x4 => Sys2Proof.Machine.execVfcpsgn x0 x1 x2 x3 x4 s
  | .vfceq x0 x1 x2 x3 x4 => Sys2Proof.Machine.execVfceq x0 x1 x2 x3 x4 s
  | .vfclt x0 x1 x2 x3 x4 => Sys2Proof.Machine.execVfclt x0 x1 x2 x3 x4 s
  | .vfcle x0 x1 x2 x3 x4 => Sys2Proof.Machine.execVfcle x0 x1 x2 x3 x4 s
  | .vfcun x0 x1 x2 x3 x4 => Sys2Proof.Machine.execVfcun x0 x1 x2 x3 x4 s
  | .vdadd x0 x1 x2 x3 x4 => Sys2Proof.Machine.execVdadd x0 x1 x2 x3 x4 s
  | .vdsub x0 x1 x2 x3 x4 => Sys2Proof.Machine.execVdsub x0 x1 x2 x3 x4 s
  | .vdmul x0 x1 x2 x3 x4 => Sys2Proof.Machine.execVdmul x0 x1 x2 x3 x4 s
  | .vdfma x0 x1 x2 x3 x4 => Sys2Proof.Machine.execVdfma x0 x1 x2 x3 x4 s
  | .vdmin x0 x1 x2 x3 x4 => Sys2Proof.Machine.execVdmin x0 x1 x2 x3 x4 s
  | .vdmax x0 x1 x2 x3 x4 => Sys2Proof.Machine.execVdmax x0 x1 x2 x3 x4 s
  | .vdceq x0 x1 x2 x3 x4 => Sys2Proof.Machine.execVdceq x0 x1 x2 x3 x4 s
  | .vdclt x0 x1 x2 x3 x4 => Sys2Proof.Machine.execVdclt x0 x1 x2 x3 x4 s
  | .vhadd x0 x1 x2 x3 x4 => Sys2Proof.Machine.execVhadd x0 x1 x2 x3 x4 s
  | .vhmul x0 x1 x2 x3 x4 => Sys2Proof.Machine.execVhmul x0 x1 x2 x3 x4 s
  | .vhfma x0 x1 x2 x3 x4 => Sys2Proof.Machine.execVhfma x0 x1 x2 x3 x4 s
  | .vhmax x0 x1 x2 x3 x4 => Sys2Proof.Machine.execVhmax x0 x1 x2 x3 x4 s
  | .vbadd x0 x1 x2 x3 x4 => Sys2Proof.Machine.execVbadd x0 x1 x2 x3 x4 s
  | .vbmul x0 x1 x2 x3 x4 => Sys2Proof.Machine.execVbmul x0 x1 x2 x3 x4 s
  | .vbfma x0 x1 x2 x3 x4 => Sys2Proof.Machine.execVbfma x0 x1 x2 x3 x4 s
  | .vbmax x0 x1 x2 x3 x4 => Sys2Proof.Machine.execVbmax x0 x1 x2 x3 x4 s
  | .vrcp x0 x1 x2 => Sys2Proof.Machine.execVrcp x0 x1 x2 s
  | .vrsq x0 x1 x2 => Sys2Proof.Machine.execVrsq x0 x1 x2 s
  | .vsqrt x0 x1 x2 => Sys2Proof.Machine.execVsqrt x0 x1 x2 s
  | .vexp2 x0 x1 x2 => Sys2Proof.Machine.execVexp2 x0 x1 x2 s
  | .vlog2 x0 x1 x2 => Sys2Proof.Machine.execVlog2 x0 x1 x2 s
  | .vsin x0 x1 x2 => Sys2Proof.Machine.execVsin x0 x1 x2 s
  | .vcos x0 x1 x2 => Sys2Proof.Machine.execVcos x0 x1 x2 s
  | .vfclass x0 x1 x2 => Sys2Proof.Machine.execVfclass x0 x1 x2 s
  | .vcvt x0 x1 x2 x3 => Sys2Proof.Machine.execVcvt x0 x1 x2 x3 s
  | .vcvts x0 x1 x2 x3 => Sys2Proof.Machine.execVcvts x0 x1 x2 x3 s
  | .vretag x0 x1 x2 x3 => Sys2Proof.Machine.execVretag x0 x1 x2 x3 s
  | .vgettag x0 x1 x2 => Sys2Proof.Machine.execVgettag x0 x1 x2 s
  | .vqswap x0 x1 x2 x3 => Sys2Proof.Machine.execVqswap x0 x1 x2 x3 s
  | .vqbcast x0 x1 x2 x3 => Sys2Proof.Machine.execVqbcast x0 x1 x2 x3 s
  | .vddx x0 x1 x2 x3 => Sys2Proof.Machine.execVddx x0 x1 x2 x3 s
  | .vddy x0 x1 x2 x3 => Sys2Proof.Machine.execVddy x0 x1 x2 x3 s
  | .vshfl x0 x1 x2 x3 x4 => Sys2Proof.Machine.execVshfl x0 x1 x2 x3 x4 s
  | .vballot x0 x1 x2 => Sys2Proof.Machine.execVballot x0 x1 x2 s
  | .vreduce x0 x1 x2 x3 => Sys2Proof.Machine.execVreduce x0 x1 x2 x3 s
  | .vscan x0 x1 x2 x3 x4 => Sys2Proof.Machine.execVscan x0 x1 x2 x3 x4 s
  | .vmovs x0 x1 x2 => Sys2Proof.Machine.execVmovs x0 x1 x2 s
  | .vlaneid x0 => Sys2Proof.Machine.execVlaneid x0 s
  | .vreadlane x0 x1 x2 x3 x4 => Sys2Proof.Machine.execVreadlane x0 x1 x2 x3 x4 s
  | .vmark x0 x1 x2 => Sys2Proof.Machine.execVmark x0 x1 x2 s
  | .vld x0 x1 x2 x3 x4 => Sys2Proof.Machine.execVld x0 x1 x2 x3 x4 s
  | .vst x0 x1 x2 x3 x4 => Sys2Proof.Machine.execVst x0 x1 x2 x3 x4 s
  | .vldp x0 x1 x2 x3 x4 => Sys2Proof.Machine.execVldp x0 x1 x2 x3 x4 s
  | .vstp x0 x1 x2 x3 x4 => Sys2Proof.Machine.execVstp x0 x1 x2 x3 x4 s
  | .vatom x0 x1 x2 x3 x4 => Sys2Proof.Machine.execVatom x0 x1 x2 x3 x4 s
  | .vred x0 x1 x2 x3 x4 => Sys2Proof.Machine.execVred x0 x1 x2 x3 x4 s
  | .vatomx x0 x1 x2 x3 x4 => Sys2Proof.Machine.execVatomx x0 x1 x2 x3 x4 s
  | .vpref x0 x1 x2 x3 => Sys2Proof.Machine.execVpref x0 x1 x2 x3 s
  | .vtrace x0 x1 x2 x3 x4 x5 => Sys2Proof.Machine.execVtrace x0 x1 x2 x3 x4 x5 s
  | .vsample x0 x1 x2 x3 x4 x5 => Sys2Proof.Machine.execVsample x0 x1 x2 x3 x4 x5 s
  | .vsvc x0 x1 x2 x3 x4 => Sys2Proof.Machine.execVsvc x0 x1 x2 x3 x4 s
  | .vsvcn x0 x1 x2 x3 => Sys2Proof.Machine.execVsvcn x0 x1 x2 x3 s
  | .vfwd x0 x1 x2 x3 => Sys2Proof.Machine.execVfwd x0 x1 x2 x3 s
  | .vfwdt x0 x1 x2 x3 x4 => Sys2Proof.Machine.execVfwdt x0 x1 x2 x3 x4 s
  | .venter x0 x1 x2 x3 => Sys2Proof.Machine.execVenter x0 x1 x2 x3 s
  | .ventert x0 x1 x2 x3 x4 => Sys2Proof.Machine.execVentert x0 x1 x2 x3 x4 s
  | .vleave x0 x1 x2 => Sys2Proof.Machine.execVleave x0 x1 x2 s
  | .vsecq x0 x1 x2 => Sys2Proof.Machine.execVsecq x0 x1 x2 s
  | .vbnz x0 x1 x2 => Sys2Proof.Machine.execVbnz x0 x1 x2 s
  | .vbz x0 x1 x2 => Sys2Proof.Machine.execVbz x0 x1 x2 s
  | .vjr x0 x1 => Sys2Proof.Machine.execVjr x0 x1 s
  | .vjalr x0 x1 x2 => Sys2Proof.Machine.execVjalr x0 x1 x2 s
  | .vexit => Sys2Proof.Machine.execVexit s
  | .vtrap x0 x1 => Sys2Proof.Machine.execVtrap x0 x1 s
  | .sadd x0 x1 x2 => Sys2Proof.Machine.execSadd x0 x1 x2 s
  | .ssub x0 x1 x2 => Sys2Proof.Machine.execSsub x0 x1 x2 s
  | .smul x0 x1 x2 => Sys2Proof.Machine.execSmul x0 x1 x2 s
  | .smulh x0 x1 x2 => Sys2Proof.Machine.execSmulh x0 x1 x2 s
  | .sand x0 x1 x2 => Sys2Proof.Machine.execSand x0 x1 x2 s
  | .sor x0 x1 x2 => Sys2Proof.Machine.execSor x0 x1 x2 s
  | .sxor x0 x1 x2 => Sys2Proof.Machine.execSxor x0 x1 x2 s
  | .sandn x0 x1 x2 => Sys2Proof.Machine.execSandn x0 x1 x2 s
  | .sshl x0 x1 x2 => Sys2Proof.Machine.execSshl x0 x1 x2 s
  | .sshr x0 x1 x2 => Sys2Proof.Machine.execSshr x0 x1 x2 s
  | .ssar x0 x1 x2 => Sys2Proof.Machine.execSsar x0 x1 x2 s
  | .srot x0 x1 x2 => Sys2Proof.Machine.execSrot x0 x1 x2 s
  | .smin x0 x1 x2 => Sys2Proof.Machine.execSmin x0 x1 x2 s
  | .smax x0 x1 x2 => Sys2Proof.Machine.execSmax x0 x1 x2 s
  | .sminu x0 x1 x2 => Sys2Proof.Machine.execSminu x0 x1 x2 s
  | .smaxu x0 x1 x2 => Sys2Proof.Machine.execSmaxu x0 x1 x2 s
  | .sceq x0 x1 x2 => Sys2Proof.Machine.execSceq x0 x1 x2 s
  | .scne x0 x1 x2 => Sys2Proof.Machine.execScne x0 x1 x2 s
  | .sclt x0 x1 x2 => Sys2Proof.Machine.execSclt x0 x1 x2 s
  | .scltu x0 x1 x2 => Sys2Proof.Machine.execScltu x0 x1 x2 s
  | .ssel x0 x1 x2 => Sys2Proof.Machine.execSsel x0 x1 x2 s
  | .sclz x0 x1 => Sys2Proof.Machine.execSclz x0 x1 s
  | .spopc x0 x1 => Sys2Proof.Machine.execSpopc x0 x1 s
  | .sdivu x0 x1 x2 => Sys2Proof.Machine.execSdivu x0 x1 x2 s
  | .saddi x0 x1 x2 => Sys2Proof.Machine.execSaddi x0 x1 x2 s
  | .sandi x0 x1 x2 => Sys2Proof.Machine.execSandi x0 x1 x2 s
  | .sori x0 x1 x2 => Sys2Proof.Machine.execSori x0 x1 x2 s
  | .sshi x0 x1 x2 x3 => Sys2Proof.Machine.execSshi x0 x1 x2 x3 s
  | .smovi x0 x1 => Sys2Proof.Machine.execSmovi x0 x1 s
  | .sfadd x0 x1 x2 => Sys2Proof.Machine.execSfadd x0 x1 x2 s
  | .sfmul x0 x1 x2 => Sys2Proof.Machine.execSfmul x0 x1 x2 s
  | .sffma x0 x1 x2 => Sys2Proof.Machine.execSffma x0 x1 x2 s
  | .sfclt x0 x1 x2 => Sys2Proof.Machine.execSfclt x0 x1 x2 s
  | .sld x0 x1 x2 x3 => Sys2Proof.Machine.execSld x0 x1 x2 x3 s
  | .sst x0 x1 x2 x3 => Sys2Proof.Machine.execSst x0 x1 x2 x3 s
  | .satom x0 x1 x2 x3 => Sys2Proof.Machine.execSatom x0 x1 x2 x3 s
  | .sbz x0 x1 x2 => Sys2Proof.Machine.execSbz x0 x1 x2 s
  | .sbnz x0 x1 x2 => Sys2Proof.Machine.execSbnz x0 x1 x2 s
  | .scall x0 x1 => Sys2Proof.Machine.execScall x0 x1 s
  | .sjr x0 x1 => Sys2Proof.Machine.execSjr x0 x1 s
  | .sexit => Sys2Proof.Machine.execSexit s
  | .syield => Sys2Proof.Machine.execSyield s
  | .sconv => Sys2Proof.Machine.execSconv s
  | .sfrag x0 => Sys2Proof.Machine.execSfrag x0 s
  | .slive x0 => Sys2Proof.Machine.execSlive x0 s
  | .binit x0 x1 => Sys2Proof.Machine.execBinit x0 x1 s
  | .barrive x0 x1 x2 => Sys2Proof.Machine.execBarrive x0 x1 x2 s
  | .barrivec x0 x1 x2 => Sys2Proof.Machine.execBarrivec x0 x1 x2 s
  | .bexpect x0 x1 => Sys2Proof.Machine.execBexpect x0 x1 s
  | .bwait x0 x1 => Sys2Proof.Machine.execBwait x0 x1 s
  | .btest x0 x1 x2 => Sys2Proof.Machine.execBtest x0 x1 x2 s
  | .bwatch x0 x1 => Sys2Proof.Machine.execBwatch x0 x1 s
  | .gridbar x0 => Sys2Proof.Machine.execGridbar x0 s
  | .fencesc x0 => Sys2Proof.Machine.execFencesc x0 s
  | .acq x0 x1 => Sys2Proof.Machine.execAcq x0 x1 s
  | .rel x0 x1 => Sys2Proof.Machine.execRel x0 x1 s
  | .tokpass x0 x1 => Sys2Proof.Machine.execTokpass x0 x1 s
  | .tokreq x0 x1 => Sys2Proof.Machine.execTokreq x0 x1 s
  | .surr => Sys2Proof.Machine.execSurr s
  | .inval => Sys2Proof.Machine.execInval s
  | .copy x0 x1 x2 => Sys2Proof.Machine.execCopy x0 x1 x2 s
  | .copys x0 x1 x2 => Sys2Proof.Machine.execCopys x0 x1 x2 s
  | .fill x0 x1 x2 => Sys2Proof.Machine.execFill x0 x1 x2 s
  | .copym x0 x1 x2 => Sys2Proof.Machine.execCopym x0 x1 x2 s
  | .nput x0 x1 x2 => Sys2Proof.Machine.execNput x0 x1 x2 s
  | .nget x0 x1 x2 => Sys2Proof.Machine.execNget x0 x1 x2 s
  | .npost x0 x1 x2 => Sys2Proof.Machine.execNpost x0 x1 x2 s
  | .press x0 x1 x2 => Sys2Proof.Machine.execPress x0 x1 x2 s
  | .mtcfg x0 x1 => Sys2Proof.Machine.execMtcfg x0 x1 s
  | .mzero x0 => Sys2Proof.Machine.execMzero x0 s
  | .mldw x0 x1 x2 => Sys2Proof.Machine.execMldw x0 x1 x2 s
  | .mswap => Sys2Proof.Machine.execMswap s
  | .mstr x0 x1 x2 => Sys2Proof.Machine.execMstr x0 x1 x2 s
  | .mgang x0 x1 x2 => Sys2Proof.Machine.execMgang x0 x1 x2 s
  | .mvalid x0 x1 x2 => Sys2Proof.Machine.execMvalid x0 x1 x2 s
  | .mjoin x0 x1 => Sys2Proof.Machine.execMjoin x0 x1 s
  | .mtld x0 x1 x2 => Sys2Proof.Machine.execMtld x0 x1 x2 s
  | .mtst x0 x1 x2 => Sys2Proof.Machine.execMtst x0 x1 x2 s
  | .mtrow x0 x1 x2 => Sys2Proof.Machine.execMtrow x0 x1 x2 s
  | .mtcol x0 x1 x2 => Sys2Proof.Machine.execMtcol x0 x1 x2 s
  | .mtwrow x0 x1 x2 => Sys2Proof.Machine.execMtwrow x0 x1 x2 s
  | .mtwcol x0 x1 x2 => Sys2Proof.Machine.execMtwcol x0 x1 x2 s
  | .feed x0 x1 => Sys2Proof.Machine.execFeed x0 x1 s
  | .qbind x0 x1 => Sys2Proof.Machine.execQbind x0 x1 s
  | .qunbind x0 => Sys2Proof.Machine.execQunbind x0 s
  | .shdef x0 x1 x2 => Sys2Proof.Machine.execShdef x0 x1 x2 s
  | .shdrop x0 x1 => Sys2Proof.Machine.execShdrop x0 x1 s
  | .stream x0 x1 x2 => Sys2Proof.Machine.execStream x0 x1 x2 s
  | .launch x0 x1 => Sys2Proof.Machine.execLaunch x0 x1 s
  | .enq x0 x1 x2 => Sys2Proof.Machine.execEnq x0 x1 x2 s
  | .rangeset x0 x1 x2 => Sys2Proof.Machine.execRangeset x0 x1 x2 s
  | .grab x0 x1 x2 => Sys2Proof.Machine.execGrab x0 x1 x2 s
  | .splat x0 x1 x2 => Sys2Proof.Machine.execSplat x0 x1 x2 s
  | .sget x0 x1 => Sys2Proof.Machine.execSget x0 x1 s
  | .sset x0 x1 => Sys2Proof.Machine.execSset x0 x1 s
  | .trap x0 => Sys2Proof.Machine.execTrap x0 s
  | .rett => Sys2Proof.Machine.execRett s
  | .ebreak => Sys2Proof.Machine.execEbreak s
  | .snop => Sys2Proof.Machine.execSnop s
  | .imm x0 => Sys2Proof.Machine.execImm x0 s
  | .rep x0 x1 x2 x3 x4 => Sys2Proof.Machine.execRep x0 x1 x2 x3 x4 s
  | .ord x0 => Sys2Proof.Machine.execOrd x0 s
  | .hostSubmission => Sys2Proof.Machine.execHostSubmission s
  | .hostPlainLoad => Sys2Proof.Machine.execHostPlainLoad s
  | .hostPlainStore => Sys2Proof.Machine.execHostPlainStore s
  | .syncWindowLoad => Sys2Proof.Machine.execSyncWindowLoad s
  | .syncWindowStore => Sys2Proof.Machine.execSyncWindowStore s
  | .hostSnoop => Sys2Proof.Machine.execHostSnoop s
  | .ctxrootWrite => Sys2Proof.Machine.execCtxrootWrite s
  | .invStage1Page => Sys2Proof.Machine.execInvStage1Page s
  | .invContext => Sys2Proof.Machine.execInvContext s
  | .tlbinvStage1Page => Sys2Proof.Machine.execTlbinvStage1Page s
  | .tlbinvContext => Sys2Proof.Machine.execTlbinvContext s
  | .tlbinvStage2Page => Sys2Proof.Machine.execTlbinvStage2Page s
  | .tlbinvPartition => Sys2Proof.Machine.execTlbinvPartition s
  | .invalidationComplete => Sys2Proof.Machine.execInvalidationComplete s
  | .ctxctlResume => Sys2Proof.Machine.execCtxctlResume s
  | .ctxctlWithdraw => Sys2Proof.Machine.execCtxctlWithdraw s
  | .ctxctlStop => Sys2Proof.Machine.execCtxctlStop s
  | .modeWrite => Sys2Proof.Machine.execModeWrite s
  | .borrowcfgWrite => Sys2Proof.Machine.execBorrowcfgWrite s
  | .registerWrite => Sys2Proof.Machine.execRegisterWrite s
  | .packageIdentityWrite => Sys2Proof.Machine.execPackageIdentityWrite s
  | .partitionCreate => Sys2Proof.Machine.execPartitionCreate s
  | .partitionDestroy => Sys2Proof.Machine.execPartitionDestroy s
  | .portAssignment => Sys2Proof.Machine.execPortAssignment s
  | .channelEnable => Sys2Proof.Machine.execChannelEnable s
  | .multicastEntryWrite => Sys2Proof.Machine.execMulticastEntryWrite s
  | .importGrantWrite => Sys2Proof.Machine.execImportGrantWrite s
  | .attestationRequest => Sys2Proof.Machine.execAttestationRequest s
  | .recoveryFirmwareWrite => Sys2Proof.Machine.execRecoveryFirmwareWrite s
  | .headEnable => Sys2Proof.Machine.execHeadEnable s
  | .frameStart => Sys2Proof.Machine.execFrameStart s
  | .encoderFrameComplete => Sys2Proof.Machine.execEncoderFrameComplete s
  | .powerOn => Sys2Proof.Machine.execPowerOn s
  | .hbmTrainingComplete => Sys2Proof.Machine.execHbmTrainingComplete s
  | .heartbeatTick => Sys2Proof.Machine.execHeartbeatTick s
  | .assayAudit => Sys2Proof.Machine.execAssayAudit s
  | .fragmentMerge => Sys2Proof.Machine.execFragmentMerge s
  | .issueSelection => Sys2Proof.Machine.execIssueSelection s
  | .sectionDeadlockSearch => Sys2Proof.Machine.execSectionDeadlockSearch s
  | .sectionWatchdog => Sys2Proof.Machine.execSectionWatchdog s
  | .contextWatchdog => Sys2Proof.Machine.execContextWatchdog s
  | .serviceWatchdog => Sys2Proof.Machine.execServiceWatchdog s
  | .quantumExpiry => Sys2Proof.Machine.execQuantumExpiry s
  | .nodeBatchTimeout => Sys2Proof.Machine.execNodeBatchTimeout s
  | .migrationCounterHalving => Sys2Proof.Machine.execMigrationCounterHalving s
  | .pageMigration => Sys2Proof.Machine.execPageMigration s
  | .powerHold => Sys2Proof.Machine.execPowerHold s
  | .serviceTurnEnd => Sys2Proof.Machine.execServiceTurnEnd s
  | .serviceBatch => Sys2Proof.Machine.execServiceBatch s
  | .pageFaultResolution => Sys2Proof.Machine.execPageFaultResolution s
  | .serviceReplyLands => Sys2Proof.Machine.execServiceReplyLands s
  | .launchEligible => Sys2Proof.Machine.execLaunchEligible s
  | .clusterPlacement => Sys2Proof.Machine.execClusterPlacement s
  | .clusterEviction => Sys2Proof.Machine.execClusterEviction s
  | .clusterRestore => Sys2Proof.Machine.execClusterRestore s
  | .nodeGroupStart => Sys2Proof.Machine.execNodeGroupStart s
  | .groupEnd => Sys2Proof.Machine.execGroupEnd s
  | .gridCompletionArrival => Sys2Proof.Machine.execGridCompletionArrival s
  | .graphEnd => Sys2Proof.Machine.execGraphEnd s
  | .loadResultLands => Sys2Proof.Machine.execLoadResultLands s
  | .launchStatusFill => Sys2Proof.Machine.execLaunchStatusFill s
  | .shapeStatusFill => Sys2Proof.Machine.execShapeStatusFill s
  | .feedStatusFill => Sys2Proof.Machine.execFeedStatusFill s
  | .grabServed => Sys2Proof.Machine.execGrabServed s
  | .registration => Sys2Proof.Machine.execRegistration s
  | .atomicAtHome => Sys2Proof.Machine.execAtomicAtHome s
  | .surrender => Sys2Proof.Machine.execSurrender s
  | .surrenderComplete => Sys2Proof.Machine.execSurrenderComplete s
  | .barrierNotify => Sys2Proof.Machine.execBarrierNotify s
  | .copyUnitHeld => Sys2Proof.Machine.execCopyUnitHeld s
  | .copyComplete => Sys2Proof.Machine.execCopyComplete s
  | .engineCommandIssueWaitEnd => Sys2Proof.Machine.execEngineCommandIssueWaitEnd s
  | .networkUnitAck => Sys2Proof.Machine.execNetworkUnitAck s
  | .networkCommandComplete => Sys2Proof.Machine.execNetworkCommandComplete s
  | .networkReceive => Sys2Proof.Machine.execNetworkReceive s
  | .remoteAccessArrival => Sys2Proof.Machine.execRemoteAccessArrival s
  | .remoteErrorResponse => Sys2Proof.Machine.execRemoteErrorResponse s
  | .flitCrcFailure => Sys2Proof.Machine.execFlitCrcFailure s
  | .retransmitTimeout => Sys2Proof.Machine.execRetransmitTimeout s
  | .forwardRecordArrival => Sys2Proof.Machine.execForwardRecordArrival s
  | .permitReturn => Sys2Proof.Machine.execPermitReturn s
  | .arrayCommandStart => Sys2Proof.Machine.execArrayCommandStart s
  | .arrayCommandComplete => Sys2Proof.Machine.execArrayCommandComplete s
  | .gangCompletion => Sys2Proof.Machine.execGangCompletion s
  | .streamBlockDelivered => Sys2Proof.Machine.execStreamBlockDelivered s
  | .feederPush => Sys2Proof.Machine.execFeederPush s
  | .treeletVisit => Sys2Proof.Machine.execTreeletVisit s
  | .rayResultLands => Sys2Proof.Machine.execRayResultLands s
  | .sampleResultLands => Sys2Proof.Machine.execSampleResultLands s
  | .splatCommandRun => Sys2Proof.Machine.execSplatCommandRun s
  | .sectionRequestArrival => Sys2Proof.Machine.execSectionRequestArrival s
  | .sectionGrant => Sys2Proof.Machine.execSectionGrant s
  | .sectionRefuse => Sys2Proof.Machine.execSectionRefuse s
  | .ventertAnswer => Sys2Proof.Machine.execVentertAnswer s
  | .vsecqAnswer => Sys2Proof.Machine.execVsecqAnswer s
  | .pressCollectiveStart => Sys2Proof.Machine.execPressCollectiveStart s
  | .pressTileArrival => Sys2Proof.Machine.execPressTileArrival s
  | .pressTileLoss => Sys2Proof.Machine.execPressTileLoss s
  | .pressComplete => Sys2Proof.Machine.execPressComplete s
  | .halt => Sys2Proof.Machine.execHalt s
  | .agentStop => Sys2Proof.Machine.execAgentStop s
  | .stopSaveComplete => Sys2Proof.Machine.execStopSaveComplete s
  | .hbmReadFailure => Sys2Proof.Machine.execHbmReadFailure s
  | .secdedError => Sys2Proof.Machine.execSecdedError s
  | .detRecorderInput => Sys2Proof.Machine.execDetRecorderInput s
  | .powerOff => Sys2Proof.Machine.execPowerOff s
  | .linkRetrained => Sys2Proof.Machine.execLinkRetrained s
  | .virtualFunctionAssignment => Sys2Proof.Machine.execVirtualFunctionAssignment s
  | .tenantKeyImport => Sys2Proof.Machine.execTenantKeyImport s
  | .borrowInvalidation => Sys2Proof.Machine.execBorrowInvalidation s

end Sys2Proof.Machine
end

