-- ==== Sys2Proof/Machine/Step.lean ====
section
/-! DEFINITION. One step of the machine. While an issue unit is in progress, the step fetches, decodes and executes its
next word; otherwise the clock advances one core cycle and the next turn runs an event or starts a unit. -/

namespace Sys2Proof.Machine

open Host

/-- The unit in progress executes its next word (R23, R24, R34, R39). DESIGN CHOICE (log 1). -/
def stepWord (s : State) : Outcome State Fault Refusal :=
  s.withIss fun i =>
    match s.fetchWord i with
    | .stop s => .next s
    | .word s w =>
      let s := { s with cur := s.cur.map fun c => { c with word := BitVec.ofNat 32 w } }
      match decodeWord w with
      | .ok ins => exec ins s
      | .error _ => .next (s.rejectWord)

/-- One step. DESIGN CHOICE (log 1). -/
def step (s : State) : Outcome State Fault Refusal :=
  match s.cur with
  | some _ => stepWord s
  | none =>
    match s.turn with
    | .event e s => exec e.what s
    | .issue g w s => exec .issueSelection { s with ev := { a := g, b := w } }
    | .idle s => .next s

/-- The state with an instruction's bytes where `step` fetches its next word. -/
def State.withFetchWord (s : State) (nbits w : Nat) : State := s.placeWord nbits w

end Sys2Proof.Machine
end

