-- ==== Sys2Proof/Safety.lean ====
section
/-! DEFINITION. What counts as a safe state and a safe unit, in the terms the statements use: canonical memory, a unit that
passes its issue checks, and what a unit that runs leaves behind. -/

namespace Sys2Proof.Machine

open Host

/-! ## States -/

/-- Memory is in its canonical form. -/
def State.Canonical (s : State) : Prop := Memory.wf s.mem = true

/-- No word without a fragment has been met: a run is safe as long as no step ends in the model's own stop. -/
def State.StepSafe (s : State) (r : Outcome State Fault Refusal) : Prop := r ≠ .fault .noIssuer ∧ s.Canonical

/-! ## Units that pass their issue checks (R40) -/

/-- No register that a list of sources names is a feeder port of the wave (R205). -/
def noPorts (v : Wave) (srcs : List Src) : Prop := ∀ x ∈ srcs, x.isS = false → ∀ n ∈ regsOf x, v.port? n = none

/-- A source names registers below the wave's declared counts (R27). -/
def srcInRange (v : Wave) (x : Src) : Prop := ∀ n ∈ regsOf x, (if x.isS then sOk v n else vOk v n) = true

/-- A unit without REP passes the checks of R40: its prefixes are ones the word accepts, its registers are in range, and every
source and destination is full with a tag that its reader takes. `dsts` are V registers. -/
structure LaneUnit (s : State) (i : Iss) (p : Accepts) (srcs : List Src) (dsts : List Nat) : Prop where
  issuing : s.iss? = some i
  prefixes : p.ok i.c = true
  once : i.c.rep = none
  sources : ∀ x ∈ srcs, srcInRange i.wv x
  destinations : ∀ d ∈ dsts, vDst i.wv d = true ∧ d < i.wv.vregs.length
  ready : s.checkAll i i.wv srcs (dsts.map fun n => (false, n)) = .go
  unported : noPorts i.wv srcs

/-- The same for a uniform word: S registers, one destination. -/
structure UniformUnit (s : State) (i : Iss) (p : Accepts) (srcs : List Src) (d : Nat) : Prop where
  issuing : s.iss? = some i
  prefixes : p.ok i.c = true
  sources : ∀ x ∈ srcs, srcInRange i.wv x
  destination : sOk i.wv d = true ∧ d < i.wv.sregs.length
  ready : s.checkAll i i.wv srcs [(true, d)] = .go

/-- A word with other effects passes the checks of R40, and the convergence check of R65 where it has one. -/
structure WordUnit (s : State) (i : Iss) (p : Accepts) (conv : Bool) (srcs : List Src) (dsts : List (Bool × Nat)) : Prop where
  issuing : s.iss? = some i
  prefixes : p.ok i.c = true
  converged : conv = true → i.converged = true
  ready : s.checkAll i i.wv srcs dsts = .go

/-- A memory word without REP passes its issue checks, its register groups are in range, and no earlier access of the wave
holds it back (`wait`): neither an acquire (R245), nor for a synchronising word an earlier one (R247), nor for a release an
outstanding store (R243). -/
structure MemUnit (s : State) (i : Iss) (p : Accepts) (srcs : List Src) (dsts : List (Bool × Nat)) (wait : Option Wait) : Prop where
  issuing : s.iss? = some i
  prefixes : p.ok i.c = true
  once : i.c.rep = none
  ready : s.checkAll i i.wv srcs dsts = .go
  unported : noPorts i.wv srcs
  free : wait = none

/-- Every lane's access passes the checks of R269: alignment, stack limit, form, locks, tokens and IMMUTABLE objects, and its
address is translated. `ts` holds what each lane's address reaches. -/
structure Access (s : State) (i : Iss) (acc : Acc) (stack : Bool) (n : Nat) (las : List (Nat × DWord)) (t : State)
    (ts : List (Nat × DWord × Tgt)) : Prop where
  clear : s.memFault i acc stack n las = none
  located : s.locateAll i acc n las [] = .ok t ts

/-- R267: the address lane l of a VM word forms. -/
def vmAddress (i : Iss) (a : BitVec 7) (sr : BitVec 5) (k : BitVec 2) (l : Nat) : DWord :=
  (i.wv.sreg sr.toNat).val + ((i.wv.vreg a.toNat).lane l).signExtend 64 * BitVec.ofNat 64 (2 ^ k.toNat) +
    (match i.c.imm with | some m => m.signExtend 64 | none => 0)
/-- The addresses of the lanes of F. -/
def vmAddresses (i : Iss) (a : BitVec 7) (sr : BitVec 5) (k : BitVec 2) : List (Nat × DWord) :=
  (lanesOf i.fr.live).map fun l => (l, vmAddress i a sr k l)
/-- R268: the address of an SM word of n bytes. -/
def smAddress (i : Iss) (a : BitVec 7) (imm8 : BitVec 8) (n : Nat) : DWord :=
  (i.wv.sreg a.toNat).val + (match i.c.imm with | some m => m.signExtend 64 | none => BitVec.ofInt 64 (imm8.toInt * n))

/-! ## Operand values -/

/-- R29, R31: an immediate field, sign-extended, with the bits of an IMM prefix above it. -/
def widened (c : Cur) {w : Nat} (n : BitVec w) : DWord :=
  match c.imm with
  | none => n.signExtend 64
  | some m => (m ++ n).signExtend 64

/-- R29: the target of a branch or call. -/
def Iss.target (i : Iss) {w : Nat} (n : BitVec w) : DWord := i.c.pc + 4 * widened i.c n

/-- What lane l of V[n] holds for a reader: converted on read by its tag (R134). -/
def laneOperand (v : Wave) (rd : Reader) (n l : Nat) : Nat := (readLane rd (v.vreg n).tag ((v.vreg n).lane l).toNat).1

/-- What lane l of the pair V[n], V[n + 1] holds for a reader of FP64 pairs (R122). -/
def pairOperand (v : Wave) (n l : Nat) : Nat :=
  (readLane .pair (v.vreg n).tag (((v.vreg n).lane l).toNat + 2 ^ 32 * ((v.vreg (n + 1)).lane l).toNat)).1

/-- What S[n] holds for a reader. -/
def uniformOperand (v : Wave) (rd : Reader) (n : Nat) : Nat := (readLane rd (v.sreg n).tag (v.sreg n).val.toNat).1

/-- An S source. -/
def usrc (k : Nat) (n : BitVec 7) (rd : Reader) : Src := ⟨k, true, n.toNat, 1, rd, false⟩

/-- Flags that the conversions of a uniform word's sources raise (R134). -/
def uniformFlags (v : Wave) (srcs : List Src) : FpFlags :=
  srcs.foldl (fun a x => a ||| (readLane x.reader (v.sreg x.reg).tag (v.sreg x.reg).val.toNat).2) 0

/-- Flags that the conversions of a unit's sources raise in its lanes (R134, R149). -/
def readFlags (v : Wave) (who : LaneMask) (srcs : List Src) : FpFlags :=
  srcs.foldl (fun a x => a ||| orLanes who (readSrc v x).2) 0

/-- The flags that an operation raises in the lanes of a mask. -/
def opFlags (who : LaneMask) (f : Nat → FpFlags) : FpFlags := orLanes who ((List.range 32).map f)

/-! ## Fragments -/

/-- R59: the PC and the priority of a lane. -/
def Wave.placeOf (v : Wave) (l : Nat) : Option (DWord × BitVec 4) :=
  (v.frags.find? fun f => f.live.getLsbD l).map fun f => (f.pc, f.prio)

/-- R60: the fragments of a wave have ids of their own below 64, at least one lane each, and no lane in common. -/
def Wave.Apart (v : Wave) : Prop :=
  (v.frags.map Frag.id).Nodup ∧ (∀ f ∈ v.frags, f.id < 64 ∧ f.live ≠ 0) ∧ v.frags.Pairwise fun x y => x.live &&& y.live = 0

/-! ## What a unit leaves -/

/-- The fragment has gone on to the next word, with nothing of the unit left (R61); every other fragment is as it was. -/
def Wave.Advanced (v v' : Wave) (i : Iss) : Prop :=
  v'.frags = v.frags.map (fun x => if x.id == i.c.f then
    { x with pc := i.next, wait := none, repNext := none, fwdLane := none } else x) ∧ v'.units = v.units + 1

/-- A word that writes V registers leaves: each destination's lanes of F with the values given and every other lane as it was,
its tag by R130; every other register as it was; the flags given set beside those that were (R149); the fragment at the next
word; and nothing else in the machine changed. -/
structure LaneEffect (s t : State) (i : Iss) (ws : List (Nat × BitVec 4 × (Nat → Nat))) (fl : FpFlags) : Prop where
  wave : ∃ v : Wave → Wave, t.waves = s.waves.map (fun x => if x.g == i.c.g && x.w == i.c.w then v x else x) ∧
    (∀ x ∈ ws, ∀ l < 32, ((v i.wv).vreg x.1).lane l =
      if i.fr.live.getLsbD l then BitVec.ofNat 32 (x.2.2 l) else (i.wv.vreg x.1).lane l) ∧
    (∀ x ∈ ws, ((v i.wv).vreg x.1).tag = tagAfter i.wv.live i.fr.live (i.wv.vreg x.1).tag x.2.1) ∧
    (∀ n, n ∉ ws.map (·.1) → (v i.wv).vreg n = i.wv.vreg n) ∧
    (v i.wv).sregs = i.wv.sregs ∧ (v i.wv).regs = { i.wv.regs with fpflags := i.wv.regs.fpflags ||| fl } ∧
    i.wv.Advanced (v i.wv) i
  rest : t = { s with waves := t.waves, cur := none }

/-- A uniform word leaves: S[d] whole, tagged and full, and the flags set; a destination of S0 discards both (R27, R174). -/
def uniformEffect (s : State) (i : Iss) (d : Nat) (tag : BitVec 4) (x : Nat) (fl : FpFlags) : State :=
  if d = 0 then s.retire i
  else (s.updCur i fun w => { w with
    sregs := w.sregs.set d ⟨BitVec.ofNat 64 x, tag, true⟩
    regs := { w.regs with fpflags := w.regs.fpflags ||| fl } }).retire i

/-! ## Barriers, engines, arrays, records, displays -/

/-- A barrier word's accesses are free and its address reaches the barrier b, whose words are w; u is the state once the
address has been translated (R247, R286). -/
structure BarUnit (s : State) (i : Iss) (sync rel peer : Bool) (va : DWord) (u : State) (b : Bar) (w : BarWords) : Prop where
  free : s.accessWait i.c.g i.c.w sync rel = none
  reached : s.barAt i.grp.core i.grp.ctx i.grp peer va = .ok u b
  words : u.barRead b = some w
/-- The words of memory that a TOKEN object holds (R256). -/
def State.inObject (s : State) (ctx shape word : Nat) : Bool :=
  s.ranges.any fun r => r.kind == 2 && r.ctx == ctx && r.owner == shape &&
    r.phys.any fun q => decide (q.1 / 4 ≤ word) && decide (4 * word < q.1 + q.2)
/-- The events of a request: one for each lane of F. -/
def laneEvents (what : Instr) (id : Nat) (m : LaneMask) : List Event := (lanesOf m).map fun l => ⟨what, { a := id, b := l }⟩
/-- An engine word's checks pass: its operands, its BAR (R286, R299), and nothing makes it wait at issue: neither an earlier
access of the wave, nor its engine's queue, nor the range tables (R259, R303). -/
structure EngineUnit (s : State) (i : Iss) (srcs : List Src) (engine : Nat) (bar : DWord) (reads writes : List Ext) : Prop where
  word : WordUnit s i {} true srcs []
  barrier : bar = 0 ∨ i.grp.barForm bar = true
  free : s.engineWait i engine reads writes = none
/-- The sources of an engine word with n registers from S[c] on. -/
def engineSrcs (a b c : BitVec 7) (n : Nat) : List Src :=
  [usrc 0 a .bit, usrc 1 b .bit] ++ (List.range n).map fun k => ⟨2, true, c.toNat + k, 1, .bit, false⟩
/-- S[c + k]. -/
def Iss.operand (i : Iss) (c : BitVec 7) (k : Nat) : DWord := (i.wv.sreg (c.toNat + k)).val
/-- An array word's checks pass (R206): registers in range, operands readable, its tile one that the launch configures. -/
structure ArrayUnit (s : State) (i : Iss) (a b c : BitVec 7) (n : Nat) (t : Option (BitVec 4)) : Prop where
  word : WordUnit s i {} true ([usrc 0 a .bit, usrc 1 b .bit, usrc 2 c .bit].take n) []
  regs : sOk i.wv a.toNat = true ∧ sOk i.wv b.toNat = true ∧ sOk i.wv c.toNat = true
  tile : ∀ x, t = some x → x.toNat < i.tiles
/-- The state once an array command has taken its place in its core's queue and its word has retired. -/
def State.arrayFiled (s : State) (i : Iss) (c : Cmd) (srcs dsts : List Ext) : State :=
  (s.addCmd i c srcs dsts [⟨.arrayCommandStart, { a := i.grp.core }⟩]).retire i
/-- A word reads the n bytes of a record as a load does (R179): its checks pass, and u is the state once the address has been
translated. -/
structure RecordRead (s : State) (i : Iss) (va : DWord) (n : Nat) (u : State) (bs : List Byte) : Prop where
  clear : s.memFault i .load false n [(0, va)] = none
  plain : isGalord va = false
  reached : ∃ pa sh, s.translate i.grp.core i.grp.ctx va.toNat .load = (u, .ok pa sh) ∧ u.loadBytes i.grp.core pa n = some bs
/-- A status or a pair that fills later (R89): the fill and its event stand, and its S registers are empty. -/
def State.fillFiled (s : State) (i : Iss) (f : Fill) (what : Instr) (ds : List Nat) : State :=
  (({ s.fresh with fills := s.fills ++ [f] } : State).push what { a := s.seq }).updCur i fun v => ds.foldl (fun v n => v.emptyS n) v
/-- The launch's recorder takes no part: the launch is not DET (R431). -/
def State.plainLaunch (s : State) (id : Nat) : Prop := ∀ l, s.launch? id = some l → l.det = false
/-- The rows of a frame buffer from row height - n on, read as an engine reads them (R393): their bytes, and the state once
their addresses have been translated. -/
def State.FrameRead (p : Part) (r : List Byte) (base : Nat) : Nat → State → List Byte → State → Prop
  | 0, s, bs, t => bs = [] ∧ t = s
  | n + 1, s, bs, t => ∃ u pas row rest, s.ipaSpan p (base + headPitch r * (headHeight r - (n + 1))) .engineRead
      (headWidth r * headPixel r) = .ok u pas ∧ u.bytesAt pas = some row ∧ bs = row ++ rest ∧ FrameRead p r base n u rest t
/-- Bytes written into a head's ring from a place on, around its data area (R394). -/
def State.RingWritten (p : Part) (ring size : Nat) : List Byte → Nat → State → State → Prop
  | [], _, s, t => t = s
  | b :: bs, pos, s, t => ∃ u pas, s.ipaSpan p (ring + pos % size) .engineWrite 1 = .ok u pas ∧
      (∀ pa ∈ pas, u.touchesObject 3 pa 1 = false) ∧ RingWritten p ring size bs (pos + 1) (u.writeAt pas [b]) t

end Sys2Proof.Machine
end

