-- ==== Sys2Proof/Families.lean ====
section
/-! DEFINITION. The families of instructions that one statement speaks about together: each instruction with how it reads its
operands, the tag of its result (R130), and its result as the table of R150 to R160 and R173 gives it. -/

namespace Sys2Proof.Machine

/-- A word with three register fields and two E bits. -/
abbrev Word3 := BitVec 7 → BitVec 7 → BitVec 7 → Bool → Bool → Instr
/-- A word with fields d and a and one E bit. -/
abbrev Word2 := BitVec 7 → BitVec 7 → Bool → Instr

/-- R148: a comparison's result. -/
def allOnes32 (b : Bool) : Word := if b then 0xFFFFFFFF else 0

/-- R150, R151: integer and logic words of two sources. -/
def integerWords : List (Word3 × Reader × BitVec 4 × (Word → Word → Word)) :=
  [(.vadd, .int, tI32, fun x y => x + y),
   (.vsub, .int, tI32, fun x y => x - y),
   (.vmul, .int, tI32, fun x y => x * y),
   (.vmulh, .int, tI32, fun x y => BitVec.ofInt 32 (x.toInt * y.toInt / 2 ^ 32)),
   (.vand, .bit, tRAW, fun x y => x &&& y),
   (.vor, .bit, tRAW, fun x y => x ||| y),
   (.vxor, .bit, tRAW, fun x y => x ^^^ y),
   (.vandn, .bit, tRAW, fun x y => x &&& ~~~y),
   (.vshl, .bit, tRAW, fun x y => x <<< (y.toNat % 32)),
   (.vshr, .bit, tRAW, fun x y => x >>> (y.toNat % 32)),
   (.vsar, .bit, tRAW, fun x y => x.sshiftRight (y.toNat % 32)),
   (.vrot, .bit, tRAW, fun x y => x.rotateLeft (y.toNat % 32)),
   (.vmin, .int, tI32, fun x y => if y.slt x then y else x),
   (.vmax, .int, tI32, fun x y => if x.slt y then y else x),
   (.vminu, .int, tI32, fun x y => if y < x then y else x),
   (.vmaxu, .int, tI32, fun x y => if x < y then y else x),
   (.vceq, .int, tI32, fun x y => allOnes32 (x = y)),
   (.vcne, .int, tI32, fun x y => allOnes32 (x ≠ y)),
   (.vclt, .int, tI32, fun x y => allOnes32 (x.slt y)),
   (.vcltu, .int, tI32, fun x y => allOnes32 (x < y)),
   (.vdiv, .int, tI32, fun x y =>
     if y = 0 then 0xFFFFFFFF else if x = 0x80000000 ∧ y = 0xFFFFFFFF then 0x80000000 else x.sdiv y),
   (.vdivu, .int, tI32, fun x y => if y = 0 then 0xFFFFFFFF else x / y),
   (.vrem, .int, tI32, fun x y => if y = 0 then x else if x = 0x80000000 ∧ y = 0xFFFFFFFF then 0 else x.srem y)]

/-- Two elements of 16 bits in one register (R157). -/
def perHalf (f : Rnd → Nat → Nat → Nat × FpFlags) (m : Rnd) (x y : Nat) : Nat × FpFlags :=
  let lo := f m (x % 65536) (y % 65536)
  let hi := f m (x / 65536) (y / 65536)
  (lo.1 + 65536 * hi.1, lo.2 ||| hi.2)
def perHalf3 (f : Rnd → Nat → Nat → Nat → Nat × FpFlags) (m : Rnd) (x y z : Nat) : Nat × FpFlags :=
  let lo := f m (x % 65536) (y % 65536) (z % 65536)
  let hi := f m (x / 65536) (y / 65536) (z / 65536)
  (lo.1 + 65536 * hi.1, lo.2 ||| hi.2)
/-- A comparison of floating values (R148, R155). -/
def compared (f : Nat → Nat → Bool × FpFlags) (_ : Rnd) (x y : Nat) : Nat × FpFlags :=
  ((allOnes32 (f x y).1).toNat, (f x y).2)

/-- R152 to R157: FP32 and packed words of two sources. -/
def floatWords : List (Word3 × Reader × BitVec 4 × (Rnd → Nat → Nat → Nat × FpFlags)) :=
  [(.vfadd, .fp32, tFP32, Fmt.fp32.add),
   (.vfsub, .fp32, tFP32, Fmt.fp32.sub),
   (.vfmul, .fp32, tFP32, Fmt.fp32.mul),
   (.vfmin, .fp32, tFP32, fun _ => Fmt.fp32.minMax false),
   (.vfmax, .fp32, tFP32, fun _ => Fmt.fp32.minMax true),
   (.vfcpsgn, .fp32, tFP32, fun _ x y => (Fmt.fp32.copySign x y, 0)),
   (.vfceq, .fp32, tI32, compared Fmt.fp32.ceq),
   (.vfclt, .fp32, tI32, compared Fmt.fp32.clt),
   (.vfcle, .fp32, tI32, compared Fmt.fp32.cle),
   (.vfcun, .fp32, tI32, compared Fmt.fp32.cun),
   (.vhadd, .fp16x2, tFP16, perHalf Fmt.fp16.add),
   (.vhmul, .fp16x2, tFP16, perHalf Fmt.fp16.mul),
   (.vhmax, .fp16x2, tFP16, perHalf fun _ => Fmt.fp16.minMax true),
   (.vbadd, .bf16x2, tBF16, perHalf Fmt.bf16.add),
   (.vbmul, .bf16x2, tBF16, perHalf Fmt.bf16.mul),
   (.vbmax, .bf16x2, tBF16, perHalf fun _ => Fmt.bf16.minMax true)]

/-- R147, R150, R152, R157: words whose third source is the old destination. -/
def fusedWords : List (Word3 × Reader × BitVec 4 × (Rnd → Nat → Nat → Nat → Nat × FpFlags)) :=
  [(.vmad, .int, tI32, fun _ x y z => ((BitVec.ofNat 32 x * BitVec.ofNat 32 y + BitVec.ofNat 32 z : Word).toNat, 0)),
   (.vfma, .fp32, tFP32, Fmt.fp32.fma),
   (.vfnma, .fp32, tFP32, Fmt.fp32.fnma),
   (.vhfma, .fp16x2, tFP16, perHalf3 Fmt.fp16.fma),
   (.vbfma, .bf16x2, tBF16, perHalf3 Fmt.bf16.fma)]

/-- R150, R158, R160: words of one source. -/
def unaryWords : List (Word2 × Reader × BitVec 4 × (Rnd → Nat → Nat × FpFlags)) :=
  [(.vabs, .int, tI32, fun _ x => ((if (BitVec.ofNat 32 x).msb then - BitVec.ofNat 32 x else BitVec.ofNat 32 x : Word).toNat, 0)),
   (.vclz, .bit, tI32, fun _ x => (if x = 0 then 32 else 31 - Nat.log2 x, 0)),
   (.vpopc, .bit, tI32, fun _ x => (((List.range 32).filter fun k => x / 2 ^ k % 2 = 1).length, 0)),
   (.vrcp, .fp32, tFP32, fun _ => vrcp32),
   (.vrsq, .fp32, tFP32, fun _ => vrsq32),
   (.vsqrt, .fp32, tFP32, Fmt.fp32.sqrt),
   (.vexp2, .fp32, tFP32, fun _ => vexp232),
   (.vlog2, .fp32, tFP32, fun _ => vlog232),
   (.vsin, .fp32, tFP32, fun _ => vsincos32 false),
   (.vcos, .fp32, tFP32, fun _ => vsincos32 true),
   (.vfclass, .fp32, tI32, fun _ x => (2 ^ Fmt.fp32.classBit x, 0))]

/-- R150, R29, R31: words with an immediate of 11 bits. -/
def immediateWords : List ((BitVec 7 → BitVec 7 → BitVec 11 → Instr) × Reader × BitVec 4 × (Word → Word → Word)) :=
  [(.vaddi, .int, tI32, fun x y => x + y),
   (.vandi, .bit, tRAW, fun x y => x &&& y),
   (.vori, .bit, tRAW, fun x y => x ||| y),
   (.vxori, .bit, tRAW, fun x y => x ^^^ y)]

/-- R156: words on FP64 pairs. -/
def doubleWords : List (Word3 × (Rnd → Nat → Nat → Nat × FpFlags)) :=
  [(.vdadd, Fmt.fp64.add), (.vdsub, Fmt.fp64.sub), (.vdmul, Fmt.fp64.mul), (.vdmin, fun _ => Fmt.fp64.minMax false),
   (.vdmax, fun _ => Fmt.fp64.minMax true)]
/-- R155, R156: comparisons of FP64 pairs. -/
def doubleCompares : List (Word3 × (Nat → Nat → Bool × FpFlags)) := [(.vdceq, Fmt.fp64.ceq), (.vdclt, Fmt.fp64.clt)]

/-- A uniform word with three register fields. -/
abbrev Uni3 := BitVec 7 → BitVec 7 → BitVec 7 → Instr
/-- R148 at 64 bits. -/
def allOnes64 (b : Bool) : DWord := if b then BitVec.allOnes 64 else 0

/-- R173: uniform integer and logic words of two sources. -/
def uniformWords : List (Uni3 × Reader × BitVec 4 × (DWord → DWord → DWord)) :=
  [(.sadd, .int64, tI64, fun x y => x + y),
   (.ssub, .int64, tI64, fun x y => x - y),
   (.smul, .int64, tI64, fun x y => x * y),
   (.smulh, .int64, tI64, fun x y => BitVec.ofInt 64 (x.toInt * y.toInt / 2 ^ 64)),
   (.sand, .bit, tRAW, fun x y => x &&& y),
   (.sor, .bit, tRAW, fun x y => x ||| y),
   (.sxor, .bit, tRAW, fun x y => x ^^^ y),
   (.sandn, .bit, tRAW, fun x y => x &&& ~~~y),
   (.sshl, .bit, tRAW, fun x y => x <<< (y.toNat % 64)),
   (.sshr, .bit, tRAW, fun x y => x >>> (y.toNat % 64)),
   (.ssar, .bit, tRAW, fun x y => x.sshiftRight (y.toNat % 64)),
   (.srot, .bit, tRAW, fun x y => x.rotateLeft (y.toNat % 64)),
   (.smin, .int64, tI64, fun x y => if y.slt x then y else x),
   (.smax, .int64, tI64, fun x y => if x.slt y then y else x),
   (.sminu, .int64, tI64, fun x y => if y < x then y else x),
   (.smaxu, .int64, tI64, fun x y => if x < y then y else x),
   (.sceq, .int64, tI64, fun x y => allOnes64 (x = y)),
   (.scne, .int64, tI64, fun x y => allOnes64 (x ≠ y)),
   (.sclt, .int64, tI64, fun x y => allOnes64 (x.slt y)),
   (.scltu, .int64, tI64, fun x y => allOnes64 (x < y)),
   (.sdivu, .int64, tI64, fun x y => if y = 0 then BitVec.allOnes 64 else x / y)]

/-- R173, R174: uniform FP64 words of two sources. -/
def uniformFloatWords : List (Uni3 × BitVec 4 × (Rnd → Nat → Nat → Nat × FpFlags)) :=
  [(.sfadd, tFP64H, Fmt.fp64.add), (.sfmul, tFP64H, Fmt.fp64.mul),
   (.sfclt, tI64, fun _ x y => ((allOnes64 (Fmt.fp64.clt x y).1).toNat, (Fmt.fp64.clt x y).2))]

/-- R173: uniform words with an immediate of 11 bits. -/
def uniformImmediateWords : List ((BitVec 7 → BitVec 7 → BitVec 11 → Instr) × Reader × BitVec 4 × (DWord → DWord → DWord)) :=
  [(.saddi, .int64, tI64, fun x y => x + y), (.sandi, .bit, tRAW, fun x y => x &&& y), (.sori, .bit, tRAW, fun x y => x ||| y)]

/-! ## Lane words with fields of their own -/

/-- The result of a lane word as the rules give it: the prefixes it accepts, its sources, the tag of its result, each lane's
value, and the flags its operation raises. -/
structure LaneSpec where
  ins : Instr
  accepts : Accepts
  srcs : List Src
  tag : Wave → BitVec 4
  value : Iss → Nat → Nat
  flags : Iss → FpFlags := fun _ => 0

/-- A V source of one register. -/
def vsrc (k : Nat) (n : BitVec 7) (rd : Reader) (e : Bool) : Src := ⟨k, false, n.toNat, 1, rd, e⟩
/-- A V source of two registers (R122). -/
def vpair (k : Nat) (n : BitVec 7) (e : Bool) : Src := ⟨k, false, n.toNat, 2, .pair, e⟩
/-- A lane's current bits. -/
def bitsOf (v : Wave) (n : BitVec 7) (l : Nat) : Word := (v.vreg n.toNat).lane l

/-- R150, R172, R166, R167: words that move, select and shift. -/
def moveSpecs (d a b : BitVec 7) (ea eb : Bool) (k : BitVec 2) (n : BitVec 5) (m : BitVec 11) (c : BitVec 4) : List LaneSpec :=
  [{ ins := .vshi d a k n, accepts := { rep := some (true, true, false) }, srcs := [vsrc 0 a .bit false], tag := fun _ => tRAW
     value := fun i l =>
      let x := bitsOf i.wv a l
      (match k.toNat with
        | 0 => x <<< n.toNat
        | 1 => x >>> n.toNat
        | 2 => x.sshiftRight n.toNat
        | _ => x.rotateLeft n.toNat).toNat },
   { ins := .vmovi d m, accepts := { imm := true, rep := some (true, false, false) }, srcs := [], tag := fun _ => tI32
     value := fun i _ => (imm32 i.c 11 m.toNat).toNat },
   { ins := .vsel d a b ea eb, accepts := { rep := some (true, true, true) }
     srcs := [vsrc 0 a .bit ea, vsrc 1 b .bit eb, vsrc 3 d .bit false]
     tag := fun v => if (v.vreg a.toNat).tag = (v.vreg b.toNat).tag then (v.vreg a.toNat).tag else tRAW
     value := fun i l => ((bitsOf i.wv a l &&& bitsOf i.wv d l) ||| (bitsOf i.wv b l &&& ~~~bitsOf i.wv d l)).toNat },
   { ins := .vmovs d b eb, accepts := {}, srcs := [⟨1, true, b.toNat, 1, .bit, eb⟩], tag := fun _ => tRAW
     value := fun i _ => (i.wv.sreg b.toNat).val.toNat % 2 ^ 32 },
   { ins := .vlaneid d, accepts := {}, srcs := [], tag := fun _ => tI32, value := fun _ l => l },
   { ins := .vretag d a c ea, accepts := { rep := some (true, true, true) }, srcs := [vsrc 0 a .bit ea], tag := fun _ => c
     value := fun i l => (bitsOf i.wv a l).toNat },
   { ins := .vgettag d a ea, accepts := { rep := some (true, true, false) }, srcs := [vsrc 0 a .bit ea], tag := fun _ => tI32
     value := fun i _ => (i.wv.vreg a.toNat).tag.toNat }]

/-- R168: the first lane of a lane's quad. -/
def quadBase (l : Nat) : Nat := l - l % 4

/-- R168: the difference of two lanes of the quad, each converted on read. -/
def quadDiff (i : Iss) (a : BitVec 7) (hi lo : Nat) : Nat × FpFlags :=
  Fmt.fp32.sub i.wv.regs.rndmode (laneOperand i.wv .fp32 a.toNat hi) (laneOperand i.wv .fp32 a.toNat lo)

/-- R168: the lanes VDDX and VDDY subtract, for m fine or coarse. -/
def ddxLanes (m : BitVec 7) (l : Nat) : Nat × Nat :=
  let y := if m = 0 then l / 2 % 2 else 0
  (quadBase l + 2 * y + 1, quadBase l + 2 * y)
def ddyLanes (m : BitVec 7) (l : Nat) : Nat × Nat :=
  let x := if m = 0 then l % 2 else 0
  (quadBase l + 2 + x, quadBase l + x)

/-- R172: the mask of the lanes of F that satisfy a test. -/
def maskOf (i : Iss) (p : Nat → Bool) : Nat := (lanesOf i.fr.live).foldl (fun a l => if p l then a + 2 ^ l else a) 0

/-- R168, R169, R172: words that exchange lanes, with the values of their small fields that are legal. -/
def exchangeSpecs (d a b : BitVec 7) (ea eb : Bool) (k : BitVec 7) : List (Bool × LaneSpec) :=
  [(decide (k = 1 ∨ k = 2 ∨ k = 3),
    { ins := .vqswap d a k ea, accepts := {}, srcs := [vsrc 0 a .bit ea], tag := fun v => (v.vreg a.toNat).tag
      value := fun i l => (bitsOf i.wv a (Nat.xor l k.toNat)).toNat }),
   (decide (k < 4),
    { ins := .vqbcast d a k ea, accepts := {}, srcs := [vsrc 0 a .bit ea], tag := fun v => (v.vreg a.toNat).tag
      value := fun i l => (bitsOf i.wv a (quadBase l + k.toNat)).toNat }),
   (decide (k < 2),
    { ins := .vddx d a k ea, accepts := {}, srcs := [vsrc 0 a .fp32 ea], tag := fun _ => tFP32
      value := fun i l => (quadDiff i a (ddxLanes k l).1 (ddxLanes k l).2).1
      flags := fun i => opFlags i.fr.live fun l => (quadDiff i a (ddxLanes k l).1 (ddxLanes k l).2).2 }),
   (decide (k < 2),
    { ins := .vddy d a k ea, accepts := {}, srcs := [vsrc 0 a .fp32 ea], tag := fun _ => tFP32
      value := fun i l => (quadDiff i a (ddyLanes k l).1 (ddyLanes k l).2).1
      flags := fun i => opFlags i.fr.live fun l => (quadDiff i a (ddyLanes k l).1 (ddyLanes k l).2).2 }),
   (true,
    { ins := .vshfl d a b ea eb, accepts := {}, srcs := [vsrc 0 a .bit ea, vsrc 1 b .int eb], tag := fun v => (v.vreg a.toNat).tag
      value := fun i l => (bitsOf i.wv a (laneOperand i.wv .int b.toNat l % 32)).toNat }),
   (true,
    { ins := .vballot d a ea, accepts := {}, srcs := [vsrc 0 a .bit ea], tag := fun _ => tRAW
      value := fun i _ => maskOf i fun m => bitsOf i.wv a m != 0 }),
   (true,
    { ins := .vreadlane d a b ea eb, accepts := {}, srcs := [vsrc 0 a .bit ea, vsrc 1 b .int eb]
      tag := fun v => (v.vreg a.toNat).tag
      value := fun i _ => (bitsOf i.wv a (laneOperand i.wv .int b.toNat ((lanesOf i.fr.live).headD 0) % 32)).toNat }),
   (true,
    { ins := .vmark d a ea, accepts := {}, srcs := [vsrc 0 a .bit ea], tag := fun _ => tRAW
      value := fun i l => maskOf i fun m => bitsOf i.wv a m == bitsOf i.wv a l })]

/-! ## Reductions (R170, R171) -/

/-- Operation, reader, identity and tag by the code of R170. -/
structure RedSpec where
  reader : Reader
  ident : Nat
  tag : BitVec 4
  op : Rnd → Nat → Nat → Nat × FpFlags

/-- A wrapping word operation without flags. -/
def plainOp (f : Word → Word → Word) : Rnd → Nat → Nat → Nat × FpFlags :=
  fun _ x y => ((f (BitVec.ofNat 32 x) (BitVec.ofNat 32 y)).toNat, 0)

/-- The table of R170. -/
def redSpecs : List RedSpec :=
  [⟨.int, 0, tI32, plainOp (· + ·)⟩,
   ⟨.int, 0x7FFFFFFF, tI32, plainOp fun x y => if y.slt x then y else x⟩,
   ⟨.int, 0x80000000, tI32, plainOp fun x y => if x.slt y then y else x⟩,
   ⟨.int, 0xFFFFFFFF, tI32, plainOp fun x y => if y < x then y else x⟩,
   ⟨.int, 0, tI32, plainOp fun x y => if x < y then y else x⟩,
   ⟨.bit, 0xFFFFFFFF, tRAW, plainOp (· &&& ·)⟩,
   ⟨.bit, 0, tRAW, plainOp (· ||| ·)⟩,
   ⟨.bit, 0, tRAW, plainOp (· ^^^ ·)⟩,
   ⟨.fp32, 0x80000000, tFP32, Fmt.fp32.add⟩,
   ⟨.fp32, 0x7F800000, tFP32, fun _ => Fmt.fp32.minMax false⟩,
   ⟨.fp32, 0xFF800000, tFP32, fun _ => Fmt.fp32.minMax true⟩]

/-- Node (k, j) of R171's tree: the combination of lanes 2^k · j to 2^k · (j + 1) − 1, absent where none is in F; with the
flags of every step below. -/
def treeNode (f : Nat → Nat → Nat × FpFlags) (leaf : Nat → Option Nat) : Nat → Nat → Option Nat × FpFlags
  | 0, j => (leaf j, 0)
  | k + 1, j =>
    let p := treeNode f leaf k (2 * j)
    let q := treeNode f leaf k (2 * j + 1)
    match p.1, q.1 with
    | some x, some y => (some (f x y).1, p.2 ||| q.2 ||| (f x y).2)
    | some x, none => (some x, p.2 ||| q.2)
    | none, y => (y, p.2 ||| q.2)

/-- R171: the accumulator after a list of lanes, in order, with the flags of its steps. -/
def scanAcc (f : Nat → Nat → Nat × FpFlags) (x : Nat → Nat) : List Nat → Option Nat × FpFlags
  | ls => ls.foldl (fun acc l => match acc.1 with
    | none => (some (x l), acc.2)
    | some p => (some (f p (x l)).1, acc.2 ||| (f p (x l)).2)) (none, 0)

/-- R119: a value as an FP32 operation passes it on: a NaN without its payload and sign, with invalid for a signalling one. -/
def RedSpec.pass (r : RedSpec) (x : Nat) : Nat × FpFlags :=
  if r.tag = tFP32 then
    if x % 2 ^ 31 ≤ 0x7F800000 then (x, 0) else (0x7FC00000, if x.testBit 22 then 0 else flInvalid)
  else (x, 0)

/-- VREDUCE and VSCAN with operation code o (R170, R171). -/
def reduceSpecs (d a : BitVec 7) (ea : Bool) (o : BitVec 4) (r : RedSpec) : List LaneSpec :=
  let val : Iss → Nat → Nat × FpFlags := fun i l => r.pass (laneOperand i.wv r.reader a.toNat l)
  let leaf : Iss → Nat → Option Nat := fun i l => if i.fr.live.getLsbD l then some (val i l).1 else none
  let taken : Iss → FpFlags := fun i => opFlags i.fr.live fun l => (val i l).2
  let tree : Iss → Option Nat × FpFlags := fun i => treeNode (r.op i.wv.regs.rndmode) (leaf i) 5 0
  let acc : Iss → (Nat → Bool) → Option Nat × FpFlags := fun i p =>
    scanAcc (r.op i.wv.regs.rndmode) (fun l => (val i l).1) ((lanesOf i.fr.live).filter p)
  [{ ins := .vreduce d a o ea, accepts := {}, srcs := [vsrc 0 a r.reader ea], tag := fun _ => r.tag
     value := fun i _ => (tree i).1.getD 0
     flags := fun i => taken i ||| (tree i).2 },
   { ins := .vscan d a false o ea, accepts := {}, srcs := [vsrc 0 a r.reader ea], tag := fun _ => r.tag
     value := fun i l => (acc i fun m => decide (m ≤ l)).1.getD r.ident
     flags := fun i => taken i ||| (acc i fun _ => true).2 },
   { ins := .vscan d a true o ea, accepts := {}, srcs := [vsrc 0 a r.reader ea], tag := fun _ => r.tag
     value := fun i l => (acc i fun m => decide (m < l)).1.getD r.ident
     flags := fun i => taken i ||| (acc i fun _ => true).2 }]

/-! ## Conversions (R161 to R165) -/

/-- Elements of a tag's format in one register, or in the pair for a wide format (R162). -/
def elemCount (t : Nat) : Nat := if groupOfTag t = 0 then 1 else groupOfTag t

/-- The elements of a lane's bits under a tag, each converted to the selector's target (R165), with its flags. -/
def convertedElems (sel t x : Nat) : List (Nat × FpFlags) :=
  (elems (elemCount t) (elemOfTag t).width x).map (cvtSel sel (elemOfTag t) (elemOfTag (sel % 16)))

/-- Elements put together in the target's width. -/
def packedElems (sel : Nat) (es : List (Nat × FpFlags)) : Nat := packElems (elemOfTag (sel % 16)).width (es.map (·.1))
def elemFlags (es : List (Nat × FpFlags)) : FpFlags := es.foldl (fun f e => f ||| e.2) 0

/-- What a lane of V[a], or of the pair a, holds: the source of VCVT under its own tag (R162). -/
def cvtBits (i : Iss) (a : BitVec 7) (l : Nat) : Nat :=
  (bitsOf i.wv a l).toNat + if groupOfTag (i.wv.vreg a.toNat).tag.toNat = 0 then 2 ^ 32 * ((i.wv.vreg (a.toNat + 1)).lane l).toNat else 0

/-- VCVT's sources and destinations by source tag and target (R163). -/
def cvtSrc (i : Iss) (a : BitVec 7) (ea : Bool) : Src :=
  ⟨0, false, a.toNat, if groupOfTag (i.wv.vreg a.toNat).tag.toNat = 0 then 2 else 1, .bit, ea⟩
def cvtWrites (i : Iss) (d a sel : BitVec 7) : List (Nat × BitVec 4 × (Nat → Nat)) :=
  let v : Nat → Nat := fun l => packedElems sel.toNat (convertedElems sel.toNat (i.wv.vreg a.toNat).tag.toNat (cvtBits i a l))
  if sel.toNat % 16 = 4 then [(d.toNat, tFP64L, fun l => v l % 2 ^ 32), (d.toNat + 1, tFP64H, fun l => v l / 2 ^ 32)]
  else if sel.toNat % 16 = 12 then [(d.toNat, tI64, fun l => v l % 2 ^ 32), (d.toNat + 1, tI64, fun l => v l / 2 ^ 32)]
  else [(d.toNat, BitVec.ofNat 4 (sel.toNat % 16), v)]
/-- R162, R163: the groups VCVT takes, and the pairs it names. -/
def cvtTakes (i : Iss) (d a sel : BitVec 7) : Prop :=
  let g := groupOfTag (i.wv.vreg a.toNat).tag.toNat
  let h := groupOfTag (sel.toNat % 16)
  cvtTarget true sel = true ∧ (g = 1 ∨ g = 2 ∨ g = 4 ∨ g = 0) ∧ (g = h ∨ g = 0 ∧ h = 1 ∨ g = 1 ∧ h = 0) ∧
  (g = 0 → a.toNat % 2 = 0 ∧ a.toNat + 1 < i.wv.vcount) ∧ (h = 0 → d.toNat % 2 = 0)

/-- The six actions of R164 by source and target group: registers read, registers written. -/
def packRows : List ((Nat × Nat) × Nat × Nat) :=
  [((1, 2), 2, 1), ((1, 4), 4, 1), ((2, 4), 2, 1), ((2, 1), 1, 2), ((4, 1), 1, 4), ((4, 2), 1, 2)]
/-- R164: element e of what VCVTS writes is element e of what it reads, registers in order. -/
def cvtsElems (i : Iss) (a sel : BitVec 7) (ns l : Nat) : List (Nat × FpFlags) :=
  (List.range ns).flatMap fun k =>
    convertedElems sel.toNat (i.wv.vreg (a.toNat + k)).tag.toNat ((i.wv.vreg (a.toNat + k)).lane l).toNat
def cvtsWrites (i : Iss) (d a sel : BitVec 7) (ns nd : Nat) : List (Nat × BitVec 4 × (Nat → Nat)) :=
  (List.range nd).map fun k => (d.toNat + k, BitVec.ofNat 4 (sel.toNat % 16), fun l =>
    packedElems sel.toNat (((cvtsElems i a sel ns l).drop (k * elemCount (sel.toNat % 16))).take (elemCount (sel.toNat % 16))))

/-! ## Repetitions and feeder ports (R33, R35, R205) -/

/-- One execution of a lane word that REP may repeat (R33): the word with its fields, its sources as a wave gives them, what makes
it legal by itself and what its sources' tags have to be, and for what the fragment reads the registers written, their tags and
lane values, and the flags of its operation. -/
structure RepSpec where
  ins : Instr
  accepts : Accepts
  srcs : Wave → List Src
  legal : Wave → Prop := fun _ => True
  takes : Iss → Prop := fun _ => True
  writes : Iss → List (Nat × BitVec 4 × (Nat → Nat))
  flags : Iss → FpFlags := fun _ => 0

/-- A result that is one register's. -/
def LaneSpec.rep (e : LaneSpec) (d : BitVec 7) : RepSpec :=
  { ins := e.ins, accepts := e.accepts, srcs := fun _ => e.srcs, writes := fun i => [(d.toNat, e.tag i.wv, e.value i)], flags := e.flags }
/-- A result with flags, from a function of the reading wave and the lane. -/
def flaggedRep (ins : Instr) (accepts : Accepts) (srcs : List Src) (r : Iss → Nat → Nat × FpFlags)
    (writes : (Nat → Nat) → List (Nat × BitVec 4 × (Nat → Nat))) (legal : Prop := True) : RepSpec :=
  { ins := ins, accepts := accepts, srcs := fun _ => srcs, legal := fun _ => legal
    writes := fun i => writes fun l => (r i l).1, flags := fun i => opFlags i.fr.live fun l => (r i l).2 }
/-- The pair d of an FP64 result (R122). -/
def pairWrites (d : BitVec 7) (v : Nat → Nat) : List (Nat × BitVec 4 × (Nat → Nat)) :=
  [(d.toNat, tFP64L, fun l => v l % 2 ^ 32), (d.toNat + 1, tFP64H, fun l => v l / 2 ^ 32)]

/-- R150 to R157: the words of two or three register fields. -/
def registerReps (d a b : BitVec 7) (ea eb : Bool) : List RepSpec :=
  let all : Accepts := { rep := some (true, true, true) }
  let rnd : Iss → Rnd := fun i => i.wv.regs.rndmode
  (integerWords.map fun e => flaggedRep (e.1 d a b ea eb) all [vsrc 0 a e.2.1 ea, vsrc 1 b e.2.1 eb]
    (fun i l => ((e.2.2.2 (BitVec.ofNat 32 (laneOperand i.wv e.2.1 a.toNat l)) (BitVec.ofNat 32 (laneOperand i.wv e.2.1 b.toNat l))).toNat, 0))
    fun v => [(d.toNat, e.2.2.1, v)]) ++
  (floatWords.map fun e => flaggedRep (e.1 d a b ea eb) all [vsrc 0 a e.2.1 ea, vsrc 1 b e.2.1 eb]
    (fun i l => e.2.2.2 (rnd i) (laneOperand i.wv e.2.1 a.toNat l) (laneOperand i.wv e.2.1 b.toNat l)) fun v => [(d.toNat, e.2.2.1, v)]) ++
  (fusedWords.map fun e => flaggedRep (e.1 d a b ea eb) all [vsrc 0 a e.2.1 ea, vsrc 1 b e.2.1 eb, vsrc 3 d e.2.1 false]
    (fun i l => e.2.2.2 (rnd i) (laneOperand i.wv e.2.1 a.toNat l) (laneOperand i.wv e.2.1 b.toNat l) (laneOperand i.wv e.2.1 d.toNat l))
    fun v => [(d.toNat, e.2.2.1, v)]) ++
  (doubleWords.map fun e => flaggedRep (e.1 d a b ea eb) all [vpair 0 a ea, vpair 1 b eb]
    (fun i l => e.2 (rnd i) (pairOperand i.wv a.toNat l) (pairOperand i.wv b.toNat l)) (pairWrites d)
    (d.toNat % 2 = 0 ∧ a.toNat % 2 = 0 ∧ b.toNat % 2 = 0)) ++
  [flaggedRep (.vdfma d a b ea eb) all [vpair 0 a ea, vpair 1 b eb, vpair 3 d false]
    (fun i l => Fmt.fp64.fma (rnd i) (pairOperand i.wv a.toNat l) (pairOperand i.wv b.toNat l) (pairOperand i.wv d.toNat l)) (pairWrites d)
    (d.toNat % 2 = 0 ∧ a.toNat % 2 = 0 ∧ b.toNat % 2 = 0)] ++
  (doubleCompares.map fun e => flaggedRep (e.1 d a b ea eb) all [vpair 0 a ea, vpair 1 b eb]
    (fun i l =>
      let r := e.2 (pairOperand i.wv a.toNat l) (pairOperand i.wv b.toNat l)
      ((allOnes32 r.1).toNat, r.2)) (fun v => [(d.toNat, tI32, v)]) (a.toNat % 2 = 0 ∧ b.toNat % 2 = 0))

/-- R150, R158, R160: the words of one source, and those with an immediate. -/
def unaryReps (d a : BitVec 7) (ea : Bool) (m : BitVec 11) : List RepSpec :=
  (unaryWords.map fun e => flaggedRep (e.1 d a ea) { rep := some (true, true, false) } [vsrc 0 a e.2.1 ea]
    (fun i l => e.2.2.2 i.wv.regs.rndmode (laneOperand i.wv e.2.1 a.toNat l)) fun v => [(d.toNat, e.2.2.1, v)]) ++
  (immediateWords.map fun e => flaggedRep (e.1 d a m) { imm := true, rep := some (true, true, false) } [vsrc 0 a e.2.1 false]
    (fun i l => ((e.2.2.2 (BitVec.ofNat 32 (laneOperand i.wv e.2.1 a.toNat l)) ((widened i.c m).setWidth 32)).toNat, 0))
    fun v => [(d.toNat, e.2.2.1, v)])

/-- R161 to R165: VCVT, and VCVTS by the row of its table that the tags choose. -/
def conversionReps (d a sel : BitVec 7) (ea : Bool) : List RepSpec :=
  let row : Wave → Nat × Nat := fun v =>
    match packRows.find? fun r => r.1 == (groupOfTag (v.vreg a.toNat).tag.toNat, groupOfTag (sel.toNat % 16)) with
    | some r => r.2
    | none => (1, 1)
  [{ ins := .vcvt d a sel ea, accepts := { rep := some (true, true, true) }
     srcs := fun v => [⟨0, false, a.toNat, if groupOfTag (v.vreg a.toNat).tag.toNat = 0 then 2 else 1, .bit, ea⟩]
     legal := fun _ => cvtTarget true sel = true ∧ (groupOfTag (sel.toNat % 16) = 0 → d.toNat % 2 = 0)
     takes := fun i => cvtTakes i d a sel
     writes := fun i => cvtWrites i d a sel
     flags := fun i => opFlags i.fr.live fun l =>
      elemFlags (convertedElems sel.toNat (i.wv.vreg a.toNat).tag.toNat (cvtBits i a l)) },
   { ins := .vcvts d a sel ea, accepts := { rep := some (true, true, true) }
     srcs := fun v => (List.range (row v).1).map fun k => ⟨0, false, a.toNat + k, 1, .bit, ea⟩
     legal := fun v => cvtTarget false sel = true ∧ a.toNat + 3 < v.vcount ∧ d.toNat + 3 < v.vcount
     takes := fun i => ∃ r ∈ packRows, r.1 = (groupOfTag (i.wv.vreg a.toNat).tag.toNat, groupOfTag (sel.toNat % 16)) ∧
      ∀ k < r.2.1, groupOfTag (i.wv.vreg (a.toNat + k)).tag.toNat = r.1.1
     writes := fun i => cvtsWrites i d a sel (row i.wv).1 (row i.wv).2
     flags := fun i => opFlags i.fr.live fun l => elemFlags (cvtsElems i a sel (row i.wv).1 l) }]

/-- Every lane word that REP may repeat, and two that it may not: with fields d, a and b, of which VRETAG has its tag code and
the conversions their selector in b (R33, R166). -/
def repSpecs (d a b : BitVec 7) (ea eb : Bool) (k : BitVec 2) (n : BitVec 5) (m : BitVec 11) : List RepSpec :=
  registerReps d a b ea eb ++ unaryReps d a ea m ++ conversionReps d a b ea ++
  (moveSpecs d a b ea eb k n m (b.setWidth 4)).map fun e =>
    { e.rep d with legal := fun _ => match e.ins with | .vretag .. => b.toNat < 15 | _ => True }

/-- R33: field x of repetition k. -/
def Cur.stepped (c : Cur) (k : Nat) (which : Fin 3) (x : BitVec 7) : Nat :=
  match c.rep with
  | none => x.toNat
  | some (_, pd, pa, pb, st) => if (match which with | 0 => pd | 1 => pa | 2 => pb) then x.toNat + k * (st.toNat + 1) else x.toNat

/-- What an execution leaves in the wave v whose registers it reads as those of `wr`. -/
def RepSpec.leaves (e : RepSpec) (i : Iss) (wr v : Wave) : Wave :=
  let j := { i with wv := wr }
  v.applyOut i.fr.live ((e.writes j).map fun x => (x.1, x.2.1, (List.range 32).map x.2.2)) (e.flags j ||| readFlags wr i.fr.live (e.srcs wr))

/-- The wave after n repetitions from k0 on, each reading what the ones before it wrote (R33, R35). -/
def repWave (e : Nat → RepSpec) (i : Iss) (k0 : Nat) : Nat → Wave
  | 0 => i.wv
  | n + 1 => (e (k0 + n)).leaves i (repWave e i k0 n) (repWave e i k0 n)

/-- The V registers of a unit's sources, each once, in the order of the fields. -/
def vregsOf (srcs : List Src) : List Nat := ((srcs.filter fun x => !x.isS).flatMap regsOf).eraseDups
/-- The vectors that a queue has, and those that ports before the n-th register take (log 79). -/
def Iss.vector (i : Iss) (regs : List Nat) (n q : Nat) : Option (BitVec 4 × List Word) :=
  (i.grp.queue q)[((regs.takeWhile (· != n)).filter fun m => i.wv.port? m == some q).length]?
/-- R83, R205: the wave as a unit reads it: in a bound port the vector that it takes, in the lanes of F. -/
def Iss.reading (i : Iss) (srcs : List Src) : Wave :=
  { i.wv with vregs := i.wv.vregs.mapIdx fun n r =>
      match (if (vregsOf srcs).contains n then (i.wv.port? n).bind (i.vector (vregsOf srcs) n) else none) with
      | some x => { r with tag := x.1, lanes := (List.range 32).map fun l => if i.fr.live.getLsbD l then x.2.getD l 0 else r.lane l }
      | none => r }
/-- R205: the vectors of queue q that a unit pops: one for each port of it that the unit reads. -/
def Iss.popped (i : Iss) (srcs : List Src) (q : Nat) : Nat := ((vregsOf srcs).filter fun n => i.wv.port? n == some q).length

/-! ## System registers (R116) -/

/-- Three coordinates in one word, x lowest (R116). -/
def coords (w : Nat) (p : Nat × Nat × Nat) : DWord := BitVec.ofNat 64 (p.1 + 2 ^ w * p.2.1 + 2 ^ (2 * w) * p.2.2)

/-- A field of the trap frame, zero outside a handler (R396). -/
def frameField (i : Iss) (f : Frame → DWord) : DWord :=
  match i.fr.frame.bind fun n => i.wv.frames.find? fun f => f.slot == n with
  | some fm => f fm
  | none => 0

/-- R116, R202, R396: the registers SGET reads at once, by number; HBEAT and CYCLE have rules of their own (R115). -/
def sysTable (s : State) (i : Iss) : List (Nat × DWord) :=
  [(0x001, BitVec.ofNat 64 i.wv.w), (0x002, coords 20 i.grp.gid),
   (0x003, BitVec.ofNat 64 (2 ^ 11 * i.grp.nwaves + i.grp.lanes)), (0x004, coords 20 i.grp.cid),
   (0x005, BitVec.ofNat 64 i.grp.clrank),
   (0x006, if i.ln.graph then 0
     else coords 21 (i.ln.gdim.1 * i.ln.cdim.1, i.ln.gdim.2.1 * i.ln.cdim.2.1, i.ln.gdim.2.2 * i.ln.cdim.2.2)),
   (0x007, BitVec.ofNat 64 i.grp.core), (0x008, BitVec.ofNat 64 (i.grp.core / 20)),
   (0x009, match s.top.pkgid with | some p => BitVec.ofNat 64 p.toNat | none => 0),
   (0x00A, i.ln.argbase), (0x00B, i.grp.nodeq), (0x00C, i.grp.nodebatch), (0x00D, i.grp.nodecap),
   (0x012, i.grp.vatword.setWidth 64), (0x013, BitVec.ofNat 64 i.grp.vbase), (0x014, BitVec.ofNat 64 i.grp.sbase),
   (0x015, BitVec.ofNat 64 i.grp.padbase), (0x016, i.wv.regs.stklim), (0x017, if i.wv.regs.tagmode then 1 else 0),
   (0x020, i.wv.regs.tvec), (0x021, frameField i fun f => f.cause.setWidth 64), (0x022, frameField i Frame.faddr),
   (0x023, frameField i Frame.fpc), (0x024, frameField i fun f => BitVec.ofNat 64 (f.fparent % 256 * 256 + f.fid % 256)),
   (0x025, frameField i fun f => f.fsib.setWidth 64), (0x026, frameField i Frame.finfo), (0x027, i.wv.regs.tscr),
   (0x040, i.wv.regs.rndmode.setWidth 64), (0x041, i.wv.regs.fpflags.setWidth 64), (0x042, i.grp.mstat.setWidth 64),
   (0x060, i.wv.regs.opthr.setWidth 64), (0x080, i.wv.regs.relts), (0x081, i.wv.regs.secwdog),
   (0x082, BitVec.ofNat 64 ((List.range 32).foldl (fun m l =>
     if i.fr.live.getLsbD l then max m (i.wv.held.filter fun h => h.lane == l).length else m) 0))]

/-- R114, R116: what SSET of x writes, by number: a wave register, or the frame's FPC. Registers that are read only keep
their value. -/
def sysWrites (i : Iss) (x : DWord) : List (Nat × (Wave → Wave)) :=
  [(0x016, fun w => { w with regs := { w.regs with stklim := x } }),
   (0x017, fun w => { w with regs := { w.regs with tagmode := x.getLsbD 0 } }),
   (0x020, fun w => { w with regs := { w.regs with tvec := x } }),
   (0x023, fun w => { w with frames := w.frames.map fun f => if i.fr.frame == some f.slot then { f with fpc := x } else f }),
   (0x027, fun w => { w with regs := { w.regs with tscr := x } }),
   (0x040, fun w => { w with regs := { w.regs with rndmode := x.setWidth 2 } }),
   (0x041, fun w => { w with regs := { w.regs with fpflags := w.regs.fpflags &&& ~~~x.setWidth 5 } }),
   (0x060, fun w => { w with regs := { w.regs with opthr := x.setWidth 32 } }),
   (0x081, fun w => { w with regs := { w.regs with secwdog := x } })]

/-- R116: the numbers of the user system registers that SSET leaves as they are. -/
def sysReadOnly : List Nat :=
  [0x001, 0x002, 0x003, 0x004, 0x005, 0x006, 0x007, 0x008, 0x009, 0x00A, 0x00B, 0x00C, 0x00D, 0x010, 0x011, 0x012, 0x013, 0x014,
   0x015, 0x021, 0x022, 0x024, 0x025, 0x026, 0x080, 0x082]

/-! ## Memory words (R30, R274, R276, R279) -/

/-- R274: fn code, bytes, sign extension and destination registers of VLD and VLDP. -/
def loadForms : List (BitVec 4 × Nat × Bool × Nat) :=
  [(0, 1, true, 1), (1, 1, false, 1), (2, 2, true, 1), (3, 2, false, 1), (4, 4, false, 1), (5, 8, false, 2), (6, 16, false, 4)]
/-- R276: fn code, bytes and data registers of VST and VSTP. -/
def storeForms : List (BitVec 4 × Nat × Nat) := [(0, 1, 1), (2, 2, 1), (4, 4, 1), (5, 8, 2), (6, 16, 4)]
/-- R30: width code, bytes and sign extension of SLD. -/
def smLoadForms : List (BitVec 3 × Nat × Bool) :=
  [(0, 1, true), (1, 1, false), (2, 2, true), (3, 2, false), (4, 4, true), (5, 4, false), (6, 8, false)]
/-- R30: width code and bytes of SST. -/
def smStoreForms : List (BitVec 3 × Nat) := [(0, 1), (2, 2), (4, 4), (6, 8)]

/-- R279: what an atomic of 32 bits writes, by its fn code; none where it leaves the word. -/
def atomicResults : List (BitVec 4 × (Word → Word → Word → Option Word)) :=
  [(0, fun old x _ => some (old + x)), (1, fun old x _ => some (old - x)),
   (2, fun old x _ => some (if x.slt old then x else old)), (3, fun old x _ => some (if old.slt x then x else old)),
   (4, fun old x _ => some (if x < old then x else old)), (5, fun old x _ => some (if old < x then x else old)),
   (6, fun old x _ => some (old &&& x)), (7, fun old x _ => some (old ||| x)), (8, fun old x _ => some (old ^^^ x)),
   (9, fun _ x _ => some x), (10, fun old x y => if old = x then some y else none),
   (14, fun old x _ => some (if x ≤ old then 0 else old + 1)),
   (15, fun old x _ => some (if old = 0 ∨ x < old then x else old - 1))]

end Sys2Proof.Machine
end

