-- ==== Sys2Proof/Certificates/Slice0/Obligations.lean ====
section
/-! DEFINITION. The statements for the provers, from the rules of the manual. Completion statements say, under conditions on the
state and the operands alone, which next state an instruction or event answers; what an instruction leaves unchanged is said by
the equation for its next state, or field by field. Every statement holds for every value of the free values (Config). -/

open Sys2Proof Sys2Proof.Machine Host

/-! ## Encoding and the step -/

/-- R23 to R29, R34, R37, R38: words written out from the formats and maps, the manual's own examples among them, decode
to what they stand for; the two words of R39 and a reserved major decode to nothing. -/
def Obligations.DecodedWords : Prop :=
  decodeWord 0xF804000A = .ok (.sget 1 10) ∧ decodeWord 0xA0080806 = .ok (.sld 2 1 0 6) ∧ decodeWord 0xA00C0814 = .ok (.sld 3 1 2 4) ∧
  decodeWord 0x32000001 = .ok (.vlaneid 0) ∧ decodeWord 0x16040002 = .ok (.vshi 1 0 0 2) ∧ decodeWord 0x40080884 = .ok (.vld 2 1 2 0 4) ∧
  decodeWord 0x320C0030 = .ok (.vmovs 3 3 false) ∧ decodeWord 0x00081030 = .ok (.vadd 2 2 3 false false) ∧
  decodeWord 0x42080884 = .ok (.vst 2 1 2 0 4) ∧ decodeWord 0x64000002 = .ok .vexit ∧ decodeWord 0xFE02468A = .ok (.imm 0x2468A) ∧
  decodeWord 0xFE900000 = .ok (.ord 1) ∧ decodeWord 0xFE4F8000 = .ok (.rep 3 true true true 0) ∧ decodeWord 0x8C1027FF = .ok (.saddi 4 4 0x7FF) ∧
  decodeWord 0x6014BFF4 = .ok (.vbnz 5 2 0x3FF4) ∧ decodeWord 0xC40C2860 = .ok (.copy 3 5 6) ∧ decodeWord 0xCC041000 = .ok (.launch 1 2) ∧
  decodeWord 0xC6041030 = .ok (.nput 1 2 3) ∧ decodeWord 0xC8080050 = .ok (.mtcfg 2 5) ∧
  decodeWord 0x50208091 = .ok (.vtrace 8 16 9 false false 1) ∧ decodeWord 0x56002060 = .ok (.venter 4 6 false false) ∧
  decodeWord 0xFC002800 = .ok (.trap 5) ∧ decodeWord 0xC21C0000 = .ok (.fencesc 7) ∧ decodeWord 0xC0041004 = .ok (.bwait 1 2) ∧
  decodeWord 0 = .error .zeroWord ∧ decodeWord 0xFFFFFFFF = .error .reservedKind ∧ decodeWord 0x34000000 = .error .reservedMajor

/-- Every well-formed instruction is read back whole from its word. -/
def Obligations.DecodeEncodeRoundTrip : Prop :=
  ∀ ins : Instr, ins.wf = true → ∃ w, encode ins = some w ∧ decodeWord w.toNat = .ok ins

/-- A word that is an instruction is that instruction's word: no two words stand for one instruction, and no bit of a word
is left unread. -/
def Obligations.EncodeDecodeRoundTrip : Prop :=
  ∀ (w : Word) (ins : Instr), decodeWord w.toNat = .ok ins → ins.wf = true ∧ encode ins = some w

/-- R24, R34, R39: while a unit is in progress, a step fetches the four bytes at its next address, decodes them and
executes exactly the instruction they stand for; a word that is none takes ILLEGAL_WORD. With no unit in progress the
turn's event runs, or the wave chosen starts a unit: a heartbeat tick that has fallen due comes first, and no cycle passes
while one is to come; else the clock moves on a cycle and the turns say which event of the agenda, outside every DET context
and frozen channel, or which wave. -/
def Obligations.StepRunsWord : Prop :=
  (∀ (s u : State) (i : Iss) (pa : Nat) (sh : Bool) (bs : List Byte), s.iss? = some i → canonical i.c.pc = true →
    s.translate i.grp.core i.grp.ctx i.c.pc.toNat .fetch = (u, .ok pa sh) → u.homeBytes pa 4 = some bs →
    let v : State := { u with cur := u.cur.map fun c => { c with word := BitVec.ofNat 32 (leNat bs) } }
    (∀ ins, decodeWord (leNat bs) = .ok ins → step s = exec ins v) ∧
    (∀ e j, decodeWord (leNat bs) = .error e → v.iss? = some j → step s = .next (v.illegal j))) ∧
  (∀ s : State, s.cur = none →
    (∀ e u, s.turn = .event e u → step s = exec e.what u) ∧
    (∀ g w u, s.turn = .issue g w u → step s = exec .issueSelection { u with ev := { a := g, b := w } }) ∧
    (∀ u, s.turn = .idle u → step s = .next u)) ∧
  (∀ s : State,
    (∀ n e, s.dueTick = some n → s.agenda[n]? = some e →
      s.turn = .event e { s with agenda := s.agenda.eraseIdx n, ev := e.args }) ∧
    (s.dueTick = none → s.tickCycle.dueTick = none → s.turn = s.tickCycle.stampDue.nextTurn)) ∧
  (∀ (s : State) (n : Nat) (ts : List Nat) (e : Event), s.turns = n :: ts → s.agenda[n]? = some e → s.flow e = none →
    s.detOwner e = none → s.frozenEvent e = false →
    s.nextTurn = .event e { s with turns := ts, agenda := s.agenda.eraseIdx n, ev := e.args })

/-- R33, R35, R6: with REP a lane word, a converting, floating or immediate one among them, runs once for each repetition
from the saved one on, in order, each with its fields stepped and each reading what the ones before it wrote, the flags
among it. A repetition that is not ready, a register of it pending, leaves the fragment at the unit with those done kept
and its number saved; one that traps leaves its number in the frame. A repetition that names a register out of range
makes the unit ILLEGAL_WORD before the first runs (log 65: FINFO). R272: VLDP repeated reads the own scratchpad for
every repetition in turn, and VSTP stores to it. Which vectors a repeated read of a port takes is log 79, and that a
VSTP in the own scratchpad is no access that ORD orders is log 23. -/
def Obligations.Repetition : Prop :=
  (∀ (n : Nat) (d a b : BitVec 7) (ea eb : Bool) (k2 : BitVec 2) (sh : BitVec 5) (m : BitVec 11) (s : State) (i : Iss) (e : Nat → RepSpec),
    s.iss? = some i → i.wv.ports = [] →
    (∀ k < i.c.count, i.c.stepped k 0 d < 128 ∧ i.c.stepped k 1 a < 128 ∧ i.c.stepped k 2 b < 128 ∧
      (repSpecs (BitVec.ofNat 7 (i.c.stepped k 0 d)) (BitVec.ofNat 7 (i.c.stepped k 1 a)) (BitVec.ofNat 7 (i.c.stepped k 2 b))
        ea eb k2 sh m)[n]? = some (e k)) →
    (e 0).accepts.ok i.c = true →
    let k0 := match i.c.rep with | some _ => i.fr.repNext.getD 0 | none => 0
    let v := fun k => repWave e i k0 (k - k0)
    let check := fun k => s.checkAll i (v k) ((e k).srcs (v k)) (((e k).writes { i with wv := v k }).map fun x => (false, x.1))
    let fit := fun k => (e k).takes { i with wv := v k }
    ((∀ k < i.c.count, (e k).legal i.wv ∧ (∀ x ∈ (e k).srcs i.wv, srcInRange i.wv x) ∧
        ∀ x ∈ (e k).writes i, vDst i.wv x.1 = true ∧ x.1 < i.wv.vregs.length) →
      ((∀ k, k0 ≤ k → k < i.c.count → fit k ∧ check k = .go) →
        ∃ t w, exec (e 0).ins s = .next t ∧ t.wave? i.c.g i.c.w = some w ∧ t = { s with waves := t.waves, cur := none } ∧
          (v i.c.count).Advanced w i ∧ w = { v i.c.count with frags := w.frags, units := w.units } ∧
          ∀ g x, (g, x) ≠ (i.c.g, i.c.w) → t.wave? g x = s.wave? g x) ∧
      (∀ k, k0 ≤ k → k < i.c.count → (∀ j, k0 ≤ j → j < k → fit j ∧ check j = .go) → fit k →
        (∀ why, check k = .wait why → ∃ t w f, exec (e 0).ins s = .next t ∧ t.wave? i.c.g i.c.w = some w ∧ w.frag? i.c.f = some f ∧
          w.vregs = (v k).vregs ∧ w.sregs = (v k).sregs ∧ w.regs = (v k).regs ∧ f.pc = i.c.unitPc ∧ f.wait = some why ∧
          f.repNext = (if i.c.rep.isSome = true ∧ k ≠ 0 then some k else i.fr.repNext) ∧ t.mem = s.mem ∧ t.cur = none) ∧
        (∀ cause info, check k = .trap cause info → i.fr.frame = none → i.wv.regs.tvec ≠ 0 → i.wv.frames.length < 64 →
          ∃ t w fm, exec (e 0).ins s = .next t ∧ t.wave? i.c.g i.c.w = some w ∧ fm ∈ w.frames ∧ fm ∉ i.wv.frames ∧
            w.vregs = (v k).vregs ∧ w.regs = (v k).regs ∧ fm.cause = BitVec.ofNat 8 cause ∧ fm.faddr = 0 ∧ fm.finfo = info ∧
            fm.fpc = i.c.unitPc ∧ fm.rep = (if i.c.rep.isSome = true ∧ k ≠ 0 then some k else none) ∧ t.mem = s.mem))) ∧
    (∀ k < i.c.count, ((∃ x ∈ (e k).srcs i.wv, (if x.isS then sOk i.wv x.reg else vOk i.wv x.reg) = false) ∨
        ∃ x ∈ (e k).writes i, vDst i.wv x.1 = false) →
      exec (e 0).ins s = .next (s.illegal i))) ∧
  (∀ (d a b : BitVec 7) (ea eb : Bool) (k2 : BitVec 2) (sh : BitVec 5) (m : BitVec 11), ∀ e ∈ repSpecs d a b ea eb k2 sh m,
    ∀ (s : State) (i : Iss), s.iss? = some i → e.accepts.ok i.c = true → i.wv.vcount ≤ 128 → (∃ k < i.c.count, 128 ≤ i.c.stepped k 0 d) →
      exec e.ins s = .next (s.illegal i)) ∧
  (∀ f ∈ loadForms, ∀ (s : State) (i : Iss) (d a : BitVec 7) (sr : BitVec 5) (k2 : BitVec 2) (g : Group),
    s.iss? = some i → i.wv.ports = [] → i.c.rep.isSome = true → i.fr.repNext = none → i.c.order.getLsbD 0 = false →
    ({ imm := true, ord := [0, 1], rep := some (true, true, false) } : Accepts).ok i.c = true → s.accessWait i.c.g i.c.w false false = none →
    g = i.grp → (i.wv.sreg sr.toNat).full = true → (∀ n, (i.wv.vreg n).pend = 0) → (∀ r ∈ s.ranges, r.kind = 2 ∨ r.kind = 3) →
    let dk := fun k => i.c.stepped k 0 d
    let ak := fun k => i.c.stepped k 1 a
    (∀ k < i.c.count, vmLegal i (dk k) (ak k) sr.toNat f.2.2.2 true = true ∧ dk k + f.2.2.2 ≤ i.wv.vregs.length ∧
      ∀ j < i.c.count, j < k → ak k < dk j ∨ dk j + f.2.2.2 ≤ ak k) →
    let off := fun k l => (i.wv.sreg sr.toNat).val + ((i.wv.vreg (ak k)).lane l).signExtend 64 * BitVec.ofNat 64 (2 ^ k2.toNat) +
      (match i.c.imm with | some m => m.signExtend 64 | none => 0)
    (∀ k < i.c.count, ∀ l < 32, i.fr.live.getLsbD l = true → (off k l).toNat % f.2.1 = 0 ∧ (off k l).toNat + f.2.1 ≤ g.padSize ∧
      (off k l).toNat < 2 ^ 20) →
    ∃ t w, exec (.vldp d a sr k2 f.1) s = .next t ∧ t = { s with waves := t.waves, cur := none } ∧ t.wave? i.c.g i.c.w = some w ∧
      w.vregs = ((List.range i.c.count).foldl (fun (v : Wave) k => (List.range f.2.2.2).foldl (fun v j =>
        v.writeV (dk k + j) i.fr.live tRAW ((List.range 32).map fun l =>
          let bs := if i.fr.live.getLsbD l then g.padBytes (off k l).toNat f.2.1 else []
          BitVec.ofNat 32 (if f.2.2.2 = 1 then extend f.2.2.1 32 bs else leNat ((bs.drop (4 * j)).take 4)))) v) i.wv).vregs) ∧
  (∀ f ∈ storeForms, ∀ (s : State) (i : Iss) (d a : BitVec 7) (sr : BitVec 5) (k2 : BitVec 2) (g : Group),
    s.iss? = some i → i.wv.ports = [] → i.c.rep.isSome = true → i.fr.repNext = none → i.c.order.getLsbD 1 = false →
    ({ imm := true, ord := [0, 2], rep := some (true, true, false) } : Accepts).ok i.c = true → s.accessWait i.c.g i.c.w false false = none →
    g = i.grp → (i.wv.sreg sr.toNat).full = true → (∀ n, (i.wv.vreg n).pend = 0) → (∀ r ∈ s.ranges, r.kind = 2 ∨ r.kind = 3) →
    let dk := fun k => i.c.stepped k 0 d
    let ak := fun k => i.c.stepped k 1 a
    (∀ k < i.c.count, vmLegal i (dk k) (ak k) sr.toNat f.2.2 false = true) →
    let off := fun k l => (i.wv.sreg sr.toNat).val + ((i.wv.vreg (ak k)).lane l).signExtend 64 * BitVec.ofNat 64 (2 ^ k2.toNat) +
      (match i.c.imm with | some m => m.signExtend 64 | none => 0)
    (∀ k < i.c.count, ∀ l < 32, i.fr.live.getLsbD l = true → (off k l).toNat % f.2.1 = 0 ∧ (off k l).toNat + f.2.1 ≤ g.padSize ∧
      (off k l).toNat < 2 ^ 20) →
    ∃ t h w, exec (.vstp d a sr k2 f.1) s = .next t ∧ t.group? i.c.g = some h ∧ t.wave? i.c.g i.c.w = some w ∧ w.vregs = i.wv.vregs ∧
      w.sregs = i.wv.sregs ∧ t.mem = s.mem ∧ t.l1 = s.l1 ∧
      h = { g with pad := (List.range i.c.count).foldl (fun m k => (lanesOf i.fr.live).foldl (fun m l => memSets m (off k l).toNat
        (((List.range f.2.2).flatMap fun j => leBytes 4 ((i.wv.vreg (dk k + j)).lane l).toNat).take f.2.1)) m) g.pad })

/-- R31 to R35: IMM, ORD and REP in that order, each kind at most once, are kept for the word they precede, and the unit
goes on with the next word; a repeated kind or one out of order takes ILLEGAL_WORD. -/
def Obligations.PrefixWords : Prop :=
  ∀ (s : State) (i : Iss), s.iss? = some i →
    (∀ n : BitVec 22, exec (.imm n) s = .next (if i.c.imm = none ∧ i.c.ord = none ∧ i.c.rep = none
      then { s with cur := some { i.c with imm := some n, pc := i.c.pc + 4 } } else s.illegal i)) ∧
    (∀ o : BitVec 2, exec (.ord o) s = .next (if i.c.ord = none ∧ i.c.rep = none
      then { s with cur := some { i.c with ord := some o, pc := i.c.pc + 4 } } else s.illegal i)) ∧
    (∀ (n : BitVec 4) (d a b : Bool) (st : BitVec 3), exec (.rep n d a b st) s = .next (if i.c.rep = none
      then { s with cur := some { i.c with rep := some (n, d, a, b, st), pc := i.c.pc + 4 } } else s.illegal i))

/-! ## Reset and memory -/

/-- R18, R447: right after reset the module is off: no wedge is released, no partition, context, launch or wave exists, and
memory lists nothing. Reset memory is in its canonical form. That the machine starts as a module before power, with no
partition, context, launch, group or wave, is the model’s choice (log 4), and so is that memory lists nothing (log 2). -/
def Obligations.ResetState : Prop :=
  (State.reset.top.stage = .off ∧ State.reset.top.released = 0 ∧ State.reset.parts = [] ∧ State.reset.vfs = [] ∧ State.reset.ctxs = [] ∧
   State.reset.launches = [] ∧ State.reset.groups = [] ∧ State.reset.waves = [] ∧ State.reset.mem = [] ∧ State.reset.cur = none ∧
   State.reset.agenda = []) ∧
  (State.reset.Canonical)

/-- Every step keeps memory in its canonical form: addresses strictly rising. -/
def Obligations.MemoryCanonicalStep : Prop :=
 ∀ s t : State, s.Canonical → step s = .next t → t.Canonical

/-! ## Lane arithmetic -/

/-- R150, R151 with R130, R134, R146 and R148: every two-source integer and logic word whose unit passes its checks writes
its result in the lanes of F, and nothing else changes. R150 with R29 and R31: the words with an immediate of 11 bits,
which an IMM prefix widens. R83, R84, R205: every lane word whose sources are bound ports reads from each the next vector of its
queue in the lanes of F and pops it, a port named twice but once; an empty queue makes it wait, or take EMPTY_SOURCE with its E bit
or when the queue's record has ended. Which vector each of two ports of one queue finds, and FINFO at an empty port, are the model's
choice (log 79). -/
def Obligations.IntegerLaneWords : Prop :=
  (∀ e ∈ integerWords, ∀ (s : State) (i : Iss) (d a b : BitVec 7) (ea eb : Bool),
     LaneUnit s i { rep := some (true, true, true) } [vsrc 0 a e.2.1 ea, vsrc 1 b e.2.1 eb] [d.toNat] →
     ∃ t, exec (e.1 d a b ea eb) s = .next t ∧
       LaneEffect s t i [(d.toNat, e.2.2.1, fun l =>
           (e.2.2.2 (BitVec.ofNat 32 (laneOperand i.wv e.2.1 a.toNat l)) (BitVec.ofNat 32 (laneOperand i.wv e.2.1 b.toNat l))).toNat)]
         (readFlags i.wv i.fr.live [vsrc 0 a e.2.1 ea, vsrc 1 b e.2.1 eb])) ∧
  (∀ e ∈ immediateWords, ∀ (s : State) (i : Iss) (d a : BitVec 7) (n : BitVec 11),
     LaneUnit s i { imm := true, rep := some (true, true, false) } [vsrc 0 a e.2.1 false] [d.toNat] →
     ∃ t, exec (e.1 d a n) s = .next t ∧
       LaneEffect s t i [(d.toNat, e.2.2.1, fun l =>
           (e.2.2.2 (BitVec.ofNat 32 (laneOperand i.wv e.2.1 a.toNat l)) ((widened i.c n).setWidth 32)).toNat)]
         (readFlags i.wv i.fr.live [vsrc 0 a e.2.1 false])) ∧
  (∀ (n : Nat) (d a b : BitVec 7) (ea eb : Bool) (k2 : BitVec 2) (sh : BitVec 5) (m : BitVec 11) (s : State) (i : Iss) (e : RepSpec),
     (repSpecs d a b ea eb k2 sh m)[n]? = some e → s.iss? = some i → i.c.rep = none → e.accepts.ok i.c = true → e.legal i.wv →
     let srcs := e.srcs (i.reading (e.srcs i.wv))
     let j : Iss := { i with wv := i.reading srcs }
     (∀ x ∈ e.srcs i.wv, srcInRange i.wv x) → (∀ x ∈ e.writes i, vDst i.wv x.1 = true) →
     (∀ x ∈ e.writes j, vDst i.wv x.1 = true ∧ x.1 < i.wv.vregs.length) → e.takes j →
     s.checkAll i i.wv srcs ((e.writes j).map fun x => (false, x.1)) = .go →
     ∃ t w g, exec e.ins s = .next t ∧ t.wave? i.c.g i.c.w = some w ∧ t.group? i.c.g = some g ∧
       (∀ q, g.queue q = (i.grp.queue q).drop (i.popped srcs q)) ∧
       (∀ x ∈ e.writes j, (∀ l < 32, (w.vreg x.1).lane l =
           if i.fr.live.getLsbD l then BitVec.ofNat 32 (x.2.2 l) else (i.wv.vreg x.1).lane l) ∧
         (w.vreg x.1).tag = tagAfter i.wv.live i.fr.live (i.wv.vreg x.1).tag x.2.1) ∧
       (∀ r, (∀ x ∈ e.writes j, x.1 ≠ r) → (∀ l < 32, (w.vreg r).lane l = (j.wv.vreg r).lane l) ∧
         (i.wv.port? r = none ∨ r ∉ vregsOf srcs → w.vreg r = i.wv.vreg r)) ∧
       w.sregs = i.wv.sregs ∧ w.regs = { i.wv.regs with fpflags := i.wv.regs.fpflags ||| (e.flags j ||| readFlags j.wv i.fr.live srcs) } ∧
       i.wv.Advanced w i ∧ t.mem = s.mem ∧ (∀ h, h ≠ i.c.g → t.group? h = s.group? h) ∧
       ∀ g x, (g, x) ≠ (i.c.g, i.c.w) → t.wave? g x = s.wave? g x) ∧
  (∀ (s : State) (i : Iss) (d a : BitVec 7) (ea : Bool) (q : Nat), s.iss? = some i → i.c.imm = none → i.c.ord = none → i.c.rep = none →
     vOk i.wv a.toNat = true → vDst i.wv d.toNat = true → i.wv.port? a.toNat = some q → i.grp.queue q = [] →
     let over_ := (∀ c ∈ s.cmds, ¬(c.engine = 2 ∧ c.g = i.c.g ∧ c.op = q)) ∧
       ∀ f ∈ s.fills, ¬(f.kind = 2 ∧ f.g = i.c.g ∧ f.x = BitVec.ofNat 64 q)
     ((ea = true ∨ over_) → exec (.vgettag d a ea) s = .next (s.trap i 0x03 0 0)) ∧
     (ea = false → ¬over_ → exec (.vgettag d a ea) s = .next (s.block i (.empty false a.toNat))))

/-- R152 to R155 and R157: the FP32 words and the packed words of two sources, under the wave's RNDMODE, with the flags of
the lanes of F. R147, R150, R152, R157: the words whose third source is the old destination. R150, R158, R160: the
words of one source. -/
def Obligations.FloatLaneWords : Prop :=
  (∀ e ∈ floatWords, ∀ (s : State) (i : Iss) (d a b : BitVec 7) (ea eb : Bool),
     LaneUnit s i { rep := some (true, true, true) } [vsrc 0 a e.2.1 ea, vsrc 1 b e.2.1 eb] [d.toNat] →
     let r : Nat → Nat × FpFlags := fun l =>
       e.2.2.2 i.wv.regs.rndmode (laneOperand i.wv e.2.1 a.toNat l) (laneOperand i.wv e.2.1 b.toNat l)
     ∃ t, exec (e.1 d a b ea eb) s = .next t ∧
       LaneEffect s t i [(d.toNat, e.2.2.1, fun l => (r l).1)]
         (opFlags i.fr.live (fun l => (r l).2) ||| readFlags i.wv i.fr.live [vsrc 0 a e.2.1 ea, vsrc 1 b e.2.1 eb])) ∧
  (∀ e ∈ fusedWords, ∀ (s : State) (i : Iss) (d a b : BitVec 7) (ea eb : Bool),
     LaneUnit s i { rep := some (true, true, true) } [vsrc 0 a e.2.1 ea, vsrc 1 b e.2.1 eb, vsrc 3 d e.2.1 false] [d.toNat] →
     let r : Nat → Nat × FpFlags := fun l => e.2.2.2 i.wv.regs.rndmode (laneOperand i.wv e.2.1 a.toNat l)
       (laneOperand i.wv e.2.1 b.toNat l) (laneOperand i.wv e.2.1 d.toNat l)
     ∃ t, exec (e.1 d a b ea eb) s = .next t ∧
       LaneEffect s t i [(d.toNat, e.2.2.1, fun l => (r l).1)]
         (opFlags i.fr.live (fun l => (r l).2) |||
           readFlags i.wv i.fr.live [vsrc 0 a e.2.1 ea, vsrc 1 b e.2.1 eb, vsrc 3 d e.2.1 false])) ∧
  (∀ e ∈ unaryWords, ∀ (s : State) (i : Iss) (d a : BitVec 7) (ea : Bool),
     LaneUnit s i { rep := some (true, true, false) } [vsrc 0 a e.2.1 ea] [d.toNat] →
     let r : Nat → Nat × FpFlags := fun l => e.2.2.2 i.wv.regs.rndmode (laneOperand i.wv e.2.1 a.toNat l)
     ∃ t, exec (e.1 d a ea) s = .next t ∧
       LaneEffect s t i [(d.toNat, e.2.2.1, fun l => (r l).1)]
         (opFlags i.fr.live (fun l => (r l).2) ||| readFlags i.wv i.fr.live [vsrc 0 a e.2.1 ea]))

/-- R122, R156: the words on FP64 pairs: even registers, a result in the pair d tagged FP64L and FP64H; VDFMA's third source
is the pair d. Comparisons write one register (R155). The meaning of biased exponents and subnormal numbers is log 64. -/
def Obligations.DoubleLaneWords : Prop :=
  (∀ e ∈ doubleWords, ∀ (s : State) (i : Iss) (d a b : BitVec 7) (ea eb : Bool),
    d.toNat % 2 = 0 → a.toNat % 2 = 0 → b.toNat % 2 = 0 →
    LaneUnit s i { rep := some (true, true, true) } [vpair 0 a ea, vpair 1 b eb] [d.toNat, d.toNat + 1] →
    let r : Nat → Nat × FpFlags := fun l => e.2 i.wv.regs.rndmode (pairOperand i.wv a.toNat l) (pairOperand i.wv b.toNat l)
    ∃ t, exec (e.1 d a b ea eb) s = .next t ∧
      LaneEffect s t i [(d.toNat, tFP64L, fun l => (r l).1 % 2 ^ 32), (d.toNat + 1, tFP64H, fun l => (r l).1 / 2 ^ 32)]
        (opFlags i.fr.live (fun l => (r l).2) ||| readFlags i.wv i.fr.live [vpair 0 a ea, vpair 1 b eb])) ∧
  (∀ (s : State) (i : Iss) (d a b : BitVec 7) (ea eb : Bool),
    d.toNat % 2 = 0 → a.toNat % 2 = 0 → b.toNat % 2 = 0 →
    LaneUnit s i { rep := some (true, true, true) } [vpair 0 a ea, vpair 1 b eb, vpair 3 d false] [d.toNat, d.toNat + 1] →
    let r : Nat → Nat × FpFlags := fun l =>
      Fmt.fp64.fma i.wv.regs.rndmode (pairOperand i.wv a.toNat l) (pairOperand i.wv b.toNat l) (pairOperand i.wv d.toNat l)
    ∃ t, exec (.vdfma d a b ea eb) s = .next t ∧
      LaneEffect s t i [(d.toNat, tFP64L, fun l => (r l).1 % 2 ^ 32), (d.toNat + 1, tFP64H, fun l => (r l).1 / 2 ^ 32)]
        (opFlags i.fr.live (fun l => (r l).2) ||| readFlags i.wv i.fr.live [vpair 0 a ea, vpair 1 b eb, vpair 3 d false])) ∧
  (∀ e ∈ doubleCompares, ∀ (s : State) (i : Iss) (d a b : BitVec 7) (ea eb : Bool), a.toNat % 2 = 0 → b.toNat % 2 = 0 →
    LaneUnit s i { rep := some (true, true, true) } [vpair 0 a ea, vpair 1 b eb] [d.toNat] →
    let r : Nat → Bool × FpFlags := fun l => e.2 (pairOperand i.wv a.toNat l) (pairOperand i.wv b.toNat l)
    ∃ t, exec (e.1 d a b ea eb) s = .next t ∧
      LaneEffect s t i [(d.toNat, tI32, fun l => (allOnes32 (r l).1).toNat)]
        (opFlags i.fr.live (fun l => (r l).2) ||| readFlags i.wv i.fr.live [vpair 0 a ea, vpair 1 b eb]))

/-- R150, R166, R167, R172: VSHI, VMOVI, VSEL, VMOVS, VLANEID, VRETAG and VGETTAG. R168, R169, R172: VQSWAP, VQBCAST,
VDDX, VDDY, VSHFL, VBALLOT, VREADLANE and VMARK. R170, R171: VREDUCE gives the root of the fixed tree over the lanes
of F, and VSCAN the running value in ascending lane order, for each operation of the table, with the flags of every
step. R161 to R165: VCVT element by element within a register or pair, and VCVTS across registers in the six ways of
its table. Neither converts on read; each written register takes the target's tag. -/
def Obligations.DataLaneWords : Prop :=
  (∀ (s : State) (i : Iss) (d a b : BitVec 7) (ea eb : Bool) (k : BitVec 2) (n : BitVec 5) (m : BitVec 11) (c : BitVec 4),
     c.toNat < 15 → ∀ e ∈ moveSpecs d a b ea eb k n m c, LaneUnit s i e.accepts e.srcs [d.toNat] →
     ∃ t, exec e.ins s = .next t ∧
       LaneEffect s t i [(d.toNat, e.tag i.wv, e.value i)] (e.flags i ||| readFlags i.wv i.fr.live e.srcs)) ∧
  (∀ (s : State) (i : Iss) (d a b : BitVec 7) (ea eb : Bool) (k : BitVec 7), ∀ e ∈ exchangeSpecs d a b ea eb k,
     e.1 = true → LaneUnit s i e.2.accepts e.2.srcs [d.toNat] →
     ∃ t, exec e.2.ins s = .next t ∧
       LaneEffect s t i [(d.toNat, e.2.tag i.wv, e.2.value i)] (e.2.flags i ||| readFlags i.wv i.fr.live e.2.srcs)) ∧
  (∀ (k : Nat) (r : RedSpec), redSpecs[k]? = some r → ∀ (s : State) (i : Iss) (d a : BitVec 7) (ea : Bool),
     ∀ e ∈ reduceSpecs d a ea (BitVec.ofNat 4 k) r, LaneUnit s i e.accepts e.srcs [d.toNat] →
     ∃ t, exec e.ins s = .next t ∧
       LaneEffect s t i [(d.toNat, e.tag i.wv, e.value i)] (e.flags i ||| readFlags i.wv i.fr.live e.srcs)) ∧
  ((∀ (s : State) (i : Iss) (d a sel : BitVec 7) (ea : Bool), cvtTakes i d a sel →
     LaneUnit s i { rep := some (true, true, true) } [cvtSrc i a ea] ((cvtWrites i d a sel).map (·.1)) →
     ∃ t, exec (.vcvt d a sel ea) s = .next t ∧
       LaneEffect s t i (cvtWrites i d a sel)
         (opFlags i.fr.live fun l => elemFlags (convertedElems sel.toNat (i.wv.vreg a.toNat).tag.toNat (cvtBits i a l)))) ∧
   (∀ row ∈ packRows, ∀ (s : State) (i : Iss) (d a sel : BitVec 7) (ea : Bool), cvtTarget false sel = true →
     row.1 = (groupOfTag (i.wv.vreg a.toNat).tag.toNat, groupOfTag (sel.toNat % 16)) →
     (∀ k < row.2.1, groupOfTag (i.wv.vreg (a.toNat + k)).tag.toNat = row.1.1) →
     a.toNat + 3 < i.wv.vcount → d.toNat + 3 < i.wv.vcount →
     LaneUnit s i { rep := some (true, true, true) } ((List.range row.2.1).map fun k => ⟨0, false, a.toNat + k, 1, .bit, ea⟩)
       ((List.range row.2.2).map (d.toNat + ·)) →
     ∃ t, exec (.vcvts d a sel ea) s = .next t ∧
       LaneEffect s t i (cvtsWrites i d a sel row.2.1 row.2.2)
         (opFlags i.fr.live fun l => elemFlags (cvtsElems i a sel row.2.1 l))))

/-- R166, R167: VRETAG copies V[a] and writes the code as the tag, MIXED when the write is partial and the old tag
another; VGETTAG writes V[a]'s tag code into every lane of F with tag I32. Both wait on an empty V[a], or take
EMPTY_SOURCE when Ea is set, and their must-be-zero bits and code 15 make no instruction. -/
def Obligations.TagWords : Prop :=
  (∀ (s : State) (i : Iss) (d a : BitVec 7) (c : BitVec 4) (ea : Bool), c ≠ 15 →
    LaneUnit s i { rep := some (true, true, true) } [vsrc 0 a .bit ea] [d.toNat] →
    (∃ t, exec (.vretag d a c ea) s = .next t ∧ LaneEffect s t i [(d.toNat, c, fun l => ((i.wv.vreg a.toNat).lane l).toNat)] 0) ∧
    (∃ t, exec (.vgettag d a ea) s = .next t ∧ LaneEffect s t i [(d.toNat, tI32, fun _ => (i.wv.vreg a.toNat).tag.toNat)] 0)) ∧
  (∀ live who : LaneMask, ∀ old c : BitVec 4, tagAfter live who old c = (if live &&& ~~~who = 0 ∨ old = c then c else tMIXED)) ∧
  (∀ (s : State) (i : Iss) (d a : BitVec 7) (c : BitVec 4), c ≠ 15 → s.iss? = some i → i.c.imm = none → i.c.ord = none → i.c.rep = none →
    vOk i.wv a.toNat = true → vDst i.wv d.toNat = true → i.wv.port? a.toNat = none → (i.wv.vreg a.toNat).pend ≠ 0 →
    let info := BitVec.ofNat 64 ((i.wv.vreg a.toNat).pend.toNat * 2 ^ 32)
    ∀ w, w = (fun ea => Instr.vretag d a c ea) ∨ w = (fun ea => Instr.vgettag d a ea) →
      exec (w false) s = .next (s.block i (.empty false a.toNat)) ∧ exec (w true) s = .next (s.trap i 0x03 0 info)) ∧
  (∀ w : Word, w.extractLsb' 25 7 = 0x16 → w.extractLsb' 0 2 = 2 → (w.extractLsb' 8 3 ≠ 0 ∨ w.extractLsb' 2 1 ≠ 0 →
      decodeWord w.toNat = .error .mustBeZero) ∧
    (w.extractLsb' 8 3 = 0 → w.extractLsb' 2 1 = 0 → w.extractLsb' 4 4 = 15 → decodeWord w.toNat = .error .constant)) ∧
  (∀ w : Word, w.extractLsb' 25 7 = 0x16 → w.extractLsb' 0 2 = 3 → (w.extractLsb' 4 7 ≠ 0 ∨ w.extractLsb' 2 1 ≠ 0) →
      decodeWord w.toNat = .error .mustBeZero)

/-- R173, R174: the integer and logic words of two S registers, once for the fragment; a destination of S0 discards the
result and the flags (R27). R173, R174, R155: SFADD, SFMUL, SFCLT and SFFMA, whose third source is the old S[d]. R173
with R29 and R31: SADDI, SANDI and SORI with an immediate of 11 bits, and SMOVI with one of 18. R173: SSEL, SCLZ, SPOPC
and SSHI. The meaning of biased exponents and subnormal numbers is log 64. -/
def Obligations.UniformWords : Prop :=
  (∀ e ∈ uniformWords, ∀ (s : State) (i : Iss) (d a b : BitVec 7),
     UniformUnit s i {} [usrc 0 a e.2.1, usrc 1 b e.2.1] d.toNat →
     exec (e.1 d a b) s = .next (uniformEffect s i d.toNat e.2.2.1
       (e.2.2.2 (BitVec.ofNat 64 (uniformOperand i.wv e.2.1 a.toNat)) (BitVec.ofNat 64 (uniformOperand i.wv e.2.1 b.toNat))).toNat
       (uniformFlags i.wv [usrc 0 a e.2.1, usrc 1 b e.2.1]))) ∧
  ((∀ e ∈ uniformFloatWords, ∀ (s : State) (i : Iss) (d a b : BitVec 7),
     UniformUnit s i {} [usrc 0 a .fp64, usrc 1 b .fp64] d.toNat →
     let r := e.2.2 i.wv.regs.rndmode (uniformOperand i.wv .fp64 a.toNat) (uniformOperand i.wv .fp64 b.toNat)
     exec (e.1 d a b) s = .next (uniformEffect s i d.toNat e.2.1 r.1 (r.2 ||| uniformFlags i.wv [usrc 0 a .fp64, usrc 1 b .fp64]))) ∧
   (∀ (s : State) (i : Iss) (d a b : BitVec 7),
     UniformUnit s i {} [usrc 0 a .fp64, usrc 1 b .fp64, usrc 3 d .fp64] d.toNat →
     let r := Fmt.fp64.fma i.wv.regs.rndmode (uniformOperand i.wv .fp64 a.toNat) (uniformOperand i.wv .fp64 b.toNat)
       (uniformOperand i.wv .fp64 d.toNat)
     exec (.sffma d a b) s = .next (uniformEffect s i d.toNat tFP64H r.1
       (r.2 ||| uniformFlags i.wv [usrc 0 a .fp64, usrc 1 b .fp64, usrc 3 d .fp64])))) ∧
  ((∀ e ∈ uniformImmediateWords, ∀ (s : State) (i : Iss) (d a : BitVec 7) (n : BitVec 11),
     UniformUnit s i { imm := true } [usrc 0 a e.2.1] d.toNat →
     exec (e.1 d a n) s = .next (uniformEffect s i d.toNat e.2.2.1
       (e.2.2.2 (BitVec.ofNat 64 (uniformOperand i.wv e.2.1 a.toNat)) (widened i.c n)).toNat
       (uniformFlags i.wv [usrc 0 a e.2.1]))) ∧
   (∀ (s : State) (i : Iss) (d : BitVec 7) (n : BitVec 18), UniformUnit s i { imm := true } [] d.toNat →
     exec (.smovi d n) s = .next (uniformEffect s i d.toNat tI64 (widened i.c n).toNat 0))) ∧
  (∀ (s : State) (i : Iss) (d a b : BitVec 7) (k : BitVec 2) (n : BitVec 6),
     (UniformUnit s i {} [usrc 0 a .bit, usrc 1 b .bit, usrc 3 d .bit] d.toNat →
       let x := (i.wv.sreg a.toNat).val
       let y := (i.wv.sreg b.toNat).val
       let z := (i.wv.sreg d.toNat).val
       exec (.ssel d a b) s = .next (uniformEffect s i d.toNat
         (if (i.wv.sreg a.toNat).tag = (i.wv.sreg b.toNat).tag then (i.wv.sreg a.toNat).tag else tRAW)
         ((x &&& z) ||| (y &&& ~~~z)).toNat 0)) ∧
     (UniformUnit s i {} [usrc 0 a .bit] d.toNat →
       let x := (i.wv.sreg a.toNat).val
       exec (.sclz d a) s = .next (uniformEffect s i d.toNat tI64 (if x = 0 then 64 else 63 - Nat.log2 x.toNat) 0) ∧
       exec (.spopc d a) s = .next (uniformEffect s i d.toNat tI64 ((List.range 64).filter fun j => x.getLsbD j).length 0) ∧
       exec (.sshi d a k n) s = .next (uniformEffect s i d.toNat tRAW (match k.toNat with
         | 0 => x <<< n.toNat
         | 1 => x >>> n.toNat
         | 2 => x.sshiftRight n.toNat
         | _ => x.rotateLeft n.toNat : DWord).toNat 0)))

/-! ## Control, fragments and traps -/

/-- R91, R92, R93: the lanes whose condition holds go to the target with the word's priority, the others to the next unit
with theirs. VBNZ and VBZ test all 32 bits of each lane, SBNZ and SBZ the 64 bits of S[a] once. R61: where the parts
of a fragment's lanes go, every lane of a part stands at the part's PC with its priority, every lane outside the
fragment stays where it was, the wave's fragments stay apart, and its registers, frames and ports do not change. -/
def Obligations.BranchWords : Prop :=
  (∀ (s : State) (i : Iss) (a : BitVec 7) (p : BitVec 4) (o : BitVec 14) (z : Bool),
     (WordUnit s i { imm := true } false [vsrc 0 a .bit false] [] → vOk i.wv a.toNat = true → noPorts i.wv [vsrc 0 a .bit false] →
       let taken := laneFilter i.fr.live fun l => decide (bitsOf i.wv a l = 0) == z
       exec (if z then .vbz a p o else .vbnz a p o) s = .next (
         if i.target o = i.c.pc + 4 ∧ p = i.fr.prio then s.retire i
         else s.splitUnit i [(taken, p, i.target o, false), (i.fr.live &&& ~~~taken, i.fr.prio, i.c.pc + 4, false)])) ∧
     (WordUnit s i { imm := true } false [usrc 0 a .bit] [] → sOk i.wv a.toNat = true →
       exec (if z then .sbz a p o else .sbnz a p o) s = .next (
         if decide ((i.wv.sreg a.toNat).val = 0) = z then s.splitUnit i [(i.fr.live, p, i.target o, false)] else s.retire i))) ∧
  (∀ (v : Wave) (f : Frag) (parts : List (LaneMask × BitVec 4 × DWord × Bool)), v.Apart → f ∈ v.frags →
     (∀ q ∈ parts, q.1 ≠ 0) → parts.Pairwise (fun x y => x.1 &&& y.1 = 0) → parts.foldl (fun m q => m ||| q.1) 0 = f.live →
     (∀ q ∈ parts, ∀ l < 32, q.1.getLsbD l = true → (v.split f parts).placeOf l = some (q.2.2.1, q.2.1)) ∧
     (∀ l < 32, f.live.getLsbD l = false → (v.split f parts).placeOf l = v.placeOf l) ∧
     (v.split f parts).Apart ∧ v.split f parts = { v with frags := (v.split f parts).frags })

/-- R95, R96: jumps through a register, per lane or uniform, with their links; a target that is not a multiple of 4 takes
MISALIGNED, moves no lane and writes no link. Where lanes’ targets differ, FADDR is that of the lowest misaligned lane
(the model’s choice, log 72). -/
def Obligations.JumpWords : Prop :=
  (∀ (s : State) (i : Iss) (a d : BitVec 7) (ea link : Bool),
    let tgt : Nat → DWord := fun l => (i.wv.vreg (a.toNat + 1)).lane l ++ (i.wv.vreg a.toNat).lane l
    let ts : List DWord := (lanesOf i.fr.live).foldl (fun acc l => insTarget (tgt l) acc) []
    let src : Src := ⟨0, false, a.toNat, 2, .bit, ea⟩
    let dsts : List (Bool × Nat) := if link then [(false, d.toNat), (false, d.toNat + 1)] else []
    WordUnit s i {} false [src] dsts → a.toNat % 2 = 0 → vOk i.wv (a.toNat + 1) = true →
    (link = true → d.toNat % 2 = 0 ∧ vDst i.wv d.toNat = true ∧ vDst i.wv (d.toNat + 1) = true) → noPorts i.wv [src] →
    (∀ l < 32, i.fr.live.getLsbD l = true → (tgt l).toNat % 4 ≠ 0 →
      (∀ k < l, i.fr.live.getLsbD k = true → (tgt k).toNat % 4 = 0) →
      exec (if link then .vjalr d a ea else .vjr a ea) s = .next
        (s.trap i 0x08 (tgt l) ((laneFilter i.fr.live fun l => (tgt l).toNat % 4 != 0).setWidth 64))) ∧
    ((∀ l < 32, i.fr.live.getLsbD l = true → (tgt l).toNat % 4 = 0) →
    exec (if link then .vjalr d a ea else .vjr a ea) s = .next (
      (if link then s.updCur i fun w =>
          (w.writeV d.toNat i.fr.live tADDR (List.replicate 32 ((i.c.pc + 4).setWidth 32))).writeV (d.toNat + 1) i.fr.live tADDR
            (List.replicate 32 (((i.c.pc + 4) >>> 32).setWidth 32))
        else s).splitUnit i (ts.map fun t => (laneFilter i.fr.live fun l => tgt l == t, i.fr.prio, t, false))))) ∧
  (∀ (s : State) (i : Iss) (d : BitVec 7) (n : BitVec 18), WordUnit s i { imm := true } false [] [(true, d.toNat)] →
    sOk i.wv d.toNat = true →
    exec (.scall d n) s = .next ((s.updCur i fun w => w.setS d.toNat (i.c.pc + 4) tADDR).splitUnit i
      [(i.fr.live, i.fr.prio, i.target n, false)])) ∧
  (∀ (s : State) (i : Iss) (d a : BitVec 7), WordUnit s i {} false [usrc 0 a .bit] [(true, d.toNat)] →
    sOk i.wv d.toNat = true → sOk i.wv a.toNat = true →
    let t := (i.wv.sreg a.toNat).val
    exec (.sjr d a) s = .next (if t.toNat % 4 = 0
      then (s.updCur i fun w => w.setS d.toNat (i.c.pc + 4) tADDR).splitUnit i [(i.fr.live, i.fr.prio, t, false)]
      else s.trap i 0x08 t (i.fr.live.setWidth 64)))

/-- R99, R101, R403: SYIELD passes the next opportunity on, within the wave and among the waves of its pipe, SFRAG and SLIVE
write the fragment's view of the frontier, SNOP only goes on. R66, R100: SCONV waits while a live lane is elsewhere;
when every live lane waits at one SCONV word they merge into one fragment with the lowest id and the highest priority,
which goes on; at two or more words each of the fragments takes ILLEGAL_CONVERGENCE. R97, R320: VEXIT and SEXIT end
every lane of the fragment; a lane that holds a section key makes the fragment take ILLEGAL_CONVERGENCE instead, with
the innermost key of the lowest such lane. Bits [1:0] of TVEC play no part (the model’s choice, log 66). -/
def Obligations.FragmentWords : Prop :=
  ((∀ (s : State) (i : Iss), WordUnit s i {} false [] [] →
     exec .snop s = .next (s.retire i) ∧
     exec .syield s = .next ((s.updCur i fun w => { w with yielded := some i.c.f, gives := true }).retire i)) ∧
   (∀ (s : State) (i : Iss) (d : BitVec 7), WordUnit s i {} false [] [(true, d.toNat)] → sOk i.wv d.toNat = true →
     exec (.sfrag d) s = .next ((s.updCur i fun w => w.setS d.toNat (i.fr.sib ++ i.fr.live : BitVec 64) tRAW).retire i) ∧
     exec (.slive d) s = .next ((s.updCur i fun w => w.setS d.toNat
       ((0 : BitVec 4) ++ i.fr.prio ++ BitVec.ofNat 8 i.fr.parent ++ BitVec.ofNat 8 i.fr.id ++ (0 : BitVec 2) ++
         BitVec.ofNat 6 i.wv.frags.length ++ i.wv.live : BitVec 64) tRAW).retire i))) ∧
  (∀ (s : State) (i : Iss), WordUnit s i {} false [] [] → i.c.unitPc = i.c.pc → i.wv.Apart →
     ((∃ f ∈ i.wv.frags, f.id ≠ i.fr.id ∧ f.wait ≠ some .sconv) → exec .sconv s = .next (s.block i .sconv)) ∧
     ((∀ f ∈ i.wv.frags, f.id ≠ i.fr.id → f.wait = some .sconv ∧ f.pc = i.c.pc) →
       ∃ t v f, exec .sconv s = .next t ∧ t.wave? i.c.g i.c.w = some v ∧ v = { i.wv with frags := [f], units := v.units } ∧
         f.live = i.wv.live ∧ f.pc = i.c.pc + 4 ∧ f.wait = none ∧ (∀ x ∈ i.wv.frags, f.id ≤ x.id ∧ x.prio ≤ f.prio) ∧
         (∃ x ∈ i.wv.frags, x.id = f.id) ∧ (∃ x ∈ i.wv.frags, x.prio = f.prio) ∧ t.mem = s.mem ∧ t.cur = none) ∧
     ((∀ f ∈ i.wv.frags, f.id ≠ i.fr.id → f.wait = some .sconv) → (∃ f ∈ i.wv.frags, f.id ≠ i.fr.id ∧ f.pc ≠ i.c.pc) →
       i.wv.regs.tvec ≠ 0 → (∀ f ∈ i.wv.frags, f.frame = none) →
       ∃ t v, exec .sconv s = .next t ∧ t.wave? i.c.g i.c.w = some v ∧
         (∀ x ∈ i.wv.frags, ∃ y ∈ v.frags, ∃ fm ∈ v.frames, y.id = x.id ∧ y.live = x.live ∧ y.pc = trapEntry i.wv.regs.tvec ∧ y.prio = 15 ∧
           y.frame = some fm.slot ∧ fm.cause = 0x05 ∧ fm.faddr = 0 ∧ fm.finfo = x.live.setWidth 64 ∧
           fm.fpc = if x.id = i.fr.id then i.c.pc else x.pc))) ∧
  (∀ (s : State) (i : Iss) (w : Instr), w = .vexit ∨ w = .sexit → WordUnit s i {} false [] [] →
     ((∀ h ∈ i.wv.held, i.fr.live.getLsbD h.lane = false) →
       ∃ t, exec w s = .next t ∧
         ((∃ f ∈ i.wv.frags, f.id ≠ i.c.f ∧ f.wait ≠ some .sconv) →
           t = { s with
             cur := none
             waves := s.waves.map fun x => if x.g == i.c.g && x.w == i.c.w then
               { x with
                 units := x.units + 1
                 frags := x.frags.filter fun f => f.id != i.c.f
                 frames := x.frames.filter fun y => (x.frags.filter fun f => f.id != i.c.f).any fun f => f.frame == some y.slot }
               else x }) ∧
         ((∀ f ∈ i.wv.frags, f.id = i.c.f) → t.cur = none ∧
           ((∀ v ∈ s.waves, ∀ f ∈ v.frags, ∀ n, f.wait ≠ some (.gridbar n)) → t.mem = s.mem) ∧
           ∃ v, t.wave? i.c.g i.c.w = some v ∧ v.frags = [] ∧ v.vregs = i.wv.vregs)) ∧
     (∀ l < 32, i.fr.live.getLsbD l = true → (∃ h ∈ i.wv.held, h.lane = l) →
       (∀ k < l, i.fr.live.getLsbD k = true → ∀ h ∈ i.wv.held, h.lane ≠ k) →
       ∀ h, (i.wv.held.reverse.find? fun x => x.lane == l) = some h →
       exec w s = .next (s.trap i 0x05 h.key (BitVec.ofNat 64 (1 * 2 ^ 32 + (i.wv.holders i.fr.live).toNat)))))

/-- R98, R400, R402: the trap words raise their causes: VTRAP for the lanes with a nonzero operand, which split off when
they are only some, TRAP and EBREAK for every lane of F. Bits [1:0] of TVEC play no part (the model’s choice, log 66). -/
def Obligations.TrapWords : Prop :=
  (∀ (s : State) (i : Iss) (a : BitVec 7), WordUnit s i {} false [usrc 0 a .bit] [] → sOk i.wv a.toNat = true →
    exec (.trap a) s = .next (s.trap i 0x0B 0 ((i.wv.sreg a.toNat).val.setWidth 32 ++ i.fr.live : BitVec 64))) ∧
  (∀ (s : State) (i : Iss), WordUnit s i {} false [] [] → exec .ebreak s = .next (s.trap i 0x0C 0 0)) ∧
  (∀ (s : State) (i : Iss) (a : BitVec 7) (ea : Bool), WordUnit s i {} false [vsrc 0 a .bit ea] [] → vOk i.wv a.toNat = true →
    noPorts i.wv [vsrc 0 a .bit ea] →
    let hit := laneFilter i.fr.live fun l => bitsOf i.wv a l != 0
    (hit = 0 → exec (.vtrap a ea) s = .next (s.retire i)) ∧
    (hit ≠ 0 → hit = i.fr.live → exec (.vtrap a ea) s = .next (s.trap i 0x0B 0 (hit.setWidth 64))) ∧
    (hit ≠ 0 → hit ≠ i.fr.live → i.wv.regs.tvec ≠ 0 → i.fr.frame = none → i.wv.Apart →
      ∃ t v x y fm, exec (.vtrap a ea) s = .next t ∧ t.wave? i.c.g i.c.w = some v ∧ x ∈ v.frags ∧ y ∈ v.frags ∧ fm ∈ v.frames ∧
        x.live = hit ∧ x.pc = trapEntry i.wv.regs.tvec ∧ x.prio = 15 ∧ x.parent = i.fr.id ∧ x.frame = some fm.slot ∧
        y.live = i.fr.live &&& ~~~hit ∧ y.pc = i.c.pc + 4 ∧ y.prio = i.fr.prio ∧ y.parent = i.fr.id ∧ y.frame = none ∧
        fm.cause = 0x0B ∧ fm.faddr = 0 ∧ fm.fpc = i.c.unitPc ∧ fm.finfo = hit.setWidth 64 ∧ fm.fid = x.id ∧ fm.fparent = i.fr.id ∧
        fm.fsib = i.fr.live &&& ~~~hit ∧ v.vregs = i.wv.vregs ∧ v.sregs = i.wv.sregs ∧ t.mem = s.mem))

/-- R395: a fragment outside handler mode, with TVEC set, takes a local trap: its values go into a free frame of the wave,
its lanes to TVEC at priority 15, and nothing else of the machine changes; bits [1:0] of TVEC play no part (the model's
choice, log 66). R35, R395: a trap amid a repeated unit, or one of whose lanes some records have been sent, keeps the number of the
repetition and the lane in the frame. R397, R409: with TVEC zero, or in handler mode, a local trap stops the context with ESCALATED:
the cause record names the core, and keeps the local cause as its origin, its FADDR and FINFO, the lanes of the fragment and the
unit's PC. -/
def Obligations.TrapEntry : Prop :=
  (∀ (s : State) (i : Iss) (cause : Nat) (faddr finfo : DWord), s.iss? = some i → i.fr.frame = none → i.wv.regs.tvec ≠ 0 →
     i.wv.frames.length < 64 →
     ∃ slot, slot < 64 ∧ (∀ fm ∈ i.wv.frames, fm.slot ≠ slot) ∧
       (s.trap i cause faddr finfo).wave? i.c.g i.c.w = some { i.wv with
         frames := i.wv.frames ++ [{ slot := slot, cause := BitVec.ofNat 8 cause, faddr := faddr, fpc := i.c.unitPc, unit := i.c.unitPc
                                     fid := i.fr.id, fparent := i.fr.parent, fsib := i.fr.sib, finfo := finfo, prio := i.fr.prio
                                     rep := none, fwd := i.fr.fwdLane, lanes := i.fr.live }]
         frags := i.wv.frags.map fun x => if x.id == i.c.f then
           { x with pc := trapEntry i.wv.regs.tvec, prio := 15, wait := none, frame := some slot, repNext := none, fwdLane := none } else x } ∧
       s.trap i cause faddr finfo = { s with waves := (s.trap i cause faddr finfo).waves, cur := none } ∧
       ∀ g w, (g, w) ≠ (i.c.g, i.c.w) → (s.trap i cause faddr finfo).wave? g w = s.wave? g w) ∧
  (∀ (s : State) (i : Iss) (cause : Nat) (faddr finfo : DWord) (c : Ctx), s.iss? = some i →
     (i.wv.regs.tvec = 0 ∨ i.fr.frame.isSome = true) → s.ctx? i.grp.ctx = some c → c.phase = .running →
     (∃ c', (s.trap i cause faddr finfo).ctx? i.grp.ctx = some c' ∧ c'.phase = .stopping ∧ c'.cause = 0x25) ∧
     ∀ rep, s.trapFrag i i.fr cause faddr finfo rep =
       ((s.updCurFrag i fun f => { f with pc := i.c.unitPc, repNext := rep }).endUnit).raiseStop i.grp.ctx (some i.ln.id)
         { cause := 0x25, engine := 8, unit := i.grp.core, addr := faddr, detail := finfo, orig := cause
           group := s.saveSlot i.c.g, done := 0, total := i.fr.live.setWidth 64, pc := i.c.unitPc }) ∧
  (∀ (s : State) (i : Iss) (cause : Nat) (faddr finfo : DWord) (rep : Option Nat), s.iss? = some i → i.fr.frame = none →
     i.wv.regs.tvec ≠ 0 → i.wv.frames.length < 64 →
     ∃ v fm, (s.trapFrag i i.fr cause faddr finfo rep).wave? i.c.g i.c.w = some v ∧ v.frames = i.wv.frames ++ [fm] ∧
       fm.rep = rep ∧ fm.fwd = i.fr.fwdLane ∧ fm.fpc = i.c.unitPc ∧ fm.unit = i.c.unitPc ∧ fm.lanes = i.fr.live ∧
       (∃ f, v.frag? i.c.f = some f ∧ f.frame = some fm.slot ∧ f.repNext = none ∧ f.fwdLane = none ∧ f.fwdSrc = i.fr.fwdSrc))

/-- R401: RETT outside a handler takes ILLEGAL_WORD, with FPC not a multiple of 4 MISALIGNED; otherwise it restores FPC
and the priority, resumes the saved repetition when FPC is the trapped unit, and frees the frame once no fragment is
bound to it. -/
def Obligations.ReturnWord : Prop :=
  ∀ (s : State) (i : Iss), WordUnit s i {} false [] [] →
    (i.fr.frame = none → exec .rett s = .next (s.illegal i)) ∧
    (∀ fm n, i.fr.frame = some n → (i.wv.frames.find? fun f => f.slot == n) = some fm →
      (fm.fpc.toNat % 4 ≠ 0 → exec .rett s = .next (s.trap i 0x08 fm.fpc (i.fr.live.setWidth 64))) ∧
      (fm.fpc.toNat % 4 = 0 → ∃ t v, exec .rett s = .next t ∧ t.wave? i.c.g i.c.w = some v ∧
        v.frags = i.wv.frags.map (fun x => if x.id == i.fr.id then
          { x with pc := fm.fpc, prio := fm.prio, frame := none, wait := none
                   repNext := if fm.fpc = fm.unit then fm.rep else none
                   fwdLane := if fm.fpc = fm.unit then fm.fwd else none } else x) ∧
        (∀ y, y ∈ v.frames ↔ y ∈ i.wv.frames ∧ (y.slot = n → ∃ x ∈ v.frags, x.frame = some n)) ∧
        v = { i.wv with frags := v.frags, frames := v.frames } ∧ t = { s with waves := t.waves, cur := none }))

/-- R114, R115, R116, R396: SGET puts a system register into S[d], full, with tag RAW; of CYCLE the cycle count since the
partition was created, which a DET context records; of HBEAT it leaves S[d] empty until the next tick. R114, R116, R202,
R396: SSET writes the fields of a system register; read-only registers keep their value, and MSTAT clears the bits 31
and 30 that S[a] holds as ones. R39, R114: a number from 0x100 to 0x1FF is PRIVILEGED from a user wave; one that names
no register is ILLEGAL_WORD. R374: a wave of a service group reads and writes the kernel-mode registers for the
partition and the context that it serves. When a read of HBEAT fills is log 63, and what a recording takes of it log 60. -/
def Obligations.SystemWords : Prop :=
  (∀ (s : State) (i : Iss) (d : BitVec 7) (n : BitVec 11), WordUnit s i {} false [] [(true, d.toNat)] → sOk i.wv d.toNat = true →
     (∀ x, (n.toNat, x) ∈ sysTable s i →
       exec (.sget d n) s = .next ((s.updCur i fun w => w.setS d.toNat x tRAW).retire i)) ∧
     (n = 0x011 → i.ln.det = false → ∀ p, s.partOf i.grp.ctx = some p →
       exec (.sget d n) s = .next ((s.updCur i fun w => w.setS d.toNat (BitVec.ofNat 64 p.cycle) tRAW).retire i)) ∧
     (n = 0x011 → ∀ p, s.partOf i.grp.ctx = some p →
       let r := s.detInput i.ln.id 5 (detWhere i.grp i.wv.w 0) (BitVec.ofNat 64 p.cycle) []
       exec (.sget d n) s = .next ((r.1.updCur i fun w => w.setS d.toNat r.2.1 tRAW).retire i)) ∧
     (n = 0x010 → ∃ t f, exec (.sget d n) s = .next t ∧ t.fills = s.fills ++ [f] ∧ f.kind = 4 ∧ f.g = i.c.g ∧ f.w = i.c.w ∧
       f.s = d.toNat ∧ ∀ v, t.wave? i.c.g i.c.w = some v → d.toNat < i.wv.sregs.length → d.toNat ≠ 0 →
         (v.sreg d.toNat).full = false)) ∧
  (∀ (s : State) (i : Iss) (a : BitVec 7) (n : BitVec 11), WordUnit s i {} false [usrc 0 a .bit] [] → sOk i.wv a.toNat = true →
     let x := (i.wv.sreg a.toNat).val
     (∀ f, (n.toNat, f) ∈ sysWrites i x → exec (.sset a n) s = .next ((s.updCur i f).retire i)) ∧
     (n.toNat ∈ sysReadOnly → exec (.sset a n) s = .next (s.retire i)) ∧
     (n = 0x042 → exec (.sset a n) s = .next ((s.updGroup i.c.g fun g =>
       { g with mstat := g.mstat &&& ~~~(x.setWidth 32 &&& 0xC0000000) }).retire i))) ∧
  (∀ (s : State) (i : Iss) (r : BitVec 7) (n : BitVec 11), s.iss? = some i → i.c.imm = none → i.c.ord = none → i.c.rep = none →
     sOk i.wv r.toNat = true →
     (0x100 ≤ n.toNat → n.toNat ≤ 0x1FF → i.grp.kernel = false →
       exec (.sget r n) s = .next (s.trap i 0x02 0 (n.setWidth 64)) ∧ exec (.sset r n) s = .next (s.trap i 0x02 0 (n.setWidth 64))) ∧
     ((n.toNat < 0x100 ∨ 0x1FF < n.toNat) → n ≠ 0x010 → n ≠ 0x011 → (∀ x, (n.toNat, x) ∉ sysTable s i) →
       exec (.sget r n) s = .next (s.illegal i) ∧ exec (.sset r n) s = .next (s.illegal i)) ∧
     (0x100 ≤ n.toNat → n.toNat ≤ 0x1FF → i.grp.kernel = true → (i.wv.sreg r.toNat).full = true →
       (∀ x, s.kernelRead i.grp n.toNat = some x →
         exec (.sget r n) s = .next ((s.updCur i fun w => w.setS r.toNat x tRAW).retire i) ∧
         exec (.sset r n) s = .next ((s.kernelWrite i.grp i.c.w n.toNat (i.wv.sreg r.toNat).val).retire i)) ∧
       (s.kernelRead i.grp n.toNat = none →
         exec (.sget r n) s = .next (s.illegal i) ∧ exec (.sset r n) s = .next (s.illegal i))))

/-! ## Memory, atomics, barriers -/

/-- R267, R269, R274, R277: VLD and SLD whose accesses pass every check file one request: each lane's address, its
destinations empty until the bytes land, and the unit goes on. R137, R274: filing a request adds it to those in flight,
with an event for each lane that reaches memory, marks its V destinations empty for its lanes or its S destination
empty, and changes no byte of memory, no other register and no other wave. R269, R270: the order of the checks of a
load, a store and an atomic: a misaligned lane takes MISALIGNED before any other check is made, with the lowest such
lane's address and the mask of such lanes; an address of VST below STKLIM on base S31 then takes STACK_LIMIT. That each
check is made for every lane before any lane has an effect is log 24 (DESIGN CHOICE), what a word waits for log 22, and
how entries of R85’s table are counted log 21 (both DEDUCED). -/
def Obligations.LoadWords : Prop :=
  ((∀ e ∈ loadForms, ∀ (s : State) (i : Iss) (d a : BitVec 7) (sr : BitVec 5) (k : BitVec 2) (u : State) (ts : List (Nat × DWord × Tgt)),
     MemUnit s i { imm := true, ord := [0, 1] } (vmSrcs a.toNat sr.toNat) (regSpan d.toNat e.2.2.2)
       (s.accessWait i.c.g i.c.w (i.c.order.getLsbD 0) false) →
     vmLegal i d.toNat a.toNat sr.toNat e.2.2.2 true = true →
     Access s i .load false e.2.1 (vmAddresses i a sr k) u ts → s.missOk i.grp.core i.c.g i.c.w = true →
     exec (.vld d a sr k e.1) s = .next (((u.missTake i).fileReq i (.load e.2.1 e.2.2.1 (i.c.order.getLsbD 0)) false d.toNat
       e.2.2.2 0 .load i.fr.live ts (fun _ => none) 0).retire i)) ∧
   (∀ e ∈ smLoadForms, ∀ (s : State) (i : Iss) (d a : BitVec 7) (m : BitVec 8) (u : State) (ts : List (Nat × DWord × Tgt)),
     MemUnit s i { imm := true, ord := [0, 1] } [usrc 0 a .bit] [(true, d.toNat)]
       (s.accessWait i.c.g i.c.w (i.c.order.getLsbD 0) false) →
     smLegal i d.toNat a.toNat m.toNat = true →
     Access s i .load false e.2.1 [(0, smAddress i a m e.2.1)] u ts → s.missOk i.grp.core i.c.g i.c.w = true →
     exec (.sld d a m e.1) s = .next (((u.missTake i).fileReq i (.load e.2.1 e.2.2 (i.c.order.getLsbD 0)) true d.toNat
       1 0 .load 1 ts (fun _ => none) 0).retire i))) ∧
  (∀ (s : State) (i : Iss) (kind : ReqKind) (isS : Bool) (d span : Nat) (tag : BitVec 4) (acc : Acc) (who : LaneMask)
     (ts : List (Nat × DWord × Tgt)) (taken : Nat → Option (List Byte)) (what : Instr) (rt : Nat) (v : Wave),
     s.wave? i.c.g i.c.w = some v → kind.event false = some what → (∀ x ∈ ts, ∃ pa, x.2.2 = .mem pa) → (ts.map (·.1)).Nodup → (∀ x ∈ ts, x.1 < 32) →
     let t := s.fileReq i kind isS d span tag acc who ts taken rt
     (∃ r, t.reqs = s.reqs ++ [r] ∧ r.kind = kind ∧ r.g = i.c.g ∧ r.w = i.c.w ∧ r.core = i.grp.core ∧ r.ctx = i.grp.ctx ∧ r.isS = isS ∧
       r.dst = d ∧ r.span = span ∧ r.tag = tag ∧ r.who = who ∧ r.lanes = who ∧ r.rt = rt ∧
       (∀ x ∈ ts, r.va[x.1]? = some x.2.1 ∧ ∃ pa, x.2.2 = .mem pa ∧ r.pa[x.1]? = some (some pa)) ∧
       t.agenda = s.agenda ++ ts.map fun x => ⟨what, { a := r.id, b := x.1 }⟩) ∧
     (∃ v', t.wave? i.c.g i.c.w = some v' ∧ v'.regs = v.regs ∧ v'.frags = v.frags ∧
       (if isS then v'.vregs = v.vregs ∧ ∀ n, n ≠ d → v'.sreg n = v.sreg n
        else v'.sregs = v.sregs ∧ (∀ n, n < d ∨ d + span ≤ n → v'.vreg n = v.vreg n) ∧
         ∀ n, d ≤ n → n < d + span → n < v.vregs.length → v'.vreg n = { v.vreg n with pend := who })) ∧
     t.mem = s.mem ∧ t.l1 = s.l1 ∧ t.owners = s.owners ∧ ∀ g w, (g, w) ≠ (i.c.g, i.c.w) → t.wave? g w = s.wave? g w) ∧
  (∀ (s : State) (i : Iss) (acc : Acc) (stack : Bool) (n : Nat) (las : List (Nat × DWord)), (las.map (·.1)).Nodup →
     (∀ pre l va post, las = pre ++ (l, va) :: post → va.toNat % n ≠ 0 → (∀ x ∈ pre, x.2.toNat % n = 0) →
       s.memFault i acc stack n las = some (.trap s 0x08 va
         (if i.c.word.getLsbD 31 then i.fr.live.setWidth 64 else BitVec.ofNat 64 (las.foldl (fun m x => if x.2.toNat % n ≠ 0 then m + 2 ^ x.1 else m) 0)))) ∧
     (∀ pre l va post, las = pre ++ (l, va) :: post → (∀ x ∈ las, x.2.toNat % n = 0) → stack = true → i.wv.regs.stklim ≠ 0 →
       va < i.wv.regs.stklim → (∀ x ∈ pre, i.wv.regs.stklim ≤ x.2) →
       s.memFault i acc stack n las = some (.trap s 0x07 va
         (if i.c.word.getLsbD 31 then i.fr.live.setWidth 64 else BitVec.ofNat 64 (las.foldl (fun m x => if x.2 < i.wv.regs.stklim then m + 2 ^ x.1 else m) 0)))))

/-- R275: the .shaped forms of VLD and VLDP: the element of each lane's coordinates, a lane outside the shape delivering
zeros; an unusable shape takes TAG_MISMATCH. VLD reads memory and VLDP of SPACE 2 a peer's scratchpad by a request,
whose destinations are empty until the lanes land; VLDP of SPACE 1 reads the own scratchpad at once. R124, R125: an
element of a PL8 shape is put together from its planes' bytes, most significant first. The TAG_MISMATCH word is log 8.
What a word waits for is log 22, and the bytes of a scratchpad that nothing has written are log 6. -/
def Obligations.ShapedLoads : Prop :=
  ∀ (s : State) (i : Iss) (d a : BitVec 7) (sr : BitVec 5),
    let r := s.shapeOf i.grp.ctx ((i.wv.sreg sr.toNat).val.toNat % 256)
    let co := fun l => shapedCoord i.c i.wv a.toNat sr.toNat l
    let acq := i.c.order.getLsbD 0
    let n := fmtBytes r.fmt
    let span := if r.fmt = 3 then 2 else 1
    let ins := (lanesOf i.fr.live).filter fun l => r.inside (co l)
    let wait := s.accessWait i.c.g i.c.w acq false
    -- a PL8 element: its plane bytes' addresses, most significant first, and its value q × 2^(8 − k) in 32 bits (R124, R125)
    let planes := fun (l : Nat) (f : Int → DWord) => (List.range r.prec).map fun j => (l, f (r.planeAt (r.plIndex (co l)) (7 - j)).1)
    let plane8 := fun (l : Nat) (bs : List Nat) => leBytes 4 (ofIntBits 32 (toIntBits bs.length
      (bs.foldl (fun n x => 2 * n + x / 2 ^ (r.plIndex (co l) % 8) % 2) 0) * 2 ^ (8 - bs.length)))
    vmLegal i d.toNat a.toNat sr.toNat 1 true = true → (r.fmt = 3 → d.toNat % 2 = 0 ∧ vDst i.wv (d.toNat + 1) = true) →
    (MemUnit s i { imm := true, ord := [0, 1] } (vmSrcs a.toNat sr.toNat) [] wait →
      (shapedOk r false = false → exec (.vld d a sr 0 7) s = .next (s.trap i 0x04 0 (tagInfo false 0 0 (fmtTag r.fmt)))) ∧
      (shapedOk r false = true → r.fmt = 11 → s.checkAll i i.wv [] (regSpan d.toNat 1) = .go →
        ∀ u ts w bytes, Access s i .load false 1 (ins.flatMap fun l => planes l fun x => BitVec.ofInt 64 x) u ts →
          u.holdFault i .load ts = none → s.missOk i.grp.core i.c.g i.c.w = true → planeBytes i acq ts u [] = (w, .inr bytes) →
          ∃ t q, exec (.vld d a sr 0 7) s = .next t ∧ t.reqs = w.reqs ++ [q] ∧ q.kind = .shaped 11 acq ∧
            q.dst = d.toNat ∧ q.span = 1 ∧ q.tag = tI32 ∧ q.lanes = i.fr.live ∧ t.mem = w.mem ∧
            ∀ l < 32, i.fr.live.getLsbD l = true → q.captured[l]? = some (some (if r.inside (co l)
              then plane8 l ((bytes.filter fun x => x.1 == l).map (·.2)) else List.replicate 4 0))) ∧
      (shapedOk r false = true → r.fmt ≠ 11 → s.checkAll i i.wv [] (regSpan d.toNat span) = .go →
        ∀ u ts, Access s i .load false n (ins.map fun l => (l, BitVec.ofInt 64 (r.addrOf (co l)))) u ts →
          s.missOk i.grp.core i.c.g i.c.w = true →
          ∃ t q, exec (.vld d a sr 0 7) s = .next t ∧ t.reqs = u.reqs ++ [q] ∧ q.kind = .shaped r.fmt acq ∧
            q.dst = d.toNat ∧ q.span = span ∧ q.lanes = i.fr.live ∧ t.mem = u.mem ∧
            ∀ l < 32, i.fr.live.getLsbD l = true →
              (r.inside (co l) = false → q.captured[l]? = some (some (List.replicate (4 * span) 0))) ∧
              (r.inside (co l) = true → q.captured[l]? = some none ∧ q.va[l]? = some (BitVec.ofInt 64 (r.addrOf (co l)))))) ∧
    (MemUnit s i { imm := true, ord := [0, 1], rep := some (true, true, false) } (vmSrcs a.toNat sr.toNat) (regSpan d.toNat 1) wait →
      (shapedOk r true = false → exec (.vldp d a sr 0 7) s = .next (s.trap i 0x04 0 (tagInfo false 0 0 (fmtTag r.fmt)))) ∧
      (shapedOk r true = true → r.fmt = 11 → s.checkAll i i.wv [] (regSpan d.toNat 1) = .go →
        ∀ g : Group, g = i.grp ∧ r.space = 1 ∨ s.peer? i.grp r.rank = some g ∧ s.group? g.g = some g ∧ r.rank < 16 ∧ r.space = 2 →
        (∀ l ∈ ins, ∀ j < r.prec, ∃ off : Nat, (r.planeAt (r.plIndex (co l)) (7 - j)).1 = off ∧ off < g.padSize ∧ off < 2 ^ 20) →
        s.winLock i false 1 (ins.flatMap fun l => planes l r.window) = none →
        let bytes := fun l => if r.inside (co l) then plane8 l ((List.range r.prec).map fun j =>
          (g.padByte (r.planeAt (r.plIndex (co l)) (7 - j)).1.toNat).toNat) else List.replicate 4 0
        (r.space = 1 → d.toNat < i.wv.vregs.length →
          ∃ t, exec (.vldp d a sr 0 7) s = .next t ∧ LaneEffect (if acq then s.invalidate i.grp.core else s) t i
            [(d.toNat, tI32, fun l => leNat (bytes l))] 0) ∧
        (r.space = 2 → s.missOk i.grp.core i.c.g i.c.w = true →
          ∃ t q, exec (.vldp d a sr 0 7) s = .next t ∧ t.reqs = s.reqs ++ [q] ∧ q.kind = .shaped 11 acq ∧ q.dst = d.toNat ∧
            q.span = 1 ∧ q.lanes = i.fr.live ∧ t.mem = s.mem ∧
            ∀ l < 32, i.fr.live.getLsbD l = true → q.captured[l]? = some (some (bytes l)))) ∧
      (shapedOk r true = true → r.fmt ≠ 11 → s.checkAll i i.wv [] (regSpan d.toNat span) = .go →
        ∀ g : Group, g = i.grp ∧ r.space = 1 ∨ s.peer? i.grp r.rank = some g ∧ s.group? g.g = some g ∧ r.rank < 16 ∧ r.space = 2 →
        (∀ l ∈ ins, ∃ off : Nat, r.addrOf (co l) = off ∧ off % n = 0 ∧ off + n ≤ g.padSize ∧ off < 2 ^ 20) →
        s.winLock i false n (ins.map fun l => (l, r.window (r.addrOf (co l)))) = none →
        let bytes := fun l => if r.inside (co l) then g.padBytes (r.addrOf (co l)).toNat n else List.replicate (4 * span) 0
        (r.space = 1 → d.toNat + span ≤ i.wv.vregs.length →
          ∃ t, exec (.vldp d a sr 0 7) s = .next t ∧ LaneEffect (if acq then s.invalidate i.grp.core else s) t i
            (if r.fmt = 3 then [(d.toNat, tFP64L, fun l => leNat (bytes l) % 2 ^ 32), (d.toNat + 1, tFP64H, fun l => leNat (bytes l) / 2 ^ 32)]
             else [(d.toNat, deliverTag r.fmt, fun l => (deliver r.fmt (leNat (bytes l))).1)]) 0) ∧
        (r.space = 2 → s.missOk i.grp.core i.c.g i.c.w = true →
          ∃ t q, exec (.vldp d a sr 0 7) s = .next t ∧ t.reqs = s.reqs ++ [q] ∧ q.kind = .shaped r.fmt acq ∧ q.dst = d.toNat ∧
            q.span = span ∧ q.lanes = i.fr.live ∧ t.mem = s.mem ∧
            t.agenda = s.agenda ++ laneEvents .loadResultLands q.id i.fr.live ∧
            ∀ l < 32, i.fr.live.getLsbD l = true → q.captured[l]? = some (some (bytes l)))))

/-- R267, R269, R276, R277: VST and SST whose accesses pass every check store the low bytes of their data: without release
in the L1 (R239), with release at the homes (R243); the unit goes on. An earlier atomic of its wave on the same bytes
takes place first (R238). R237, R239, R240: after the plain stores of a unit with nothing of its wave in flight the
storing core reads, at each byte stored, the highest lane's byte, and every core reads every other byte as before. R241,
R243: a release of a core writes its bytes at the home: after it every core that holds no copy of the word, and the home
itself, reads them, and every other byte of memory reads as before. R332, R333: a store at a Galord-form address of
another module sends its bytes, one of this module writes them at their home, and either awaits its acknowledgement or
has its visibility time (the packet's kinds are the model's own, log 13; what comes before an access is log 24, what
R238 asks of it log 22). -/
def Obligations.StoreWords : Prop :=
  ((∀ e ∈ storeForms, ∀ (s : State) (i : Iss) (d a : BitVec 7) (sr : BitVec 5) (k : BitVec 2) (u : State) (ts : List (Nat × DWord × Tgt)),
     let rel := i.c.order.getLsbD 1
     MemUnit s i { imm := true, ord := [0, 2] } (vmSrcs a.toNat sr.toNat ++ [⟨3, false, d.toNat, e.2.2, .bit, false⟩]) []
       (s.accessWait i.c.g i.c.w rel rel) →
     vmLegal i d.toNat a.toNat sr.toNat e.2.2 false = true →
     Access s i .store (sr == 31) e.2.1 (vmAddresses i a sr k) u ts → u.holdFault i .store ts = none →
     exec (.vst d a sr k e.1) s = .next ((storeAll rel false i
       (fun l => ((List.range e.2.2).flatMap fun j => leBytes 4 ((i.wv.vreg (d.toNat + j)).lane l).toNat).take e.2.1) ts u).retire i)) ∧
   (∀ e ∈ smStoreForms, ∀ (s : State) (i : Iss) (d a : BitVec 7) (m : BitVec 8) (u : State) (ts : List (Nat × DWord × Tgt)),
     let rel := i.c.order.getLsbD 1
     MemUnit s i { imm := true, ord := [0, 2] } [usrc 0 a .bit, usrc 3 d .bit] [] (s.accessWait i.c.g i.c.w rel rel) →
     smLegal i d.toNat a.toNat m.toNat = true →
     Access s i .store (a == 31) e.2 [(0, smAddress i a m e.2)] u ts → u.holdFault i .store ts = none →
     exec (.sst d a m e.1) s = .next ((storeAll rel true i
       (fun _ => leBytes e.2 (i.wv.sreg d.toNat).val.toNat) ts u).retire i))) ∧
  (∀ (s : State) (i : Iss) (isS : Bool) (n : Nat) (data : Nat → List Byte) (ts : List (Nat × DWord × Tgt)), s.Canonical →
     n ∈ [1, 2, 4, 8, 16] → (∀ x ∈ ts, ∃ pa, x.2.2 = .mem pa ∧ pa % n = 0 ∧ isHostPa pa = false) → (∀ x ∈ ts, (data x.1).length = n) →
     (∀ r ∈ s.reqs, ¬(r.g = i.c.g ∧ r.w = i.c.w)) → s.detCtx i.grp.ctx = false →
     let t := storeAll false isS i data ts s
     (∀ (pre post : List (Nat × DWord × Tgt)) (l : Nat) (va : DWord) (pa : Nat), ts = pre ++ (l, va, .mem pa) :: post →
       ∀ j < n, (∀ y ∈ post, ∀ q, y.2.2 = .mem q → pa + j < q ∨ q + n ≤ pa + j) →
         t.loadByte i.grp.core (pa + j) = (data l)[j]?) ∧
     (∀ core q, (∀ y ∈ ts, ∀ pa, y.2.2 = .mem pa → q < pa ∨ pa + n ≤ q) → (t.loadByte core q).isSome = true →
       t.loadByte core q = s.loadByte core q)) ∧
  (∀ (s : State) (i : Iss) (l : Nat) (va : DWord) (isS : Bool) (bs : List Byte),
     let ack : State → Bool → State := fun t sync =>
       ({ t.fresh with regq := t.regq ++ [⟨i.grp.core, va.toNat / 4, i.c.g, i.c.w, t.seq, sync, false⟩] } : State).push .registration
         { a := i.grp.core, b := va.toNat / 4 * 4, c := t.seq, d := 0 }
     s.storeLane i l va .peer isS bs = ack (s.emit (.galord va 1 bs)) false ∧
     s.releaseLane i l va .peer isS bs =
       ack ((s.setRelts i.c.g i.c.w (i.wv.releaseTime (s.ticksOf i.grp.ctx))).emit (.galord va 2 bs)) true ∧
     ∀ pa, s.Canonical → bs ≠ [] → isHostPa pa = false → pa % bs.length = 0 → bs.length ∈ [1, 2, 4, 8, 16] →
       (∀ r ∈ s.reqs, ¬(r.g = i.c.g ∧ r.w = i.c.w)) → (∀ r ∈ s.regq, r.core ≠ i.grp.core) → s.detCtx i.grp.ctx = false →
       ∀ t, t = s.storeLane i l va (.own pa) isS bs ∨ t = s.releaseLane i l va (.own pa) isS bs →
         (∀ j < bs.length, t.homeByte (pa + j) = bs[j]?) ∧ (∀ w, pa / 4 ≤ w → w ≤ (pa + bs.length - 1) / 4 → t.ownerOf w = none) ∧
         ∀ q, q < pa ∨ pa + bs.length ≤ q → isHostPa q = false → (s.homeByte q).isSome = true → t.homeByte q = s.homeByte q) ∧
  (∀ (s : State) (pa : Nat) (bs : List Byte), s.Canonical →
     (∀ j < bs.length, (s.homeWrite pa bs).homeByte (pa + j) = bs[j]?) ∧
     (∀ q, q < pa ∨ pa + bs.length ≤ q → isHostPa q = false → (s.homeByte q).isSome = true → (s.homeWrite pa bs).homeByte q = s.homeByte q))

/-- R271, R272, R274: VLDP whose lanes name the own scratchpad or the register window reads at once; of a peer's scratchpad
it files a request. R272, R276: VSTP writes each lane's bytes in place, in ascending order: of the own scratchpad
exactly the bytes stored, and no other byte. R283: VPREF changes no register, no memory and no ordering. A VSTP in a
peer’s scratchpad writes as it issues and has its visibility time at its acknowledgement, which is log 23 (DEDUCED), and
what a VPREF takes of its hint is log 9. -/
def Obligations.WindowWords : Prop :=
  ((∀ e ∈ loadForms, ∀ (s : State) (i : Iss) (d a : BitVec 7) (sr : BitVec 5) (k : BitVec 2),
     let acq := i.c.order.getLsbD 0
     let las := vmAddresses i a sr k
     let mem := s.winMem i e.2.1 las
     MemUnit s i { imm := true, ord := [0, 1], rep := some (true, true, false) } (vmSrcs a.toNat sr.toNat) (regSpan d.toNat e.2.2.2)
       (if mem then s.accessWait i.c.g i.c.w acq false else none) →
     vmLegal i d.toNat a.toNat sr.toNat e.2.2.2 true = true → d.toNat + e.2.2.2 ≤ i.wv.vregs.length →
     s.winFault i e.2.1 las = none → s.winLock i false e.2.1 las = none →
     winEmpty i.wv e.2.1 (las.map fun x => s.window i x.2 e.2.1) = none →
     ((∀ x ∈ las, ∀ g off, s.window i x.2 e.2.1 ≠ .peer g off) →
       ∃ t, exec (.vldp d a sr k e.1) s = .next t ∧
         LaneEffect (if acq && mem then s.invalidate i.grp.core else s) t i ((List.range e.2.2.2).map fun j => (d.toNat + j, tRAW, fun l =>
           let bs := s.winRead i.wv (s.window i (vmAddress i a sr k l) e.2.1) e.2.1
           if e.2.2.2 = 1 then extend e.2.2.1 32 bs else leNat ((bs.drop (4 * j)).take 4))) 0) ∧
     (∀ (pg : Nat) (off : Nat → Nat), i.fr.live ≠ 0 → (∀ x ∈ las, s.window i x.2 e.2.1 = .peer pg (off x.1)) →
       s.missOk i.grp.core i.c.g i.c.w = true →
       exec (.vldp d a sr k e.1) s = .next (((s.missTake i).fileReq i (.peer e.2.1 e.2.2.1 pg acq) false d.toNat e.2.2.2 tRAW .load
         i.fr.live (las.map fun x => (x.1, x.2, .mem (off x.1)))
         (fun l => if i.fr.live.getLsbD l then none else some (List.replicate e.2.1 0)) 0).retire i))) ∧
   (∀ (s : State) (i : Iss) (va : DWord) (n off : Nat), s.iss? = some i → s.window i va n = .pad i.c.g off →
     off = va.toNat % 2 ^ 20 ∧ s.winRead i.wv (s.window i va n) n = i.grp.padBytes off n) ∧
   (∀ e ∈ storeForms, ∀ (s : State) (i : Iss) (d a : BitVec 7) (sr : BitVec 5) (k : BitVec 2),
     let las := vmAddresses i a sr k
     let mem := s.winMem i e.2.1 las
     let rel := i.c.order.getLsbD 1 && mem
     let data : Nat → List Byte := fun l =>
       ((List.range e.2.2).flatMap fun j => leBytes 4 ((i.wv.vreg (d.toNat + j)).lane l).toNat).take e.2.1
     MemUnit s i { imm := true, ord := [0, 2], rep := some (true, true, false) }
       (vmSrcs a.toNat sr.toNat ++ [⟨3, false, d.toNat, e.2.2, .bit, false⟩]) []
       (if mem then s.accessWait i.c.g i.c.w rel rel else none) →
     vmLegal i d.toNat a.toNat sr.toNat e.2.2 false = true →
     s.winFault i e.2.1 las = none → s.winLock i true e.2.1 las = none →
     winEmpty i.wv e.2.1 (las.map fun x => s.window i x.2 e.2.1) = none →
     (let u := las.foldl (fun t x => t.winStore i x.2 (s.window i x.2 e.2.1) (data x.1)) (if mem then s.capturePads i.c.g i.c.w else s)
      exec (.vstp d a sr k e.1) s = .next ((if rel then u.setRelts i.c.g i.c.w (i.wv.releaseTime (s.ticksOf i.grp.ctx)) else u).retire i)) ∧
     ((∀ x ∈ las, ∃ off, s.window i x.2 e.2.1 = .pad i.c.g off) →
       ∃ t g, exec (.vstp d a sr k e.1) s = .next t ∧ t.group? i.c.g = some g ∧ t.mem = s.mem ∧ t.l1 = s.l1 ∧
         g = { i.grp with pad := (lanesOf i.fr.live).foldl (fun m l => memSets m ((vmAddress i a sr k l).toNat % 2 ^ 20) (data l)) i.grp.pad } ∧
         ∀ h, h ≠ i.c.g → t.group? h = s.group? h) ∧
     ((∀ x ∈ las, ∃ g off, s.window i x.2 e.2.1 = .pad g off ∨ s.window i x.2 e.2.1 = .peer g off) →
       let place : Nat → Option (Bool × Nat × Nat) := fun l => match s.window i (vmAddress i a sr k l) e.2.1 with
         | .pad g off => some (false, g, off)
         | .peer g off => some (true, g, off)
         | _ => none
       let peers := (lanesOf i.fr.live).filter fun l => match place l with | some x => x.1 | none => false
       let put : Nat → List Cell → Nat → List Cell := fun h m l => match place l with
         | some (_, g, off) => if g = h then memSets m off (data l) else m
         | none => m
       ∃ t, exec (.vstp d a sr k e.1) s = .next t ∧ t.mem = s.mem ∧ t.l1 = s.l1 ∧
         (∀ h gr, s.group? h = some gr → t.group? h = some { gr with pad := (lanesOf i.fr.live).foldl (put h) gr.pad }) ∧
         t.regq = s.regq ++ peers.mapIdx fun n l =>
           ⟨i.grp.core, (vmAddress i a sr k l).toNat / 4, i.c.g, i.c.w, s.seq + n, false, false⟩))) ∧
  (∀ (s : State) (i : Iss) (a : BitVec 7) (sr : BitVec 5) (k : BitVec 2) (f : BitVec 4),
     WordUnit s i { imm := true } false (vmSrcs a.toNat sr.toNat) [] → vOk i.wv a.toNat = true → sOk i.wv sr.toNat = true →
     noPorts i.wv (vmSrcs a.toNat sr.toNat) →
     ∃ t, exec (.vpref a sr k f) s = .next t ∧ t.waves = (s.retire i).waves ∧ t.cur = none ∧ t.groups = s.groups ∧ t.reqs = s.reqs ∧
       t.regq = s.regq ∧ t.surrs = s.surrs ∧ t.dir = s.dir ∧ t.agenda = s.agenda ∧
       (s.detCtx i.grp.ctx = false → t.mem = s.mem ∧ t.owners = s.owners ∧ ∀ q, t.homeByte q = s.homeByte q))

/-- R278 to R282: VATOM, VRED, SATOM and VATOMX whose accesses pass every check file one request with each lane's operands,
to be performed at the home; each lane of VATOMX goes to the service queue of its home's wheel, unless its line belongs
to an IMMUTABLE object, which the routine may not write (log 24). What a word waits for is log 22, and the packet that
leaves for a peer log 13. -/
def Obligations.AtomicWords : Prop :=
  (∀ (returns : Bool) (s : State) (i : Iss) (d a : BitVec 7) (sr : BitVec 5) (k : BitVec 2) (f : BitVec 4) (u : State)
    (ts : List (Nat × DWord × Tgt)),
    let rd := (atomicReader f.toNat false).1
    let x : Src := ⟨3, false, d.toNat, 1, rd, false⟩
    let srcs := vmSrcs a.toNat sr.toNat ++ [x] ++ (if f = 10 then [⟨3, false, d.toNat + 1, 1, .bit, false⟩] else [])
    (returns = false → f ≠ 9 ∧ f ≠ 10) →
    MemUnit s i { imm := true, ord := if returns then [0, 1, 2, 3] else [0, 2] } srcs (if returns then regSpan d.toNat 1 else [])
      (s.atomicWait i.c.g i.c.w i.c.order) →
    vmLegal i d.toNat a.toNat sr.toNat 1 returns = true → (f = 10 → d.toNat % 2 = 0 ∧ vOk i.wv (d.toNat + 1) = true) →
    Access s i .atomic false 4 (vmAddresses i a sr k) u ts → s.missOk i.grp.core i.c.g i.c.w = true →
    let filed := (((u.updCur i fun w => { w with regs := { w.regs with fpflags := w.regs.fpflags ||| orLanes i.fr.live (readSrc i.wv x).2 } }).missTake i).fileReq i
        (.atomic f.toNat ((List.range 32).map fun l => BitVec.ofNat 32 (laneOperand i.wv rd d.toNat l))
          (if f = 10 then (List.range 32).map ((i.wv.vreg (d.toNat + 1)).lane) else []) i.c.order returns) false d.toNat
        (if returns then 1 else 0) (atomicReader f.toNat false).2 .atomic i.fr.live ts (fun _ => none)
        (i.wv.releaseTime (s.ticksOf i.grp.ctx))).retire i
    (returns = true → exec (.vatom d a sr k f) s = .next filed) ∧ (returns = false → exec (.vred d a sr k f) s = .next filed)) ∧
  (∀ (s : State) (i : Iss) (d a b : BitVec 7) (f : BitVec 4) (u : State) (ts : List (Nat × DWord × Tgt)),
    let rd : Reader := if f = 10 then .bit else (atomicReader f.toNat true).1
    let y : DWord := BitVec.ofNat 64 (uniformOperand i.wv rd b.toNat)
    MemUnit s i { ord := [0, 1, 2, 3] } ([usrc 0 a .bit, usrc 1 b rd] ++ if f = 10 then [usrc 3 d .bit] else []) [(true, d.toNat)]
      (s.atomicWait i.c.g i.c.w i.c.order) →
    sOk i.wv d.toNat = true → sOk i.wv a.toNat = true → sOk i.wv b.toNat = true →
    Access s i .atomic false 8 [(0, (i.wv.sreg a.toNat).val)] u ts → s.missOk i.grp.core i.c.g i.c.w = true →
    exec (.satom d a b f) s = .next (
      (((u.updCur i fun w => { w with regs := { w.regs with fpflags := w.regs.fpflags ||| uniformFlags i.wv [usrc 1 b rd] } }).missTake i).fileReq i
        (.atomic64 f.toNat (if f = 10 then (i.wv.sreg d.toNat).val else y) y i.c.order) true d.toNat 1
        (atomicReader f.toNat true).2 .atomic 1 ts (fun _ => none) (i.wv.releaseTime (s.ticksOf i.grp.ctx))).retire i)) ∧
  (∀ (s : State) (i : Iss) (d a : BitVec 7) (sr : BitVec 5) (k : BitVec 2) (n : BitVec 4) (u : State) (ts : List (Nat × DWord × Tgt))
    (pa : Nat → Nat) (p : Part),
    MemUnit s i { imm := true, ord := [0, 1, 2, 3] } (vmSrcs a.toNat sr.toNat ++ [⟨3, false, d.toNat, 2, .bit, false⟩])
      (regSpan d.toNat 2) (s.atomicWait i.c.g i.c.w i.c.order) →
    vmLegal i d.toNat a.toNat sr.toNat 2 true = true →
    Access s i .atomic false 4 (vmAddresses i a sr k) u ts → (∀ x ∈ ts, x.2.2 = .mem (pa x.1)) →
    (s.immutAt i.grp.ctx 128 ((vmAddresses i a sr k).map fun x => (x.1, x.2 &&& ~~~127))) = none →
    s.missOk i.grp.core i.c.g i.c.w = true → s.partOf i.grp.ctx = some p → u.parts = s.parts → u.vfs = s.vfs → u.svc = s.svc →
    (∀ wh, s.svcCount wh p.n + ts.length ≤ 256) →
    ∃ t q recs, exec (.vatomx d a sr k n) s = .next t ∧ t.reqs = u.reqs ++ [q] ∧ q.dst = d.toNat ∧ q.span = 2 ∧ q.lanes = i.fr.live ∧
      q.kind = .routine n.toNat ((List.range 32).map ((i.wv.vreg d.toNat).lane)) ((List.range 32).map ((i.wv.vreg (d.toNat + 1)).lane)) i.c.order ∧
      t.svc = u.svc ++ recs ∧ t.mem = u.mem ∧
      recs.map (fun r => (r.wheel, r.part, r.req, r.taken)) =
        ts.map fun x => (u.homeWheel i.grp.ctx (pa x.1), p.n, some (q.id, x.1), false))

/-- R279, R281: what an atomic writes at its home, operation by operation, on 32 bits; fadd, bfadd2 and hfadd2 round to the
nearest, ties to even, whatever RNDMODE holds. R137, R240, R279: LOAD_RESULT_LANDS delivers a plain lane's bytes, as the
core's L1 or the home has them, into its register, and ATOMIC_AT_HOME writes the new value at the home and delivers the
old; an earlier access of the wave that waits for its page finds it first, if it stands now (R238, log 22). The tag that
a landing load gives is log 82, and what an L1 holds log 9. -/
def Obligations.AccessEvents : Prop :=
  ((∀ e ∈ atomicResults, ∀ old x y : Word, atomicOp e.1.toNat 32 old.toNat x.toNat y.toNat = (e.2 old x y).map BitVec.toNat) ∧
   (∀ old x y : Word, atomicOp 11 32 old.toNat x.toNat y.toNat = some (Fmt.fp32.add rne old.toNat x.toNat).1 ∧
     atomicOp 12 32 old.toNat x.toNat y.toNat = some ((Fmt.bf16.add rne (old.toNat % 65536) (x.toNat % 65536)).1 +
       65536 * (Fmt.bf16.add rne (old.toNat / 65536) (x.toNat / 65536)).1) ∧
     atomicOp 13 32 old.toNat x.toNat y.toNat = some ((Fmt.fp16.add rne (old.toNat % 65536) (x.toNat % 65536)).1 +
       65536 * (Fmt.fp16.add rne (old.toNat / 65536) (x.toNat / 65536)).1))) ∧
  ((∀ (s : State) (r : Req) (l pa b : Nat) (sg : Bool) (u : State) (bs : List Byte), s.req? s.ev.a = some r → l = s.ev.b →
     r.kind = .load b sg false → r.lanes.getLsbD l = true → r.captured.getD l none = none → r.pa.getD l none = some pa →
     let s0 := s.placeEarlier r.g r.w (r.va.getD l 0) b s.ev.a
     s0.atomicAhead r l pa b = false → s0.readFor r l pa = (u, some bs) →
     exec .loadResultLands s = .next (u.landLane r l (r.values bs).1 (r.values bs).2)) ∧
   (∀ (s : State) (r : Req) (l : Nat) (bs : List Byte), s.req? s.ev.a = some r → l = s.ev.b → r.kind.isAtomic = false →
     r.kind.isAcquire = false → r.lanes.getLsbD l = true → r.captured.getD l none = some bs →
     exec .loadResultLands s = .next ((s.placeEarlier r.g r.w (r.va.getD l 0) r.kind.bytes s.ev.a).deliverLane r l bs)) ∧
   (∀ (s : State) (g w : Nat) (va : DWord) (n before : Nat),
     (∀ x ∈ s.reqs, x.g = g → x.w = w → x.id < before → ∀ l < 32, x.lanes.getLsbD l = true → (x.pa.getD l none).isSome = true) →
     s.placeEarlier g w va n before = s) ∧
   (∀ (s : State) (r : Req) (l pa f : Nat) (x y : List Word) (ret : Bool) (bs : List Byte), s.req? s.ev.a = some r → l = s.ev.b →
     r.kind = .atomic f x y 0 ret → r.performedAt l = false → r.pa.getD l none = some pa → isGalord (r.va.getD l 0) = false →
     let s0 := s.placeEarlier r.g r.w (r.va.getD l 0) 4 s.ev.a
     r.lowerLane l pa = false → s0.atomicAhead r l pa 4 = false →
     let u := ((s0.settleStores r.core pa 4).captureFor r.g r.w l pa 4 s.ev.a r.isS).recallSpan pa 4
     u.homeBytes pa 4 = some bs → (u.req? s.ev.a).isSome = true →
     ∃ t q, exec .atomicAtHome s = .next t ∧
       t = ((match atomicOp f 32 (leNat bs) (x.getD l 0).toNat (y.getD l 0).toNat with
         | some z => u.coreWrite r.core pa (leBytes 4 z)
         | none => (wordsOf pa 4).foldl (fun v w => v.dropWord r.core w) u).atomicDone q l (pa / 4) false false bs)))

/-- R239, R245: REGISTRATION makes the core the word's owner, both words of an aligned 8-byte store at one instant (R237),
and gives the waiting stores their visibility time, or ends a store elsewhere whose acknowledgement returns (R332);
SURRENDER writes the releaser's dirty words home; SURRENDER_COMPLETE clears the record it read and ends the acquire.
R386: a page fault resolved with a valid entry writes it, one whose entry has become valid meanwhile leaves it, and what
waited starts again before anything else (the entry is the firmware's choice, log 16). R342, R344, R353: the
acknowledgement of a remote arrival lets its NPOST complete, and that of the last invalidation of an object its status.
That every start of a group invalidates its core’s L1 is log 41. -/
def Obligations.HomeEvents : Prop :=
  (∀ (s : State) (e : L1Word), s.ev.c = 0 → s.l1Word s.ev.a (s.ev.b / 4) = some e →
    ∃ t, exec .registration s = .next t ∧
      ((∀ r ∈ s.regq, r.core = s.ev.a → r.word = s.ev.b / 4 → r.id = 0 → r.wide = false) →
        (∃ x, t.l1Word s.ev.a (s.ev.b / 4) = some x ∧ x.own = true) ∧
        ∀ r ∈ t.regq, ¬(r.core = s.ev.a ∧ r.word = s.ev.b / 4 ∧ r.id = 0)) ∧
      ((∃ r ∈ s.regq, r.core = s.ev.a ∧ r.word = s.ev.b / 4 ∧ r.id = 0 ∧ r.wide = true) →
        ∀ r ∈ t.regq, ¬(r.core = s.ev.a ∧ r.word / 2 = s.ev.b / 4 / 2 ∧ r.id = 0))) ∧
  (∀ s : State, s.ev.c ≠ 0 → ∃ t, exec .registration s = .next t ∧ t.regq = s.regq.filter (fun r => r.id != s.ev.c) ∧
    t.sends = s.sends.filter (fun x => x.id != s.ev.c) ∧ t.recalls = s.recalls.filter (fun x => x.num != s.ev.c) ∧
    t.mem = s.mem ∧ t.l1 = s.l1 ∧
    (∀ x ∈ s.sends, x.id = s.ev.c → ∀ c, x.cmd = some c → ⟨.networkCommandComplete, { a := c }⟩ ∈ t.agenda) ∧
    (∀ x, s.recalls = [x] → x.num = s.ev.c → x.fill ≠ 0 → ⟨.shapeStatusFill, { a := x.fill }⟩ ∈ t.agenda)) ∧
  (∀ (s : State) (x : Surr), (s.surrs.find? fun y => y.id == s.ev.a && !y.done) = some x →
    ∃ t, exec .surrender s = .next t ∧ t.mem = (s.writeBack x.core x.ctx fun _ => true).mem ∧
      (∀ e ∈ t.l1, e.core = x.core → e.ctx = x.ctx → e.own = false) ∧
      t.agenda = s.agenda ++ [⟨.surrenderComplete, { a := s.ev.a }⟩]) ∧
  (∀ (s : State) (x : Surr) (rid l : Nat) (r : Req), (s.surrs.find? fun y => y.id == s.ev.a && y.done) = some x →
    x.req = some (rid, l) → s.req? rid = some r →
    ∃ t, exec .surrenderComplete s = .next t ∧ ((∃ g, s.group? r.g = some g ∧ g.resident = true) → t.mem = s.mem) ∧
      t = (({ s with
          surrs := s.surrs.filter fun y => y.id != s.ev.a
          dir := s.dir.filter fun d => some d != x.rcd } : State).invalidate r.core).deliverLane r l ((r.captured.getD l none).getD [])) ∧
  (∀ (s : State) (f : PageFault), (s.faults.find? fun x => x.id == s.ev.a) = some f →
    ∃ t, exec .pageFaultResolution s = .next t ∧
      (ebit ((s.entryAt f.entry.pa).getD 0) 0 = false → ebit (Config.resolvedEntry f.entry.pa s.ev.a % 2 ^ 64) 0 = true →
        f.req = none → f.cmd = none →
        t = (({ s with faults := s.faults.filter fun x => x.id != s.ev.a } : State).homeWrite f.entry.pa
          (leBytes 8 (Config.resolvedEntry f.entry.pa s.ev.a % 2 ^ 64))).pushFront f.retry) ∧
      (ebit ((s.entryAt f.entry.pa).getD 0) 0 = true → f.req = none → f.cmd = none →
        t = ({ s with faults := s.faults.filter fun x => x.id != s.ev.a } : State).pushFront f.retry))

/-- R285, R287: what an arrival and a count do to a barrier's words, and that an update of a barrier of this module is seen
whole by every later reader and notifies those that wait at it for another phase, once each, when the phase changes or
BINIT writes it (R289). R292, R295: a notification ends the waits it names (at a peer's barrier, those for another
phase), each with an acquire; the last arrival at a grid barrier ends the wave's own wait with the count of grid
barriers, and an earlier one leaves it waiting. A launch that is not co-resident takes NOT_CORESIDENT. When a wait
counts as over, and a notice of a peer’s barrier, are log 40 (DEDUCED), and what is sent to a peer is log 10 (DESIGN
CHOICE). -/
def Obligations.BarrierProtocol : Prop :=
  ((∀ (w : BarWords) (n : Nat) (e : Bool), 0 < n → n < 2 ^ 16 →
     (n ≤ w.remaining.toNat → ¬(w.remaining.toNat = n ∧ w.bytes = 0) → (w.arrive n e).phase = w.phase ∧
       (w.arrive n e).remaining.toNat = w.remaining.toNat - n ∧ (w.arrive n e).err = (w.err || e)) ∧
     (w.remaining.toNat = n → w.bytes = 0 → w.arrive n e =
       { w with phase := w.phase + 1, remaining := w.expected, err := w.err || e }) ∧
     (w.remaining = 0 → w.arrive n e = { w with err := true }) ∧
     (w.remaining ≠ 0 → w.remaining.toNat < n → (w.arrive n e).err = true ∧
       (w.arrive n e).phase = (if w.bytes = 0 then w.phase + 1 else w.phase) ∧
       (w.arrive n e).remaining = (if w.bytes = 0 then w.expected else 0))) ∧
   (∀ (w : BarWords) (n : Int),
     ((-(2 ^ 31 : Int) ≤ w.bytes.toInt + n ∧ w.bytes.toInt + n < 2 ^ 31) →
       (w.bytes.toInt + n = 0 → w.remaining = 0 → w.addBytes n = { w with phase := w.phase + 1, remaining := w.expected, bytes := 0 }) ∧
       (w.bytes.toInt + n ≠ 0 ∨ w.remaining ≠ 0 → (w.addBytes n).phase = w.phase ∧ (w.addBytes n).bytes.toInt = w.bytes.toInt + n ∧
         (w.addBytes n).err = w.err)) ∧
     ((w.bytes.toInt + n < -(2 ^ 31 : Int) ∨ (2 ^ 31 : Int) ≤ w.bytes.toInt + n) → w.addBytes n = { w with err := true })) ∧
   (∀ (s : State) (b : Bar) (f : BarWords → BarWords) (what : List Byte) (w : BarWords), s.barRead b = some w →
     (∀ va, b ≠ .remote va) →
     ∀ init, let t := s.barUpdate b f what init
     let quiet := w.phase = (f w).phase ∧ init = false
     let ids := s.barWaiters b.key.1 b.key.2 (f w).phase
     t.barRead b = some (f w) ∧ (quiet → t.waves = s.waves) ∧ (¬quiet → t.waves = s.waves.map fun v => v.tell ids) ∧
     ((∀ l ∈ s.launches, l.deps = []) →
       (quiet → t.agenda = s.agenda) ∧
       (¬quiet → t.agenda = s.agenda ++
         [⟨.barrierNotify, { a := (match b.key.1 with | some g => g + 1 | none => 0), b := b.key.2, c := (f w).phase.toNat, ids := ids }⟩]))) ∧
   (∀ (s : State) (pad : Option Nat) (addr : Nat) (now : BitVec 32) (v : Wave) (g : Group), s.waves = [v] → s.group? v.g = some g →
     g.resident = true → v.Apart → ∀ f ∈ v.frags,
     hasTriple v.g v.w f.id (s.barWaiters pad addr now) =
       (!f.told && (match f.wait with | some (.barrier q x p) => q == pad && x == addr && p != now | _ => false))) ∧
   (∀ (v : Wave) (ids : List Nat), v.tell ids = { v with frags := (v.tell ids).frags } ∧
     (v.tell ids).frags = v.frags.map fun f => { f with told := f.told || hasTriple v.g v.w f.id ids })) ∧
  ((∀ (s : State) (v : Wave) (f : Frag) (gr : Group) (pad : Option Nat) (addr : Nat) (now p : BitVec 32),
     s.ev.a = (match pad with | some g => g + 1 | none => 0) → s.ev.b = addr → s.ev.c = now.toNat →
     s.waves = [v] → s.group? v.g = some gr → v.Apart → f ∈ v.frags → f.wait = some (.barrier pad addr p) →
     let woken := if pad = none ∧ 2 ^ 57 ≤ addr then decide (p ≠ now) else f.told && hasTriple v.g v.w f.id s.ev.ids
     ∃ t v', exec .barrierNotify s = .next t ∧ t.waves = [v'] ∧ v'.vregs = v.vregs ∧ v'.sregs = v.sregs ∧
       (woken = true → { f with pc := f.pc + 4, wait := none, viaWatch := false, told := false } ∈ v'.frags ∧
         ∃ u : State, t = u.invalidate gr.core) ∧
       (woken = false → f ∈ v'.frags)) ∧
   (∀ (s : State) (i : Iss) (a : BitVec 7), WordUnit s i {} true [] [(true, a.toNat)] → sOk i.wv a.toNat = true →
     (i.ln.coresident = false → exec (.gridbar a) s = .next (s.trap i 0x0E 0 0)) ∧
     (i.ln.coresident = true → s.accessWait i.c.g i.c.w true true = none →
       (i.ln.gbArrived + 1 + i.ln.wavesExited < i.ln.totalWaves → exec (.gridbar a) s = .next
         (((s.released i).updLaunch i.ln.id fun l => { l with gbArrived := l.gbArrived + 1 }).block i (.gridbar a.toNat))) ∧
       (i.ln.totalWaves ≤ i.ln.gbArrived + 1 + i.ln.wavesExited →
         (s.waves.filter fun x => x.g == i.c.g && x.w == i.c.w) = [i.wv] → i.wv.frags = [i.fr] → a.toNat < i.wv.sregs.length → a ≠ 0 →
         ∃ t v, exec (.gridbar a) s = .next t ∧ t.wave? i.c.g i.c.w = some v ∧ v.frags = [{ i.fr with pc := i.c.unitPc + 4, wait := none }] ∧
           v.sreg a.toNat = ⟨BitVec.ofNat 64 (i.ln.gbDone + 1), tRAW, true⟩ ∧ v.vregs = i.wv.vregs))))

/-- R65, R289 to R294: the barrier words of a converged wave whose barrier is reached: BINIT, BARRIVE, BARRIVEC and
BEXPECT update it once; BWAIT goes on with an acquire when the phase has changed and waits at the barrier otherwise;
BTEST delivers the phase and the error bit; BWATCH registers the wave, of whose watches at most four stand, and leaves a
watch it has already. What a word observes of a barrier of this module are the words it holds. R256: a word that would change the
bytes of an IMMUTABLE object takes ACCESS_VIOLATION instead. The form of a remote update and its acknowledgement are logs 40 and 10. -/
def Obligations.BarrierWords : Prop :=
  ∀ (s : State) (i : Iss) (a b c : BitVec 7) (u : State) (bar : Bar) (w : BarWords),
    let x := (i.wv.sreg a.toNat).val
    let y := (i.wv.sreg b.toNat).val
    let z := (i.wv.sreg c.toNat).val
    let p : BitVec 32 := y.setWidth 32
    let had := i.wv.watching bar p
    let o := u.barObserve i bar
    let free := u.barImmutable i.grp.ctx bar = false
    sOk i.wv a.toNat = true → sOk i.wv b.toNat = true → sOk i.wv c.toNat = true →
    ((∀ va, bar ≠ .remote va) → u.barRead bar = some w → o = (u, w)) ∧
    (WordUnit s i {} true [usrc 0 a .bit, usrc 1 b .bit] [] →
      (BarUnit s i true true false x u bar w → free → (y.setWidth 16 : BitVec 16) ≠ 0 →
        exec (.binit a b) s = .next ((((u.barUpdate bar (fun q => q.init ((y >>> 32).setWidth 32) (y.setWidth 16))
          (barPacket 2 y.toNat) true).released i).barAcked i bar).retire i)) ∧
      (BarUnit s i false false false x u bar w → free →
        exec (.bexpect a b) s = .next ((u.barCount bar (y.setWidth 32 : Word).toInt).retire i)) ∧
      (BarUnit s i true false false x u bar w → free →
        (o.2.phase ≠ p → exec (.bwait a b) s = .next ((((if had then o.1.barWatch bar false else o.1).updCur i fun v =>
          { v with watches := v.watches.filter fun k => !(bar.key == (none, k.addr) && k.phase == p) }).invalidate i.grp.core).retire i)) ∧
        (o.2.phase = p → exec (.bwait a b) s = .next
          (((if had then o.1 else o.1.barWatch bar true).updCurFrag i fun f => { f with viaWatch := had }).block i
            (.barrier bar.key.1 bar.key.2 p)))) ∧
      (BarUnit s i false false false x u bar w → free →
        (bar.key.1 ≠ none ∨ had = true → exec (.bwatch a b) s = .next (u.retire i)) ∧
        (bar.key.1 = none → had = false → i.wv.watches.length < 4 → exec (.bwatch a b) s = .next
          (((u.barWatch bar true).updCur i fun v => { v with watches := i.wv.watches ++ [⟨bar.key.2, p⟩] }).retire i)) ∧
        (∀ old rest, bar.key.1 = none → had = false → i.wv.watches = old :: rest → rest.length = 3 → exec (.bwatch a b) s = .next
          ((((u.barWatch bar true).barWatch (Bar.ofAddr old.addr) false).updCur i fun v =>
            { v with watches := rest ++ [⟨bar.key.2, p⟩] }).retire i))) ∧
      (¬free → (BarUnit s i false false false x u bar w →
          exec (.bexpect a b) s = .next (u.violate i x 7 0 0 .atomic 0) ∧ exec (.bwatch a b) s = .next (u.violate i x 7 0 0 .atomic 0)) ∧
        (BarUnit s i true false false x u bar w → exec (.bwait a b) s = .next (u.violate i x 7 0 0 .atomic 0)) ∧
        (BarUnit s i true true false x u bar w → (y.setWidth 16 : BitVec 16) ≠ 0 →
          exec (.binit a b) s = .next (u.violate i x 7 0 0 .atomic 0)))) ∧
    (WordUnit s i {} true [usrc 1 b .bit, usrc 2 c .bit] [(true, a.toNat)] →
      (let arrived := ((((o.1.barArrive bar (z.toNat % 2 ^ 16) false).released i).barAcked i bar).updCur i
          fun v => v.setS a.toNat (o.2.phase.setWidth 64) tRAW).retire i
       z.toNat % 2 ^ 16 ≠ 0 → free →
        (BarUnit s i true true false y u bar w → exec (.barrive a b c) s = .next arrived) ∧
        (BarUnit s i true true true y u bar w → exec (.barrivec a b c) s = .next arrived)) ∧
      (BarUnit s i true false false y u bar w →
        let t := o.1.updCur i fun v => v.setS a.toNat (BitVec.ofNat 64 (o.2.phase.toNat + (if o.2.err then 2 ^ 32 else 0))) tRAW
        exec (.btest a b c) s = .next ((if o.2.phase ≠ z.setWidth 32 then t.invalidate i.grp.core else t).retire i)))

/-- R243, R245, R246, R251, R296: FENCESC, ACQ, REL, SURR and INVAL. R260, R297, R298: TOKPASS by the holder, once no engine
command writes the object, writes the object's bytes home, those of stores still on their way too, and moves the token
to the named core, or with 0x1FF to the oldest request, which the token's move answers; TOKREQ arrives at once when the
core holds the token and joins the requests otherwise; a shape without a token takes TOKEN_NOT_HELD. FADDR of
TOKEN_NOT_HELD is open (log 30). -/
def Obligations.OrderingWords : Prop :=
  (∀ (s : State) (i : Iss) (a b : BitVec 7) (u : State) (q : Tgt), sOk i.wv a.toNat = true → sOk i.wv b.toNat = true →
     (WordUnit s i {} false [] [(true, a.toNat)] → s.accessWait i.c.g i.c.w true false = none →
       exec (.fencesc a) s = .next ((({ s.fresh with fills := s.fills ++ [⟨s.seq, i.c.g, i.c.w, a.toNat, none, 5, 0, 0, []⟩] } :
         State).updCur i fun v => v.emptyS a.toNat).retire i)) ∧
     (WordUnit s i {} false [usrc 1 b .bit] [(true, a.toNat)] → s.accessWait i.c.g i.c.w true false = none →
       let va := (i.wv.sreg b.toNat).val
       Access s i .load false 4 [(0, va)] u [(0, va, q)] → u.holdFault i .load [(0, va, q)] = none →
       s.missOk i.grp.core i.c.g i.c.w = true →
       exec (.acq a b) s = .next
         (((u.missTake i).fileReq i .acqWord true a.toNat 1 tRAW .load 1 [(0, va, q)] (fun _ => none) 0).retire i)) ∧
     (WordUnit s i {} false [usrc 0 a .bit, usrc 1 b .bit] [] → s.accessWait i.c.g i.c.w true true = none →
       let va := (i.wv.sreg a.toNat).val
       Access s i .store false 4 [(0, va)] u [(0, va, q)] → u.holdFault i .store [(0, va, q)] = none →
       exec (.rel a b) s = .next ((u.releaseLane i 0 va q true (leBytes 4 ((i.wv.sreg b.toNat).val.setWidth 32 : Word).toNat)).retire i)) ∧
     (WordUnit s i {} false [] [] → s.accessWait i.c.g i.c.w false false = none →
       exec .surr s = .next ((s.writeBack i.grp.core i.grp.ctx fun _ => true).retire i) ∧
       exec .inval s = .next ((s.invalidate i.grp.core).retire i)) ∧
     (∀ core ctx : Nat, (∀ e ∈ (s.writeBack core ctx fun _ => true).l1, e.core = core → e.ctx = ctx → e.own = false) ∧
       (∀ e ∈ (s.invalidate core).l1, e.core = core → e.own = false → s.immutableWord e.word = false → e.mask = e.dm))) ∧
  (∀ (s : State) (i : Iss) (a b : BitVec 7), sOk i.wv a.toNat = true → sOk i.wv b.toNat = true →
     WordUnit s i {} false [usrc 0 a .bit, usrc 1 b .bit] [] →
     let shape := (i.wv.sreg a.toNat).val.toNat % 256
     let who := (i.wv.sreg b.toNat).val.toNat % 512
     (s.token? i.grp.ctx shape = none → exec (.tokpass a b) s = .next (s.tokenNotHeld i shape) ∧
       exec (.tokreq a b) s = .next (s.tokenNotHeld i shape)) ∧
     (∀ k, s.token? i.grp.ctx shape = some k →
       (k.holder ≠ i.grp.core → exec (.tokpass a b) s = .next (s.tokenNotHeld i shape)) ∧
       (k.holder = i.grp.core → who ≠ 0x1FF → s.wheelCore i.grp.ctx k.wheel who = false →
         exec (.tokpass a b) s = .next (s.illegal i)) ∧
       (k.holder = i.grp.core → (who = 0x1FF ∨ s.wheelCore i.grp.ctx k.wheel who = true) → s.tokenBusy i.grp.ctx i.grp.core shape = true →
         exec (.tokpass a b) s = .next (s.block i .engine)) ∧
       (k.holder = i.grp.core → (who = 0x1FF ∨ s.wheelCore i.grp.ctx k.wheel who = true) → s.tokenBusy i.grp.ctx i.grp.core shape = false →
         s.accessWait i.c.g i.c.w true true = none →
         let dest := if who ≠ 0x1FF then who else match k.queue with | x :: _ => x.1 | [] => i.grp.core
         let late := (s.regq.filter fun r => r.core == i.grp.core && r.id == 0 && s.inToken i.grp.ctx shape r.word).map Reg.word
         let u := late.eraseDups.foldl (fun t word => t.register i.grp.core word) (s.released i)
         let t := (u.writeBack i.grp.core i.grp.ctx (s.inToken i.grp.ctx shape)).moveToken i.grp.ctx shape dest
         exec (.tokpass a b) s = .next (t.retire i) ∧
         t.token? i.grp.ctx shape = some { k with holder := dest, queue := k.queue.filter fun x => x.1 != dest }) ∧
       (∀ u bar w, BarUnit s i false false false (i.wv.sreg b.toNat).val u bar w →
         (k.holder = i.grp.core → exec (.tokreq a b) s = .next ((u.barArrive bar 1 false).retire i)) ∧
         (k.holder ≠ i.grp.core → (∀ x ∈ k.queue, x.1 ≠ i.grp.core) → u.wheelCore i.grp.ctx k.wheel i.grp.core = true →
           exec (.tokreq a b) s = .next (({ u with tokens := u.tokens.map fun x => if x.ctx == i.grp.ctx && x.shape == shape then
             { x with queue := x.queue ++ [(i.grp.core, bar.key.1, bar.key.2)] } else x } : State).retire i)))))

/-! ## Sections -/

/-- R311, R312, R314, R316: VENTER and VENTERT of lanes that hold no such key and have room file a request for every lane,
and VSECQ a query; VENTER's fragment waits for its grants, VENTERT's for its answers, VSECQ's goes on. R305, R313,
R315: leaving a key raises its expected number, or with retire returns it to 0, drops the holder and keeps the release
record; the waiter with the expected number holds the key next; an entry with nothing left is freed; a query that the lane sent to
that home before is answered first. -/
def Obligations.SectionWords : Prop :=
  (∀ (s : State) (i : Iss) (d a b : BitVec 7) (ea eb : Bool), a.toNat % 2 = 0 → vOk i.wv (a.toNat + 1) = true →
     (s.accessWait i.c.g i.c.w true false = none →
       (∀ l < 32, i.fr.live.getLsbD l = true → (∀ h ∈ i.wv.held, h.lane = l → h.key ≠ keyOf i.wv a.toNat l) ∧
         (i.wv.held.filter fun h => h.lane == l).length < 4) →
       vOk i.wv b.toNat = true → noPorts i.wv (secSrcs a.toNat b.toNat ea eb) →
       (WordUnit s i {} false (secSrcs a.toNat b.toNat ea eb) [] →
         exec (.venter a b ea eb) s = .next (((s.newCall i 0 0 i.wv a.toNat b.toNat).pushAll
           (laneEvents .sectionRequestArrival s.seq i.fr.live)).block i .section_)) ∧
       (WordUnit s i {} false (secSrcs a.toNat b.toNat ea eb) [(false, d.toNat)] → vDst i.wv d.toNat = true →
         d ≠ a → d.toNat ≠ a.toNat + 1 → d ≠ b →
         exec (.ventert d a b ea eb) s = .next ((((s.newCall i 1 d.toNat i.wv a.toNat b.toNat).updCur i fun v =>
           v.emptyV d.toNat i.fr.live).pushAll (laneEvents .ventertAnswer s.seq i.fr.live)).block i .entert))) ∧
     (let src : Src := ⟨0, false, a.toNat, 2, .bit, ea⟩
      noPorts i.wv [src] →
       (WordUnit s i {} false [src] [(false, d.toNat)] → vDst i.wv d.toNat = true →
         exec (.vsecq d a ea) s = .next ((((s.newCall i 2 d.toNat i.wv a.toNat a.toNat).updCur i fun v =>
           v.emptyV d.toNat i.fr.live).pushAll (laneEvents .vsecqAnswer s.seq i.fr.live)).retire i)) ∧
       (∀ r : Bool, WordUnit s i {} false [src] [] → s.accessWait i.c.g i.c.w true true = none →
         (∀ l < 32, i.fr.live.getLsbD l = true → ⟨l, keyOf i.wv a.toNat l⟩ ∈ i.wv.held) →
         let rt := i.wv.releaseTime (s.ticksOf i.grp.ctx)
         exec (.vleave a r ea) s = .next ((((lanesOf i.fr.live).foldl (fun t l => t.leaveKey i (keyOf i.wv a.toNat l) l rt r) s).setRelts
           i.c.g i.c.w rt).retire i)))) ∧
  (∀ (s : State) (i : Iss) (key : DWord) (lane rt : Nat) (r : Bool) (e : SecKey), s.sec? i.grp.ctx key = some e →
     (∀ c ∈ s.calls, c.kind = 2 → c.g = i.c.g → c.w = i.c.w → c.lanes.getLsbD lane = true →
       s.keyHome c.ctx (c.keys.getD lane 0) ≠ s.keyHome i.grp.ctx key) →
     let n : BitVec 32 := if r then 0 else e.expected + 1
     let t := s.leaveKey i key lane rt r
     (∀ w, (e.waiters.find? fun x => x.seq == n) = some w →
       t.sec? i.grp.ctx key = some { e with expected := n, holder := some (w.g, w.w, w.lane), rcd := some (i.grp.core, rt), idle := 0
                                            waiters := e.waiters.filter fun x => x != w } ∧
       t.agenda = s.agenda ++ [⟨.sectionGrant, { a := w.call, b := w.lane }⟩]) ∧
     ((∀ w ∈ e.waiters, w.seq ≠ n) → (e.waiters ≠ [] ∨ n ≠ 0) →
       t.sec? i.grp.ctx key = some { e with expected := n, holder := none, rcd := some (i.grp.core, rt), idle := 0 } ∧
       t.agenda = s.agenda) ∧
     (e.waiters = [] → n = 0 → t.sec? i.grp.ctx key = none ∧ t.agenda = s.agenda) ∧
     (∀ v, s.wave? i.c.g i.c.w = some v →
       t.wave? i.c.g i.c.w = some { v with held := v.held.filter fun h => !(h.lane == lane && h.key == key) })) ∧
  (∀ (s : State) (i : Iss) (key : DWord) (lane rt : Nat) (r : Bool) (c : SecCall), s.calls = [c] → c.kind = 2 → c.g = i.c.g →
     c.w = i.c.w → lane < 32 → c.lanes.getLsbD lane = true → s.keyHome c.ctx (c.keys.getD lane 0) = s.keyHome i.grp.ctx key →
     s.leaveKey i key lane rt r = (s.secqAnswer c.id lane).leaveKey i key lane rt r)

/-- R312, R313, R314, R316, R318, R321, R322: a request that arrives joins its key's waiters and is served when its number
is the expected one; a grant gives every lane granted by then its key and moves those lanes past the word together; a
refusal makes the lanes refused take SECTION_CAPACITY; VENTERT's answer is 1 exactly when the key was free with the
lane's number, and VSECQ's the expected number; every cycle of waiting lanes, and a key that has stalled for its limit,
stop the context. What a stop cause sets off is log 46, and that bits [1:0] of TVEC play no part is log 66. -/
def Obligations.SectionEvents : Prop :=
  (∀ (s : State) (c : SecCall) (e : SecKey) (l : Nat), s.call? s.ev.a = some c → l = s.ev.b → c.kind = 0 →
    c.lanes.getLsbD l = true → c.refused.getLsbD l = false → (∀ k < l, c.lanes.getLsbD k = true → c.keys.getD k 0 ≠ c.keys.getD l 0) →
    s.sec? c.ctx (c.keys.getD l 0) = some e →
    exec .sectionRequestArrival s = .next ((s.updSec c.ctx (c.keys.getD l 0) fun e =>
      { e with waiters := e.waiters ++ [⟨s.ev.a, c.g, c.w, l, c.seqs.getD l 0, c.wdog⟩] }).serve c.ctx (c.keys.getD l 0))) ∧
  (∀ (s : State) (c : SecCall) (e : SecKey) (v : Wave) (f : Frag) (l : Nat), s.call? s.ev.a = some c → l = s.ev.b → c.kind = 0 →
    c.lanes.getLsbD l = true → s.sec? c.ctx (c.keys.getD l 0) = some e → e.holder = some (c.g, c.w, l) → s.wave? c.g c.w = some v → l < 32 →
    let hit := s.grantedLanes c
    (v.frags.find? fun f => (f.live &&& hit) != 0 && f.wait == some .section_) = some f →
    hit.getLsbD l = true ∧
    ∃ t, exec .sectionGrant s = .next t ∧ t.wave? c.g c.w = some (Wave.split
      { v with held := v.held ++ (lanesOf hit).map (fun k => ⟨k, c.keys.getD k 0⟩), units := v.units + (lanesOf hit).length } f
      ([(hit, f.prio, f.pc + 4, false), (f.live &&& ~~~hit, f.prio, f.pc, true)].filter fun p => p.1 != 0))) ∧
  (∀ (s : State) (c : SecCall) (v : Wave) (f : Frag) (g : Group) (n : Launch), s.call? s.ev.a = some c → c.kind = 0 →
    BitVec.ofNat 32 s.ev.b &&& f.live ≠ 0 → c.lanes &&& c.refused = f.live →
    s.wave? c.g c.w = some v → v.Apart → f ∈ v.frags → f.wait = some .section_ → s.group? c.g = some g → s.launch? g.launch = some n →
    f.frame = none → v.regs.tvec ≠ 0 →
    ∃ t v' x fm, exec .sectionRefuse s = .next t ∧ t.wave? c.g c.w = some v' ∧ x ∈ v'.frags ∧ fm ∈ v'.frames ∧ x.live = f.live ∧
      x.pc = trapEntry v.regs.tvec ∧ x.prio = 15 ∧ x.frame = some fm.slot ∧ fm.cause = 0x0A ∧ fm.fpc = f.pc ∧
      fm.faddr = c.keys.getD ((lanesOf f.live).headD 0) 0 ∧ fm.finfo = f.live.setWidth 64) ∧
  (∀ (s : State) (c : SecCall) (e : SecKey) (v : Wave) (l : Nat), s.call? s.ev.a = some c → l = s.ev.b → l < 32 → c.kind = 1 →
    c.lanes.getLsbD l = true → s.sec? c.ctx (c.keys.getD l 0) = some e → s.wave? c.g c.w = some v → c.dst < v.vregs.length →
    (v.vreg c.dst).lanes.length = 32 → v.quadLive l = true → c.lanes &&& ~~~laneBit l ≠ 0 →
    let ok := e.holder.isNone && e.expected == c.seqs.getD l 0
    ∃ t v' e', exec .ventertAnswer s = .next t ∧ t.wave? c.g c.w = some v' ∧ (v'.vreg c.dst).lane l = (if ok then 1 else 0) ∧
      v'.held = v.held ++ (if ok then [⟨l, c.keys.getD l 0⟩] else []) ∧ t.sec? c.ctx (c.keys.getD l 0) = some e' ∧
      e'.expected = e.expected ∧ e'.holder = (if ok then some (c.g, c.w, l) else e.holder)) ∧
  (∀ (s : State) (c : SecCall) (l : Nat), s.call? s.ev.a = some c → l = s.ev.b → c.kind = 2 → c.lanes.getLsbD l = true →
    let x := match s.sec? c.ctx (c.keys.getD l 0) with | some e => e.expected | none => 0
    exec .vsecqAnswer s = .next (((s.updWave c.g c.w fun v => v.landV c.dst l tI32 x c.who).resave c.g c.w).updCall s.ev.a fun c =>
      { c with lanes := c.lanes &&& ~~~laneBit l })) ∧
  (∀ (s : State) (c : Ctx) (p : Part), s.ctxs = [c] → c.phase = .running → s.partOf c.id = some p → p.n = s.ev.a →
    s.ev.b = (if s.detCtx c.id then c.id + 1 else 0) →
    exec .sectionDeadlockSearch s = .next ((s.secCycles c.id).foldl (fun t ks =>
      ks.foldl (fun t k => t.raiseStop c.id none (t.cycleRec c.id ks.length k)) t) s)) ∧
  (∀ (s : State) (e : SecKey), s.sec? s.ev.a (BitVec.ofNat 64 s.ev.b) = some e →
    exec .sectionWatchdog s = .next (if e.stalled then (s.raiseStop s.ev.a none
      { cause := 0x27, engine := 10, unit := e.home, addr := BitVec.ofNat 64 s.ev.b, detail := 0, total := 1 }).updSec s.ev.a
        (BitVec.ofNat 64 s.ev.b) fun x => { x with idle := 0 } else s))

/-! ## Engines and the network -/

/-- R257, R299, R300, R302, R303: COPY, FILL, COPYM and COPYS whose checks pass put one command at the end of the engine's
queue, with a range entry for each extent that is not empty, and the unit goes on; of the machine only the commands, the
range entries and the events to come have grown. The events of the copy and network engines are logs 38 and 59. -/
def Obligations.CopyWords : Prop :=
  (∀ (s : State) (i : Iss) (a b c : BitVec 7), sOk i.wv a.toNat = true → sOk i.wv b.toNat = true → sOk i.wv c.toNat = true →
    c.toNat + 1 < i.wv.scount →
    let x := (i.wv.sreg a.toNat).val
    let y := (i.wv.sreg b.toNat).val
    let z := i.operand c 0
    let bar := i.operand c 1
    let len := ccLen z
    let cm := fun op => i.cmd s 0 op x y (BitVec.ofNat 64 (ccEntry z)) 0 len (ccBytes z) bar
    let kick : Event := if len = 0 then ⟨.copyComplete, { a := s.seq }⟩ else ⟨.copyUnitHeld, { a := s.seq }⟩
    let ex := extOf i.c.g x len
    let ey := extOf i.c.g y len
    (EngineUnit s i (engineSrcs a b c 2) 0 bar [ey] [ex] → localForm x = true → localForm y = true →
      i.grp.pastEnd x len = none → i.grp.pastEnd y len = none → s.tokenWord i ex = none →
      exec (.copy a b c) s = .next ((s.addCmd i (cm 0) [ey] [ex] [kick]).retire i)) ∧
    (EngineUnit s i (engineSrcs a b c 2) 0 bar [] [ex] → localForm x = true → i.grp.pastEnd x len = none →
      s.tokenWord i ex = none → exec (.fill a b c) s = .next ((s.addCmd i (cm 2) [] [ex] [kick]).retire i)) ∧
    (∀ p, s.partOf i.grp.ctx = some p → mcPart (s.mcastEntry (ccEntry z)) = p.n → localForm y = true → i.grp.pastEnd y len = none →
      let ds : List Ext := (mcUsed (s.mcastEntry (ccEntry z))).filterMap fun j =>
        let d := mcBase (s.mcastEntry (ccEntry z)) j + x
        if canonical d then some ⟨none, d.toNat, d.toNat + len⟩ else none
      (∀ e ∈ ds, s.tokenWord i e = none) → EngineUnit s i (engineSrcs a b c 2) 0 bar [ey] ds →
      exec (.copym a b c) s = .next ((s.addCmd i (cm 3) [ey] ds [kick]).retire i)) ∧
    (let src := s.shapeOf i.grp.ctx (x.toNat / 256 % 256)
     let dst := s.shapeOf i.grp.ctx (x.toNat % 256)
     let n := copysCount src y.toNat
     ∀ se de, copysFormats src dst = true → s.shapeExt i.grp src = some (se, none) → s.shapeExt i.grp dst = some (de, none) →
      (n ≠ 0 → s.tokenWord i de = none) → EngineUnit s i (engineSrcs a b c 2) 0 bar (if n = 0 then [] else [se]) (if n = 0 then [] else [de]) →
      exec (.copys a b c) s = .next ((s.addCmd i { i.cmd s 0 1 0 y 0 0 n (ccBytes z) bar with
        payload := leBytes 64 src.toNat ++ leBytes 64 dst.toNat } (if n = 0 then [] else [se]) (if n = 0 then [] else [de])
          [if n = 0 then ⟨.copyComplete, { a := s.seq }⟩ else ⟨.copyUnitHeld, { a := s.seq }⟩]).retire i))) ∧
  (∀ (s : State) (i : Iss) (c : Cmd) (srcs dsts : List Ext) (kick : List Event),
    let t := s.addCmd i c srcs dsts kick
    t.cmds = s.cmds ++ [c] ∧ t.agenda = s.agenda ++ kick ∧ t.mem = s.mem ∧ t.waves = s.waves ∧ t.groups = s.groups ∧
    (∃ es, t.ranges = s.ranges ++ es ∧ (∀ e ∈ es, e.owner = c.id ∧ e.ctx = i.grp.ctx) ∧
      (∀ x, (∃ e ∈ es, e.kind = 0 ∧ e.pad = x.pad ∧ e.lo = x.lo ∧ e.hi = x.hi) ↔ x ∈ srcs ∧ x.lo < x.hi) ∧
      (∀ x, (∃ e ∈ es, e.kind = 1 ∧ e.pad = x.pad ∧ e.lo = x.lo ∧ e.hi = x.hi) ↔ x ∈ dsts ∧ x.lo < x.hi)))

/-- R300, R302, R303, R405: a unit of COPY is read and written as the engine's accesses have it, of FILL its pattern
continues by address, and the command's next unit or its completion follows, the groups of a core taking turns; a
completed command frees its range entries, leaves the queue, arrives at its barrier and counts as the context's
progress; a fragment that waited for an engine may issue again; an agent that stops halts its commands of the context
and no others. When a unit counts as the last one, and the order in which groups take turns, are log 39 (DEDUCED). -/
def Obligations.CopyEvents : Prop :=
  (∀ (s : State) (c : Cmd), s.cmd? s.ev.a = some c → c.engine = 0 → s.cmdGoes c = true → s.firstOfGroup c = true → c.done < c.len →
    (∀ f ∈ s.faults, f.cmd ≠ some c.id) → s.copyPick c = c →
    let u := nextUnit c.a c.b (c.op = 2) c.len c.done
    let d := placeOf c.g c.a
    let over_ := decide (c.len ≤ c.done + u.2)
    let s0 : State := { s with copyTurn := (s.copyTurn.filter fun y => y.1 != c.unit) ++ [(c.unit, c.g)] }
    (c.byteMode = true → c.pend ≠ 0 → s0.barWaits c c.kick = none) →
    (c.op = 0 → ∀ s1 bs s2, s0.engRead c.unit c.ctx (placeOf c.g c.b).1 ((placeOf c.g c.b).2 + u.1) u.2 = .ok s1 bs →
      s1.engWrite c.unit c.ctx d.1 (d.2 + u.1) bs = .ok s2 () → exec .copyUnitHeld s = .next (s2.unitHeld c u.2 over_)) ∧
    (c.op = 2 → ∀ s2, s0.engWrite c.unit c.ctx d.1 (d.2 + u.1)
        ((List.range u.2).map fun k => ((c.b >>> (8 * ((c.a.toNat + u.1 + k) % 8))).setWidth 8 : Byte)) = .ok s2 () →
      exec .copyUnitHeld s = .next (s2.unitHeld c u.2 over_))) ∧
  (∀ (s : State) (c : Cmd), (∃ k, s.copyRivals c = List.replicate k c) → s.copyPick c = c) ∧
  (∀ (s : State) (c : Cmd), s.cmd? s.ev.a = some c → c.engine = 0 → s.cmdGoes c = true → c.op = 0 ∨ c.op = 2 → c.len ≤ c.done →
    s.barWaits c ⟨.copyComplete, { a := s.ev.a }⟩ = none →
    ∃ t, exec .copyComplete s = .next t ∧ t = s.cmdDone c false ∧ (∀ x ∈ t.cmds, x.id ≠ c.id) ∧
      (∀ r ∈ t.ranges, r.owner = c.id → r.kind ≠ 0 ∧ r.kind ≠ 1) ∧
      (c.bar = 0 → ∀ x, s.ctx? c.ctx = some x → t.ctx? c.ctx = some { x with acts := x.acts + 1 })) ∧
  (∀ (s : State) (v : Wave) (f : Frag), s.wave? s.ev.a s.ev.b = some v → v.Apart → f ∈ v.frags → f.id = s.ev.c → f.wait = some .engine →
    ∃ t v', exec .engineCommandIssueWaitEnd s = .next t ∧ t.wave? s.ev.a s.ev.b = some v' ∧
      v'.frags = v.frags.map (fun x => if x.id = f.id then { x with wait := none } else x) ∧ t = { s with waves := t.waves }) ∧
  (∀ (s : State), s.ev.b ≠ 9 → (∀ c ∈ s.cmds, c.started = false) → (s.cmds.map Cmd.id).Nodup →
    exec .agentStop s = .next { s with cmds := s.cmds.map fun c =>
      if c.ctx = s.ev.a ∧ c.engine = s.ev.b ∧ c.unit = s.ev.c then { c with halted := true } else c })

/-- R343, R344: NPUT, NGET and NPOST to a peer that the partition has a route to put one command in the network engine's
queue; the local range is its source, for NGET its destination. R348, R349: VFWD sends each lane's record on its channel
in ascending lane order, one permit for each, and waits at the first lane without a permit with the lanes before it
sent, to go on from that lane with what it read at its issue (R6); VFWDT never waits and tells each lane whether it
sent. R21: a channel that an audit has frozen takes no record. R343: which links reach a package is the installation's
(log 13). What a VFWD that waits keeps in its fragment is log 25 (DESIGN CHOICE). -/
def Obligations.NetworkWords : Prop :=
  (∀ (s : State) (i : Iss) (a b c : BitVec 7) (p : Part), sOk i.wv a.toNat = true → sOk i.wv b.toNat = true → sOk i.wv c.toNat = true →
     s.partOf i.grp.ctx = some p → s.top.pkgid ≠ none →
     let x := (i.wv.sreg a.toNat).val
     let y := (i.wv.sreg b.toNat).val
     let z := i.operand c 0
     let bar := i.operand c 1
     let len := ccLen z
     let opts := BitVec.ofNat 64 (ncRoute z + (if ncBorrow z then 4 else 0))
     let kick : Event := if len = 0 then ⟨.networkCommandComplete, { a := s.seq }⟩ else ⟨.networkUnitAck, { a := s.seq }⟩
     ncRoute z ≠ 3 →
     (c.toNat + 1 < i.wv.scount → isGalord x = true → localForm y = true → i.grp.pastEnd y len = none →
       (s.isOwnPkg (galordPkg x) = true ∨ s.routeOk p.n (ncRoute z) (galordPkg x) = true) →
       (EngineUnit s i (engineSrcs a b c 2) 7 bar [extOf i.c.g y len] [] →
         exec (.nput a b c) s = .next ((s.addCmd i (i.cmd s 7 0 x y opts 0 len (ccBytes z) bar) [extOf i.c.g y len] [] [kick]).retire i)) ∧
       (c.toNat + 2 < i.wv.scount → isGalord (i.operand c 2) = true → (i.operand c 2).toNat % 16 = 0 →
         EngineUnit s i (engineSrcs a b c 3) 7 bar [extOf i.c.g y len] [] →
         exec (.npost a b c) s = .next
           ((s.addCmd i (i.cmd s 7 2 x y opts (i.operand c 2) len (ccBytes z) bar) [extOf i.c.g y len] [] [kick]).retire i))) ∧
     (c.toNat + 1 < i.wv.scount → isGalord y = true → localForm x = true → i.grp.pastEnd x len = none →
       (s.isOwnPkg (galordPkg y) = true ∨ s.routeOk p.n (ncRoute z) (galordPkg y) = true) → s.tokenWord i (extOf i.c.g x len) = none →
       EngineUnit s i (engineSrcs a b c 2) 7 bar [] [extOf i.c.g x len] →
       exec (.nget a b c) s = .next ((s.addCmd i (i.cmd s 7 1 x y opts 0 len (ccBytes z) bar) [] [extOf i.c.g x len] [kick]).retire i))) ∧
  (∀ (s : State) (i : Iss) (d a b : BitVec 7) (ea eb : Bool) (p : Part), vOk i.wv (a.toNat + 14) = true → sOk i.wv b.toNat = true →
     let srcs : List Src := [⟨0, false, a.toNat, 15, .bit, ea⟩, ⟨1, true, b.toNat, 1, .bit, eb⟩]
     i.fr.fwdLane = none → s.accessWait i.c.g i.c.w false true = none → noPorts i.wv srcs → s.partOf i.grp.ctx = some p →
     let ch : Nat → Nat := fun l => ((i.wv.vreg a.toNat).lane l).toNat % 4096
     let payload : Nat → List Byte := fun l => (List.range 14).flatMap fun k => leBytes 4 ((i.wv.vreg (a.toNat + 1 + k)).lane l).toNat
     let user := (i.wv.sreg b.toNat).val.toNat % 2 ^ 32
     let send : State → Nat → State := fun t l => t.sendRecord i.grp.ctx i.ln.id p (ch l) l user (payload l)
     (p.frozen = true → WordUnit s i {} false srcs [] → exec (.vfwd a b ea eb) s = .next (s.block i .assay)) ∧
     (p.frozen = false → (∀ l < 32, i.fr.live.getLsbD l = true → s.chanOk p (ch l) = true) →
     (WordUnit s i {} false srcs [] →
       ((∀ l < 32, i.fr.live.getLsbD l = true → ∀ c ∈ s.chans, c.n = ch l → 32 ≤ c.permits) →
         exec (.vfwd a b ea eb) s = .next (((lanesOf i.fr.live).foldl send s).retire i)) ∧
       (∀ pre l post, lanesOf i.fr.live = pre ++ l :: post →
         (∀ k ∈ pre, ∀ c ∈ s.chans, c.n = ch k → 32 ≤ c.permits) →
         let t := pre.foldl send s
         ∀ c, t.sendChan p (ch l) = some c → c.permits = 0 →
         exec (.vfwd a b ea eb) s = .next ((t.block i (.permit (ch l))).updCurFrag i fun f =>
           { f with fwdLane := some l, fwdSrc := some (fwdRead i.wv a.toNat b.toNat) }))) ∧
     (WordUnit s i {} false srcs [(false, d.toNat)] → vDst i.wv d.toNat = true → d.toNat < a.toNat ∨ a.toNat + 14 < d.toNat →
       i.ln.det = false →
       (∀ l < 32, i.fr.live.getLsbD l = true → ∀ c ∈ s.chans, c.n = ch l → 32 ≤ c.permits) →
       exec (.vfwdt d a b ea eb) s = .next ((((lanesOf i.fr.live).foldl send s).updCur i fun v => v.writeV d.toNat i.fr.live tI32
         ((List.range 32).map fun l => if i.fr.live.getLsbD l then 1 else 0)).retire i)))) ∧
  (∀ (s : State) (i : Iss) (a b : BitVec 7) (ea eb : Bool) (p : Part) (l0 : Nat) (user : DWord) (rows : List (List Word)),
     WordUnit s i {} false [] [] → vOk i.wv (a.toNat + 14) = true → sOk i.wv b.toNat = true → s.partOf i.grp.ctx = some p →
     p.frozen = false → i.fr.fwdLane = some l0 → i.fr.fwdSrc = some (user, rows) →
     let ch : Nat → Nat := fun l => ((rows.getD 0 []).getD l 0).toNat % 4096
     let payload : Nat → List Byte := fun l => (List.range 14).flatMap fun k => leBytes 4 ((rows.getD (1 + k) []).getD l 0).toNat
     (∀ l < 32, l0 ≤ l → i.fr.live.getLsbD l = true → s.chanOk p (ch l) = true) →
     ((∀ l < 32, l0 ≤ l → i.fr.live.getLsbD l = true → ∀ c ∈ s.chans, c.n = ch l → 32 ≤ c.permits) →
       exec (.vfwd a b ea eb) s = .next ((((lanesOf i.fr.live).filter fun l => decide (l0 ≤ l)).foldl (fun t l =>
         t.sendRecord i.grp.ctx i.ln.id p (ch l) l (user.toNat % 2 ^ 32) (payload l)) s).retire i)) ∧
     (i.fr.live.getLsbD l0 = true → l0 < 32 → ∀ c, s.sendChan p (ch l0) = some c → c.permits = 0 →
       exec (.vfwd a b ea eb) s = .next (((s.undoIssue i).block i (.permit (ch l0))).updCurFrag i fun f =>
         { f with fwdLane := some l0, fwdSrc := some (user, rows) })))

/-- R266, R326, R328, R330, R331, R337, R342, R344, R350, R352 to R355, R389: what a network unit, a completion, a payload that
lands, an access of a peer, a refusal, a failing link, a timeout, a returning permit and the tables of system software do. That a
unit's acknowledgement is the event that takes it to its end is log 38, what each failure brings is log 61, and that a smaller
borrow cache discards its oldest lines is log 77. -/
def Obligations.NetworkEvents : Prop :=
  (∀ (s : State) (c : Cmd), s.cmd? s.ev.a = some c → c.engine = 7 → s.cmdGoes c = true → s.firstOfGroup c = true → c.retry = 0 →
    c.done < c.len → (∀ f ∈ s.faults, f.cmd ≠ some s.ev.a) → s.pressSend? s.ev.a = none →
    let part := match s.partOf c.ctx with | some p => p.n | none => 0
    let u := nextUnit c.a c.b true c.len c.done
    let off := BitVec.ofNat 64 u.1
    let far := galordPkg (if c.op = 1 then c.b else c.a)
    (s.isOwnPkg far = true ∨ s.routeOk part (c.c.toNat % 4) far = true) →
    (c.byteMode = true → c.pend ≠ 0 → s.barWaits c c.kick = none) →
    (c.op ≠ 1 → ∀ s1 bs, s.engRead c.unit c.ctx (placeOf c.g c.b).1 ((placeOf c.g c.b).2 + u.1) u.2 = .ok s1 bs →
      s1.isOwnPkg (galordPkg c.a) = false → exec .networkUnitAck s = .next ((s1.emit (if s1.byLink part (c.c.toNat % 4) far
        then .galord (c.a + off) 1 bs else .net part 1 (leBytes 8 (c.a + off).toNat ++ bs))).netHeld c u.2)) ∧
    (c.op = 1 → s.isOwnPkg (galordPkg c.b) = false → ∀ s1 bs s2, s.remoteRead part (c.b + off) u.2 (c.c.toNat / 4 % 2 = 1) = (s1, bs) →
      (∀ l, s1.launch? c.launch = some l → l.det = false) →
      s1.engWrite c.unit c.ctx (placeOf c.g c.a).1 ((placeOf c.g c.a).2 + u.1) bs = .ok s2 () →
      exec .networkUnitAck s = .next (s2.netHeld c u.2))) ∧
  (∀ (s : State) (c : Cmd), s.cmd? s.ev.a = some c → c.engine = 7 → s.cmdGoes c = true → c.len ≤ c.done →
    s.barWaits c ⟨.networkCommandComplete, { a := s.ev.a }⟩ = none →
    let part := match s.partOf c.ctx with | some p => p.n | none => 0
    let arrived : State → State := fun t => (t.updCmd s.ev.a fun x => { x with pos := 1 }).push .networkCommandComplete { a := s.ev.a }
    (c.op ≠ 2 ∨ c.pos ≠ 0 →
      ((∀ x ∈ s.sends, x.cmd ≠ some s.ev.a) → exec .networkCommandComplete s = .next (s.cmdDone c false)) ∧
      ((∃ x ∈ s.sends, x.cmd = some s.ev.a) → exec .networkCommandComplete s = .next s)) ∧
    (c.op = 2 → c.pos = 0 → s.top.pkgid ≠ none → (∀ f ∈ s.faults, f.cmd ≠ some s.ev.a) →
      (∀ s1 pa w k, s.isOwnPkg (galordPkg c.d) = true → s.galord c.ctx c.d .atomic 16 = (s1, .own pa) →
        s1.barRead (.glob pa) = some w → s1.barImmutable c.ctx (.glob pa) = false → (s1.barArrive (.glob pa) 1 false).cmd? s.ev.a = some k →
        k.halted = false → (∀ f ∈ (s1.barArrive (.glob pa) 1 false).faults, f.cmd ≠ some s.ev.a) →
        exec .networkCommandComplete s = .next (arrived (s1.barArrive (.glob pa) 1 false))) ∧
      (s.isOwnPkg (galordPkg c.d) = false → s.routeOk part (c.c.toNat % 4) (galordPkg c.d) = true →
        let u := s.emit (if s.byLink part (c.c.toNat % 4) (galordPkg c.d) then .galord c.d 5 (barPacket 0 1)
          else .net part 5 (leBytes 8 c.d.toNat ++ barPacket 0 1))
        exec .networkCommandComplete s = .next (arrived (({ u with seq := s.seq + 1, sends := s.sends ++
          [⟨s.seq, c.ctx, some c.launch, c.d, some c.id, 0⟩] } : State).push .registration { b := c.d.toNat, c := s.seq }))) ∧
      (s.isOwnPkg (galordPkg c.d) = false → s.routeOk part (c.c.toNat % 4) (galordPkg c.d) = false →
        ∀ k, (s.cmdViolate c c.d 12 0 0 .engineWrite).cmd? s.ev.a = some k → k.halted = true →
        exec .networkCommandComplete s = .next (s.cmdViolate c c.d 12 0 0 .engineWrite)))) ∧
  (∀ (s : State) (p : Part), s.part? s.ev.a = some p → s.heard s.ev.a = true → p.closing = false → s.replaying s.ev.a = false →
    s.ev.failed = false →
    (s.ev.d = 2 → exec .networkReceive s = .next (s.discarded s.ev.a 3 (BitVec.ofNat 64 s.ev.b))) ∧
    (∀ s' pa, s.ev.d ≠ 2 → s.translate2 p s.ev.b .engineWrite = (s', .ok pa true) → s.ev.bytes ≠ [] →
      s.ev.bytes.length ≤ 4096 - s.ev.b % 4096 → s.ev.c = 0 →
      s'.touchesObject 2 pa s.ev.bytes.length = false → s'.touchesObject 3 pa s.ev.bytes.length = false →
      s'.partFails pa s.ev.bytes.length = false → (∀ l ∈ (s'.homeWrite pa s.ev.bytes).launches, l.det = false) →
      exec .networkReceive s = .next ((s'.homeWrite pa s.ev.bytes).landed s.ev.a))) ∧
  (∀ (s : State) (p : Part), s.part? s.ev.a = some p → s.heard s.ev.a = true → s.replaying s.ev.a = false →
    s.ev.failed = false →
    let ad := s.grantSpan p s.ev.b s.ev.c (s.ownVa s.ev.e) s.ev.e (remoteAcc s.ev.d) (pagePieces s.ev.e s.ev.f)
    (∀ s1, ad = (s1, .refused) → exec .remoteAccessArrival s = .next (s1.emit (.remote s.ev.b 1 []))) ∧
    (∀ s1 ps, ad = (s1, .ok ps) →
      (s.ev.d = 1 ∨ s.ev.d = 2 → (∀ q ∈ ps, s1.partFails q.2.2 q.2.1 = false) → (∀ l ∈ (s1.writePieces s.ev.bytes ps).launches, l.det = false) →
        exec .remoteAccessArrival s = .next (((s1.writePieces s.ev.bytes ps).landed s.ev.a).emit (.remote s.ev.b 0 []))) ∧
      (∀ bs, s.ev.d = 0 → s1.lentAt ps = none → s1.piecesRead ps = some bs →
        exec .remoteAccessArrival s = .next (s1.emit (.remote s.ev.b 0 bs))))) ∧
  (∀ (s : State) (c : Cmd), s.req? s.ev.a = none → (∀ r ∈ s.regq, r.id ≠ s.ev.a ∨ r.id = 0) → s.cmd? s.ev.a = some c → c.engine = 7 →
    let far := if c.len ≤ c.done then c.d
      else (if c.op = 1 then c.b else c.a) + BitVec.ofNat 64 (nextUnit c.a c.b true c.len c.done).1
    exec .remoteErrorResponse s = .next (({ s with sends := s.sends.filter fun x => x.id != s.ev.a } : State).cmdViolate c far
      (if s.ev.c = 1 then 8 else 9) 0 0 (if c.op = 1 then .engineRead else .engineWrite))) ∧
  (∀ (s : State) (r : Req), s.req? s.ev.a = some r → s.cmd? s.ev.a = none → (∀ x ∈ s.sends, x.id ≠ s.ev.a) →
    let lg := s.logAccess r.ctx (r.va.getD s.ev.b 0) (if s.ev.c = 1 then 8 else 9) 0 0 (if r.kind.isAtomic then Acc.atomic else .load).code
    exec .remoteErrorResponse s = .next (lg.1.raiseStop r.ctx ((s.group? r.g).map (·.launch))
      { cause := 0x20, engine := 8, unit := r.core, addr := r.va.getD s.ev.b 0, detail := lg.2 })) ∧
  (∀ (s : State) (p : Part), (s.ev.a, p.n) ∈ s.top.links → (s.top.links.map (·.1)).Nodup → s.part? p.n = some p →
    (s.ev.b = 1 → exec .flitCrcFailure s = .next (s.logError ⟨BitVec.ofNat 64 s.ev.a, p.n, 1, 2, 0, p.hbeat⟩)) ∧
    (s.ev.b ≠ 1 → ∃ t, exec .flitCrcFailure s = .next t ∧ s.ev.a ∈ t.top.retraining ∧
      (s.ev.ids = [] → t = { s with top := { s.top with retraining := t.top.retraining } }))) ∧
  (∀ (s : State), exec .linkRetrained s = .next { s with top := { s.top with
    retraining := s.top.retraining.filter fun l => l ≠ s.ev.a } }) ∧
  (∀ (s : State) (c : Cmd) (p : Part), s.cmd? s.ev.a = some c → c.engine = 7 → s.partOf c.ctx = some p →
    (∀ co ∈ s.colls, ∀ x ∈ co.sends, x.id ≠ s.ev.a) →
    let far := if c.len ≤ c.done then c.d
      else (if c.op = 1 then c.b else c.a) + BitVec.ofNat 64 (nextUnit c.a c.b true c.len c.done).1
    (c.retry < 7 → exec .retransmitTimeout s = .next (s.updCmd c.id fun x => { x with retry := x.retry + 1 })) ∧
    (∀ port, c.retry = 7 → (s.top.ports.find? fun x => x.2 == p.n) = some (port, p.n) → s.req? s.ev.a = none →
      (∀ r ∈ s.regq, r.id ≠ s.ev.a ∨ r.id = 0) →
      exec .retransmitTimeout s = .next ((s.logError ⟨BitVec.ofNat 64 port, p.n, 1, 3, 1, s.hbeatOf c.ctx⟩).raiseStop c.ctx (some c.launch)
        { cause := 0x26, engine := 15, unit := port, addr := far, detail := BitVec.ofNat 64 port
          done := 7, total := 7 }))) ∧
  (∀ (s : State) (x : Send), s.cmd? s.ev.a = none → (∀ f ∈ s.fwds, f.id ≠ s.ev.a) → (∀ co ∈ s.colls, ∀ x ∈ co.sends, x.id ≠ s.ev.a) →
    (s.sends.find? fun x => x.id == s.ev.a) = some x → x.retry < 7 →
    exec .retransmitTimeout s = .next { s with sends := s.sends.map fun y => if y.id == s.ev.a then { y with retry := y.retry + 1 } else y }) ∧
  (∀ (s : State) (f : Fwd), (s.fwds.find? fun f => f.part == s.ev.a && f.ch == s.ev.b) = some f → f.retry = 0 →
    (∀ l, s.launch? f.launch = some l → l.det = false) →
    ∃ t, exec .permitReturn s = .next t ∧ t.fwds = s.fwds.filter (fun x => x.id != f.id) ∧
      t.chans = s.chans.map (fun c => if c.part = s.ev.a ∧ c.n = s.ev.b ∧ c.receives = false then { c with permits := c.permits + 1 } else c) ∧
      t = { s with fwds := t.fwds, chans := t.chans, waves := t.waves, agenda := t.agenda } ∧
      ((∀ co ∈ s.colls, co.part = s.ev.a → co.arrived = false) → t.agenda = s.agenda) ∧
      (∀ co ∈ s.colls, co.part = s.ev.a → co.arrived = true → ∀ c, s.cmd? co.id = some c → ∃ e ∈ t.agenda, e.what = .pressComplete ∧
        e.args.a = c.unit) ∧
      ∀ v ∈ s.waves, (∀ f ∈ v.frags, f.wait ≠ some (.permit s.ev.b)) → v ∈ t.waves) ∧
  (∀ (s : State), s.ev.a < 4096 → s.top.stage ≠ .recovery → s.ev.bytes.length = 272 → ∃ t, exec .multicastEntryWrite s = .next t ∧
    t.mcastEntry s.ev.a = leNat s.ev.bytes ∧ (∀ n, n ≠ s.ev.a → t.mcastEntry n = s.mcastEntry n) ∧ t = { s with mcast := t.mcast }) ∧
  (∀ (s : State) (p : Part), s.part? s.ev.a = some p → ∃ t q, exec .borrowcfgWrite s = .next t ∧ t.part? s.ev.a = some q ∧
    q = { p with borrowcfg := BitVec.ofNat 64 (min 16 (s.ev.b % 32)) } ∧ (∀ b ∈ t.borrow, b ∈ s.borrow) ∧
    (∀ b ∈ s.borrow, b.part ≠ s.ev.a → b ∈ t.borrow) ∧
    (t.borrow.filter fun b => b.part == s.ev.a).length ≤ min 16 (s.ev.b % 32) * 2 ^ 18) ∧
  (∀ (s : State), ∃ t, exec .borrowInvalidation s = .next t ∧
    t = { s.emit (.remote (galordPkg (BitVec.ofNat 64 s.ev.b)) 5 (leBytes 8 s.ev.d)) with borrow := t.borrow } ∧ ∀ b, b ∈ t.borrow ↔ b ∈ s.borrow ∧
    (b.part ≠ s.ev.a ∨ 4096 * b.line + 4096 ≤ s.ev.b ∨ s.ev.b + s.ev.c ≤ 4096 * b.line))

/-! ## Matrix arrays -/

/-- R182, R183, R189 to R192: MTCFG, MZERO, MLDW, MSWAP, MSTR and MVALID whose checks pass put one command in the core's
array queue, with a source entry for the shape that it reads; a configuration, the planes' formats and the valid counts
hold for the words that follow at once. With the STREAM bit MLDW and MSTR take the next block of the stream, and a
stream whose blocks are all claimed gives EMPTY_SOURCE. The order of the checks and of the commands is log 35 (DEDUCED),
a stream of the other kind log 80. -/
def Obligations.ArrayWords : Prop :=
  ∀ (s : State) (i : Iss) (a b c : BitVec 7) (t : BitVec 4),
    let x := (i.wv.sreg a.toNat).val.toNat
    let y := (i.wv.sreg b.toNat).val.toNat
    let z := (i.wv.sreg c.toNat).val.toNat
    (∀ cfg : BitVec 48, ArrayUnit s i a b c 1 (some t) → cfg = BitVec.ofNat 48 x → cfgFmt cfg ≠ 3 → 16 ≤ cfgOff cfg →
      (cfgFmt cfg = 1 → cfgCols cfg ≤ 64) →
      cfgOff cfg * 1024 + cfgRows cfg * cfgCols cfg * tileSize (cfgFmt cfg) ≤ i.grp.accSize →
      exec (.mtcfg a t) s = .next ((s.arrayFiled i (i.arrayCmd s 0 0 0 (tileWord t.toNat cfg) 0 0) [] []).updGroup i.c.g fun g =>
        g.setTile ⟨t.toNat, true, g.tileInvalid t.toNat, cfg⟩)) ∧
    (∀ k, ArrayUnit s i a b c 0 (some t) → i.grp.tile? t.toNat = some k →
      exec (.mzero t) s = .next (s.arrayFiled i (i.arrayCmd s 1 0 0 (tileWord t.toNat k.cfg) 0 0) [] [])) ∧
    (ArrayUnit s i a b c 0 none → exec .mswap s = .next ((s.arrayFiled i (i.arrayCmd s 3 0 0 0 0 0) [] []).updGroup i.c.g fun g =>
        { g with planeFmt := g.shadowFmt, shadowFmt := g.planeFmt })) ∧
    (ArrayUnit s i a b c 3 none → x ≤ 128 → z ≤ 128 →
      exec (.mvalid a b c) s = .next ((s.arrayFiled i (i.arrayCmd s 6 0 0 0 0 0) [] []).updGroup i.c.g fun g =>
        { g with mv := x, kv := y % 2 ^ 32, nv := z })) ∧
    (∀ st : Stream, ebit x 8 = true → s.streamFor i.grp (x / 2 ^ 12 % 16) (x / 2 ^ 9 % 8) = some st →
      ∀ k, st.sub? i.c.g = some k → k.claimed < st.nblocks →
      let u := s.updStream st.id fun y => y.updSub i.c.g fun w => { w with claimed := w.claimed + 1 }
      (st.rowKind = false → ArrayUnit s i a b c 3 none → i.grp.accSize ≠ 0 →
        exec (.mldw a b c) s = .next ((u.arrayFiled i { i.arrayCmd s 2 x 0 0 0 0 with
          payload := leBytes 64 st.shape.toNat, blocks := [(st.id, k.claimed)] } [] []).updGroup i.c.g fun g =>
            { g with shadowFmt := st.rec_.fmt })) ∧
      (∀ fit l, st.rowKind = true → ArrayUnit s i a b c 2 (some t) → stationary i.grp.planeFmt 8 = some fit → st.rec_.fmt ∈ fit.acts →
        i.grp.tile? t.toNat = some l → tileTag (cfgFmt l.cfg) = tileTag fit.tile → x / 2 ^ 24 % 128 + st.rows ≤ cfgRows l.cfg →
        boffBad i.grp y = false →
        exec (.mstr a b t) s = .next (u.arrayFiled i { i.arrayCmd s 4 (st.n0 + 2 ^ 32 * (x / 2 ^ 31 % 2))
          (x / 2 ^ 24 % 128 + 2 ^ 8 * st.rows + 2 ^ 32 * (y / 2 ^ 32)) (tileWord t.toNat l.cfg) st.rows (boffBar y) with
            payload := leBytes 64 st.rec_.toNat, blocks := [(st.id, k.claimed)] } [] []))) ∧
    (ebit x 8 = true →
      (∀ st, s.streamFor i.grp (x / 2 ^ 12 % 16) (x / 2 ^ 9 % 8) = st → (∀ z k, st = some z → z.sub? i.c.g = some k → z.nblocks ≤ k.claimed) →
        (ArrayUnit s i a b c 3 none → i.grp.accSize ≠ 0 → exec (.mldw a b c) s = .next (s.trap i 0x03 0 (emptyInfo 0 0))) ∧
        (ArrayUnit s i a b c 2 (some t) → stationary i.grp.planeFmt 8 ≠ none →
          exec (.mstr a b t) s = .next (s.trap i 0x03 0 (emptyInfo 0 0))))) ∧
    (let sh := s.shapeOf i.grp.ctx (x % 256)
     ∀ e, ebit x 8 = false → s.arrayExt i.grp sh = (e, none) → s.engineWait i 1 [e] [] = none →
      (ArrayUnit s i a b c 3 none → i.grp.accSize ≠ 0 → stationary sh.fmt sh.prec ≠ none →
        exec (.mldw a b c) s = .next ((s.arrayFiled i { i.arrayCmd s 2 y z 0 0 0 with payload := leBytes 64 sh.toNat } [e] []).updGroup
          i.c.g fun g => { g with shadowFmt := sh.fmt })) ∧
      (∀ fit k, ArrayUnit s i a b c 2 (some t) → stationary i.grp.planeFmt 8 = some fit → sh.fmt ∈ fit.acts →
        i.grp.tile? t.toNat = some k → tileTag (cfgFmt k.cfg) = tileTag fit.tile →
        x / 2 ^ 24 % 128 + (x / 2 ^ 16 % 128 + 1) ≤ cfgRows k.cfg → boffBad i.grp y = false →
        let rows := x / 2 ^ 16 % 128 + 1
        exec (.mstr a b t) s = .next (s.arrayFiled i { i.arrayCmd s 4 (x / 2 ^ 32 + 2 ^ 32 * (x / 2 ^ 31 % 2))
            (x / 2 ^ 24 % 128 + 2 ^ 8 * rows + 2 ^ 32 * (y / 2 ^ 32)) (tileWord t.toNat k.cfg) rows (boffBar y) with
          payload := leBytes 64 sh.toNat } [e] [])))

/-- R194, R196, R199 to R201: MJOIN, MTLD, MTST, the row and column words, MGANG and STREAM. MTROW and MTCOL leave the
registers they fill empty in the lanes of F; a gang is one command in the queue of every member's core; a stream whose
number is active is discarded with MSTAT's bit 30 set. The order of the checks is log 35 (DEDUCED). -/
def Obligations.TileWords : Prop :=
  ∀ (s : State) (i : Iss) (a b c : BitVec 7) (t : BitVec 4),
    let x := (i.wv.sreg a.toNat).val.toNat
    let y := (i.wv.sreg b.toNat).val.toNat
    let z := (i.wv.sreg c.toNat).val.toNat
    (∀ p kd ks, ArrayUnit s i a b c 2 none → s.peer? i.grp (x / 2 ^ 8 % 16) = some p → x / 16 % 16 < i.tiles → x % 16 < i.tiles →
      boffBad i.grp y = false → i.grp.tile? (x % 16) = some kd → p.tile? (x / 16 % 16) = some ks → cfgFmt ks.cfg = cfgFmt kd.cfg →
      cfgRows ks.cfg = cfgRows kd.cfg → cfgCols ks.cfg = cfgCols kd.cfg →
      exec (.mjoin a b) s = .next (s.arrayFiled i
        (i.arrayCmd s 7 (tileWord (x / 16 % 16) ks.cfg).toNat p.g (tileWord (x % 16) kd.cfg) (cfgRows kd.cfg) (boffBar y)) [] [])) ∧
    (let sh := s.shapeOf i.grp.ctx (x % 256)
     ∀ k e, ArrayUnit s i a b c 2 (some t) → sh.fmt ≠ 0 → i.grp.tile? t.toNat = some k → boffBad i.grp x = false →
      s.arrayExt i.grp sh = (e, none) →
      (sh.fmt ∈ moveFormats false (cfgFmt k.cfg) → s.engineWait i 1 [e] [] = none →
        exec (.mtld a b t) s = .next (s.arrayFiled i { i.arrayCmd s 8 y 0 (tileWord t.toNat k.cfg) (cfgRows k.cfg) (boffBar x) with
          payload := leBytes 64 sh.toNat } [e] [])) ∧
      (sh.fmt ∈ moveFormats true (cfgFmt k.cfg) → s.tokenWord i e = none → sh.cls ≠ 2 → s.engineWait i 1 [] [e] = none →
        exec (.mtst a b t) s = .next (s.arrayFiled i { i.arrayCmd s 9 y 0 (tileWord t.toNat k.cfg) (cfgRows k.cfg) (boffBar x) with
          payload := leBytes 64 sh.toNat } [] [e]))) ∧
    (∀ k (row : Bool), ArrayUnit s i a b c 2 (some t) → i.grp.tile? t.toNat = some k →
      let sp := lineSpan row k.cfg (y % 128)
      x % 128 < sp.2.1 → (cfgFmt k.cfg = 1 → y % 2 = 0) →
      ((∀ n ∈ sp.2.2, vDst i.wv n = true ∧ (i.wv.vreg n).pend = 0) →
        exec (if row then .mtrow a b t else .mtcol a b t) s = .next ((s.arrayFiled i
          (i.arrayCmd s (if row then 10 else 11) (x % 128) (y % 128) (tileWord t.toNat k.cfg) i.fr.live.toNat 0) [] []).updCur i fun v =>
            sp.2.2.foldl (fun v n => v.emptyV n i.fr.live) v)) ∧
      ((∀ n ∈ sp.2.2, vOk i.wv n = true ∧ i.wv.port? n = none ∧ (i.wv.vreg n).pend = 0) →
        exec (if row then .mtwrow a b t else .mtwcol a b t) s = .next (s.arrayFiled i
          { i.arrayCmd s (if row then 12 else 13) (x % 128) (y % 128) (tileWord t.toNat k.cfg) i.fr.live.toNat 0 with
            payload := sp.2.2.flatMap fun n => (i.wv.vreg n).lanes.flatMap fun w => leBytes 4 w.toNat } [] []))) ∧
    (ArrayUnit s i a b c 2 (some t) →
      let ranks := (List.range 16).filter fun k => ebit x k
      let ms := ranks.filterMap fun k => s.peer? i.grp k
      let gc := x / 2 ^ 18 % 8 + 1
      let gr := x / 2 ^ 16 % 4 + 1
      let exts := ((ms.map fun m => (s.arrayExt m (s.shapeOf i.grp.ctx (y % 256))).1).filter fun e => decide (e.lo < e.hi)).eraseDups
      gc ≤ 5 → gr ≤ 3 → ranks.length = gr * gc → ms.length = ranks.length → x / 2 ^ 21 % 8 + gc ≤ 8 → x / 2 ^ 32 % 2 ^ 16 ≠ 0 →
      boffBad i.grp y = false → s.engineWait i 1 exts [] = none →
      ∃ u cs, exec (.mgang a b t) s = .next u ∧ u.cmds = s.cmds ++ cs ∧ cs.map (fun k => (k.engine, k.op, k.g, k.unit)) =
          ms.map (fun m => (1, 5, m.g, m.core)) ∧
        u.gangs = s.gangs ++ [⟨s.seq, ms.map (·.g), false, if ebit y 9 then some (y / 2 ^ 10 % 2 ^ 20 * 16) else none, ms.map (·.g)⟩] ∧
        u.agenda = s.agenda ++ ms.map (fun m => ⟨.arrayCommandStart, { a := m.core }⟩) ∧ u.mem = s.mem) ∧
    (WordUnit s i {} true [usrc 0 a .bit, usrc 1 b .bit, usrc 2 c .bit] [] → sOk i.wv a.toNat = true → sOk i.wv b.toNat = true →
      sOk i.wv c.toNat = true → ∀ gs ks e,
      let r := s.shapeOf i.grp.ctx (x % 256)
      let q := x / 2 ^ 8 % 8
      let win := x / 2 ^ 12 % 16 + 1
      let off := z % 2 ^ 20
      let rows := z / 2 ^ 20 % 256 + 1
      let slot := if ebit x 11 then (rows * ks * fmtBytes r.fmt + 127) / 128 * 128 else 8192
      ((List.range 16).filter fun k => ebit x (16 + k)).map (fun k => s.peer? i.grp k) = gs.map some → gs ≠ [] →
      (∀ g ∈ gs, off + win * slot ≤ g.padSize) → off % 128 = 0 → x / 2 ^ 32 ≠ 0 →
      (if ebit x 11 then rowBlockK r.fmt (z / 2 ^ 28 % 8) else (stationary r.fmt r.prec).map (·.ks)) = some ks →
      ((∃ st ∈ s.streams, st.g = i.c.g ∧ st.q = q) → exec (.stream a b c) s = .next
        ((s.updGroup i.c.g fun g => { g with mstat := g.mstat ||| 0x40000000 }).retire i)) ∧
      ((∀ st ∈ s.streams, st.g = i.c.g → st.q ≠ q) → s.arrayExt i.grp r = (e, none) →
        s.engineWait i 3 [e] (gs.map fun g => ⟨some g.g, off, off + win * slot⟩) = none →
        ∃ u st, exec (.stream a b c) s = .next u ∧ u.streams = s.streams ++ [st] ∧ st.id = s.seq ∧ st.g = i.c.g ∧ st.q = q ∧ st.shape = r ∧
          st.nblocks = x / 2 ^ 32 ∧ st.win = win ∧ st.rowKind = ebit x 11 ∧ st.n0 = y / 2 ^ 32 ∧ st.k0 = y % 2 ^ 32 ∧ st.ks = ks ∧
          st.rows = rows ∧ st.woff = off ∧ st.subs = gs.map (fun g => ⟨g.g, 0, [], []⟩) ∧ st.read = 0 ∧
          u.agenda = s.agenda ++ [⟨.streamBlockDelivered, { a := i.c.g, b := q }⟩] ∧ u.mem = s.mem))

/-- R183, R185, R190, R191, R199, R201: what the array does with the command whose turn it is: MTCFG clears the tile's mark,
MZERO zeroes it, MLDW loads the shadow plane, MSWAP exchanges the planes, MSTR adds a row's products, MJOIN adds a
peer's row, MTROW and MTCOL deliver a line of the tile and MTWROW and MTWCOL write one. The order in which groups take
turns is log 35, and what a waiting command leaves the array to do log 80. -/
def Obligations.ArrayResults : Prop :=
  ∀ (s : State) (c : Cmd) (gr : Group), s.arrayPick s.ev.a = some c → s.group? c.g = some gr →
    let u : State := { s with
      arrayTurn := (s.arrayTurn.filter fun x => x.1 != s.ev.a) ++ [(s.ev.a, c.g)]
      cmds := s.cmds.map fun x => if x.id == c.id then { x with started := true } else x }
    (c.op = 0 → ∃ t g, exec .arrayCommandStart s = .next t ∧ t.group? c.g = some g ∧ g.tileInvalid c.tile = false ∧ g.acc = gr.acc) ∧
    (c.op = 1 → ∃ t g, exec .arrayCommandStart s = .next t ∧ t.group? c.g = some g ∧ g.tileInvalid c.tile = false ∧
      ∀ r n, r < cfgRows c.cfg → n < cfgCols c.cfg → g.cell c.cfg r n = 0) ∧
    (c.op = 2 → c.blocks = [] → ∀ fit reg u' xs, stationary c.shapeRec.fmt c.shapeRec.prec = some fit → u.regionOf gr c.shapeRec = some reg →
      u.blockRead c.unit c.ctx reg c.shapeRec (c.shapeRec.blockCoords (c.a.toNat % 2 ^ 32) (c.a.toNat / 2 ^ 32) (c.b.toNat % 2 ^ 32)
        (c.b.toNat / 2 ^ 32) fit.ks fit.ns) = .ok u' xs → u'.group? c.g = some gr →
      ∃ t, exec .arrayCommandStart s = .next t ∧ t.group? c.g = some { gr with
        shadow := some (makePlane c.shapeRec fit (c.a.toNat % 2 ^ 32) xs (gr.smoothOf c.shapeRec (c.a.toNat % 2 ^ 32) fit.ks)) }) ∧
    (c.op = 3 → ∃ t, exec .arrayCommandStart s = .next t ∧ t.group? c.g = some { gr with plane := gr.shadow, shadow := gr.plane }) ∧
    (c.op = 4 → c.blocks = [] → ∀ p u' xs, gr.plane = some p → c.done < c.mv →
      c.b.toNat % 2 ^ 8 + c.done < cfgRows c.cfg →
      u.actRow c gr p c.shapeRec (c.a.toNat % 2 ^ 32 + c.done) (c.b.toNat / 2 ^ 32) = .ok u' xs → u'.group? c.g = some gr →
      let m := c.b.toNat % 2 ^ 8 + c.done
      let cols := min (min p.ns c.nv) (cfgCols c.cfg)
      let acc := if ebit c.a.toNat 32 then List.replicate cols 0 else gr.rowAcc c.cfg m cols
      ∃ t g, exec .arrayCommandStart s = .next t ∧ t.group? c.g = some g ∧ ∀ n, n < cols →
        g.cell c.cfg m n = (streamRow p (cfgFmt c.cfg) c.shapeRec.fmt c.kv cols xs acc).getD n 0 % 2 ^ (8 * tileSize (cfgFmt c.cfg))) ∧
    (c.op = 7 → ∀ pg, s.group? c.b.toNat = some pg →
      let ts := c.a.toNat / 2 ^ 48 % 16
      (gr.tileInvalid c.tile = true ∨ pg.tileInvalid ts = true → (gr.tiles.any fun x => x.t == c.tile) = true →
        ∃ t g, exec .arrayCommandStart s = .next t ∧ t.group? c.g = some g ∧ g.tileInvalid c.tile = true ∧ g.acc = gr.acc) ∧
      (gr.tileInvalid c.tile = false → pg.tileInvalid ts = false → ∃ t g, exec .arrayCommandStart s = .next t ∧ t.group? c.g = some g ∧
        ∀ n, n < cfgCols c.cfg → g.cell c.cfg c.done n = joinCell (cfgFmt c.cfg) (gr.cell c.cfg c.done n)
          (pg.cell (c.a.setWidth 48) c.done n) % 2 ^ (8 * tileSize (cfgFmt c.cfg)))) ∧
    (∀ row : Bool, c.op = (if row then 10 else 11) → cfgFmt c.cfg ≠ 1 → gr.tileInvalid c.tile = false → gr.resident = true →
      ∀ v, s.wave? c.g c.w = some v →
      (∀ n ∈ (lineSpan row c.cfg c.b.toNat).2.2, n < v.vregs.length ∧ (v.vreg n).lanes.length = 32) →
      let who : LaneMask := BitVec.ofNat 32 c.len
      ∃ t v', exec .arrayCommandStart s = .next t ∧ t.wave? c.g c.w = some v' ∧
        (∀ e, e < (lineSpan row c.cfg c.b.toNat).1 → (v'.vreg (c.b.toNat + e / 32)).lane (e % 32) =
          if who.getLsbD (e % 32) ∧ v.quadLive (e % 32) = true then
            BitVec.ofNat 32 (if row then gr.cell c.cfg c.a.toNat e else gr.cell c.cfg e c.a.toNat)
          else (v.vreg (c.b.toNat + e / 32)).lane (e % 32)) ∧
        ∀ n ∈ (lineSpan row c.cfg c.b.toNat).2.2, (v'.vreg n).pend = (v.vreg n).pend &&& ~~~ who ∧
          (v.live ≠ 0 → v.live &&& ~~~ who = 0 → (v'.vreg n).tag = BitVec.ofNat 4 (tileTag (cfgFmt c.cfg)))) ∧
    (∀ row : Bool, c.op = (if row then 12 else 13) → cfgFmt c.cfg ≠ 1 → ∃ t g, exec .arrayCommandStart s = .next t ∧ t.group? c.g = some g ∧
      ∀ e, e < (lineSpan row c.cfg c.b.toNat).1 → (if row then g.cell c.cfg c.a.toNat e else g.cell c.cfg e c.a.toNat) =
        leNat ((c.payload.drop (4 * e)).take 4))

/-- R83, R188, R195, R196, R204: an array command that is done frees its entries and arrives at its barrier; a gang whose
members have all ended arrives once at each member's barrier; a stream's next block lands in every subscriber's window
at its turn's place; the feeder pushes its record's next vector; FEED's status is 0 for a record taken, 1 for a full
feeder and 2 for a malformed record. That a feeder holds four records beside the one that runs is log 36 (DEDUCED). -/
def Obligations.ArrayEvents : Prop :=
  (∀ (s : State) (c : Cmd), s.cmd? s.ev.a = some c → c.engine = 1 → c.finished = true → s.cmdGoes c = true →
    exec .arrayCommandComplete s = .next (((((s.unlock c.id).dropCmd c.id).acted c.ctx).cmdBar c (fun w => w.arrive 1 c.error)
      (barPacket 0 (1 + (if c.error then 2 ^ 16 else 0)))).push .arrayCommandStart { a := c.unit })) ∧
  (∀ (s : State) (x : Gang), (s.gangs.find? fun y => y.id == s.ev.a) = some x → x.left = [] → ∃ t, exec .gangCompletion s = .next t ∧
    (∀ y ∈ t.gangs, y.id ≠ s.ev.a) ∧ (∀ off, x.boff = some off → t = x.members.foldl (fun t g => t.barArrive (.pad g off) 1 x.error)
      (({ s with gangs := s.gangs.filter fun y => y.id != s.ev.a } : State).unlock s.ev.a))) ∧
  (∀ (s s1 : State) (st : Stream) (c : Cmd) (gr : Group) (reg : Region) (xs : List (Nat × Nat)),
    (s.streams.find? fun x => x.g == s.ev.a && x.q == s.ev.b) = some st → s.stream? st.id = some st → s.cmd? st.id = some c →
    s.group? s.ev.a = some gr → s.cmdGoes c = true → (∀ f ∈ s.faults, f.cmd ≠ some c.id) → st.read < st.nblocks →
    (∀ z ∈ st.subs, st.read < st.win ∨ st.read - st.win ∈ z.used) → (∀ z ∈ st.subs, st.read ∉ z.drop) → s.regionOf gr st.rec_ = some reg →
    s.blockRead c.unit c.ctx reg st.rec_ (st.coords st.read) = .ok s1 xs → s1.streams = s.streams → s1.groups = s.groups →
    ∃ t, exec .streamBlockDelivered s = .next t ∧
      (∃ st', t.stream? st.id = some st' ∧ st'.read = st.read + 1 ∧ st'.subs = st.subs) ∧
      (∀ z ∈ st.subs, ∀ g, s.group? z.g = some g → ∃ g', t.group? z.g = some g' ∧
        g'.padBytes (st.woff + st.read % st.win * st.slot) (st.pack (xs.map (·.1))).length = st.pack (xs.map (·.1)))) ∧
  (∀ (s s1 : State) (gr : Group) (c : Cmd) (reg : Region) (xs : List Nat), s.group? s.ev.a = some gr →
    (s.cmds.find? fun c => c.engine == 2 && c.g == s.ev.a) = some c → s.cmdGoes c = true → (∀ f ∈ s.faults, f.cmd ≠ some c.id) →
    (gr.queue c.op).length < 16 →
    let sh : Shape := BitVec.ofNat 512 (leNat (c.payload.drop 64))
    s.regionOf gr sh = some reg →
    eachMem (fun s k => s.feedElem c.unit c.ctx reg sh (c.payload.take 64) (c.done + k)) (List.range (min 32 (c.len - c.done))) s = .ok s1 xs →
    s1.groups = s.groups →
    ∃ t g, exec .feederPush s = .next t ∧ t.group? s.ev.a = some g ∧
      g.queue c.op = gr.queue c.op ++ [(deliverTag sh.fmt, (List.range 32).map fun l => BitVec.ofNat 32 (xs.getD l 0))]) ∧
  (∀ (s : State) (f : Fill) (gr : Group), (s.fills.find? fun f => f.id == s.ev.a && f.kind == 2) = some f → s.group? f.g = some gr →
    let r := f.bytes.take 64
    let sh : Shape := BitVec.ofNat 512 (leNat ((f.bytes.drop 64).take 64))
    (f.bytes = [] ∨ arMalformed r sh = true → exec .feedStatusFill s = .next ((s.fillStatus f 2).unlock f.id)) ∧
    (f.bytes ≠ [] → arMalformed r sh = false → 5 ≤ (s.cmds.filter fun c => c.engine == 2 && c.g == f.g).length →
      exec .feedStatusFill s = .next ((s.fillStatus f 1).unlock f.id)) ∧
    (f.bytes ≠ [] → arMalformed r sh = false → gr.resident = true → (s.cmds.filter fun c => c.engine == 2 && c.g == f.g).length < 5 →
      ∃ t c, exec .feedStatusFill s = .next t ∧ t.cmds = s.cmds ++ [c] ∧ c.id = f.id ∧ c.engine = 2 ∧ c.g = f.g ∧ c.op = arQueue r ∧
        c.len = arTotal r ∧ c.payload = f.bytes.take 128 ∧ t.waves = (s.fillStatus f 0).waves ∧
        t.agenda = s.agenda ++ [⟨.feederPush, { a := f.g }⟩]))

/-! ## Work, shapes and shared units -/

/-- R82, R83, R89, R108, R110, R111, R179, R180, R204, R205: SHDEF, SHDROP, LAUNCH, GRAB and FEED leave their S destinations
empty until their outcome fills; RANGESET gives the core's wedge's unit its values at once; QBIND makes a register a
port of the queue, and QUNBIND every port of it a register that holds zero. That a RANGESET acts at its issue, before
any grab not yet served, is log 74 (DESIGN CHOICE). -/
def Obligations.WorkWords : Prop :=
  ∀ (s : State) (i : Iss) (a b c : BitVec 7),
    let x := (i.wv.sreg a.toNat).val
    let y := (i.wv.sreg b.toNat).val
    let z := (i.wv.sreg c.toNat).val
    sOk i.wv a.toNat = true → sOk i.wv b.toNat = true → sOk i.wv c.toNat = true →
    (∀ u bs, WordUnit s i {} true [usrc 1 b .bit, usrc 2 c .bit] [(true, a.toNat)] → s.accessWait i.c.g i.c.w false false = none →
      RecordRead s i z 64 u bs → (Shape.cls (BitVec.ofNat 512 (leNat bs)) = 2 → u.accessWait i.c.g i.c.w false true = none) →
      exec (.shdef a b c) s = .next ((u.fillFiled i ⟨u.seq, i.c.g, i.c.w, a.toNat, none, 1, BitVec.ofNat 64 (y.toNat % 256), 0, bs⟩
        .shapeStatusFill [a.toNat]).retire i)) ∧
    (WordUnit s i {} true [usrc 1 b .bit] [(true, a.toNat)] →
      exec (.shdrop a b) s = .next ((s.fillFiled i ⟨s.seq, i.c.g, i.c.w, a.toNat, none, 1, BitVec.ofNat 64 (y.toNat % 256), 1, []⟩
        .shapeStatusFill [a.toNat]).retire i)) ∧
    (WordUnit s i {} true [usrc 1 b .bit] [(true, a.toNat)] → y.toNat % 64 = 0 → s.accessWait i.c.g i.c.w true true = none →
      exec (.launch a b) s = .next ((((s.fillFiled i ⟨s.seq, i.c.g, i.c.w, a.toNat, none, 0, y, 0, []⟩ .launchStatusFill
        [a.toNat]).released i)).retire i)) ∧
    (WordUnit s i {} true [usrc 2 c .bit] [(true, a.toNat), (true, b.toNat)] →
      exec (.grab a b c) s = .next ((s.fillFiled i ⟨s.seq, i.c.g, i.c.w, a.toNat, some b.toNat, 3, BitVec.ofNat 64 (z.toNat % 16),
        BitVec.ofNat 64 (wedgeOf i.grp.core), []⟩ .grabServed [a.toNat, b.toNat]).retire i)) ∧
    (∀ u bs e, WordUnit s i {} true [usrc 1 b .bit] [(true, a.toNat)] → s.accessWait i.c.g i.c.w false true = none → y.toNat % 64 = 0 →
      RecordRead s i y 64 u bs → bs ≠ [] → let sh := u.shapeOf i.grp.ctx (arShape bs)
      arMalformed bs sh = false → u.arrayExt i.grp sh = (e, none) → u.engineWait i 2 [e] [] = none →
      ∃ p : Nat, exec (.feed a b) s = .next (((u.lockFor p i.grp.ctx 2 i.grp.core u.seq [e] []).fillFiled i
        ⟨u.seq, i.c.g, i.c.w, a.toNat, none, 2, BitVec.ofNat 64 (arQueue bs), y,
          bs ++ (leBytes 64 sh.toNat ++ leBytes 8 i.c.unitPc.toNat)⟩ .feedStatusFill [a.toNat]).retire i)) ∧
    (WordUnit s i {} true [usrc 0 a .bit, usrc 1 b .bit, usrc 2 c .bit] [] →
      exec (.rangeset a b c) s = .next ((s.updCtx i.grp.ctx fun k => k.setUnit ⟨wedgeOf i.grp.core, x.toNat % 16, y.toInt, z.toInt,
        max 1 (x.toNat / 2 ^ 16 % 2 ^ 16), max 1 (x.toNat / 2 ^ 32)⟩).retire i)) ∧
    (WordUnit s i {} true [usrc 0 a .bit, usrc 1 b .bit] [] → vOk i.wv (120 + y.toNat % 8) = true → (i.wv.vreg (120 + y.toNat % 8)).pend = 0 →
      exec (.qbind a b) s = .next ((s.updCur i fun v => { v with
        ports := (v.ports.filter fun p => p.1 != 120 + y.toNat % 8) ++ [(120 + y.toNat % 8, x.toNat % 8)]
        vregs := v.vregs.set (120 + y.toNat % 8) ⟨List.replicate 32 0, tRAW, 0⟩ }).retire i)) ∧
    (WordUnit s i {} true [usrc 0 a .bit] [] → ∃ t v, exec (.qunbind a) s = .next t ∧ t.wave? i.c.g i.c.w = some v ∧
      (∀ p, p ∈ v.ports ↔ p ∈ i.wv.ports ∧ p.2 ≠ x.toNat % 8) ∧
      (∀ p ∈ i.wv.ports, p.2 = x.toNat % 8 → p.1 < i.wv.vregs.length → v.vreg p.1 = ⟨List.replicate 32 0, tRAW, 0⟩) ∧
      (∀ n, i.wv.port? n = none → v.vreg n = i.wv.vreg n) ∧ v.sregs = i.wv.sregs ∧ t.mem = s.mem)

/-- R80, R109: ENQ of a node's group copies its records to the next free slots of the target's queue, spends as many of its
reservations, and is a release; a count of 0 only goes on, and the checks that fail take ENQ_OVERFLOW with their reason.
R82, R179, R180: what fills: SHDEF's status, with the record in the table exactly when it is 0, and SHDROP's, with the
entry cleared; a grab's chunk, the larger of CHUNK and an equal part of what is left, clamped to what is left. Which
slots records take is log 26 (DESIGN CHOICE). -/
def Obligations.WorkOutcomes : Prop :=
  (∀ (s : State) (i : Iss) (a b c : BitVec 7), sOk i.wv a.toNat = true → sOk i.wv b.toNat = true → sOk i.wv c.toNat = true →
     WordUnit s i {} true [usrc 0 a .bit, usrc 1 b .bit, usrc 2 c .bit] [] → s.accessWait i.c.g i.c.w true true = none →
     let e := (i.wv.sreg a.toNat).val.toNat
     let src := (i.wv.sreg b.toNat).val
     let n := (i.wv.sreg c.toNat).val.toNat
     let node := i.grp.node.bind fun k => i.ln.nodes[k]?
     (n = 0 → exec (.enq a b c) s = .next (s.retire i)) ∧
     (n ≠ 0 → src.toNat % 8 = 0 →
       (node = none → exec (.enq a b c) s = .next (s.trap i 0x09 0 (enqInfo n e 0))) ∧
       (∀ nd, node = some nd →
         (nd.edges[e]? = none → exec (.enq a b c) s = .next (s.trap i 0x09 0 (enqInfo n e 1))) ∧
         (∀ t k, nd.edges[e]? = some (t, k) →
           (32 < n → exec (.enq a b c) s = .next (s.trap i 0x09 0 (enqInfo n e 2))) ∧
           (n ≤ 32 → i.grp.reserved.getD e 0 < n → exec (.enq a b c) s = .next (s.trap i 0x09 0 (enqInfo n e 3))) ∧
           (n ≤ 32 → n ≤ i.grp.reserved.getD e 0 → ∀ (q : Node) (u : State) (ts : List (Nat × DWord × Tgt)) (bs : List (List Byte)) (w : State), i.ln.nodes[t]? = some q →
             let words : List (Nat × DWord) := (List.range (n * q.recBytes / 8)).map fun k => (0, src + BitVec.ofNat 64 (8 * k))
             Access s i .load false 8 words u ts → (∀ x ∈ words, isGalord x.2 = false) → u.holdFault i .load ts = none →
             ts.map (fun x => match x.2.2 with | .mem pa => u.loadBytes i.grp.core pa 8 | _ => none) = bs.map some →
             u.enqSlots i.grp.core i.grp.ctx q ((List.range n).map fun k => (bs.flatten.drop (k * q.recBytes)).take q.recBytes) = .ok w () →
             exec (.enq a b c) s = .next ((((List.range n).foldl (fun z _ => z.noteRecord i.ln.id t (w.ticksOf i.grp.ctx) none)
               ((w.updGroup i.c.g fun g => { g with reserved := g.reserved.set e (g.reserved.getD e 0 - n) }).updLaunch i.ln.id fun l =>
                 l.updNode t fun y => { y with resv := y.resv - n })).released i).retire i)))))) ∧
  ((∀ (s : State) (f : Fill) (gr : Group), (s.fills.find? fun f => f.id == s.ev.a && f.kind == 1) = some f → s.group? f.g = some gr →
     let part := match s.partOf gr.ctx with | some p => p.n | none => 0
     let r : Shape := BitVec.ofNat 512 (leNat f.bytes)
     let st := s.shapeStatus part gr.ctx (some (wheelOf (wedgeOf gr.core))) f.x.toNat r true
     (f.y = 1 → exec .shapeStatusFill s = .next (((s.freeObject gr.ctx f.x.toNat).setShape gr.ctx f.x.toNat 0).fillStatus f 0)) ∧
     (f.y ≠ 1 → exec .shapeStatusFill s = .next (if st = 0 then (s.defineShape part gr.core gr.ctx f.x.toNat r).fillStatus f 0
       else s.fillStatus f st))) ∧
   (∀ (s : State) (ctx n : Nat) (r : Shape) (c : Ctx), s.ctx? ctx = some c → (s.setShape ctx n r).shapeOf ctx n = r ∧
     ∀ m, m ≠ n → (s.setShape ctx n r).shapeOf ctx m = s.shapeOf ctx m) ∧
   (∀ (s : State) (f : Fill) (gr : Group) (c : Ctx), (s.fills.find? fun f => f.id == s.ev.a && f.kind == 3) = some f →
     s.group? f.g = some gr → gr.resident = true → s.ctx? gr.ctx = some c → (∀ x ∈ s.fills, x.kind = 3 → s.ev.a ≤ x.id) →
     ∃ t, exec .grabServed s = .next t ∧ t.ctx? gr.ctx = some (c.setUnit (c.unit f.y.toNat f.x.toNat).grab.1) ∧
       t = ({ s with fills := s.fills.filter fun x => x.id != s.ev.a, ctxs := t.ctxs } : State).updWave f.g f.w fun v =>
         (v.setS f.s (BitVec.ofInt 64 (c.unit f.y.toNat f.x.toNat).grab.2.1) tI64).setS (f.s2.getD 0)
           (BitVec.ofInt 64 (c.unit f.y.toNat f.x.toNat).grab.2.2) tI64) ∧
   (∀ u : RangeUnit, 0 < u.parts →
     (u.last ≤ u.next → u.grab = (u, u.next, 0)) ∧
     (u.next < u.last → ∃ n : Int, u.grab = ({ u with next := u.next + n }, u.next, n) ∧ n ≤ u.last - u.next ∧
       (n = u.last - u.next ∨ (u.chunk : Int) ≤ n) ∧ (n = u.last - u.next ∨ u.last - u.next ≤ n * u.parts) ∧
       (n ≤ u.chunk ∨ (n - 1) * u.parts < u.last - u.next))))

/-- R113, R222, R225, R234, R343, R356: the words whose work is done elsewhere. VSVC and VSVCN queue a record and release;
VTRACE enters a ray for each lane with its operands; VSAMPLE keeps each lane's four channels until they land; SPLAT
queues a command of a tile for each place of its range; PRESS fills its status at once and on 0 joins the press's queue.
The order of a press’s decision is log 37, that of a sample’s checks log 32, and a coordinate outside FP32 log 31; when
service firmware takes a call is log 12, a tile count of SPLAT log 33, an operand’s conversion in VTRACE log 34. -/
def Obligations.EngineWords : Prop :=
  (∀ (s : State) (i : Iss) (d a b : BitVec 7) (ea eb : Bool),
    let srcs : List Src := [⟨0, false, a.toNat, 4, .bit, ea⟩, ⟨1, true, b.toNat, 1, .bit, eb⟩]
    let wheel := wheelOf (wedgeOf i.grp.core)
    let part := match s.partOf i.grp.ctx with | some p => p.n | none => 0
    let q := fun dst : Option Nat => (⟨s.seq, wheel, part, i.grp.ctx, i.c.g, i.c.w, i.fr.live, dst, (i.wv.sreg b.toNat).val,
      (List.range 32).map fun l => (List.range 4).map fun k => (i.wv.vreg (a.toNat + k)).lane l, 0, false, none, i.fr.live,
      s.vclockOf i.grp.ctx + 65536, none⟩ : SvcRec)
    let filed := fun r : SvcRec => ({ (s.released i).fresh with svc := s.svc ++ [r] } : State).push .serviceBatch { a := wheel }
    vOk i.wv (a.toNat + 3) = true → sOk i.wv b.toNat = true → noPorts i.wv srcs → s.accessWait i.c.g i.c.w true true = none →
    (∀ p, s.partOf i.grp.ctx = some p → p.frozen = false) → s.svcCount wheel part < 256 →
    (WordUnit s i {} false srcs [] → exec (.vsvcn a b ea eb) s = .next ((filed (q none)).retire i)) ∧
    (WordUnit s i {} false srcs [(false, d.toNat), (false, d.toNat + 1)] → vDst i.wv d.toNat = true → vDst i.wv (d.toNat + 1) = true →
      exec (.vsvc d a b ea eb) s = .next (((filed (q (some d.toNat))).updCur i fun v =>
        (v.emptyV d.toNat i.fr.live).emptyV (d.toNat + 1) i.fr.live).retire i))) ∧
  (∀ (s : State) (i : Iss) (d a b : BitVec 7) (ea eb : Bool) (f : BitVec 2),
    let srcs : List Src := ((List.range 8).map fun k => (⟨0, false, a.toNat + k, 1, .fp32, ea⟩ : Src)) ++ [⟨1, true, b.toNat, 1, .bit, eb⟩]
    let x := (i.wv.sreg b.toNat).val.toNat
    let at_ := fun k l => laneOperand i.wv .fp32 (a.toNat + k) l
    WordUnit s i {} false srcs ((List.range 4).map fun k => (false, d.toNat + k)) → vOk i.wv (a.toNat + 7) = true →
    (∀ k < 4, vDst i.wv (d.toNat + k) = true ∧ d.toNat + k < i.wv.vregs.length) → sOk i.wv b.toNat = true →
    d.toNat + 4 ≤ a.toNat ∨ a.toNat + 8 ≤ d.toNat → noPorts i.wv srcs → (s.shapeOf i.grp.ctx (x % 256)).fmt = 15 →
    s.accessWait i.c.g i.c.w false true = none →
    (s.rays.filter fun r => r.wedge == wedgeOf i.grp.core).length + (lanesOf i.fr.live).length ≤ 262144 →
    ∃ t v rs, exec (.vtrace d a b ea eb f) s = .next t ∧ t.rays = s.rays ++ rs ∧ t.mem = s.mem ∧ t.wave? i.c.g i.c.w = some v ∧
      rs.map (fun r => (r.lane, r.o, r.d, r.tmin, r.tcur, r.dst, r.scene)) = (lanesOf i.fr.live).map (fun l =>
        (l, [at_ 0 l, at_ 1 l, at_ 2 l], [at_ 3 l, at_ 4 l, at_ 5 l], at_ 6 l, at_ 7 l, d.toNat, (s.shapeOf i.grp.ctx (x % 256)).base)) ∧
      (∀ r ∈ rs, r.hit = none ∧ r.any = (f.getLsbD 0 && !i.ln.det) ∧ r.who = i.fr.live) ∧
      (∀ k < 4, v.vreg (d.toNat + k) = { i.wv.vreg (d.toNat + k) with pend := i.fr.live }) ∧ v.sregs = i.wv.sregs) ∧
  (∀ (s : State) (i : Iss) (d a b : BitVec 7) (ea eb : Bool) (f : BitVec 2) (u : State) (rs : List (Nat × List Nat)),
    let nc : Nat := if f = 2 then 3 else 2
    let srcs : List Src := ((List.range nc).map fun k => (⟨0, false, a.toNat + k, 1, .fp32, ea⟩ : Src)) ++ [⟨1, true, b.toNat, 1, .bit, eb⟩]
    let x := (i.wv.sreg b.toNat).val.toNat
    let r := s.shapeOf i.grp.ctx (x % 256)
    let us := (List.range 32).map fun l => laneOperand i.wv .fp32 a.toNat l
    let vs := (List.range 32).map fun l => laneOperand i.wv .fp32 (a.toNat + 1) l
    let plan := fun l => lanePlan r (sampleArgs x) (f == 3) (us.getD l 0) (vs.getD l 0) (if f = 1 then some (quadLambda r us vs l)
      else if f = 2 then some (laneOperand i.wv .fp32 (a.toNat + 2) l) else none)
    WordUnit s i {} false srcs ((List.range 4).map fun k => (false, d.toNat + k)) → (∀ k < nc, vOk i.wv (a.toNat + k) = true) →
    (∀ k < 4, vDst i.wv (d.toNat + k) = true) → sOk i.wv b.toNat = true → noPorts i.wv srcs → sampleImage r = true →
    (sampleArgs x).layer < r.size 3 → s.accessWait i.c.g i.c.w false false = none →
    s.lockTrap i.grp.ctx none false (fmtBytes r.fmt) ((lanesOf i.fr.live).flatMap fun l =>
      (sortInts ((plan l).coords.map r.addrOf)).map fun a => (l, BitVec.ofInt 64 a)) (·.toNat) = none →
    eachMem (fun s l => (s.sampleLane i r (sampleArgs x) l (plan l)).andThen fun s y => .ok s (l, y)) (lanesOf i.fr.live) s = .ok u rs →
    exec (.vsample d a b ea eb f) s = .next (((({ u.fresh with samples := u.samples ++ [⟨u.seq, i.c.g, i.c.w, d.toNat, i.fr.live, i.fr.live,
      (List.range 32).map fun l => match rs.find? fun q => q.1 == l with | some q => q.2 | none => []⟩] } : State).pushAll
        (laneEvents .sampleResultLands u.seq i.fr.live)).updCur i fun v =>
          (List.range 4).foldl (fun v k => v.emptyV (d.toNat + k) i.fr.live) v).retire i)) ∧
  (∀ (s : State) (i : Iss) (a b c : BitVec 7), sOk i.wv a.toNat = true → sOk i.wv b.toNat = true → sOk i.wv c.toNat = true →
    let x := (i.wv.sreg a.toNat).val
    let y := (i.wv.sreg b.toNat).val
    let bar := (i.wv.sreg c.toNat).val
    let list := s.shapeOf i.grp.ctx (x.toNat % 256)
    let out := s.shapeOf i.grp.ctx (x.toNat / 256 % 256)
    let txn := y.toNat / 2 ^ 32 % 2 ^ 16
    let tyn := y.toNat / 2 ^ 48
    let src : Ext := ⟨none, list.extent.1.toNat, list.extent.2.toNat⟩
    let dst : Ext := ⟨none, out.extent.1.toNat, out.extent.2.toNat⟩
    1 ≤ txn → txn ≤ 256 → 1 ≤ tyn → tyn ≤ 256 → list.fmt = 2 → list.space = 0 → 12 ≤ list.size 0 → x.toNat / 2 ^ 32 ≤ list.size 1 →
    out.fmt = 14 → out.space = 0 → s.tokenWord i dst = none →
    EngineUnit s i [usrc 0 a .bit, usrc 1 b .bit, usrc 2 c .bit] 4 bar [src] [dst] →
    exec (.splat a b c) s = .next ((s.addCmd i { i.cmd s 4 4 x y 0 0 (txn * tyn) false bar with
      unit := wedgeOf i.grp.core, payload := leBytes 64 list.toNat ++ leBytes 64 out.toNat ++ leBytes 4 i.wv.regs.opthr.toNat }
      [src] [dst] [⟨.splatCommandRun, { a := wedgeOf i.grp.core }⟩]).retire i)) ∧
  (∀ (s : State) (i : Iss) (a b c : BitVec 7) (u : State) (r : List Byte) (p : Part), sOk i.wv a.toNat = true → sOk i.wv b.toNat = true →
    sOk i.wv c.toNat = true → WordUnit s i {} true [usrc 1 b .bit, usrc 2 c .bit] [(true, a.toNat)] → s.accessWait i.c.g i.c.w false true = none →
    RecordRead s i (i.wv.sreg b.toNat).val 64 u r → u.partOf i.grp.ctx = some p →
    let press := (i.wv.sreg c.toNat).val.toNat % 8
    let inn := u.shapeOf i.grp.ctx (recBits r 2 0 8)
    let out := u.shapeOf i.grp.ctx (recBits r 2 8 8)
    let st := u.pressStatus p press r inn out
    let src : Ext := ⟨none, inn.extent.1.toNat, inn.extent.2.toNat⟩
    let dst : Ext := ⟨none, out.extent.1.toNat, out.extent.2.toNat⟩
    (st ≠ 0 → exec (.press a b c) s = .next ((u.updCur i fun v => v.setS a.toNat (BitVec.ofNat 64 st) tI32).retire i)) ∧
    (st = 0 → u.tokenWord i dst = none → u.engineWait i 5 [src] [dst] = none → ∃ t cm co, exec (.press a b c) s = .next t ∧
      t.cmds = u.cmds ++ [cm] ∧ cm.id = u.seq ∧ cm.engine = 5 ∧ cm.unit = press ∧ cm.pressRec = r.take 64 ∧
      t.colls = u.colls ++ [co] ∧ co.id = u.seq ∧ co.stops = (recBits r 0 10 2 == 1 || (recBits r 0 10 2 == 0 && !p.mode.getLsbD 8)) ∧
      t.agenda = u.agenda ++ [⟨.pressCollectiveStart, { a := press }⟩] ∧
      t.waves = ((u.updCur i fun v => v.setS a.toNat 0 tI32).retire i).waves))

/-- R210: a ray with a NaN bound, tmin above tmax, an origin or direction that is not finite, or a direction of zero is
refused before it traverses anything and returns the miss result; any other starts with its current distance at tmax.
What a conversion of an operand sets is log 34. -/
def Obligations.RayRefusal : Prop :=
  ∀ (s : State) (i : Iss) (d a b : BitVec 7) (ea eb : Bool) (f : BitVec 2),
    let srcs : List Src := ((List.range 8).map fun k => (⟨0, false, a.toNat + k, 1, .fp32, ea⟩ : Src)) ++ [⟨1, true, b.toNat, 1, .bit, eb⟩]
    let x := fun k l => laneOperand i.wv .fp32 (a.toNat + k) l
    let num := fun k l => Fmt.fp32.unpack (x k l)
    WordUnit s i {} false srcs ((List.range 4).map fun k => (false, d.toNat + k)) → vOk i.wv (a.toNat + 7) = true →
    (∀ k < 4, vDst i.wv (d.toNat + k) = true) → sOk i.wv b.toNat = true →
    d.toNat + 4 ≤ a.toNat ∨ a.toNat + 8 ≤ d.toNat → noPorts i.wv srcs → (s.shapeOf i.grp.ctx ((i.wv.sreg b.toNat).val.toNat % 256)).fmt = 15 →
    s.accessWait i.c.g i.c.w false true = none →
    (s.rays.filter fun r => r.wedge == wedgeOf i.grp.core).length + (lanesOf i.fr.live).length ≤ 262144 →
    ∃ t rs, exec (.vtrace d a b ea eb f) s = .next t ∧ t.rays = s.rays ++ rs ∧ rs.map Ray.lane = lanesOf i.fr.live ∧ ∀ r ∈ rs,
      let refused := (num 6 r.lane).isNan = true ∨ (num 7 r.lane).isNan = true ∨ (num 7 r.lane).lt (num 6 r.lane) = true ∨
        (∃ k < 6, x k r.lane / 2 ^ 23 % 2 ^ 8 = 255) ∨ (∀ k < 3, x (3 + k) r.lane % 2 ^ 31 = 0)
      (refused → r.count = 0 ∧ r.hit = none ∧ r.results = [(tFP32, 0x7F800000), (tI32, 0), (tI32, 0xFFFFFFFF), (tFP16, 0)] ∧
        ⟨.rayResultLands, { a := r.id }⟩ ∈ t.agenda ∧ ∀ v ∈ t.visits, v ∈ s.visits ∨ v.ray ≠ r.id) ∧
      (¬refused → r.tcur = x 7 r.lane ∧ r.tmin = x 6 r.lane ∧ r.count = 1 ∧ ∃ v ∈ t.visits, v.ray = r.id ∧ v.wedge = wedgeOf i.grp.core)

/-- R219, R223: one visit of the treelet in turn moves its ray on by the visits it found, of which those that its count or
the pool does not take are the ray unit's own to traverse next, and a ray with none left or ended lands: distance, word,
instance and barycentrics, on a miss positive infinity, 0, 0xFFFFFFFF and 0. What a full pool leaves the ray unit is log
34. -/
def Obligations.RayEvents : Prop :=
  (∀ (s u : State) (v : Visit) (queued : Bool) (r : Ray) (w : Walk), s.ev.f ≠ 1 → s.rayWork s.ev.a = some (v, queued) →
    (s.rays.find? fun r => r.id == v.ray) = some r → s.runVisit r v = .ok (u, w) →
    let k := min w.more.length (u.visitRoom r)
    let left := if queued then u.visits.erase v else u.visits
    let todo := (if queued then [] else r.todo.drop 1) ++ w.more.drop k
    let n := r.count + k - (if todo.isEmpty then 1 else 0)
    let after := fun x : Ray => if x.id == r.id then { x with tcur := w.tcur, hit := w.hit, count := n, todo := todo } else x
    ∃ t, exec .treeletVisit s = .next t ∧ t.mem = u.mem ∧ 
      t.rayTurn = (if queued then (u.rayTurn.filter fun x => x.1 != s.ev.a) ++ [(s.ev.a, u.queueKey v)] else u.rayTurn) ∧
      (w.ended = false → n ≠ 0 → t.visits = left ++ w.more.take k ∧ t.rays = u.rays.map after) ∧
      (w.ended = true ∨ n = 0 → t.visits = (left ++ w.more.take k).filter (fun x => x.ray != r.id) ∧
        t.rays = u.rays.map (fun x => if x.id == r.id then { after x with count := 0, todo := [] } else x) ∧
        ⟨.rayResultLands, { a := r.id }⟩ ∈ t.agenda) ∧
      (∀ x ∈ t.visits, x.wedge = s.ev.a → ⟨.treeletVisit, { a := s.ev.a }⟩ ∈ t.agenda)) ∧
  (∀ (s : State) (r : Ray) (v : Visit), (s.visitRoom r ≤ 65535 - r.count) ∧
    ((∀ x ∈ s.rays, x.todo = []) → s.rayWork s.ev.a = (s.nextVisit s.ev.a).map fun v => (v, true)) ∧
    (r.wedge = s.ev.a → r.todo.head? = some v → s.rayGoes r = true → (∀ x ∈ s.rays, x.todo ≠ [] → x = r) → r ∈ s.rays →
      s.rayWork s.ev.a = some (v, false))) ∧
  (∀ (s : State) (r : Ray) (v : Wave) (gr : Group), (s.rays.find? fun r => r.id == s.ev.a) = some r → r.count = 0 →
    s.group? r.g = some gr → gr.resident = true → s.wave? r.g r.w = some v →
    ∃ t, exec .rayResultLands s = .next t ∧ t.rays = s.rays.filter (fun x => x.id != r.id) ∧ t.mem = s.mem ∧
      (r.hit = none → t.wave? r.g r.w = some ((((v.landV r.dst r.lane tFP32 0x7F800000 r.who).landV (r.dst + 1) r.lane tI32 0 r.who).landV
        (r.dst + 2) r.lane tI32 0xFFFFFFFF r.who).landV (r.dst + 3) r.lane tFP16 0 r.who)) ∧
      (∀ inst word p q, r.hit = some (inst, word, p, q) → t.wave? r.g r.w = some ((((v.landV r.dst r.lane tFP32
        (BitVec.ofNat 32 r.tcur) r.who).landV (r.dst + 1) r.lane tI32 (BitVec.ofNat 32 word) r.who).landV (r.dst + 2) r.lane tI32
        (BitVec.ofNat 32 inst) r.who).landV (r.dst + 3) r.lane tFP16 (BitVec.ofNat 32 (if 2 ^ 31 ≤ word then 0 else
          (cvtElem .onRead rne (.flt .fp32) (.flt .fp16) p).1 + 2 ^ 16 * (cvtElem .onRead rne (.flt .fp32) (.flt .fp16) q).1)) r.who)))

/-- R86, R87, R113: a service group takes the oldest record of the partition served, a call for results answering lane by
lane and one without being done; a turn is one batch, and the next is the next partition's with records; a reply fills
the lane's two destinations with status and value; a record late by 2^20 ticks stops its context. A launch that is not
DET is meant. R229, R234: a sample's lane fills its four registers with FP32 results; a splat command does one tile at a
time, and after its last tile it completes. What the service firmware answers, and that it takes one record at a time,
are log 12 (DESIGN CHOICE); the record that stops the context is log 58. -/
def Obligations.UnitEvents : Prop :=
  ((∀ (s : State) (part : Nat) (r : SvcRec), s.svcNext s.ev.a = some part →
     (s.svc.find? fun r => r.wheel == s.ev.a && r.part == part && s.svcReady r) = some r → r.req = none → r.from_ = none →
     let u := ((s.setTurn s.ev.a part).wakeService s.ev.a).svcServes s.ev.a part r.ctx
     (r.dst = none → exec .serviceBatch s = .next { u with
       svc := s.svc.filter fun x => x.id != r.id
       svcDone := (s.svcDone.filter fun x => !(x.1 == s.ev.a && x.2.1 == part)) ++ [(s.ev.a, part, s.svcAnswered s.ev.a part + 1)] }) ∧
     (r.dst ≠ none → exec .serviceBatch s = .next { u with
       svc := s.svc.map fun x => if x.id == r.id then { x with taken := true } else x
       agenda := s.agenda ++ laneEvents .serviceReplyLands r.id r.lanes })) ∧
   (∀ (s : State) (cur p : Nat), (s.svcTurn.find? fun t => t.1 == s.ev.a).map (·.2) = some cur → p ∈ s.svcParts s.ev.a →
     (cur < p ∧ (∀ q ∈ s.svcParts s.ev.a, cur < q → p ≤ q) ∨
       (∀ q ∈ s.svcParts s.ev.a, q ≤ cur) ∧ ∀ q ∈ s.svcParts s.ev.a, p ≤ q) → s.svcNext s.ev.a = some p) ∧
   (∀ s : State, exec .serviceTurnEnd s = .next (if s.svcParts s.ev.a = [] then s else s.pushNew [⟨.serviceBatch, { a := s.ev.a }⟩])) ∧
   (∀ (s : State) (r : SvcRec) (d : Nat) (gr : Group) (v : Wave) (x : Word × Word),
     (s.svc.find? fun r => r.id == s.ev.a && r.taken) = some r → r.lanes.getLsbD s.ev.b = true → r.dst = some d →
     s.group? r.g = some gr → gr.resident = true → s.plainLaunch gr.launch → s.wave? r.g r.w = some v →
     (Config.service r.service (r.args.getD s.ev.b []) s.ev.b).getD (0xFFFFFFFF, 0) = x →
     ∃ t, exec .serviceReplyLands s = .next t ∧ t.mem = s.mem ∧
       t.wave? r.g r.w = some ((v.landV d s.ev.b tI32 x.1 r.who).landV (d + 1) s.ev.b tRAW x.2 r.who) ∧
       (∀ y ∈ t.svc, y.id = r.id → y.lanes.getLsbD s.ev.b = false)) ∧
   (∀ (s : State) (r : SvcRec), (s.svc.find? fun r => r.id == s.ev.a) = some r → 2 ^ 20 ≤ r.queuedAt →
     exec .serviceWatchdog s = .next (s.raiseStop r.ctx none { cause := 0x27, engine := 12, unit := 2 * r.wheel
                                                               addr := BitVec.ofNat 64 r.wheel, detail := BitVec.ofNat 64 r.wheel
                                                               done := BitVec.ofNat 64 (s.svcAnswered r.wheel r.part)
                                                               total := BitVec.ofNat 64 (s.svcCount r.wheel r.part) }))) ∧
  ((∀ (s : State) (m : Sample) (v : Wave) (gr : Group), (s.samples.find? fun m => m.id == s.ev.a) = some m →
     m.lanes.getLsbD s.ev.b = true → s.group? m.g = some gr → gr.resident = true → s.wave? m.g m.w = some v →
     let x := fun k : Nat => BitVec.ofNat 32 ((m.vals.getD s.ev.b []).getD k 0)
     ∃ t, exec .sampleResultLands s = .next t ∧ t.mem = s.mem ∧
       t.wave? m.g m.w = some ((((v.landV m.dst s.ev.b tFP32 (x 0) m.who).landV (m.dst + 1) s.ev.b tFP32 (x 1) m.who).landV
         (m.dst + 2) s.ev.b tFP32 (x 2) m.who).landV (m.dst + 3) s.ev.b tFP32 (x 3) m.who) ∧
       (∀ y ∈ t.samples, y.id = m.id → y.lanes.getLsbD s.ev.b = false)) ∧
   (∀ (s u w : State) (c : Cmd) (gr : Group) (rs : List SplatRec), ((s.queueOf 4 s.ev.a).find? fun c => s.cmdGoes c) = some c →
     (s.faults.any fun f => f.cmd == some c.id) = false → s.group? c.g = some gr →
     (c.done < c.len → s.splatRecords gr.core c = .ok u rs → u.splatTile gr.core c rs = .ok w () →
       exec .splatCommandRun s = .next ((w.updCmd c.id fun x => { x with started := true, done := x.done + 1 }).push
         .splatCommandRun { a := s.ev.a })) ∧
     (c.len ≤ c.done → s.barWaits c ⟨.splatCommandRun, { a := s.ev.a }⟩ = none →
       let z := s.cmdDone c false
       exec .splatCommandRun s = .next (if z.queueOf 4 s.ev.a = [] then z else z.push .splatCommandRun { a := s.ev.a }))))

/-- R17, R358 to R365, R440, R441: a press starts its oldest collective when the rank table names it, with IN as its own
tiles; a tile is staged and acknowledged once; what a press has sent is acknowledged, sent again, or lost; lost tiles
that a notice names are counted, and either stop the collective or mark its completion; a collective that is whole at
its rank completes at BAR, frees its locks, and sends its node record when the channel has a permit. R359 to R363: an
EMPTY tile yields the other operand, the nearest pixel is the second's only when its depth is less; after n rounds of
the swap among 2^n ranks every tile is in exactly one rank's range, and in a ring in exactly one block. When a round
closes, when a collective is complete, and the address in the record of a loss are log 37 (DEDUCED); which event brings
an acknowledgement or a timeout is logs 38 and 61. -/
def Obligations.PressEvents : Prop :=
  ((∀ (s u w : State) (c : Cmd) (co : Coll) (ents : List Byte) (ts : List (Nat × List Byte)), s.pressHead s.ev.a = some (c, co) →
     s.cmdGoes c = true → (s.faults.any fun f => f.cmd == some c.id) = false → c.started = false →
     s.engRead (s.ctlCore c.ctx) c.ctx .glob (recBits c.pressRec 1 0 64) (8 * rcRanks c.pressRec) = .ok u ents →
     recBits (ents.drop (8 * rcRank c.pressRec)) 0 0 21 = s.ev.a * 2 ^ 18 + (match u.top.pkgid with | some k => k.toNat | none => 2 ^ 18) →
     (u.updCmd c.id fun x => { x with started := true }).ownTiles (s.ctlCore c.ctx) c.ctx c.pressRec c.pressIn (List.range c.len) = .ok w ts →
     let c' := { c with payload := c.payload.take 192 ++ ents, started := true }
     let own := (w.updCmd c.id fun x => { x with payload := c'.payload }).updColl c.id fun k =>
       { k with tiles := ts.map fun t => ⟨t.1, 0, t.2, false, false⟩ }
     let lead := fun t : Nat => rcRing c.pressRec && rcRank c.pressRec == (ringBlock c.len (rcRanks c.pressRec) t + 1) % rcRanks c.pressRec
     exec .pressCollectiveStart s = .next ((ts.foldl (fun z (t : Nat × List Byte) => z.setLevel c' co t.1 (if lead t.1 then 1 else 0) t.2)
       own).pressRun c')) ∧
   (∀ (s : State) (c : Cmd) (co : Coll), s.pressHead s.ev.a = some (c, co) → s.cmdGoes c = true →
     (s.faults.any fun f => f.cmd == some c.id) = false → c.started = true → co.tiles ≠ [] →
     let u := (co.sends.filter fun x => x.st == 3).foldl (fun z x => z.pressPacket c co x (co.carries c.pressRec c.len x)) s
     exec .pressCollectiveStart s = .next ((u.updColl c.id fun k => { k with sends := k.sends.map fun x =>
       if x.st == 3 then { x with st := 0, retry := 0 } else x }).pressRun c)) ∧
   (∀ s : State, (∀ q ∈ s.top.ports, q.1 ≠ s.ev.a) → exec .pressTileArrival s = .next s ∧ exec .pressTileLoss s = .next s) ∧
   (∀ (s : State) (q : Nat × Nat), (s.top.ports.find? fun q => q.1 == s.ev.a) = some q → s.top.pkgid ≠ none → s.replaying q.2 = false →
     s.pressHead s.ev.a = none →
     let pk := s.ev.bytes
     let w0 : DWord := BitVec.ofNat 64 s.ev.c
     let g := s.ev.d == 1
     (let key := (s.ev.a, w0.toNat / 2 ^ 32, s.ev.b, s.ev.e)
      let ack := fun t : State => t.emit (.pressAck s.ev.a s.ev.b (w0.toNat / 2 ^ 32) s.ev.e)
      let held := key ∈ s.pressHad ∨ ∃ x ∈ s.staging, x.press = s.ev.a ∧ x.src = s.ev.b ∧ x.word0.toNat / 2 ^ 32 = w0.toNat / 2 ^ 32 ∧
        x.gather = g ∧ x.tile = tileIndex pk
      let used := ((s.staging.filter fun x => x.press == s.ev.a).map fun x => (x.packet.getD []).length).sum
      (held → exec .pressTileArrival s = .next (ack s)) ∧
      (¬held → used + pk.length ≤ 2 ^ 20 → exec .pressTileArrival s = .next (ack { s with
        staging := s.staging ++ [⟨s.ev.a, s.ev.b, w0, g, some pk, tileIndex pk, 0⟩], pressHad := s.pressHad ++ [key] })) ∧
      (¬held → 2 ^ 20 < used + pk.length → exec .pressTileArrival s = .next (s.push .pressTileArrival s.ev))) ∧
     (let key := (s.ev.a, w0.toNat / 2 ^ 32, s.ev.b, s.ev.f)
      (s.ev.e = 1 → exec .pressTileLoss s = .next { s with staging := s.staging ++ [⟨s.ev.a, s.ev.b, w0, g, none, 0, 2⟩] }) ∧
      (s.ev.e ≠ 1 → key ∉ s.pressHad → exec .pressTileLoss s = .next (({ s with
        staging := s.staging ++ s.ev.ids.map (fun t => ⟨s.ev.a, s.ev.b, w0, g, none, t, 1⟩), pressHad := s.pressHad ++ [key] } : State).emit
          (.pressAck s.ev.a s.ev.b (w0.toNat / 2 ^ 32) s.ev.f))))) ∧
   (∀ (s : State) (c : Cmd) (co : Coll), s.coll? c.id = some co → (∃ g ∈ s.staging, g.of_ c.unit co = true ∧ g.note = 1) →
     (∀ g ∈ s.staging, g.of_ c.unit co = true → g.note < 2) →
     let n := co.lost + (s.staging.filter fun g => g.of_ c.unit co && g.note != 0).length
     let det : DWord := BitVec.ofNat 64 (rcCollid c.pressRec * 2 ^ 32 + n % 2 ^ 16)
     let u := fun e : Bool => (s.updColl c.id fun k => { k with lost := n, error := k.error || e }).updCmd c.id fun x => { x with detail := det }
     let counted := s.staging.map fun g => if g.of_ c.unit co && g.note != 0 then { g with note := 0 } else g
     let rest := s.staging.filter fun g => !(g.of_ c.unit co) || g.note == 0
     (co.stops = false → s.pressLosses c co = { u true with staging := counted }) ∧
     (co.stops = true → s.pressLosses c co = ({ u false with staging := rest } : State).cmdStop
       { c with detail := det } 0x26 (BitVec.ofNat 64 (rcCollid c.pressRec)) det)) ∧
   (∀ (s : State) (c : Cmd) (co : Coll) (x : PressSend), s.pressSend? s.ev.a = some (c, co, x) →
     (x.st ≠ 0 → exec .networkUnitAck s = .next s ∧ exec .retransmitTimeout s = .next s) ∧
     (x.st = 0 → x.retry = 0 → x.notice = true → exec .networkUnitAck s = .next ((s.setSend x.id 1).pressWhole c)) ∧
     (x.st = 0 → x.retry = 0 → x.notice = false → exec .networkUnitAck s = .next (((s.setSend x.id 1).closeRound c x).pressWhole c)) ∧
     (x.st = 0 → x.retry < 7 → exec .retransmitTimeout s = .next ((s.updColl co.id fun k => { k with sends := k.sends.map fun y =>
       if y.id == x.id then { y with retry := y.retry + 1 } else y }).pressPacket c co x (co.carries c.pressRec c.len x))) ∧
     (x.st = 0 → x.retry = 7 → x.notice = false → co.stops = false →
       let n := co.lost + 1
       let u := ((s.setSend x.id 2).updColl c.id fun k => { k with lost := n, error := true }).updCmd c.id
         fun y => { y with detail := BitVec.ofNat 64 (rcCollid c.pressRec * 2 ^ 32 + n % 2 ^ 16) }
       exec .retransmitTimeout s = .next ((u.closeRound c x).pressWhole c))) ∧
   (∀ (s : State) (c : Cmd) (co : Coll), s.pressHead s.ev.a = some (c, co) → s.cmdGoes c = true → c.started = true →
     (co.whole c.pressRec c.len (s.replays c) = false → exec .pressComplete s = .next s) ∧
     (co.whole c.pressRec c.len (s.replays c) = true → recBits c.pressRec 2 16 1 = 0 →
       let close := fun z : State =>
         let u := (z.dropCmd c.id).acted c.ctx
         let v := { u with colls := u.colls.filter fun k => k.id != c.id, staging := u.staging.filter fun g => !g.of_ c.unit co }
         if v.queueOf 5 c.unit = [] then v else v.push .pressCollectiveStart { a := c.unit }
       (co.arrived = false → recBits c.pressRec 4 12 1 = 0 → s.pressWaits c ⟨.pressComplete, { a := s.ev.a }⟩ [c.bar] = none →
         exec .pressComplete s = .next (close (((s.unlock c.id).pressBar c c.bar co.error).updColl c.id fun k => { k with arrived := true }))) ∧
       (co.arrived = true → recBits c.pressRec 4 12 1 = 1 → ∀ p, s.part? co.part = some p → s.chanOk p (recBits c.pressRec 4 0 12) = true →
         ∀ k, s.sendChan p (recBits c.pressRec 4 0 12) = some k →
         (k.permits = 0 → exec .pressComplete s = .next s) ∧
         (k.permits ≠ 0 → exec .pressComplete s = .next (close (s.sendRecord c.ctx c.launch p (recBits c.pressRec 4 0 12) 0
           (rcCollid c.pressRec) (leBytes 8 ((if co.error then 1 else 0) + co.lost % 2 ^ 16 * 2 ^ 16) ++ List.replicate 48 0)))))))) ∧
  ((∀ (m t : Nat) (x y : List Byte), m < 3 → (tileMode x = 0 → mergeTiles m t x y = y) ∧
     (tileMode x ≠ 0 → tileMode y = 0 → mergeTiles m t x y = x)) ∧
   (∀ x y : Pixel, mergePixel 0 x y = if depthLess (x.getD 4 0) (y.getD 4 0) then y else x) ∧
   (∀ n tiles t : Nat, t < tiles → ∃! k, k < 2 ^ n ∧ inRange (swapRange tiles k n) t = true) ∧
   (∀ tiles p t : Nat, t < tiles → 0 < p → ringBlock tiles p t < p ∧ ringBlock tiles p t * tiles / p ≤ t ∧
     t < (ringBlock tiles p t + 1) * tiles / p))

/-! ## Scheduling, hosts, recovery -/

/-- R62, R63, R99: the fragment that issues is one that no other ready one goes before, a fragment that yielded only when no
other is ready; merging leaves every lane at its place and no two fragments that share one. That a unit some of whose
repetitions are done does not merge is log 68 (DESIGN CHOICE). -/
def Obligations.IssueEvents : Prop :=
  (∀ (s : State) (gr : Group) (v : Wave), s.group? s.ev.a = some gr → s.wave? s.ev.a s.ev.b = some v → s.canIssue v = true →
    s.detCtx gr.ctx = false →
    ∃ t f, exec .issueSelection s = .next t ∧ f ∈ v.frags ∧ s.fragReady gr v f = true ∧
      t.cur = some ⟨s.ev.a, s.ev.b, f.id, f.pc, f.pc, 0, none, none, none, some
        { ages := v.frags.map fun x => (x.id, x.age), yielded := v.yielded
          gives := (s.waves.filter fun x => x.gives && s.samePipe v x).map fun x => (x.g, x.w) }⟩ ∧ t.mem = s.mem ∧ t.launches = s.launches ∧
      (v.yielded = some f.id → ∀ x ∈ v.frags, s.fragReady gr v x = true → v.yielded = some x.id) ∧
      (∀ x ∈ v.frags, s.fragReady gr v x = true → (v.yielded = some x.id → v.yielded = some f.id) →
        (256 ≤ x.age ∨ 256 ≤ f.age → x.age ≤ f.age ∧ (x.age = f.age → f.id ≤ x.id)) ∧
        (x.age < 256 → f.age < 256 → x.prio ≤ f.prio ∧ (x.prio = f.prio → f.pc ≤ x.pc ∧ (x.pc = f.pc → f.id ≤ x.id)))) ∧
      (∀ u, t.wave? s.ev.a s.ev.b = some u → u.frags.map (fun x => (x.id, x.live, x.pc, x.prio)) =
        v.frags.map (fun x => (x.id, x.live, x.pc, x.prio)))) ∧
  (∀ (s : State) (v : Wave), s.wave? s.ev.a s.ev.b = some v → v.Apart → (∀ g, s.group? s.ev.a = some g → g.resident = true) →
    ∃ t u, exec .fragmentMerge s = .next t ∧ t.wave? s.ev.a s.ev.b = some u ∧ u = { v with frags := u.frags } ∧ u.Apart ∧
      (∀ l, u.placeOf l = v.placeOf l) ∧ u.frags.Pairwise fun x y => mergeable x y = false)

/-- R19 to R21, R73, R88, R264, R428, R442, R445: a tick advances HBEAT and sets off what falls due, in a DET context with
its virtual ticks; the context watchdog and the assay engines stop contexts; MODE and its THR; a quantum's end passes
each priority's turn to the next function that waits; migration counters are halved. When a quantum ends, and the
service queue that a watchdog names, are log 58 (DESIGN CHOICE); that a page moves in one event is log 18 (DESIGN
CHOICE); which queues an audit can find off, and its engine’s number, are log 50 (DEDUCED). -/
def Obligations.HeartbeatEvents : Prop :=
  (∀ (s : State) (p : Part), s.part? s.ev.a = some p → s.ev.b = 0 →
    let u := s.updPart p.n fun q => { q with hbeat := p.hbeat + 1, period := hbPeriod q.mode }
    let w := u.hbeatFills p.n (p.hbeat + 1)
    u.part? s.ev.a = some { p with hbeat := p.hbeat + 1, period := hbPeriod p.mode } ∧
    ∃ t, exec .heartbeatTick s = .next t ∧
      t = (w.tickWork fun c => w.inPart p.n c && !w.detCtx c).tickSlow p (p.hbeat + 1) ∧
      ((p.hbeat + 1) % 1024 = 0 → ⟨.assayAudit, { a := p.n }⟩ ∈ t.agenda ∧ ⟨.sectionDeadlockSearch, { a := p.n }⟩ ∈ t.agenda) ∧
      ((p.hbeat + 1) % 65536 = 0 → ⟨.migrationCounterHalving, { a := p.n }⟩ ∈ t.agenda) ∧
      (p.cycle / 2000000 ≠ (p.cycle - p.period) / 2000000 → ⟨.quantumExpiry, { a := p.n }⟩ ∈ t.agenda)) ∧
  (∀ (s : State) (ctx : Nat), s.ev.b = ctx + 1 →
    let u := s.tickWork fun c => c == ctx
    exec .heartbeatTick s = .next (if u.ticksOf ctx % 1024 = 0 then u.push .sectionDeadlockSearch { a := s.ev.a, b := ctx + 1 } else u)) ∧
  (∀ (s : State) (c : Ctx), s.ctx? s.ev.a = some c → c.wdog ≠ 0 → c.wdog.toNat ≤ c.wdogTicks → c.phase = .running →
    exec .contextWatchdog s = .next ((s.updCtx c.id fun c => { c with wdogTicks := 0 }).raiseStop c.id none
      { cause := 0x27, engine := 16, unit := 0xFFFF, addr := 0, detail := 0, total := c.wdog.setWidth 64 })) ∧
  (∀ (s : State) (p : Part), s.part? s.ev.a = some p →
    let v : DWord := BitVec.ofNat 64 s.ev.b
    ∃ t q, exec .modeWrite s = .next t ∧ t.part? s.ev.a = some q ∧ q = { p with mode := q.mode } ∧
      q.mode.extractLsb' 0 4 = (v.extractLsb' 0 4) &&& 3 ∧
      q.mode.extractLsb' 4 2 = (if v.extractLsb' 4 2 = 3 then p.mode.extractLsb' 4 2 else v.extractLsb' 4 2) ∧
      q.mode.extractLsb' 6 3 = v.extractLsb' 6 3 ∧ q.mode.getLsbD 31 = (p.mode.getLsbD 31 && !v.getLsbD 31)) ∧
  (∀ (s : State) (p : Part), s.partOfWedge s.ev.a = some p → s.part? p.n = some p →
    ∃ t, exec .powerHold s = .next t ∧ t.part? p.n = some { p with mode := p.mode ||| 0x80000000 }) ∧
  (∀ (s : State) (p : Part), s.part? s.ev.a = some p →
    ∃ t q, exec .quantumExpiry s = .next t ∧ t.part? s.ev.a = some q ∧ q = { p with turns := q.turns } ∧
      ⟨.clusterPlacement, { a := s.ev.a }⟩ ∈ t.agenda ∧ t.mem = s.mem ∧ t.groups = s.groups ∧
      ∀ prio < 16, ∀ cur, p.turnOf prio = some cur →
        let waits := fun v => v ≠ cur ∧ ∃ l ∈ s.placeable s.ev.a, l.prio = prio ∧ vfOf l.ctx = v
        ((∀ v, ¬waits v) → q.turnOf prio = some cur) ∧
        ∀ v, waits v → (cur < v ∧ (∀ x, waits x → cur < x → v ≤ x) ∨ (∀ x, waits x → x < cur) ∧ ∀ x, waits x → v ≤ x) →
          q.turnOf prio = some v) ∧
  (∀ s : State, exec .assayAudit s = .next ((s.auditSend s.ev.a ++ s.auditReceive s.ev.a ++ s.auditQueues s.ev.a).foldl (fun z a =>
      z.raiseStop a.ctx none { cause := 0x22, engine := 11, unit := a.unit, addr := BitVec.ofNat 64 a.chan, detail := BitVec.ofNat 64 a.chan
                               done := BitVec.ofNat 64 a.found, total := BitVec.ofNat 64 a.total }) s) ∧
    ∀ c ∈ s.chans, c.part = s.ev.a → c.receives = false →
      c.permits + (s.fwds.filter fun f => f.part == s.ev.a && f.ch == c.n).length ≠ c.slots →
      ∀ f ∈ s.fwds, f.part = s.ev.a → f.ch = c.n → ∃ a ∈ s.auditSend s.ev.a, a.ctx = f.ctx ∧ a.chan = c.n ∧ a.total = c.slots) ∧
  (∀ (s : State) (p : Part), s.part? s.ev.a = some p → ∃ t, exec .migrationCounterHalving s = .next t ∧ t.mem = s.mem ∧
    t.part? s.ev.a = some { p with migCounters := (p.migCounters.map fun c => (c.1, c.2 / 2)).filter fun c => c.2 != 0 }) ∧
  (∀ (s : State) (p : Part) (l : Leaf2), s.part? s.ev.a = some p → s.leaf2 p s.ev.b = some l → s.mayMigrate p l = true →
    s.reaches p s.ev.c = true → isHostPa s.ev.c = true → s.pageBusy l.pa (l.pa + 2 ^ l.bits) = false →
    (∀ g ∈ s.groups, g.resident = true) →
    ∃ t q, exec .pageMigration s = .next t ∧ t.part? s.ev.a = some q ∧ q = { p with migCounters := q.migCounters, migrated := q.migrated } ∧
      q.migrated = p.migrated ++ [(s.ev.c, 2 ^ l.bits)] ∧ (∀ c ∈ q.migCounters, c.1 ≠ l.ipa) ∧
      (∀ e ∈ t.l0 ++ t.tlb, e.part = s.ev.a → ¬(e.pbase < l.pa + 2 ^ l.bits ∧ l.pa < e.pbase + e.size)) ∧
      (∀ e ∈ t.l1, ¬(l.pa ≤ 4 * e.word ∧ 4 * e.word < l.pa + 2 ^ l.bits)))

/-- R57: when a group starts, every lane of every wave starts at the program address with priority 15, in one fragment;
every V and S register is zero, tagged RAW and full; TAGMODE and RNDMODE are the record's, the former the partition's
where it gives none, and FPFLAGS is zero; lane slots at or beyond the lane count never start. That a start invalidates
its core’s L1 is log 41, and the bytes of its vat that nothing has written are log 6. -/
def Obligations.GroupStart : Prop :=
  (∀ (s : State) (p : Part) (gr : Group) (x : GroupSpec) (w : Nat), w < gr.nwaves → (∀ v ∈ s.waves, v.g ≠ gr.g) → s.group? gr.g = none →
    (s.startGroup p gr x).group? gr.g = some { gr with clean := !s.vatUsed.contains gr.core } ∧
    ∃ v, (s.startGroup p gr x).wave? gr.g w = some v ∧ v.started = startMask gr.lanes w ∧
      v.frags = (if startMask gr.lanes w = 0 then [] else [⟨0, 0, startMask gr.lanes w, 0, 15, x.prog, 0, none, none, none, none, none, false, false⟩]) ∧
      (∀ n < 128, v.sreg n = ⟨0, tRAW, true⟩ ∧ v.vreg n = ⟨List.replicate 32 0, tRAW, 0⟩) ∧ v.vcount = x.vcount ∧ v.scount = x.scount ∧
      v.regs.tagmode = (if x.wavemode.extractLsb' 0 2 = 0 then p.mode.getLsbD 7 else x.wavemode.extractLsb' 0 2 == 2) ∧
      v.regs.rndmode = x.wavemode.extractLsb' 2 2 ∧ v.regs.fpflags = 0 ∧ v.regs.tvec = x.tvec ∧ v.held = [] ∧ v.frames = []) ∧
  (∀ lanes w l, l < 32 → (startMask lanes w).getLsbD l = decide (32 * w + l < lanes))

/-- R52, R71 to R76, R422, R423: a launch whose conditions have all been met is eligible for good; a cluster's groups start
on the cores found for it; an evicted cluster leaves its cores, and a restored one takes new ones with its waves as its
save slots hold them. Which cores a cluster takes is log 20 (DESIGN CHOICE). -/
def Obligations.PlacementEvents : Prop :=
  (∀ (s : State) (l : Launch), s.launch? s.ev.a = some l → l.eligible = false → l.ended = false → s.ev.f ≠ 1 →
    let left := l.deps.filter fun d => match s.depPhase l.ctx d.1 with | .ok ph => ph == d.2 | _ => true
    ∃ t, exec .launchEligible s = .next t ∧ t.launch? s.ev.a = some { l with deps := left, eligible := left.isEmpty } ∧ t.mem = s.mem ∧
      (left = [] → l.graph = false → ∀ p, s.partOf l.ctx = some p → ⟨.clusterPlacement, { a := p.n }⟩ ∈ t.agenda) ∧
      (left = [] → l.graph = true → ⟨.nodeGroupStart, { a := s.ev.a, b := 0 }⟩ ∈ t.agenda)) ∧
  (∀ (s : State) (p : Part) (l : Launch) (cores : List Nat), s.part? s.ev.a = some p → s.placeable s.ev.a = [l] → l.evicted = [] →
    l.graph = false → l.coresident = false → l.det = false → s.findRoom p l.spec (count3 l.cdim) = some cores →
    exec .clusterPlacement s = .next (((((s.startCluster p l l.nextCluster cores).updLaunch l.id fun x =>
      { x with nextCluster := l.nextCluster + 1 }).updPart s.ev.a fun p =>
        if (p.turnOf l.prio).isSome then p else { p with turns := p.turns ++ [(l.prio, vfOf l.ctx)] }).pushNew
          [⟨.clusterPlacement, { a := s.ev.a }⟩]).noteWaits s.ev.a)) ∧
  (∀ (s : State) (n : Nat), (∀ l ∈ s.launches, l.det = false ∨ l.ended = true) → s.noteWaits n = s) ∧
  (∀ (s u : State) (l : Launch), s.launch? s.ev.a = some l → s.ev.f ≠ 1 →
    let gs := (s.clusterGroups s.ev.a s.ev.b).filter Group.resident
    gs ≠ [] → gs.all Group.ended = false → s.ctxRuns l.ctx = true → s.clusterBusy gs = false →
    s.evict l s.ev.b ⟨.clusterEviction, { a := s.ev.a, b := s.ev.b }⟩ = .done u →
    exec .clusterEviction s = .next (u.pushNew [⟨.clusterPlacement, { a := match u.partOf l.ctx with | some p => p.n | none => 0 }⟩]) ∧
      (∃ m, u.launch? s.ev.a = some m ∧ m.evicted.head? = some s.ev.b) ∧
      (∀ g ∈ u.groups, g.launch = s.ev.a → g.cluster = s.ev.b → g.freed = false → g.resident = false)) ∧
  (∀ (s u₀ u : State) (l : Launch) (p : Part) (cores : List Nat), s.launch? s.ev.a = some l → s.partOf l.ctx = some p → s.ctxRuns l.ctx = true →
    l.evicted.contains s.ev.b = true → l.coresident = false → s.ev.f ≠ 1 → s.restoreCores p l s.ev.b ≠ none →
    let slots := (s.clusterGroups l.id s.ev.b).filterMap Group.slot
    s.reloadGroups (s.ctlCore l.ctx) l (s.clusterGroups l.id s.ev.b) = .ok u₀ () → u₀.freeMap (s.ctlCore l.ctx) l slots slots = .ok u () →
    u.restoreCores p l s.ev.b = some cores →
    cores.length = (u.clusterGroups s.ev.a s.ev.b).length → ((u.clusterGroups s.ev.a s.ev.b).map Group.g).Nodup →
    ∃ t, exec .clusterRestore s = .next t ∧ t.waves.map (fun v => (v.g, v.w, v.regs, v.sregs, v.vregs)) =
        u.waves.map (fun v => (v.g, v.w, v.regs, v.sregs, v.vregs)) ∧
      ((t.clusterGroups s.ev.a s.ev.b).map fun g => (g.g, g.core, g.resident, g.slot)) =
        ((u.clusterGroups s.ev.a s.ev.b).map Group.g).zipWith (fun g c => (g, c, true, none)) cores)

/-- R79 to R81, R346, R347, R350, R53: a node's group starts on a core that has room when the node is the deepest that may
start one; a record that arrives takes the next slot of its queue; channels are enabled; a group whose waves have exited
ends, holds its room until what uses its vat is done, and with the last of its grid ends the launch, whose COMPL gets
one arrival. Which slots records take is log 26, which cores log 20 (DESIGN CHOICE); when a node’s shapes are loaded is
log 27, how a channel stands in State log 56, and what keeps a group’s room log 40 (DEDUCED). -/
def Obligations.GraphEvents : Prop :=
  (∀ (s u : State) (l : Launch) (p : Part) (n k core : Nat) (x : Node) (rest : List Nat), s.launch? s.ev.a = some l →
    s.partOf l.ctx = some p → s.part? p.n = some p → l.graph = true → l.evicted = [] → s.placeable p.n = [l] → s.ev.f ≠ 1 →
    l.nodes[n]? = some x → s.batchSize l n (s.ticksOf l.ctx) = some k → s.canReserve l p.n n = true →
    s.findRoom p x.spec 1 = some (core :: rest) →
    (∀ m y j, m ≠ n → l.nodes[m]? = some y → s.batchSize l m (s.ticksOf l.ctx) = some j → s.canReserve l p.n m = true →
      y.depth < x.depth ∨ y.depth = x.depth ∧ n < m) → s.startNode p l n k core = some u →
    let v := (u.updPart p.n fun p => if (p.turnOf l.prio).isSome then p else
      { p with turns := p.turns ++ [(l.prio, vfOf l.ctx)] }).pushNew [⟨.clusterPlacement, { a := p.n }⟩]
    exec .nodeGroupStart s = .next v ∧ exec .nodeBatchTimeout s = .next v) ∧
  (∀ (s : State) (l : Launch) (p : Part) (n k core : Nat) (x : Node), l.nodes[n]? = some x → x.shapesLoaded = true ∨ x.shapeCnt = 0 →
    (∀ f ∈ s.faults, ⟨.nodeGroupStart, { a := l.id, b := n }⟩ ∉ f.retry) →
    s.startNode p l n k core = some (s.beginNode p l x n k core) ∧
    ∃ g ∈ (s.beginNode p l x n k core).groups, g.node = some n ∧ g.core = core ∧ g.consumed = x.srcs.take k ∧
      g.reserved = x.edges.map (·.2) ∧ g.launch = l.id ∧ g.ctx = l.ctx) ∧
  (∀ (s u : State) (c : Chan) (l : Launch) (x : Node), (s.chans.find? fun c => c.part == s.ev.a && c.n == s.ev.b && c.receives) = some c →
    (s.launches.find? fun l => l.graph && !l.ended && l.compl == c.compl && (match s.partOf l.ctx with | some p => p.n == s.ev.a | none => false)) =
      some l → l.nodes[c.node]? = some x → s.ev.f ≠ 1 → s.ev.e ≠ 1 →
    s.top.pkgid ≠ none → s.isOwnPkg c.peer = true ∨ s.routeOk s.ev.a c.route c.peer = true →
    (∀ p, s.part? s.ev.a = some p → p.closing = false) → x.taken x.tail = false → s.plainLaunch l.id → u.plainLaunch l.id →
    s.engWrite (s.ctlCore l.ctx) l.ctx .glob (x.qaddr + x.tail * x.recBytes) (s.ev.bytes.take x.recBytes) = .ok u () →
    exec .forwardRecordArrival s = .next ((({ u with chans := u.chans.map fun y => if y.part == s.ev.a && y.n == s.ev.b then
      { y with occupied := y.occupied + 1 } else y } : State).acted l.ctx).noteRecord l.id c.node (u.ticksOf l.ctx) (some s.ev.b))) ∧
  (∀ (s : State) (p : Part), s.part? s.ev.a = some p → s.ev.b < p.fwdCount →
    let e : BitVec 256 := BitVec.ofNat 64 s.ev.f ++ BitVec.ofNat 64 s.ev.e ++ BitVec.ofNat 64 s.ev.d ++ BitVec.ofNat 64 s.ev.c
    let c : Chan := ⟨s.ev.a, s.ev.b, e, e.toNat / 2 ^ 64 % 2 ^ 32, 0⟩
    let others := s.chans.filter fun c => !(c.part == s.ev.a && c.n == s.ev.b)
    (e.getLsbD 21 = false → ∃ t, exec .channelEnable s = .next t ∧ t.chans = others) ∧
    (e.getLsbD 21 = true → c.receives = false → ∃ t, exec .channelEnable s = .next t ∧ t.chans = others ++ [c]) ∧
    (e.getLsbD 21 = true → c.receives = true → (∀ l ∈ s.launches, l.graph = true → l.ended = false → l.compl = c.compl →
      s.inPart s.ev.a l.ctx = false) → exec .channelEnable s = .next s)) ∧
  (∀ (s : State) (gr : Group), s.group? s.ev.a = some gr → gr.freed = false → gr.ended = false →
    (∀ v ∈ s.waves, v.g = gr.g → v.frags = []) →
    ∃ t, exec .groupEnd s = .next t ∧ (∀ v ∈ t.waves, v.g ≠ gr.g) ∧
      (s.vatBusy gr.g = true → t.group? gr.g = some { gr with ended := true, reserved := [], consumed := [] } ∧
        ⟨.groupEnd, { a := gr.g }⟩ ∈ t.agenda) ∧
      (s.vatBusy gr.g = false → t.group? gr.g = some { gr with
        ended := true, freed := true, resident := false, pad := [], queues := [], reserved := [], consumed := [] }) ∧
      (∀ l, s.launch? gr.launch = some l → l.graph = false → l.groupsEnded + 1 = count3 l.gdim * count3 l.cdim →
        ⟨.gridCompletionArrival, { a := l.id }⟩ ∈ t.agenda)) ∧
  (∀ (s : State) (l : Launch), s.launch? s.ev.a = some l → l.ended = false →
    exec .graphEnd s = .next (if s.graphOver l then s.push .gridCompletionArrival { a := l.id } else s)) ∧
  (∀ (s u : State) (l : Launch) (pa : Nat) (sh : Bool), s.launch? s.ev.a = some l → l.ended = false → l.graph = false →
    l.groupsEnded = count3 l.gdim * count3 l.cdim → s.launchBusy s.ev.a = false →
    (l.compl = 0 → exec .gridCompletionArrival s = .next (s.dropLaunch l)) ∧
    (∀ w, l.compl ≠ 0 → s.translate (s.ctlCore l.ctx) l.ctx l.compl .atomic = (u, .ok pa sh) →
      (u.dropLaunch l).barRead (.glob pa) = some w → (u.dropLaunch l).barImmutable l.ctx (.glob pa) = false →
      exec .gridCompletionArrival s = .next ((u.dropLaunch l).barArrive (.glob pa) 1 false)))

/-- R69, R70, R102, R103, R108: a submission that is accepted queues one launch with the record's fields, not yet eligible;
a refused one answers its code and leaves nothing; LAUNCH's status fills with the same outcome. R434: a host's
submission waits for every earlier write that its logical device has accepted. A launch that is not DET is meant. Which
launches are pending is log 42 (DEDUCED), and the codes of a graph’s tables log 69 (DESIGN CHOICE). -/
def Obligations.SubmissionEvents : Prop :=
  (∀ (s t : State) (core ctx : Nat) (wheel : Option Nat) (failed : Bool) (r : LaunchRec), submit s core ctx wheel failed r = .done t 0 →
    r.malformed = false ∧ ∃ l, t.launches = s.launches ++ [l] ∧ l.ctx = ctx ∧ l.prio = r.f 5 60 4 ∧ l.prog = BitVec.ofNat 64 r.prog ∧
      l.vatword = r.vat ∧ l.lanes = r.lanes ∧ l.vcount = r.vcount ∧ l.scount = r.scount ∧ l.tiles = r.f 3 57 5 ∧
      l.compl = r.f 3 4 44 * 16 ∧ l.area = BitVec.ofNat 64 r.area ∧ l.graph = r.graph ∧ l.coresident = r.coresident ∧
      l.eligible = false ∧ l.ended = false ∧ l.nextCluster = 0 ∧ ⟨.launchEligible, { a := l.id }⟩ ∈ t.agenda) ∧
  (∀ (s : State) (p : Part), s.partOfVf s.ev.a = some p → s.ev.bytes.length = 64 → s.ev.b % 64 = 0 → p.closing = false →
    let e : Event := ⟨.hostSubmission, { a := s.ev.a, b := s.ev.b, bytes := s.ev.bytes, d := s.ev.d, e := s.ev.e }⟩
    (s.ev.f ≠ 1 → s.earlierWrite e = true → exec .hostSubmission s = .next (s.fresh.pushAll [s.accepted e])) ∧
    (s.ev.f = 1 ∨ s.earlierWrite e = false →
    let r : LaunchRec := BitVec.ofNat 512 (leNat s.ev.bytes)
    let ctx := 64 * s.ev.a + r.f 2 58 6
    (s.ctxTakes ctx = false → exec .hostSubmission s = .next (s.emit (.host s.ev.a 0 [0x15]))) ∧
    (s.ctxTakes ctx = true → ∀ t c, submit s p.firstCore ctx none (s.ev.f == 1) r = .done t c →
      exec .hostSubmission s = .next ((if c = 0 then t else s).emit (.host s.ev.a 0 [BitVec.ofNat 8 c]))))) ∧
  (∀ (s u t : State) (f : Fill) (gr : Group) (bs : List Byte) (c : Nat), (s.fills.find? fun f => f.id == s.ev.a && f.kind == 0) = some f →
    s.group? f.g = some gr → s.plainLaunch gr.launch → t.plainLaunch gr.launch → c < 256 →
    s.engRead gr.core gr.ctx .glob f.x.toNat 64 = .ok u bs → u.ctxTakes gr.ctx = true →
    submit u gr.core gr.ctx (some (wheelOf (wedgeOf gr.core))) (s.ev.f == 1) (BitVec.ofNat 512 (leNat bs)) = .done t c →
    (∀ l, ((if c = 0 then t else s).fillStatus f c).launch? gr.launch = some l → l.ended = false) →
    exec .launchStatusFill s = .next ((if c = 0 then t else s).fillStatus f c))

/-- R262, R263, R373, R375: a host's load answers the bytes at the homes, or what its function page reads; its store writes
them there; through the sync window a load surrenders the last releaser of each word first, and a store waits for every
earlier write that its logical device has accepted; a snoop answers the line's bytes, no copy of the line stays, and the
host's bytes stand where it wrote them (log 49). R384, R385: an invalidation drops every translation of its context,
page or partition and keeps those of other partitions; it is complete once the accesses then in flight have been
performed, and one made through INV then counts in INVDONE. How a function page is read is log 57 (DESIGN CHOICE), and
how much an invalidation of one page drops log 48 (DEDUCED). -/
def Obligations.HostEvents : Prop :=
  ((∀ (s u : State) (v : Vf) (p : Part) (pas : List Nat), s.ev.f ≠ 1 → s.vf? s.ev.a = some v → s.partOfVf s.ev.a = some p →
     (∀ l ∈ s.launches, vfOf l.ctx = s.ev.a → l.ended = false → l.det = true → l.replay = false) →
     let off := s.ev.b
     (∀ bs, s.ev.d ≠ 1 → off + s.ev.c ≤ v.winsize → s.ipaSpan p (v.winbase + off) .hostRead s.ev.c = .ok u pas → u.bytesAt pas = some bs →
       exec .hostPlainLoad s = .next ((u.emit (.host s.ev.a 0 bs)).hostCounts p.n (v.winbase + off))) ∧
     (∀ bs, v.winsize ≤ off → off - v.winsize + s.ev.c ≤ v.winsize →
       s.ipaSpan p (v.winbase + (off - v.winsize)) .hostRead s.ev.c = .ok u pas →
       let w := pas.foldl (fun (z : State) pa => match z.recordOf (pa / 4) with
         | some r => let y := z.writeBack r.core r.ctx fun _ => true
           { y with dir := y.dir.filter fun x => x.word != r.word }
         | none => z) u
       w.bytesAt pas = some bs → exec .syncWindowLoad s = .next ((w.emit (.host s.ev.a 0 bs)).hostCounts p.n (v.winbase + (off - v.winsize)))) ∧
     (off + s.ev.bytes.length ≤ v.winsize → s.ipaSpan p (v.winbase + off) .hostWrite s.ev.bytes.length = .ok u pas →
       (∀ pa ∈ pas, u.touchesObject 3 pa 1 = false) →
       exec .hostPlainStore s = .next ((((u.hostInput s.ev.a (v.winbase + off) s.ev.bytes).writeAt pas s.ev.bytes).emit
         (.host s.ev.a 0 [])).hostCounts p.n (v.winbase + off))) ∧
     let e : Event := ⟨.syncWindowStore, { a := s.ev.a, b := s.ev.b, bytes := s.ev.bytes, d := s.ev.d, e := s.ev.e }⟩
     (s.earlierWrite e = true → exec .syncWindowStore s = .next (s.fresh.pushAll [s.accepted e])) ∧
     (s.earlierWrite e = false → v.winsize ≤ off → off - v.winsize + s.ev.bytes.length ≤ v.winsize →
       s.ipaSpan p (v.winbase + (off - v.winsize)) .hostWrite s.ev.bytes.length = .ok u pas → (∀ pa ∈ pas, u.touchesObject 3 pa 1 = false) →
       exec .syncWindowStore s = .next ((((u.hostInput s.ev.a (v.winbase + (off - v.winsize)) s.ev.bytes).writeAt pas s.ev.bytes).emit
         (.host s.ev.a 0 [])).hostCounts p.n (v.winbase + (off - v.winsize))))) ∧
   (∀ s : State, s.ev.d = 1 → s.partOfVf s.ev.a = none → s.ev.f ≠ 1 → exec .hostPlainLoad s = .next (s.emit (.host s.ev.a 1 []))) ∧
   (∀ (s : State) (v : Vf), s.ev.d = 1 → s.vf? s.ev.a = some v → s.partOfVf s.ev.a ≠ none → exec .hostPlainLoad s = .next (s.emit (.host s.ev.a 0
     ((List.range s.ev.c).map fun k => BitVec.ofNat 8 (s.pageWord v ((s.ev.b + k) / 8 * 8) / 2 ^ (8 * ((s.ev.b + k) % 8))))))) ∧
   (∀ (s : State) (v : Vf) (c : Ctx) (k : Nat), k < 64 → s.ctx? (64 * v.n + k) = some c →
     s.pageWord v (0x1000 + 16 * k) = c.root.toNat ∧ s.pageWord v (0x1008 + 16 * k) = c.stateWord.toNat ∧
     s.pageWord v (0x1800 + 16 * k) = c.wdog.toNat ∧ s.pageWord v (0x1808 + 16 * k) = c.secovf.toNat ∧
     s.pageWord v 0x1408 = v.invdone.toNat ∧ s.pageWord v 0x1410 = v.winbase ∧ s.pageWord v 0x1418 = v.winsize ∧
     s.pageWord v 0x1400 = 0) ∧
   (∀ s : State, isHostPa s.ev.a = true → s.Canonical → ∃ t bs, exec .hostSnoop s = .next t ∧ t.Canonical ∧
     (∀ e ∈ t.l1, e.word / 32 = s.ev.a / 128 → e.own = false ∧ e.mask = e.dm) ∧
     (∀ a, a / 128 ≠ s.ev.a / 128 → memGet t.mem a = memGet s.mem a) ∧
     (∀ k b, s.ev.bytes[k]? = some b → s.ev.a % 128 + k < 128 → t.homeByte (s.ev.a + k) = some b) ∧
     (s.recallSpan (s.ev.a / 128 * 128) 128).bytesAt ((List.range 128).map (s.ev.a / 128 * 128 + ·)) = some bs ∧
     t.out = s.out ++ [.host (32 * (s.ev.a / 2 ^ 52 % 16)) 0 bs])) ∧
  ((∀ (s : State) (p : Part), s.partOfVf s.ev.a = some p →
     let ctx := 64 * s.ev.a + s.ev.b % 64
     let dropped := fun (t : State) (gone : TlbEntry → Prop) => t.mem = s.mem ∧ (∀ e ∈ t.l0 ++ t.tlb, ¬gone e ∧ e ∈ s.l0 ++ s.tlb) ∧
       (∀ e ∈ s.l0 ++ s.tlb, e.ctx ≠ some ctx → e ∈ t.l0 ++ t.tlb) ∧ ⟨.invalidationComplete, { a := s.seq }⟩ ∈ t.agenda ∧
       t.invals = s.invals ++ [⟨s.seq, some s.ev.a, s.partReqs p.n, none, s.partRegs p.n⟩]
     (invScope s.ev.b = 0 → ∃ t, exec .invStage1Page s = .next t ∧
       dropped t fun e => e.ctx = some ctx ∧ e.vbase / 2 ^ 32 = invPage s.ev.b / 2 ^ 32) ∧
     (invScope s.ev.b = 1 → ∃ t, exec .invContext s = .next t ∧ dropped t fun e => e.ctx = some ctx)) ∧
   (∀ (s : State) (p : Part), s.partOf s.ev.a = some p → s.part? p.n = some p →
     let ctx := 64 * vfOf s.ev.a + s.ev.b % 64
     let dropped := fun (t : State) (gone : TlbEntry → Prop) => t.mem = s.mem ∧ (∀ e ∈ t.l0 ++ t.tlb, ¬gone e ∧ e ∈ s.l0 ++ s.tlb) ∧
       (∀ e ∈ s.l0 ++ s.tlb, e.ctx ≠ some ctx → e ∈ t.l0 ++ t.tlb) ∧ t.invals = s.invals ++ [⟨s.seq, none, s.partReqs p.n, none, s.partRegs p.n⟩]
     (invScope s.ev.b = 0 → ∃ t, exec .tlbinvStage1Page s = .next t ∧
       dropped t fun e => e.ctx = some ctx ∧ e.vbase / 2 ^ 32 = invPage s.ev.b / 2 ^ 32) ∧
     (invScope s.ev.b = 1 → ∃ t, exec .tlbinvContext s = .next t ∧ dropped t fun e => e.ctx = some ctx)) ∧
   (∀ (s : State) (p : Part), s.part? s.ev.a = some p →
     let dropped := fun (t : State) (gone : TlbEntry → Prop) => t.mem = s.mem ∧ (∀ e ∈ t.l0 ++ t.tlb, ¬gone e ∧ e ∈ s.l0 ++ s.tlb) ∧
       (∀ e ∈ s.l0 ++ s.tlb, e.part ≠ s.ev.a → e ∈ t.l0 ++ t.tlb) ∧ t.invals = s.invals ++ [⟨s.seq, none, s.partReqs p.n, none, s.partRegs p.n⟩]
     (invScope s.ev.b = 2 → ∃ t, exec .tlbinvStage2Page s = .next t ∧
       dropped t fun e => e.part = s.ev.a ∧ e.ibase / 2 ^ 32 = invPage s.ev.b / 2 ^ 32) ∧
     (invScope s.ev.b = 3 → ∃ t, exec .tlbinvPartition s = .next t ∧ dropped t fun e => e.part = s.ev.a)) ∧
   (∀ (s : State) (x : Inval), (s.invals.find? fun x => x.id == s.ev.a) = some x →
     ((∃ r ∈ x.reqs, (s.req? r).isSome = true) ∨ (∃ r ∈ x.regs, r ∈ s.regq) → exec .invalidationComplete s = .next (s.push .invalidationComplete { a := s.ev.a })) ∧
     ((∀ r ∈ x.reqs, s.req? r = none) → (∀ r ∈ x.regs, r ∉ s.regq) → ∃ t, exec .invalidationComplete s = .next t ∧ (∀ y ∈ t.invals, y.id ≠ x.id) ∧
       ∀ v f, x.vf = some v → s.vf? v = some f → t.vf? v = some { f with invdone := f.invdone + 1 })))

/-- R373, R413 to R415: a root is taken at once unless the context runs; a stop raises HOST_STOP; a resume sets the context
and its engines going; a withdrawal stops a running context first, and frees everything that the context holds. That a
stop acts on a running context only, and that a withdrawal of one frees what it holds when its stop is complete, are log
47 (DEDUCED); a resume token is log 45. -/
def Obligations.ContextEvents : Prop :=
  (∀ (s : State) (p : Part), s.partOfVf s.ev.a = some p → s.ev.b < 64 →
    let id := s.ev.b + 64 * s.ev.a
    let v : DWord := BitVec.ofNat 64 s.ev.c &&& 0x01FFFFFFFFFF8001
    let u := s.emit (.host s.ev.a 0 [])
    let leaves := fun c : Ctx => (u.updCtx id fun c => { c with rootNext := some v }).raiseStop c.id none
      { cause := 0x28, engine := 16, unit := 0xFFFF, addr := 0, detail := 2 }
    (s.ctx? id = none → exec .ctxrootWrite s = .next { u with ctxs := s.ctxs ++ [freshCtx id v] }) ∧
    (∀ c, s.ctx? id = some c → v.getLsbD 0 = true →
      (c.phase = .running ∨ c.phase = .stopping → exec .ctxrootWrite s = .next (u.updCtx id fun c => { c with rootNext := some v })) ∧
      (c.phase = .idle ∨ c.phase = .stopped → ∃ t, exec .ctxrootWrite s = .next t ∧ t.ctx? id = some { c with root := v }) ∧
      (c.phase = .withdrawn → ∃ t, exec .ctxrootWrite s = .next t ∧ t.ctx? id = some { c with root := v, phase := .idle })) ∧
    (∀ c, s.ctx? id = some c → v.getLsbD 0 = false →
      (c.phase = .running → exec .ctxrootWrite s = .next ((leaves c).updCtx id fun c => { c with leaving := true })) ∧
      (c.phase = .stopping → exec .ctxrootWrite s = .next ((u.updCtx id fun c => { c with rootNext := some v }).updCtx id fun c =>
        { c with leaving := true })) ∧
      (c.phase = .idle ∨ c.phase = .stopped → c.root.getLsbD 0 = true → ∃ t d, exec .ctxrootWrite s = .next t ∧ t.ctx? id = some d ∧
        d.phase = .withdrawn ∧ d.root = v) ∧
      (c.phase = .withdrawn ∨ (c.phase = .idle ∨ c.phase = .stopped) ∧ c.root.getLsbD 0 = false →
        ∃ t, exec .ctxrootWrite s = .next t ∧ t.ctx? id = some { c with root := v }))) ∧
  (∀ (s : State) (c : Ctx), s.ctxOfPart s.ev.a s.ev.b = some c →
    (c.phase = .running → exec .ctxctlStop s = .next (s.raiseStop c.id none
      { cause := 0x28, engine := 16, unit := 0xFFFF, addr := 0, detail := 1 })) ∧
    (c.phase = .stopped → c.lost = false → (∀ l ∈ s.areaLaunches c.id, s.badTokens l = []) →
      ∃ t d, exec .ctxctlResume s = .next t ∧ t.ctx? c.id = some d ∧ d.phase = .running ∧ d.wdogTicks = 0 ∧
        (∀ k ∈ t.cmds, k.ctx = c.id → k.engine ∉ [0, 1, 2, 3, 7] → k.halted = false) ∧ t.groups = s.groups ∧ t.waves = s.waves) ∧
    (c.phase = .running → exec .ctxctlWithdraw s = .next ((s.raiseStop c.id none
      { cause := 0x28, engine := 16, unit := 0xFFFF, addr := 0, detail := 2 }).updCtx c.id fun c => { c with leaving := true })) ∧
    (c.phase = .stopping → exec .ctxctlWithdraw s = .next (s.updCtx c.id fun c => { c with leaving := true })) ∧
    (c.phase = .idle ∨ c.phase = .stopped → ∃ t d, exec .ctxctlWithdraw s = .next t ∧ t.ctx? c.id = some d ∧ d.phase = .withdrawn ∧ d.shapes = [] ∧
      (∀ l ∈ t.launches, l.ctx = c.id → l.ended = true) ∧ (∀ k ∈ t.cmds, k.ctx ≠ c.id) ∧ (∀ r ∈ t.rays, r.ctx ≠ c.id) ∧
      (∀ r ∈ t.ranges, r.ctx ≠ c.id) ∧ (∀ x ∈ t.svc, x.ctx ≠ c.id) ∧ (∀ e ∈ t.secs, e.ctx ≠ c.id) ∧ (∀ e ∈ t.l0 ++ t.tlb, e.ctx ≠ some c.id)))

/-- R404 to R407, R409, R425 to R427, R432: a stop-class cause halts its context, its commands and its ray units; the stop is complete, with interrupt vector 0,
when every agent has stopped and the clusters are saved; a memory fault that lasts stops its context, with the wedge of the
read, or the wedge or core that holds the word, as its unit, and any other is only logged; an input of a recorded launch is appended
to its recording, and one that it has no room for stops the context. What HALT brings and how a stop waits for its agents is log 46
(DEDUCED); what the two memory failures bring, and that the address in DETAIL is physical, is log 51 (DEDUCED); the recorder's
place is log 60 (DEDUCED). -/
def Obligations.StopEvents : Prop :=
  (∀ s : State, 0x20 ≤ s.ev.b → s.ev.b ≤ 0x28 →
    exec .halt s = .next (s.raiseStop s.ev.a s.ev.ids.head?
      { cause := s.ev.b, engine := s.ev.c, unit := s.ev.d, addr := BitVec.ofNat 64 s.ev.e, detail := BitVec.ofNat 64 s.ev.f }) ∧
    ∀ c, s.ctx? s.ev.a = some c → c.phase = .running ∨ c.phase = .idle → ∃ t d, exec .halt s = .next t ∧ t.ctx? s.ev.a = some d ∧
      d.phase = .stopping ∧ d.cause = BitVec.ofNat 8 s.ev.b ∧ ⟨.stopSaveComplete, { a := s.ev.a }⟩ ∈ t.agenda) ∧
  (∀ (s : State) (ctx : Nat) (launch : Option Nat) (r : StopRec) (c : Ctx), s.ctx? ctx = some c → c.phase = .running ∨ c.phase = .idle →
    ∃ d, (s.raiseStop ctx launch r).ctx? ctx = some d ∧ d.phase = .stopping ∧ d.cause = BitVec.ofNat 8 r.cause ∧ d.root = c.root ∧
      ⟨.stopSaveComplete, { a := ctx }⟩ ∈ (s.raiseStop ctx launch r).agenda ∧
      (∀ k ∈ s.cmds, k.ctx = ctx → k.halted = false → ∃ own, (k.engine ≠ 9 → own = 0) ∧
        ⟨.agentStop, { a := ctx, b := k.engine, c := k.unit, d := own }⟩ ∈ (s.raiseStop ctx launch r).agenda) ∧
      (∀ x ∈ s.rays, x.ctx = ctx →
        let own := if r.engine = 9 ∧ r.unit = x.core then launch.elim 0 (· + 1) else 0
        ⟨.agentStop, { a := ctx, b := 9, c := x.core, d := own }⟩ ∈ (s.raiseStop ctx launch r).agenda)) ∧
  (∀ (s u : State) (c : Ctx), s.ctx? s.ev.a = some c → c.phase = .stopping →
    let bad := s.ev.ids.take (s.ev.ids.length - 2)
    (s.agentsStopped s.ev.a = false → exec .stopSaveComplete s = .next (s.pushAll [⟨.stopSaveComplete, { a := s.ev.a, ids := s.ev.ids }⟩])) ∧
    (s.agentsStopped s.ev.a = true → s.ev.f ≠ 1 → s.saveAll s.ev.a bad (s.residentClusters s.ev.a) = .done u →
      exec .stopSaveComplete s = .next (u.stopDone s.ev.a)) ∧
    (s.agentsStopped s.ev.a = true → s.ev.f ≠ 1 → s.residentClusters s.ev.a = [] → c.leaving = false → ∃ t d,
      exec .stopSaveComplete s = .next t ∧ t.ctx? s.ev.a = some d ∧ d.phase = .stopped ∧ t.out = s.out ++ [.msix (vfOf s.ev.a) 0])) ∧
  (∀ (s : State) (c : Ctx), s.ctx? c.id = some c →
    (c.leaving = false → (s.stopDone c.id).ctx? c.id = some { c with phase := .stopped, root := c.rootNext.getD c.root, rootNext := none } ∧
      (s.stopDone c.id).out = s.out ++ [.msix (vfOf c.id) 0]) ∧
    (c.leaving = true → ∃ d, (s.stopDone c.id).ctx? c.id = some d ∧ d.phase = .withdrawn ∧ d.leaving = false ∧ d.shapes = [])) ∧
  (∀ s : State,
    let u := fun k : BitVec 4 => s.logError ⟨BitVec.ofNat 64 s.ev.b, s.partNo s.ev.a, 1, 0, k, s.hbeatOf s.ev.a⟩
    let addr : DWord := BitVec.ofNat 64 (if s.ev.e = 0 then s.ev.b else s.ev.e)
    let lost := fun z : State => z.dropAccess (s.ev.ids.getD 1 0) (s.ev.ids.getD 2 0) (s.ev.ids.getD 3 0)
    let unit := wedgeOf ((u 1).homeCore s.ev.a s.ev.b)
    (s.ev.c = 1 → exec .hbmReadFailure s = .next (u 0)) ∧
    (s.ev.c ≠ 1 → s.ev.d ≠ 1 → exec .hbmReadFailure s = .next ((lost (u 1)).raiseStop s.ev.a s.evLaunch
      { cause := 0x21, engine := 14, unit := unit, addr := addr, detail := BitVec.ofNat 64 s.ev.b })) ∧
    (∀ p, s.ev.c ≠ 1 → s.ev.d = 1 → (u 1).partOf s.ev.a = some p →
      exec .hbmReadFailure s = .next ((lost ((u 1).logViolation p.n ⟨addr, BitVec.ofNat 64 (if s.ev.e = 0 then 0 else (u 1).ipaOf s.ev.a s.ev.e),
        false, s.ev.a, BitVec.ofNat 16 (8 * 4096 + s.ev.ids.getD 0 0 * 256), p.hbeat⟩)).raiseStop s.ev.a s.evLaunch
          { cause := 0x20, engine := 14, unit := unit, addr := addr, detail := BitVec.ofNat 64 s.ev.b }))) ∧
  (∀ s : State,
    let addr : DWord := BitVec.ofNat 64 s.ev.b
    let u := fun k : BitVec 4 => s.logError ⟨addr, s.partNo s.ev.a, 1, 1, k, s.hbeatOf s.ev.a⟩
    (s.ev.c ≠ 1 ∨ s.ev.d = 1 → exec .secdedError s = .next (u 0)) ∧
    (s.ev.c = 1 → s.ev.d ≠ 1 → exec .secdedError s = .next ((u 1).raiseStop s.ev.a s.evLaunch
      { cause := 0x21, engine := 14, unit := s.ev.e, addr := addr, detail := addr }))) ∧
  (∀ (s : State) (l : Launch), s.launch? s.ev.a = some l →
    (s.ev.f = 1 → exec .detRecorderInput s = .next (s.replayInput l.id)) ∧
    (s.ev.f = 2 → ∀ f, (s.fills.find? fun f => f.id == s.ev.a && f.kind == 4) = some f →
      exec .detRecorderInput s = .next (s.hbeatFill f (BitVec.ofNat 64 s.ev.b))) ∧
    (s.ev.f ≠ 1 → s.ev.f ≠ 2 → l.det = false → exec .detRecorderInput s = .next s) ∧
    (s.ev.f ≠ 1 → s.ev.f ≠ 2 → l.det = true → l.replay = false → l.recHeld = [] →
      let e := detEntry (s.vclockOf l.ctx) s.ev.b (BitVec.ofNat 64 s.ev.c) (BitVec.ofNat 64 s.ev.d) s.ev.bytes
      (l.recUsed + e.length ≤ l.recBytes → exec .detRecorderInput s =
        .next ((s.stopWrite l.ctx (l.recBase + BitVec.ofNat 64 l.recUsed) e).detAdvance l e.length)) ∧
      (l.recBytes < l.recUsed + e.length → exec .detRecorderInput s =
        .next ((s.updLaunch l.id fun x => { x with recHeld := x.recHeld ++ [e] }).detStop l 0))) ∧
    (s.ev.f ≠ 1 → s.ev.f ≠ 2 → l.det = true → l.replay = true → l.recUsed + 32 ≤ l.recBytes →
      let h := s.stopRead l.ctx (l.recBase + BitVec.ofNat 64 l.recUsed) 32
      (h / 2 ^ 64 % 256 = s.ev.b → h / 2 ^ 128 % 2 ^ 64 = s.ev.c % 2 ^ 64 →
        exec .detRecorderInput s = .next (s.detAdvance l (32 + (h / 2 ^ 96 % 2 ^ 32 + 31) / 32 * 32))) ∧
      (h / 2 ^ 64 % 256 ≠ s.ev.b ∨ h / 2 ^ 128 % 2 ^ 64 ≠ s.ev.c % 2 ^ 64 →
        exec .detRecorderInput s = .next (s.detStop l 1).fresh)) ∧
    (s.ev.f ≠ 1 → s.ev.f ≠ 2 → l.det = true → l.replay = true → l.recBytes < l.recUsed + 32 →
      exec .detRecorderInput s = .next (s.detStop l 0).fresh))

/-- R18, R391, R447, R448: power-on verifies and measures the root of trust and the management firmware, training releases
the wedges whose stacks trained and measures the service firmware; an image that fails leaves the module in recovery,
where alone one may be written; power-off leaves what reset leaves. R392: a report names the partition, its wedges,
heartbeat and nonce, the three measurements and the digest of its assignment, and is signed over its first 256 bytes.
The input of CONFIG is log 54 and the open functions of the root of trust log 14 (DESIGN CHOICE); which events a
power-off drops is log 52 (DEDUCED), and what reset leaves log 4. -/
def Obligations.BringUpEvents : Prop :=
  ((∀ s : State, s.top.stage = .off →
     let root := s.ev.bytes.take s.ev.b
     let mgmt := if s.top.recImage.isEmpty then s.ev.bytes.drop s.ev.b else s.top.recImage
     ∃ t, exec .powerOn s = .next t ∧ t.mem = s.mem ∧ t.parts = s.parts ∧ t.top.rot = (if s.ev.a = 1 then 0 else 1) ∧
       (Config.signatureOk root = true → t.top.mroot = digest root) ∧
       (Config.signatureOk root = true → Config.signatureOk mgmt = true → t.top.stage = .firmwareOk ∧ t.top.mmgmt = digest mgmt ∧ t.out = s.out) ∧
       (Config.signatureOk root = false ∨ Config.signatureOk mgmt = false → t.top.stage = .recovery ∧ t.out = s.out ++ [.mgmt 0 2])) ∧
   (∀ s : State, s.top.stage = .firmwareOk →
     ∃ t, exec .hbmTrainingComplete s = .next t ∧ t.mem = s.mem ∧ t.parts = s.parts ∧ t.top.released = ~~~BitVec.ofNat 20 s.ev.a ∧
       (Config.signatureOk s.ev.bytes = true → t.top.stage = .released ∧ t.top.msvc = digest s.ev.bytes) ∧
       (Config.signatureOk s.ev.bytes = false → t.top.stage = .recovery)) ∧
   (∀ s : State,
     (s.top.stage ≠ .recovery → exec .recoveryFirmwareWrite s = .next s) ∧
     (s.top.stage = .recovery → Config.signatureOk s.ev.bytes = true →
       exec .recoveryFirmwareWrite s = .next { s with top := { s.top with recImage := s.ev.bytes } }) ∧
     (s.top.stage = .recovery → Config.signatureOk s.ev.bytes = false → exec .recoveryFirmwareWrite s = .next (s.emit (.mgmt 0 2)))) ∧
   (∀ s : State, ∃ t, exec .powerOff s = .next t ∧ t.top = { State.reset.top with recImage := s.top.recImage } ∧ t.parts = [] ∧ t.vfs = [] ∧
     t.ctxs = [] ∧ t.launches = [] ∧ t.groups = [] ∧ t.waves = [] ∧ t.cmds = [] ∧ t.l1 = [] ∧ t.tlb = [] ∧ t.cur = none ∧
     t.mem = s.mem.filter (fun c => isHostPa c.1))) ∧
  (∀ (s : State) (p : Part), s.part? s.ev.a = some p →
     ∃ body, exec .attestationRequest s = .next (s.fresh.emit (.report (body ++ field 384 (Config.sign s.seq body)))) ∧ body.length = 256 ∧
       body.take 24 = leBytes 4 1 ++ leBytes 4 p.n ++ leBytes 8 p.wedges.toNat ++ leBytes 8 p.hbeat ∧
       (s.ev.bytes.length = 32 → (body.drop 24).take 32 = s.ev.bytes) ∧ (body.drop 56).take 32 = field 32 s.top.mroot ∧
       (body.drop 88).take 32 = field 32 s.top.mmgmt ∧ (body.drop 120).take 32 = field 32 s.top.msvc ∧
       (body.drop 152).take 32 = digest (s.assignment p))

/-- R264, R326, R366, R369, R371, R373, R374, R389, R390, R447: a partition is created over released, free wedges with a key
of its own, MODE and HBEAT at their reset values, and destroyed with everything its wedges hold; the registers and
tables that the fabric manager and hosts write take their values, and none does while the module is in recovery (R448).
When a partition that is destroyed goes is log 53 (DEDUCED); what each event brings is log 59, the keys of ports and
links log 14, a tenant key log 15 (DESIGN CHOICE). -/
def Obligations.AssignmentEvents : Prop :=
  (∀ s : State, s.canCreate s.ev.a (BitVec.ofNat 20 s.ev.b) = true → ∃ t p, exec .partitionCreate s = .next t ∧ t.part? s.ev.a = some p ∧
    t.parts = s.parts ++ [p] ∧ p.wedges = BitVec.ofNat 20 s.ev.b ∧ p.root2 = BitVec.ofNat 64 s.ev.c &&& 0x01FFFFFFFFFF8000 ∧
    p.mode = 16 ∧ p.hbeat = 0 ∧ p.grants = [] ∧ p.tenant = none ∧ p.key = s.top.keys ∧ t.top.keys = s.top.keys + 1 ∧ t.mem = s.mem) ∧
  (∀ (s : State) (p : Part), s.part? s.ev.a = some p →
    (p.closing = false → ∃ t q, exec .partitionDestroy s = .next t ∧ t.part? s.ev.a = some q ∧ q.closing = true ∧
      ⟨.partitionDestroy, { a := s.ev.a }⟩ ∈ t.agenda ∧
      ∀ c ∈ s.ctxs, s.ctx? c.id = some c → s.inPart s.ev.a c.id = true → c.phase = .running →
        ∃ d, t.ctx? c.id = some d ∧ d.phase = .stopping ∧ d.cause = 0x28) ∧
    (p.closing = true → (∀ c ∈ s.ctxs, s.inPart s.ev.a c.id = true → c.phase ≠ .stopping ∧ c.phase ≠ .running) →
      ∃ t, exec .partitionDestroy s = .next t ∧ t.part? s.ev.a = none ∧ (∀ f ∈ t.vfs, f.part ≠ some s.ev.a) ∧
        (∀ q ∈ t.top.ports ++ t.top.links, q.2 ≠ s.ev.a) ∧ (∀ c ∈ t.mem, c.1 < 2 ^ 56 → p.wedges.getLsbD (c.1 / 2 ^ 36) = false) ∧
        (∀ e ∈ t.l1, p.wedges.getLsbD (wedgeOf e.core) = false) ∧ (∀ e ∈ t.tlb, p.wedges.getLsbD e.unit = false) ∧
        (∀ c ∈ t.chans, c.part ≠ s.ev.a))) ∧
  (∀ s : State, exec .packageIdentityWrite s = .next (if s.parts = [] ∧ s.top.stage ≠ .recovery then { s with top := { s.top with pkgid := some (BitVec.ofNat 18 s.ev.a) } }
    else s)) ∧
  (∀ (s : State) (n : Nat), s.ev.c = 0 ∧ n = 0 ∨ s.ev.c = n + 1 ∧ (s.part? n).isSome = true →
    let mine := if s.ev.c = 0 then [] else [(s.ev.b, n)]
    let top := s.top.rekey (decide (s.ev.a = 1)) s.ev.b (if s.ev.c = 0 then none else some n)
    (s.ev.a = 1 → s.ev.b < 16 → exec .portAssignment s = .next { s with top := { top with
      links := s.top.links.filter (fun q => q.1 != s.ev.b) ++ mine } }) ∧
    (s.ev.a ≠ 1 → s.ev.b < 8 → exec .portAssignment s = .next { s with
      top := { top with ports := s.top.ports.filter (fun q => q.1 != s.ev.b) ++ mine }
      staging := if mine ≠ [] ∧ (s.ev.b, n) ∈ s.top.ports then s.staging else s.staging.filter fun x => x.press != s.ev.b })) ∧
  (∀ (s : State) (part : Option Nat), s.ev.a < 512 → s.top.stage ≠ .recovery → (part = none ∧ s.ev.b = 0 ∨ ∃ n, part = some n ∧ s.ev.b = n + 1 ∧ (s.part? n).isSome = true) →
    (∀ c ∈ s.ctxs, vfOf c.id = s.ev.a → c.phase ≠ .running ∧ c.phase ≠ .stopping) →
    ∃ t f, exec .virtualFunctionAssignment s = .next t ∧ t.vf? s.ev.a = some f ∧ f.part = part ∧
      ∀ g, s.vf? s.ev.a = some g → g.part ≠ part → (∀ c ∈ t.ctxs, vfOf c.id ≠ s.ev.a) ∧ (∀ l ∈ t.launches, vfOf l.ctx ≠ s.ev.a)) ∧
  (∀ (s : State) (p : Part), s.part? s.ev.a = some p → s.ev.b < 256 → ∃ t q, exec .importGrantWrite s = .next t ∧ t.part? s.ev.a = some q ∧
    q = { p with grants := q.grants } ∧ (q.grants.find? fun g => g.slot == s.ev.b) =
      some ⟨s.ev.b, BitVec.ofNat 64 s.ev.c &&& 0xF0000000007FFFFF, s.ev.d % 2 ^ 57 / 4096 * 4096, s.ev.e % 2 ^ 57 / 4096 * 4096⟩ ∧
    ∀ n, n ≠ s.ev.b → (q.grants.find? fun g => g.slot == n) = p.grants.find? fun g => g.slot == n) ∧
  (∀ (s : State) (p : Part), s.part? s.ev.a = some p → ∃ t, exec .tenantKeyImport s = .next t ∧
    t.part? s.ev.a = some (if s.ev.c = 1 then { p with tenant := some s.ev.b } else p) ∧ t.mem = s.mem) ∧
  (∀ s : State,
    let v : DWord := BitVec.ofNat 64 s.ev.c
    (s.ev.a = 0x107 ∨ s.ev.a = 0x108 → s.partOf s.ev.b = none → exec .registerWrite s = .next (s.emit (.host (vfOf s.ev.b) 1 []))) ∧
    (s.top.stage = .recovery → s.ev.a ≠ 0x107 → s.ev.a ≠ 0x108 → exec .registerWrite s = .next s) ∧
    (s.top.stage ≠ .recovery →
    (∀ p, s.part? s.ev.b = some p →
      (s.ev.a = 0x106 → ∃ t, exec .registerWrite s = .next t ∧ t.part? s.ev.b = some { p with migthr := v &&& 0x1FFFFF }) ∧
      (s.ev.a = 0x109 → ∃ t, exec .registerWrite s = .next t ∧ t.part? s.ev.b = some { p with fwdcfg := v &&& 0xFFFFFFFFFFFF1FFF }) ∧
      (s.ev.a = 0x10C → ∃ t, exec .registerWrite s = .next t ∧ t.part? s.ev.b = some { p with dispcfg := v &&& 0x01FFFFFFFFFFFF01 })) ∧
    (∀ c, s.ctx? s.ev.b = some c → s.partOf s.ev.b ≠ none →
      (s.ev.a = 0x107 → ∃ t, exec .registerWrite s = .next t ∧ t.ctx? s.ev.b = some { c with wdog := v.setWidth 32 }) ∧
      (s.ev.a = 0x108 → ∃ t, exec .registerWrite s = .next t ∧ t.ctx? s.ev.b = some { c with secovfNext := v })) ∧
    (∀ f, s.vf? s.ev.b = some f →
      (s.ev.a = 0x1410 → ∃ t, exec .registerWrite s = .next t ∧ t.vf? s.ev.b = some { f with winbase := v.toNat % 2 ^ 57 / 4096 * 4096 }) ∧
      (s.ev.a = 0x1418 → ∃ t, exec .registerWrite s = .next t ∧ t.vf? s.ev.b = some { f with winsize := v.toNat / 4096 * 4096 }))))

/-- R393, R394: a head's record is written, its EN reading back 0 when the encoders of its wedge would be beyond their
limits; a frame is read whole from the buffer that SEL selects, and a finished one stands in the ring with one arrival
at its barrier. Where a head table stands, what a pixel of each FMT takes and the bitstream of a frame are log 55
(DESIGN CHOICE). -/
def Obligations.DisplayEvents : Prop :=
  (∀ (s u : State) (p : Part) (pas : List Nat), s.ev.f ≠ 1 → s.partOfWedge s.ev.a = some p → s.ev.b < 4 → s.ev.bytes.length = 64 →
    p.dispcfg.getLsbD 0 = true →
    let r := if headEn s.ev.bytes && s.headRefused s.ev.a s.ev.b s.ev.bytes then headOff s.ev.bytes else s.ev.bytes
    s.ipaSpan p (p.headAt s.ev.b) .engineWrite 64 = .ok u pas → (∀ pa ∈ pas, u.touchesObject 3 pa 1 = false) →
    exec .headEnable s = .next { u.writeAt pas r with
      heads := ((u.writeAt pas r).heads.filter fun h => !(h.wedge == s.ev.a && h.head == s.ev.b)) ++
        (if headEn r then [⟨s.ev.a, s.ev.b, r, 0, 0⟩] else []) }) ∧
  (∀ (s u : State) (p : Part) (h : Head) (pa : Nat) (sh : Bool) (sel : List Byte), s.ev.f ≠ 1 → s.partOfWedge s.ev.a = some p →
    (s.heads.find? fun h => h.wedge == s.ev.a && h.head == s.ev.b) = some h → p.dispcfg.getLsbD 0 = true →
    s.translate2 p (p.headAt s.ev.b + 0x18) .engineRead = (u, .ok pa sh) → (u.displayAcquire pa).homeBytes pa 4 = some sel →
    ∀ bs w, State.FrameRead p h.record (headFb h.record (leNat sel % 2)) (headHeight h.record) (u.displayAcquire pa) bs w →
      exec .frameStart s = .next (let v := w.emit (.frame s.ev.a s.ev.b bs)
        if (headOn h.record).isEmpty then v else v.push .encoderFrameComplete { a := s.ev.a, b := s.ev.b, bytes := bs })) ∧
  (∀ (s u : State) (p : Part) (h : Head) (pa : Nat) (sh : Bool), s.ev.f ≠ 1 → s.ev.c = 1 → s.partOfWedge s.ev.a = some p →
    (s.heads.find? fun h => h.wedge == s.ev.a && h.head == s.ev.b) = some h →
    s.translate2 p (headRing h.record + headRingLen h.record - 16) .engineWrite = (u, .ok pa sh) → u.barRead (.glob pa) ≠ none →
    exec .encoderFrameComplete s = .next (u.barArrive (.glob pa) 1 false)) ∧
  (∀ (s u w : State) (p : Part) (h : Head) (pa : Nat) (sh : Bool), s.ev.f ≠ 1 → s.ev.c ≠ 1 → s.partOfWedge s.ev.a = some p →
    (s.heads.find? fun h => h.wedge == s.ev.a && h.head == s.ev.b) = some h → 128 ≤ headRingLen h.record →
    let size := headRingLen h.record - 16
    let units := (headOn h.record).flatMap fun j => Config.encoded (2 * s.seq + j) (headCodec h.record j)
      (headKbps h.record j) (headField h.record 0x10 48 4) (headWidth h.record) (headHeight h.record) s.ev.bytes
    State.RingWritten p (headRing h.record) size units h.pos s w →
    let v : State := { w with seq := w.seq + 1, heads := w.heads.map fun x => if x.wedge == s.ev.a && x.head == s.ev.b then
      { x with pos := (h.pos + units.length) % size, frames := x.frames + 1 } else x }
    v.translate2 p (headRing h.record + size) .engineWrite = (u, .ok pa sh) →
    exec .encoderFrameComplete s = .next (u.displayArrive p (headRing h.record + size) pa) ∧
    (u.barRead (.glob pa) = none → (u.displayArrive p (headRing h.record + size) pa) =
      u.displayFail p .engineWrite 8 0 (headRing h.record + size)) ∧
    (u.barRead (.glob pa) ≠ none → (u.displayArrive p (headRing h.record + size) pa) = u.barArrive (.glob pa) 1 false))
end

