-- ==== Sys2Proof/Laws/Coding.lean ====
section
/-! SUPPORT. Lemmas about the decoder and the encoder: a field read back from a word, the major of a word, and the step
from the raw decoder to the whole one. The family WordFits of Laws/PerInstr.lean and the round trip rest on them. -/

namespace Sys2Proof

/-- A field whose bits hold the value of x reads as x. -/
theorem fld_eq {w lo n : Nat} {x : BitVec n} (h : w / 2 ^ lo % 2 ^ n = x.toNat) : fld w lo n = x :=
  BitVec.eq_of_toNat_eq (by simp [fld, h])

/-- A one-bit field whose bit holds the value of x reads as x. -/
theorem bit_eq {w lo : Nat} {x : Bool} (h : w / 2 ^ lo % 2 = x.toNat) : bit w lo = x := by
  cases x <;> simp [bit, h]

/-- What a field reads is its bits' value. -/
theorem fld_toNat (w lo n : Nat) : (fld w lo n).toNat = w / 2 ^ lo % 2 ^ n := by simp [fld]

/-- What a one-bit field reads is its bit's value. -/
theorem bit_toNat (w lo : Nat) : (bit w lo).toNat = w / 2 ^ lo % 2 := by
  unfold bit
  rcases Nat.mod_two_eq_zero_or_one (w / 2 ^ lo) with h | h <;> simp [h]

/-- Where the raw decoder reads a checked instruction from a value below 2^32, the whole decoder reads it too. -/
theorem decodeWord_of_raw {n : Nat} {i : Instr} (hn : n < 2 ^ 32) (hd : decodeRaw n = .ok i) (hc : i.check = none) :
    decodeWord n = .ok i := by
  rw [decodeWord, Nat.mod_eq_of_lt hn, hd]
  simp only [hc]

/-- Where the whole decoder reads an instruction, the raw one reads it and every check passes. -/
theorem raw_of_decodeWord {n : Nat} {i : Instr} (h : decodeWord n = .ok i) :
    decodeRaw (n % 2 ^ 32) = .ok i ∧ i.check = none := by
  unfold decodeWord at h
  split at h
  · cases h
  · rename_i j hj
    split at h
    · rename_i hc
      cases h
      exact ⟨hj, hc⟩
    · cases h

/-- The word of a well-formed instruction is the one its encoder gives, and its value is that number. -/
theorem encode_toNat {i : Instr} (hw : i.isWord = true) (hn : encodeNat i < 2 ^ 32) :
    ∃ w, encode i = some w ∧ w.toNat = encodeNat i :=
  ⟨BitVec.ofNat 32 (encodeNat i), by simp [encode, hw], by rw [BitVec.toNat_ofNat, Nat.mod_eq_of_lt hn]⟩

/-- A word of major value 0x00 is read by that major's rows. -/
theorem decodeRaw_00 {w : Nat} (h : w / 2 ^ 25 = 0x00) : decodeRaw w = decodeMajor00 w := by
  rw [decodeRaw, h]
  rfl

/-- A word of major value 0x01 is read by that major's rows. -/
theorem decodeRaw_01 {w : Nat} (h : w / 2 ^ 25 = 0x01) : decodeRaw w = decodeMajor01 w := by
  rw [decodeRaw, h]
  rfl

/-- A word of major value 0x02 is read by that major's rows. -/
theorem decodeRaw_02 {w : Nat} (h : w / 2 ^ 25 = 0x02) : decodeRaw w = decodeMajor02 w := by
  rw [decodeRaw, h]
  rfl

/-- A word of major value 0x03 is read by that major's rows. -/
theorem decodeRaw_03 {w : Nat} (h : w / 2 ^ 25 = 0x03) : decodeRaw w = decodeMajor03 w := by
  rw [decodeRaw, h]
  rfl

/-- A word of major value 0x04 is read by that major's rows. -/
theorem decodeRaw_04 {w : Nat} (h : w / 2 ^ 25 = 0x04) : decodeRaw w = decodeMajor04 w := by
  rw [decodeRaw, h]
  rfl

/-- A word of major value 0x05 is read by that major's rows. -/
theorem decodeRaw_05 {w : Nat} (h : w / 2 ^ 25 = 0x05) : decodeRaw w = decodeMajor05 w := by
  rw [decodeRaw, h]
  rfl

/-- A word of major value 0x06 is read by that major's rows. -/
theorem decodeRaw_06 {w : Nat} (h : w / 2 ^ 25 = 0x06) : decodeRaw w = decodeMajor06 w := by
  rw [decodeRaw, h]
  rfl

/-- A word of major value 0x07 is read by that major's rows. -/
theorem decodeRaw_07 {w : Nat} (h : w / 2 ^ 25 = 0x07) : decodeRaw w = decodeMajor07 w := by
  rw [decodeRaw, h]
  rfl

/-- A word of major value 0x08 is read by that major's rows. -/
theorem decodeRaw_08 {w : Nat} (h : w / 2 ^ 25 = 0x08) : decodeRaw w = decodeMajor08 w := by
  rw [decodeRaw, h]
  rfl

/-- A word of major value 0x09 is read by that major's rows. -/
theorem decodeRaw_09 {w : Nat} (h : w / 2 ^ 25 = 0x09) : decodeRaw w = decodeMajor09 w := by
  rw [decodeRaw, h]
  rfl

/-- A word of major value 0x0A is read by that major's rows. -/
theorem decodeRaw_0A {w : Nat} (h : w / 2 ^ 25 = 0x0A) : decodeRaw w = decodeMajor0A w := by
  rw [decodeRaw, h]
  rfl

/-- A word of major value 0x0B is read by that major's rows. -/
theorem decodeRaw_0B {w : Nat} (h : w / 2 ^ 25 = 0x0B) : decodeRaw w = decodeMajor0B w := by
  rw [decodeRaw, h]
  rfl

/-- A word of major value 0x0C is read by that major's rows. -/
theorem decodeRaw_0C {w : Nat} (h : w / 2 ^ 25 = 0x0C) : decodeRaw w = decodeMajor0C w := by
  rw [decodeRaw, h]
  rfl

/-- A word of major value 0x0D is read by that major's rows. -/
theorem decodeRaw_0D {w : Nat} (h : w / 2 ^ 25 = 0x0D) : decodeRaw w = decodeMajor0D w := by
  rw [decodeRaw, h]
  rfl

/-- A word of major value 0x0E is read by that major's rows. -/
theorem decodeRaw_0E {w : Nat} (h : w / 2 ^ 25 = 0x0E) : decodeRaw w = decodeMajor0E w := by
  rw [decodeRaw, h]
  rfl

/-- A word of major value 0x0F is read by that major's rows. -/
theorem decodeRaw_0F {w : Nat} (h : w / 2 ^ 25 = 0x0F) : decodeRaw w = decodeMajor0F w := by
  rw [decodeRaw, h]
  rfl

/-- A word of major value 0x10 is read by that major's rows. -/
theorem decodeRaw_10 {w : Nat} (h : w / 2 ^ 25 = 0x10) : decodeRaw w = decodeMajor10 w := by
  rw [decodeRaw, h]
  rfl

/-- A word of major value 0x11 is read by that major's rows. -/
theorem decodeRaw_11 {w : Nat} (h : w / 2 ^ 25 = 0x11) : decodeRaw w = decodeMajor11 w := by
  rw [decodeRaw, h]
  rfl

/-- A word of major value 0x12 is read by that major's rows. -/
theorem decodeRaw_12 {w : Nat} (h : w / 2 ^ 25 = 0x12) : decodeRaw w = decodeMajor12 w := by
  rw [decodeRaw, h]
  rfl

/-- A word of major value 0x13 is read by that major's rows. -/
theorem decodeRaw_13 {w : Nat} (h : w / 2 ^ 25 = 0x13) : decodeRaw w = decodeMajor13 w := by
  rw [decodeRaw, h]
  rfl

/-- A word of major value 0x14 is read by that major's rows. -/
theorem decodeRaw_14 {w : Nat} (h : w / 2 ^ 25 = 0x14) : decodeRaw w = decodeMajor14 w := by
  rw [decodeRaw, h]
  rfl

/-- A word of major value 0x15 is read by that major's rows. -/
theorem decodeRaw_15 {w : Nat} (h : w / 2 ^ 25 = 0x15) : decodeRaw w = decodeMajor15 w := by
  rw [decodeRaw, h]
  rfl

/-- A word of major value 0x16 is read by that major's rows. -/
theorem decodeRaw_16 {w : Nat} (h : w / 2 ^ 25 = 0x16) : decodeRaw w = decodeMajor16 w := by
  rw [decodeRaw, h]
  rfl

/-- A word of major value 0x17 is read by that major's rows. -/
theorem decodeRaw_17 {w : Nat} (h : w / 2 ^ 25 = 0x17) : decodeRaw w = decodeMajor17 w := by
  rw [decodeRaw, h]
  rfl

/-- A word of major value 0x18 is read by that major's rows. -/
theorem decodeRaw_18 {w : Nat} (h : w / 2 ^ 25 = 0x18) : decodeRaw w = decodeMajor18 w := by
  rw [decodeRaw, h]
  rfl

/-- A word of major value 0x19 is read by that major's rows. -/
theorem decodeRaw_19 {w : Nat} (h : w / 2 ^ 25 = 0x19) : decodeRaw w = decodeMajor19 w := by
  rw [decodeRaw, h]
  rfl

/-- A word of major value 0x20 is read by that major's rows. -/
theorem decodeRaw_20 {w : Nat} (h : w / 2 ^ 25 = 0x20) : decodeRaw w = decodeMajor20 w := by
  rw [decodeRaw, h]
  rfl

/-- A word of major value 0x21 is read by that major's rows. -/
theorem decodeRaw_21 {w : Nat} (h : w / 2 ^ 25 = 0x21) : decodeRaw w = decodeMajor21 w := by
  rw [decodeRaw, h]
  rfl

/-- A word of major value 0x22 is read by that major's rows. -/
theorem decodeRaw_22 {w : Nat} (h : w / 2 ^ 25 = 0x22) : decodeRaw w = decodeMajor22 w := by
  rw [decodeRaw, h]
  rfl

/-- A word of major value 0x23 is read by that major's rows. -/
theorem decodeRaw_23 {w : Nat} (h : w / 2 ^ 25 = 0x23) : decodeRaw w = decodeMajor23 w := by
  rw [decodeRaw, h]
  rfl

/-- A word of major value 0x24 is read by that major's rows. -/
theorem decodeRaw_24 {w : Nat} (h : w / 2 ^ 25 = 0x24) : decodeRaw w = decodeMajor24 w := by
  rw [decodeRaw, h]
  rfl

/-- A word of major value 0x25 is read by that major's rows. -/
theorem decodeRaw_25 {w : Nat} (h : w / 2 ^ 25 = 0x25) : decodeRaw w = decodeMajor25 w := by
  rw [decodeRaw, h]
  rfl

/-- A word of major value 0x26 is read by that major's rows. -/
theorem decodeRaw_26 {w : Nat} (h : w / 2 ^ 25 = 0x26) : decodeRaw w = decodeMajor26 w := by
  rw [decodeRaw, h]
  rfl

/-- A word of major value 0x27 is read by that major's rows. -/
theorem decodeRaw_27 {w : Nat} (h : w / 2 ^ 25 = 0x27) : decodeRaw w = decodeMajor27 w := by
  rw [decodeRaw, h]
  rfl

/-- A word of major value 0x28 is read by that major's rows. -/
theorem decodeRaw_28 {w : Nat} (h : w / 2 ^ 25 = 0x28) : decodeRaw w = decodeMajor28 w := by
  rw [decodeRaw, h]
  rfl

/-- A word of major value 0x29 is read by that major's rows. -/
theorem decodeRaw_29 {w : Nat} (h : w / 2 ^ 25 = 0x29) : decodeRaw w = decodeMajor29 w := by
  rw [decodeRaw, h]
  rfl

/-- A word of major value 0x2A is read by that major's rows. -/
theorem decodeRaw_2A {w : Nat} (h : w / 2 ^ 25 = 0x2A) : decodeRaw w = decodeMajor2A w := by
  rw [decodeRaw, h]
  rfl

/-- A word of major value 0x2B is read by that major's rows. -/
theorem decodeRaw_2B {w : Nat} (h : w / 2 ^ 25 = 0x2B) : decodeRaw w = decodeMajor2B w := by
  rw [decodeRaw, h]
  rfl

/-- A word of major value 0x30 is read by that major's rows. -/
theorem decodeRaw_30 {w : Nat} (h : w / 2 ^ 25 = 0x30) : decodeRaw w = decodeMajor30 w := by
  rw [decodeRaw, h]
  rfl

/-- A word of major value 0x31 is read by that major's rows. -/
theorem decodeRaw_31 {w : Nat} (h : w / 2 ^ 25 = 0x31) : decodeRaw w = decodeMajor31 w := by
  rw [decodeRaw, h]
  rfl

/-- A word of major value 0x32 is read by that major's rows. -/
theorem decodeRaw_32 {w : Nat} (h : w / 2 ^ 25 = 0x32) : decodeRaw w = decodeMajor32 w := by
  rw [decodeRaw, h]
  rfl

/-- A word of major value 0x40 is read by that major's rows. -/
theorem decodeRaw_40 {w : Nat} (h : w / 2 ^ 25 = 0x40) : decodeRaw w = decodeMajor40 w := by
  rw [decodeRaw, h]
  rfl

/-- A word of major value 0x41 is read by that major's rows. -/
theorem decodeRaw_41 {w : Nat} (h : w / 2 ^ 25 = 0x41) : decodeRaw w = decodeMajor41 w := by
  rw [decodeRaw, h]
  rfl

/-- A word of major value 0x42 is read by that major's rows. -/
theorem decodeRaw_42 {w : Nat} (h : w / 2 ^ 25 = 0x42) : decodeRaw w = decodeMajor42 w := by
  rw [decodeRaw, h]
  rfl

/-- A word of major value 0x43 is read by that major's rows. -/
theorem decodeRaw_43 {w : Nat} (h : w / 2 ^ 25 = 0x43) : decodeRaw w = decodeMajor43 w := by
  rw [decodeRaw, h]
  rfl

/-- A word of major value 0x44 is read by that major's rows. -/
theorem decodeRaw_44 {w : Nat} (h : w / 2 ^ 25 = 0x44) : decodeRaw w = decodeMajor44 w := by
  rw [decodeRaw, h]
  rfl

/-- A word of major value 0x45 is read by that major's rows. -/
theorem decodeRaw_45 {w : Nat} (h : w / 2 ^ 25 = 0x45) : decodeRaw w = decodeMajor45 w := by
  rw [decodeRaw, h]
  rfl

/-- A word of major value 0x46 is read by that major's rows. -/
theorem decodeRaw_46 {w : Nat} (h : w / 2 ^ 25 = 0x46) : decodeRaw w = decodeMajor46 w := by
  rw [decodeRaw, h]
  rfl

/-- A word of major value 0x47 is read by that major's rows. -/
theorem decodeRaw_47 {w : Nat} (h : w / 2 ^ 25 = 0x47) : decodeRaw w = decodeMajor47 w := by
  rw [decodeRaw, h]
  rfl

/-- A word of major value 0x48 is read by that major's rows. -/
theorem decodeRaw_48 {w : Nat} (h : w / 2 ^ 25 = 0x48) : decodeRaw w = decodeMajor48 w := by
  rw [decodeRaw, h]
  rfl

/-- A word of major value 0x49 is read by that major's rows. -/
theorem decodeRaw_49 {w : Nat} (h : w / 2 ^ 25 = 0x49) : decodeRaw w = decodeMajor49 w := by
  rw [decodeRaw, h]
  rfl

/-- A word of major value 0x4A is read by that major's rows. -/
theorem decodeRaw_4A {w : Nat} (h : w / 2 ^ 25 = 0x4A) : decodeRaw w = decodeMajor4A w := by
  rw [decodeRaw, h]
  rfl

/-- A word of major value 0x4B is read by that major's rows. -/
theorem decodeRaw_4B {w : Nat} (h : w / 2 ^ 25 = 0x4B) : decodeRaw w = decodeMajor4B w := by
  rw [decodeRaw, h]
  rfl

/-- A word of major value 0x50 is read by that major's rows. -/
theorem decodeRaw_50 {w : Nat} (h : w / 2 ^ 25 = 0x50) : decodeRaw w = decodeMajor50 w := by
  rw [decodeRaw, h]
  rfl

/-- A word of major value 0x51 is read by that major's rows. -/
theorem decodeRaw_51 {w : Nat} (h : w / 2 ^ 25 = 0x51) : decodeRaw w = decodeMajor51 w := by
  rw [decodeRaw, h]
  rfl

/-- A word of major value 0x52 is read by that major's rows. -/
theorem decodeRaw_52 {w : Nat} (h : w / 2 ^ 25 = 0x52) : decodeRaw w = decodeMajor52 w := by
  rw [decodeRaw, h]
  rfl

/-- A word of major value 0x58 is read by that major's rows. -/
theorem decodeRaw_58 {w : Nat} (h : w / 2 ^ 25 = 0x58) : decodeRaw w = decodeMajor58 w := by
  rw [decodeRaw, h]
  rfl

/-- A word of major value 0x59 is read by that major's rows. -/
theorem decodeRaw_59 {w : Nat} (h : w / 2 ^ 25 = 0x59) : decodeRaw w = decodeMajor59 w := by
  rw [decodeRaw, h]
  rfl

/-- A word of major value 0x5A is read by that major's rows. -/
theorem decodeRaw_5A {w : Nat} (h : w / 2 ^ 25 = 0x5A) : decodeRaw w = decodeMajor5A w := by
  rw [decodeRaw, h]
  rfl

/-- A word of major value 0x5B is read by that major's rows. -/
theorem decodeRaw_5B {w : Nat} (h : w / 2 ^ 25 = 0x5B) : decodeRaw w = decodeMajor5B w := by
  rw [decodeRaw, h]
  rfl

/-- A word of major value 0x60 is read by that major's rows. -/
theorem decodeRaw_60 {w : Nat} (h : w / 2 ^ 25 = 0x60) : decodeRaw w = decodeMajor60 w := by
  rw [decodeRaw, h]
  rfl

/-- A word of major value 0x61 is read by that major's rows. -/
theorem decodeRaw_61 {w : Nat} (h : w / 2 ^ 25 = 0x61) : decodeRaw w = decodeMajor61 w := by
  rw [decodeRaw, h]
  rfl

/-- A word of major value 0x62 is read by that major's rows. -/
theorem decodeRaw_62 {w : Nat} (h : w / 2 ^ 25 = 0x62) : decodeRaw w = decodeMajor62 w := by
  rw [decodeRaw, h]
  rfl

/-- A word of major value 0x63 is read by that major's rows. -/
theorem decodeRaw_63 {w : Nat} (h : w / 2 ^ 25 = 0x63) : decodeRaw w = decodeMajor63 w := by
  rw [decodeRaw, h]
  rfl

/-- A word of major value 0x64 is read by that major's rows. -/
theorem decodeRaw_64 {w : Nat} (h : w / 2 ^ 25 = 0x64) : decodeRaw w = decodeMajor64 w := by
  rw [decodeRaw, h]
  rfl

/-- A word of major value 0x65 is read by that major's rows. -/
theorem decodeRaw_65 {w : Nat} (h : w / 2 ^ 25 = 0x65) : decodeRaw w = decodeMajor65 w := by
  rw [decodeRaw, h]
  rfl

/-- A word of major value 0x66 is read by that major's rows. -/
theorem decodeRaw_66 {w : Nat} (h : w / 2 ^ 25 = 0x66) : decodeRaw w = decodeMajor66 w := by
  rw [decodeRaw, h]
  rfl

/-- A word of major value 0x7C is read by that major's rows. -/
theorem decodeRaw_7C {w : Nat} (h : w / 2 ^ 25 = 0x7C) : decodeRaw w = decodeMajor7C w := by
  rw [decodeRaw, h]
  rfl

/-- A word of major value 0x7D is read by that major's rows. -/
theorem decodeRaw_7D {w : Nat} (h : w / 2 ^ 25 = 0x7D) : decodeRaw w = decodeMajor7D w := by
  rw [decodeRaw, h]
  rfl

/-- A word of major value 0x7E is read by that major's rows. -/
theorem decodeRaw_7E {w : Nat} (h : w / 2 ^ 25 = 0x7E) : decodeRaw w = decodeMajor7E w := by
  rw [decodeRaw, h]
  rfl

/-- A word of major value 0x7F is read by that major's rows. -/
theorem decodeRaw_7F {w : Nat} (h : w / 2 ^ 25 = 0x7F) : decodeRaw w = decodeMajor7F w := by
  rw [decodeRaw, h]
  rfl

end Sys2Proof
end

