-- ==== Sys2Proof/Laws/State.lean ====
section
/-! SUPPORT. One lemma for each field of State under each named update: what the update leaves, and what it writes. All hold
by unfolding; with them no proof has to open a record update. -/

namespace Sys2Proof.Machine

/-! ## updPart -/

@[simp] theorem State.updPart_top (s : State) (n : Nat) (f : Part → Part) : (s.updPart n f).top = s.top := rfl
@[simp] theorem State.updPart_mem (s : State) (n : Nat) (f : Part → Part) : (s.updPart n f).mem = s.mem := rfl
@[simp] theorem State.updPart_parts (s : State) (n : Nat) (f : Part → Part) : (s.updPart n f).parts = s.parts.map fun p => if p.n == n then f p else p := rfl
@[simp] theorem State.updPart_vfs (s : State) (n : Nat) (f : Part → Part) : (s.updPart n f).vfs = s.vfs := rfl
@[simp] theorem State.updPart_ctxs (s : State) (n : Nat) (f : Part → Part) : (s.updPart n f).ctxs = s.ctxs := rfl
@[simp] theorem State.updPart_launches (s : State) (n : Nat) (f : Part → Part) : (s.updPart n f).launches = s.launches := rfl
@[simp] theorem State.updPart_groups (s : State) (n : Nat) (f : Part → Part) : (s.updPart n f).groups = s.groups := rfl
@[simp] theorem State.updPart_waves (s : State) (n : Nat) (f : Part → Part) : (s.updPart n f).waves = s.waves := rfl
@[simp] theorem State.updPart_l0 (s : State) (n : Nat) (f : Part → Part) : (s.updPart n f).l0 = s.l0 := rfl
@[simp] theorem State.updPart_tlb (s : State) (n : Nat) (f : Part → Part) : (s.updPart n f).tlb = s.tlb := rfl
@[simp] theorem State.updPart_l1 (s : State) (n : Nat) (f : Part → Part) : (s.updPart n f).l1 = s.l1 := rfl
@[simp] theorem State.updPart_regq (s : State) (n : Nat) (f : Part → Part) : (s.updPart n f).regq = s.regq := rfl
@[simp] theorem State.updPart_owners (s : State) (n : Nat) (f : Part → Part) : (s.updPart n f).owners = s.owners := rfl
@[simp] theorem State.updPart_dir (s : State) (n : Nat) (f : Part → Part) : (s.updPart n f).dir = s.dir := rfl
@[simp] theorem State.updPart_surrs (s : State) (n : Nat) (f : Part → Part) : (s.updPart n f).surrs = s.surrs := rfl
@[simp] theorem State.updPart_reqs (s : State) (n : Nat) (f : Part → Part) : (s.updPart n f).reqs = s.reqs := rfl
@[simp] theorem State.updPart_missq (s : State) (n : Nat) (f : Part → Part) : (s.updPart n f).missq = s.missq := rfl
@[simp] theorem State.updPart_faults (s : State) (n : Nat) (f : Part → Part) : (s.updPart n f).faults = s.faults := rfl
@[simp] theorem State.updPart_invals (s : State) (n : Nat) (f : Part → Part) : (s.updPart n f).invals = s.invals := rfl
@[simp] theorem State.updPart_ranges (s : State) (n : Nat) (f : Part → Part) : (s.updPart n f).ranges = s.ranges := rfl
@[simp] theorem State.updPart_tokens (s : State) (n : Nat) (f : Part → Part) : (s.updPart n f).tokens = s.tokens := rfl
@[simp] theorem State.updPart_mcast (s : State) (n : Nat) (f : Part → Part) : (s.updPart n f).mcast = s.mcast := rfl
@[simp] theorem State.updPart_chans (s : State) (n : Nat) (f : Part → Part) : (s.updPart n f).chans = s.chans := rfl
@[simp] theorem State.updPart_fwds (s : State) (n : Nat) (f : Part → Part) : (s.updPart n f).fwds = s.fwds := rfl
@[simp] theorem State.updPart_sends (s : State) (n : Nat) (f : Part → Part) : (s.updPart n f).sends = s.sends := rfl
@[simp] theorem State.updPart_borrow (s : State) (n : Nat) (f : Part → Part) : (s.updPart n f).borrow = s.borrow := rfl
@[simp] theorem State.updPart_lenders (s : State) (n : Nat) (f : Part → Part) : (s.updPart n f).lenders = s.lenders := rfl
@[simp] theorem State.updPart_vatUsed (s : State) (n : Nat) (f : Part → Part) : (s.updPart n f).vatUsed = s.vatUsed := rfl
@[simp] theorem State.updPart_recalls (s : State) (n : Nat) (f : Part → Part) : (s.updPart n f).recalls = s.recalls := rfl
@[simp] theorem State.updPart_svcDone (s : State) (n : Nat) (f : Part → Part) : (s.updPart n f).svcDone = s.svcDone := rfl
@[simp] theorem State.updPart_pressHad (s : State) (n : Nat) (f : Part → Part) : (s.updPart n f).pressHad = s.pressHad := rfl
@[simp] theorem State.updPart_peerWatches (s : State) (n : Nat) (f : Part → Part) : (s.updPart n f).peerWatches = s.peerWatches := rfl
@[simp] theorem State.updPart_fills (s : State) (n : Nat) (f : Part → Part) : (s.updPart n f).fills = s.fills := rfl
@[simp] theorem State.updPart_cmds (s : State) (n : Nat) (f : Part → Part) : (s.updPart n f).cmds = s.cmds := rfl
@[simp] theorem State.updPart_copyTurn (s : State) (n : Nat) (f : Part → Part) : (s.updPart n f).copyTurn = s.copyTurn := rfl
@[simp] theorem State.updPart_svc (s : State) (n : Nat) (f : Part → Part) : (s.updPart n f).svc = s.svc := rfl
@[simp] theorem State.updPart_svcTurn (s : State) (n : Nat) (f : Part → Part) : (s.updPart n f).svcTurn = s.svcTurn := rfl
@[simp] theorem State.updPart_secs (s : State) (n : Nat) (f : Part → Part) : (s.updPart n f).secs = s.secs := rfl
@[simp] theorem State.updPart_calls (s : State) (n : Nat) (f : Part → Part) : (s.updPart n f).calls = s.calls := rfl
@[simp] theorem State.updPart_streams (s : State) (n : Nat) (f : Part → Part) : (s.updPart n f).streams = s.streams := rfl
@[simp] theorem State.updPart_gangs (s : State) (n : Nat) (f : Part → Part) : (s.updPart n f).gangs = s.gangs := rfl
@[simp] theorem State.updPart_arrayTurn (s : State) (n : Nat) (f : Part → Part) : (s.updPart n f).arrayTurn = s.arrayTurn := rfl
@[simp] theorem State.updPart_rays (s : State) (n : Nat) (f : Part → Part) : (s.updPart n f).rays = s.rays := rfl
@[simp] theorem State.updPart_visits (s : State) (n : Nat) (f : Part → Part) : (s.updPart n f).visits = s.visits := rfl
@[simp] theorem State.updPart_rayTurn (s : State) (n : Nat) (f : Part → Part) : (s.updPart n f).rayTurn = s.rayTurn := rfl
@[simp] theorem State.updPart_samples (s : State) (n : Nat) (f : Part → Part) : (s.updPart n f).samples = s.samples := rfl
@[simp] theorem State.updPart_colls (s : State) (n : Nat) (f : Part → Part) : (s.updPart n f).colls = s.colls := rfl
@[simp] theorem State.updPart_staging (s : State) (n : Nat) (f : Part → Part) : (s.updPart n f).staging = s.staging := rfl
@[simp] theorem State.updPart_heads (s : State) (n : Nat) (f : Part → Part) : (s.updPart n f).heads = s.heads := rfl
@[simp] theorem State.updPart_cur (s : State) (n : Nat) (f : Part → Part) : (s.updPart n f).cur = s.cur := rfl
@[simp] theorem State.updPart_turns (s : State) (n : Nat) (f : Part → Part) : (s.updPart n f).turns = s.turns := rfl
@[simp] theorem State.updPart_agenda (s : State) (n : Nat) (f : Part → Part) : (s.updPart n f).agenda = s.agenda := rfl
@[simp] theorem State.updPart_ev (s : State) (n : Nat) (f : Part → Part) : (s.updPart n f).ev = s.ev := rfl
@[simp] theorem State.updPart_lastWave (s : State) (n : Nat) (f : Part → Part) : (s.updPart n f).lastWave = s.lastWave := rfl
@[simp] theorem State.updPart_out (s : State) (n : Nat) (f : Part → Part) : (s.updPart n f).out = s.out := rfl
@[simp] theorem State.updPart_seq (s : State) (n : Nat) (f : Part → Part) : (s.updPart n f).seq = s.seq := rfl
@[simp] theorem State.updPart_cycle (s : State) (n : Nat) (f : Part → Part) : (s.updPart n f).cycle = s.cycle := rfl
@[simp] theorem State.updPart_hostEpoch (s : State) (n : Nat) (f : Part → Part) : (s.updPart n f).hostEpoch = s.hostEpoch := rfl

/-! ## updCtx -/

@[simp] theorem State.updCtx_top (s : State) (c : Nat) (f : Ctx → Ctx) : (s.updCtx c f).top = s.top := rfl
@[simp] theorem State.updCtx_mem (s : State) (c : Nat) (f : Ctx → Ctx) : (s.updCtx c f).mem = s.mem := rfl
@[simp] theorem State.updCtx_parts (s : State) (c : Nat) (f : Ctx → Ctx) : (s.updCtx c f).parts = s.parts := rfl
@[simp] theorem State.updCtx_vfs (s : State) (c : Nat) (f : Ctx → Ctx) : (s.updCtx c f).vfs = s.vfs := rfl
@[simp] theorem State.updCtx_ctxs (s : State) (c : Nat) (f : Ctx → Ctx) : (s.updCtx c f).ctxs = s.ctxs.map fun x => if x.id == c then f x else x := rfl
@[simp] theorem State.updCtx_launches (s : State) (c : Nat) (f : Ctx → Ctx) : (s.updCtx c f).launches = s.launches := rfl
@[simp] theorem State.updCtx_groups (s : State) (c : Nat) (f : Ctx → Ctx) : (s.updCtx c f).groups = s.groups := rfl
@[simp] theorem State.updCtx_waves (s : State) (c : Nat) (f : Ctx → Ctx) : (s.updCtx c f).waves = s.waves := rfl
@[simp] theorem State.updCtx_l0 (s : State) (c : Nat) (f : Ctx → Ctx) : (s.updCtx c f).l0 = s.l0 := rfl
@[simp] theorem State.updCtx_tlb (s : State) (c : Nat) (f : Ctx → Ctx) : (s.updCtx c f).tlb = s.tlb := rfl
@[simp] theorem State.updCtx_l1 (s : State) (c : Nat) (f : Ctx → Ctx) : (s.updCtx c f).l1 = s.l1 := rfl
@[simp] theorem State.updCtx_regq (s : State) (c : Nat) (f : Ctx → Ctx) : (s.updCtx c f).regq = s.regq := rfl
@[simp] theorem State.updCtx_owners (s : State) (c : Nat) (f : Ctx → Ctx) : (s.updCtx c f).owners = s.owners := rfl
@[simp] theorem State.updCtx_dir (s : State) (c : Nat) (f : Ctx → Ctx) : (s.updCtx c f).dir = s.dir := rfl
@[simp] theorem State.updCtx_surrs (s : State) (c : Nat) (f : Ctx → Ctx) : (s.updCtx c f).surrs = s.surrs := rfl
@[simp] theorem State.updCtx_reqs (s : State) (c : Nat) (f : Ctx → Ctx) : (s.updCtx c f).reqs = s.reqs := rfl
@[simp] theorem State.updCtx_missq (s : State) (c : Nat) (f : Ctx → Ctx) : (s.updCtx c f).missq = s.missq := rfl
@[simp] theorem State.updCtx_faults (s : State) (c : Nat) (f : Ctx → Ctx) : (s.updCtx c f).faults = s.faults := rfl
@[simp] theorem State.updCtx_invals (s : State) (c : Nat) (f : Ctx → Ctx) : (s.updCtx c f).invals = s.invals := rfl
@[simp] theorem State.updCtx_ranges (s : State) (c : Nat) (f : Ctx → Ctx) : (s.updCtx c f).ranges = s.ranges := rfl
@[simp] theorem State.updCtx_tokens (s : State) (c : Nat) (f : Ctx → Ctx) : (s.updCtx c f).tokens = s.tokens := rfl
@[simp] theorem State.updCtx_mcast (s : State) (c : Nat) (f : Ctx → Ctx) : (s.updCtx c f).mcast = s.mcast := rfl
@[simp] theorem State.updCtx_chans (s : State) (c : Nat) (f : Ctx → Ctx) : (s.updCtx c f).chans = s.chans := rfl
@[simp] theorem State.updCtx_fwds (s : State) (c : Nat) (f : Ctx → Ctx) : (s.updCtx c f).fwds = s.fwds := rfl
@[simp] theorem State.updCtx_sends (s : State) (c : Nat) (f : Ctx → Ctx) : (s.updCtx c f).sends = s.sends := rfl
@[simp] theorem State.updCtx_borrow (s : State) (c : Nat) (f : Ctx → Ctx) : (s.updCtx c f).borrow = s.borrow := rfl
@[simp] theorem State.updCtx_lenders (s : State) (c : Nat) (f : Ctx → Ctx) : (s.updCtx c f).lenders = s.lenders := rfl
@[simp] theorem State.updCtx_vatUsed (s : State) (c : Nat) (f : Ctx → Ctx) : (s.updCtx c f).vatUsed = s.vatUsed := rfl
@[simp] theorem State.updCtx_recalls (s : State) (c : Nat) (f : Ctx → Ctx) : (s.updCtx c f).recalls = s.recalls := rfl
@[simp] theorem State.updCtx_svcDone (s : State) (c : Nat) (f : Ctx → Ctx) : (s.updCtx c f).svcDone = s.svcDone := rfl
@[simp] theorem State.updCtx_pressHad (s : State) (c : Nat) (f : Ctx → Ctx) : (s.updCtx c f).pressHad = s.pressHad := rfl
@[simp] theorem State.updCtx_peerWatches (s : State) (c : Nat) (f : Ctx → Ctx) : (s.updCtx c f).peerWatches = s.peerWatches := rfl
@[simp] theorem State.updCtx_fills (s : State) (c : Nat) (f : Ctx → Ctx) : (s.updCtx c f).fills = s.fills := rfl
@[simp] theorem State.updCtx_cmds (s : State) (c : Nat) (f : Ctx → Ctx) : (s.updCtx c f).cmds = s.cmds := rfl
@[simp] theorem State.updCtx_copyTurn (s : State) (c : Nat) (f : Ctx → Ctx) : (s.updCtx c f).copyTurn = s.copyTurn := rfl
@[simp] theorem State.updCtx_svc (s : State) (c : Nat) (f : Ctx → Ctx) : (s.updCtx c f).svc = s.svc := rfl
@[simp] theorem State.updCtx_svcTurn (s : State) (c : Nat) (f : Ctx → Ctx) : (s.updCtx c f).svcTurn = s.svcTurn := rfl
@[simp] theorem State.updCtx_secs (s : State) (c : Nat) (f : Ctx → Ctx) : (s.updCtx c f).secs = s.secs := rfl
@[simp] theorem State.updCtx_calls (s : State) (c : Nat) (f : Ctx → Ctx) : (s.updCtx c f).calls = s.calls := rfl
@[simp] theorem State.updCtx_streams (s : State) (c : Nat) (f : Ctx → Ctx) : (s.updCtx c f).streams = s.streams := rfl
@[simp] theorem State.updCtx_gangs (s : State) (c : Nat) (f : Ctx → Ctx) : (s.updCtx c f).gangs = s.gangs := rfl
@[simp] theorem State.updCtx_arrayTurn (s : State) (c : Nat) (f : Ctx → Ctx) : (s.updCtx c f).arrayTurn = s.arrayTurn := rfl
@[simp] theorem State.updCtx_rays (s : State) (c : Nat) (f : Ctx → Ctx) : (s.updCtx c f).rays = s.rays := rfl
@[simp] theorem State.updCtx_visits (s : State) (c : Nat) (f : Ctx → Ctx) : (s.updCtx c f).visits = s.visits := rfl
@[simp] theorem State.updCtx_rayTurn (s : State) (c : Nat) (f : Ctx → Ctx) : (s.updCtx c f).rayTurn = s.rayTurn := rfl
@[simp] theorem State.updCtx_samples (s : State) (c : Nat) (f : Ctx → Ctx) : (s.updCtx c f).samples = s.samples := rfl
@[simp] theorem State.updCtx_colls (s : State) (c : Nat) (f : Ctx → Ctx) : (s.updCtx c f).colls = s.colls := rfl
@[simp] theorem State.updCtx_staging (s : State) (c : Nat) (f : Ctx → Ctx) : (s.updCtx c f).staging = s.staging := rfl
@[simp] theorem State.updCtx_heads (s : State) (c : Nat) (f : Ctx → Ctx) : (s.updCtx c f).heads = s.heads := rfl
@[simp] theorem State.updCtx_cur (s : State) (c : Nat) (f : Ctx → Ctx) : (s.updCtx c f).cur = s.cur := rfl
@[simp] theorem State.updCtx_turns (s : State) (c : Nat) (f : Ctx → Ctx) : (s.updCtx c f).turns = s.turns := rfl
@[simp] theorem State.updCtx_agenda (s : State) (c : Nat) (f : Ctx → Ctx) : (s.updCtx c f).agenda = s.agenda := rfl
@[simp] theorem State.updCtx_ev (s : State) (c : Nat) (f : Ctx → Ctx) : (s.updCtx c f).ev = s.ev := rfl
@[simp] theorem State.updCtx_lastWave (s : State) (c : Nat) (f : Ctx → Ctx) : (s.updCtx c f).lastWave = s.lastWave := rfl
@[simp] theorem State.updCtx_out (s : State) (c : Nat) (f : Ctx → Ctx) : (s.updCtx c f).out = s.out := rfl
@[simp] theorem State.updCtx_seq (s : State) (c : Nat) (f : Ctx → Ctx) : (s.updCtx c f).seq = s.seq := rfl
@[simp] theorem State.updCtx_cycle (s : State) (c : Nat) (f : Ctx → Ctx) : (s.updCtx c f).cycle = s.cycle := rfl
@[simp] theorem State.updCtx_hostEpoch (s : State) (c : Nat) (f : Ctx → Ctx) : (s.updCtx c f).hostEpoch = s.hostEpoch := rfl

/-! ## updVf -/

@[simp] theorem State.updVf_top (s : State) (v : Nat) (f : Vf → Vf) : (s.updVf v f).top = s.top := rfl
@[simp] theorem State.updVf_mem (s : State) (v : Nat) (f : Vf → Vf) : (s.updVf v f).mem = s.mem := rfl
@[simp] theorem State.updVf_parts (s : State) (v : Nat) (f : Vf → Vf) : (s.updVf v f).parts = s.parts := rfl
@[simp] theorem State.updVf_vfs (s : State) (v : Nat) (f : Vf → Vf) : (s.updVf v f).vfs = s.vfs.map fun x => if x.n == v then f x else x := rfl
@[simp] theorem State.updVf_ctxs (s : State) (v : Nat) (f : Vf → Vf) : (s.updVf v f).ctxs = s.ctxs := rfl
@[simp] theorem State.updVf_launches (s : State) (v : Nat) (f : Vf → Vf) : (s.updVf v f).launches = s.launches := rfl
@[simp] theorem State.updVf_groups (s : State) (v : Nat) (f : Vf → Vf) : (s.updVf v f).groups = s.groups := rfl
@[simp] theorem State.updVf_waves (s : State) (v : Nat) (f : Vf → Vf) : (s.updVf v f).waves = s.waves := rfl
@[simp] theorem State.updVf_l0 (s : State) (v : Nat) (f : Vf → Vf) : (s.updVf v f).l0 = s.l0 := rfl
@[simp] theorem State.updVf_tlb (s : State) (v : Nat) (f : Vf → Vf) : (s.updVf v f).tlb = s.tlb := rfl
@[simp] theorem State.updVf_l1 (s : State) (v : Nat) (f : Vf → Vf) : (s.updVf v f).l1 = s.l1 := rfl
@[simp] theorem State.updVf_regq (s : State) (v : Nat) (f : Vf → Vf) : (s.updVf v f).regq = s.regq := rfl
@[simp] theorem State.updVf_owners (s : State) (v : Nat) (f : Vf → Vf) : (s.updVf v f).owners = s.owners := rfl
@[simp] theorem State.updVf_dir (s : State) (v : Nat) (f : Vf → Vf) : (s.updVf v f).dir = s.dir := rfl
@[simp] theorem State.updVf_surrs (s : State) (v : Nat) (f : Vf → Vf) : (s.updVf v f).surrs = s.surrs := rfl
@[simp] theorem State.updVf_reqs (s : State) (v : Nat) (f : Vf → Vf) : (s.updVf v f).reqs = s.reqs := rfl
@[simp] theorem State.updVf_missq (s : State) (v : Nat) (f : Vf → Vf) : (s.updVf v f).missq = s.missq := rfl
@[simp] theorem State.updVf_faults (s : State) (v : Nat) (f : Vf → Vf) : (s.updVf v f).faults = s.faults := rfl
@[simp] theorem State.updVf_invals (s : State) (v : Nat) (f : Vf → Vf) : (s.updVf v f).invals = s.invals := rfl
@[simp] theorem State.updVf_ranges (s : State) (v : Nat) (f : Vf → Vf) : (s.updVf v f).ranges = s.ranges := rfl
@[simp] theorem State.updVf_tokens (s : State) (v : Nat) (f : Vf → Vf) : (s.updVf v f).tokens = s.tokens := rfl
@[simp] theorem State.updVf_mcast (s : State) (v : Nat) (f : Vf → Vf) : (s.updVf v f).mcast = s.mcast := rfl
@[simp] theorem State.updVf_chans (s : State) (v : Nat) (f : Vf → Vf) : (s.updVf v f).chans = s.chans := rfl
@[simp] theorem State.updVf_fwds (s : State) (v : Nat) (f : Vf → Vf) : (s.updVf v f).fwds = s.fwds := rfl
@[simp] theorem State.updVf_sends (s : State) (v : Nat) (f : Vf → Vf) : (s.updVf v f).sends = s.sends := rfl
@[simp] theorem State.updVf_borrow (s : State) (v : Nat) (f : Vf → Vf) : (s.updVf v f).borrow = s.borrow := rfl
@[simp] theorem State.updVf_lenders (s : State) (v : Nat) (f : Vf → Vf) : (s.updVf v f).lenders = s.lenders := rfl
@[simp] theorem State.updVf_vatUsed (s : State) (v : Nat) (f : Vf → Vf) : (s.updVf v f).vatUsed = s.vatUsed := rfl
@[simp] theorem State.updVf_recalls (s : State) (v : Nat) (f : Vf → Vf) : (s.updVf v f).recalls = s.recalls := rfl
@[simp] theorem State.updVf_svcDone (s : State) (v : Nat) (f : Vf → Vf) : (s.updVf v f).svcDone = s.svcDone := rfl
@[simp] theorem State.updVf_pressHad (s : State) (v : Nat) (f : Vf → Vf) : (s.updVf v f).pressHad = s.pressHad := rfl
@[simp] theorem State.updVf_peerWatches (s : State) (v : Nat) (f : Vf → Vf) : (s.updVf v f).peerWatches = s.peerWatches := rfl
@[simp] theorem State.updVf_fills (s : State) (v : Nat) (f : Vf → Vf) : (s.updVf v f).fills = s.fills := rfl
@[simp] theorem State.updVf_cmds (s : State) (v : Nat) (f : Vf → Vf) : (s.updVf v f).cmds = s.cmds := rfl
@[simp] theorem State.updVf_copyTurn (s : State) (v : Nat) (f : Vf → Vf) : (s.updVf v f).copyTurn = s.copyTurn := rfl
@[simp] theorem State.updVf_svc (s : State) (v : Nat) (f : Vf → Vf) : (s.updVf v f).svc = s.svc := rfl
@[simp] theorem State.updVf_svcTurn (s : State) (v : Nat) (f : Vf → Vf) : (s.updVf v f).svcTurn = s.svcTurn := rfl
@[simp] theorem State.updVf_secs (s : State) (v : Nat) (f : Vf → Vf) : (s.updVf v f).secs = s.secs := rfl
@[simp] theorem State.updVf_calls (s : State) (v : Nat) (f : Vf → Vf) : (s.updVf v f).calls = s.calls := rfl
@[simp] theorem State.updVf_streams (s : State) (v : Nat) (f : Vf → Vf) : (s.updVf v f).streams = s.streams := rfl
@[simp] theorem State.updVf_gangs (s : State) (v : Nat) (f : Vf → Vf) : (s.updVf v f).gangs = s.gangs := rfl
@[simp] theorem State.updVf_arrayTurn (s : State) (v : Nat) (f : Vf → Vf) : (s.updVf v f).arrayTurn = s.arrayTurn := rfl
@[simp] theorem State.updVf_rays (s : State) (v : Nat) (f : Vf → Vf) : (s.updVf v f).rays = s.rays := rfl
@[simp] theorem State.updVf_visits (s : State) (v : Nat) (f : Vf → Vf) : (s.updVf v f).visits = s.visits := rfl
@[simp] theorem State.updVf_rayTurn (s : State) (v : Nat) (f : Vf → Vf) : (s.updVf v f).rayTurn = s.rayTurn := rfl
@[simp] theorem State.updVf_samples (s : State) (v : Nat) (f : Vf → Vf) : (s.updVf v f).samples = s.samples := rfl
@[simp] theorem State.updVf_colls (s : State) (v : Nat) (f : Vf → Vf) : (s.updVf v f).colls = s.colls := rfl
@[simp] theorem State.updVf_staging (s : State) (v : Nat) (f : Vf → Vf) : (s.updVf v f).staging = s.staging := rfl
@[simp] theorem State.updVf_heads (s : State) (v : Nat) (f : Vf → Vf) : (s.updVf v f).heads = s.heads := rfl
@[simp] theorem State.updVf_cur (s : State) (v : Nat) (f : Vf → Vf) : (s.updVf v f).cur = s.cur := rfl
@[simp] theorem State.updVf_turns (s : State) (v : Nat) (f : Vf → Vf) : (s.updVf v f).turns = s.turns := rfl
@[simp] theorem State.updVf_agenda (s : State) (v : Nat) (f : Vf → Vf) : (s.updVf v f).agenda = s.agenda := rfl
@[simp] theorem State.updVf_ev (s : State) (v : Nat) (f : Vf → Vf) : (s.updVf v f).ev = s.ev := rfl
@[simp] theorem State.updVf_lastWave (s : State) (v : Nat) (f : Vf → Vf) : (s.updVf v f).lastWave = s.lastWave := rfl
@[simp] theorem State.updVf_out (s : State) (v : Nat) (f : Vf → Vf) : (s.updVf v f).out = s.out := rfl
@[simp] theorem State.updVf_seq (s : State) (v : Nat) (f : Vf → Vf) : (s.updVf v f).seq = s.seq := rfl
@[simp] theorem State.updVf_cycle (s : State) (v : Nat) (f : Vf → Vf) : (s.updVf v f).cycle = s.cycle := rfl
@[simp] theorem State.updVf_hostEpoch (s : State) (v : Nat) (f : Vf → Vf) : (s.updVf v f).hostEpoch = s.hostEpoch := rfl

/-! ## updLaunch -/

@[simp] theorem State.updLaunch_top (s : State) (l : Nat) (f : Launch → Launch) : (s.updLaunch l f).top = s.top := rfl
@[simp] theorem State.updLaunch_mem (s : State) (l : Nat) (f : Launch → Launch) : (s.updLaunch l f).mem = s.mem := rfl
@[simp] theorem State.updLaunch_parts (s : State) (l : Nat) (f : Launch → Launch) : (s.updLaunch l f).parts = s.parts := rfl
@[simp] theorem State.updLaunch_vfs (s : State) (l : Nat) (f : Launch → Launch) : (s.updLaunch l f).vfs = s.vfs := rfl
@[simp] theorem State.updLaunch_ctxs (s : State) (l : Nat) (f : Launch → Launch) : (s.updLaunch l f).ctxs = s.ctxs := rfl
@[simp] theorem State.updLaunch_launches (s : State) (l : Nat) (f : Launch → Launch) : (s.updLaunch l f).launches = s.launches.map fun x => if x.id == l then f x else x := rfl
@[simp] theorem State.updLaunch_groups (s : State) (l : Nat) (f : Launch → Launch) : (s.updLaunch l f).groups = s.groups := rfl
@[simp] theorem State.updLaunch_waves (s : State) (l : Nat) (f : Launch → Launch) : (s.updLaunch l f).waves = s.waves := rfl
@[simp] theorem State.updLaunch_l0 (s : State) (l : Nat) (f : Launch → Launch) : (s.updLaunch l f).l0 = s.l0 := rfl
@[simp] theorem State.updLaunch_tlb (s : State) (l : Nat) (f : Launch → Launch) : (s.updLaunch l f).tlb = s.tlb := rfl
@[simp] theorem State.updLaunch_l1 (s : State) (l : Nat) (f : Launch → Launch) : (s.updLaunch l f).l1 = s.l1 := rfl
@[simp] theorem State.updLaunch_regq (s : State) (l : Nat) (f : Launch → Launch) : (s.updLaunch l f).regq = s.regq := rfl
@[simp] theorem State.updLaunch_owners (s : State) (l : Nat) (f : Launch → Launch) : (s.updLaunch l f).owners = s.owners := rfl
@[simp] theorem State.updLaunch_dir (s : State) (l : Nat) (f : Launch → Launch) : (s.updLaunch l f).dir = s.dir := rfl
@[simp] theorem State.updLaunch_surrs (s : State) (l : Nat) (f : Launch → Launch) : (s.updLaunch l f).surrs = s.surrs := rfl
@[simp] theorem State.updLaunch_reqs (s : State) (l : Nat) (f : Launch → Launch) : (s.updLaunch l f).reqs = s.reqs := rfl
@[simp] theorem State.updLaunch_missq (s : State) (l : Nat) (f : Launch → Launch) : (s.updLaunch l f).missq = s.missq := rfl
@[simp] theorem State.updLaunch_faults (s : State) (l : Nat) (f : Launch → Launch) : (s.updLaunch l f).faults = s.faults := rfl
@[simp] theorem State.updLaunch_invals (s : State) (l : Nat) (f : Launch → Launch) : (s.updLaunch l f).invals = s.invals := rfl
@[simp] theorem State.updLaunch_ranges (s : State) (l : Nat) (f : Launch → Launch) : (s.updLaunch l f).ranges = s.ranges := rfl
@[simp] theorem State.updLaunch_tokens (s : State) (l : Nat) (f : Launch → Launch) : (s.updLaunch l f).tokens = s.tokens := rfl
@[simp] theorem State.updLaunch_mcast (s : State) (l : Nat) (f : Launch → Launch) : (s.updLaunch l f).mcast = s.mcast := rfl
@[simp] theorem State.updLaunch_chans (s : State) (l : Nat) (f : Launch → Launch) : (s.updLaunch l f).chans = s.chans := rfl
@[simp] theorem State.updLaunch_fwds (s : State) (l : Nat) (f : Launch → Launch) : (s.updLaunch l f).fwds = s.fwds := rfl
@[simp] theorem State.updLaunch_sends (s : State) (l : Nat) (f : Launch → Launch) : (s.updLaunch l f).sends = s.sends := rfl
@[simp] theorem State.updLaunch_borrow (s : State) (l : Nat) (f : Launch → Launch) : (s.updLaunch l f).borrow = s.borrow := rfl
@[simp] theorem State.updLaunch_lenders (s : State) (l : Nat) (f : Launch → Launch) : (s.updLaunch l f).lenders = s.lenders := rfl
@[simp] theorem State.updLaunch_vatUsed (s : State) (l : Nat) (f : Launch → Launch) : (s.updLaunch l f).vatUsed = s.vatUsed := rfl
@[simp] theorem State.updLaunch_recalls (s : State) (l : Nat) (f : Launch → Launch) : (s.updLaunch l f).recalls = s.recalls := rfl
@[simp] theorem State.updLaunch_svcDone (s : State) (l : Nat) (f : Launch → Launch) : (s.updLaunch l f).svcDone = s.svcDone := rfl
@[simp] theorem State.updLaunch_pressHad (s : State) (l : Nat) (f : Launch → Launch) : (s.updLaunch l f).pressHad = s.pressHad := rfl
@[simp] theorem State.updLaunch_peerWatches (s : State) (l : Nat) (f : Launch → Launch) : (s.updLaunch l f).peerWatches = s.peerWatches := rfl
@[simp] theorem State.updLaunch_fills (s : State) (l : Nat) (f : Launch → Launch) : (s.updLaunch l f).fills = s.fills := rfl
@[simp] theorem State.updLaunch_cmds (s : State) (l : Nat) (f : Launch → Launch) : (s.updLaunch l f).cmds = s.cmds := rfl
@[simp] theorem State.updLaunch_copyTurn (s : State) (l : Nat) (f : Launch → Launch) : (s.updLaunch l f).copyTurn = s.copyTurn := rfl
@[simp] theorem State.updLaunch_svc (s : State) (l : Nat) (f : Launch → Launch) : (s.updLaunch l f).svc = s.svc := rfl
@[simp] theorem State.updLaunch_svcTurn (s : State) (l : Nat) (f : Launch → Launch) : (s.updLaunch l f).svcTurn = s.svcTurn := rfl
@[simp] theorem State.updLaunch_secs (s : State) (l : Nat) (f : Launch → Launch) : (s.updLaunch l f).secs = s.secs := rfl
@[simp] theorem State.updLaunch_calls (s : State) (l : Nat) (f : Launch → Launch) : (s.updLaunch l f).calls = s.calls := rfl
@[simp] theorem State.updLaunch_streams (s : State) (l : Nat) (f : Launch → Launch) : (s.updLaunch l f).streams = s.streams := rfl
@[simp] theorem State.updLaunch_gangs (s : State) (l : Nat) (f : Launch → Launch) : (s.updLaunch l f).gangs = s.gangs := rfl
@[simp] theorem State.updLaunch_arrayTurn (s : State) (l : Nat) (f : Launch → Launch) : (s.updLaunch l f).arrayTurn = s.arrayTurn := rfl
@[simp] theorem State.updLaunch_rays (s : State) (l : Nat) (f : Launch → Launch) : (s.updLaunch l f).rays = s.rays := rfl
@[simp] theorem State.updLaunch_visits (s : State) (l : Nat) (f : Launch → Launch) : (s.updLaunch l f).visits = s.visits := rfl
@[simp] theorem State.updLaunch_rayTurn (s : State) (l : Nat) (f : Launch → Launch) : (s.updLaunch l f).rayTurn = s.rayTurn := rfl
@[simp] theorem State.updLaunch_samples (s : State) (l : Nat) (f : Launch → Launch) : (s.updLaunch l f).samples = s.samples := rfl
@[simp] theorem State.updLaunch_colls (s : State) (l : Nat) (f : Launch → Launch) : (s.updLaunch l f).colls = s.colls := rfl
@[simp] theorem State.updLaunch_staging (s : State) (l : Nat) (f : Launch → Launch) : (s.updLaunch l f).staging = s.staging := rfl
@[simp] theorem State.updLaunch_heads (s : State) (l : Nat) (f : Launch → Launch) : (s.updLaunch l f).heads = s.heads := rfl
@[simp] theorem State.updLaunch_cur (s : State) (l : Nat) (f : Launch → Launch) : (s.updLaunch l f).cur = s.cur := rfl
@[simp] theorem State.updLaunch_turns (s : State) (l : Nat) (f : Launch → Launch) : (s.updLaunch l f).turns = s.turns := rfl
@[simp] theorem State.updLaunch_agenda (s : State) (l : Nat) (f : Launch → Launch) : (s.updLaunch l f).agenda = s.agenda := rfl
@[simp] theorem State.updLaunch_ev (s : State) (l : Nat) (f : Launch → Launch) : (s.updLaunch l f).ev = s.ev := rfl
@[simp] theorem State.updLaunch_lastWave (s : State) (l : Nat) (f : Launch → Launch) : (s.updLaunch l f).lastWave = s.lastWave := rfl
@[simp] theorem State.updLaunch_out (s : State) (l : Nat) (f : Launch → Launch) : (s.updLaunch l f).out = s.out := rfl
@[simp] theorem State.updLaunch_seq (s : State) (l : Nat) (f : Launch → Launch) : (s.updLaunch l f).seq = s.seq := rfl
@[simp] theorem State.updLaunch_cycle (s : State) (l : Nat) (f : Launch → Launch) : (s.updLaunch l f).cycle = s.cycle := rfl
@[simp] theorem State.updLaunch_hostEpoch (s : State) (l : Nat) (f : Launch → Launch) : (s.updLaunch l f).hostEpoch = s.hostEpoch := rfl

/-! ## updGroup -/

@[simp] theorem State.updGroup_top (s : State) (g : Nat) (f : Group → Group) : (s.updGroup g f).top = s.top := rfl
@[simp] theorem State.updGroup_mem (s : State) (g : Nat) (f : Group → Group) : (s.updGroup g f).mem = s.mem := rfl
@[simp] theorem State.updGroup_parts (s : State) (g : Nat) (f : Group → Group) : (s.updGroup g f).parts = s.parts := rfl
@[simp] theorem State.updGroup_vfs (s : State) (g : Nat) (f : Group → Group) : (s.updGroup g f).vfs = s.vfs := rfl
@[simp] theorem State.updGroup_ctxs (s : State) (g : Nat) (f : Group → Group) : (s.updGroup g f).ctxs = s.ctxs := rfl
@[simp] theorem State.updGroup_launches (s : State) (g : Nat) (f : Group → Group) : (s.updGroup g f).launches = s.launches := rfl
@[simp] theorem State.updGroup_groups (s : State) (g : Nat) (f : Group → Group) : (s.updGroup g f).groups = s.groups.map fun x => if x.g == g then f x else x := rfl
@[simp] theorem State.updGroup_waves (s : State) (g : Nat) (f : Group → Group) : (s.updGroup g f).waves = s.waves := rfl
@[simp] theorem State.updGroup_l0 (s : State) (g : Nat) (f : Group → Group) : (s.updGroup g f).l0 = s.l0 := rfl
@[simp] theorem State.updGroup_tlb (s : State) (g : Nat) (f : Group → Group) : (s.updGroup g f).tlb = s.tlb := rfl
@[simp] theorem State.updGroup_l1 (s : State) (g : Nat) (f : Group → Group) : (s.updGroup g f).l1 = s.l1 := rfl
@[simp] theorem State.updGroup_regq (s : State) (g : Nat) (f : Group → Group) : (s.updGroup g f).regq = s.regq := rfl
@[simp] theorem State.updGroup_owners (s : State) (g : Nat) (f : Group → Group) : (s.updGroup g f).owners = s.owners := rfl
@[simp] theorem State.updGroup_dir (s : State) (g : Nat) (f : Group → Group) : (s.updGroup g f).dir = s.dir := rfl
@[simp] theorem State.updGroup_surrs (s : State) (g : Nat) (f : Group → Group) : (s.updGroup g f).surrs = s.surrs := rfl
@[simp] theorem State.updGroup_reqs (s : State) (g : Nat) (f : Group → Group) : (s.updGroup g f).reqs = s.reqs := rfl
@[simp] theorem State.updGroup_missq (s : State) (g : Nat) (f : Group → Group) : (s.updGroup g f).missq = s.missq := rfl
@[simp] theorem State.updGroup_faults (s : State) (g : Nat) (f : Group → Group) : (s.updGroup g f).faults = s.faults := rfl
@[simp] theorem State.updGroup_invals (s : State) (g : Nat) (f : Group → Group) : (s.updGroup g f).invals = s.invals := rfl
@[simp] theorem State.updGroup_ranges (s : State) (g : Nat) (f : Group → Group) : (s.updGroup g f).ranges = s.ranges := rfl
@[simp] theorem State.updGroup_tokens (s : State) (g : Nat) (f : Group → Group) : (s.updGroup g f).tokens = s.tokens := rfl
@[simp] theorem State.updGroup_mcast (s : State) (g : Nat) (f : Group → Group) : (s.updGroup g f).mcast = s.mcast := rfl
@[simp] theorem State.updGroup_chans (s : State) (g : Nat) (f : Group → Group) : (s.updGroup g f).chans = s.chans := rfl
@[simp] theorem State.updGroup_fwds (s : State) (g : Nat) (f : Group → Group) : (s.updGroup g f).fwds = s.fwds := rfl
@[simp] theorem State.updGroup_sends (s : State) (g : Nat) (f : Group → Group) : (s.updGroup g f).sends = s.sends := rfl
@[simp] theorem State.updGroup_borrow (s : State) (g : Nat) (f : Group → Group) : (s.updGroup g f).borrow = s.borrow := rfl
@[simp] theorem State.updGroup_lenders (s : State) (g : Nat) (f : Group → Group) : (s.updGroup g f).lenders = s.lenders := rfl
@[simp] theorem State.updGroup_vatUsed (s : State) (g : Nat) (f : Group → Group) : (s.updGroup g f).vatUsed = s.vatUsed := rfl
@[simp] theorem State.updGroup_recalls (s : State) (g : Nat) (f : Group → Group) : (s.updGroup g f).recalls = s.recalls := rfl
@[simp] theorem State.updGroup_svcDone (s : State) (g : Nat) (f : Group → Group) : (s.updGroup g f).svcDone = s.svcDone := rfl
@[simp] theorem State.updGroup_pressHad (s : State) (g : Nat) (f : Group → Group) : (s.updGroup g f).pressHad = s.pressHad := rfl
@[simp] theorem State.updGroup_peerWatches (s : State) (g : Nat) (f : Group → Group) : (s.updGroup g f).peerWatches = s.peerWatches := rfl
@[simp] theorem State.updGroup_fills (s : State) (g : Nat) (f : Group → Group) : (s.updGroup g f).fills = s.fills := rfl
@[simp] theorem State.updGroup_cmds (s : State) (g : Nat) (f : Group → Group) : (s.updGroup g f).cmds = s.cmds := rfl
@[simp] theorem State.updGroup_copyTurn (s : State) (g : Nat) (f : Group → Group) : (s.updGroup g f).copyTurn = s.copyTurn := rfl
@[simp] theorem State.updGroup_svc (s : State) (g : Nat) (f : Group → Group) : (s.updGroup g f).svc = s.svc := rfl
@[simp] theorem State.updGroup_svcTurn (s : State) (g : Nat) (f : Group → Group) : (s.updGroup g f).svcTurn = s.svcTurn := rfl
@[simp] theorem State.updGroup_secs (s : State) (g : Nat) (f : Group → Group) : (s.updGroup g f).secs = s.secs := rfl
@[simp] theorem State.updGroup_calls (s : State) (g : Nat) (f : Group → Group) : (s.updGroup g f).calls = s.calls := rfl
@[simp] theorem State.updGroup_streams (s : State) (g : Nat) (f : Group → Group) : (s.updGroup g f).streams = s.streams := rfl
@[simp] theorem State.updGroup_gangs (s : State) (g : Nat) (f : Group → Group) : (s.updGroup g f).gangs = s.gangs := rfl
@[simp] theorem State.updGroup_arrayTurn (s : State) (g : Nat) (f : Group → Group) : (s.updGroup g f).arrayTurn = s.arrayTurn := rfl
@[simp] theorem State.updGroup_rays (s : State) (g : Nat) (f : Group → Group) : (s.updGroup g f).rays = s.rays := rfl
@[simp] theorem State.updGroup_visits (s : State) (g : Nat) (f : Group → Group) : (s.updGroup g f).visits = s.visits := rfl
@[simp] theorem State.updGroup_rayTurn (s : State) (g : Nat) (f : Group → Group) : (s.updGroup g f).rayTurn = s.rayTurn := rfl
@[simp] theorem State.updGroup_samples (s : State) (g : Nat) (f : Group → Group) : (s.updGroup g f).samples = s.samples := rfl
@[simp] theorem State.updGroup_colls (s : State) (g : Nat) (f : Group → Group) : (s.updGroup g f).colls = s.colls := rfl
@[simp] theorem State.updGroup_staging (s : State) (g : Nat) (f : Group → Group) : (s.updGroup g f).staging = s.staging := rfl
@[simp] theorem State.updGroup_heads (s : State) (g : Nat) (f : Group → Group) : (s.updGroup g f).heads = s.heads := rfl
@[simp] theorem State.updGroup_cur (s : State) (g : Nat) (f : Group → Group) : (s.updGroup g f).cur = s.cur := rfl
@[simp] theorem State.updGroup_turns (s : State) (g : Nat) (f : Group → Group) : (s.updGroup g f).turns = s.turns := rfl
@[simp] theorem State.updGroup_agenda (s : State) (g : Nat) (f : Group → Group) : (s.updGroup g f).agenda = s.agenda := rfl
@[simp] theorem State.updGroup_ev (s : State) (g : Nat) (f : Group → Group) : (s.updGroup g f).ev = s.ev := rfl
@[simp] theorem State.updGroup_lastWave (s : State) (g : Nat) (f : Group → Group) : (s.updGroup g f).lastWave = s.lastWave := rfl
@[simp] theorem State.updGroup_out (s : State) (g : Nat) (f : Group → Group) : (s.updGroup g f).out = s.out := rfl
@[simp] theorem State.updGroup_seq (s : State) (g : Nat) (f : Group → Group) : (s.updGroup g f).seq = s.seq := rfl
@[simp] theorem State.updGroup_cycle (s : State) (g : Nat) (f : Group → Group) : (s.updGroup g f).cycle = s.cycle := rfl
@[simp] theorem State.updGroup_hostEpoch (s : State) (g : Nat) (f : Group → Group) : (s.updGroup g f).hostEpoch = s.hostEpoch := rfl

/-! ## updWave -/

@[simp] theorem State.updWave_top (s : State) (g w : Nat) (f : Wave → Wave) : (s.updWave g w f).top = s.top := rfl
@[simp] theorem State.updWave_mem (s : State) (g w : Nat) (f : Wave → Wave) : (s.updWave g w f).mem = s.mem := rfl
@[simp] theorem State.updWave_parts (s : State) (g w : Nat) (f : Wave → Wave) : (s.updWave g w f).parts = s.parts := rfl
@[simp] theorem State.updWave_vfs (s : State) (g w : Nat) (f : Wave → Wave) : (s.updWave g w f).vfs = s.vfs := rfl
@[simp] theorem State.updWave_ctxs (s : State) (g w : Nat) (f : Wave → Wave) : (s.updWave g w f).ctxs = s.ctxs := rfl
@[simp] theorem State.updWave_launches (s : State) (g w : Nat) (f : Wave → Wave) : (s.updWave g w f).launches = s.launches := rfl
@[simp] theorem State.updWave_groups (s : State) (g w : Nat) (f : Wave → Wave) : (s.updWave g w f).groups = s.groups := rfl
@[simp] theorem State.updWave_waves (s : State) (g w : Nat) (f : Wave → Wave) : (s.updWave g w f).waves = s.waves.map fun x => if x.g == g && x.w == w then f x else x := rfl
@[simp] theorem State.updWave_l0 (s : State) (g w : Nat) (f : Wave → Wave) : (s.updWave g w f).l0 = s.l0 := rfl
@[simp] theorem State.updWave_tlb (s : State) (g w : Nat) (f : Wave → Wave) : (s.updWave g w f).tlb = s.tlb := rfl
@[simp] theorem State.updWave_l1 (s : State) (g w : Nat) (f : Wave → Wave) : (s.updWave g w f).l1 = s.l1 := rfl
@[simp] theorem State.updWave_regq (s : State) (g w : Nat) (f : Wave → Wave) : (s.updWave g w f).regq = s.regq := rfl
@[simp] theorem State.updWave_owners (s : State) (g w : Nat) (f : Wave → Wave) : (s.updWave g w f).owners = s.owners := rfl
@[simp] theorem State.updWave_dir (s : State) (g w : Nat) (f : Wave → Wave) : (s.updWave g w f).dir = s.dir := rfl
@[simp] theorem State.updWave_surrs (s : State) (g w : Nat) (f : Wave → Wave) : (s.updWave g w f).surrs = s.surrs := rfl
@[simp] theorem State.updWave_reqs (s : State) (g w : Nat) (f : Wave → Wave) : (s.updWave g w f).reqs = s.reqs := rfl
@[simp] theorem State.updWave_missq (s : State) (g w : Nat) (f : Wave → Wave) : (s.updWave g w f).missq = s.missq := rfl
@[simp] theorem State.updWave_faults (s : State) (g w : Nat) (f : Wave → Wave) : (s.updWave g w f).faults = s.faults := rfl
@[simp] theorem State.updWave_invals (s : State) (g w : Nat) (f : Wave → Wave) : (s.updWave g w f).invals = s.invals := rfl
@[simp] theorem State.updWave_ranges (s : State) (g w : Nat) (f : Wave → Wave) : (s.updWave g w f).ranges = s.ranges := rfl
@[simp] theorem State.updWave_tokens (s : State) (g w : Nat) (f : Wave → Wave) : (s.updWave g w f).tokens = s.tokens := rfl
@[simp] theorem State.updWave_mcast (s : State) (g w : Nat) (f : Wave → Wave) : (s.updWave g w f).mcast = s.mcast := rfl
@[simp] theorem State.updWave_chans (s : State) (g w : Nat) (f : Wave → Wave) : (s.updWave g w f).chans = s.chans := rfl
@[simp] theorem State.updWave_fwds (s : State) (g w : Nat) (f : Wave → Wave) : (s.updWave g w f).fwds = s.fwds := rfl
@[simp] theorem State.updWave_sends (s : State) (g w : Nat) (f : Wave → Wave) : (s.updWave g w f).sends = s.sends := rfl
@[simp] theorem State.updWave_borrow (s : State) (g w : Nat) (f : Wave → Wave) : (s.updWave g w f).borrow = s.borrow := rfl
@[simp] theorem State.updWave_lenders (s : State) (g w : Nat) (f : Wave → Wave) : (s.updWave g w f).lenders = s.lenders := rfl
@[simp] theorem State.updWave_vatUsed (s : State) (g w : Nat) (f : Wave → Wave) : (s.updWave g w f).vatUsed = s.vatUsed := rfl
@[simp] theorem State.updWave_recalls (s : State) (g w : Nat) (f : Wave → Wave) : (s.updWave g w f).recalls = s.recalls := rfl
@[simp] theorem State.updWave_svcDone (s : State) (g w : Nat) (f : Wave → Wave) : (s.updWave g w f).svcDone = s.svcDone := rfl
@[simp] theorem State.updWave_pressHad (s : State) (g w : Nat) (f : Wave → Wave) : (s.updWave g w f).pressHad = s.pressHad := rfl
@[simp] theorem State.updWave_peerWatches (s : State) (g w : Nat) (f : Wave → Wave) : (s.updWave g w f).peerWatches = s.peerWatches := rfl
@[simp] theorem State.updWave_fills (s : State) (g w : Nat) (f : Wave → Wave) : (s.updWave g w f).fills = s.fills := rfl
@[simp] theorem State.updWave_cmds (s : State) (g w : Nat) (f : Wave → Wave) : (s.updWave g w f).cmds = s.cmds := rfl
@[simp] theorem State.updWave_copyTurn (s : State) (g w : Nat) (f : Wave → Wave) : (s.updWave g w f).copyTurn = s.copyTurn := rfl
@[simp] theorem State.updWave_svc (s : State) (g w : Nat) (f : Wave → Wave) : (s.updWave g w f).svc = s.svc := rfl
@[simp] theorem State.updWave_svcTurn (s : State) (g w : Nat) (f : Wave → Wave) : (s.updWave g w f).svcTurn = s.svcTurn := rfl
@[simp] theorem State.updWave_secs (s : State) (g w : Nat) (f : Wave → Wave) : (s.updWave g w f).secs = s.secs := rfl
@[simp] theorem State.updWave_calls (s : State) (g w : Nat) (f : Wave → Wave) : (s.updWave g w f).calls = s.calls := rfl
@[simp] theorem State.updWave_streams (s : State) (g w : Nat) (f : Wave → Wave) : (s.updWave g w f).streams = s.streams := rfl
@[simp] theorem State.updWave_gangs (s : State) (g w : Nat) (f : Wave → Wave) : (s.updWave g w f).gangs = s.gangs := rfl
@[simp] theorem State.updWave_arrayTurn (s : State) (g w : Nat) (f : Wave → Wave) : (s.updWave g w f).arrayTurn = s.arrayTurn := rfl
@[simp] theorem State.updWave_rays (s : State) (g w : Nat) (f : Wave → Wave) : (s.updWave g w f).rays = s.rays := rfl
@[simp] theorem State.updWave_visits (s : State) (g w : Nat) (f : Wave → Wave) : (s.updWave g w f).visits = s.visits := rfl
@[simp] theorem State.updWave_rayTurn (s : State) (g w : Nat) (f : Wave → Wave) : (s.updWave g w f).rayTurn = s.rayTurn := rfl
@[simp] theorem State.updWave_samples (s : State) (g w : Nat) (f : Wave → Wave) : (s.updWave g w f).samples = s.samples := rfl
@[simp] theorem State.updWave_colls (s : State) (g w : Nat) (f : Wave → Wave) : (s.updWave g w f).colls = s.colls := rfl
@[simp] theorem State.updWave_staging (s : State) (g w : Nat) (f : Wave → Wave) : (s.updWave g w f).staging = s.staging := rfl
@[simp] theorem State.updWave_heads (s : State) (g w : Nat) (f : Wave → Wave) : (s.updWave g w f).heads = s.heads := rfl
@[simp] theorem State.updWave_cur (s : State) (g w : Nat) (f : Wave → Wave) : (s.updWave g w f).cur = s.cur := rfl
@[simp] theorem State.updWave_turns (s : State) (g w : Nat) (f : Wave → Wave) : (s.updWave g w f).turns = s.turns := rfl
@[simp] theorem State.updWave_agenda (s : State) (g w : Nat) (f : Wave → Wave) : (s.updWave g w f).agenda = s.agenda := rfl
@[simp] theorem State.updWave_ev (s : State) (g w : Nat) (f : Wave → Wave) : (s.updWave g w f).ev = s.ev := rfl
@[simp] theorem State.updWave_lastWave (s : State) (g w : Nat) (f : Wave → Wave) : (s.updWave g w f).lastWave = s.lastWave := rfl
@[simp] theorem State.updWave_out (s : State) (g w : Nat) (f : Wave → Wave) : (s.updWave g w f).out = s.out := rfl
@[simp] theorem State.updWave_seq (s : State) (g w : Nat) (f : Wave → Wave) : (s.updWave g w f).seq = s.seq := rfl
@[simp] theorem State.updWave_cycle (s : State) (g w : Nat) (f : Wave → Wave) : (s.updWave g w f).cycle = s.cycle := rfl
@[simp] theorem State.updWave_hostEpoch (s : State) (g w : Nat) (f : Wave → Wave) : (s.updWave g w f).hostEpoch = s.hostEpoch := rfl

/-! ## updCur -/

@[simp] theorem State.updCur_top (s : State) (i : Iss) (f : Wave → Wave) : (s.updCur i f).top = s.top := rfl
@[simp] theorem State.updCur_mem (s : State) (i : Iss) (f : Wave → Wave) : (s.updCur i f).mem = s.mem := rfl
@[simp] theorem State.updCur_parts (s : State) (i : Iss) (f : Wave → Wave) : (s.updCur i f).parts = s.parts := rfl
@[simp] theorem State.updCur_vfs (s : State) (i : Iss) (f : Wave → Wave) : (s.updCur i f).vfs = s.vfs := rfl
@[simp] theorem State.updCur_ctxs (s : State) (i : Iss) (f : Wave → Wave) : (s.updCur i f).ctxs = s.ctxs := rfl
@[simp] theorem State.updCur_launches (s : State) (i : Iss) (f : Wave → Wave) : (s.updCur i f).launches = s.launches := rfl
@[simp] theorem State.updCur_groups (s : State) (i : Iss) (f : Wave → Wave) : (s.updCur i f).groups = s.groups := rfl
@[simp] theorem State.updCur_waves (s : State) (i : Iss) (f : Wave → Wave) : (s.updCur i f).waves = s.waves.map fun x => if x.g == i.c.g && x.w == i.c.w then f x else x := rfl
@[simp] theorem State.updCur_l0 (s : State) (i : Iss) (f : Wave → Wave) : (s.updCur i f).l0 = s.l0 := rfl
@[simp] theorem State.updCur_tlb (s : State) (i : Iss) (f : Wave → Wave) : (s.updCur i f).tlb = s.tlb := rfl
@[simp] theorem State.updCur_l1 (s : State) (i : Iss) (f : Wave → Wave) : (s.updCur i f).l1 = s.l1 := rfl
@[simp] theorem State.updCur_regq (s : State) (i : Iss) (f : Wave → Wave) : (s.updCur i f).regq = s.regq := rfl
@[simp] theorem State.updCur_owners (s : State) (i : Iss) (f : Wave → Wave) : (s.updCur i f).owners = s.owners := rfl
@[simp] theorem State.updCur_dir (s : State) (i : Iss) (f : Wave → Wave) : (s.updCur i f).dir = s.dir := rfl
@[simp] theorem State.updCur_surrs (s : State) (i : Iss) (f : Wave → Wave) : (s.updCur i f).surrs = s.surrs := rfl
@[simp] theorem State.updCur_reqs (s : State) (i : Iss) (f : Wave → Wave) : (s.updCur i f).reqs = s.reqs := rfl
@[simp] theorem State.updCur_missq (s : State) (i : Iss) (f : Wave → Wave) : (s.updCur i f).missq = s.missq := rfl
@[simp] theorem State.updCur_faults (s : State) (i : Iss) (f : Wave → Wave) : (s.updCur i f).faults = s.faults := rfl
@[simp] theorem State.updCur_invals (s : State) (i : Iss) (f : Wave → Wave) : (s.updCur i f).invals = s.invals := rfl
@[simp] theorem State.updCur_ranges (s : State) (i : Iss) (f : Wave → Wave) : (s.updCur i f).ranges = s.ranges := rfl
@[simp] theorem State.updCur_tokens (s : State) (i : Iss) (f : Wave → Wave) : (s.updCur i f).tokens = s.tokens := rfl
@[simp] theorem State.updCur_mcast (s : State) (i : Iss) (f : Wave → Wave) : (s.updCur i f).mcast = s.mcast := rfl
@[simp] theorem State.updCur_chans (s : State) (i : Iss) (f : Wave → Wave) : (s.updCur i f).chans = s.chans := rfl
@[simp] theorem State.updCur_fwds (s : State) (i : Iss) (f : Wave → Wave) : (s.updCur i f).fwds = s.fwds := rfl
@[simp] theorem State.updCur_sends (s : State) (i : Iss) (f : Wave → Wave) : (s.updCur i f).sends = s.sends := rfl
@[simp] theorem State.updCur_borrow (s : State) (i : Iss) (f : Wave → Wave) : (s.updCur i f).borrow = s.borrow := rfl
@[simp] theorem State.updCur_lenders (s : State) (i : Iss) (f : Wave → Wave) : (s.updCur i f).lenders = s.lenders := rfl
@[simp] theorem State.updCur_vatUsed (s : State) (i : Iss) (f : Wave → Wave) : (s.updCur i f).vatUsed = s.vatUsed := rfl
@[simp] theorem State.updCur_recalls (s : State) (i : Iss) (f : Wave → Wave) : (s.updCur i f).recalls = s.recalls := rfl
@[simp] theorem State.updCur_svcDone (s : State) (i : Iss) (f : Wave → Wave) : (s.updCur i f).svcDone = s.svcDone := rfl
@[simp] theorem State.updCur_pressHad (s : State) (i : Iss) (f : Wave → Wave) : (s.updCur i f).pressHad = s.pressHad := rfl
@[simp] theorem State.updCur_peerWatches (s : State) (i : Iss) (f : Wave → Wave) : (s.updCur i f).peerWatches = s.peerWatches := rfl
@[simp] theorem State.updCur_fills (s : State) (i : Iss) (f : Wave → Wave) : (s.updCur i f).fills = s.fills := rfl
@[simp] theorem State.updCur_cmds (s : State) (i : Iss) (f : Wave → Wave) : (s.updCur i f).cmds = s.cmds := rfl
@[simp] theorem State.updCur_copyTurn (s : State) (i : Iss) (f : Wave → Wave) : (s.updCur i f).copyTurn = s.copyTurn := rfl
@[simp] theorem State.updCur_svc (s : State) (i : Iss) (f : Wave → Wave) : (s.updCur i f).svc = s.svc := rfl
@[simp] theorem State.updCur_svcTurn (s : State) (i : Iss) (f : Wave → Wave) : (s.updCur i f).svcTurn = s.svcTurn := rfl
@[simp] theorem State.updCur_secs (s : State) (i : Iss) (f : Wave → Wave) : (s.updCur i f).secs = s.secs := rfl
@[simp] theorem State.updCur_calls (s : State) (i : Iss) (f : Wave → Wave) : (s.updCur i f).calls = s.calls := rfl
@[simp] theorem State.updCur_streams (s : State) (i : Iss) (f : Wave → Wave) : (s.updCur i f).streams = s.streams := rfl
@[simp] theorem State.updCur_gangs (s : State) (i : Iss) (f : Wave → Wave) : (s.updCur i f).gangs = s.gangs := rfl
@[simp] theorem State.updCur_arrayTurn (s : State) (i : Iss) (f : Wave → Wave) : (s.updCur i f).arrayTurn = s.arrayTurn := rfl
@[simp] theorem State.updCur_rays (s : State) (i : Iss) (f : Wave → Wave) : (s.updCur i f).rays = s.rays := rfl
@[simp] theorem State.updCur_visits (s : State) (i : Iss) (f : Wave → Wave) : (s.updCur i f).visits = s.visits := rfl
@[simp] theorem State.updCur_rayTurn (s : State) (i : Iss) (f : Wave → Wave) : (s.updCur i f).rayTurn = s.rayTurn := rfl
@[simp] theorem State.updCur_samples (s : State) (i : Iss) (f : Wave → Wave) : (s.updCur i f).samples = s.samples := rfl
@[simp] theorem State.updCur_colls (s : State) (i : Iss) (f : Wave → Wave) : (s.updCur i f).colls = s.colls := rfl
@[simp] theorem State.updCur_staging (s : State) (i : Iss) (f : Wave → Wave) : (s.updCur i f).staging = s.staging := rfl
@[simp] theorem State.updCur_heads (s : State) (i : Iss) (f : Wave → Wave) : (s.updCur i f).heads = s.heads := rfl
@[simp] theorem State.updCur_cur (s : State) (i : Iss) (f : Wave → Wave) : (s.updCur i f).cur = s.cur := rfl
@[simp] theorem State.updCur_turns (s : State) (i : Iss) (f : Wave → Wave) : (s.updCur i f).turns = s.turns := rfl
@[simp] theorem State.updCur_agenda (s : State) (i : Iss) (f : Wave → Wave) : (s.updCur i f).agenda = s.agenda := rfl
@[simp] theorem State.updCur_ev (s : State) (i : Iss) (f : Wave → Wave) : (s.updCur i f).ev = s.ev := rfl
@[simp] theorem State.updCur_lastWave (s : State) (i : Iss) (f : Wave → Wave) : (s.updCur i f).lastWave = s.lastWave := rfl
@[simp] theorem State.updCur_out (s : State) (i : Iss) (f : Wave → Wave) : (s.updCur i f).out = s.out := rfl
@[simp] theorem State.updCur_seq (s : State) (i : Iss) (f : Wave → Wave) : (s.updCur i f).seq = s.seq := rfl
@[simp] theorem State.updCur_cycle (s : State) (i : Iss) (f : Wave → Wave) : (s.updCur i f).cycle = s.cycle := rfl
@[simp] theorem State.updCur_hostEpoch (s : State) (i : Iss) (f : Wave → Wave) : (s.updCur i f).hostEpoch = s.hostEpoch := rfl

/-! ## updCmd -/

@[simp] theorem State.updCmd_top (s : State) (id : Nat) (f : Cmd → Cmd) : (s.updCmd id f).top = s.top := rfl
@[simp] theorem State.updCmd_mem (s : State) (id : Nat) (f : Cmd → Cmd) : (s.updCmd id f).mem = s.mem := rfl
@[simp] theorem State.updCmd_parts (s : State) (id : Nat) (f : Cmd → Cmd) : (s.updCmd id f).parts = s.parts := rfl
@[simp] theorem State.updCmd_vfs (s : State) (id : Nat) (f : Cmd → Cmd) : (s.updCmd id f).vfs = s.vfs := rfl
@[simp] theorem State.updCmd_ctxs (s : State) (id : Nat) (f : Cmd → Cmd) : (s.updCmd id f).ctxs = s.ctxs := rfl
@[simp] theorem State.updCmd_launches (s : State) (id : Nat) (f : Cmd → Cmd) : (s.updCmd id f).launches = s.launches := rfl
@[simp] theorem State.updCmd_groups (s : State) (id : Nat) (f : Cmd → Cmd) : (s.updCmd id f).groups = s.groups := rfl
@[simp] theorem State.updCmd_waves (s : State) (id : Nat) (f : Cmd → Cmd) : (s.updCmd id f).waves = s.waves := rfl
@[simp] theorem State.updCmd_l0 (s : State) (id : Nat) (f : Cmd → Cmd) : (s.updCmd id f).l0 = s.l0 := rfl
@[simp] theorem State.updCmd_tlb (s : State) (id : Nat) (f : Cmd → Cmd) : (s.updCmd id f).tlb = s.tlb := rfl
@[simp] theorem State.updCmd_l1 (s : State) (id : Nat) (f : Cmd → Cmd) : (s.updCmd id f).l1 = s.l1 := rfl
@[simp] theorem State.updCmd_regq (s : State) (id : Nat) (f : Cmd → Cmd) : (s.updCmd id f).regq = s.regq := rfl
@[simp] theorem State.updCmd_owners (s : State) (id : Nat) (f : Cmd → Cmd) : (s.updCmd id f).owners = s.owners := rfl
@[simp] theorem State.updCmd_dir (s : State) (id : Nat) (f : Cmd → Cmd) : (s.updCmd id f).dir = s.dir := rfl
@[simp] theorem State.updCmd_surrs (s : State) (id : Nat) (f : Cmd → Cmd) : (s.updCmd id f).surrs = s.surrs := rfl
@[simp] theorem State.updCmd_reqs (s : State) (id : Nat) (f : Cmd → Cmd) : (s.updCmd id f).reqs = s.reqs := rfl
@[simp] theorem State.updCmd_missq (s : State) (id : Nat) (f : Cmd → Cmd) : (s.updCmd id f).missq = s.missq := rfl
@[simp] theorem State.updCmd_faults (s : State) (id : Nat) (f : Cmd → Cmd) : (s.updCmd id f).faults = s.faults := rfl
@[simp] theorem State.updCmd_invals (s : State) (id : Nat) (f : Cmd → Cmd) : (s.updCmd id f).invals = s.invals := rfl
@[simp] theorem State.updCmd_ranges (s : State) (id : Nat) (f : Cmd → Cmd) : (s.updCmd id f).ranges = s.ranges := rfl
@[simp] theorem State.updCmd_tokens (s : State) (id : Nat) (f : Cmd → Cmd) : (s.updCmd id f).tokens = s.tokens := rfl
@[simp] theorem State.updCmd_mcast (s : State) (id : Nat) (f : Cmd → Cmd) : (s.updCmd id f).mcast = s.mcast := rfl
@[simp] theorem State.updCmd_chans (s : State) (id : Nat) (f : Cmd → Cmd) : (s.updCmd id f).chans = s.chans := rfl
@[simp] theorem State.updCmd_fwds (s : State) (id : Nat) (f : Cmd → Cmd) : (s.updCmd id f).fwds = s.fwds := rfl
@[simp] theorem State.updCmd_sends (s : State) (id : Nat) (f : Cmd → Cmd) : (s.updCmd id f).sends = s.sends := rfl
@[simp] theorem State.updCmd_borrow (s : State) (id : Nat) (f : Cmd → Cmd) : (s.updCmd id f).borrow = s.borrow := rfl
@[simp] theorem State.updCmd_lenders (s : State) (id : Nat) (f : Cmd → Cmd) : (s.updCmd id f).lenders = s.lenders := rfl
@[simp] theorem State.updCmd_vatUsed (s : State) (id : Nat) (f : Cmd → Cmd) : (s.updCmd id f).vatUsed = s.vatUsed := rfl
@[simp] theorem State.updCmd_recalls (s : State) (id : Nat) (f : Cmd → Cmd) : (s.updCmd id f).recalls = s.recalls := rfl
@[simp] theorem State.updCmd_svcDone (s : State) (id : Nat) (f : Cmd → Cmd) : (s.updCmd id f).svcDone = s.svcDone := rfl
@[simp] theorem State.updCmd_pressHad (s : State) (id : Nat) (f : Cmd → Cmd) : (s.updCmd id f).pressHad = s.pressHad := rfl
@[simp] theorem State.updCmd_peerWatches (s : State) (id : Nat) (f : Cmd → Cmd) : (s.updCmd id f).peerWatches = s.peerWatches := rfl
@[simp] theorem State.updCmd_fills (s : State) (id : Nat) (f : Cmd → Cmd) : (s.updCmd id f).fills = s.fills := rfl
@[simp] theorem State.updCmd_cmds (s : State) (id : Nat) (f : Cmd → Cmd) : (s.updCmd id f).cmds = s.cmds.map fun c => if c.id == id then f c else c := rfl
@[simp] theorem State.updCmd_copyTurn (s : State) (id : Nat) (f : Cmd → Cmd) : (s.updCmd id f).copyTurn = s.copyTurn := rfl
@[simp] theorem State.updCmd_svc (s : State) (id : Nat) (f : Cmd → Cmd) : (s.updCmd id f).svc = s.svc := rfl
@[simp] theorem State.updCmd_svcTurn (s : State) (id : Nat) (f : Cmd → Cmd) : (s.updCmd id f).svcTurn = s.svcTurn := rfl
@[simp] theorem State.updCmd_secs (s : State) (id : Nat) (f : Cmd → Cmd) : (s.updCmd id f).secs = s.secs := rfl
@[simp] theorem State.updCmd_calls (s : State) (id : Nat) (f : Cmd → Cmd) : (s.updCmd id f).calls = s.calls := rfl
@[simp] theorem State.updCmd_streams (s : State) (id : Nat) (f : Cmd → Cmd) : (s.updCmd id f).streams = s.streams := rfl
@[simp] theorem State.updCmd_gangs (s : State) (id : Nat) (f : Cmd → Cmd) : (s.updCmd id f).gangs = s.gangs := rfl
@[simp] theorem State.updCmd_arrayTurn (s : State) (id : Nat) (f : Cmd → Cmd) : (s.updCmd id f).arrayTurn = s.arrayTurn := rfl
@[simp] theorem State.updCmd_rays (s : State) (id : Nat) (f : Cmd → Cmd) : (s.updCmd id f).rays = s.rays := rfl
@[simp] theorem State.updCmd_visits (s : State) (id : Nat) (f : Cmd → Cmd) : (s.updCmd id f).visits = s.visits := rfl
@[simp] theorem State.updCmd_rayTurn (s : State) (id : Nat) (f : Cmd → Cmd) : (s.updCmd id f).rayTurn = s.rayTurn := rfl
@[simp] theorem State.updCmd_samples (s : State) (id : Nat) (f : Cmd → Cmd) : (s.updCmd id f).samples = s.samples := rfl
@[simp] theorem State.updCmd_colls (s : State) (id : Nat) (f : Cmd → Cmd) : (s.updCmd id f).colls = s.colls := rfl
@[simp] theorem State.updCmd_staging (s : State) (id : Nat) (f : Cmd → Cmd) : (s.updCmd id f).staging = s.staging := rfl
@[simp] theorem State.updCmd_heads (s : State) (id : Nat) (f : Cmd → Cmd) : (s.updCmd id f).heads = s.heads := rfl
@[simp] theorem State.updCmd_cur (s : State) (id : Nat) (f : Cmd → Cmd) : (s.updCmd id f).cur = s.cur := rfl
@[simp] theorem State.updCmd_turns (s : State) (id : Nat) (f : Cmd → Cmd) : (s.updCmd id f).turns = s.turns := rfl
@[simp] theorem State.updCmd_agenda (s : State) (id : Nat) (f : Cmd → Cmd) : (s.updCmd id f).agenda = s.agenda := rfl
@[simp] theorem State.updCmd_ev (s : State) (id : Nat) (f : Cmd → Cmd) : (s.updCmd id f).ev = s.ev := rfl
@[simp] theorem State.updCmd_lastWave (s : State) (id : Nat) (f : Cmd → Cmd) : (s.updCmd id f).lastWave = s.lastWave := rfl
@[simp] theorem State.updCmd_out (s : State) (id : Nat) (f : Cmd → Cmd) : (s.updCmd id f).out = s.out := rfl
@[simp] theorem State.updCmd_seq (s : State) (id : Nat) (f : Cmd → Cmd) : (s.updCmd id f).seq = s.seq := rfl
@[simp] theorem State.updCmd_cycle (s : State) (id : Nat) (f : Cmd → Cmd) : (s.updCmd id f).cycle = s.cycle := rfl
@[simp] theorem State.updCmd_hostEpoch (s : State) (id : Nat) (f : Cmd → Cmd) : (s.updCmd id f).hostEpoch = s.hostEpoch := rfl

/-! ## updReq -/

@[simp] theorem State.updReq_top (s : State) (id : Nat) (f : Req → Req) : (s.updReq id f).top = s.top := rfl
@[simp] theorem State.updReq_mem (s : State) (id : Nat) (f : Req → Req) : (s.updReq id f).mem = s.mem := rfl
@[simp] theorem State.updReq_parts (s : State) (id : Nat) (f : Req → Req) : (s.updReq id f).parts = s.parts := rfl
@[simp] theorem State.updReq_vfs (s : State) (id : Nat) (f : Req → Req) : (s.updReq id f).vfs = s.vfs := rfl
@[simp] theorem State.updReq_ctxs (s : State) (id : Nat) (f : Req → Req) : (s.updReq id f).ctxs = s.ctxs := rfl
@[simp] theorem State.updReq_launches (s : State) (id : Nat) (f : Req → Req) : (s.updReq id f).launches = s.launches := rfl
@[simp] theorem State.updReq_groups (s : State) (id : Nat) (f : Req → Req) : (s.updReq id f).groups = s.groups := rfl
@[simp] theorem State.updReq_waves (s : State) (id : Nat) (f : Req → Req) : (s.updReq id f).waves = s.waves := rfl
@[simp] theorem State.updReq_l0 (s : State) (id : Nat) (f : Req → Req) : (s.updReq id f).l0 = s.l0 := rfl
@[simp] theorem State.updReq_tlb (s : State) (id : Nat) (f : Req → Req) : (s.updReq id f).tlb = s.tlb := rfl
@[simp] theorem State.updReq_l1 (s : State) (id : Nat) (f : Req → Req) : (s.updReq id f).l1 = s.l1 := rfl
@[simp] theorem State.updReq_regq (s : State) (id : Nat) (f : Req → Req) : (s.updReq id f).regq = s.regq := rfl
@[simp] theorem State.updReq_owners (s : State) (id : Nat) (f : Req → Req) : (s.updReq id f).owners = s.owners := rfl
@[simp] theorem State.updReq_dir (s : State) (id : Nat) (f : Req → Req) : (s.updReq id f).dir = s.dir := rfl
@[simp] theorem State.updReq_surrs (s : State) (id : Nat) (f : Req → Req) : (s.updReq id f).surrs = s.surrs := rfl
@[simp] theorem State.updReq_reqs (s : State) (id : Nat) (f : Req → Req) : (s.updReq id f).reqs = s.reqs.map fun r => if r.id == id then f r else r := rfl
@[simp] theorem State.updReq_missq (s : State) (id : Nat) (f : Req → Req) : (s.updReq id f).missq = s.missq := rfl
@[simp] theorem State.updReq_faults (s : State) (id : Nat) (f : Req → Req) : (s.updReq id f).faults = s.faults := rfl
@[simp] theorem State.updReq_invals (s : State) (id : Nat) (f : Req → Req) : (s.updReq id f).invals = s.invals := rfl
@[simp] theorem State.updReq_ranges (s : State) (id : Nat) (f : Req → Req) : (s.updReq id f).ranges = s.ranges := rfl
@[simp] theorem State.updReq_tokens (s : State) (id : Nat) (f : Req → Req) : (s.updReq id f).tokens = s.tokens := rfl
@[simp] theorem State.updReq_mcast (s : State) (id : Nat) (f : Req → Req) : (s.updReq id f).mcast = s.mcast := rfl
@[simp] theorem State.updReq_chans (s : State) (id : Nat) (f : Req → Req) : (s.updReq id f).chans = s.chans := rfl
@[simp] theorem State.updReq_fwds (s : State) (id : Nat) (f : Req → Req) : (s.updReq id f).fwds = s.fwds := rfl
@[simp] theorem State.updReq_sends (s : State) (id : Nat) (f : Req → Req) : (s.updReq id f).sends = s.sends := rfl
@[simp] theorem State.updReq_borrow (s : State) (id : Nat) (f : Req → Req) : (s.updReq id f).borrow = s.borrow := rfl
@[simp] theorem State.updReq_lenders (s : State) (id : Nat) (f : Req → Req) : (s.updReq id f).lenders = s.lenders := rfl
@[simp] theorem State.updReq_vatUsed (s : State) (id : Nat) (f : Req → Req) : (s.updReq id f).vatUsed = s.vatUsed := rfl
@[simp] theorem State.updReq_recalls (s : State) (id : Nat) (f : Req → Req) : (s.updReq id f).recalls = s.recalls := rfl
@[simp] theorem State.updReq_svcDone (s : State) (id : Nat) (f : Req → Req) : (s.updReq id f).svcDone = s.svcDone := rfl
@[simp] theorem State.updReq_pressHad (s : State) (id : Nat) (f : Req → Req) : (s.updReq id f).pressHad = s.pressHad := rfl
@[simp] theorem State.updReq_peerWatches (s : State) (id : Nat) (f : Req → Req) : (s.updReq id f).peerWatches = s.peerWatches := rfl
@[simp] theorem State.updReq_fills (s : State) (id : Nat) (f : Req → Req) : (s.updReq id f).fills = s.fills := rfl
@[simp] theorem State.updReq_cmds (s : State) (id : Nat) (f : Req → Req) : (s.updReq id f).cmds = s.cmds := rfl
@[simp] theorem State.updReq_copyTurn (s : State) (id : Nat) (f : Req → Req) : (s.updReq id f).copyTurn = s.copyTurn := rfl
@[simp] theorem State.updReq_svc (s : State) (id : Nat) (f : Req → Req) : (s.updReq id f).svc = s.svc := rfl
@[simp] theorem State.updReq_svcTurn (s : State) (id : Nat) (f : Req → Req) : (s.updReq id f).svcTurn = s.svcTurn := rfl
@[simp] theorem State.updReq_secs (s : State) (id : Nat) (f : Req → Req) : (s.updReq id f).secs = s.secs := rfl
@[simp] theorem State.updReq_calls (s : State) (id : Nat) (f : Req → Req) : (s.updReq id f).calls = s.calls := rfl
@[simp] theorem State.updReq_streams (s : State) (id : Nat) (f : Req → Req) : (s.updReq id f).streams = s.streams := rfl
@[simp] theorem State.updReq_gangs (s : State) (id : Nat) (f : Req → Req) : (s.updReq id f).gangs = s.gangs := rfl
@[simp] theorem State.updReq_arrayTurn (s : State) (id : Nat) (f : Req → Req) : (s.updReq id f).arrayTurn = s.arrayTurn := rfl
@[simp] theorem State.updReq_rays (s : State) (id : Nat) (f : Req → Req) : (s.updReq id f).rays = s.rays := rfl
@[simp] theorem State.updReq_visits (s : State) (id : Nat) (f : Req → Req) : (s.updReq id f).visits = s.visits := rfl
@[simp] theorem State.updReq_rayTurn (s : State) (id : Nat) (f : Req → Req) : (s.updReq id f).rayTurn = s.rayTurn := rfl
@[simp] theorem State.updReq_samples (s : State) (id : Nat) (f : Req → Req) : (s.updReq id f).samples = s.samples := rfl
@[simp] theorem State.updReq_colls (s : State) (id : Nat) (f : Req → Req) : (s.updReq id f).colls = s.colls := rfl
@[simp] theorem State.updReq_staging (s : State) (id : Nat) (f : Req → Req) : (s.updReq id f).staging = s.staging := rfl
@[simp] theorem State.updReq_heads (s : State) (id : Nat) (f : Req → Req) : (s.updReq id f).heads = s.heads := rfl
@[simp] theorem State.updReq_cur (s : State) (id : Nat) (f : Req → Req) : (s.updReq id f).cur = s.cur := rfl
@[simp] theorem State.updReq_turns (s : State) (id : Nat) (f : Req → Req) : (s.updReq id f).turns = s.turns := rfl
@[simp] theorem State.updReq_agenda (s : State) (id : Nat) (f : Req → Req) : (s.updReq id f).agenda = s.agenda := rfl
@[simp] theorem State.updReq_ev (s : State) (id : Nat) (f : Req → Req) : (s.updReq id f).ev = s.ev := rfl
@[simp] theorem State.updReq_lastWave (s : State) (id : Nat) (f : Req → Req) : (s.updReq id f).lastWave = s.lastWave := rfl
@[simp] theorem State.updReq_out (s : State) (id : Nat) (f : Req → Req) : (s.updReq id f).out = s.out := rfl
@[simp] theorem State.updReq_seq (s : State) (id : Nat) (f : Req → Req) : (s.updReq id f).seq = s.seq := rfl
@[simp] theorem State.updReq_cycle (s : State) (id : Nat) (f : Req → Req) : (s.updReq id f).cycle = s.cycle := rfl
@[simp] theorem State.updReq_hostEpoch (s : State) (id : Nat) (f : Req → Req) : (s.updReq id f).hostEpoch = s.hostEpoch := rfl

/-! ## push -/

@[simp] theorem State.push_top (s : State) (e : Instr) (x : EvArgs) : (s.push e x).top = s.top := rfl
@[simp] theorem State.push_mem (s : State) (e : Instr) (x : EvArgs) : (s.push e x).mem = s.mem := rfl
@[simp] theorem State.push_parts (s : State) (e : Instr) (x : EvArgs) : (s.push e x).parts = s.parts := rfl
@[simp] theorem State.push_vfs (s : State) (e : Instr) (x : EvArgs) : (s.push e x).vfs = s.vfs := rfl
@[simp] theorem State.push_ctxs (s : State) (e : Instr) (x : EvArgs) : (s.push e x).ctxs = s.ctxs := rfl
@[simp] theorem State.push_launches (s : State) (e : Instr) (x : EvArgs) : (s.push e x).launches = s.launches := rfl
@[simp] theorem State.push_groups (s : State) (e : Instr) (x : EvArgs) : (s.push e x).groups = s.groups := rfl
@[simp] theorem State.push_waves (s : State) (e : Instr) (x : EvArgs) : (s.push e x).waves = s.waves := rfl
@[simp] theorem State.push_l0 (s : State) (e : Instr) (x : EvArgs) : (s.push e x).l0 = s.l0 := rfl
@[simp] theorem State.push_tlb (s : State) (e : Instr) (x : EvArgs) : (s.push e x).tlb = s.tlb := rfl
@[simp] theorem State.push_l1 (s : State) (e : Instr) (x : EvArgs) : (s.push e x).l1 = s.l1 := rfl
@[simp] theorem State.push_regq (s : State) (e : Instr) (x : EvArgs) : (s.push e x).regq = s.regq := rfl
@[simp] theorem State.push_owners (s : State) (e : Instr) (x : EvArgs) : (s.push e x).owners = s.owners := rfl
@[simp] theorem State.push_dir (s : State) (e : Instr) (x : EvArgs) : (s.push e x).dir = s.dir := rfl
@[simp] theorem State.push_surrs (s : State) (e : Instr) (x : EvArgs) : (s.push e x).surrs = s.surrs := rfl
@[simp] theorem State.push_reqs (s : State) (e : Instr) (x : EvArgs) : (s.push e x).reqs = s.reqs := rfl
@[simp] theorem State.push_missq (s : State) (e : Instr) (x : EvArgs) : (s.push e x).missq = s.missq := rfl
@[simp] theorem State.push_faults (s : State) (e : Instr) (x : EvArgs) : (s.push e x).faults = s.faults := rfl
@[simp] theorem State.push_invals (s : State) (e : Instr) (x : EvArgs) : (s.push e x).invals = s.invals := rfl
@[simp] theorem State.push_ranges (s : State) (e : Instr) (x : EvArgs) : (s.push e x).ranges = s.ranges := rfl
@[simp] theorem State.push_tokens (s : State) (e : Instr) (x : EvArgs) : (s.push e x).tokens = s.tokens := rfl
@[simp] theorem State.push_mcast (s : State) (e : Instr) (x : EvArgs) : (s.push e x).mcast = s.mcast := rfl
@[simp] theorem State.push_chans (s : State) (e : Instr) (x : EvArgs) : (s.push e x).chans = s.chans := rfl
@[simp] theorem State.push_fwds (s : State) (e : Instr) (x : EvArgs) : (s.push e x).fwds = s.fwds := rfl
@[simp] theorem State.push_sends (s : State) (e : Instr) (x : EvArgs) : (s.push e x).sends = s.sends := rfl
@[simp] theorem State.push_borrow (s : State) (e : Instr) (x : EvArgs) : (s.push e x).borrow = s.borrow := rfl
@[simp] theorem State.push_lenders (s : State) (e : Instr) (x : EvArgs) : (s.push e x).lenders = s.lenders := rfl
@[simp] theorem State.push_vatUsed (s : State) (e : Instr) (x : EvArgs) : (s.push e x).vatUsed = s.vatUsed := rfl
@[simp] theorem State.push_recalls (s : State) (e : Instr) (x : EvArgs) : (s.push e x).recalls = s.recalls := rfl
@[simp] theorem State.push_svcDone (s : State) (e : Instr) (x : EvArgs) : (s.push e x).svcDone = s.svcDone := rfl
@[simp] theorem State.push_pressHad (s : State) (e : Instr) (x : EvArgs) : (s.push e x).pressHad = s.pressHad := rfl
@[simp] theorem State.push_peerWatches (s : State) (e : Instr) (x : EvArgs) : (s.push e x).peerWatches = s.peerWatches := rfl
@[simp] theorem State.push_fills (s : State) (e : Instr) (x : EvArgs) : (s.push e x).fills = s.fills := rfl
@[simp] theorem State.push_cmds (s : State) (e : Instr) (x : EvArgs) : (s.push e x).cmds = s.cmds := rfl
@[simp] theorem State.push_copyTurn (s : State) (e : Instr) (x : EvArgs) : (s.push e x).copyTurn = s.copyTurn := rfl
@[simp] theorem State.push_svc (s : State) (e : Instr) (x : EvArgs) : (s.push e x).svc = s.svc := rfl
@[simp] theorem State.push_svcTurn (s : State) (e : Instr) (x : EvArgs) : (s.push e x).svcTurn = s.svcTurn := rfl
@[simp] theorem State.push_secs (s : State) (e : Instr) (x : EvArgs) : (s.push e x).secs = s.secs := rfl
@[simp] theorem State.push_calls (s : State) (e : Instr) (x : EvArgs) : (s.push e x).calls = s.calls := rfl
@[simp] theorem State.push_streams (s : State) (e : Instr) (x : EvArgs) : (s.push e x).streams = s.streams := rfl
@[simp] theorem State.push_gangs (s : State) (e : Instr) (x : EvArgs) : (s.push e x).gangs = s.gangs := rfl
@[simp] theorem State.push_arrayTurn (s : State) (e : Instr) (x : EvArgs) : (s.push e x).arrayTurn = s.arrayTurn := rfl
@[simp] theorem State.push_rays (s : State) (e : Instr) (x : EvArgs) : (s.push e x).rays = s.rays := rfl
@[simp] theorem State.push_visits (s : State) (e : Instr) (x : EvArgs) : (s.push e x).visits = s.visits := rfl
@[simp] theorem State.push_rayTurn (s : State) (e : Instr) (x : EvArgs) : (s.push e x).rayTurn = s.rayTurn := rfl
@[simp] theorem State.push_samples (s : State) (e : Instr) (x : EvArgs) : (s.push e x).samples = s.samples := rfl
@[simp] theorem State.push_colls (s : State) (e : Instr) (x : EvArgs) : (s.push e x).colls = s.colls := rfl
@[simp] theorem State.push_staging (s : State) (e : Instr) (x : EvArgs) : (s.push e x).staging = s.staging := rfl
@[simp] theorem State.push_heads (s : State) (e : Instr) (x : EvArgs) : (s.push e x).heads = s.heads := rfl
@[simp] theorem State.push_cur (s : State) (e : Instr) (x : EvArgs) : (s.push e x).cur = s.cur := rfl
@[simp] theorem State.push_turns (s : State) (e : Instr) (x : EvArgs) : (s.push e x).turns = s.turns := rfl
@[simp] theorem State.push_agenda (s : State) (e : Instr) (x : EvArgs) : (s.push e x).agenda = s.agenda ++ [⟨e, x⟩] := rfl
@[simp] theorem State.push_ev (s : State) (e : Instr) (x : EvArgs) : (s.push e x).ev = s.ev := rfl
@[simp] theorem State.push_lastWave (s : State) (e : Instr) (x : EvArgs) : (s.push e x).lastWave = s.lastWave := rfl
@[simp] theorem State.push_out (s : State) (e : Instr) (x : EvArgs) : (s.push e x).out = s.out := rfl
@[simp] theorem State.push_seq (s : State) (e : Instr) (x : EvArgs) : (s.push e x).seq = s.seq := rfl
@[simp] theorem State.push_cycle (s : State) (e : Instr) (x : EvArgs) : (s.push e x).cycle = s.cycle := rfl
@[simp] theorem State.push_hostEpoch (s : State) (e : Instr) (x : EvArgs) : (s.push e x).hostEpoch = s.hostEpoch := rfl

/-! ## pushAll -/

@[simp] theorem State.pushAll_top (s : State) (es : List Event) : (s.pushAll es).top = s.top := rfl
@[simp] theorem State.pushAll_mem (s : State) (es : List Event) : (s.pushAll es).mem = s.mem := rfl
@[simp] theorem State.pushAll_parts (s : State) (es : List Event) : (s.pushAll es).parts = s.parts := rfl
@[simp] theorem State.pushAll_vfs (s : State) (es : List Event) : (s.pushAll es).vfs = s.vfs := rfl
@[simp] theorem State.pushAll_ctxs (s : State) (es : List Event) : (s.pushAll es).ctxs = s.ctxs := rfl
@[simp] theorem State.pushAll_launches (s : State) (es : List Event) : (s.pushAll es).launches = s.launches := rfl
@[simp] theorem State.pushAll_groups (s : State) (es : List Event) : (s.pushAll es).groups = s.groups := rfl
@[simp] theorem State.pushAll_waves (s : State) (es : List Event) : (s.pushAll es).waves = s.waves := rfl
@[simp] theorem State.pushAll_l0 (s : State) (es : List Event) : (s.pushAll es).l0 = s.l0 := rfl
@[simp] theorem State.pushAll_tlb (s : State) (es : List Event) : (s.pushAll es).tlb = s.tlb := rfl
@[simp] theorem State.pushAll_l1 (s : State) (es : List Event) : (s.pushAll es).l1 = s.l1 := rfl
@[simp] theorem State.pushAll_regq (s : State) (es : List Event) : (s.pushAll es).regq = s.regq := rfl
@[simp] theorem State.pushAll_owners (s : State) (es : List Event) : (s.pushAll es).owners = s.owners := rfl
@[simp] theorem State.pushAll_dir (s : State) (es : List Event) : (s.pushAll es).dir = s.dir := rfl
@[simp] theorem State.pushAll_surrs (s : State) (es : List Event) : (s.pushAll es).surrs = s.surrs := rfl
@[simp] theorem State.pushAll_reqs (s : State) (es : List Event) : (s.pushAll es).reqs = s.reqs := rfl
@[simp] theorem State.pushAll_missq (s : State) (es : List Event) : (s.pushAll es).missq = s.missq := rfl
@[simp] theorem State.pushAll_faults (s : State) (es : List Event) : (s.pushAll es).faults = s.faults := rfl
@[simp] theorem State.pushAll_invals (s : State) (es : List Event) : (s.pushAll es).invals = s.invals := rfl
@[simp] theorem State.pushAll_ranges (s : State) (es : List Event) : (s.pushAll es).ranges = s.ranges := rfl
@[simp] theorem State.pushAll_tokens (s : State) (es : List Event) : (s.pushAll es).tokens = s.tokens := rfl
@[simp] theorem State.pushAll_mcast (s : State) (es : List Event) : (s.pushAll es).mcast = s.mcast := rfl
@[simp] theorem State.pushAll_chans (s : State) (es : List Event) : (s.pushAll es).chans = s.chans := rfl
@[simp] theorem State.pushAll_fwds (s : State) (es : List Event) : (s.pushAll es).fwds = s.fwds := rfl
@[simp] theorem State.pushAll_sends (s : State) (es : List Event) : (s.pushAll es).sends = s.sends := rfl
@[simp] theorem State.pushAll_borrow (s : State) (es : List Event) : (s.pushAll es).borrow = s.borrow := rfl
@[simp] theorem State.pushAll_lenders (s : State) (es : List Event) : (s.pushAll es).lenders = s.lenders := rfl
@[simp] theorem State.pushAll_vatUsed (s : State) (es : List Event) : (s.pushAll es).vatUsed = s.vatUsed := rfl
@[simp] theorem State.pushAll_recalls (s : State) (es : List Event) : (s.pushAll es).recalls = s.recalls := rfl
@[simp] theorem State.pushAll_svcDone (s : State) (es : List Event) : (s.pushAll es).svcDone = s.svcDone := rfl
@[simp] theorem State.pushAll_pressHad (s : State) (es : List Event) : (s.pushAll es).pressHad = s.pressHad := rfl
@[simp] theorem State.pushAll_peerWatches (s : State) (es : List Event) : (s.pushAll es).peerWatches = s.peerWatches := rfl
@[simp] theorem State.pushAll_fills (s : State) (es : List Event) : (s.pushAll es).fills = s.fills := rfl
@[simp] theorem State.pushAll_cmds (s : State) (es : List Event) : (s.pushAll es).cmds = s.cmds := rfl
@[simp] theorem State.pushAll_copyTurn (s : State) (es : List Event) : (s.pushAll es).copyTurn = s.copyTurn := rfl
@[simp] theorem State.pushAll_svc (s : State) (es : List Event) : (s.pushAll es).svc = s.svc := rfl
@[simp] theorem State.pushAll_svcTurn (s : State) (es : List Event) : (s.pushAll es).svcTurn = s.svcTurn := rfl
@[simp] theorem State.pushAll_secs (s : State) (es : List Event) : (s.pushAll es).secs = s.secs := rfl
@[simp] theorem State.pushAll_calls (s : State) (es : List Event) : (s.pushAll es).calls = s.calls := rfl
@[simp] theorem State.pushAll_streams (s : State) (es : List Event) : (s.pushAll es).streams = s.streams := rfl
@[simp] theorem State.pushAll_gangs (s : State) (es : List Event) : (s.pushAll es).gangs = s.gangs := rfl
@[simp] theorem State.pushAll_arrayTurn (s : State) (es : List Event) : (s.pushAll es).arrayTurn = s.arrayTurn := rfl
@[simp] theorem State.pushAll_rays (s : State) (es : List Event) : (s.pushAll es).rays = s.rays := rfl
@[simp] theorem State.pushAll_visits (s : State) (es : List Event) : (s.pushAll es).visits = s.visits := rfl
@[simp] theorem State.pushAll_rayTurn (s : State) (es : List Event) : (s.pushAll es).rayTurn = s.rayTurn := rfl
@[simp] theorem State.pushAll_samples (s : State) (es : List Event) : (s.pushAll es).samples = s.samples := rfl
@[simp] theorem State.pushAll_colls (s : State) (es : List Event) : (s.pushAll es).colls = s.colls := rfl
@[simp] theorem State.pushAll_staging (s : State) (es : List Event) : (s.pushAll es).staging = s.staging := rfl
@[simp] theorem State.pushAll_heads (s : State) (es : List Event) : (s.pushAll es).heads = s.heads := rfl
@[simp] theorem State.pushAll_cur (s : State) (es : List Event) : (s.pushAll es).cur = s.cur := rfl
@[simp] theorem State.pushAll_turns (s : State) (es : List Event) : (s.pushAll es).turns = s.turns := rfl
@[simp] theorem State.pushAll_agenda (s : State) (es : List Event) : (s.pushAll es).agenda = s.agenda ++ es := rfl
@[simp] theorem State.pushAll_ev (s : State) (es : List Event) : (s.pushAll es).ev = s.ev := rfl
@[simp] theorem State.pushAll_lastWave (s : State) (es : List Event) : (s.pushAll es).lastWave = s.lastWave := rfl
@[simp] theorem State.pushAll_out (s : State) (es : List Event) : (s.pushAll es).out = s.out := rfl
@[simp] theorem State.pushAll_seq (s : State) (es : List Event) : (s.pushAll es).seq = s.seq := rfl
@[simp] theorem State.pushAll_cycle (s : State) (es : List Event) : (s.pushAll es).cycle = s.cycle := rfl
@[simp] theorem State.pushAll_hostEpoch (s : State) (es : List Event) : (s.pushAll es).hostEpoch = s.hostEpoch := rfl

/-! ## emit -/

@[simp] theorem State.emit_top (s : State) (o : Out) : (s.emit o).top = s.top := rfl
@[simp] theorem State.emit_mem (s : State) (o : Out) : (s.emit o).mem = s.mem := rfl
@[simp] theorem State.emit_parts (s : State) (o : Out) : (s.emit o).parts = s.parts := rfl
@[simp] theorem State.emit_vfs (s : State) (o : Out) : (s.emit o).vfs = s.vfs := rfl
@[simp] theorem State.emit_ctxs (s : State) (o : Out) : (s.emit o).ctxs = s.ctxs := rfl
@[simp] theorem State.emit_launches (s : State) (o : Out) : (s.emit o).launches = s.launches := rfl
@[simp] theorem State.emit_groups (s : State) (o : Out) : (s.emit o).groups = s.groups := rfl
@[simp] theorem State.emit_waves (s : State) (o : Out) : (s.emit o).waves = s.waves := rfl
@[simp] theorem State.emit_l0 (s : State) (o : Out) : (s.emit o).l0 = s.l0 := rfl
@[simp] theorem State.emit_tlb (s : State) (o : Out) : (s.emit o).tlb = s.tlb := rfl
@[simp] theorem State.emit_l1 (s : State) (o : Out) : (s.emit o).l1 = s.l1 := rfl
@[simp] theorem State.emit_regq (s : State) (o : Out) : (s.emit o).regq = s.regq := rfl
@[simp] theorem State.emit_owners (s : State) (o : Out) : (s.emit o).owners = s.owners := rfl
@[simp] theorem State.emit_dir (s : State) (o : Out) : (s.emit o).dir = s.dir := rfl
@[simp] theorem State.emit_surrs (s : State) (o : Out) : (s.emit o).surrs = s.surrs := rfl
@[simp] theorem State.emit_reqs (s : State) (o : Out) : (s.emit o).reqs = s.reqs := rfl
@[simp] theorem State.emit_missq (s : State) (o : Out) : (s.emit o).missq = s.missq := rfl
@[simp] theorem State.emit_faults (s : State) (o : Out) : (s.emit o).faults = s.faults := rfl
@[simp] theorem State.emit_invals (s : State) (o : Out) : (s.emit o).invals = s.invals := rfl
@[simp] theorem State.emit_ranges (s : State) (o : Out) : (s.emit o).ranges = s.ranges := rfl
@[simp] theorem State.emit_tokens (s : State) (o : Out) : (s.emit o).tokens = s.tokens := rfl
@[simp] theorem State.emit_mcast (s : State) (o : Out) : (s.emit o).mcast = s.mcast := rfl
@[simp] theorem State.emit_chans (s : State) (o : Out) : (s.emit o).chans = s.chans := rfl
@[simp] theorem State.emit_fwds (s : State) (o : Out) : (s.emit o).fwds = s.fwds := rfl
@[simp] theorem State.emit_sends (s : State) (o : Out) : (s.emit o).sends = s.sends := rfl
@[simp] theorem State.emit_borrow (s : State) (o : Out) : (s.emit o).borrow = s.borrow := rfl
@[simp] theorem State.emit_lenders (s : State) (o : Out) : (s.emit o).lenders = s.lenders := rfl
@[simp] theorem State.emit_vatUsed (s : State) (o : Out) : (s.emit o).vatUsed = s.vatUsed := rfl
@[simp] theorem State.emit_recalls (s : State) (o : Out) : (s.emit o).recalls = s.recalls := rfl
@[simp] theorem State.emit_svcDone (s : State) (o : Out) : (s.emit o).svcDone = s.svcDone := rfl
@[simp] theorem State.emit_pressHad (s : State) (o : Out) : (s.emit o).pressHad = s.pressHad := rfl
@[simp] theorem State.emit_peerWatches (s : State) (o : Out) : (s.emit o).peerWatches = s.peerWatches := rfl
@[simp] theorem State.emit_fills (s : State) (o : Out) : (s.emit o).fills = s.fills := rfl
@[simp] theorem State.emit_cmds (s : State) (o : Out) : (s.emit o).cmds = s.cmds := rfl
@[simp] theorem State.emit_copyTurn (s : State) (o : Out) : (s.emit o).copyTurn = s.copyTurn := rfl
@[simp] theorem State.emit_svc (s : State) (o : Out) : (s.emit o).svc = s.svc := rfl
@[simp] theorem State.emit_svcTurn (s : State) (o : Out) : (s.emit o).svcTurn = s.svcTurn := rfl
@[simp] theorem State.emit_secs (s : State) (o : Out) : (s.emit o).secs = s.secs := rfl
@[simp] theorem State.emit_calls (s : State) (o : Out) : (s.emit o).calls = s.calls := rfl
@[simp] theorem State.emit_streams (s : State) (o : Out) : (s.emit o).streams = s.streams := rfl
@[simp] theorem State.emit_gangs (s : State) (o : Out) : (s.emit o).gangs = s.gangs := rfl
@[simp] theorem State.emit_arrayTurn (s : State) (o : Out) : (s.emit o).arrayTurn = s.arrayTurn := rfl
@[simp] theorem State.emit_rays (s : State) (o : Out) : (s.emit o).rays = s.rays := rfl
@[simp] theorem State.emit_visits (s : State) (o : Out) : (s.emit o).visits = s.visits := rfl
@[simp] theorem State.emit_rayTurn (s : State) (o : Out) : (s.emit o).rayTurn = s.rayTurn := rfl
@[simp] theorem State.emit_samples (s : State) (o : Out) : (s.emit o).samples = s.samples := rfl
@[simp] theorem State.emit_colls (s : State) (o : Out) : (s.emit o).colls = s.colls := rfl
@[simp] theorem State.emit_staging (s : State) (o : Out) : (s.emit o).staging = s.staging := rfl
@[simp] theorem State.emit_heads (s : State) (o : Out) : (s.emit o).heads = s.heads := rfl
@[simp] theorem State.emit_cur (s : State) (o : Out) : (s.emit o).cur = s.cur := rfl
@[simp] theorem State.emit_turns (s : State) (o : Out) : (s.emit o).turns = s.turns := rfl
@[simp] theorem State.emit_agenda (s : State) (o : Out) : (s.emit o).agenda = s.agenda := rfl
@[simp] theorem State.emit_ev (s : State) (o : Out) : (s.emit o).ev = s.ev := rfl
@[simp] theorem State.emit_lastWave (s : State) (o : Out) : (s.emit o).lastWave = s.lastWave := rfl
@[simp] theorem State.emit_out (s : State) (o : Out) : (s.emit o).out = s.out ++ [o] := rfl
@[simp] theorem State.emit_seq (s : State) (o : Out) : (s.emit o).seq = s.seq := rfl
@[simp] theorem State.emit_cycle (s : State) (o : Out) : (s.emit o).cycle = s.cycle := rfl
@[simp] theorem State.emit_hostEpoch (s : State) (o : Out) : (s.emit o).hostEpoch = s.hostEpoch := rfl

/-! ## fresh -/

@[simp] theorem State.fresh_top (s : State) : (s.fresh).top = s.top := rfl
@[simp] theorem State.fresh_mem (s : State) : (s.fresh).mem = s.mem := rfl
@[simp] theorem State.fresh_parts (s : State) : (s.fresh).parts = s.parts := rfl
@[simp] theorem State.fresh_vfs (s : State) : (s.fresh).vfs = s.vfs := rfl
@[simp] theorem State.fresh_ctxs (s : State) : (s.fresh).ctxs = s.ctxs := rfl
@[simp] theorem State.fresh_launches (s : State) : (s.fresh).launches = s.launches := rfl
@[simp] theorem State.fresh_groups (s : State) : (s.fresh).groups = s.groups := rfl
@[simp] theorem State.fresh_waves (s : State) : (s.fresh).waves = s.waves := rfl
@[simp] theorem State.fresh_l0 (s : State) : (s.fresh).l0 = s.l0 := rfl
@[simp] theorem State.fresh_tlb (s : State) : (s.fresh).tlb = s.tlb := rfl
@[simp] theorem State.fresh_l1 (s : State) : (s.fresh).l1 = s.l1 := rfl
@[simp] theorem State.fresh_regq (s : State) : (s.fresh).regq = s.regq := rfl
@[simp] theorem State.fresh_owners (s : State) : (s.fresh).owners = s.owners := rfl
@[simp] theorem State.fresh_dir (s : State) : (s.fresh).dir = s.dir := rfl
@[simp] theorem State.fresh_surrs (s : State) : (s.fresh).surrs = s.surrs := rfl
@[simp] theorem State.fresh_reqs (s : State) : (s.fresh).reqs = s.reqs := rfl
@[simp] theorem State.fresh_missq (s : State) : (s.fresh).missq = s.missq := rfl
@[simp] theorem State.fresh_faults (s : State) : (s.fresh).faults = s.faults := rfl
@[simp] theorem State.fresh_invals (s : State) : (s.fresh).invals = s.invals := rfl
@[simp] theorem State.fresh_ranges (s : State) : (s.fresh).ranges = s.ranges := rfl
@[simp] theorem State.fresh_tokens (s : State) : (s.fresh).tokens = s.tokens := rfl
@[simp] theorem State.fresh_mcast (s : State) : (s.fresh).mcast = s.mcast := rfl
@[simp] theorem State.fresh_chans (s : State) : (s.fresh).chans = s.chans := rfl
@[simp] theorem State.fresh_fwds (s : State) : (s.fresh).fwds = s.fwds := rfl
@[simp] theorem State.fresh_sends (s : State) : (s.fresh).sends = s.sends := rfl
@[simp] theorem State.fresh_borrow (s : State) : (s.fresh).borrow = s.borrow := rfl
@[simp] theorem State.fresh_lenders (s : State) : (s.fresh).lenders = s.lenders := rfl
@[simp] theorem State.fresh_vatUsed (s : State) : (s.fresh).vatUsed = s.vatUsed := rfl
@[simp] theorem State.fresh_recalls (s : State) : (s.fresh).recalls = s.recalls := rfl
@[simp] theorem State.fresh_svcDone (s : State) : (s.fresh).svcDone = s.svcDone := rfl
@[simp] theorem State.fresh_pressHad (s : State) : (s.fresh).pressHad = s.pressHad := rfl
@[simp] theorem State.fresh_peerWatches (s : State) : (s.fresh).peerWatches = s.peerWatches := rfl
@[simp] theorem State.fresh_fills (s : State) : (s.fresh).fills = s.fills := rfl
@[simp] theorem State.fresh_cmds (s : State) : (s.fresh).cmds = s.cmds := rfl
@[simp] theorem State.fresh_copyTurn (s : State) : (s.fresh).copyTurn = s.copyTurn := rfl
@[simp] theorem State.fresh_svc (s : State) : (s.fresh).svc = s.svc := rfl
@[simp] theorem State.fresh_svcTurn (s : State) : (s.fresh).svcTurn = s.svcTurn := rfl
@[simp] theorem State.fresh_secs (s : State) : (s.fresh).secs = s.secs := rfl
@[simp] theorem State.fresh_calls (s : State) : (s.fresh).calls = s.calls := rfl
@[simp] theorem State.fresh_streams (s : State) : (s.fresh).streams = s.streams := rfl
@[simp] theorem State.fresh_gangs (s : State) : (s.fresh).gangs = s.gangs := rfl
@[simp] theorem State.fresh_arrayTurn (s : State) : (s.fresh).arrayTurn = s.arrayTurn := rfl
@[simp] theorem State.fresh_rays (s : State) : (s.fresh).rays = s.rays := rfl
@[simp] theorem State.fresh_visits (s : State) : (s.fresh).visits = s.visits := rfl
@[simp] theorem State.fresh_rayTurn (s : State) : (s.fresh).rayTurn = s.rayTurn := rfl
@[simp] theorem State.fresh_samples (s : State) : (s.fresh).samples = s.samples := rfl
@[simp] theorem State.fresh_colls (s : State) : (s.fresh).colls = s.colls := rfl
@[simp] theorem State.fresh_staging (s : State) : (s.fresh).staging = s.staging := rfl
@[simp] theorem State.fresh_heads (s : State) : (s.fresh).heads = s.heads := rfl
@[simp] theorem State.fresh_cur (s : State) : (s.fresh).cur = s.cur := rfl
@[simp] theorem State.fresh_turns (s : State) : (s.fresh).turns = s.turns := rfl
@[simp] theorem State.fresh_agenda (s : State) : (s.fresh).agenda = s.agenda := rfl
@[simp] theorem State.fresh_ev (s : State) : (s.fresh).ev = s.ev := rfl
@[simp] theorem State.fresh_lastWave (s : State) : (s.fresh).lastWave = s.lastWave := rfl
@[simp] theorem State.fresh_out (s : State) : (s.fresh).out = s.out := rfl
@[simp] theorem State.fresh_seq (s : State) : (s.fresh).seq = s.seq + 1 := rfl
@[simp] theorem State.fresh_cycle (s : State) : (s.fresh).cycle = s.cycle := rfl
@[simp] theorem State.fresh_hostEpoch (s : State) : (s.fresh).hostEpoch = s.hostEpoch := rfl

/-! ## endUnit -/

@[simp] theorem State.endUnit_top (s : State) : (s.endUnit).top = s.top := rfl
@[simp] theorem State.endUnit_mem (s : State) : (s.endUnit).mem = s.mem := rfl
@[simp] theorem State.endUnit_parts (s : State) : (s.endUnit).parts = s.parts := rfl
@[simp] theorem State.endUnit_vfs (s : State) : (s.endUnit).vfs = s.vfs := rfl
@[simp] theorem State.endUnit_ctxs (s : State) : (s.endUnit).ctxs = s.ctxs := rfl
@[simp] theorem State.endUnit_launches (s : State) : (s.endUnit).launches = s.launches := rfl
@[simp] theorem State.endUnit_groups (s : State) : (s.endUnit).groups = s.groups := rfl
@[simp] theorem State.endUnit_waves (s : State) : (s.endUnit).waves = s.waves := rfl
@[simp] theorem State.endUnit_l0 (s : State) : (s.endUnit).l0 = s.l0 := rfl
@[simp] theorem State.endUnit_tlb (s : State) : (s.endUnit).tlb = s.tlb := rfl
@[simp] theorem State.endUnit_l1 (s : State) : (s.endUnit).l1 = s.l1 := rfl
@[simp] theorem State.endUnit_regq (s : State) : (s.endUnit).regq = s.regq := rfl
@[simp] theorem State.endUnit_owners (s : State) : (s.endUnit).owners = s.owners := rfl
@[simp] theorem State.endUnit_dir (s : State) : (s.endUnit).dir = s.dir := rfl
@[simp] theorem State.endUnit_surrs (s : State) : (s.endUnit).surrs = s.surrs := rfl
@[simp] theorem State.endUnit_reqs (s : State) : (s.endUnit).reqs = s.reqs := rfl
@[simp] theorem State.endUnit_missq (s : State) : (s.endUnit).missq = s.missq := rfl
@[simp] theorem State.endUnit_faults (s : State) : (s.endUnit).faults = s.faults := rfl
@[simp] theorem State.endUnit_invals (s : State) : (s.endUnit).invals = s.invals := rfl
@[simp] theorem State.endUnit_ranges (s : State) : (s.endUnit).ranges = s.ranges := rfl
@[simp] theorem State.endUnit_tokens (s : State) : (s.endUnit).tokens = s.tokens := rfl
@[simp] theorem State.endUnit_mcast (s : State) : (s.endUnit).mcast = s.mcast := rfl
@[simp] theorem State.endUnit_chans (s : State) : (s.endUnit).chans = s.chans := rfl
@[simp] theorem State.endUnit_fwds (s : State) : (s.endUnit).fwds = s.fwds := rfl
@[simp] theorem State.endUnit_sends (s : State) : (s.endUnit).sends = s.sends := rfl
@[simp] theorem State.endUnit_borrow (s : State) : (s.endUnit).borrow = s.borrow := rfl
@[simp] theorem State.endUnit_lenders (s : State) : (s.endUnit).lenders = s.lenders := rfl
@[simp] theorem State.endUnit_vatUsed (s : State) : (s.endUnit).vatUsed = s.vatUsed := rfl
@[simp] theorem State.endUnit_recalls (s : State) : (s.endUnit).recalls = s.recalls := rfl
@[simp] theorem State.endUnit_svcDone (s : State) : (s.endUnit).svcDone = s.svcDone := rfl
@[simp] theorem State.endUnit_pressHad (s : State) : (s.endUnit).pressHad = s.pressHad := rfl
@[simp] theorem State.endUnit_peerWatches (s : State) : (s.endUnit).peerWatches = s.peerWatches := rfl
@[simp] theorem State.endUnit_fills (s : State) : (s.endUnit).fills = s.fills := rfl
@[simp] theorem State.endUnit_cmds (s : State) : (s.endUnit).cmds = s.cmds := rfl
@[simp] theorem State.endUnit_copyTurn (s : State) : (s.endUnit).copyTurn = s.copyTurn := rfl
@[simp] theorem State.endUnit_svc (s : State) : (s.endUnit).svc = s.svc := rfl
@[simp] theorem State.endUnit_svcTurn (s : State) : (s.endUnit).svcTurn = s.svcTurn := rfl
@[simp] theorem State.endUnit_secs (s : State) : (s.endUnit).secs = s.secs := rfl
@[simp] theorem State.endUnit_calls (s : State) : (s.endUnit).calls = s.calls := rfl
@[simp] theorem State.endUnit_streams (s : State) : (s.endUnit).streams = s.streams := rfl
@[simp] theorem State.endUnit_gangs (s : State) : (s.endUnit).gangs = s.gangs := rfl
@[simp] theorem State.endUnit_arrayTurn (s : State) : (s.endUnit).arrayTurn = s.arrayTurn := rfl
@[simp] theorem State.endUnit_rays (s : State) : (s.endUnit).rays = s.rays := rfl
@[simp] theorem State.endUnit_visits (s : State) : (s.endUnit).visits = s.visits := rfl
@[simp] theorem State.endUnit_rayTurn (s : State) : (s.endUnit).rayTurn = s.rayTurn := rfl
@[simp] theorem State.endUnit_samples (s : State) : (s.endUnit).samples = s.samples := rfl
@[simp] theorem State.endUnit_colls (s : State) : (s.endUnit).colls = s.colls := rfl
@[simp] theorem State.endUnit_staging (s : State) : (s.endUnit).staging = s.staging := rfl
@[simp] theorem State.endUnit_heads (s : State) : (s.endUnit).heads = s.heads := rfl
@[simp] theorem State.endUnit_cur (s : State) : (s.endUnit).cur = none := rfl
@[simp] theorem State.endUnit_turns (s : State) : (s.endUnit).turns = s.turns := rfl
@[simp] theorem State.endUnit_agenda (s : State) : (s.endUnit).agenda = s.agenda := rfl
@[simp] theorem State.endUnit_ev (s : State) : (s.endUnit).ev = s.ev := rfl
@[simp] theorem State.endUnit_lastWave (s : State) : (s.endUnit).lastWave = s.lastWave := rfl
@[simp] theorem State.endUnit_out (s : State) : (s.endUnit).out = s.out := rfl
@[simp] theorem State.endUnit_seq (s : State) : (s.endUnit).seq = s.seq := rfl
@[simp] theorem State.endUnit_cycle (s : State) : (s.endUnit).cycle = s.cycle := rfl
@[simp] theorem State.endUnit_hostEpoch (s : State) : (s.endUnit).hostEpoch = s.hostEpoch := rfl

end Sys2Proof.Machine
end

