-- ==== Sys2Proof/Laws/Units.lean ====
section
/-! SUPPORT. The runners of Operands.lean, said once: what a unit does that passes its issue checks, and how it ends when it
does not. The lemmas about single words cite these and unfold none of the runners. -/

namespace Sys2Proof.Machine

open Host

/-! ## The issuing fragment -/

theorem State.iss?_eq {s : State} {i : Iss} (h : s.iss? = some i) :
    s.cur = some i.c ∧ s.group? i.c.g = some i.grp ∧ s.wave? i.c.g i.c.w = some i.wv ∧ i.wv.frag? i.c.f = some i.fr ∧
    s.launch? i.grp.launch = some i.ln := by
  unfold State.iss? at h
  split at h
  · cases h
  · rename_i c hc
    split at h
    · rename_i g w hg hw
      split at h
      · rename_i f l hf hl
        cases h
        exact ⟨hc, hg, hw, hf, hl⟩
      · cases h
    · cases h

theorem State.withIss_eq {s : State} {i : Iss} (h : s.iss? = some i) (k : Iss → Res) : s.withIss k = k i := by
  simp [State.withIss, h]

/-- Without an issuing fragment a word stops by name. -/
theorem State.withIss_none {s : State} (h : s.iss? = none) (k : Iss → Res) : s.withIss k = .fault .noIssuer := by
  simp [State.withIss, h]

/-! ## Words with other effects -/

theorem State.issue_go {s : State} {i : Iss} {p : Accepts} {legal : Iss → Bool} {conv : Bool} {srcs : List Src}
    {dsts : List (Bool × Nat)} {k : Iss → Res} (h : WordUnit s i p conv srcs dsts) (hl : legal i = true) :
    s.issue p legal conv srcs dsts k = k i := by
  have hc : (conv && !i.converged) = false := by
    cases hv : conv with
    | false => rfl
    | true => simp [h.converged hv]
  simp only [State.issue, State.withIss_eq h.issuing, h.prefixes, hl, hc, h.ready]
  rfl

/-- A prefix the word does not accept, or a register out of range: ILLEGAL_WORD (R34, R39). -/
theorem State.issue_illegal {s : State} {i : Iss} {p : Accepts} {legal : Iss → Bool} {conv : Bool} {srcs : List Src}
    {dsts : List (Bool × Nat)} {k : Iss → Res} (h : s.iss? = some i) (hl : p.ok i.c = false ∨ legal i = false) :
    s.issue p legal conv srcs dsts k = .next (s.refuse p i) := by
  simp only [State.issue, State.withIss_eq h]
  rcases hl with hl | hl <;> simp [hl]

/-- Where no prefix is refused, ILLEGAL_WORD reports the word itself. -/
theorem State.refuse_of_ok {s : State} {p : Accepts} {i : Iss} (h : p.ok i.c = true) : s.refuse p i = s.illegal i := by
  have hi : p.ok { i.c with ord := none, rep := none } = true := by simp_all [Accepts.ok]
  have ho : p.ok { i.c with imm := none, rep := none } = true := by simp_all [Accepts.ok]
  have hr : p.ok { i.c with imm := none, ord := none } = true := by simp_all [Accepts.ok]
  simp [State.refuse, State.illegal, Accepts.offender, hi, ho, hr]

/-- An operand that is not ready: the fragment waits at the unit (R138, R139). -/
theorem State.issue_wait {s : State} {i : Iss} {p : Accepts} {legal : Iss → Bool} {conv : Bool} {srcs : List Src}
    {dsts : List (Bool × Nat)} {k : Iss → Res} {w : Wait} (h : s.iss? = some i) (hp : p.ok i.c = true) (hl : legal i = true)
    (hc : conv = true → i.converged = true) (hw : s.checkAll i i.wv srcs dsts = .wait w) :
    s.issue p legal conv srcs dsts k = .next (s.block i w) := by
  have hc' : (conv && !i.converged) = false := by
    cases hv : conv with
    | false => rfl
    | true => simp [hc hv]
  simp only [State.issue, State.withIss_eq h, hp, hl, hc', hw]
  rfl

/-! ## Ports -/

theorem noPorts_mem {v : Wave} {srcs : List Src} (h : noPorts v srcs) :
    ∀ n ∈ ((srcs.filter fun x => !x.isS).flatMap regsOf).eraseDups, v.port? n = none := by
  intro n hn
  rw [List.mem_eraseDups, List.mem_flatMap] at hn
  obtain ⟨x, hx, hn⟩ := hn
  simp only [List.mem_filter, Bool.not_eq_true'] at hx
  exact h x hx.1 hx.2 n hn

/-- A unit that reads no port leaves the queues alone (R205). -/
theorem State.popPorts_none {s : State} {i : Iss} {srcs : List Src} (hw : s.wave? i.c.g i.c.w = some i.wv)
    (h : noPorts i.wv srcs) : s.popPorts i srcs = s := by
  unfold State.popPorts
  simp only [hw]
  have hm := noPorts_mem h
  generalize ((srcs.filter fun x => !x.isS).flatMap regsOf).eraseDups = ns at hm
  induction ns with
  | nil => rfl
  | cons n ns ih =>
    simp only [List.foldl_cons, hm n (by simp)]
    exact ih fun m hmm => hm m (by simp [hmm])

/-- A fold whose every step keeps what it is given. -/
theorem foldl_id_of_mem {α β : Type} {f : β → α → β} (l : List α) (h : ∀ a ∈ l, ∀ b, f b a = b) (b : β) : l.foldl f b = b := by
  induction l with
  | nil => rfl
  | cons a l ih =>
    rw [List.foldl_cons, h a (by simp)]
    exact ih fun x hx => h x (by simp [hx])

/-- A unit that reads no port sees the wave as it is. -/
theorem State.portView_none {s : State} {i : Iss} {v : Wave} {srcs : List Src} (h : noPorts v srcs) : s.portView i v srcs = v := by
  unfold State.portView
  refine foldl_id_of_mem _ (fun n hn w => ?_) v
  simp only [noPorts_mem h n hn]

/-! ## Lane words -/

theorem LaneUnit.ops {s : State} {i : Iss} {p : Accepts} {srcs : List Src} {dsts : List Nat} (h : LaneUnit s i p srcs dsts)
    {op : LaneOp} (hs : op.srcs i.wv = srcs) (hd : op.dsts i.wv = dsts) (he : op.extra i.wv = true) : op.legal i.wv = true := by
  simp only [LaneOp.legal, he, hs, hd, Bool.true_and, Bool.and_eq_true, List.all_eq_true]
  exact ⟨fun x hx n hn => h.sources x hx n hn, fun d hdd => (h.destinations d hdd).1⟩

/-- What one repetition of a lane word leaves (R40, R146). -/
theorem State.runLaneOp_ok {s : State} {i : Iss} {op : LaneOp} {ws : List (Nat × BitVec 4 × List Nat)} {fl : FpFlags}
    (hw : s.wave? i.c.g i.c.w = some i.wv)
    (hc : s.checkAll i i.wv (op.srcs i.wv) ((op.dsts i.wv).map fun n => (false, n)) = .go) (hp : noPorts i.wv (op.srcs i.wv))
    (ht : op.mismatch i.wv = none) (hr : op.run i.wv i.wv.regs.rndmode i.fr.live ((op.srcs i.wv).map fun x => (readSrc i.wv x).1) = .ok ws fl) :
    s.runLaneOp i op =
      .ok (s.updCur i fun w => w.applyOut i.fr.live ws (fl ||| readFlags i.wv i.fr.live (op.srcs i.wv))) := by
  have hm : (List.map (fun x => x.1) (List.map (readSrc i.wv) (op.srcs i.wv))) = (op.srcs i.wv).map fun x => (readSrc i.wv x).1 := by
    simp [List.map_map, Function.comp_def]
  have hv := State.portView_none (s := s) (i := i) hp
  simp only [State.runLaneOp, hw, hv, ht, Option.isSome_none, Bool.false_eq_true, if_false, hc, State.popPorts_none hw hp, hm, hr,
    readFlags, List.foldl_map]

/-- A lane word without REP whose unit passes its checks: its one repetition, and the unit is over. -/
theorem laneWord_once {s : State} {i : Iss} {p : Accepts} {d a b : Nat} {mk : Cur → Nat → Nat → Nat → LaneOp}
    {srcs : List Src} {dsts : List Nat} {ws : List (Nat × BitVec 4 × List Nat)} {fl : FpFlags} (h : LaneUnit s i p srcs dsts)
    (hs : (mk i.c d a b).srcs i.wv = srcs) (hd : (mk i.c d a b).dsts i.wv = dsts) (he : (mk i.c d a b).extra i.wv = true)
    (ht : (mk i.c d a b).mismatch i.wv = none)
    (hr : (mk i.c d a b).run i.wv i.wv.regs.rndmode i.fr.live (srcs.map fun x => (readSrc i.wv x).1) = .ok ws fl) :
    laneWord p d a b mk s =
      .next ((s.updCur i fun w => w.applyOut i.fr.live ws (fl ||| readFlags i.wv i.fr.live srcs)).retire i) := by
  have hw := (State.iss?_eq h.issuing).2.2.1
  have hl := h.ops hs hd he
  subst hs hd
  have hrun := State.runLaneOp_ok hw h.ready h.unported ht hr
  simp [laneWord, State.withIss_eq h.issuing, Cur.count, h.once, repField, h.prefixes, hl, State.runReps, hrun]

/-! ## What writes leave -/

@[simp] theorem Wave.writeV_regs (v : Wave) (n : Nat) (who : LaneMask) (t : BitVec 4) (xs : List Word) :
    (v.writeV n who t xs).regs = v.regs := rfl
@[simp] theorem Wave.writeV_sregs (v : Wave) (n : Nat) (who : LaneMask) (t : BitVec 4) (xs : List Word) :
    (v.writeV n who t xs).sregs = v.sregs := rfl
@[simp] theorem Wave.writeV_frags (v : Wave) (n : Nat) (who : LaneMask) (t : BitVec 4) (xs : List Word) :
    (v.writeV n who t xs).frags = v.frags := rfl
@[simp] theorem Wave.writeV_units (v : Wave) (n : Nat) (who : LaneMask) (t : BitVec 4) (xs : List Word) :
    (v.writeV n who t xs).units = v.units := rfl
@[simp] theorem Wave.writeV_length (v : Wave) (n : Nat) (who : LaneMask) (t : BitVec 4) (xs : List Word) :
    (v.writeV n who t xs).vregs.length = v.vregs.length := by simp [Wave.writeV]
@[simp] theorem Wave.writeV_live (v : Wave) (n : Nat) (who : LaneMask) (t : BitVec 4) (xs : List Word) :
    (v.writeV n who t xs).live = v.live := rfl

theorem Wave.writeV_other {v : Wave} {n m : Nat} (h : m ≠ n) (who : LaneMask) (t : BitVec 4) (xs : List Word) :
    (v.writeV n who t xs).vreg m = v.vreg m := by
  simp [Wave.writeV, Wave.vreg, List.getD_eq_getElem?_getD, Ne.symm h]

theorem Wave.writeV_self {v : Wave} {n : Nat} (h : n < v.vregs.length) (who : LaneMask) (t : BitVec 4) (xs : List Word) :
    (v.writeV n who t xs).vreg n = { v.vreg n with
      lanes := (List.range 32).map fun l => if who.getLsbD l then xs.getD l 0 else (v.vreg n).lane l
      tag := tagAfter v.live who (v.vreg n).tag t } := by
  simp [Wave.writeV, Wave.vreg, List.getD_eq_getElem?_getD, h]

/-- R130: a lane of a register just written. -/
theorem Wave.writeV_lane {v : Wave} {n l : Nat} (h : n < v.vregs.length) (hl : l < 32) (who : LaneMask) (t : BitVec 4)
    (xs : List Word) :
    ((v.writeV n who t xs).vreg n).lane l = if who.getLsbD l then xs.getD l 0 else (v.vreg n).lane l := by
  rw [Wave.writeV_self h]
  simp only [VReg.lane]
  rw [List.getD_eq_getElem?_getD, List.getElem?_map, List.getElem?_range hl]
  rfl

/-- Writes to distinct registers, taken together. -/
theorem Wave.foldl_writeV {v : Wave} {who : LaneMask} (ws : List (Nat × BitVec 4 × List Word)) (hn : (ws.map (·.1)).Nodup)
    (hr : ∀ x ∈ ws, x.1 < v.vregs.length) :
    let v' := ws.foldl (fun v x => v.writeV x.1 who x.2.1 x.2.2) v
    (∀ x ∈ ws, v'.vreg x.1 = (v.writeV x.1 who x.2.1 x.2.2).vreg x.1) ∧ (∀ n, n ∉ ws.map (·.1) → v'.vreg n = v.vreg n) ∧
    v'.sregs = v.sregs ∧ v'.regs = v.regs ∧ v'.frags = v.frags ∧ v'.units = v.units := by
  induction ws generalizing v with
  | nil => simp
  | cons x ws ih =>
    simp only [List.map_cons, List.nodup_cons] at hn
    have h := ih (v := v.writeV x.1 who x.2.1 x.2.2) hn.2 (fun y hy => by
      rw [Wave.writeV_length]; exact hr y (by simp [hy]))
    obtain ⟨h1, h2, h3, h4, h5, h6⟩ := h
    refine ⟨?_, ?_, by simpa using h3, by simpa using h4, by simpa using h5, by simpa using h6⟩
    · intro y hy
      rcases List.mem_cons.mp hy with rfl | hy
      · exact h2 _ hn.1
      · have hne : y.1 ≠ x.1 := fun he => hn.1 (he ▸ List.mem_map_of_mem hy)
        show Wave.vreg (ws.foldl _ _) y.1 = _
        rw [h1 y hy, Wave.writeV_self (by rw [Wave.writeV_length]; exact hr y (by simp [hy])),
          Wave.writeV_self (hr y (by simp [hy])), Wave.writeV_other hne, Wave.writeV_live]
    · intro n hn'
      simp only [List.map_cons, List.mem_cons, not_or] at hn'
      show Wave.vreg (ws.foldl _ _) n = _
      rw [h2 n hn'.2, Wave.writeV_other hn'.1]

/-- A unit's writes, its flags and its retirement are what `LaneEffect` says. -/
theorem LaneEffect.of_writes {s : State} {i : Iss} {ws : List (Nat × BitVec 4 × List Nat)}
    {vals : List (Nat × BitVec 4 × (Nat → Nat))} {fl : FpFlags}
    (hv : vals.map (fun x => (x.1, x.2.1)) = ws.map fun x => (x.1, x.2.1))
    (hx : ∀ (k : Nat) (x : Nat × BitVec 4 × (Nat → Nat)) (y : Nat × BitVec 4 × List Nat), vals[k]? = some x → ws[k]? = some y → ∀ l < 32, i.fr.live.getLsbD l = true →
      BitVec.ofNat 32 (x.2.2 l) = (y.2.2.map (BitVec.ofNat 32)).getD l (0 : Word))
    (hn : (ws.map (·.1)).Nodup) (hr : ∀ x ∈ ws, x.1 < i.wv.vregs.length) :
    LaneEffect s ((s.updCur i fun w => w.applyOut i.fr.live ws fl).retire i) i vals fl := by
  have hmap : ws.map (·.1) = (ws.map fun x => (x.1, x.2.1, x.2.2.map (BitVec.ofNat 32))).map (·.1) := by
    simp [List.map_map, Function.comp_def]
  have hvals : vals.map (·.1) = ws.map (·.1) := by
    have := congrArg (List.map Prod.fst) hv
    simpa [List.map_map, Function.comp_def] using this
  have hf := Wave.foldl_writeV (v := i.wv) (who := i.fr.live) (ws.map fun x => (x.1, x.2.1, x.2.2.map (BitVec.ofNat 32)))
    (by rw [← hmap]; exact hn) (by
      intro x hx
      obtain ⟨y, hy, rfl⟩ := List.mem_map.mp hx
      exact hr y hy)
  simp only [List.foldl_map] at hf
  obtain ⟨h1, h2, h3, h4, h5, h6⟩ := hf
  let v : Wave → Wave := fun w =>
    let w1 := w.applyOut i.fr.live ws fl
    { w1.updFrag i.c.f (fun f => { f with pc := i.next, wait := none, repNext := none, fwdLane := none }) with
      units := w1.units + 1 }
  have hvreg : ∀ n, (v i.wv).vreg n = (ws.foldl (fun v x => v.writeV x.1 i.fr.live x.2.1 (x.2.2.map (BitVec.ofNat 32))) i.wv).vreg n :=
    fun n => rfl
  have hidx : ∀ x ∈ vals, ∃ (k : Nat) (y : Nat × BitVec 4 × List Nat), vals[k]? = some x ∧ ws[k]? = some y ∧ y ∈ ws ∧ y.1 = x.1 ∧ y.2.1 = x.2.1 := by
    intro x hx'
    obtain ⟨k, hk⟩ := List.getElem?_of_mem hx'
    have h := congrArg (fun (l : List (Nat × BitVec 4)) => l[k]?) hv
    simp only [List.getElem?_map, hk, Option.map_some] at h
    cases hy : ws[k]? with
    | none => simp [hy] at h
    | some y =>
      simp only [hy, Option.map_some, Option.some.injEq, Prod.mk.injEq] at h
      exact ⟨k, y, hk, hy, List.mem_of_getElem? hy, h.1.symm, h.2.symm⟩
  refine ⟨⟨v, ?_, ?_, ?_, ?_, ?_, ?_, ?_⟩, ?_⟩
  · show List.map _ (List.map _ _) = _
    rw [List.map_map]
    apply List.map_congr_left
    intro w _
    simp only [Function.comp]
    split
    · rename_i hw
      have : ((w.applyOut i.fr.live ws fl).g == i.c.g && (w.applyOut i.fr.live ws fl).w == i.c.w) = true := by
        have hg : ∀ (w : Wave), (ws.foldl (fun v x => v.writeV x.1 i.fr.live x.2.1 (x.2.2.map (BitVec.ofNat 32))) w).g = w.g ∧
            (ws.foldl (fun v x => v.writeV x.1 i.fr.live x.2.1 (x.2.2.map (BitVec.ofNat 32))) w).w = w.w := by
          clear * -
          induction ws with
          | nil => simp
          | cons x ws ih => intro w; exact ih (w.writeV x.1 i.fr.live x.2.1 (x.2.2.map (BitVec.ofNat 32)))
        simpa [Wave.applyOut, hg w] using hw
      simp [this, v]
    · rfl
  · intro x hx' l hl
    obtain ⟨k, y, hk, hy, hyw, he1, he2⟩ := hidx x hx'
    rw [hvreg, ← he1]
    have := h1 _ (List.mem_map_of_mem hyw)
    simp only at this
    rw [this, Wave.writeV_lane (hr y hyw) hl]
    split
    · rename_i hlive
      exact (hx k x y hk hy l hl hlive).symm
    · rfl
  · intro x hx'
    obtain ⟨k, y, hk, hy, hyw, he1, he2⟩ := hidx x hx'
    rw [hvreg, ← he1, ← he2]
    have := h1 _ (List.mem_map_of_mem hyw)
    simp only at this
    rw [this, Wave.writeV_self (hr y hyw)]
  · intro n hnn
    rw [hvreg]
    exact h2 n (by rw [← hmap, ← hvals]; exact hnn)
  · exact h3
  · have hreg : (v i.wv).regs = (let r := (ws.foldl (fun v x => v.writeV x.1 i.fr.live x.2.1 (x.2.2.map (BitVec.ofNat 32)))
        i.wv).regs; ({ r with fpflags := r.fpflags ||| fl } : WaveRegs)) := rfl
    rw [hreg, h4]
  · refine ⟨?_, ?_⟩
    · show List.map _ (Wave.frags (ws.foldl _ i.wv)) = _
      rw [h5]
    · show Wave.units (ws.foldl _ i.wv) + 1 = _
      rw [h6]
  · rfl

/-! ## Uniform words -/

/-- A uniform word whose unit passes its checks (R146, R174). -/
theorem uniWord_go {s : State} {i : Iss} {p : Accepts} {mk : Cur → UniOp} {srcs : List Src} {d : Nat}
    (h : UniformUnit s i p srcs d) (hl : (mk i.c).legal i.wv = true) (hs : (mk i.c).srcs = srcs) (hd : (mk i.c).dst = d) :
    uniWord p mk s =
      (let vals := srcs.map (readSrc i.wv)
       let r := (mk i.c).run i.wv i.wv.regs.rndmode (vals.map fun v => v.1.getD 0 0)
       let cf := vals.foldl (fun a x => a ||| x.2.getD 0 0) (0 : FpFlags)
       .next ((if d = 0 then s else s.updCur i fun w =>
          { w.setS d (BitVec.ofNat 64 r.1) r.2.1 with
            regs := { w.regs with fpflags := w.regs.fpflags ||| r.2.2 ||| cf } }).retire i)) := by
  simp [uniWord, State.withIss_eq h.issuing, h.prefixes, hl, hs, hd, h.destination.1, h.ready]

end Sys2Proof.Machine
end

