-- ==== Sys2Proof/Laws/LaneWords.lean ====
section
/-! SUPPORT. What the lane words of LaneArith.lean leave, said once for every shape of operation, and what their shared lists
of lane values hold. -/

namespace Sys2Proof.Machine

open Host

/-! ## Lane values -/

theorem readSrc_lane (v : Wave) (f n l : Nat) (rd : Reader) (e : Bool) (hl : l < 32) :
    ((readSrc v ⟨f, false, n, 1, rd, e⟩).1).getD l 0 = laneOperand v rd n l := by
  simp [readSrc, List.getD_eq_getElem?_getD, List.getElem?_range hl, laneOperand, regsOf]

theorem readSrc_pair (v : Wave) (f n l : Nat) (e : Bool) (hl : l < 32) :
    ((readSrc v ⟨f, false, n, 2, .pair, e⟩).1).getD l 0 = pairOperand v n l := by
  have h2 : regsOf ⟨f, false, n, 2, .pair, e⟩ = [n, n + 1] := rfl
  simp [readSrc, List.getD_eq_getElem?_getD, List.getElem?_range hl, pairOperand, h2]

theorem laneOperand_bit (v : Wave) (n l : Nat) : laneOperand v .bit n l = ((v.vreg n).lane l).toNat := rfl

/-- Lane values computed under a mask: those of the mask's lanes. -/
theorem mapLanes_val (who : LaneMask) (f : Nat → Nat × FpFlags) (l : Nat) (hl : l < 32) (hw : who.getLsbD l = true) :
    (mapLanes who f).1.getD l 0 = (f l).1 := by
  simp [mapLanes, List.getD_eq_getElem?_getD, List.getElem?_range hl, hw]

theorem mapLanes_length (who : LaneMask) (f : Nat → Nat × FpFlags) : (mapLanes who f).1.length = 32 := by simp [mapLanes]

theorem mapLanes_flags (who : LaneMask) (f : Nat → Nat × FpFlags) : (mapLanes who f).2 = opFlags who fun l => (f l).2 := by
  simp only [mapLanes, opFlags, orLanes, List.foldl_map]
  suffices ∀ (ls : List Nat), (∀ l ∈ ls, l < 32) → ∀ a : FpFlags, ls.foldl (fun x y => x ||| (if who.getLsbD y then f y else (0, 0)).2) a =
      ls.foldl (fun x y => if who.getLsbD y then x ||| ((List.range 32).map fun l => (f l).2).getD y 0 else x) a from
    this _ (fun l hl => by simpa using hl) 0
  intro ls hls
  induction ls with
  | nil => intro a; rfl
  | cons l ls ih =>
    intro a
    have hl := hls l (by simp)
    simp only [List.foldl_cons]
    rw [← ih fun m hm => hls m (by simp [hm])]
    congr 1
    split <;> simp [List.getD_eq_getElem?_getD, List.getElem?_range hl]

theorem opFlags_congr {who : LaneMask} {f g : Nat → FpFlags} (h : ∀ l < 32, f l = g l) : opFlags who f = opFlags who g := by
  unfold opFlags
  congr 1
  exact List.map_congr_left fun l hl => h l (by simpa using hl)

/-- Operations that raise no flag. -/
theorem opFlags_zero (who : LaneMask) : (opFlags who fun _ => 0) = 0 := by
  unfold opFlags orLanes
  suffices ∀ ls : List Nat, ls.foldl (fun a l => if who.getLsbD l then a ||| ((List.range 32).map fun _ => (0 : FpFlags)).getD l 0 else a) 0 = 0 from
    this _
  intro ls
  induction ls with
  | nil => rfl
  | cons l ls ih =>
    simp only [List.foldl_cons]
    have : ((List.range 32).map fun _ => (0 : FpFlags)).getD l 0 = 0 := by
      simp only [List.getD_eq_getElem?_getD, List.getElem?_map]
      cases (List.range 32)[l]? <;> rfl
    simp only [this]
    simpa using ih

/-! ## One unit of a lane word -/

/-- A lane word without REP whose unit passes its checks leaves what its operation gives. -/
theorem laneWord_effect {s : State} {i : Iss} {p : Accepts} {d a b : Nat} {mk : Cur → Nat → Nat → Nat → LaneOp}
    {srcs : List Src} {dsts : List Nat} {ws : List (Nat × BitVec 4 × List Nat)} {fl : FpFlags}
    {vals : List (Nat × BitVec 4 × (Nat → Nat))} (h : LaneUnit s i p srcs dsts)
    (hs : (mk i.c d a b).srcs i.wv = srcs) (hd : (mk i.c d a b).dsts i.wv = dsts) (he : (mk i.c d a b).extra i.wv = true)
    (ht : (mk i.c d a b).mismatch i.wv = none)
    (hr : (mk i.c d a b).run i.wv i.wv.regs.rndmode i.fr.live (srcs.map fun x => (readSrc i.wv x).1) = .ok ws fl)
    (hv : vals.map (fun x => (x.1, x.2.1)) = ws.map fun x => (x.1, x.2.1)) (hws : ws.map (·.1) = dsts) (hnd : dsts.Nodup)
    (hx : ∀ (k : Nat) (x : Nat × BitVec 4 × (Nat → Nat)) (y : Nat × BitVec 4 × List Nat), vals[k]? = some x → ws[k]? = some y →
      y.2.2.length = 32 ∧ ∀ l < 32, i.fr.live.getLsbD l = true → y.2.2.getD l 0 = x.2.2 l) :
    ∃ t, laneWord p d a b mk s = .next t ∧ LaneEffect s t i vals (fl ||| readFlags i.wv i.fr.live srcs) := by
  refine ⟨_, laneWord_once h hs hd he ht hr, ?_⟩
  apply LaneEffect.of_writes hv _ (by rw [hws]; exact hnd)
  · intro x hxm
    exact (h.destinations x.1 (by rw [← hws]; exact List.mem_map_of_mem hxm)).2
  · intro k x y hvk hyk l hl hlive
    have hlen := (hx k x y hvk hyk).1
    have hval := (hx k x y hvk hyk).2 l hl hlive
    have hl' : l < y.2.2.length := by omega
    rw [List.getD_eq_getElem?_getD, List.getElem?_eq_getElem hl'] at hval
    rw [List.getD_eq_getElem?_getD, List.getElem?_map, List.getElem?_eq_getElem hl']
    simp only [Option.getD_some] at hval
    simp [hval]

/-- The usual case: one destination, each lane's value by a function of the lane. -/
theorem laneWord_one {s : State} {i : Iss} {p : Accepts} {d a b n : Nat} {mk : Cur → Nat → Nat → Nat → LaneOp}
    {srcs : List Src} {tag : BitVec 4} {f : Nat → Nat × FpFlags} {val : Nat → Nat} {fl : FpFlags} (h : LaneUnit s i p srcs [n])
    (hs : (mk i.c d a b).srcs i.wv = srcs) (hd : (mk i.c d a b).dsts i.wv = [n]) (he : (mk i.c d a b).extra i.wv = true)
    (ht : (mk i.c d a b).mismatch i.wv = none)
    (hr : (mk i.c d a b).run i.wv i.wv.regs.rndmode i.fr.live (srcs.map fun x => (readSrc i.wv x).1) =
      out1 n tag (mapLanes i.fr.live f))
    (hval : ∀ l < 32, (f l).1 = val l) (hfl : opFlags i.fr.live (fun l => (f l).2) = fl) :
    ∃ t, laneWord p d a b mk s = .next t ∧
      LaneEffect s t i [(n, tag, val)] (fl ||| readFlags i.wv i.fr.live srcs) := by
  have := laneWord_effect (vals := [(n, tag, val)]) h hs hd he ht hr rfl rfl (by simp) (by
    intro k x y hx hy
    cases k with
    | succ k => simp at hx
    | zero =>
      simp only [List.getElem?_cons_zero, Option.some.injEq] at hx hy
      subst hx hy
      exact ⟨mapLanes_length _ _, fun l hl hw => by rw [mapLanes_val _ _ _ hl hw, hval l hl]⟩)
  rwa [mapLanes_flags, hfl] at this

/-! ## The shapes of LaneArith.lean -/

/-- d ← f a b. -/
theorem vv3_op2 {s : State} {i : Iss} {d a b : BitVec 7} {ea eb : Bool} {rd : Reader} {tag : BitVec 4}
    (f : Rnd → Nat → Nat → Nat × FpFlags)
    (h : LaneUnit s i { rep := some (true, true, true) } [vsrc 0 a rd ea, vsrc 1 b rd eb] [d.toNat]) :
    let r : Nat → Nat × FpFlags := fun l => f i.wv.regs.rndmode (laneOperand i.wv rd a.toNat l) (laneOperand i.wv rd b.toNat l)
    ∃ t, vv3 d a b ea eb (op2 rd tag f) s = .next t ∧
      LaneEffect s t i [(d.toNat, tag, fun l => (r l).1)]
        (opFlags i.fr.live (fun l => (r l).2) ||| readFlags i.wv i.fr.live [vsrc 0 a rd ea, vsrc 1 b rd eb]) := by
  refine laneWord_one (mk := fun _ d a b => op2 rd tag f d a b ea eb)
    (f := fun l => f i.wv.regs.rndmode (at_ ([vsrc 0 a rd ea, vsrc 1 b rd eb].map fun x => (readSrc i.wv x).1) 0 l)
      (at_ ([vsrc 0 a rd ea, vsrc 1 b rd eb].map fun x => (readSrc i.wv x).1) 1 l)) h rfl rfl rfl rfl rfl ?_ (opFlags_congr ?_) <;>
  · intro l hl
    simp only [at_, List.map, List.getD_cons_zero, List.getD_cons_succ, vsrc, readSrc_lane _ _ _ _ _ _ hl]

/-- d ← f a b z, z the old d. -/
theorem vv3_op3 {s : State} {i : Iss} {d a b : BitVec 7} {ea eb : Bool} {rd : Reader} {tag : BitVec 4}
    (f : Rnd → Nat → Nat → Nat → Nat × FpFlags)
    (h : LaneUnit s i { rep := some (true, true, true) } [vsrc 0 a rd ea, vsrc 1 b rd eb, vsrc 3 d rd false] [d.toNat]) :
    let r : Nat → Nat × FpFlags := fun l => f i.wv.regs.rndmode (laneOperand i.wv rd a.toNat l) (laneOperand i.wv rd b.toNat l)
      (laneOperand i.wv rd d.toNat l)
    ∃ t, vv3 d a b ea eb (op3 rd tag f) s = .next t ∧
      LaneEffect s t i [(d.toNat, tag, fun l => (r l).1)] (opFlags i.fr.live (fun l => (r l).2) |||
        readFlags i.wv i.fr.live [vsrc 0 a rd ea, vsrc 1 b rd eb, vsrc 3 d rd false]) := by
  refine laneWord_one (mk := fun _ d a b => op3 rd tag f d a b ea eb)
    (f := fun l =>
      f i.wv.regs.rndmode (at_ ([vsrc 0 a rd ea, vsrc 1 b rd eb, vsrc 3 d rd false].map fun x => (readSrc i.wv x).1) 0 l)
      (at_ ([vsrc 0 a rd ea, vsrc 1 b rd eb, vsrc 3 d rd false].map fun x => (readSrc i.wv x).1) 1 l)
      (at_ ([vsrc 0 a rd ea, vsrc 1 b rd eb, vsrc 3 d rd false].map fun x => (readSrc i.wv x).1) 2 l))
    h rfl rfl rfl rfl rfl ?_ (opFlags_congr ?_) <;>
  · intro l hl
    simp only [at_, List.map, List.getD_cons_zero, List.getD_cons_succ, vsrc, readSrc_lane _ _ _ _ _ _ hl]

/-- d ← f a. -/
theorem vv2_op1 {s : State} {i : Iss} {d a : BitVec 7} {ea : Bool} {rd : Reader} {tag : BitVec 4}
    (f : Rnd → Nat → Nat × FpFlags)
    (h : LaneUnit s i { rep := some (true, true, false) } [vsrc 0 a rd ea] [d.toNat]) :
    let r : Nat → Nat × FpFlags := fun l => f i.wv.regs.rndmode (laneOperand i.wv rd a.toNat l)
    ∃ t, vv2 d a ea (op1 rd tag f) s = .next t ∧
      LaneEffect s t i [(d.toNat, tag, fun l => (r l).1)]
        (opFlags i.fr.live (fun l => (r l).2) ||| readFlags i.wv i.fr.live [vsrc 0 a rd ea]) := by
  refine laneWord_one (mk := fun _ d a _ => op1 rd tag f d a ea)
    (f := fun l => f i.wv.regs.rndmode (at_ ([vsrc 0 a rd ea].map fun x => (readSrc i.wv x).1) 0 l))
    h rfl rfl rfl rfl rfl ?_ (opFlags_congr ?_) <;>
  · intro l hl
    simp only [at_, List.map, List.getD_cons_zero, vsrc, readSrc_lane _ _ _ _ _ _ hl]

/-- d ← f a imm. -/
theorem vi_op1 {s : State} {i : Iss} {d a : BitVec 7} {n : BitVec 11} {rd : Reader} {tag : BitVec 4} (f : Word → Word → Word)
    (h : LaneUnit s i { imm := true, rep := some (true, true, false) } [vsrc 0 a rd false] [d.toNat]) :
    ∃ t, vi d a n rd tag f s = .next t ∧
      LaneEffect s t i [(d.toNat, tag, fun l => (f (BitVec.ofNat 32 (laneOperand i.wv rd a.toNat l)) (imm32 i.c 11 n.toNat)).toNat)]
        (0 ||| readFlags i.wv i.fr.live [vsrc 0 a rd false]) := by
  refine laneWord_one (mk := fun c d a _ => op1 rd tag (fun _ x => noFl (f (w32 x) (imm32 c 11 n.toNat)).toNat) d a false)
    (f := fun l => noFl (f (w32 (at_ ([vsrc 0 a rd false].map fun x => (readSrc i.wv x).1) 0 l)) (imm32 i.c 11 n.toNat)).toNat)
    h rfl rfl rfl rfl rfl ?_ (opFlags_zero _)
  intro l hl
  simp only [at_, List.map, List.getD_cons_zero, vsrc, readSrc_lane _ _ _ _ _ _ hl, noFl, w32]

/-- The two registers of a pair of lane values. -/
theorem outPair_vals {i : Iss} {n : Nat} {lo hi : BitVec 4} {f : Nat → Nat × FpFlags} {val : Nat → Nat}
    (hval : ∀ l < 32, (f l).1 = val l) :
    ∀ (k : Nat) (x : Nat × BitVec 4 × (Nat → Nat)) (y : Nat × BitVec 4 × List Nat),
      [(n, lo, fun l => val l % 2 ^ 32), (n + 1, hi, fun l => val l / 2 ^ 32)][k]? = some x →
      [(n, lo, (mapLanes i.fr.live f).1.map (· % 2 ^ 32)), (n + 1, hi, (mapLanes i.fr.live f).1.map (· / 2 ^ 32))][k]? = some y →
      y.2.2.length = 32 ∧ ∀ l < 32, i.fr.live.getLsbD l = true → y.2.2.getD l 0 = x.2.2 l := by
  have hl' : ∀ l < 32, l < (mapLanes i.fr.live f).1.length := fun l hl => by rw [mapLanes_length]; exact hl
  have hv : ∀ l (hl : l < 32), i.fr.live.getLsbD l = true → (mapLanes i.fr.live f).1[l]'(hl' l hl) = val l := by
    intro l hl hw
    have := mapLanes_val i.fr.live f l hl hw
    rw [List.getD_eq_getElem?_getD, List.getElem?_eq_getElem (hl' l hl)] at this
    rw [← hval l hl, ← this]
    rfl
  intro k x y hx hy
  match k with
  | 0 =>
    simp only [List.getElem?_cons_zero, Option.some.injEq] at hx hy
    subst hx hy
    refine ⟨by simp [mapLanes_length], fun l hl hw => ?_⟩
    simp [List.getD_eq_getElem?_getD, List.getElem?_eq_getElem (hl' l hl), hv l hl hw]
  | 1 =>
    simp only [List.getElem?_cons_succ, List.getElem?_cons_zero, Option.some.injEq] at hx hy
    subst hx hy
    refine ⟨by simp [mapLanes_length], fun l hl hw => ?_⟩
    simp [List.getD_eq_getElem?_getD, List.getElem?_eq_getElem (hl' l hl), hv l hl hw]
  | k + 2 => simp at hx

/-- Pairs: (d, d + 1) ← f a b. -/
theorem vv3_opD2 {s : State} {i : Iss} {d a b : BitVec 7} {ea eb : Bool} (f : Rnd → Nat → Nat → Nat × FpFlags)
    (hd : d.toNat % 2 = 0) (ha : a.toNat % 2 = 0) (hb : b.toNat % 2 = 0)
    (h : LaneUnit s i { rep := some (true, true, true) } [vpair 0 a ea, vpair 1 b eb] [d.toNat, d.toNat + 1]) :
    let r : Nat → Nat × FpFlags := fun l => f i.wv.regs.rndmode (pairOperand i.wv a.toNat l) (pairOperand i.wv b.toNat l)
    ∃ t, vv3 d a b ea eb (opD2 f) s = .next t ∧
      LaneEffect s t i [(d.toNat, tFP64L, fun l => (r l).1 % 2 ^ 32), (d.toNat + 1, tFP64H, fun l => (r l).1 / 2 ^ 32)]
        (opFlags i.fr.live (fun l => (r l).2) ||| readFlags i.wv i.fr.live [vpair 0 a ea, vpair 1 b eb]) := by
  intro r
  let g : Nat → Nat × FpFlags := fun l =>
    f i.wv.regs.rndmode (at_ ([vpair 0 a ea, vpair 1 b eb].map fun x => (readSrc i.wv x).1) 0 l)
      (at_ ([vpair 0 a ea, vpair 1 b eb].map fun x => (readSrc i.wv x).1) 1 l)
  have hg : ∀ l < 32, g l = r l := by
    intro l hl
    simp only [g, r, at_, List.map, List.getD_cons_zero, List.getD_cons_succ, vpair, readSrc_pair _ _ _ _ _ hl]
  have := laneWord_effect (mk := fun _ d a b => opD2 f d a b ea eb) (d := d.toNat) (a := a.toNat) (b := b.toNat)
    (ws := [(d.toNat, tFP64L, (mapLanes i.fr.live g).1.map (· % 2 ^ 32)), (d.toNat + 1, tFP64H, (mapLanes i.fr.live g).1.map (· / 2 ^ 32))])
    (fl := (mapLanes i.fr.live g).2)
    (vals := [(d.toNat, tFP64L, fun l => (r l).1 % 2 ^ 32), (d.toNat + 1, tFP64H, fun l => (r l).1 / 2 ^ 32)])
    h rfl rfl (by simp [opD2, even, hd, ha, hb]) rfl rfl rfl rfl (by simp)
    (outPair_vals fun l hl => by rw [hg l hl])
  rw [mapLanes_flags, opFlags_congr fun l hl => by rw [hg l hl]] at this
  exact this

end Sys2Proof.Machine
end

