-- ==== Sys2Proof/Laws/Memory.lean ====
section
/-! SUPPORT. Memory in its canonical form: what each operation on the list of cells reads back, and that each keeps the
addresses strictly rising. -/

namespace Sys2Proof.Machine

open Host

theorem Memory.wf_tail {c : Cell} {m : List Cell} (h : Memory.wf (c :: m) = true) : Memory.wf m = true := by
  cases m with
  | nil => rfl
  | cons d t => simp [Memory.wf] at h; exact h.2

/-- In canonical memory every later address is above the first. -/
theorem Memory.wf_head_lt {c : Cell} {m : List Cell} (h : Memory.wf (c :: m) = true) : ∀ d ∈ m, c.1 < d.1 := by
  induction m generalizing c with
  | nil => simp
  | cons e t ih =>
    simp only [Memory.wf, Bool.and_eq_true, decide_eq_true_eq] at h
    intro d hd
    rcases List.mem_cons.mp hd with rfl | hd
    · exact h.1
    · exact lt_trans h.1 (ih h.2 d hd)

theorem Memory.wf_cons {c : Cell} {m : List Cell} (hm : Memory.wf m = true) (h : ∀ d ∈ m, c.1 < d.1) :
    Memory.wf (c :: m) = true := by
  cases m with
  | nil => rfl
  | cons d t => simp [Memory.wf, h d (by simp), hm]

theorem Memory.wf_filter {m : List Cell} (p : Cell → Bool) (h : Memory.wf m = true) : Memory.wf (m.filter p) = true := by
  induction m with
  | nil => rfl
  | cons c t ih =>
    have ht := ih (Memory.wf_tail h)
    by_cases hp : p c
    · rw [List.filter_cons_of_pos hp]
      exact Memory.wf_cons ht fun d hd => Memory.wf_head_lt h d (List.mem_of_mem_filter hd)
    · rw [List.filter_cons_of_neg hp]; exact ht

theorem memDrop_wf {m : List Cell} (lo hi : Nat) (h : Memory.wf m = true) : Memory.wf (memDrop m lo hi) = true :=
  Memory.wf_filter _ h

theorem mem_memSet {m : List Cell} {a : Nat} {b : Byte} {d : Cell} (h : d ∈ memSet m a b) : d = (a, b) ∨ d ∈ m := by
  induction m with
  | nil => simpa [memSet] using h
  | cons c t ih =>
    simp only [memSet] at h
    split at h
    · rcases List.mem_cons.mp h with h | h <;> simp [h]
    · split at h
      · rcases List.mem_cons.mp h with h | h
        · exact .inl h
        · exact .inr h
      · rcases List.mem_cons.mp h with h | h
        · simp [h]
        · rcases ih h with h | h <;> simp [h]

theorem memSet_wf {m : List Cell} (a : Nat) (b : Byte) (h : Memory.wf m = true) : Memory.wf (memSet m a b) = true := by
  induction m with
  | nil => rfl
  | cons c t ih =>
    have ht := Memory.wf_tail h
    have hlt := Memory.wf_head_lt h
    simp only [memSet]
    split
    · rename_i hc
      exact Memory.wf_cons ht fun d hd => by simpa [← hc] using hlt d hd
    · split
      · rename_i hc ha
        exact Memory.wf_cons h fun d hd => by
          rcases List.mem_cons.mp hd with rfl | hd
          · exact ha
          · exact lt_trans ha (hlt d hd)
      · rename_i hc ha
        refine Memory.wf_cons (ih ht) fun d hd => ?_
        rcases mem_memSet hd with rfl | hd
        · show c.1 < a
          omega
        · exact hlt d hd

theorem Memory.wf_append {m n : List Cell} (hm : Memory.wf m = true) (hn : Memory.wf n = true)
    (h : ∀ c ∈ m, ∀ d ∈ n, c.1 < d.1) : Memory.wf (m ++ n) = true := by
  induction m with
  | nil => exact hn
  | cons c t ih =>
    refine Memory.wf_cons (ih (Memory.wf_tail hm) fun x hx => h x (by simp [hx])) fun d hd => ?_
    rcases List.mem_append.mp hd with hd | hd
    · exact Memory.wf_head_lt hm d hd
    · exact h c (by simp) d hd

theorem mem_cellsAt {a : Nat} {bs : List Byte} {d : Cell} (h : d ∈ cellsAt a bs) : a ≤ d.1 ∧ d.1 < a + bs.length := by
  induction bs generalizing a with
  | nil => simp [cellsAt] at h
  | cons b bs ih =>
    simp only [cellsAt, List.mem_cons] at h
    rcases h with rfl | h
    · simp
    · have := ih h
      simp only [List.length_cons]; omega

theorem cellsAt_wf (a : Nat) (bs : List Byte) : Memory.wf (cellsAt a bs) = true := by
  induction bs generalizing a with
  | nil => rfl
  | cons b bs ih => exact Memory.wf_cons (ih _) fun d hd => (mem_cellsAt hd).1

theorem memSets_wf {m : List Cell} (a : Nat) (bs : List Byte) (h : Memory.wf m = true) : Memory.wf (memSets m a bs) = true := by
  refine Memory.wf_append (Memory.wf_append (Memory.wf_filter _ h) (cellsAt_wf _ _) ?_) (Memory.wf_filter _ h) ?_
  · intro c hc d hd
    have h1 := of_decide_eq_true (List.mem_filter.mp hc).2
    have h2 := mem_cellsAt hd
    exact lt_of_lt_of_le h1 h2.1
  · intro c hc d hd
    have h2 := of_decide_eq_true (List.mem_filter.mp hd).2
    rcases List.mem_append.mp hc with hc | hc
    · have h1 := of_decide_eq_true (List.mem_filter.mp hc).2
      omega
    · have := mem_cellsAt hc
      omega

/-- In canonical memory an address reads the byte of its one cell. -/
theorem memGet_eq_some {m : List Cell} (h : Memory.wf m = true) (x : Nat) (b : Byte) : memGet m x = some b ↔ (x, b) ∈ m := by
  induction m with
  | nil => simp [memGet]
  | cons c t ih =>
    have hlt := Memory.wf_head_lt h
    simp only [memGet]
    split
    · rename_i hc
      constructor
      · intro hb
        exact List.mem_cons.mpr (.inl (Prod.ext hc.symm (Option.some.inj hb).symm))
      · intro hb
        rcases List.mem_cons.mp hb with hb | hb
        · rw [← hb]
        · have := hlt _ hb; simp only at this; omega
    · rename_i hc
      split
      · rename_i hx
        constructor
        · simp
        · intro hb
          rcases List.mem_cons.mp hb with hb | hb
          · exact absurd (by rw [← hb]) hc
          · have := hlt _ hb; simp only at this; omega
      · rw [ih (Memory.wf_tail h)]
        constructor
        · exact fun hb => List.mem_cons_of_mem _ hb
        · intro hb
          rcases List.mem_cons.mp hb with hb | hb
          · exact absurd (by rw [← hb]) hc
          · exact hb

/-- A byte just stored is what the address reads. -/
theorem memGet_memSet_same (m : List Cell) (a : Nat) (b : Byte) : memGet (memSet m a b) a = some b := by
  induction m with
  | nil => simp [memSet, memGet]
  | cons c t ih =>
    simp only [memSet]
    split
    · simp [memGet]
    · split
      · simp [memGet]
      · rename_i h1 h2; simp [memGet, h1, h2, ih]

/-- A stored byte leaves every other address alone. -/
theorem memGet_memSet_other {m : List Cell} {a x : Nat} (b : Byte) (h : x ≠ a) (hm : Memory.wf m = true) :
    memGet (memSet m a b) x = memGet m x := by
  induction m with
  | nil => simp [memSet, memGet]; omega
  | cons c t ih =>
    have ht := ih (Memory.wf_tail hm)
    have hlt := Memory.wf_head_lt hm
    simp only [memSet]
    split
    · rename_i hc
      subst hc
      simp [memGet, Ne.symm h]
    · split
      · rename_i hc ha
        simp only [memGet]
        rw [if_neg (Ne.symm h)]
        split
        · rename_i hx
          rw [if_neg (by omega), if_pos (by omega)]
        · rfl
      · simp only [memGet]
        split
        · rfl
        · split
          · rfl
          · exact ht

/-- Stored bytes leave every address outside them alone. -/
theorem memGet_memSets_other {m : List Cell} {a x : Nat} (bs : List Byte) (h : x < a ∨ a + bs.length ≤ x)
    (hm : Memory.wf m = true) : memGet (memSets m a bs) x = memGet m x := by
  refine Option.ext fun b => ?_
  rw [memGet_eq_some (memSets_wf a bs hm), memGet_eq_some hm]
  simp only [memSets, List.mem_append, List.mem_filter, decide_eq_true_eq]
  constructor
  · rintro ((⟨h1, -⟩ | h1) | ⟨h1, -⟩)
    · exact h1
    · have := mem_cellsAt h1; simp only at this; omega
    · exact h1
  · intro h1
    rcases h with h | h
    · exact .inl (.inl ⟨h1, h⟩)
    · exact .inr ⟨h1, h⟩

/-- A stored byte is what its address reads. -/
theorem memGet_memSets_same {m : List Cell} (a k : Nat) (bs : List Byte) (hk : k < bs.length) (hm : Memory.wf m = true) :
    memGet (memSets m a bs) (a + k) = bs[k]? := by
  have key : ∀ (a : Nat) (bs : List Byte) (k : Nat), k < bs.length → ∃ b, bs[k]? = some b ∧ (a + k, b) ∈ cellsAt a bs := by
    intro a bs
    induction bs generalizing a with
    | nil => intro k h; simp at h
    | cons b bs ih =>
      intro k h
      cases k with
      | zero => exact ⟨b, by simp, by simp [cellsAt]⟩
      | succ k =>
        obtain ⟨c, h1, h2⟩ := ih (a + 1) k (by simpa using h)
        refine ⟨c, by simpa using h1, ?_⟩
        rw [show a + (k + 1) = a + 1 + k by omega]
        exact List.mem_cons_of_mem _ h2
  obtain ⟨b, h1, h2⟩ := key a bs k hk
  rw [h1, memGet_eq_some (memSets_wf a bs hm)]
  simp [memSets, h2]

theorem mergeDirty_wf {m : List Cell} (e : L1Word) (h : Memory.wf m = true) : Memory.wf (mergeDirty m e) = true := by
  unfold mergeDirty
  suffices ∀ (ks : List Nat) (m : List Cell), Memory.wf m = true → Memory.wf (ks.foldl
      (fun m k => if e.dm.getLsbD k then memSet m (4 * e.word + k) (byteOf e.data k) else m) m) = true from this _ m h
  intro ks
  induction ks with
  | nil => exact fun _ h => h
  | cons k ks ih =>
    intro m h
    refine ih _ ?_
    show Memory.wf (if _ then _ else _) = true
    split
    · exact memSet_wf _ _ h
    · exact h

theorem foldl_mergeDirty_wf {m : List Cell} (es : List L1Word) (h : Memory.wf m = true) :
    Memory.wf (es.foldl mergeDirty m) = true := by
  induction es generalizing m with
  | nil => exact h
  | cons e es ih => exact ih (mergeDirty_wf e h)

theorem State.recall_wf {s : State} (w : Nat) (h : Memory.wf s.mem = true) : Memory.wf (s.recall w).mem = true := by
  unfold State.recall
  split
  · exact h
  · exact mergeDirty_wf _ h

theorem State.recallSpan_wf {s : State} (pa n : Nat) (h : Memory.wf s.mem = true) : Memory.wf (s.recallSpan pa n).mem = true := by
  unfold State.recallSpan
  split
  · exact h
  · suffices ∀ (ks : List Nat) (s : State), Memory.wf s.mem = true →
        Memory.wf (ks.foldl (fun s k => State.recall s (pa / 4 + k)) s).mem = true from this _ s h
    intro ks
    induction ks with
    | nil => exact fun _ h => h
    | cons k ks ih => exact fun s h => ih _ (State.recall_wf _ h)

/-- A write at the homes keeps memory canonical. -/
theorem State.homeWrite_wf {s : State} (pa : Nat) (bs : List Byte) (h : Memory.wf s.mem = true) :
    Memory.wf (s.homeWrite pa bs).mem = true := memSets_wf _ _ (State.recallSpan_wf _ _ h)

theorem State.writeBack_wf {s : State} (core ctx : Nat) (sel : Nat → Bool) (h : Memory.wf s.mem = true) :
    Memory.wf (s.writeBack core ctx sel).mem = true := foldl_mergeDirty_wf _ h

theorem State.reset_memory_wf : Memory.wf State.reset.mem = true := rfl

end Sys2Proof.Machine
end

