-- ==== Sys2Proof/Laws/PerInstr.lean ====
section
/-! SUPPORT. Statements made per instruction. WordFits: the number the encoder builds for an instruction is the value of a
32-bit word (R23), so that no field of it runs over the top of the word. -/

namespace Sys2Proof

/-- The encoder's number is below 2^32. -/
def Laws.WordFits.Statement (i : Instr) : Prop := encodeNat i < 2 ^ 32

theorem pack_18_11_4_3_2_lt {m x0 x1 x2 x3 x4 b0 b1 b2 b3 b4 : Nat} (h0 : x0 < b0) (h1 : x1 < b1) (h2 : x2 < b2) (h3 : x3 < b3) (h4 : x4 < b4)
    (hm : m + b0 * 2 ^ 18 + b1 * 2 ^ 11 + b2 * 2 ^ 4 + b3 * 2 ^ 3 + b4 * 2 ^ 2 ≤ 2 ^ 32) : pack_18_11_4_3_2 m x0 x1 x2 x3 x4 < 2 ^ 32 := by
  unfold pack_18_11_4_3_2
  omega

theorem pack_18_11_3_lt {m x0 x1 x2 b0 b1 b2 : Nat} (h0 : x0 < b0) (h1 : x1 < b1) (h2 : x2 < b2)
    (hm : m + b0 * 2 ^ 18 + b1 * 2 ^ 11 + b2 * 2 ^ 3 ≤ 2 ^ 32) : pack_18_11_3 m x0 x1 x2 < 2 ^ 32 := by
  unfold pack_18_11_3
  omega

theorem pack_18_11_0_lt {m x0 x1 x2 b0 b1 b2 : Nat} (h0 : x0 < b0) (h1 : x1 < b1) (h2 : x2 < b2)
    (hm : m + b0 * 2 ^ 18 + b1 * 2 ^ 11 + b2 * 2 ^ 0 ≤ 2 ^ 32) : pack_18_11_0 m x0 x1 x2 < 2 ^ 32 := by
  unfold pack_18_11_0
  omega

theorem pack_18_11_9_0_lt {m x0 x1 x2 x3 b0 b1 b2 b3 : Nat} (h0 : x0 < b0) (h1 : x1 < b1) (h2 : x2 < b2) (h3 : x3 < b3)
    (hm : m + b0 * 2 ^ 18 + b1 * 2 ^ 11 + b2 * 2 ^ 9 + b3 * 2 ^ 0 ≤ 2 ^ 32) : pack_18_11_9_0 m x0 x1 x2 x3 < 2 ^ 32 := by
  unfold pack_18_11_9_0
  omega

theorem pack_18_0_lt {m x0 x1 b0 b1 : Nat} (h0 : x0 < b0) (h1 : x1 < b1)
    (hm : m + b0 * 2 ^ 18 + b1 * 2 ^ 0 ≤ 2 ^ 32) : pack_18_0 m x0 x1 < 2 ^ 32 := by
  unfold pack_18_0
  omega

theorem pack_18_11_4_3_lt {m x0 x1 x2 x3 b0 b1 b2 b3 : Nat} (h0 : x0 < b0) (h1 : x1 < b1) (h2 : x2 < b2) (h3 : x3 < b3)
    (hm : m + b0 * 2 ^ 18 + b1 * 2 ^ 11 + b2 * 2 ^ 4 + b3 * 2 ^ 3 ≤ 2 ^ 32) : pack_18_11_4_3 m x0 x1 x2 x3 < 2 ^ 32 := by
  unfold pack_18_11_4_3
  omega

theorem pack_18_11_8_4_3_lt {m x0 x1 x2 x3 x4 b0 b1 b2 b3 b4 : Nat} (h0 : x0 < b0) (h1 : x1 < b1) (h2 : x2 < b2) (h3 : x3 < b3) (h4 : x4 < b4)
    (hm : m + b0 * 2 ^ 18 + b1 * 2 ^ 11 + b2 * 2 ^ 8 + b3 * 2 ^ 4 + b4 * 2 ^ 3 ≤ 2 ^ 32) : pack_18_11_8_4_3 m x0 x1 x2 x3 x4 < 2 ^ 32 := by
  unfold pack_18_11_8_4_3
  omega

theorem pack_18_4_2_lt {m x0 x1 x2 b0 b1 b2 : Nat} (h0 : x0 < b0) (h1 : x1 < b1) (h2 : x2 < b2)
    (hm : m + b0 * 2 ^ 18 + b1 * 2 ^ 4 + b2 * 2 ^ 2 ≤ 2 ^ 32) : pack_18_4_2 m x0 x1 x2 < 2 ^ 32 := by
  unfold pack_18_4_2
  omega

theorem pack_18_lt {m x0 b0 : Nat} (h0 : x0 < b0)
    (hm : m + b0 * 2 ^ 18 ≤ 2 ^ 32) : pack_18 m x0 < 2 ^ 32 := by
  unfold pack_18
  omega

theorem pack_18_11_6_4_0_lt {m x0 x1 x2 x3 x4 b0 b1 b2 b3 b4 : Nat} (h0 : x0 < b0) (h1 : x1 < b1) (h2 : x2 < b2) (h3 : x3 < b3) (h4 : x4 < b4)
    (hm : m + b0 * 2 ^ 18 + b1 * 2 ^ 11 + b2 * 2 ^ 6 + b3 * 2 ^ 4 + b4 * 2 ^ 0 ≤ 2 ^ 32) : pack_18_11_6_4_0 m x0 x1 x2 x3 x4 < 2 ^ 32 := by
  unfold pack_18_11_6_4_0
  omega

theorem pack_11_6_4_0_lt {m x0 x1 x2 x3 b0 b1 b2 b3 : Nat} (h0 : x0 < b0) (h1 : x1 < b1) (h2 : x2 < b2) (h3 : x3 < b3)
    (hm : m + b0 * 2 ^ 11 + b1 * 2 ^ 6 + b2 * 2 ^ 4 + b3 * 2 ^ 0 ≤ 2 ^ 32) : pack_11_6_4_0 m x0 x1 x2 x3 < 2 ^ 32 := by
  unfold pack_11_6_4_0
  omega

theorem pack_18_11_4_3_2_0_lt {m x0 x1 x2 x3 x4 x5 b0 b1 b2 b3 b4 b5 : Nat} (h0 : x0 < b0) (h1 : x1 < b1) (h2 : x2 < b2) (h3 : x3 < b3) (h4 : x4 < b4) (h5 : x5 < b5)
    (hm : m + b0 * 2 ^ 18 + b1 * 2 ^ 11 + b2 * 2 ^ 4 + b3 * 2 ^ 3 + b4 * 2 ^ 2 + b5 * 2 ^ 0 ≤ 2 ^ 32) : pack_18_11_4_3_2_0 m x0 x1 x2 x3 x4 x5 < 2 ^ 32 := by
  unfold pack_18_11_4_3_2_0
  omega

theorem pack_11_4_3_2_lt {m x0 x1 x2 x3 b0 b1 b2 b3 : Nat} (h0 : x0 < b0) (h1 : x1 < b1) (h2 : x2 < b2) (h3 : x3 < b3)
    (hm : m + b0 * 2 ^ 11 + b1 * 2 ^ 4 + b2 * 2 ^ 3 + b3 * 2 ^ 2 ≤ 2 ^ 32) : pack_11_4_3_2 m x0 x1 x2 x3 < 2 ^ 32 := by
  unfold pack_11_4_3_2
  omega

theorem pack_11_4_3_lt {m x0 x1 x2 b0 b1 b2 : Nat} (h0 : x0 < b0) (h1 : x1 < b1) (h2 : x2 < b2)
    (hm : m + b0 * 2 ^ 11 + b1 * 2 ^ 4 + b2 * 2 ^ 3 ≤ 2 ^ 32) : pack_11_4_3 m x0 x1 x2 < 2 ^ 32 := by
  unfold pack_11_4_3
  omega

theorem pack_18_14_0_lt {m x0 x1 x2 b0 b1 b2 : Nat} (h0 : x0 < b0) (h1 : x1 < b1) (h2 : x2 < b2)
    (hm : m + b0 * 2 ^ 18 + b1 * 2 ^ 14 + b2 * 2 ^ 0 ≤ 2 ^ 32) : pack_18_14_0 m x0 x1 x2 < 2 ^ 32 := by
  unfold pack_18_14_0
  omega

theorem pack_11_3_lt {m x0 x1 b0 b1 : Nat} (h0 : x0 < b0) (h1 : x1 < b1)
    (hm : m + b0 * 2 ^ 11 + b1 * 2 ^ 3 ≤ 2 ^ 32) : pack_11_3 m x0 x1 < 2 ^ 32 := by
  unfold pack_11_3
  omega

theorem pack_18_11_4_lt {m x0 x1 x2 b0 b1 b2 : Nat} (h0 : x0 < b0) (h1 : x1 < b1) (h2 : x2 < b2)
    (hm : m + b0 * 2 ^ 18 + b1 * 2 ^ 11 + b2 * 2 ^ 4 ≤ 2 ^ 32) : pack_18_11_4 m x0 x1 x2 < 2 ^ 32 := by
  unfold pack_18_11_4
  omega

theorem pack_18_11_lt {m x0 x1 b0 b1 : Nat} (h0 : x0 < b0) (h1 : x1 < b1)
    (hm : m + b0 * 2 ^ 18 + b1 * 2 ^ 11 ≤ 2 ^ 32) : pack_18_11 m x0 x1 < 2 ^ 32 := by
  unfold pack_18_11
  omega

theorem pack_18_11_3_0_lt {m x0 x1 x2 x3 b0 b1 b2 b3 : Nat} (h0 : x0 < b0) (h1 : x1 < b1) (h2 : x2 < b2) (h3 : x3 < b3)
    (hm : m + b0 * 2 ^ 18 + b1 * 2 ^ 11 + b2 * 2 ^ 3 + b3 * 2 ^ 0 ≤ 2 ^ 32) : pack_18_11_3_0 m x0 x1 x2 x3 < 2 ^ 32 := by
  unfold pack_18_11_3_0
  omega

theorem pack_18_11_4_0_lt {m x0 x1 x2 x3 b0 b1 b2 b3 : Nat} (h0 : x0 < b0) (h1 : x1 < b1) (h2 : x2 < b2) (h3 : x3 < b3)
    (hm : m + b0 * 2 ^ 18 + b1 * 2 ^ 11 + b2 * 2 ^ 4 + b3 * 2 ^ 0 ≤ 2 ^ 32) : pack_18_11_4_0 m x0 x1 x2 x3 < 2 ^ 32 := by
  unfold pack_18_11_4_0
  omega

theorem pack_18_4_lt {m x0 x1 b0 b1 : Nat} (h0 : x0 < b0) (h1 : x1 < b1)
    (hm : m + b0 * 2 ^ 18 + b1 * 2 ^ 4 ≤ 2 ^ 32) : pack_18_4 m x0 x1 < 2 ^ 32 := by
  unfold pack_18_4
  omega

theorem pack_4_lt {m x0 b0 : Nat} (h0 : x0 < b0)
    (hm : m + b0 * 2 ^ 4 ≤ 2 ^ 32) : pack_4 m x0 < 2 ^ 32 := by
  unfold pack_4
  omega

theorem pack_11_0_lt {m x0 x1 b0 b1 : Nat} (h0 : x0 < b0) (h1 : x1 < b1)
    (hm : m + b0 * 2 ^ 11 + b1 * 2 ^ 0 ≤ 2 ^ 32) : pack_11_0 m x0 x1 < 2 ^ 32 := by
  unfold pack_11_0
  omega

theorem pack_11_lt {m x0 b0 : Nat} (h0 : x0 < b0)
    (hm : m + b0 * 2 ^ 11 ≤ 2 ^ 32) : pack_11 m x0 < 2 ^ 32 := by
  unfold pack_11
  omega

theorem pack_0_lt {m x0 b0 : Nat} (h0 : x0 < b0)
    (hm : m + b0 * 2 ^ 0 ≤ 2 ^ 32) : pack_0 m x0 < 2 ^ 32 := by
  unfold pack_0
  omega

theorem pack_18_17_16_15_12_lt {m x0 x1 x2 x3 x4 b0 b1 b2 b3 b4 : Nat} (h0 : x0 < b0) (h1 : x1 < b1) (h2 : x2 < b2) (h3 : x3 < b3) (h4 : x4 < b4)
    (hm : m + b0 * 2 ^ 18 + b1 * 2 ^ 17 + b2 * 2 ^ 16 + b3 * 2 ^ 15 + b4 * 2 ^ 12 ≤ 2 ^ 32) : pack_18_17_16_15_12 m x0 x1 x2 x3 x4 < 2 ^ 32 := by
  unfold pack_18_17_16_15_12
  omega

theorem pack_20_lt {m x0 b0 : Nat} (h0 : x0 < b0)
    (hm : m + b0 * 2 ^ 20 ≤ 2 ^ 32) : pack_20 m x0 < 2 ^ 32 := by
  unfold pack_20
  omega

theorem Laws.WordFits.vadd (d : BitVec 7) (a : BitVec 7) (b : BitVec 7) (ea : Bool) (eb : Bool) : Laws.WordFits.Statement (.vadd d a b ea eb) :=
  pack_18_11_4_3_2_lt d.isLt a.isLt b.isLt (Bool.toNat_lt ea) (Bool.toNat_lt eb) (Nat.le_of_ble_eq_true rfl)
theorem Laws.WordFits.vsub (d : BitVec 7) (a : BitVec 7) (b : BitVec 7) (ea : Bool) (eb : Bool) : Laws.WordFits.Statement (.vsub d a b ea eb) :=
  pack_18_11_4_3_2_lt d.isLt a.isLt b.isLt (Bool.toNat_lt ea) (Bool.toNat_lt eb) (Nat.le_of_ble_eq_true rfl)
theorem Laws.WordFits.vmul (d : BitVec 7) (a : BitVec 7) (b : BitVec 7) (ea : Bool) (eb : Bool) : Laws.WordFits.Statement (.vmul d a b ea eb) :=
  pack_18_11_4_3_2_lt d.isLt a.isLt b.isLt (Bool.toNat_lt ea) (Bool.toNat_lt eb) (Nat.le_of_ble_eq_true rfl)
theorem Laws.WordFits.vmulh (d : BitVec 7) (a : BitVec 7) (b : BitVec 7) (ea : Bool) (eb : Bool) : Laws.WordFits.Statement (.vmulh d a b ea eb) :=
  pack_18_11_4_3_2_lt d.isLt a.isLt b.isLt (Bool.toNat_lt ea) (Bool.toNat_lt eb) (Nat.le_of_ble_eq_true rfl)
theorem Laws.WordFits.vand (d : BitVec 7) (a : BitVec 7) (b : BitVec 7) (ea : Bool) (eb : Bool) : Laws.WordFits.Statement (.vand d a b ea eb) :=
  pack_18_11_4_3_2_lt d.isLt a.isLt b.isLt (Bool.toNat_lt ea) (Bool.toNat_lt eb) (Nat.le_of_ble_eq_true rfl)
theorem Laws.WordFits.vor (d : BitVec 7) (a : BitVec 7) (b : BitVec 7) (ea : Bool) (eb : Bool) : Laws.WordFits.Statement (.vor d a b ea eb) :=
  pack_18_11_4_3_2_lt d.isLt a.isLt b.isLt (Bool.toNat_lt ea) (Bool.toNat_lt eb) (Nat.le_of_ble_eq_true rfl)
theorem Laws.WordFits.vxor (d : BitVec 7) (a : BitVec 7) (b : BitVec 7) (ea : Bool) (eb : Bool) : Laws.WordFits.Statement (.vxor d a b ea eb) :=
  pack_18_11_4_3_2_lt d.isLt a.isLt b.isLt (Bool.toNat_lt ea) (Bool.toNat_lt eb) (Nat.le_of_ble_eq_true rfl)
theorem Laws.WordFits.vandn (d : BitVec 7) (a : BitVec 7) (b : BitVec 7) (ea : Bool) (eb : Bool) : Laws.WordFits.Statement (.vandn d a b ea eb) :=
  pack_18_11_4_3_2_lt d.isLt a.isLt b.isLt (Bool.toNat_lt ea) (Bool.toNat_lt eb) (Nat.le_of_ble_eq_true rfl)
theorem Laws.WordFits.vshl (d : BitVec 7) (a : BitVec 7) (b : BitVec 7) (ea : Bool) (eb : Bool) : Laws.WordFits.Statement (.vshl d a b ea eb) :=
  pack_18_11_4_3_2_lt d.isLt a.isLt b.isLt (Bool.toNat_lt ea) (Bool.toNat_lt eb) (Nat.le_of_ble_eq_true rfl)
theorem Laws.WordFits.vshr (d : BitVec 7) (a : BitVec 7) (b : BitVec 7) (ea : Bool) (eb : Bool) : Laws.WordFits.Statement (.vshr d a b ea eb) :=
  pack_18_11_4_3_2_lt d.isLt a.isLt b.isLt (Bool.toNat_lt ea) (Bool.toNat_lt eb) (Nat.le_of_ble_eq_true rfl)
theorem Laws.WordFits.vsar (d : BitVec 7) (a : BitVec 7) (b : BitVec 7) (ea : Bool) (eb : Bool) : Laws.WordFits.Statement (.vsar d a b ea eb) :=
  pack_18_11_4_3_2_lt d.isLt a.isLt b.isLt (Bool.toNat_lt ea) (Bool.toNat_lt eb) (Nat.le_of_ble_eq_true rfl)
theorem Laws.WordFits.vrot (d : BitVec 7) (a : BitVec 7) (b : BitVec 7) (ea : Bool) (eb : Bool) : Laws.WordFits.Statement (.vrot d a b ea eb) :=
  pack_18_11_4_3_2_lt d.isLt a.isLt b.isLt (Bool.toNat_lt ea) (Bool.toNat_lt eb) (Nat.le_of_ble_eq_true rfl)
theorem Laws.WordFits.vmin (d : BitVec 7) (a : BitVec 7) (b : BitVec 7) (ea : Bool) (eb : Bool) : Laws.WordFits.Statement (.vmin d a b ea eb) :=
  pack_18_11_4_3_2_lt d.isLt a.isLt b.isLt (Bool.toNat_lt ea) (Bool.toNat_lt eb) (Nat.le_of_ble_eq_true rfl)
theorem Laws.WordFits.vmax (d : BitVec 7) (a : BitVec 7) (b : BitVec 7) (ea : Bool) (eb : Bool) : Laws.WordFits.Statement (.vmax d a b ea eb) :=
  pack_18_11_4_3_2_lt d.isLt a.isLt b.isLt (Bool.toNat_lt ea) (Bool.toNat_lt eb) (Nat.le_of_ble_eq_true rfl)
theorem Laws.WordFits.vminu (d : BitVec 7) (a : BitVec 7) (b : BitVec 7) (ea : Bool) (eb : Bool) : Laws.WordFits.Statement (.vminu d a b ea eb) :=
  pack_18_11_4_3_2_lt d.isLt a.isLt b.isLt (Bool.toNat_lt ea) (Bool.toNat_lt eb) (Nat.le_of_ble_eq_true rfl)
theorem Laws.WordFits.vmaxu (d : BitVec 7) (a : BitVec 7) (b : BitVec 7) (ea : Bool) (eb : Bool) : Laws.WordFits.Statement (.vmaxu d a b ea eb) :=
  pack_18_11_4_3_2_lt d.isLt a.isLt b.isLt (Bool.toNat_lt ea) (Bool.toNat_lt eb) (Nat.le_of_ble_eq_true rfl)
theorem Laws.WordFits.vceq (d : BitVec 7) (a : BitVec 7) (b : BitVec 7) (ea : Bool) (eb : Bool) : Laws.WordFits.Statement (.vceq d a b ea eb) :=
  pack_18_11_4_3_2_lt d.isLt a.isLt b.isLt (Bool.toNat_lt ea) (Bool.toNat_lt eb) (Nat.le_of_ble_eq_true rfl)
theorem Laws.WordFits.vcne (d : BitVec 7) (a : BitVec 7) (b : BitVec 7) (ea : Bool) (eb : Bool) : Laws.WordFits.Statement (.vcne d a b ea eb) :=
  pack_18_11_4_3_2_lt d.isLt a.isLt b.isLt (Bool.toNat_lt ea) (Bool.toNat_lt eb) (Nat.le_of_ble_eq_true rfl)
theorem Laws.WordFits.vclt (d : BitVec 7) (a : BitVec 7) (b : BitVec 7) (ea : Bool) (eb : Bool) : Laws.WordFits.Statement (.vclt d a b ea eb) :=
  pack_18_11_4_3_2_lt d.isLt a.isLt b.isLt (Bool.toNat_lt ea) (Bool.toNat_lt eb) (Nat.le_of_ble_eq_true rfl)
theorem Laws.WordFits.vcltu (d : BitVec 7) (a : BitVec 7) (b : BitVec 7) (ea : Bool) (eb : Bool) : Laws.WordFits.Statement (.vcltu d a b ea eb) :=
  pack_18_11_4_3_2_lt d.isLt a.isLt b.isLt (Bool.toNat_lt ea) (Bool.toNat_lt eb) (Nat.le_of_ble_eq_true rfl)
theorem Laws.WordFits.vsel (d : BitVec 7) (a : BitVec 7) (b : BitVec 7) (ea : Bool) (eb : Bool) : Laws.WordFits.Statement (.vsel d a b ea eb) :=
  pack_18_11_4_3_2_lt d.isLt a.isLt b.isLt (Bool.toNat_lt ea) (Bool.toNat_lt eb) (Nat.le_of_ble_eq_true rfl)
theorem Laws.WordFits.vabs (d : BitVec 7) (a : BitVec 7) (ea : Bool) : Laws.WordFits.Statement (.vabs d a ea) :=
  pack_18_11_3_lt d.isLt a.isLt (Bool.toNat_lt ea) (Nat.le_of_ble_eq_true rfl)
theorem Laws.WordFits.vclz (d : BitVec 7) (a : BitVec 7) (ea : Bool) : Laws.WordFits.Statement (.vclz d a ea) :=
  pack_18_11_3_lt d.isLt a.isLt (Bool.toNat_lt ea) (Nat.le_of_ble_eq_true rfl)
theorem Laws.WordFits.vpopc (d : BitVec 7) (a : BitVec 7) (ea : Bool) : Laws.WordFits.Statement (.vpopc d a ea) :=
  pack_18_11_3_lt d.isLt a.isLt (Bool.toNat_lt ea) (Nat.le_of_ble_eq_true rfl)
theorem Laws.WordFits.vmad (d : BitVec 7) (a : BitVec 7) (b : BitVec 7) (ea : Bool) (eb : Bool) : Laws.WordFits.Statement (.vmad d a b ea eb) :=
  pack_18_11_4_3_2_lt d.isLt a.isLt b.isLt (Bool.toNat_lt ea) (Bool.toNat_lt eb) (Nat.le_of_ble_eq_true rfl)
theorem Laws.WordFits.vdiv (d : BitVec 7) (a : BitVec 7) (b : BitVec 7) (ea : Bool) (eb : Bool) : Laws.WordFits.Statement (.vdiv d a b ea eb) :=
  pack_18_11_4_3_2_lt d.isLt a.isLt b.isLt (Bool.toNat_lt ea) (Bool.toNat_lt eb) (Nat.le_of_ble_eq_true rfl)
theorem Laws.WordFits.vdivu (d : BitVec 7) (a : BitVec 7) (b : BitVec 7) (ea : Bool) (eb : Bool) : Laws.WordFits.Statement (.vdivu d a b ea eb) :=
  pack_18_11_4_3_2_lt d.isLt a.isLt b.isLt (Bool.toNat_lt ea) (Bool.toNat_lt eb) (Nat.le_of_ble_eq_true rfl)
theorem Laws.WordFits.vrem (d : BitVec 7) (a : BitVec 7) (b : BitVec 7) (ea : Bool) (eb : Bool) : Laws.WordFits.Statement (.vrem d a b ea eb) :=
  pack_18_11_4_3_2_lt d.isLt a.isLt b.isLt (Bool.toNat_lt ea) (Bool.toNat_lt eb) (Nat.le_of_ble_eq_true rfl)
theorem Laws.WordFits.vaddi (d : BitVec 7) (a : BitVec 7) (i : BitVec 11) : Laws.WordFits.Statement (.vaddi d a i) :=
  pack_18_11_0_lt d.isLt a.isLt i.isLt (Nat.le_of_ble_eq_true rfl)
theorem Laws.WordFits.vandi (d : BitVec 7) (a : BitVec 7) (i : BitVec 11) : Laws.WordFits.Statement (.vandi d a i) :=
  pack_18_11_0_lt d.isLt a.isLt i.isLt (Nat.le_of_ble_eq_true rfl)
theorem Laws.WordFits.vori (d : BitVec 7) (a : BitVec 7) (i : BitVec 11) : Laws.WordFits.Statement (.vori d a i) :=
  pack_18_11_0_lt d.isLt a.isLt i.isLt (Nat.le_of_ble_eq_true rfl)
theorem Laws.WordFits.vxori (d : BitVec 7) (a : BitVec 7) (i : BitVec 11) : Laws.WordFits.Statement (.vxori d a i) :=
  pack_18_11_0_lt d.isLt a.isLt i.isLt (Nat.le_of_ble_eq_true rfl)
theorem Laws.WordFits.vshi (d : BitVec 7) (a : BitVec 7) (k : BitVec 2) (n : BitVec 5) : Laws.WordFits.Statement (.vshi d a k n) :=
  pack_18_11_9_0_lt d.isLt a.isLt k.isLt n.isLt (Nat.le_of_ble_eq_true rfl)
theorem Laws.WordFits.vmovi (d : BitVec 7) (i : BitVec 11) : Laws.WordFits.Statement (.vmovi d i) :=
  pack_18_0_lt d.isLt i.isLt (Nat.le_of_ble_eq_true rfl)
theorem Laws.WordFits.vfadd (d : BitVec 7) (a : BitVec 7) (b : BitVec 7) (ea : Bool) (eb : Bool) : Laws.WordFits.Statement (.vfadd d a b ea eb) :=
  pack_18_11_4_3_2_lt d.isLt a.isLt b.isLt (Bool.toNat_lt ea) (Bool.toNat_lt eb) (Nat.le_of_ble_eq_true rfl)
theorem Laws.WordFits.vfsub (d : BitVec 7) (a : BitVec 7) (b : BitVec 7) (ea : Bool) (eb : Bool) : Laws.WordFits.Statement (.vfsub d a b ea eb) :=
  pack_18_11_4_3_2_lt d.isLt a.isLt b.isLt (Bool.toNat_lt ea) (Bool.toNat_lt eb) (Nat.le_of_ble_eq_true rfl)
theorem Laws.WordFits.vfmul (d : BitVec 7) (a : BitVec 7) (b : BitVec 7) (ea : Bool) (eb : Bool) : Laws.WordFits.Statement (.vfmul d a b ea eb) :=
  pack_18_11_4_3_2_lt d.isLt a.isLt b.isLt (Bool.toNat_lt ea) (Bool.toNat_lt eb) (Nat.le_of_ble_eq_true rfl)
theorem Laws.WordFits.vfmin (d : BitVec 7) (a : BitVec 7) (b : BitVec 7) (ea : Bool) (eb : Bool) : Laws.WordFits.Statement (.vfmin d a b ea eb) :=
  pack_18_11_4_3_2_lt d.isLt a.isLt b.isLt (Bool.toNat_lt ea) (Bool.toNat_lt eb) (Nat.le_of_ble_eq_true rfl)
theorem Laws.WordFits.vfma (d : BitVec 7) (a : BitVec 7) (b : BitVec 7) (ea : Bool) (eb : Bool) : Laws.WordFits.Statement (.vfma d a b ea eb) :=
  pack_18_11_4_3_2_lt d.isLt a.isLt b.isLt (Bool.toNat_lt ea) (Bool.toNat_lt eb) (Nat.le_of_ble_eq_true rfl)
theorem Laws.WordFits.vfnma (d : BitVec 7) (a : BitVec 7) (b : BitVec 7) (ea : Bool) (eb : Bool) : Laws.WordFits.Statement (.vfnma d a b ea eb) :=
  pack_18_11_4_3_2_lt d.isLt a.isLt b.isLt (Bool.toNat_lt ea) (Bool.toNat_lt eb) (Nat.le_of_ble_eq_true rfl)
theorem Laws.WordFits.vfmax (d : BitVec 7) (a : BitVec 7) (b : BitVec 7) (ea : Bool) (eb : Bool) : Laws.WordFits.Statement (.vfmax d a b ea eb) :=
  pack_18_11_4_3_2_lt d.isLt a.isLt b.isLt (Bool.toNat_lt ea) (Bool.toNat_lt eb) (Nat.le_of_ble_eq_true rfl)
theorem Laws.WordFits.vfcpsgn (d : BitVec 7) (a : BitVec 7) (b : BitVec 7) (ea : Bool) (eb : Bool) : Laws.WordFits.Statement (.vfcpsgn d a b ea eb) :=
  pack_18_11_4_3_2_lt d.isLt a.isLt b.isLt (Bool.toNat_lt ea) (Bool.toNat_lt eb) (Nat.le_of_ble_eq_true rfl)
theorem Laws.WordFits.vfceq (d : BitVec 7) (a : BitVec 7) (b : BitVec 7) (ea : Bool) (eb : Bool) : Laws.WordFits.Statement (.vfceq d a b ea eb) :=
  pack_18_11_4_3_2_lt d.isLt a.isLt b.isLt (Bool.toNat_lt ea) (Bool.toNat_lt eb) (Nat.le_of_ble_eq_true rfl)
theorem Laws.WordFits.vfclt (d : BitVec 7) (a : BitVec 7) (b : BitVec 7) (ea : Bool) (eb : Bool) : Laws.WordFits.Statement (.vfclt d a b ea eb) :=
  pack_18_11_4_3_2_lt d.isLt a.isLt b.isLt (Bool.toNat_lt ea) (Bool.toNat_lt eb) (Nat.le_of_ble_eq_true rfl)
theorem Laws.WordFits.vfcle (d : BitVec 7) (a : BitVec 7) (b : BitVec 7) (ea : Bool) (eb : Bool) : Laws.WordFits.Statement (.vfcle d a b ea eb) :=
  pack_18_11_4_3_2_lt d.isLt a.isLt b.isLt (Bool.toNat_lt ea) (Bool.toNat_lt eb) (Nat.le_of_ble_eq_true rfl)
theorem Laws.WordFits.vfcun (d : BitVec 7) (a : BitVec 7) (b : BitVec 7) (ea : Bool) (eb : Bool) : Laws.WordFits.Statement (.vfcun d a b ea eb) :=
  pack_18_11_4_3_2_lt d.isLt a.isLt b.isLt (Bool.toNat_lt ea) (Bool.toNat_lt eb) (Nat.le_of_ble_eq_true rfl)
theorem Laws.WordFits.vdadd (d : BitVec 7) (a : BitVec 7) (b : BitVec 7) (ea : Bool) (eb : Bool) : Laws.WordFits.Statement (.vdadd d a b ea eb) :=
  pack_18_11_4_3_2_lt d.isLt a.isLt b.isLt (Bool.toNat_lt ea) (Bool.toNat_lt eb) (Nat.le_of_ble_eq_true rfl)
theorem Laws.WordFits.vdsub (d : BitVec 7) (a : BitVec 7) (b : BitVec 7) (ea : Bool) (eb : Bool) : Laws.WordFits.Statement (.vdsub d a b ea eb) :=
  pack_18_11_4_3_2_lt d.isLt a.isLt b.isLt (Bool.toNat_lt ea) (Bool.toNat_lt eb) (Nat.le_of_ble_eq_true rfl)
theorem Laws.WordFits.vdmul (d : BitVec 7) (a : BitVec 7) (b : BitVec 7) (ea : Bool) (eb : Bool) : Laws.WordFits.Statement (.vdmul d a b ea eb) :=
  pack_18_11_4_3_2_lt d.isLt a.isLt b.isLt (Bool.toNat_lt ea) (Bool.toNat_lt eb) (Nat.le_of_ble_eq_true rfl)
theorem Laws.WordFits.vdfma (d : BitVec 7) (a : BitVec 7) (b : BitVec 7) (ea : Bool) (eb : Bool) : Laws.WordFits.Statement (.vdfma d a b ea eb) :=
  pack_18_11_4_3_2_lt d.isLt a.isLt b.isLt (Bool.toNat_lt ea) (Bool.toNat_lt eb) (Nat.le_of_ble_eq_true rfl)
theorem Laws.WordFits.vdmin (d : BitVec 7) (a : BitVec 7) (b : BitVec 7) (ea : Bool) (eb : Bool) : Laws.WordFits.Statement (.vdmin d a b ea eb) :=
  pack_18_11_4_3_2_lt d.isLt a.isLt b.isLt (Bool.toNat_lt ea) (Bool.toNat_lt eb) (Nat.le_of_ble_eq_true rfl)
theorem Laws.WordFits.vdmax (d : BitVec 7) (a : BitVec 7) (b : BitVec 7) (ea : Bool) (eb : Bool) : Laws.WordFits.Statement (.vdmax d a b ea eb) :=
  pack_18_11_4_3_2_lt d.isLt a.isLt b.isLt (Bool.toNat_lt ea) (Bool.toNat_lt eb) (Nat.le_of_ble_eq_true rfl)
theorem Laws.WordFits.vdceq (d : BitVec 7) (a : BitVec 7) (b : BitVec 7) (ea : Bool) (eb : Bool) : Laws.WordFits.Statement (.vdceq d a b ea eb) :=
  pack_18_11_4_3_2_lt d.isLt a.isLt b.isLt (Bool.toNat_lt ea) (Bool.toNat_lt eb) (Nat.le_of_ble_eq_true rfl)
theorem Laws.WordFits.vdclt (d : BitVec 7) (a : BitVec 7) (b : BitVec 7) (ea : Bool) (eb : Bool) : Laws.WordFits.Statement (.vdclt d a b ea eb) :=
  pack_18_11_4_3_2_lt d.isLt a.isLt b.isLt (Bool.toNat_lt ea) (Bool.toNat_lt eb) (Nat.le_of_ble_eq_true rfl)
theorem Laws.WordFits.vhadd (d : BitVec 7) (a : BitVec 7) (b : BitVec 7) (ea : Bool) (eb : Bool) : Laws.WordFits.Statement (.vhadd d a b ea eb) :=
  pack_18_11_4_3_2_lt d.isLt a.isLt b.isLt (Bool.toNat_lt ea) (Bool.toNat_lt eb) (Nat.le_of_ble_eq_true rfl)
theorem Laws.WordFits.vhmul (d : BitVec 7) (a : BitVec 7) (b : BitVec 7) (ea : Bool) (eb : Bool) : Laws.WordFits.Statement (.vhmul d a b ea eb) :=
  pack_18_11_4_3_2_lt d.isLt a.isLt b.isLt (Bool.toNat_lt ea) (Bool.toNat_lt eb) (Nat.le_of_ble_eq_true rfl)
theorem Laws.WordFits.vhfma (d : BitVec 7) (a : BitVec 7) (b : BitVec 7) (ea : Bool) (eb : Bool) : Laws.WordFits.Statement (.vhfma d a b ea eb) :=
  pack_18_11_4_3_2_lt d.isLt a.isLt b.isLt (Bool.toNat_lt ea) (Bool.toNat_lt eb) (Nat.le_of_ble_eq_true rfl)
theorem Laws.WordFits.vhmax (d : BitVec 7) (a : BitVec 7) (b : BitVec 7) (ea : Bool) (eb : Bool) : Laws.WordFits.Statement (.vhmax d a b ea eb) :=
  pack_18_11_4_3_2_lt d.isLt a.isLt b.isLt (Bool.toNat_lt ea) (Bool.toNat_lt eb) (Nat.le_of_ble_eq_true rfl)
theorem Laws.WordFits.vbadd (d : BitVec 7) (a : BitVec 7) (b : BitVec 7) (ea : Bool) (eb : Bool) : Laws.WordFits.Statement (.vbadd d a b ea eb) :=
  pack_18_11_4_3_2_lt d.isLt a.isLt b.isLt (Bool.toNat_lt ea) (Bool.toNat_lt eb) (Nat.le_of_ble_eq_true rfl)
theorem Laws.WordFits.vbmul (d : BitVec 7) (a : BitVec 7) (b : BitVec 7) (ea : Bool) (eb : Bool) : Laws.WordFits.Statement (.vbmul d a b ea eb) :=
  pack_18_11_4_3_2_lt d.isLt a.isLt b.isLt (Bool.toNat_lt ea) (Bool.toNat_lt eb) (Nat.le_of_ble_eq_true rfl)
theorem Laws.WordFits.vbfma (d : BitVec 7) (a : BitVec 7) (b : BitVec 7) (ea : Bool) (eb : Bool) : Laws.WordFits.Statement (.vbfma d a b ea eb) :=
  pack_18_11_4_3_2_lt d.isLt a.isLt b.isLt (Bool.toNat_lt ea) (Bool.toNat_lt eb) (Nat.le_of_ble_eq_true rfl)
theorem Laws.WordFits.vbmax (d : BitVec 7) (a : BitVec 7) (b : BitVec 7) (ea : Bool) (eb : Bool) : Laws.WordFits.Statement (.vbmax d a b ea eb) :=
  pack_18_11_4_3_2_lt d.isLt a.isLt b.isLt (Bool.toNat_lt ea) (Bool.toNat_lt eb) (Nat.le_of_ble_eq_true rfl)
theorem Laws.WordFits.vrcp (d : BitVec 7) (a : BitVec 7) (ea : Bool) : Laws.WordFits.Statement (.vrcp d a ea) :=
  pack_18_11_3_lt d.isLt a.isLt (Bool.toNat_lt ea) (Nat.le_of_ble_eq_true rfl)
theorem Laws.WordFits.vrsq (d : BitVec 7) (a : BitVec 7) (ea : Bool) : Laws.WordFits.Statement (.vrsq d a ea) :=
  pack_18_11_3_lt d.isLt a.isLt (Bool.toNat_lt ea) (Nat.le_of_ble_eq_true rfl)
theorem Laws.WordFits.vsqrt (d : BitVec 7) (a : BitVec 7) (ea : Bool) : Laws.WordFits.Statement (.vsqrt d a ea) :=
  pack_18_11_3_lt d.isLt a.isLt (Bool.toNat_lt ea) (Nat.le_of_ble_eq_true rfl)
theorem Laws.WordFits.vexp2 (d : BitVec 7) (a : BitVec 7) (ea : Bool) : Laws.WordFits.Statement (.vexp2 d a ea) :=
  pack_18_11_3_lt d.isLt a.isLt (Bool.toNat_lt ea) (Nat.le_of_ble_eq_true rfl)
theorem Laws.WordFits.vlog2 (d : BitVec 7) (a : BitVec 7) (ea : Bool) : Laws.WordFits.Statement (.vlog2 d a ea) :=
  pack_18_11_3_lt d.isLt a.isLt (Bool.toNat_lt ea) (Nat.le_of_ble_eq_true rfl)
theorem Laws.WordFits.vsin (d : BitVec 7) (a : BitVec 7) (ea : Bool) : Laws.WordFits.Statement (.vsin d a ea) :=
  pack_18_11_3_lt d.isLt a.isLt (Bool.toNat_lt ea) (Nat.le_of_ble_eq_true rfl)
theorem Laws.WordFits.vcos (d : BitVec 7) (a : BitVec 7) (ea : Bool) : Laws.WordFits.Statement (.vcos d a ea) :=
  pack_18_11_3_lt d.isLt a.isLt (Bool.toNat_lt ea) (Nat.le_of_ble_eq_true rfl)
theorem Laws.WordFits.vfclass (d : BitVec 7) (a : BitVec 7) (ea : Bool) : Laws.WordFits.Statement (.vfclass d a ea) :=
  pack_18_11_3_lt d.isLt a.isLt (Bool.toNat_lt ea) (Nat.le_of_ble_eq_true rfl)
theorem Laws.WordFits.vcvt (d : BitVec 7) (a : BitVec 7) (s : BitVec 7) (ea : Bool) : Laws.WordFits.Statement (.vcvt d a s ea) :=
  pack_18_11_4_3_lt d.isLt a.isLt s.isLt (Bool.toNat_lt ea) (Nat.le_of_ble_eq_true rfl)
theorem Laws.WordFits.vcvts (d : BitVec 7) (a : BitVec 7) (s : BitVec 7) (ea : Bool) : Laws.WordFits.Statement (.vcvts d a s ea) :=
  pack_18_11_4_3_lt d.isLt a.isLt s.isLt (Bool.toNat_lt ea) (Nat.le_of_ble_eq_true rfl)
theorem Laws.WordFits.vretag (d : BitVec 7) (a : BitVec 7) (c : BitVec 4) (ea : Bool) : Laws.WordFits.Statement (.vretag d a c ea) :=
  pack_18_11_4_3_lt d.isLt a.isLt c.isLt (Bool.toNat_lt ea) (Nat.le_of_ble_eq_true rfl)
theorem Laws.WordFits.vgettag (d : BitVec 7) (a : BitVec 7) (ea : Bool) : Laws.WordFits.Statement (.vgettag d a ea) :=
  pack_18_11_3_lt d.isLt a.isLt (Bool.toNat_lt ea) (Nat.le_of_ble_eq_true rfl)
theorem Laws.WordFits.vqswap (d : BitVec 7) (a : BitVec 7) (k : BitVec 7) (ea : Bool) : Laws.WordFits.Statement (.vqswap d a k ea) :=
  pack_18_11_4_3_lt d.isLt a.isLt k.isLt (Bool.toNat_lt ea) (Nat.le_of_ble_eq_true rfl)
theorem Laws.WordFits.vqbcast (d : BitVec 7) (a : BitVec 7) (j : BitVec 7) (ea : Bool) : Laws.WordFits.Statement (.vqbcast d a j ea) :=
  pack_18_11_4_3_lt d.isLt a.isLt j.isLt (Bool.toNat_lt ea) (Nat.le_of_ble_eq_true rfl)
theorem Laws.WordFits.vddx (d : BitVec 7) (a : BitVec 7) (m : BitVec 7) (ea : Bool) : Laws.WordFits.Statement (.vddx d a m ea) :=
  pack_18_11_4_3_lt d.isLt a.isLt m.isLt (Bool.toNat_lt ea) (Nat.le_of_ble_eq_true rfl)
theorem Laws.WordFits.vddy (d : BitVec 7) (a : BitVec 7) (m : BitVec 7) (ea : Bool) : Laws.WordFits.Statement (.vddy d a m ea) :=
  pack_18_11_4_3_lt d.isLt a.isLt m.isLt (Bool.toNat_lt ea) (Nat.le_of_ble_eq_true rfl)
theorem Laws.WordFits.vshfl (d : BitVec 7) (a : BitVec 7) (b : BitVec 7) (ea : Bool) (eb : Bool) : Laws.WordFits.Statement (.vshfl d a b ea eb) :=
  pack_18_11_4_3_2_lt d.isLt a.isLt b.isLt (Bool.toNat_lt ea) (Bool.toNat_lt eb) (Nat.le_of_ble_eq_true rfl)
theorem Laws.WordFits.vballot (d : BitVec 7) (a : BitVec 7) (ea : Bool) : Laws.WordFits.Statement (.vballot d a ea) :=
  pack_18_11_3_lt d.isLt a.isLt (Bool.toNat_lt ea) (Nat.le_of_ble_eq_true rfl)
theorem Laws.WordFits.vreduce (d : BitVec 7) (a : BitVec 7) (o : BitVec 4) (ea : Bool) : Laws.WordFits.Statement (.vreduce d a o ea) :=
  pack_18_11_4_3_lt d.isLt a.isLt o.isLt (Bool.toNat_lt ea) (Nat.le_of_ble_eq_true rfl)
theorem Laws.WordFits.vscan (d : BitVec 7) (a : BitVec 7) (e : Bool) (o : BitVec 4) (ea : Bool) : Laws.WordFits.Statement (.vscan d a e o ea) :=
  pack_18_11_8_4_3_lt d.isLt a.isLt (Bool.toNat_lt e) o.isLt (Bool.toNat_lt ea) (Nat.le_of_ble_eq_true rfl)
theorem Laws.WordFits.vmovs (d : BitVec 7) (b : BitVec 7) (eb : Bool) : Laws.WordFits.Statement (.vmovs d b eb) :=
  pack_18_4_2_lt d.isLt b.isLt (Bool.toNat_lt eb) (Nat.le_of_ble_eq_true rfl)
theorem Laws.WordFits.vlaneid (d : BitVec 7) : Laws.WordFits.Statement (.vlaneid d) :=
  pack_18_lt d.isLt (Nat.le_of_ble_eq_true rfl)
theorem Laws.WordFits.vreadlane (d : BitVec 7) (a : BitVec 7) (b : BitVec 7) (ea : Bool) (eb : Bool) : Laws.WordFits.Statement (.vreadlane d a b ea eb) :=
  pack_18_11_4_3_2_lt d.isLt a.isLt b.isLt (Bool.toNat_lt ea) (Bool.toNat_lt eb) (Nat.le_of_ble_eq_true rfl)
theorem Laws.WordFits.vmark (d : BitVec 7) (a : BitVec 7) (ea : Bool) : Laws.WordFits.Statement (.vmark d a ea) :=
  pack_18_11_3_lt d.isLt a.isLt (Bool.toNat_lt ea) (Nat.le_of_ble_eq_true rfl)
theorem Laws.WordFits.vld (d : BitVec 7) (a : BitVec 7) (s : BitVec 5) (k : BitVec 2) (f : BitVec 4) : Laws.WordFits.Statement (.vld d a s k f) :=
  pack_18_11_6_4_0_lt d.isLt a.isLt s.isLt k.isLt f.isLt (Nat.le_of_ble_eq_true rfl)
theorem Laws.WordFits.vst (d : BitVec 7) (a : BitVec 7) (s : BitVec 5) (k : BitVec 2) (f : BitVec 4) : Laws.WordFits.Statement (.vst d a s k f) :=
  pack_18_11_6_4_0_lt d.isLt a.isLt s.isLt k.isLt f.isLt (Nat.le_of_ble_eq_true rfl)
theorem Laws.WordFits.vldp (d : BitVec 7) (a : BitVec 7) (s : BitVec 5) (k : BitVec 2) (f : BitVec 4) : Laws.WordFits.Statement (.vldp d a s k f) :=
  pack_18_11_6_4_0_lt d.isLt a.isLt s.isLt k.isLt f.isLt (Nat.le_of_ble_eq_true rfl)
theorem Laws.WordFits.vstp (d : BitVec 7) (a : BitVec 7) (s : BitVec 5) (k : BitVec 2) (f : BitVec 4) : Laws.WordFits.Statement (.vstp d a s k f) :=
  pack_18_11_6_4_0_lt d.isLt a.isLt s.isLt k.isLt f.isLt (Nat.le_of_ble_eq_true rfl)
theorem Laws.WordFits.vatom (d : BitVec 7) (a : BitVec 7) (s : BitVec 5) (k : BitVec 2) (f : BitVec 4) : Laws.WordFits.Statement (.vatom d a s k f) :=
  pack_18_11_6_4_0_lt d.isLt a.isLt s.isLt k.isLt f.isLt (Nat.le_of_ble_eq_true rfl)
theorem Laws.WordFits.vred (d : BitVec 7) (a : BitVec 7) (s : BitVec 5) (k : BitVec 2) (f : BitVec 4) : Laws.WordFits.Statement (.vred d a s k f) :=
  pack_18_11_6_4_0_lt d.isLt a.isLt s.isLt k.isLt f.isLt (Nat.le_of_ble_eq_true rfl)
theorem Laws.WordFits.vatomx (d : BitVec 7) (a : BitVec 7) (s : BitVec 5) (k : BitVec 2) (n : BitVec 4) : Laws.WordFits.Statement (.vatomx d a s k n) :=
  pack_18_11_6_4_0_lt d.isLt a.isLt s.isLt k.isLt n.isLt (Nat.le_of_ble_eq_true rfl)
theorem Laws.WordFits.vpref (a : BitVec 7) (s : BitVec 5) (k : BitVec 2) (f : BitVec 4) : Laws.WordFits.Statement (.vpref a s k f) :=
  pack_11_6_4_0_lt a.isLt s.isLt k.isLt f.isLt (Nat.le_of_ble_eq_true rfl)
theorem Laws.WordFits.vtrace (d : BitVec 7) (a : BitVec 7) (b : BitVec 7) (ea : Bool) (eb : Bool) (f : BitVec 2) : Laws.WordFits.Statement (.vtrace d a b ea eb f) :=
  pack_18_11_4_3_2_0_lt d.isLt a.isLt b.isLt (Bool.toNat_lt ea) (Bool.toNat_lt eb) f.isLt (Nat.le_of_ble_eq_true rfl)
theorem Laws.WordFits.vsample (d : BitVec 7) (a : BitVec 7) (b : BitVec 7) (ea : Bool) (eb : Bool) (f : BitVec 2) : Laws.WordFits.Statement (.vsample d a b ea eb f) :=
  pack_18_11_4_3_2_0_lt d.isLt a.isLt b.isLt (Bool.toNat_lt ea) (Bool.toNat_lt eb) f.isLt (Nat.le_of_ble_eq_true rfl)
theorem Laws.WordFits.vsvc (d : BitVec 7) (a : BitVec 7) (b : BitVec 7) (ea : Bool) (eb : Bool) : Laws.WordFits.Statement (.vsvc d a b ea eb) :=
  pack_18_11_4_3_2_lt d.isLt a.isLt b.isLt (Bool.toNat_lt ea) (Bool.toNat_lt eb) (Nat.le_of_ble_eq_true rfl)
theorem Laws.WordFits.vsvcn (a : BitVec 7) (b : BitVec 7) (ea : Bool) (eb : Bool) : Laws.WordFits.Statement (.vsvcn a b ea eb) :=
  pack_11_4_3_2_lt a.isLt b.isLt (Bool.toNat_lt ea) (Bool.toNat_lt eb) (Nat.le_of_ble_eq_true rfl)
theorem Laws.WordFits.vfwd (a : BitVec 7) (b : BitVec 7) (ea : Bool) (eb : Bool) : Laws.WordFits.Statement (.vfwd a b ea eb) :=
  pack_11_4_3_2_lt a.isLt b.isLt (Bool.toNat_lt ea) (Bool.toNat_lt eb) (Nat.le_of_ble_eq_true rfl)
theorem Laws.WordFits.vfwdt (d : BitVec 7) (a : BitVec 7) (b : BitVec 7) (ea : Bool) (eb : Bool) : Laws.WordFits.Statement (.vfwdt d a b ea eb) :=
  pack_18_11_4_3_2_lt d.isLt a.isLt b.isLt (Bool.toNat_lt ea) (Bool.toNat_lt eb) (Nat.le_of_ble_eq_true rfl)
theorem Laws.WordFits.venter (a : BitVec 7) (b : BitVec 7) (ea : Bool) (eb : Bool) : Laws.WordFits.Statement (.venter a b ea eb) :=
  pack_11_4_3_2_lt a.isLt b.isLt (Bool.toNat_lt ea) (Bool.toNat_lt eb) (Nat.le_of_ble_eq_true rfl)
theorem Laws.WordFits.ventert (d : BitVec 7) (a : BitVec 7) (b : BitVec 7) (ea : Bool) (eb : Bool) : Laws.WordFits.Statement (.ventert d a b ea eb) :=
  pack_18_11_4_3_2_lt d.isLt a.isLt b.isLt (Bool.toNat_lt ea) (Bool.toNat_lt eb) (Nat.le_of_ble_eq_true rfl)
theorem Laws.WordFits.vleave (a : BitVec 7) (r : Bool) (ea : Bool) : Laws.WordFits.Statement (.vleave a r ea) :=
  pack_11_4_3_lt a.isLt (Bool.toNat_lt r) (Bool.toNat_lt ea) (Nat.le_of_ble_eq_true rfl)
theorem Laws.WordFits.vsecq (d : BitVec 7) (a : BitVec 7) (ea : Bool) : Laws.WordFits.Statement (.vsecq d a ea) :=
  pack_18_11_3_lt d.isLt a.isLt (Bool.toNat_lt ea) (Nat.le_of_ble_eq_true rfl)
theorem Laws.WordFits.vbnz (a : BitVec 7) (p : BitVec 4) (o : BitVec 14) : Laws.WordFits.Statement (.vbnz a p o) :=
  pack_18_14_0_lt a.isLt p.isLt o.isLt (Nat.le_of_ble_eq_true rfl)
theorem Laws.WordFits.vbz (a : BitVec 7) (p : BitVec 4) (o : BitVec 14) : Laws.WordFits.Statement (.vbz a p o) :=
  pack_18_14_0_lt a.isLt p.isLt o.isLt (Nat.le_of_ble_eq_true rfl)
theorem Laws.WordFits.vjr (a : BitVec 7) (ea : Bool) : Laws.WordFits.Statement (.vjr a ea) :=
  pack_11_3_lt a.isLt (Bool.toNat_lt ea) (Nat.le_of_ble_eq_true rfl)
theorem Laws.WordFits.vjalr (d : BitVec 7) (a : BitVec 7) (ea : Bool) : Laws.WordFits.Statement (.vjalr d a ea) :=
  pack_18_11_3_lt d.isLt a.isLt (Bool.toNat_lt ea) (Nat.le_of_ble_eq_true rfl)
theorem Laws.WordFits.vexit : Laws.WordFits.Statement .vexit := show encodeNat .vexit < 2 ^ 32 from of_decide_eq_true rfl
theorem Laws.WordFits.vtrap (a : BitVec 7) (ea : Bool) : Laws.WordFits.Statement (.vtrap a ea) :=
  pack_11_3_lt a.isLt (Bool.toNat_lt ea) (Nat.le_of_ble_eq_true rfl)
theorem Laws.WordFits.sadd (d : BitVec 7) (a : BitVec 7) (b : BitVec 7) : Laws.WordFits.Statement (.sadd d a b) :=
  pack_18_11_4_lt d.isLt a.isLt b.isLt (Nat.le_of_ble_eq_true rfl)
theorem Laws.WordFits.ssub (d : BitVec 7) (a : BitVec 7) (b : BitVec 7) : Laws.WordFits.Statement (.ssub d a b) :=
  pack_18_11_4_lt d.isLt a.isLt b.isLt (Nat.le_of_ble_eq_true rfl)
theorem Laws.WordFits.smul (d : BitVec 7) (a : BitVec 7) (b : BitVec 7) : Laws.WordFits.Statement (.smul d a b) :=
  pack_18_11_4_lt d.isLt a.isLt b.isLt (Nat.le_of_ble_eq_true rfl)
theorem Laws.WordFits.smulh (d : BitVec 7) (a : BitVec 7) (b : BitVec 7) : Laws.WordFits.Statement (.smulh d a b) :=
  pack_18_11_4_lt d.isLt a.isLt b.isLt (Nat.le_of_ble_eq_true rfl)
theorem Laws.WordFits.sand (d : BitVec 7) (a : BitVec 7) (b : BitVec 7) : Laws.WordFits.Statement (.sand d a b) :=
  pack_18_11_4_lt d.isLt a.isLt b.isLt (Nat.le_of_ble_eq_true rfl)
theorem Laws.WordFits.sor (d : BitVec 7) (a : BitVec 7) (b : BitVec 7) : Laws.WordFits.Statement (.sor d a b) :=
  pack_18_11_4_lt d.isLt a.isLt b.isLt (Nat.le_of_ble_eq_true rfl)
theorem Laws.WordFits.sxor (d : BitVec 7) (a : BitVec 7) (b : BitVec 7) : Laws.WordFits.Statement (.sxor d a b) :=
  pack_18_11_4_lt d.isLt a.isLt b.isLt (Nat.le_of_ble_eq_true rfl)
theorem Laws.WordFits.sandn (d : BitVec 7) (a : BitVec 7) (b : BitVec 7) : Laws.WordFits.Statement (.sandn d a b) :=
  pack_18_11_4_lt d.isLt a.isLt b.isLt (Nat.le_of_ble_eq_true rfl)
theorem Laws.WordFits.sshl (d : BitVec 7) (a : BitVec 7) (b : BitVec 7) : Laws.WordFits.Statement (.sshl d a b) :=
  pack_18_11_4_lt d.isLt a.isLt b.isLt (Nat.le_of_ble_eq_true rfl)
theorem Laws.WordFits.sshr (d : BitVec 7) (a : BitVec 7) (b : BitVec 7) : Laws.WordFits.Statement (.sshr d a b) :=
  pack_18_11_4_lt d.isLt a.isLt b.isLt (Nat.le_of_ble_eq_true rfl)
theorem Laws.WordFits.ssar (d : BitVec 7) (a : BitVec 7) (b : BitVec 7) : Laws.WordFits.Statement (.ssar d a b) :=
  pack_18_11_4_lt d.isLt a.isLt b.isLt (Nat.le_of_ble_eq_true rfl)
theorem Laws.WordFits.srot (d : BitVec 7) (a : BitVec 7) (b : BitVec 7) : Laws.WordFits.Statement (.srot d a b) :=
  pack_18_11_4_lt d.isLt a.isLt b.isLt (Nat.le_of_ble_eq_true rfl)
theorem Laws.WordFits.smin (d : BitVec 7) (a : BitVec 7) (b : BitVec 7) : Laws.WordFits.Statement (.smin d a b) :=
  pack_18_11_4_lt d.isLt a.isLt b.isLt (Nat.le_of_ble_eq_true rfl)
theorem Laws.WordFits.smax (d : BitVec 7) (a : BitVec 7) (b : BitVec 7) : Laws.WordFits.Statement (.smax d a b) :=
  pack_18_11_4_lt d.isLt a.isLt b.isLt (Nat.le_of_ble_eq_true rfl)
theorem Laws.WordFits.sminu (d : BitVec 7) (a : BitVec 7) (b : BitVec 7) : Laws.WordFits.Statement (.sminu d a b) :=
  pack_18_11_4_lt d.isLt a.isLt b.isLt (Nat.le_of_ble_eq_true rfl)
theorem Laws.WordFits.smaxu (d : BitVec 7) (a : BitVec 7) (b : BitVec 7) : Laws.WordFits.Statement (.smaxu d a b) :=
  pack_18_11_4_lt d.isLt a.isLt b.isLt (Nat.le_of_ble_eq_true rfl)
theorem Laws.WordFits.sceq (d : BitVec 7) (a : BitVec 7) (b : BitVec 7) : Laws.WordFits.Statement (.sceq d a b) :=
  pack_18_11_4_lt d.isLt a.isLt b.isLt (Nat.le_of_ble_eq_true rfl)
theorem Laws.WordFits.scne (d : BitVec 7) (a : BitVec 7) (b : BitVec 7) : Laws.WordFits.Statement (.scne d a b) :=
  pack_18_11_4_lt d.isLt a.isLt b.isLt (Nat.le_of_ble_eq_true rfl)
theorem Laws.WordFits.sclt (d : BitVec 7) (a : BitVec 7) (b : BitVec 7) : Laws.WordFits.Statement (.sclt d a b) :=
  pack_18_11_4_lt d.isLt a.isLt b.isLt (Nat.le_of_ble_eq_true rfl)
theorem Laws.WordFits.scltu (d : BitVec 7) (a : BitVec 7) (b : BitVec 7) : Laws.WordFits.Statement (.scltu d a b) :=
  pack_18_11_4_lt d.isLt a.isLt b.isLt (Nat.le_of_ble_eq_true rfl)
theorem Laws.WordFits.ssel (d : BitVec 7) (a : BitVec 7) (b : BitVec 7) : Laws.WordFits.Statement (.ssel d a b) :=
  pack_18_11_4_lt d.isLt a.isLt b.isLt (Nat.le_of_ble_eq_true rfl)
theorem Laws.WordFits.sclz (d : BitVec 7) (a : BitVec 7) : Laws.WordFits.Statement (.sclz d a) :=
  pack_18_11_lt d.isLt a.isLt (Nat.le_of_ble_eq_true rfl)
theorem Laws.WordFits.spopc (d : BitVec 7) (a : BitVec 7) : Laws.WordFits.Statement (.spopc d a) :=
  pack_18_11_lt d.isLt a.isLt (Nat.le_of_ble_eq_true rfl)
theorem Laws.WordFits.sdivu (d : BitVec 7) (a : BitVec 7) (b : BitVec 7) : Laws.WordFits.Statement (.sdivu d a b) :=
  pack_18_11_4_lt d.isLt a.isLt b.isLt (Nat.le_of_ble_eq_true rfl)
theorem Laws.WordFits.saddi (d : BitVec 7) (a : BitVec 7) (i : BitVec 11) : Laws.WordFits.Statement (.saddi d a i) :=
  pack_18_11_0_lt d.isLt a.isLt i.isLt (Nat.le_of_ble_eq_true rfl)
theorem Laws.WordFits.sandi (d : BitVec 7) (a : BitVec 7) (i : BitVec 11) : Laws.WordFits.Statement (.sandi d a i) :=
  pack_18_11_0_lt d.isLt a.isLt i.isLt (Nat.le_of_ble_eq_true rfl)
theorem Laws.WordFits.sori (d : BitVec 7) (a : BitVec 7) (i : BitVec 11) : Laws.WordFits.Statement (.sori d a i) :=
  pack_18_11_0_lt d.isLt a.isLt i.isLt (Nat.le_of_ble_eq_true rfl)
theorem Laws.WordFits.sshi (d : BitVec 7) (a : BitVec 7) (k : BitVec 2) (n : BitVec 6) : Laws.WordFits.Statement (.sshi d a k n) :=
  pack_18_11_9_0_lt d.isLt a.isLt k.isLt n.isLt (Nat.le_of_ble_eq_true rfl)
theorem Laws.WordFits.smovi (d : BitVec 7) (i : BitVec 18) : Laws.WordFits.Statement (.smovi d i) :=
  pack_18_0_lt d.isLt i.isLt (Nat.le_of_ble_eq_true rfl)
theorem Laws.WordFits.sfadd (d : BitVec 7) (a : BitVec 7) (b : BitVec 7) : Laws.WordFits.Statement (.sfadd d a b) :=
  pack_18_11_4_lt d.isLt a.isLt b.isLt (Nat.le_of_ble_eq_true rfl)
theorem Laws.WordFits.sfmul (d : BitVec 7) (a : BitVec 7) (b : BitVec 7) : Laws.WordFits.Statement (.sfmul d a b) :=
  pack_18_11_4_lt d.isLt a.isLt b.isLt (Nat.le_of_ble_eq_true rfl)
theorem Laws.WordFits.sffma (d : BitVec 7) (a : BitVec 7) (b : BitVec 7) : Laws.WordFits.Statement (.sffma d a b) :=
  pack_18_11_4_lt d.isLt a.isLt b.isLt (Nat.le_of_ble_eq_true rfl)
theorem Laws.WordFits.sfclt (d : BitVec 7) (a : BitVec 7) (b : BitVec 7) : Laws.WordFits.Statement (.sfclt d a b) :=
  pack_18_11_4_lt d.isLt a.isLt b.isLt (Nat.le_of_ble_eq_true rfl)
theorem Laws.WordFits.sld (d : BitVec 7) (a : BitVec 7) (i : BitVec 8) (w : BitVec 3) : Laws.WordFits.Statement (.sld d a i w) :=
  pack_18_11_3_0_lt d.isLt a.isLt i.isLt w.isLt (Nat.le_of_ble_eq_true rfl)
theorem Laws.WordFits.sst (d : BitVec 7) (a : BitVec 7) (i : BitVec 8) (w : BitVec 3) : Laws.WordFits.Statement (.sst d a i w) :=
  pack_18_11_3_0_lt d.isLt a.isLt i.isLt w.isLt (Nat.le_of_ble_eq_true rfl)
theorem Laws.WordFits.satom (d : BitVec 7) (a : BitVec 7) (b : BitVec 7) (f : BitVec 4) : Laws.WordFits.Statement (.satom d a b f) :=
  pack_18_11_4_0_lt d.isLt a.isLt b.isLt f.isLt (Nat.le_of_ble_eq_true rfl)
theorem Laws.WordFits.sbz (a : BitVec 7) (p : BitVec 4) (o : BitVec 14) : Laws.WordFits.Statement (.sbz a p o) :=
  pack_18_14_0_lt a.isLt p.isLt o.isLt (Nat.le_of_ble_eq_true rfl)
theorem Laws.WordFits.sbnz (a : BitVec 7) (p : BitVec 4) (o : BitVec 14) : Laws.WordFits.Statement (.sbnz a p o) :=
  pack_18_14_0_lt a.isLt p.isLt o.isLt (Nat.le_of_ble_eq_true rfl)
theorem Laws.WordFits.scall (d : BitVec 7) (i : BitVec 18) : Laws.WordFits.Statement (.scall d i) :=
  pack_18_0_lt d.isLt i.isLt (Nat.le_of_ble_eq_true rfl)
theorem Laws.WordFits.sjr (d : BitVec 7) (a : BitVec 7) : Laws.WordFits.Statement (.sjr d a) :=
  pack_18_11_lt d.isLt a.isLt (Nat.le_of_ble_eq_true rfl)
theorem Laws.WordFits.sexit : Laws.WordFits.Statement .sexit := show encodeNat .sexit < 2 ^ 32 from of_decide_eq_true rfl
theorem Laws.WordFits.syield : Laws.WordFits.Statement .syield := show encodeNat .syield < 2 ^ 32 from of_decide_eq_true rfl
theorem Laws.WordFits.sconv : Laws.WordFits.Statement .sconv := show encodeNat .sconv < 2 ^ 32 from of_decide_eq_true rfl
theorem Laws.WordFits.sfrag (d : BitVec 7) : Laws.WordFits.Statement (.sfrag d) :=
  pack_18_lt d.isLt (Nat.le_of_ble_eq_true rfl)
theorem Laws.WordFits.slive (d : BitVec 7) : Laws.WordFits.Statement (.slive d) :=
  pack_18_lt d.isLt (Nat.le_of_ble_eq_true rfl)
theorem Laws.WordFits.binit (a : BitVec 7) (b : BitVec 7) : Laws.WordFits.Statement (.binit a b) :=
  pack_18_11_lt a.isLt b.isLt (Nat.le_of_ble_eq_true rfl)
theorem Laws.WordFits.barrive (a : BitVec 7) (b : BitVec 7) (c : BitVec 7) : Laws.WordFits.Statement (.barrive a b c) :=
  pack_18_11_4_lt a.isLt b.isLt c.isLt (Nat.le_of_ble_eq_true rfl)
theorem Laws.WordFits.barrivec (a : BitVec 7) (b : BitVec 7) (c : BitVec 7) : Laws.WordFits.Statement (.barrivec a b c) :=
  pack_18_11_4_lt a.isLt b.isLt c.isLt (Nat.le_of_ble_eq_true rfl)
theorem Laws.WordFits.bexpect (a : BitVec 7) (b : BitVec 7) : Laws.WordFits.Statement (.bexpect a b) :=
  pack_18_11_lt a.isLt b.isLt (Nat.le_of_ble_eq_true rfl)
theorem Laws.WordFits.bwait (a : BitVec 7) (b : BitVec 7) : Laws.WordFits.Statement (.bwait a b) :=
  pack_18_11_lt a.isLt b.isLt (Nat.le_of_ble_eq_true rfl)
theorem Laws.WordFits.btest (a : BitVec 7) (b : BitVec 7) (c : BitVec 7) : Laws.WordFits.Statement (.btest a b c) :=
  pack_18_11_4_lt a.isLt b.isLt c.isLt (Nat.le_of_ble_eq_true rfl)
theorem Laws.WordFits.bwatch (a : BitVec 7) (b : BitVec 7) : Laws.WordFits.Statement (.bwatch a b) :=
  pack_18_11_lt a.isLt b.isLt (Nat.le_of_ble_eq_true rfl)
theorem Laws.WordFits.gridbar (a : BitVec 7) : Laws.WordFits.Statement (.gridbar a) :=
  pack_18_lt a.isLt (Nat.le_of_ble_eq_true rfl)
theorem Laws.WordFits.fencesc (a : BitVec 7) : Laws.WordFits.Statement (.fencesc a) :=
  pack_18_lt a.isLt (Nat.le_of_ble_eq_true rfl)
theorem Laws.WordFits.acq (a : BitVec 7) (b : BitVec 7) : Laws.WordFits.Statement (.acq a b) :=
  pack_18_11_lt a.isLt b.isLt (Nat.le_of_ble_eq_true rfl)
theorem Laws.WordFits.rel (a : BitVec 7) (b : BitVec 7) : Laws.WordFits.Statement (.rel a b) :=
  pack_18_11_lt a.isLt b.isLt (Nat.le_of_ble_eq_true rfl)
theorem Laws.WordFits.tokpass (a : BitVec 7) (b : BitVec 7) : Laws.WordFits.Statement (.tokpass a b) :=
  pack_18_11_lt a.isLt b.isLt (Nat.le_of_ble_eq_true rfl)
theorem Laws.WordFits.tokreq (a : BitVec 7) (b : BitVec 7) : Laws.WordFits.Statement (.tokreq a b) :=
  pack_18_11_lt a.isLt b.isLt (Nat.le_of_ble_eq_true rfl)
theorem Laws.WordFits.surr : Laws.WordFits.Statement .surr := show encodeNat .surr < 2 ^ 32 from of_decide_eq_true rfl
theorem Laws.WordFits.inval : Laws.WordFits.Statement .inval := show encodeNat .inval < 2 ^ 32 from of_decide_eq_true rfl
theorem Laws.WordFits.copy (a : BitVec 7) (b : BitVec 7) (c : BitVec 7) : Laws.WordFits.Statement (.copy a b c) :=
  pack_18_11_4_lt a.isLt b.isLt c.isLt (Nat.le_of_ble_eq_true rfl)
theorem Laws.WordFits.copys (a : BitVec 7) (b : BitVec 7) (c : BitVec 7) : Laws.WordFits.Statement (.copys a b c) :=
  pack_18_11_4_lt a.isLt b.isLt c.isLt (Nat.le_of_ble_eq_true rfl)
theorem Laws.WordFits.fill (a : BitVec 7) (b : BitVec 7) (c : BitVec 7) : Laws.WordFits.Statement (.fill a b c) :=
  pack_18_11_4_lt a.isLt b.isLt c.isLt (Nat.le_of_ble_eq_true rfl)
theorem Laws.WordFits.copym (a : BitVec 7) (b : BitVec 7) (c : BitVec 7) : Laws.WordFits.Statement (.copym a b c) :=
  pack_18_11_4_lt a.isLt b.isLt c.isLt (Nat.le_of_ble_eq_true rfl)
theorem Laws.WordFits.nput (a : BitVec 7) (b : BitVec 7) (c : BitVec 7) : Laws.WordFits.Statement (.nput a b c) :=
  pack_18_11_4_lt a.isLt b.isLt c.isLt (Nat.le_of_ble_eq_true rfl)
theorem Laws.WordFits.nget (a : BitVec 7) (b : BitVec 7) (c : BitVec 7) : Laws.WordFits.Statement (.nget a b c) :=
  pack_18_11_4_lt a.isLt b.isLt c.isLt (Nat.le_of_ble_eq_true rfl)
theorem Laws.WordFits.npost (a : BitVec 7) (b : BitVec 7) (c : BitVec 7) : Laws.WordFits.Statement (.npost a b c) :=
  pack_18_11_4_lt a.isLt b.isLt c.isLt (Nat.le_of_ble_eq_true rfl)
theorem Laws.WordFits.press (a : BitVec 7) (b : BitVec 7) (c : BitVec 7) : Laws.WordFits.Statement (.press a b c) :=
  pack_18_11_4_lt a.isLt b.isLt c.isLt (Nat.le_of_ble_eq_true rfl)
theorem Laws.WordFits.mtcfg (a : BitVec 7) (t : BitVec 4) : Laws.WordFits.Statement (.mtcfg a t) :=
  pack_18_4_lt a.isLt t.isLt (Nat.le_of_ble_eq_true rfl)
theorem Laws.WordFits.mzero (t : BitVec 4) : Laws.WordFits.Statement (.mzero t) :=
  pack_4_lt t.isLt (Nat.le_of_ble_eq_true rfl)
theorem Laws.WordFits.mldw (a : BitVec 7) (b : BitVec 7) (c : BitVec 7) : Laws.WordFits.Statement (.mldw a b c) :=
  pack_18_11_4_lt a.isLt b.isLt c.isLt (Nat.le_of_ble_eq_true rfl)
theorem Laws.WordFits.mswap : Laws.WordFits.Statement .mswap := show encodeNat .mswap < 2 ^ 32 from of_decide_eq_true rfl
theorem Laws.WordFits.mstr (a : BitVec 7) (b : BitVec 7) (t : BitVec 4) : Laws.WordFits.Statement (.mstr a b t) :=
  pack_18_11_4_lt a.isLt b.isLt t.isLt (Nat.le_of_ble_eq_true rfl)
theorem Laws.WordFits.mgang (a : BitVec 7) (b : BitVec 7) (t : BitVec 4) : Laws.WordFits.Statement (.mgang a b t) :=
  pack_18_11_4_lt a.isLt b.isLt t.isLt (Nat.le_of_ble_eq_true rfl)
theorem Laws.WordFits.mvalid (a : BitVec 7) (b : BitVec 7) (c : BitVec 7) : Laws.WordFits.Statement (.mvalid a b c) :=
  pack_18_11_4_lt a.isLt b.isLt c.isLt (Nat.le_of_ble_eq_true rfl)
theorem Laws.WordFits.mjoin (a : BitVec 7) (b : BitVec 7) : Laws.WordFits.Statement (.mjoin a b) :=
  pack_18_11_lt a.isLt b.isLt (Nat.le_of_ble_eq_true rfl)
theorem Laws.WordFits.mtld (a : BitVec 7) (b : BitVec 7) (t : BitVec 4) : Laws.WordFits.Statement (.mtld a b t) :=
  pack_18_11_4_lt a.isLt b.isLt t.isLt (Nat.le_of_ble_eq_true rfl)
theorem Laws.WordFits.mtst (a : BitVec 7) (b : BitVec 7) (t : BitVec 4) : Laws.WordFits.Statement (.mtst a b t) :=
  pack_18_11_4_lt a.isLt b.isLt t.isLt (Nat.le_of_ble_eq_true rfl)
theorem Laws.WordFits.mtrow (a : BitVec 7) (b : BitVec 7) (t : BitVec 4) : Laws.WordFits.Statement (.mtrow a b t) :=
  pack_18_11_4_lt a.isLt b.isLt t.isLt (Nat.le_of_ble_eq_true rfl)
theorem Laws.WordFits.mtcol (a : BitVec 7) (b : BitVec 7) (t : BitVec 4) : Laws.WordFits.Statement (.mtcol a b t) :=
  pack_18_11_4_lt a.isLt b.isLt t.isLt (Nat.le_of_ble_eq_true rfl)
theorem Laws.WordFits.mtwrow (a : BitVec 7) (b : BitVec 7) (t : BitVec 4) : Laws.WordFits.Statement (.mtwrow a b t) :=
  pack_18_11_4_lt a.isLt b.isLt t.isLt (Nat.le_of_ble_eq_true rfl)
theorem Laws.WordFits.mtwcol (a : BitVec 7) (b : BitVec 7) (t : BitVec 4) : Laws.WordFits.Statement (.mtwcol a b t) :=
  pack_18_11_4_lt a.isLt b.isLt t.isLt (Nat.le_of_ble_eq_true rfl)
theorem Laws.WordFits.feed (a : BitVec 7) (b : BitVec 7) : Laws.WordFits.Statement (.feed a b) :=
  pack_18_11_lt a.isLt b.isLt (Nat.le_of_ble_eq_true rfl)
theorem Laws.WordFits.qbind (a : BitVec 7) (b : BitVec 7) : Laws.WordFits.Statement (.qbind a b) :=
  pack_18_11_lt a.isLt b.isLt (Nat.le_of_ble_eq_true rfl)
theorem Laws.WordFits.qunbind (a : BitVec 7) : Laws.WordFits.Statement (.qunbind a) :=
  pack_18_lt a.isLt (Nat.le_of_ble_eq_true rfl)
theorem Laws.WordFits.shdef (a : BitVec 7) (b : BitVec 7) (c : BitVec 7) : Laws.WordFits.Statement (.shdef a b c) :=
  pack_18_11_4_lt a.isLt b.isLt c.isLt (Nat.le_of_ble_eq_true rfl)
theorem Laws.WordFits.shdrop (a : BitVec 7) (b : BitVec 7) : Laws.WordFits.Statement (.shdrop a b) :=
  pack_18_11_lt a.isLt b.isLt (Nat.le_of_ble_eq_true rfl)
theorem Laws.WordFits.stream (a : BitVec 7) (b : BitVec 7) (c : BitVec 7) : Laws.WordFits.Statement (.stream a b c) :=
  pack_18_11_4_lt a.isLt b.isLt c.isLt (Nat.le_of_ble_eq_true rfl)
theorem Laws.WordFits.launch (a : BitVec 7) (b : BitVec 7) : Laws.WordFits.Statement (.launch a b) :=
  pack_18_11_lt a.isLt b.isLt (Nat.le_of_ble_eq_true rfl)
theorem Laws.WordFits.enq (a : BitVec 7) (b : BitVec 7) (c : BitVec 7) : Laws.WordFits.Statement (.enq a b c) :=
  pack_18_11_4_lt a.isLt b.isLt c.isLt (Nat.le_of_ble_eq_true rfl)
theorem Laws.WordFits.rangeset (a : BitVec 7) (b : BitVec 7) (c : BitVec 7) : Laws.WordFits.Statement (.rangeset a b c) :=
  pack_18_11_4_lt a.isLt b.isLt c.isLt (Nat.le_of_ble_eq_true rfl)
theorem Laws.WordFits.grab (a : BitVec 7) (b : BitVec 7) (c : BitVec 7) : Laws.WordFits.Statement (.grab a b c) :=
  pack_18_11_4_lt a.isLt b.isLt c.isLt (Nat.le_of_ble_eq_true rfl)
theorem Laws.WordFits.splat (a : BitVec 7) (b : BitVec 7) (c : BitVec 7) : Laws.WordFits.Statement (.splat a b c) :=
  pack_18_11_4_lt a.isLt b.isLt c.isLt (Nat.le_of_ble_eq_true rfl)
theorem Laws.WordFits.sget (d : BitVec 7) (i : BitVec 11) : Laws.WordFits.Statement (.sget d i) :=
  pack_18_0_lt d.isLt i.isLt (Nat.le_of_ble_eq_true rfl)
theorem Laws.WordFits.sset (a : BitVec 7) (i : BitVec 11) : Laws.WordFits.Statement (.sset a i) :=
  pack_11_0_lt a.isLt i.isLt (Nat.le_of_ble_eq_true rfl)
theorem Laws.WordFits.trap (a : BitVec 7) : Laws.WordFits.Statement (.trap a) :=
  pack_11_lt a.isLt (Nat.le_of_ble_eq_true rfl)
theorem Laws.WordFits.rett : Laws.WordFits.Statement .rett := show encodeNat .rett < 2 ^ 32 from of_decide_eq_true rfl
theorem Laws.WordFits.ebreak : Laws.WordFits.Statement .ebreak := show encodeNat .ebreak < 2 ^ 32 from of_decide_eq_true rfl
theorem Laws.WordFits.snop : Laws.WordFits.Statement .snop := show encodeNat .snop < 2 ^ 32 from of_decide_eq_true rfl
theorem Laws.WordFits.imm (i : BitVec 22) : Laws.WordFits.Statement (.imm i) :=
  pack_0_lt i.isLt (Nat.le_of_ble_eq_true rfl)
theorem Laws.WordFits.rep (count : BitVec 4) (stepD : Bool) (stepA : Bool) (stepB : Bool) (step : BitVec 3) : Laws.WordFits.Statement (.rep count stepD stepA stepB step) :=
  pack_18_17_16_15_12_lt count.isLt (Bool.toNat_lt stepD) (Bool.toNat_lt stepA) (Bool.toNat_lt stepB) step.isLt (Nat.le_of_ble_eq_true rfl)
theorem Laws.WordFits.ord (o : BitVec 2) : Laws.WordFits.Statement (.ord o) :=
  pack_20_lt o.isLt (Nat.le_of_ble_eq_true rfl)
theorem Laws.WordFits.hostSubmission : Laws.WordFits.Statement .hostSubmission := show encodeNat .hostSubmission < 2 ^ 32 from of_decide_eq_true rfl
theorem Laws.WordFits.hostPlainLoad : Laws.WordFits.Statement .hostPlainLoad := show encodeNat .hostPlainLoad < 2 ^ 32 from of_decide_eq_true rfl
theorem Laws.WordFits.hostPlainStore : Laws.WordFits.Statement .hostPlainStore := show encodeNat .hostPlainStore < 2 ^ 32 from of_decide_eq_true rfl
theorem Laws.WordFits.syncWindowLoad : Laws.WordFits.Statement .syncWindowLoad := show encodeNat .syncWindowLoad < 2 ^ 32 from of_decide_eq_true rfl
theorem Laws.WordFits.syncWindowStore : Laws.WordFits.Statement .syncWindowStore := show encodeNat .syncWindowStore < 2 ^ 32 from of_decide_eq_true rfl
theorem Laws.WordFits.hostSnoop : Laws.WordFits.Statement .hostSnoop := show encodeNat .hostSnoop < 2 ^ 32 from of_decide_eq_true rfl
theorem Laws.WordFits.ctxrootWrite : Laws.WordFits.Statement .ctxrootWrite := show encodeNat .ctxrootWrite < 2 ^ 32 from of_decide_eq_true rfl
theorem Laws.WordFits.invStage1Page : Laws.WordFits.Statement .invStage1Page := show encodeNat .invStage1Page < 2 ^ 32 from of_decide_eq_true rfl
theorem Laws.WordFits.invContext : Laws.WordFits.Statement .invContext := show encodeNat .invContext < 2 ^ 32 from of_decide_eq_true rfl
theorem Laws.WordFits.tlbinvStage1Page : Laws.WordFits.Statement .tlbinvStage1Page := show encodeNat .tlbinvStage1Page < 2 ^ 32 from of_decide_eq_true rfl
theorem Laws.WordFits.tlbinvContext : Laws.WordFits.Statement .tlbinvContext := show encodeNat .tlbinvContext < 2 ^ 32 from of_decide_eq_true rfl
theorem Laws.WordFits.tlbinvStage2Page : Laws.WordFits.Statement .tlbinvStage2Page := show encodeNat .tlbinvStage2Page < 2 ^ 32 from of_decide_eq_true rfl
theorem Laws.WordFits.tlbinvPartition : Laws.WordFits.Statement .tlbinvPartition := show encodeNat .tlbinvPartition < 2 ^ 32 from of_decide_eq_true rfl
theorem Laws.WordFits.invalidationComplete : Laws.WordFits.Statement .invalidationComplete := show encodeNat .invalidationComplete < 2 ^ 32 from of_decide_eq_true rfl
theorem Laws.WordFits.ctxctlResume : Laws.WordFits.Statement .ctxctlResume := show encodeNat .ctxctlResume < 2 ^ 32 from of_decide_eq_true rfl
theorem Laws.WordFits.ctxctlWithdraw : Laws.WordFits.Statement .ctxctlWithdraw := show encodeNat .ctxctlWithdraw < 2 ^ 32 from of_decide_eq_true rfl
theorem Laws.WordFits.ctxctlStop : Laws.WordFits.Statement .ctxctlStop := show encodeNat .ctxctlStop < 2 ^ 32 from of_decide_eq_true rfl
theorem Laws.WordFits.modeWrite : Laws.WordFits.Statement .modeWrite := show encodeNat .modeWrite < 2 ^ 32 from of_decide_eq_true rfl
theorem Laws.WordFits.borrowcfgWrite : Laws.WordFits.Statement .borrowcfgWrite := show encodeNat .borrowcfgWrite < 2 ^ 32 from of_decide_eq_true rfl
theorem Laws.WordFits.registerWrite : Laws.WordFits.Statement .registerWrite := show encodeNat .registerWrite < 2 ^ 32 from of_decide_eq_true rfl
theorem Laws.WordFits.packageIdentityWrite : Laws.WordFits.Statement .packageIdentityWrite := show encodeNat .packageIdentityWrite < 2 ^ 32 from of_decide_eq_true rfl
theorem Laws.WordFits.partitionCreate : Laws.WordFits.Statement .partitionCreate := show encodeNat .partitionCreate < 2 ^ 32 from of_decide_eq_true rfl
theorem Laws.WordFits.partitionDestroy : Laws.WordFits.Statement .partitionDestroy := show encodeNat .partitionDestroy < 2 ^ 32 from of_decide_eq_true rfl
theorem Laws.WordFits.portAssignment : Laws.WordFits.Statement .portAssignment := show encodeNat .portAssignment < 2 ^ 32 from of_decide_eq_true rfl
theorem Laws.WordFits.channelEnable : Laws.WordFits.Statement .channelEnable := show encodeNat .channelEnable < 2 ^ 32 from of_decide_eq_true rfl
theorem Laws.WordFits.multicastEntryWrite : Laws.WordFits.Statement .multicastEntryWrite := show encodeNat .multicastEntryWrite < 2 ^ 32 from of_decide_eq_true rfl
theorem Laws.WordFits.importGrantWrite : Laws.WordFits.Statement .importGrantWrite := show encodeNat .importGrantWrite < 2 ^ 32 from of_decide_eq_true rfl
theorem Laws.WordFits.attestationRequest : Laws.WordFits.Statement .attestationRequest := show encodeNat .attestationRequest < 2 ^ 32 from of_decide_eq_true rfl
theorem Laws.WordFits.recoveryFirmwareWrite : Laws.WordFits.Statement .recoveryFirmwareWrite := show encodeNat .recoveryFirmwareWrite < 2 ^ 32 from of_decide_eq_true rfl
theorem Laws.WordFits.headEnable : Laws.WordFits.Statement .headEnable := show encodeNat .headEnable < 2 ^ 32 from of_decide_eq_true rfl
theorem Laws.WordFits.frameStart : Laws.WordFits.Statement .frameStart := show encodeNat .frameStart < 2 ^ 32 from of_decide_eq_true rfl
theorem Laws.WordFits.encoderFrameComplete : Laws.WordFits.Statement .encoderFrameComplete := show encodeNat .encoderFrameComplete < 2 ^ 32 from of_decide_eq_true rfl
theorem Laws.WordFits.powerOn : Laws.WordFits.Statement .powerOn := show encodeNat .powerOn < 2 ^ 32 from of_decide_eq_true rfl
theorem Laws.WordFits.hbmTrainingComplete : Laws.WordFits.Statement .hbmTrainingComplete := show encodeNat .hbmTrainingComplete < 2 ^ 32 from of_decide_eq_true rfl
theorem Laws.WordFits.heartbeatTick : Laws.WordFits.Statement .heartbeatTick := show encodeNat .heartbeatTick < 2 ^ 32 from of_decide_eq_true rfl
theorem Laws.WordFits.assayAudit : Laws.WordFits.Statement .assayAudit := show encodeNat .assayAudit < 2 ^ 32 from of_decide_eq_true rfl
theorem Laws.WordFits.fragmentMerge : Laws.WordFits.Statement .fragmentMerge := show encodeNat .fragmentMerge < 2 ^ 32 from of_decide_eq_true rfl
theorem Laws.WordFits.issueSelection : Laws.WordFits.Statement .issueSelection := show encodeNat .issueSelection < 2 ^ 32 from of_decide_eq_true rfl
theorem Laws.WordFits.sectionDeadlockSearch : Laws.WordFits.Statement .sectionDeadlockSearch := show encodeNat .sectionDeadlockSearch < 2 ^ 32 from of_decide_eq_true rfl
theorem Laws.WordFits.sectionWatchdog : Laws.WordFits.Statement .sectionWatchdog := show encodeNat .sectionWatchdog < 2 ^ 32 from of_decide_eq_true rfl
theorem Laws.WordFits.contextWatchdog : Laws.WordFits.Statement .contextWatchdog := show encodeNat .contextWatchdog < 2 ^ 32 from of_decide_eq_true rfl
theorem Laws.WordFits.serviceWatchdog : Laws.WordFits.Statement .serviceWatchdog := show encodeNat .serviceWatchdog < 2 ^ 32 from of_decide_eq_true rfl
theorem Laws.WordFits.quantumExpiry : Laws.WordFits.Statement .quantumExpiry := show encodeNat .quantumExpiry < 2 ^ 32 from of_decide_eq_true rfl
theorem Laws.WordFits.nodeBatchTimeout : Laws.WordFits.Statement .nodeBatchTimeout := show encodeNat .nodeBatchTimeout < 2 ^ 32 from of_decide_eq_true rfl
theorem Laws.WordFits.migrationCounterHalving : Laws.WordFits.Statement .migrationCounterHalving := show encodeNat .migrationCounterHalving < 2 ^ 32 from of_decide_eq_true rfl
theorem Laws.WordFits.pageMigration : Laws.WordFits.Statement .pageMigration := show encodeNat .pageMigration < 2 ^ 32 from of_decide_eq_true rfl
theorem Laws.WordFits.powerHold : Laws.WordFits.Statement .powerHold := show encodeNat .powerHold < 2 ^ 32 from of_decide_eq_true rfl
theorem Laws.WordFits.serviceTurnEnd : Laws.WordFits.Statement .serviceTurnEnd := show encodeNat .serviceTurnEnd < 2 ^ 32 from of_decide_eq_true rfl
theorem Laws.WordFits.serviceBatch : Laws.WordFits.Statement .serviceBatch := show encodeNat .serviceBatch < 2 ^ 32 from of_decide_eq_true rfl
theorem Laws.WordFits.pageFaultResolution : Laws.WordFits.Statement .pageFaultResolution := show encodeNat .pageFaultResolution < 2 ^ 32 from of_decide_eq_true rfl
theorem Laws.WordFits.serviceReplyLands : Laws.WordFits.Statement .serviceReplyLands := show encodeNat .serviceReplyLands < 2 ^ 32 from of_decide_eq_true rfl
theorem Laws.WordFits.launchEligible : Laws.WordFits.Statement .launchEligible := show encodeNat .launchEligible < 2 ^ 32 from of_decide_eq_true rfl
theorem Laws.WordFits.clusterPlacement : Laws.WordFits.Statement .clusterPlacement := show encodeNat .clusterPlacement < 2 ^ 32 from of_decide_eq_true rfl
theorem Laws.WordFits.clusterEviction : Laws.WordFits.Statement .clusterEviction := show encodeNat .clusterEviction < 2 ^ 32 from of_decide_eq_true rfl
theorem Laws.WordFits.clusterRestore : Laws.WordFits.Statement .clusterRestore := show encodeNat .clusterRestore < 2 ^ 32 from of_decide_eq_true rfl
theorem Laws.WordFits.nodeGroupStart : Laws.WordFits.Statement .nodeGroupStart := show encodeNat .nodeGroupStart < 2 ^ 32 from of_decide_eq_true rfl
theorem Laws.WordFits.groupEnd : Laws.WordFits.Statement .groupEnd := show encodeNat .groupEnd < 2 ^ 32 from of_decide_eq_true rfl
theorem Laws.WordFits.gridCompletionArrival : Laws.WordFits.Statement .gridCompletionArrival := show encodeNat .gridCompletionArrival < 2 ^ 32 from of_decide_eq_true rfl
theorem Laws.WordFits.graphEnd : Laws.WordFits.Statement .graphEnd := show encodeNat .graphEnd < 2 ^ 32 from of_decide_eq_true rfl
theorem Laws.WordFits.loadResultLands : Laws.WordFits.Statement .loadResultLands := show encodeNat .loadResultLands < 2 ^ 32 from of_decide_eq_true rfl
theorem Laws.WordFits.launchStatusFill : Laws.WordFits.Statement .launchStatusFill := show encodeNat .launchStatusFill < 2 ^ 32 from of_decide_eq_true rfl
theorem Laws.WordFits.shapeStatusFill : Laws.WordFits.Statement .shapeStatusFill := show encodeNat .shapeStatusFill < 2 ^ 32 from of_decide_eq_true rfl
theorem Laws.WordFits.feedStatusFill : Laws.WordFits.Statement .feedStatusFill := show encodeNat .feedStatusFill < 2 ^ 32 from of_decide_eq_true rfl
theorem Laws.WordFits.grabServed : Laws.WordFits.Statement .grabServed := show encodeNat .grabServed < 2 ^ 32 from of_decide_eq_true rfl
theorem Laws.WordFits.registration : Laws.WordFits.Statement .registration := show encodeNat .registration < 2 ^ 32 from of_decide_eq_true rfl
theorem Laws.WordFits.atomicAtHome : Laws.WordFits.Statement .atomicAtHome := show encodeNat .atomicAtHome < 2 ^ 32 from of_decide_eq_true rfl
theorem Laws.WordFits.surrender : Laws.WordFits.Statement .surrender := show encodeNat .surrender < 2 ^ 32 from of_decide_eq_true rfl
theorem Laws.WordFits.surrenderComplete : Laws.WordFits.Statement .surrenderComplete := show encodeNat .surrenderComplete < 2 ^ 32 from of_decide_eq_true rfl
theorem Laws.WordFits.barrierNotify : Laws.WordFits.Statement .barrierNotify := show encodeNat .barrierNotify < 2 ^ 32 from of_decide_eq_true rfl
theorem Laws.WordFits.copyUnitHeld : Laws.WordFits.Statement .copyUnitHeld := show encodeNat .copyUnitHeld < 2 ^ 32 from of_decide_eq_true rfl
theorem Laws.WordFits.copyComplete : Laws.WordFits.Statement .copyComplete := show encodeNat .copyComplete < 2 ^ 32 from of_decide_eq_true rfl
theorem Laws.WordFits.engineCommandIssueWaitEnd : Laws.WordFits.Statement .engineCommandIssueWaitEnd := show encodeNat .engineCommandIssueWaitEnd < 2 ^ 32 from of_decide_eq_true rfl
theorem Laws.WordFits.networkUnitAck : Laws.WordFits.Statement .networkUnitAck := show encodeNat .networkUnitAck < 2 ^ 32 from of_decide_eq_true rfl
theorem Laws.WordFits.networkCommandComplete : Laws.WordFits.Statement .networkCommandComplete := show encodeNat .networkCommandComplete < 2 ^ 32 from of_decide_eq_true rfl
theorem Laws.WordFits.networkReceive : Laws.WordFits.Statement .networkReceive := show encodeNat .networkReceive < 2 ^ 32 from of_decide_eq_true rfl
theorem Laws.WordFits.remoteAccessArrival : Laws.WordFits.Statement .remoteAccessArrival := show encodeNat .remoteAccessArrival < 2 ^ 32 from of_decide_eq_true rfl
theorem Laws.WordFits.remoteErrorResponse : Laws.WordFits.Statement .remoteErrorResponse := show encodeNat .remoteErrorResponse < 2 ^ 32 from of_decide_eq_true rfl
theorem Laws.WordFits.flitCrcFailure : Laws.WordFits.Statement .flitCrcFailure := show encodeNat .flitCrcFailure < 2 ^ 32 from of_decide_eq_true rfl
theorem Laws.WordFits.retransmitTimeout : Laws.WordFits.Statement .retransmitTimeout := show encodeNat .retransmitTimeout < 2 ^ 32 from of_decide_eq_true rfl
theorem Laws.WordFits.forwardRecordArrival : Laws.WordFits.Statement .forwardRecordArrival := show encodeNat .forwardRecordArrival < 2 ^ 32 from of_decide_eq_true rfl
theorem Laws.WordFits.permitReturn : Laws.WordFits.Statement .permitReturn := show encodeNat .permitReturn < 2 ^ 32 from of_decide_eq_true rfl
theorem Laws.WordFits.arrayCommandStart : Laws.WordFits.Statement .arrayCommandStart := show encodeNat .arrayCommandStart < 2 ^ 32 from of_decide_eq_true rfl
theorem Laws.WordFits.arrayCommandComplete : Laws.WordFits.Statement .arrayCommandComplete := show encodeNat .arrayCommandComplete < 2 ^ 32 from of_decide_eq_true rfl
theorem Laws.WordFits.gangCompletion : Laws.WordFits.Statement .gangCompletion := show encodeNat .gangCompletion < 2 ^ 32 from of_decide_eq_true rfl
theorem Laws.WordFits.streamBlockDelivered : Laws.WordFits.Statement .streamBlockDelivered := show encodeNat .streamBlockDelivered < 2 ^ 32 from of_decide_eq_true rfl
theorem Laws.WordFits.feederPush : Laws.WordFits.Statement .feederPush := show encodeNat .feederPush < 2 ^ 32 from of_decide_eq_true rfl
theorem Laws.WordFits.treeletVisit : Laws.WordFits.Statement .treeletVisit := show encodeNat .treeletVisit < 2 ^ 32 from of_decide_eq_true rfl
theorem Laws.WordFits.rayResultLands : Laws.WordFits.Statement .rayResultLands := show encodeNat .rayResultLands < 2 ^ 32 from of_decide_eq_true rfl
theorem Laws.WordFits.sampleResultLands : Laws.WordFits.Statement .sampleResultLands := show encodeNat .sampleResultLands < 2 ^ 32 from of_decide_eq_true rfl
theorem Laws.WordFits.splatCommandRun : Laws.WordFits.Statement .splatCommandRun := show encodeNat .splatCommandRun < 2 ^ 32 from of_decide_eq_true rfl
theorem Laws.WordFits.sectionRequestArrival : Laws.WordFits.Statement .sectionRequestArrival := show encodeNat .sectionRequestArrival < 2 ^ 32 from of_decide_eq_true rfl
theorem Laws.WordFits.sectionGrant : Laws.WordFits.Statement .sectionGrant := show encodeNat .sectionGrant < 2 ^ 32 from of_decide_eq_true rfl
theorem Laws.WordFits.sectionRefuse : Laws.WordFits.Statement .sectionRefuse := show encodeNat .sectionRefuse < 2 ^ 32 from of_decide_eq_true rfl
theorem Laws.WordFits.ventertAnswer : Laws.WordFits.Statement .ventertAnswer := show encodeNat .ventertAnswer < 2 ^ 32 from of_decide_eq_true rfl
theorem Laws.WordFits.vsecqAnswer : Laws.WordFits.Statement .vsecqAnswer := show encodeNat .vsecqAnswer < 2 ^ 32 from of_decide_eq_true rfl
theorem Laws.WordFits.pressCollectiveStart : Laws.WordFits.Statement .pressCollectiveStart := show encodeNat .pressCollectiveStart < 2 ^ 32 from of_decide_eq_true rfl
theorem Laws.WordFits.pressTileArrival : Laws.WordFits.Statement .pressTileArrival := show encodeNat .pressTileArrival < 2 ^ 32 from of_decide_eq_true rfl
theorem Laws.WordFits.pressTileLoss : Laws.WordFits.Statement .pressTileLoss := show encodeNat .pressTileLoss < 2 ^ 32 from of_decide_eq_true rfl
theorem Laws.WordFits.pressComplete : Laws.WordFits.Statement .pressComplete := show encodeNat .pressComplete < 2 ^ 32 from of_decide_eq_true rfl
theorem Laws.WordFits.halt : Laws.WordFits.Statement .halt := show encodeNat .halt < 2 ^ 32 from of_decide_eq_true rfl
theorem Laws.WordFits.agentStop : Laws.WordFits.Statement .agentStop := show encodeNat .agentStop < 2 ^ 32 from of_decide_eq_true rfl
theorem Laws.WordFits.stopSaveComplete : Laws.WordFits.Statement .stopSaveComplete := show encodeNat .stopSaveComplete < 2 ^ 32 from of_decide_eq_true rfl
theorem Laws.WordFits.hbmReadFailure : Laws.WordFits.Statement .hbmReadFailure := show encodeNat .hbmReadFailure < 2 ^ 32 from of_decide_eq_true rfl
theorem Laws.WordFits.secdedError : Laws.WordFits.Statement .secdedError := show encodeNat .secdedError < 2 ^ 32 from of_decide_eq_true rfl
theorem Laws.WordFits.detRecorderInput : Laws.WordFits.Statement .detRecorderInput := show encodeNat .detRecorderInput < 2 ^ 32 from of_decide_eq_true rfl
theorem Laws.WordFits.powerOff : Laws.WordFits.Statement .powerOff := show encodeNat .powerOff < 2 ^ 32 from of_decide_eq_true rfl
theorem Laws.WordFits.linkRetrained : Laws.WordFits.Statement .linkRetrained := show encodeNat .linkRetrained < 2 ^ 32 from of_decide_eq_true rfl
theorem Laws.WordFits.virtualFunctionAssignment : Laws.WordFits.Statement .virtualFunctionAssignment := show encodeNat .virtualFunctionAssignment < 2 ^ 32 from of_decide_eq_true rfl
theorem Laws.WordFits.tenantKeyImport : Laws.WordFits.Statement .tenantKeyImport := show encodeNat .tenantKeyImport < 2 ^ 32 from of_decide_eq_true rfl
theorem Laws.WordFits.borrowInvalidation : Laws.WordFits.Statement .borrowInvalidation := show encodeNat .borrowInvalidation < 2 ^ 32 from of_decide_eq_true rfl

end Sys2Proof
end

