-- ==== Sys2Proof/Tests/Slice0.lean ====
section
/-! SUPPORT. The author's own tests: ill-formed instructions, words decoded from the manual's encoding tables, and for each
statement with hypotheses a state and operands that meet them. -/

namespace Sys2Proof.Tests

open Sys2Proof Sys2Proof.Machine Host

set_option Elab.async false

/-! ## States -/

/-- A page of data: readable and writable, virtual and physical 0x20000 to 0x20FFF. -/
def dataPage : TlbEntry := ⟨1, some 0, 0, 0x20000, 0x1000, 0x20000, 0x20000, 3, 3, 3, 3, true, true, false⟩

/-- One wave of 32 lanes about to execute a word, with a page of data of 256 zero bytes. -/
def base (w : Nat) : State :=
  let s : State := State.reset.withFetchWord 32 w
  { s with l0 := [placePage, dataPage], tlb := [{ dataPage with unit := 0 }], mem := memSets s.mem 0x20000 (List.replicate 256 0) }

/-- The same with its wave changed. -/
def waveBase (f : Wave → Wave) : State := { base 0 with waves := (base 0).waves.map f }
/-- The same with its group changed. -/
def groupBase (f : Group → Group) : State := { base 0 with groups := (base 0).groups.map f }
/-- The same with its launch changed. -/
def launchBase (f : Launch → Launch) : State := { base 0 with launches := (base 0).launches.map f }
/-- The same with the fragment changed. -/
def fragBase (f : Frag → Frag) : State := waveBase fun v => { v with frags := v.frags.map f }

def someIss : Iss :=
  ⟨⟨0, 0, 0, 0, 0, 0, none, none, none, none⟩, placeGroup, freshWave 0 0 0 0 0 0 0 false 0, ⟨0, 0, 0, 0, 0, 0, 0, none, none, none, none, none, false, false⟩, placeLaunch⟩

/-- The unit in progress. -/
def issOf (s : State) : Iss := s.iss?.getD someIss

theorem issOf_eq {s : State} (h : s.iss?.isSome = true) : s.iss? = some (issOf s) := by
  obtain ⟨i, hi⟩ := Option.isSome_iff_exists.mp h
  simp [issOf, hi]

/-! ## Units that pass, as a computation -/

def portFree (v : Wave) (srcs : List Src) : Bool := srcs.all fun x => x.isS || (regsOf x).all fun n => v.port? n == none

theorem portFree_spec {v : Wave} {srcs : List Src} (h : portFree v srcs = true) : noPorts v srcs := by
  intro x hx hs n hn
  have := List.all_eq_true.mp h x hx
  rw [hs, Bool.false_or] at this
  exact of_decide_eq_true (by simpa using List.all_eq_true.mp this n hn)

def laneOk (s : State) (p : Accepts) (srcs : List Src) (dsts : List Nat) : Bool :=
  let i := issOf s
  s.iss?.isSome && p.ok i.c && i.c.rep.isNone && (srcs.all fun x => (regsOf x).all fun n => if x.isS then sOk i.wv n else vOk i.wv n) &&
    (dsts.all fun d => vDst i.wv d && decide (d < i.wv.vregs.length)) &&
    decide (s.checkAll i i.wv srcs (dsts.map fun n => (false, n)) = .go) && portFree i.wv srcs

theorem laneUnit {s : State} {p : Accepts} {srcs : List Src} {dsts : List Nat} (h : laneOk s p srcs dsts = true) :
    LaneUnit s (issOf s) p srcs dsts := by
  simp only [laneOk, Bool.and_eq_true, List.all_eq_true, decide_eq_true_eq, Option.isNone_iff_eq_none] at h
  obtain ⟨⟨⟨⟨⟨⟨h1, h2⟩, h3⟩, h4⟩, h5⟩, h6⟩, h7⟩ := h
  exact ⟨issOf_eq h1, h2, h3, fun x hx n hn => h4 x hx n hn, h5, h6, portFree_spec h7⟩

def uniformOk (s : State) (p : Accepts) (srcs : List Src) (d : Nat) : Bool :=
  let i := issOf s
  s.iss?.isSome && p.ok i.c && (srcs.all fun x => (regsOf x).all fun n => if x.isS then sOk i.wv n else vOk i.wv n) &&
    sOk i.wv d && decide (d < i.wv.sregs.length) && decide (s.checkAll i i.wv srcs [(true, d)] = .go)

theorem uniformUnit {s : State} {p : Accepts} {srcs : List Src} {d : Nat} (h : uniformOk s p srcs d = true) :
    UniformUnit s (issOf s) p srcs d := by
  simp only [uniformOk, Bool.and_eq_true, List.all_eq_true, decide_eq_true_eq] at h
  obtain ⟨⟨⟨⟨⟨h1, h2⟩, h3⟩, h4⟩, h5⟩, h6⟩ := h
  exact ⟨issOf_eq h1, h2, fun x hx n hn => h3 x hx n hn, ⟨h4, h5⟩, h6⟩

def wordOk (s : State) (p : Accepts) (srcs : List Src) (dsts : List (Bool × Nat)) : Bool :=
  let i := issOf s
  s.iss?.isSome && p.ok i.c && i.converged && decide (s.checkAll i i.wv srcs dsts = .go)

theorem wordUnit {s : State} {p : Accepts} {srcs : List Src} {dsts : List (Bool × Nat)} (conv : Bool) (h : wordOk s p srcs dsts = true) :
    WordUnit s (issOf s) p conv srcs dsts := by
  simp only [wordOk, Bool.and_eq_true, decide_eq_true_eq] at h
  obtain ⟨⟨⟨h1, h2⟩, h3⟩, h4⟩ := h
  exact ⟨issOf_eq h1, h2, fun _ => h3, h4⟩

def memOk (s : State) (p : Accepts) (srcs : List Src) (dsts : List (Bool × Nat)) (wait : Option Wait) : Bool :=
  let i := issOf s
  s.iss?.isSome && p.ok i.c && i.c.rep.isNone && decide (s.checkAll i i.wv srcs dsts = .go) && portFree i.wv srcs &&
    wait.isNone

theorem memUnit {s : State} {p : Accepts} {srcs : List Src} {dsts : List (Bool × Nat)} {wait : Option Wait}
    (h : memOk s p srcs dsts wait = true) : MemUnit s (issOf s) p srcs dsts wait := by
  simp only [memOk, Bool.and_eq_true, decide_eq_true_eq, Option.isNone_iff_eq_none] at h
  obtain ⟨⟨⟨⟨⟨h1, h2⟩, h3⟩, h4⟩, h5⟩, h6⟩ := h
  exact ⟨issOf_eq h1, h2, h3, h4, portFree_spec h5, h6⟩

/-- What the accesses of a word reach, with the state once their addresses have been translated. -/
def reached (s : State) (acc : Acc) (n : Nat) (las : List (Nat × DWord)) : State × List (Nat × DWord × Tgt) :=
  match s.locateAll (issOf s) acc n las [] with | .ok t ts => (t, ts) | .bad t => (t, [])

def accessOk (s : State) (acc : Acc) (stack : Bool) (n : Nat) (las : List (Nat × DWord)) : Bool :=
  (s.memFault (issOf s) acc stack n las).isNone && match s.locateAll (issOf s) acc n las [] with | .ok .. => true | .bad _ => false

theorem access {s : State} {acc : Acc} {stack : Bool} {n : Nat} {las : List (Nat × DWord)} (h : accessOk s acc stack n las = true) :
    Access s (issOf s) acc stack n las (reached s acc n las).1 (reached s acc n las).2 := by
  simp only [accessOk, Bool.and_eq_true, Option.isNone_iff_eq_none] at h
  refine ⟨h.1, ?_⟩
  have h2 := h.2
  unfold reached
  cases h3 : s.locateAll (issOf s) acc n las [] with
  | ok t ts => rfl
  | bad t => simp [h3] at h2

/-! ## Ill-formed instructions and words (R28, R30, R34, R37 to R39, R149) -/

theorem test_illFormed :
    Instr.check (.vadd 0 0 0 false false) = some .zeroWord ∧ Instr.check (.vld 1 2 3 0 8) = some .reservedFn ∧
    Instr.check (.vld 1 2 3 1 7) = some .mustBeZero ∧ Instr.check (.sld 1 2 3 7) = some .reservedWidth ∧
    Instr.check (.vretag 1 2 15 false) = some .constant ∧ Instr.wf (.vretag 1 2 15 false) = false ∧
    encode .heartbeatTick = none ∧ Instr.wf .heartbeatTick = false := by decide +kernel

theorem test_rejectedWords :
    decodeWord 0 = .error .zeroWord ∧ decodeWord 0x34000000 = .error .reservedMajor ∧ decodeWord 0x40000008 = .error .reservedFn ∧
    decodeWord 0xA0000007 = .error .reservedWidth ∧ decodeWord 0xFFFFFFFF = .error .reservedKind ∧
    decodeWord 0x64000006 = .error .mustBeZero ∧ decodeWord 0x2C0000F2 = .error .constant ∧
    decodeBytes [1, 2, 3] = .error .truncated := by decide +kernel

/-! ## Words written out from the formats and maps of R29, R34, R37 and R38 -/

theorem test_decodeLane :
    decodeWord 0x00081030 = .ok (.vadd 2 2 3 false false) ∧ decodeWord 0x10040003 = .ok (.vandi 1 0 3) ∧
    decodeWord 0x16040002 = .ok (.vshi 1 0 0 2) ∧ decodeWord 0x32000001 = .ok (.vlaneid 0) ∧
    decodeWord 0x320C0030 = .ok (.vmovs 3 3 false) := by decide +kernel
theorem test_decodeMemory :
    decodeWord 0x40080884 = .ok (.vld 2 1 2 0 4) ∧ decodeWord 0x42080884 = .ok (.vst 2 1 2 0 4) ∧
    decodeWord 0xA0080806 = .ok (.sld 2 1 0 6) ∧ decodeWord 0xA00C0814 = .ok (.sld 3 1 2 4) := by decide +kernel
theorem test_decodeControl :
    decodeWord 0x64000002 = .ok .vexit ∧ decodeWord 0x6014BFF4 = .ok (.vbnz 5 2 0x3FF4) ∧ decodeWord 0x64000803 = .ok (.vtrap 1 false) ∧
    decodeWord 0xFC000001 = .ok .rett ∧ decodeWord 0xFC002800 = .ok (.trap 5) := by decide +kernel
theorem test_decodeUniform :
    decodeWord 0x8C1027FF = .ok (.saddi 4 4 0x7FF) ∧ decodeWord 0xF804000A = .ok (.sget 1 10) ∧ decodeWord 0xF8080023 = .ok (.sget 2 0x23) ∧
    decodeWord 0xFA001023 = .ok (.sset 2 0x23) := by decide +kernel
theorem test_decodePrefixes :
    decodeWord 0xFE02468A = .ok (.imm 0x2468A) ∧ decodeWord 0xFE900000 = .ok (.ord 1) ∧
    decodeWord 0xFE4F8000 = .ok (.rep 3 true true true 0) := by decide +kernel

/-! ## Encoding and the step -/

theorem witness_DecodeEncodeRoundTrip : Instr.wf (.vtrace 127 120 127 true true 3) = true ∧ Instr.wf .vexit = true := by decide +kernel
theorem witness_EncodeDecodeRoundTrip : decodeWord 0xFFFFFFFF = .error .reservedKind ∧ decodeWord 0x6014BFF4 = .ok (.vbnz 5 2 0x3FF4) := by
  decide +kernel

/-- What the fetch of a state reaches. -/
def fetched (s : State) : State × Option (List Byte) :=
  match s.translate (issOf s).grp.core (issOf s).grp.ctx (issOf s).c.pc.toNat .fetch with
  | (u, .ok pa _) => (u, u.homeBytes pa 4)
  | (u, _) => (u, none)

theorem witness_StepRunsWord_decoded : (base 0x64000002).iss?.isSome = true ∧ canonical (issOf (base 0x64000002)).c.pc = true ∧
    (fetched (base 0x64000002)).2 = some [2, 0, 0, 100] ∧ decodeWord (leNat [2, 0, 0, 100]) = .ok .vexit := by decide +kernel
theorem witness_StepRunsWord_rejected : (base 0).iss?.isSome = true ∧ (fetched (base 0)).2 = some [0, 0, 0, 0] ∧
    decodeWord (leNat [0, 0, 0, 0]) = .error .zeroWord ∧ (fetched (base 0)).1.iss?.isSome = true := by decide +kernel

/-- No unit in progress, one event due, and its turn first. -/
def turnState : State := { State.reset with agenda := [⟨.powerOff, {}⟩], turns := [0] }
theorem witness_StepRunsWord_event : turnState.cur = none ∧
    (match turnState.turn with | .event e _ => e.what == .powerOff | _ => false) = true ∧
    turnState.turns = 0 :: [] ∧ turnState.agenda[0]? = some ⟨.powerOff, {}⟩ ∧ turnState.flow ⟨.powerOff, {}⟩ = none ∧
    turnState.detOwner ⟨.powerOff, {}⟩ = none ∧ turnState.frozenEvent ⟨.powerOff, {}⟩ = false ∧ turnState.dueTick = none ∧
    turnState.tickCycle.dueTick = none ∧ ({ turnState with agenda := [⟨.heartbeatTick, {}⟩] } : State).dueTick = some 0 := by decide +kernel
theorem witness_StepRunsWord_issue :
    (match ({ base 0 with cur := none } : State).turn with | .issue g w _ => g == 0 && w == 0 | _ => false) = true := by
  decide +kernel
theorem witness_StepRunsWord_idle : (match State.reset.turn with | .idle _ => true | _ => false) = true := by decide +kernel

/-- A REP of four repetitions that step d and a. -/
def repBase : State := { base 0 with cur := (base 0).cur.map fun c => { c with rep := some (3, true, true, false, 0) } }
theorem witness_Repetition : repBase.iss?.isSome = true ∧ (issOf repBase).c.imm = none ∧ (issOf repBase).c.ord = none ∧
    (issOf repBase).c.rep = some (3, true, true, false, 0) ∧ (issOf repBase).fr.repNext = none ∧ (issOf repBase).wv.ports = [] ∧
    (∀ m < 128, ((issOf repBase).wv.vreg m).pend = 0) ∧ 8 + 3 < (issOf repBase).wv.vcount := by decide +kernel
theorem witness_PrefixWords : (base 0).iss?.isSome = true ∧ (issOf (base 0)).c.imm = none ∧ (issOf repBase).c.rep.isSome = true := by
  decide +kernel
theorem witness_MemoryCanonicalStep : (base 0x64000002).Canonical ∧
    (match step (base 0x64000002) with | .next _ => true | _ => false) = true := by
  constructor
  · show Memory.wf _ = true
    decide +kernel
  · decide +kernel

/-! ## Lane and uniform words -/

/-- Registers above and below a REP count, E bits both ways; every reader takes a register tagged RAW. -/
theorem witness_IntegerLaneWords (rd : Reader) (h : rd = .int ∨ rd = .bit) :
    LaneUnit (base 0) (issOf (base 0)) { rep := some (true, true, true) } [vsrc 0 127 rd true, vsrc 1 0 rd false] [127] ∧
    LaneUnit (base 0) (issOf (base 0)) { imm := true, rep := some (true, true, false) } [vsrc 0 127 rd false] [0] := by
  rcases h with rfl | rfl <;> exact ⟨laneUnit (by decide +kernel), laneUnit (by decide +kernel)⟩

theorem witness_FloatLaneWords (rd : Reader) (h : rd = .int ∨ rd = .bit ∨ rd = .fp32 ∨ rd = .fp16x2 ∨ rd = .bf16x2) :
    LaneUnit (base 0) (issOf (base 0)) { rep := some (true, true, true) } [vsrc 0 1 rd true, vsrc 1 2 rd false, vsrc 3 3 rd false] [3] ∧
    LaneUnit (base 0) (issOf (base 0)) { rep := some (true, true, true) } [vsrc 0 1 rd true, vsrc 1 2 rd false] [3] ∧
    LaneUnit (base 0) (issOf (base 0)) { rep := some (true, true, false) } [vsrc 0 1 rd true] [1] := by
  rcases h with rfl | rfl | rfl | rfl | rfl <;>
    exact ⟨laneUnit (by decide +kernel), laneUnit (by decide +kernel), laneUnit (by decide +kernel)⟩

theorem witness_DoubleLaneWords :
    LaneUnit (base 0) (issOf (base 0)) { rep := some (true, true, true) } [vpair 0 2 true, vpair 1 126 false, vpair 3 4 false] [4, 5] ∧
    LaneUnit (base 0) (issOf (base 0)) { rep := some (true, true, true) } [vpair 0 2 true, vpair 1 126 false] [4, 5] ∧
    LaneUnit (base 0) (issOf (base 0)) { rep := some (true, true, true) } [vpair 0 2 true, vpair 1 126 false] [3] :=
  ⟨laneUnit (by decide +kernel), laneUnit (by decide +kernel), laneUnit (by decide +kernel)⟩

/-- V1 and V2 tagged FP32, all else RAW. -/
def tagBase : State := waveBase fun v =>
  { v with vregs := ⟨List.replicate 32 0, 0, 0⟩ ::
      (List.replicate 2 ⟨List.replicate 32 0x3F800000, tFP32, 0⟩ ++ List.replicate 125 ⟨List.replicate 32 0, 0, 0⟩) }

theorem witness_DataLaneWords_moves : ∀ e ∈ moveSpecs 3 1 2 true true 3 31 0x7FF 14,
    LaneUnit tagBase (issOf tagBase) e.accepts e.srcs [3] := by
  intro e he
  refine laneUnit (?_ : laneOk tagBase e.accepts e.srcs [3] = true)
  revert e
  decide +kernel
theorem witness_DataLaneWords_exchanges : ∀ e ∈ exchangeSpecs 3 1 0 true true 1, e.1 = true ∧
    LaneUnit tagBase (issOf tagBase) e.2.accepts e.2.srcs [3] := by
  have h : ∀ e ∈ exchangeSpecs 3 1 0 true true 1, e.1 = true ∧ laneOk tagBase e.2.accepts e.2.srcs [3] = true := by decide +kernel
  exact fun e he => ⟨(h e he).1, laneUnit (h e he).2⟩
theorem witness_DataLaneWords_reductions : ∀ r ∈ redSpecs, ∀ e ∈ reduceSpecs 3 0 true 0 r,
    LaneUnit tagBase (issOf tagBase) e.accepts e.srcs [3] := by
  have h : ∀ r ∈ redSpecs, ∀ e ∈ reduceSpecs 3 0 true 0 r, laneOk tagBase e.accepts e.srcs [3] = true := by decide +kernel
  exact fun r hr e he => laneUnit (h r hr e he)

/-- VCVT of FP32 to INT32-wide targets, and VCVTS of two registers of FP32 to one of 16-bit elements. -/
theorem witness_DataLaneWords_conversions : (∃ sel : BitVec 7, cvtTakes (issOf tagBase) 9 1 sel ∧
    LaneUnit tagBase (issOf tagBase) { rep := some (true, true, true) } [cvtSrc (issOf tagBase) 1 true]
      ((cvtWrites (issOf tagBase) 9 1 sel).map (·.1))) ∧
    (((1, 2), 2, 1) ∈ packRows ∧ cvtTarget false 5 = true ∧
      (1, 2) = (groupOfTag ((issOf tagBase).wv.vreg 1).tag.toNat, groupOfTag (5 % 16)) ∧
      (∀ k < 2, groupOfTag ((issOf tagBase).wv.vreg (1 + k)).tag.toNat = 1) ∧ 9 + 3 < (issOf tagBase).wv.vcount ∧
      LaneUnit tagBase (issOf tagBase) { rep := some (true, true, true) } ((List.range 2).map fun k => ⟨0, false, 1 + k, 1, .bit, true⟩)
        ((List.range 1).map (9 + ·))) := by
  refine ⟨⟨2, ?_, laneUnit (by decide +kernel)⟩, by decide +kernel, by decide +kernel, by decide +kernel, by decide +kernel,
    by decide +kernel, laneUnit (by decide +kernel)⟩
  unfold cvtTakes
  decide +kernel

theorem witness_TagWords_ready :
    LaneUnit tagBase (issOf tagBase) { rep := some (true, true, true) } [vsrc 0 1 .bit true] [127] := laneUnit (by decide +kernel)
theorem witness_TagWords :
    (let i := issOf (waveBase fun v => v.emptyV 1 0xFF)
     vOk i.wv 1 = true ∧ vDst i.wv 3 = true ∧ i.wv.port? 1 = none ∧ (i.wv.vreg 1).pend ≠ 0 ∧ i.c.imm = none ∧ i.c.ord = none ∧ i.c.rep = none) ∧
    (let w : Word := 0x2C0000F2
     w.extractLsb' 25 7 = 0x16 ∧ w.extractLsb' 0 2 = 2 ∧ w.extractLsb' 8 3 = 0 ∧ w.extractLsb' 2 1 = 0 ∧ w.extractLsb' 4 4 = 15) ∧
    (let w : Word := 0x2C000102
     w.extractLsb' 25 7 = 0x16 ∧ w.extractLsb' 0 2 = 2 ∧ w.extractLsb' 8 3 ≠ 0) ∧
    (let w : Word := 0x2C000013
     w.extractLsb' 25 7 = 0x16 ∧ w.extractLsb' 0 2 = 3 ∧ w.extractLsb' 4 7 ≠ 0) :=
  ⟨by decide +kernel, by decide +kernel, by decide +kernel, by decide +kernel⟩

/-- S0, S127 and a register between as destination and sources. -/
theorem witness_UniformWords (rd : Reader) (h : rd = .int64 ∨ rd = .bit ∨ rd = .fp64) :
    UniformUnit (base 0) (issOf (base 0)) {} [usrc 0 127 rd, usrc 1 0 rd] 0 ∧
    UniformUnit (base 0) (issOf (base 0)) {} [usrc 0 1 rd, usrc 1 2 rd, usrc 3 127 rd] 127 ∧
    UniformUnit (base 0) (issOf (base 0)) { imm := true } [usrc 0 1 rd] 5 ∧ UniformUnit (base 0) (issOf (base 0)) { imm := true } [] 5 ∧
    UniformUnit (base 0) (issOf (base 0)) {} [usrc 0 1 rd] 5 := by
  rcases h with rfl | rfl | rfl <;> exact ⟨uniformUnit (by decide +kernel), uniformUnit (by decide +kernel), uniformUnit (by decide +kernel),
    uniformUnit (by decide +kernel), uniformUnit (by decide +kernel)⟩

/-! ## Control, fragments and traps -/

/-- Lanes 0 to 15 in the fragment that issues, 16 to 31 in another of the wave. -/
def splitBase (wait : Option Wait) (pc : DWord) : State := waveBase fun v => { v with
  frags := [⟨0, 0, 0x0000FFFF, 0xFFFF0000, 15, 0x1000, 0, none, none, none, none, none, false, false⟩,
    ⟨1, 0, 0xFFFF0000, 0x0000FFFF, 15, pc, 0, wait, none, none, none, none, false, false⟩]
  regs := { v.regs with tvec := 0x1800 } }
def oneFrag : Frag := ⟨0, 0, 0x0000FFFF, 0xFFFF0000, 15, 0x1000, 0, none, none, none, none, none, false, false⟩

theorem witness_BranchWords :
    WordUnit (base 0) (issOf (base 0)) { imm := true } false [vsrc 0 1 .bit false] [] ∧ vOk (issOf (base 0)).wv 1 = true ∧
    noPorts (issOf (base 0)).wv [vsrc 0 1 .bit false] ∧ WordUnit (base 0) (issOf (base 0)) { imm := true } false [usrc 0 127 .bit] [] :=
  ⟨wordUnit false (by decide +kernel), by decide +kernel, portFree_spec (by decide +kernel), wordUnit false (by decide +kernel)⟩
theorem witness_BranchWords_apart : (issOf (splitBase none 0x1004)).wv.Apart ∧ oneFrag ∈ (issOf (splitBase none 0x1004)).wv.frags :=
  ⟨⟨by decide +kernel, by decide +kernel, by decide +kernel⟩, by decide +kernel⟩
theorem witness_BranchWords_parts :
    (let ps : List (LaneMask × BitVec 4 × DWord × Bool) := [(0x000000FF, 3, 0x1010, false), (0x0000FF00, 15, 0x1004, false)]
     (∀ q ∈ ps, q.1 ≠ 0) ∧ ps.Pairwise (fun x y => x.1 &&& y.1 = 0) ∧ ps.foldl (fun m q => m ||| q.1) 0 = oneFrag.live) :=
  ⟨by simp, by simp, by simp [oneFrag]⟩

/-- Lane l's target is 0x1100, in one lane of the other state 0x1102. -/
def jumpBase (odd : Word) : State := waveBase fun v =>
  { v with vregs := v.vregs.set 2 ⟨(List.replicate 32 0x1100).set 5 odd, 0, 0⟩ }
theorem witness_JumpWords :
    WordUnit (jumpBase 0x1100) (issOf (jumpBase 0x1100)) {} false [⟨0, false, 2, 2, .bit, true⟩] [(false, 126), (false, 127)] ∧
    WordUnit (jumpBase 0x1100) (issOf (jumpBase 0x1100)) {} false [⟨0, false, 2, 2, .bit, true⟩] [] ∧
    noPorts (issOf (jumpBase 0x1100)).wv [⟨0, false, 2, 2, .bit, true⟩] ∧
    (∀ l < 32, (((issOf (jumpBase 0x1100)).wv.vreg 3).lane l ++ ((issOf (jumpBase 0x1100)).wv.vreg 2).lane l : DWord).toNat % 4 = 0) ∧
    (((issOf (jumpBase 0x1102)).wv.vreg 3).lane 5 ++ ((issOf (jumpBase 0x1102)).wv.vreg 2).lane 5 : DWord).toNat % 4 ≠ 0 ∧
    WordUnit (base 0) (issOf (base 0)) { imm := true } false [] [(true, 127)] ∧
    WordUnit (base 0) (issOf (base 0)) {} false [usrc 0 1 .bit] [(true, 0)] :=
  ⟨wordUnit false (by decide +kernel), wordUnit false (by decide +kernel), portFree_spec (by decide +kernel), by decide +kernel,
    by decide +kernel, wordUnit false (by decide +kernel), wordUnit false (by decide +kernel)⟩

theorem witness_FragmentWords_sconv :
    WordUnit (base 0) (issOf (base 0)) {} false [] [] ∧ (issOf (base 0)).c.unitPc = (issOf (base 0)).c.pc ∧
    (∃ f ∈ (issOf (splitBase none 0x1004)).wv.frags, f.id ≠ 0 ∧ f.wait ≠ some .sconv) ∧
    (∀ f ∈ (issOf (splitBase (some .sconv) 0x1000)).wv.frags, f.id ≠ 0 → f.wait = some .sconv ∧ f.pc = 0x1000) ∧
    (∃ f ∈ (issOf (splitBase (some .sconv) 0x1008)).wv.frags, f.id ≠ 0 ∧ f.pc ≠ 0x1000) ∧
    (issOf (splitBase (some .sconv) 0x1008)).wv.regs.tvec ≠ 0 := by
  refine ⟨wordUnit false (by decide +kernel), ?_⟩
  decide +kernel

/-- Lane 3 holds two keys. -/
def heldBase : State := waveBase fun v => { v with held := [⟨3, 0x40⟩, ⟨3, 0x80⟩] }
theorem witness_FragmentWords_exit :
    (∀ h ∈ (issOf (base 0)).wv.held, (issOf (base 0)).fr.live.getLsbD h.lane = false) ∧
    WordUnit heldBase (issOf heldBase) {} false [] [] ∧ (issOf heldBase).fr.live.getLsbD 3 = true ∧
    ((issOf heldBase).wv.held.reverse.find? fun x => x.lane == 3) = some ⟨3, 0x80⟩ ∧
    (∀ k < 3, ∀ h ∈ (issOf heldBase).wv.held, h.lane ≠ k) :=
  ⟨by decide +kernel, wordUnit false (by decide +kernel), by decide +kernel, by decide +kernel, by decide +kernel⟩

/-- V1 is nonzero in no lane, in some or in all; TVEC is set. -/
def vtrapBase (ls : List Word) : State := waveBase fun v =>
  { v with vregs := v.vregs.set 1 ⟨ls, 0, 0⟩, regs := { v.regs with tvec := 0x1800 } }
theorem witness_TrapWords :
    WordUnit (base 0) (issOf (base 0)) {} false [usrc 0 127 .bit] [] ∧ WordUnit (base 0) (issOf (base 0)) {} false [] [] ∧
    (let s := vtrapBase ([1, 2, 3] ++ List.replicate 29 0)
     WordUnit s (issOf s) {} false [vsrc 0 1 .bit true] [] ∧ (issOf s).fr.frame = none ∧ (issOf s).wv.regs.tvec ≠ 0 ∧
     (laneFilter (issOf s).fr.live fun l => bitsOf (issOf s).wv 1 l != 0) = 7) ∧
    (laneFilter 0xFFFFFFFF fun l => bitsOf (issOf (vtrapBase (List.replicate 32 9))).wv 1 l != 0) = 0xFFFFFFFF ∧
    (laneFilter 0xFFFFFFFF fun l => bitsOf (issOf (vtrapBase (List.replicate 32 0))).wv 1 l != 0) = 0 :=
  ⟨wordUnit false (by decide +kernel), wordUnit false (by decide +kernel),
    ⟨wordUnit false (by decide +kernel), by decide +kernel, by decide +kernel, by decide +kernel⟩, by decide +kernel, by decide +kernel⟩

theorem witness_TrapEntry :
    (let i := issOf (vtrapBase [])
     i.fr.frame = none ∧ i.wv.regs.tvec ≠ 0 ∧ i.wv.frames.length < 64) ∧
    (let i := issOf (base 0)
     i.wv.regs.tvec = 0 ∧ ((base 0).ctx? i.grp.ctx).map Ctx.phase = some .running) := by decide +kernel

/-- A fragment in a handler whose saved PC is fpc. -/
def handlerBase (fpc : DWord) : State := waveBase fun v => { v with
  frags := v.frags.map fun f => { f with frame := some 0, prio := 15 }
  frames := [⟨0, 0x0B, 0, fpc, 0x1000, 0, 0, 0, 0, 7, none, none, 0xFFFFFFFF⟩] }
theorem witness_ReturnWord :
    WordUnit (handlerBase 0x1004) (issOf (handlerBase 0x1004)) {} false [] [] ∧ (issOf (handlerBase 0x1004)).fr.frame = some 0 ∧
    ((issOf (handlerBase 0x1004)).wv.frames.find? fun f => f.slot == 0).map (fun f => f.fpc.toNat % 4) = some 0 ∧
    ((issOf (handlerBase 0x1006)).wv.frames.find? fun f => f.slot == 0).map (fun f => f.fpc.toNat % 4) = some 2 ∧
    (issOf (base 0)).fr.frame = none :=
  ⟨wordUnit false (by decide +kernel), by decide +kernel, by decide +kernel, by decide +kernel, by decide +kernel⟩

theorem witness_SystemWords :
    WordUnit (base 0) (issOf (base 0)) {} false [] [(true, 127)] ∧ WordUnit (base 0) (issOf (base 0)) {} false [usrc 0 1 .bit] [] ∧
    (0x007, BitVec.ofNat 64 1) ∈ sysTable (base 0) (issOf (base 0)) ∧ ((base 0).partOf (issOf (base 0)).grp.ctx).isSome = true ∧
    (issOf (base 0)).ln.det = false ∧ 0x082 ∈ sysReadOnly ∧ (∀ x, (0x0FF, x) ∉ sysTable (base 0) (issOf (base 0))) ∧
    (∀ x, (0x200, x) ∉ sysTable (base 0) (issOf (base 0))) := by
  refine ⟨wordUnit false (by decide +kernel), wordUnit false (by decide +kernel), ?_, by decide +kernel, by decide +kernel, by decide +kernel, ?_, ?_⟩
  · exact List.mem_of_getElem (i := 6) (h := by decide) rfl
  · intro x; simp [sysTable]
  · intro x; simp [sysTable]

/-! ## Memory, atomics, barriers -/

/-- S1 holds the data page, lane l of V1 holds 8 l, and V4 to V7 hold data. -/
def memBase : State := waveBase fun v => { v with
  vregs := v.vregs.set 1 ⟨(List.range 32).map fun l => BitVec.ofNat 32 (8 * l), 0, 0⟩
  sregs := v.sregs.set 1 ⟨0x20000, 0, true⟩
  regs := { v.regs with stklim := 0x20000 } }

theorem witness_LoadWords :
    MemUnit memBase (issOf memBase) { imm := true, ord := [0, 1] } (vmSrcs 1 1) (regSpan 4 4) (memBase.accessWait 0 0 false false) ∧
    vmLegal (issOf memBase) 4 1 1 2 true = true ∧
    Access memBase (issOf memBase) .load false 8 (vmAddresses (issOf memBase) 1 1 0)
      (reached memBase .load 8 (vmAddresses (issOf memBase) 1 1 0)).1 (reached memBase .load 8 (vmAddresses (issOf memBase) 1 1 0)).2 ∧
    memBase.missOk 1 0 0 = true ∧
    MemUnit memBase (issOf memBase) { imm := true, ord := [0, 1] } [usrc 0 1 .bit] [(true, 127)] (memBase.accessWait 0 0 false false) ∧
    smLegal (issOf memBase) 127 1 0xFF = true ∧
    Access memBase (issOf memBase) .load false 8 [(0, smAddress (issOf memBase) 1 0x1F 8)]
      (reached memBase .load 8 [(0, smAddress (issOf memBase) 1 0x1F 8)]).1 (reached memBase .load 8 [(0, smAddress (issOf memBase) 1 0x1F 8)]).2 :=
  ⟨memUnit (by decide +kernel), by decide +kernel, access (by decide +kernel), by decide +kernel, memUnit (by decide +kernel),
    by decide +kernel, access (by decide +kernel)⟩
theorem witness_LoadWords_checks :
    (let las : List (Nat × DWord) := [(0, 0x20000), (1, 0x20001), (2, 0x20002)]
     (las.map (·.1)).Nodup ∧ las = [(0, 0x20000)] ++ (1, 0x20001) :: [(2, 0x20002)] ∧ (0x20001 : DWord).toNat % 4 ≠ 0 ∧
      ∀ x ∈ [((0 : Nat), (0x20000 : DWord))], x.2.toNat % 4 = 0) ∧
    (let las : List (Nat × DWord) := [(0, 0x20000), (1, 0x1FFFC)]
     (∀ x ∈ las, x.2.toNat % 4 = 0) ∧ (issOf memBase).wv.regs.stklim ≠ 0 ∧ 0x1FFFC < (issOf memBase).wv.regs.stklim ∧
      (issOf memBase).wv.regs.stklim ≤ 0x20000) := by decide +kernel

/-- Shape 0 of the context: fmt and space as given, 8 by 4 elements at 0x20000 (R119). -/
def shapedBase (r : Shape) : State := { memBase with ctxs := memBase.ctxs.map fun c => { c with shapes := [(0, r)] } }

/-- A shape record: base, space, format, sizes and the stride of dimension 1 (R175). -/
def mkShape (base space fmt n0 n1 stride : Nat) (cls : Nat := 0) : Shape :=
  BitVec.ofNat 512 (base + 2 ^ 64 * (n0 + 2 ^ 46 + 2 ^ 48 * cls + 2 ^ 54 * space + 2 ^ 60 * fmt) + 2 ^ 128 * n1 + 2 ^ 256 * stride)

theorem witness_ShapedLoads :
    (let s := shapedBase (mkShape 0x20000 0 1 8 4 32)
     let r := s.shapeOf 0 0
     MemUnit s (issOf s) { imm := true, ord := [0, 1] } (vmSrcs 2 0) [] (s.accessWait 0 0 false false) ∧ vmLegal (issOf s) 4 2 0 1 true = true ∧
     shapedOk r false = true ∧ r.fmt = 1 ∧ s.checkAll (issOf s) (issOf s).wv [] (regSpan 4 1) = .go ∧
     (let las := ((lanesOf (issOf s).fr.live).filter fun l => r.inside (shapedCoord (issOf s).c (issOf s).wv 2 0 l)).map fun l =>
        (l, BitVec.ofInt 64 (r.addrOf (shapedCoord (issOf s).c (issOf s).wv 2 0 l)))
      las.length = 32 ∧ accessOk s .load false 4 las = true) ∧ s.missOk 1 0 0 = true) ∧
    shapedOk (mkShape 0x20000 1 1 8 4 32) false = false ∧
    (let s := shapedBase (mkShape 0x20000 0 3 8 4 32)
     (s.shapeOf 0 0).fmt = 3 ∧ shapedOk (s.shapeOf 0 0) false = true ∧ (4 % 2 = 0 ∧ vDst (issOf s).wv 5 = true) ∧
     s.checkAll (issOf s) (issOf s).wv [] (regSpan 4 2) = .go) :=
  ⟨⟨memUnit (by decide +kernel), by decide +kernel, by decide +kernel, by decide +kernel, by decide +kernel, by decide +kernel,
    by decide +kernel⟩, by decide +kernel, by decide +kernel⟩

/-- The group has a scratchpad of 128 KiB. -/
def padBase : State := { memBase with groups := memBase.groups.map fun g => { g with vatword := 0x088202 } }
theorem witness_ShapedLoads_pad :
    (let s : State := { padBase with ctxs := padBase.ctxs.map fun c => { c with shapes := [(0, mkShape 64 1 2 8 4 32)] } }
     let r := s.shapeOf 0 0
     shapedOk r true = true ∧ r.fmt ≠ 11 ∧ r.fmt ≠ 3 ∧ r.space = 1 ∧
      s.checkAll (issOf s) (issOf s).wv (vmSrcs 2 0) (regSpan 4 1) = .go ∧ 64 + 32 * 4 ≤ (issOf s).grp.padSize ∧
      r.inside (shapedCoord (issOf s).c (issOf s).wv 2 0 0) = true ∧ r.addrOf (shapedCoord (issOf s).c (issOf s).wv 2 0 0) = 64) := by
  decide +kernel

theorem witness_StoreWords :
    MemUnit memBase (issOf memBase) { imm := true, ord := [0, 2] } (vmSrcs 1 1 ++ [⟨3, false, 4, 4, .bit, false⟩]) [] (memBase.accessWait 0 0 false false) ∧
    vmLegal (issOf memBase) 4 1 1 4 false = true ∧
    Access memBase (issOf memBase) .store false 4 (vmAddresses (issOf memBase) 1 1 0)
      (reached memBase .store 4 (vmAddresses (issOf memBase) 1 1 0)).1 (reached memBase .store 4 (vmAddresses (issOf memBase) 1 1 0)).2 ∧
    (let r := reached memBase .store 4 (vmAddresses (issOf memBase) 1 1 0)
     (r.1.holdFault (issOf memBase) .store r.2).isNone = true) :=
  ⟨memUnit (by decide +kernel), by decide +kernel, access (by decide +kernel), by decide +kernel⟩
theorem witness_StoreWords_uniform :
    MemUnit memBase (issOf memBase) { imm := true, ord := [0, 2] } [usrc 0 1 .bit, usrc 3 127 .bit] [] (memBase.accessWait 0 0 false false) ∧
    smLegal (issOf memBase) 127 1 0x0F = true ∧ accessOk memBase .store false 8 [(0, smAddress (issOf memBase) 1 0x0F 8)] = true :=
  ⟨memUnit (by decide +kernel), by decide +kernel, by decide +kernel⟩
/-- Two lanes store over each other's bytes. -/
theorem witness_StoreWords_bytes :
    (let ts : List (Nat × DWord × Tgt) := [(0, 0x20000, .mem 0x20000), (1, 0x20002, .mem 0x20002)]
     (∀ x ∈ ts, isHostPa x.2.1.toNat = false) ∧ ts = [(0, 0x20000, .mem 0x20000)] ++ (1, 0x20002, .mem 0x20002) :: []) ∧
    (base 0).homeByte 0x200FF = some 0 ∧ isHostPa 0x200FF = false := by decide +kernel

/-- Scratchpad offsets 8 l of the lanes through the window of R271. -/
def winBase : State := { padBase with waves := padBase.waves.map fun v => { v with
  sregs := v.sregs.set 1 ⟨0x4000000000000000, 0, true⟩ } }
theorem witness_WindowWords :
    MemUnit winBase (issOf winBase) { imm := true, ord := [0, 1], rep := some (true, true, false) } (vmSrcs 1 1) (regSpan 4 2) (if winBase.winMem (issOf winBase) 8 (vmAddresses (issOf winBase) 1 1 0) then winBase.accessWait 0 0 false false else none) ∧
    MemUnit winBase (issOf winBase) { imm := true, ord := [0, 2], rep := some (true, true, false) }
      (vmSrcs 1 1 ++ [⟨3, false, 4, 2, .bit, false⟩]) [] (if winBase.winMem (issOf winBase) 8 (vmAddresses (issOf winBase) 1 1 0) then winBase.accessWait 0 0 false false else none) ∧
    (winBase.winFault (issOf winBase) 8 (vmAddresses (issOf winBase) 1 1 0)).isNone = true ∧
    (winBase.winLock (issOf winBase) true 8 (vmAddresses (issOf winBase) 1 1 0)).isNone = true ∧
    (∀ x ∈ vmAddresses (issOf winBase) 1 1 0, (match winBase.window (issOf winBase) x.2 8 with | .pad g _ => g == 0 | _ => false) = true) ∧
    WordUnit winBase (issOf winBase) { imm := true } false (vmSrcs 1 1) [] :=
  ⟨memUnit (by decide +kernel), memUnit (by decide +kernel), by decide +kernel, by decide +kernel, by decide +kernel, wordUnit false (by decide +kernel)⟩

theorem witness_AtomicWords :
    MemUnit memBase (issOf memBase) { imm := true, ord := [0, 1, 2, 3] } (vmSrcs 1 1 ++ [⟨3, false, 4, 1, .int, false⟩] ++ []) (regSpan 4 1)
      (memBase.atomicWait 0 0 (issOf memBase).c.order) ∧
    MemUnit memBase (issOf memBase) { imm := true, ord := [0, 2] } (vmSrcs 1 1 ++ [⟨3, false, 4, 1, .fp32, false⟩] ++ []) [] (memBase.atomicWait 0 0 (issOf memBase).c.order) ∧
    Access memBase (issOf memBase) .atomic false 4 (vmAddresses (issOf memBase) 1 1 0)
      (reached memBase .atomic 4 (vmAddresses (issOf memBase) 1 1 0)).1 (reached memBase .atomic 4 (vmAddresses (issOf memBase) 1 1 0)).2 ∧
    MemUnit memBase (issOf memBase) { ord := [0, 1, 2, 3] } ([usrc 0 1 .bit, usrc 1 2 .int64] ++ []) [(true, 127)] (memBase.atomicWait 0 0 (issOf memBase).c.order) ∧
    accessOk memBase .atomic false 8 [(0, 0x20000)] = true :=
  ⟨memUnit (by decide +kernel), memUnit (by decide +kernel), access (by decide +kernel), memUnit (by decide +kernel), by decide +kernel⟩
theorem witness_AtomicWords_routine :
    MemUnit memBase (issOf memBase) { imm := true, ord := [0, 1, 2, 3] } (vmSrcs 1 1 ++ [⟨3, false, 4, 2, .bit, false⟩]) (regSpan 4 2) (memBase.atomicWait 0 0 (issOf memBase).c.order) ∧
    vmLegal (issOf memBase) 4 1 1 2 true = true ∧ (memBase.partOf 0).isSome = true ∧ memBase.svc = [] :=
  ⟨memUnit (by decide +kernel), by decide +kernel, by decide +kernel, by decide +kernel⟩

/-- A request of lane 3 on its way to address 0x2000C. -/
def reqState (k : ReqKind) (cap : Option (List Byte)) (ev : EvArgs) : State := { memBase with
  cur := none
  reqs := [⟨5, 0, 0, 1, 0, k, false, 4, 1, 0, 8, 8, List.replicate 32 0x2000C, List.replicate 32 (some 0x2000C), List.replicate 32 cap, 0, 0, false⟩]
  ev := ev }
theorem witness_AccessEvents :
    (let s := reqState (.load 4 false false) none { a := 5, b := 3 }
     ∃ r, s.req? s.ev.a = some r ∧ r.lanes.getLsbD 3 = true ∧ r.captured.getD 3 none = none ∧ r.pa.getD 3 none = some 0x2000C ∧
       (s.placeEarlier r.g r.w (r.va.getD 3 0) 4 5).atomicAhead r 3 0x2000C 4 = false) ∧
    (let s := reqState (.load 4 false false) (some [1, 2, 3, 4]) { a := 5, b := 3 }
     ∃ r, s.req? s.ev.a = some r ∧ r.kind.isAtomic = false ∧ r.kind.isAcquire = false ∧ r.captured.getD 3 none = some [1, 2, 3, 4]) ∧
    (let s := reqState (.atomic 0 [] [] 0 true) none { a := 5, b := 3 }
     ∃ r, s.req? s.ev.a = some r ∧ r.performedAt 3 = false ∧ isGalord (r.va.getD 3 0) = false ∧ (s.placeEarlier r.g r.w (r.va.getD 3 0) 4 5).atomicAhead r 3 0x2000C 4 = false ∧
       r.pa.getD 3 none = some 0x2000C) :=
  ⟨⟨_, rfl, by decide +kernel⟩, ⟨_, rfl, by decide +kernel⟩, ⟨_, rfl, by decide +kernel⟩⟩
/-- The load above reads the byte that the L1 of its core does not hold from its home. -/
theorem witness_AccessEvents_read :
    (let s := reqState (.atomic 0 [] [] 0 true) none { a := 5, b := 3 }
     (s.register 1 (0x2000C / 4)).homeBytes 0x2000C 4 = some [0, 0, 0, 0]) := by decide +kernel

theorem witness_HomeEvents :
    (let s : State := { State.reset with ev := { a := 1, b := 0x2000C }, l1 := [⟨1, 0, 0x8003, 7, 15, 15, false⟩] }
     s.ev.b < 2 ^ 63 ∧ s.l1Word s.ev.a (s.ev.b / 4) = some ⟨1, 0, 0x8003, 7, 15, 15, false⟩) ∧
    (let s : State := { State.reset with ev := { a := 9 }, surrs := [⟨9, 1, 0, none, none, none, false⟩] }
     (s.surrs.find? fun y => y.id == s.ev.a && !y.done) = some ⟨9, 1, 0, none, none, none, false⟩) ∧
    (let s : State := { reqState .acqWord none { a := 9 } with surrs := [⟨9, 1, 0, none, none, some (5, 3), true⟩] }
     (s.surrs.find? fun y => y.id == s.ev.a && y.done) = some ⟨9, 1, 0, none, none, some (5, 3), true⟩ ∧ (s.req? 5).isSome = true) ∧
    (let f : PageFault := ⟨4, 0, 0x30000, 1, ⟨0x21000, 0, 0⟩, none, none, none, [], 0⟩
     let s : State := { State.reset with ev := { a := 4 }, faults := [f] }
     (s.faults.find? fun x => x.id == s.ev.a) = some f) := by decide +kernel

/-- Barrier words at their edges: one pending arrival, none, and byte counts that end a phase or leave the range. -/
theorem witness_BarrierProtocol :
    (let w : BarWords := ⟨0, 1, 1, 0, false, 0⟩
     w.remaining.toNat = 1 ∧ w.bytes = 0) ∧
    (let w : BarWords := ⟨0, 2, 2, 0, false, 0⟩
     1 ≤ w.remaining.toNat ∧ ¬(w.remaining.toNat = 1 ∧ w.bytes = 0)) ∧
    (let w : BarWords := ⟨0, 2, 0, 8, false, 0⟩
     w.remaining = 0 ∧ w.bytes.toInt + -8 = 0 ∧ (2 : Int) ^ 31 ≤ w.bytes.toInt + (2 ^ 31 - 8)) ∧
    (let w : BarWords := ⟨0, 2, 1, 8, false, 0⟩
     w.remaining ≠ 0 ∧ w.remaining.toNat < 2 ∧ w.bytes ≠ 0) ∧
    ((base 0).barRead (.glob 0x20000)).isSome = true ∧
    (let s := fragBase fun f => { f with wait := some (.barrier none 0x20000 0) }
     (∃ v, s.waves = [v] ∧ (∃ f ∈ v.frags, f.wait = some (.barrier none 0x20000 0)))) :=
  ⟨by decide +kernel, by decide +kernel, by decide +kernel, by decide +kernel, by decide +kernel, ⟨_, rfl, by decide +kernel⟩⟩
theorem witness_BarrierProtocol_grid :
    WordUnit (base 0) (issOf (base 0)) {} true [] [(true, 127)] ∧ (issOf (base 0)).ln.coresident = false ∧
    (let s := launchBase fun l => { l with coresident := true }
     (issOf s).ln.coresident = true ∧ (s.accessWait 0 0 true true).isNone = true ∧
     (issOf s).ln.totalWaves ≤ (issOf s).ln.gbArrived + 1 + (issOf s).ln.wavesExited ∧ s.waves = [(issOf s).wv] ∧
     (issOf s).wv.frags = [(issOf s).fr]) ∧
    (let s := launchBase fun l => { l with coresident := true, gdim := (2, 1, 1) }
     (issOf s).ln.gbArrived + 1 + (issOf s).ln.wavesExited < (issOf s).ln.totalWaves) :=
  ⟨wordUnit true (by decide +kernel), by decide +kernel, by decide +kernel, by decide +kernel⟩

/-- S1 names a barrier in the data page, S2 a count of 1 and phase 0. -/
def barBase (va : DWord) : State := { padBase with waves := padBase.waves.map fun v => { v with
  sregs := (v.sregs.set 1 ⟨va, 0, true⟩).set 2 ⟨1, 0, true⟩ } }
/-- A barrier word reaches its barrier. -/
def barOk (s : State) (sync rel peer : Bool) (va : DWord) : Bool :=
  (s.accessWait (issOf s).c.g (issOf s).c.w sync rel).isNone &&
  match s.barAt (issOf s).grp.core (issOf s).grp.ctx (issOf s).grp peer va with | .ok u b => (u.barRead b).isSome | _ => false
theorem barUnit {s : State} {sync rel peer : Bool} {va : DWord} (h : barOk s sync rel peer va = true) :
    ∃ u b w, BarUnit s (issOf s) sync rel peer va u b w := by
  simp only [barOk, Bool.and_eq_true, Option.isNone_iff_eq_none] at h
  obtain ⟨h1, h2⟩ := h
  cases h3 : s.barAt (issOf s).grp.core (issOf s).grp.ctx (issOf s).grp peer va with
  | ok u b =>
    rw [h3] at h2
    obtain ⟨w, hw⟩ := Option.isSome_iff_exists.mp h2
    exact ⟨u, b, w, h1, h3, hw⟩
  | _ => simp [h3] at h2

theorem witness_BarrierWords :
    WordUnit (barBase 0x20010) (issOf (barBase 0x20010)) {} true [usrc 0 1 .bit, usrc 1 2 .bit] [] ∧
    WordUnit (barBase 0x20010) (issOf (barBase 0x20010)) {} true [usrc 1 1 .bit, usrc 2 2 .bit] [(true, 3)] ∧
    (∃ u b w, BarUnit (barBase 0x20010) (issOf (barBase 0x20010)) true true false 0x20010 u b w) ∧
    (∃ u b w, BarUnit (barBase 0x20010) (issOf (barBase 0x20010)) false false false 0x20010 u b w) ∧
    (∃ u b w, BarUnit (barBase 0x4000000000000010) (issOf (barBase 0x4000000000000010)) true false false 0x4000000000000010 u b w) ∧
    ((1 : DWord).setWidth 16 : BitVec 16) ≠ 0 :=
  ⟨wordUnit true (by decide +kernel), wordUnit true (by decide +kernel), barUnit (by decide +kernel), barUnit (by decide +kernel),
    barUnit (by decide +kernel), by decide⟩

theorem witness_OrderingWords :
    WordUnit memBase (issOf memBase) {} false [] [(true, 127)] ∧ (memBase.accessWait 0 0 true false).isNone = true ∧
    WordUnit memBase (issOf memBase) {} false [usrc 1 1 .bit] [(true, 127)] ∧
    Access memBase (issOf memBase) .load false 4 [(0, 0x20000)] (reached memBase .load 4 [(0, 0x20000)]).1
      (reached memBase .load 4 [(0, 0x20000)]).2 ∧
    (reached memBase .load 4 [(0, 0x20000)]).2.length = 1 ∧
    WordUnit memBase (issOf memBase) {} false [usrc 0 1 .bit, usrc 1 2 .bit] [] ∧ (memBase.accessWait 0 0 true true).isNone = true ∧
    accessOk memBase .store false 4 [(0, 0x20000)] = true :=
  ⟨wordUnit false (by decide +kernel), by decide +kernel, wordUnit false (by decide +kernel), access (by decide +kernel), by decide +kernel,
    wordUnit false (by decide +kernel), by decide +kernel, by decide +kernel⟩
/-- A token of shape 5 that core 1 holds, with core 2 in its queue; S1 names the shape, S2 the oldest request. -/
def tokenBase (holder who : Nat) : State := { barBase 5 with
  waves := (barBase 5).waves.map fun v => { v with sregs := v.sregs.set 2 ⟨BitVec.ofNat 64 who, 0, true⟩ }
  tokens := [⟨0, 5, 0, holder, [(2, none, 0x20010)]⟩] }
theorem witness_OrderingWords_tokens :
    ((base 0).token? 0 0).isNone = true ∧ (tokenBase 1 0x1FF).token? 0 5 = some ⟨0, 5, 0, 1, [(2, none, 0x20010)]⟩ ∧
    (tokenBase 1 0x1FF).tokenBusy 0 1 5 = false ∧ (issOf (tokenBase 1 0x1FF)).grp.core = 1 ∧ (tokenBase 1 3).wheelCore 0 0 3 = true ∧
    (tokenBase 7 0x20010).token? 0 5 = some ⟨0, 5, 0, 7, [(2, none, 0x20010)]⟩ ∧ (tokenBase 7 0x20010).wheelCore 0 0 1 = true ∧
    (∃ u b w, BarUnit (tokenBase 7 0x20010) (issOf (tokenBase 7 0x20010)) false false false 0x20010 u b w) :=
  ⟨by decide +kernel, by decide +kernel, by decide +kernel, by decide +kernel, by decide +kernel, by decide +kernel, by decide +kernel,
    barUnit (by decide +kernel)⟩

/-! ## Sections -/

/-- Lane l of V2, V3 holds the key l + 1; lane 3 of another state holds its key. -/
def keyBase (held : List Held) : State := waveBase fun v => { v with
  vregs := v.vregs.set 2 ⟨(List.range 32).map fun l => BitVec.ofNat 32 (l + 1), 0, 0⟩, held := held }
theorem witness_SectionWords :
    (let s := keyBase []
     WordUnit s (issOf s) {} false (secSrcs 2 4 true true) [(false, 127)] ∧ WordUnit s (issOf s) {} false (secSrcs 2 4 true true) [] ∧
     noPorts (issOf s).wv (secSrcs 2 4 true true) ∧ (s.accessWait 0 0 true false).isNone = true ∧
     WordUnit s (issOf s) {} false [⟨0, false, 2, 2, .bit, true⟩] [(false, 5)]) ∧
    (let s := keyBase ((List.range 32).map fun l => ⟨l, BitVec.ofNat 64 (l + 1)⟩)
     WordUnit s (issOf s) {} false [⟨0, false, 2, 2, .bit, true⟩] [] ∧ (s.accessWait 0 0 true true).isNone = true ∧
     ∀ l < 32, (issOf s).fr.live.getLsbD l = true → ⟨l, keyOf (issOf s).wv 2 l⟩ ∈ (issOf s).wv.held) :=
  ⟨⟨wordUnit false (by decide +kernel), wordUnit false (by decide +kernel), portFree_spec (by decide +kernel), by decide +kernel,
    wordUnit false (by decide +kernel)⟩, wordUnit false (by decide +kernel), by decide +kernel, by decide +kernel⟩

/-- Key 7 of context 0 with a waiter whose number is 1. -/
def secState (kind : Nat) (holder : Option (Nat × Nat × Nat)) (refused : LaneMask) (wait : Wait) (ev : EvArgs) : State := { State.reset with
  parts := [freshPart 0 1 0 0], vfs := [freshVf 0 (some 0)], ctxs := [{ freshCtx 0 1 with phase := .running }]
  launches := [placeLaunch], groups := [placeGroup]
  waves := [{ freshWave 0 0 8 128 128 0x1000 0x1800 false 0 with frags := [⟨0, 0, 8, 0, 15, 0x1000, 0, some wait, none, none, none, none, false, false⟩] }]
  secs := [⟨0, 7, 1, 0, holder, none, [⟨5, 0, 0, 3, 1, 65536⟩], 0, false⟩]
  calls := [⟨5, kind, 0, 0, 0, 9, 8, 8, List.replicate 32 7, List.replicate 32 1, refused, 65536, 0⟩], ev := ev }
theorem witness_SectionWords_leave :
    (∃ e, (secState 0 none 0 .section_ {}).sec? 0 7 = some e ∧ (e.waiters.find? fun x => x.seq == 1).isSome = true ∧
      (∀ w ∈ e.waiters, w.seq ≠ 0) ∧ e.waiters ≠ []) := ⟨_, rfl, by decide +kernel⟩
theorem witness_SectionEvents :
    (let s := secState 0 (some (0, 0, 3)) 0 .section_ { a := 5, b := 3 }
     ∃ c e v f, s.call? s.ev.a = some c ∧ c.kind = 0 ∧ c.refused = 0 ∧ c.lanes.getLsbD 3 = true ∧ s.sec? c.ctx (c.keys.getD 3 0) = some e ∧
       e.holder = some (c.g, c.w, 3) ∧ s.wave? c.g c.w = some v ∧ (v.frags.find? fun f => f.live.getLsbD 3 && f.wait == some .section_) = some f) ∧
    (let s := secState 0 none 8 .section_ { a := 5, b := 8 }
     ∃ c v g n, s.call? s.ev.a = some c ∧ s.wave? c.g c.w = some v ∧ s.group? c.g = some g ∧ s.launch? g.launch = some n ∧
       c.refused &&& 8 = 8 ∧ v.regs.tvec ≠ 0 ∧ ∀ f ∈ v.frags, f.frame = none ∧ f.live = 8) :=
  ⟨⟨_, _, _, _, rfl, by decide +kernel, by decide +kernel, by decide +kernel, rfl, by decide +kernel, rfl, rfl⟩,
    ⟨_, _, _, _, rfl, rfl, rfl, rfl, by decide +kernel⟩⟩
theorem witness_SectionEvents_query :
    (let s := secState 2 none 0 .entert { a := 5, b := 3 }
     ∃ c, s.call? s.ev.a = some c ∧ c.kind = 2 ∧ c.lanes.getLsbD 3 = true) ∧
    (let s := { secState 1 none 0 .entert { a := 5, b := 3 } with calls := [⟨5, 1, 0, 0, 0, 9, 12, 12, List.replicate 32 7, List.replicate 32 1, 0, 65536, 0⟩] }
     ∃ c e v, s.call? s.ev.a = some c ∧ c.kind = 1 ∧ s.sec? c.ctx (c.keys.getD 3 0) = some e ∧ s.wave? c.g c.w = some v ∧
       c.dst < v.vregs.length ∧ (v.vreg c.dst).lanes.length = 32 ∧ c.lanes &&& ~~~laneBit 3 ≠ 0) :=
  ⟨⟨_, rfl, by decide +kernel⟩, ⟨_, _, _, rfl, by decide +kernel, rfl, rfl, by decide +kernel⟩⟩
/-- A lane that waits for the key that it holds closes a cycle; a stalled key. -/
theorem witness_SectionEvents_stops :
    (let s := secState 0 (some (0, 0, 3)) 0 .section_ {}
     s.secCycles 0 ≠ [] ∧ s.ctxs = [{ freshCtx 0 1 with phase := .running }] ∧ (s.partOf 0).map Part.n = some 0) ∧
    ((secState 0 none 0 .section_ { a := 0, b := 7 }).sec? 0 (BitVec.ofNat 64 7)).isSome = true := by decide +kernel

/-! ## Engines and the network -/

/-- A wave with values of its own in S1 on. -/
def sBase (s : State) (xs : List DWord) : State := { s with waves := s.waves.map fun v => { v with
  sregs := ⟨0, 0, true⟩ :: (xs.map fun x => ⟨x, 0, true⟩) ++ v.sregs.drop (xs.length + 1) } }
def engineOk (s : State) (srcs : List Src) (engine : Nat) (bar : DWord) (reads writes : List Ext) : Bool :=
  wordOk s {} srcs [] && (bar == 0 || (issOf s).grp.barForm bar) && (s.engineWait (issOf s) engine reads writes).isNone
theorem engineUnit {s : State} {srcs : List Src} {engine : Nat} {bar : DWord} {reads writes : List Ext}
    (h : engineOk s srcs engine bar reads writes = true) : EngineUnit s (issOf s) srcs engine bar reads writes := by
  simp only [engineOk, Bool.and_eq_true, Bool.or_eq_true, beq_iff_eq, Option.isNone_iff_eq_none] at h
  exact ⟨wordUnit true h.1.1, h.1.2, h.2⟩

/-- COPY of 40 bytes from 0x20000 to scratchpad offset 64 with a completion barrier; S126 and S127 are the pair S[c], S[c + 1]. -/
def copyBase : State := sBase padBase [0x4000000000000040, 0x20000, 40, 0x20040]
theorem witness_CopyWords :
    EngineUnit copyBase (issOf copyBase) (engineSrcs 1 2 3 2) 0 0x20040 [extOf 0 0x20000 40] [extOf 0 0x4000000000000040 40] ∧
    EngineUnit copyBase (issOf copyBase) (engineSrcs 1 2 126 2) 0 0 [] [extOf 0 0x4000000000000040 0] ∧
    localForm 0x4000000000000040 = true ∧ localForm 0x20000 = true ∧ ((issOf copyBase).grp.pastEnd 0x4000000000000040 40).isNone = true ∧
    (copyBase.tokenWord (issOf copyBase) (extOf 0 0x4000000000000040 40)).isNone = true :=
  ⟨engineUnit (by decide +kernel), engineUnit (by decide +kernel), by decide +kernel, by decide +kernel, by decide +kernel, by decide +kernel⟩
/-- Multicast entry 1 names one destination, at 0x20000. -/
def mcastBase : State := { sBase padBase [0, 0x20080, 0x20000000028, 0] with
  mcast := [(1, leBytes 272 (1 + 2 ^ 128 * 0x20000))] }
theorem witness_CopyWords_multicast :
    ccEntry 0x20000000028 = 1 ∧ mcPart (mcastBase.mcastEntry 1) = 0 ∧ mcUsed (mcastBase.mcastEntry 1) = [0] ∧
    mcBase (mcastBase.mcastEntry 1) 0 = 0x20000 ∧
    EngineUnit mcastBase (issOf mcastBase) (engineSrcs 1 2 3 2) 0 0 [extOf 0 0x20080 40] [⟨none, 0x20000, 0x20028⟩] :=
  ⟨by decide +kernel, by decide +kernel, by decide +kernel, by decide +kernel, engineUnit (by decide +kernel)⟩
/-- COPYS of shape 1 into shape 2. -/
def copysBase : State := { sBase padBase [0x102, 4, 0, 0] with
  ctxs := padBase.ctxs.map fun c => { c with shapes := [(1, mkShape 0x20000 0 2 8 4 32), (2, mkShape 0x20080 0 6 8 4 16)] } }
theorem witness_CopyWords_shapes :
    (let src := copysBase.shapeOf 0 1
     let dst := copysBase.shapeOf 0 2
     copysFormats src dst = true ∧ copysCount src 4 = 32 ∧ (copysBase.shapeExt (issOf copysBase).grp src).map (·.1) = some ⟨none, 0x20000, 0x20080⟩ ∧
     (copysBase.shapeExt (issOf copysBase).grp dst).map (·.1) = some ⟨none, 0x20080, 0x200C0⟩) ∧
    EngineUnit copysBase (issOf copysBase) (engineSrcs 1 2 3 2) 0 0 [⟨none, 0x20000, 0x20080⟩] [⟨none, 0x20080, 0x200C0⟩] :=
  ⟨by decide +kernel, engineUnit (by decide +kernel)⟩

/-- A command of the group, between units. -/
def mkCmd (engine op : Nat) (a b : DWord) (len : Nat) : Cmd :=
  { id := 9, engine := engine, unit := 1, g := 0, w := 0, ctx := 0, launch := 0, op := op, pc := 0x1000, a := a, b := b, c := 0, d := 0
    len := len, byteMode := false, bar := 0, done := 0, started := false, halted := false }
def cmdState (c : Cmd) (ev : EvArgs) : State := { padBase with cur := none, cmds := [c], ev := ev }
theorem witness_CopyEvents :
    (let c := mkCmd 0 0 0x20080 0x20000 40
     let s := cmdState c { a := 9 }
     s.cmd? s.ev.a = some c ∧ s.cmdGoes c = true ∧ s.firstOfGroup c = true ∧ (∀ f ∈ s.faults, f.cmd ≠ some c.id) ∧ nextUnit c.a c.b false 40 0 = (0, 40)) ∧
    (let c := mkCmd 0 2 0x20080 0xAB 40
     let s := cmdState c { a := 9 }
     s.cmd? s.ev.a = some c ∧ s.cmdGoes c = true ∧ s.firstOfGroup c = true) ∧
    (let c := { mkCmd 0 0 0x20080 0x20000 40 with done := 40 }
     (cmdState c { a := 9 }).cmd? 9 = some c ∧ c.len ≤ c.done ∧ (cmdState c { a := 9 }).cmdGoes c = true) ∧
    (let s := fragBase fun f => { f with wait := some .engine }
     ∃ v, s.wave? 0 0 = some v ∧ (∃ f ∈ v.frags, f.id = 0 ∧ f.wait = some .engine)) ∧
    (let s := cmdState (mkCmd 0 0 0x20080 0x20000 40) { a := 0, b := 0, c := 1 }
     (∀ c ∈ s.cmds, c.started = false) ∧ (s.cmds.map Cmd.id).Nodup) := by
  refine ⟨by decide +kernel, by decide +kernel, by decide +kernel, ⟨_, rfl, by decide +kernel⟩, by decide +kernel⟩
/-- The unit's read and write are those of the engine. -/
theorem witness_CopyEvents_unit :
    (let s := cmdState (mkCmd 0 0 0x20080 0x20000 4) { a := 9 }
     (match s.engRead 1 0 .glob 0x20000 4 with
      | .ok u bs => bs == [0, 0, 0, 0] && (match u.engWrite 1 0 .glob 0x20080 bs with | .ok _ _ => true | _ => false)
      | _ => false) = true) := by decide +kernel

theorem routeOk_port {s : State} {part pkg : Nat} (h : s.hasPort part = true) : s.routeOk part 0 pkg = true := by simp [State.routeOk, h]
/-- The module has an identity, the partition a press port and a link; S1 is a peer's address, S2 local, S5 a remote barrier. -/
def netBase (x y : DWord) (n : DWord) : State :=
  let s : State := sBase padBase [x, y, n, 0, 0x8000400000000100]
  { s with top := { s.top with pkgid := some 1, ports := [(0, 0)], links := [(2, 0)] } }
theorem witness_NetworkWords :
    (let s := netBase 0x8000400000000000 0x20000 40
     EngineUnit s (issOf s) (engineSrcs 1 2 3 2) 7 0 [extOf 0 0x20000 40] [] ∧
     EngineUnit s (issOf s) (engineSrcs 1 2 3 3) 7 0 [extOf 0 0x20000 40] [] ∧ isGalord 0x8000400000000000 = true ∧ localForm 0x20000 = true ∧
     s.routeOk 0 (ncRoute 40) 1 = true ∧ ncRoute 40 ≠ 3 ∧ (s.partOf 0).map Part.n = some 0 ∧ s.top.pkgid ≠ none ∧
     isGalord ((issOf s).operand 3 2) = true ∧ ((issOf s).operand 3 2).toNat % 16 = 0) ∧
    (let s := netBase 0x20000 0x8000400000000000 40
     EngineUnit s (issOf s) (engineSrcs 1 2 3 2) 7 0 [] [extOf 0 0x20000 40] ∧ (s.tokenWord (issOf s) (extOf 0 0x20000 40)).isNone = true) :=
  ⟨⟨engineUnit (by decide +kernel), engineUnit (by decide +kernel), by decide +kernel, by decide +kernel, routeOk_port (by decide +kernel),
    by decide +kernel, by decide +kernel, by decide +kernel, by decide +kernel, by decide +kernel⟩, engineUnit (by decide +kernel), by decide +kernel⟩

/-- Channel 0 sends, with the permits given; every lane's record goes to it. -/
def fwdBase (permits : Nat) : State :=
  let s := netBase 0 0 0
  { s with
    parts := s.parts.map fun p => { p with fwdcfg := 4 }
    chans := [⟨0, 0, BitVec.ofNat 256 (2 ^ 64 * 64 + 2 ^ 21 + 2 ^ 19 + 2), permits, 0⟩] }
def fwdSrcs : List Src := [⟨0, false, 4, 15, .bit, true⟩, ⟨1, true, 1, 1, .bit, true⟩]
theorem witness_NetworkWords_forward :
    (let s := fwdBase 64
     WordUnit s (issOf s) {} false fwdSrcs [] ∧ WordUnit s (issOf s) {} false fwdSrcs [(false, 127)] ∧ noPorts (issOf s).wv fwdSrcs ∧
     (∃ p, s.partOf 0 = some p ∧ ∀ l < 32, s.chanOk p (fwdChannel (fwdRead (issOf s).wv 4 0).2 l) = true) ∧
     (s.accessWait 0 0 false true).isNone = true ∧ (∀ c ∈ s.chans, 32 ≤ c.permits)) ∧
    (let s := fwdBase 0
     (∃ p c, s.partOf 0 = some p ∧ s.sendChan p (fwdChannel (fwdRead (issOf s).wv 4 0).2 0) = some c ∧ c.permits = 0) ∧
     lanesOf (issOf s).fr.live = 0 :: (List.range 31).map (· + 1)) :=
  ⟨⟨wordUnit false (by decide +kernel), wordUnit false (by decide +kernel), portFree_spec (by decide +kernel), ⟨_, rfl, by decide +kernel⟩,
    by decide +kernel, by decide +kernel⟩, ⟨_, _, rfl, rfl, by decide +kernel⟩, by decide +kernel⟩

/-- A network command of the group under way. -/
def netState (op : Nat) (ev : EvArgs) : State :=
  let s := netBase 0 0 0
  { s with cur := none, ev := ev, cmds := [mkCmd 7 op (if op = 1 then 0x20000 else 0x8000400000000000) (if op = 1 then 0x8000400000000000 else 0x20000) 8] }
theorem witness_NetworkEvents :
    (let s := netState 0 { a := 9 }
     ∃ c, s.cmd? s.ev.a = some c ∧ c.engine = 7 ∧ s.cmdGoes c = true ∧ s.firstOfGroup c = true ∧ c.retry = 0 ∧ c.len ≠ 0 ∧
       s.isOwnPkg (galordPkg c.a) = false ∧ (∀ f ∈ s.faults, f.cmd ≠ some c.id) ∧ s.req? s.ev.a = none ∧ (∀ r ∈ s.regq, r.id ≠ s.ev.a ∨ r.id = 0) ∧
       (match s.engRead 1 0 .glob 0x20000 8 with | .ok u _ => !u.isOwnPkg 2 | _ => false) = true) ∧
    (let s := netState 1 { a := 9 }
     ∃ c, s.cmd? s.ev.a = some c ∧ s.isOwnPkg (galordPkg c.b) = false ∧ c.op = 1) ∧
    (let s := netBase 0 0 0
     (2, 0) ∈ s.top.links ∧ (s.top.links.map (·.1)).Nodup ∧ (s.part? 0).isSome = true ∧ (s.top.ports.find? fun x => x.2 == 0) = some (0, 0)) ∧
    (let s := fwdBase 3
     let t : State := { s with ev := { a := 0, b := 0 }, fwds := [⟨7, 0, 0, 0, 0, 0, []⟩] }
     (t.fwds.find? fun f => f.part == t.ev.a && f.ch == t.ev.b) = some ⟨7, 0, 0, 0, 0, 0, []⟩) :=
  ⟨⟨_, rfl, by decide +kernel⟩, ⟨_, rfl, by decide +kernel⟩, by decide +kernel, by decide +kernel⟩
/-- A host page that stage 2 lets the network write, and a line borrowed from a peer. -/
theorem witness_NetworkEvents_tables :
    (let s : State := { State.reset with parts := [freshPart 0 1 0 0], ev := { a := 0, b := 0x1F }, borrow := [⟨0, 3, []⟩] }
     (s.part? s.ev.a).isSome = true ∧ (∀ l ∈ s.launches, l.det = false) ∧ s.borrow ≠ []) ∧
    (let s : State := { State.reset with ev := { a := 4095, bytes := List.replicate 272 0 } }
     s.ev.a < 4096 ∧ s.ev.bytes.length = 272) := by decide +kernel

/-! ## Matrix arrays -/


/-- 16 rows of 32 columns of FP32 at accumulator offset 16 KiB. -/
def cfgA : BitVec 48 := BitVec.ofNat 48 (15 + 31 * 128 + 16 * 2 ^ 32)
/-- The group has tile 1, planes that take FP32, and two groups of its cluster stand. -/
def arrayBase (xs : List DWord) : State :=
  let s := sBase padBase xs
  { s with
    groups := (s.groups.map fun g => { g with tiles := [⟨1, true, false, cfgA⟩], planeFmt := 2, vatword := 0x088202 }) ++
      [{ placeGroup with g := 1, clrank := 1, core := 2, vatword := 0x088202, tiles := [⟨2, true, false, cfgA⟩] }]
    ctxs := s.ctxs.map fun c => { c with shapes := [(3, mkShape 0x20000 0 2 8 4 32)] } }
def arrayOk (s : State) (a b c : BitVec 7) (n : Nat) (t : Option (BitVec 4)) : Bool :=
  wordOk s {} ([usrc 0 a .bit, usrc 1 b .bit, usrc 2 c .bit].take n) [] && sOk (issOf s).wv a.toNat && sOk (issOf s).wv b.toNat &&
    sOk (issOf s).wv c.toNat && (match t with | some x => decide (x.toNat < (issOf s).tiles) | none => true)
theorem arrayUnit {s : State} {a b c : BitVec 7} {n : Nat} {t : Option (BitVec 4)} (h : arrayOk s a b c n t = true) :
    ArrayUnit s (issOf s) a b c n t := by
  simp only [arrayOk, Bool.and_eq_true] at h
  obtain ⟨⟨⟨⟨h1, h2⟩, h3⟩, h4⟩, h5⟩ := h
  refine ⟨wordUnit true h1, ⟨h2, h3, h4⟩, fun x hx => ?_⟩
  subst hx
  simpa using h5

theorem witness_ArrayWords :
    (let s := arrayBase [BitVec.ofNat 64 cfgA.toNat]
     ArrayUnit s (issOf s) 1 2 3 1 (some 15) ∧ cfgA = BitVec.ofNat 48 ((issOf s).wv.sreg 1).val.toNat ∧ cfgFmt cfgA ≠ 3 ∧ 16 ≤ cfgOff cfgA ∧
     cfgOff cfgA * 1024 + cfgRows cfgA * cfgCols cfgA * tileSize (cfgFmt cfgA) ≤ (issOf s).grp.accSize) ∧
    (let s := arrayBase [128, 5, 128]
     ArrayUnit s (issOf s) 1 2 3 0 (some 1) ∧ (issOf s).grp.tile? 1 = some ⟨1, true, false, cfgA⟩ ∧ ArrayUnit s (issOf s) 1 2 3 0 none ∧
     ArrayUnit s (issOf s) 1 2 3 3 none) :=
  ⟨⟨arrayUnit (by decide +kernel), by decide +kernel⟩, arrayUnit (by decide +kernel), by decide +kernel, arrayUnit (by decide +kernel),
    arrayUnit (by decide +kernel)⟩
theorem witness_ArrayWords_blocks :
    (let s := arrayBase [3 + 3 * 2 ^ 16, 0, 0]
     let sh := s.shapeOf 0 3
     ArrayUnit s (issOf s) 1 2 3 3 none ∧ ArrayUnit s (issOf s) 1 2 3 2 (some 1) ∧ s.arrayExt (issOf s).grp sh = (⟨none, 0x20000, 0x20080⟩, none) ∧
     (s.engineWait (issOf s) 1 [⟨none, 0x20000, 0x20080⟩] []).isNone = true ∧ stationary sh.fmt sh.prec ≠ none ∧ (issOf s).grp.accSize ≠ 0 ∧
     stationary (issOf s).grp.planeFmt 8 = some ⟨[2], 0, 8, 128⟩ ∧ sh.fmt = 2 ∧ tileTag (cfgFmt cfgA) = tileTag 0 ∧ 0 + (3 + 1) ≤ cfgRows cfgA ∧
     boffBad (issOf s).grp 0 = false) :=
  ⟨arrayUnit (by decide +kernel), arrayUnit (by decide +kernel), by decide +kernel⟩

theorem witness_TileWords :
    (let s := arrayBase [1 + 2 * 16 + 1 * 256, 0, 0]
     ArrayUnit s (issOf s) 1 2 3 2 none ∧ (s.peer? (issOf s).grp 1).map Group.g = some 1 ∧ 2 < (issOf s).tiles ∧
     ((s.peer? (issOf s).grp 1).bind fun p => p.tile? 2) = some ⟨2, true, false, cfgA⟩ ∧ (issOf s).grp.tile? 1 = some ⟨1, true, false, cfgA⟩) ∧
    (let s := arrayBase [3, 0, 0]
     ArrayUnit s (issOf s) 1 2 3 2 (some 1) ∧ (s.shapeOf 0 3).fmt ∈ moveFormats false (cfgFmt cfgA) ∧ (s.shapeOf 0 3).fmt ∈ moveFormats true (cfgFmt cfgA) ∧
     (s.shapeOf 0 3).cls ≠ 2 ∧ (s.engineWait (issOf s) 1 [] [⟨none, 0x20000, 0x20080⟩]).isNone = true ∧
     (s.tokenWord (issOf s) ⟨none, 0x20000, 0x20080⟩).isNone = true) ∧
    (let s := arrayBase [15, 4, 0]
     ArrayUnit s (issOf s) 1 2 3 2 (some 1) ∧ (lineSpan true cfgA 4).2.2 = [4] ∧ 15 < (lineSpan true cfgA 4).2.1 ∧
     (∀ n ∈ (lineSpan true cfgA 4).2.2, vDst (issOf s).wv n = true ∧ ((issOf s).wv.vreg n).pend = 0 ∧ vOk (issOf s).wv n = true ∧
       (issOf s).wv.port? n = none) ∧ 31 < (lineSpan false cfgA 4).2.1) :=
  ⟨⟨arrayUnit (by decide +kernel), by decide +kernel⟩, ⟨arrayUnit (by decide +kernel), by decide +kernel⟩, arrayUnit (by decide +kernel),
    by decide +kernel⟩
/-- A gang of ranks 0 and 1 in one row of two columns; a stream of shape 3 to both groups. -/
theorem witness_TileWords_gang :
    (let x : Nat := 3 + 1 * 2 ^ 18 + 1 * 2 ^ 32
     let s := arrayBase [BitVec.ofNat 64 x, 3, 0]
     let ms := ((List.range 16).filter fun k => ebit x k).filterMap fun k => s.peer? (issOf s).grp k
     ArrayUnit s (issOf s) 1 2 3 2 (some 1) ∧ ms.map Group.g = [0, 1] ∧ ((List.range 16).filter fun k => ebit x k).length = (x / 2 ^ 16 % 4 + 1) * 2 ∧
     x / 2 ^ 32 % 2 ^ 16 ≠ 0 ∧ x / 2 ^ 21 % 8 + 2 ≤ 8 ∧
     (s.engineWait (issOf s) 1 (((ms.map fun m => s.arrayExt m (s.shapeOf 0 3)).filter fun e => e.2.isNone).map (·.1)).eraseDups []).isNone = true) ∧
    (let x : Nat := 3 + 5 * 256 + 1 * 2 ^ 12 + 3 * 2 ^ 16 + 4 * 2 ^ 32
     let s := arrayBase [BitVec.ofNat 64 x, 0, 128]
     WordUnit s (issOf s) {} true [usrc 0 1 .bit, usrc 1 2 .bit, usrc 2 3 .bit] [] ∧ ebit x 11 = false ∧
     (((List.range 16).filter fun k => ebit x (16 + k)).map (fun k => s.peer? (issOf s).grp k)) = s.groups.map some ∧
     (∀ g ∈ s.groups, 128 + 2 * 8192 ≤ g.padSize) ∧ stationary (s.shapeOf 0 3).fmt (s.shapeOf 0 3).prec = some ⟨[2], 0, 8, 128⟩ ∧ s.streams = []) := by
  refine ⟨⟨arrayUnit (by decide +kernel), by decide +kernel⟩, wordUnit true (by decide +kernel), by decide +kernel⟩

/-- Core 1's array with one command of the group at its head. -/
def arrayCmdState (c : Cmd) : State := { arrayBase [] with cur := none, cmds := [c], ev := { a := 1 } }
theorem witness_ArrayResults :
    (∀ op < 14, let c := mkCmd 1 op 0 0 0
     (arrayCmdState c).arrayPick (arrayCmdState c).ev.a = some c ∧ ((arrayCmdState c).group? c.g).isSome = true) ∧
    (let c := { mkCmd 1 2 0 0 0 with payload := leBytes 64 (mkShape 0x20000 0 2 8 4 32).toNat }
     (arrayCmdState c).arrayPick 1 = some c ∧ c.blocks = [] ∧ stationary c.shapeRec.fmt c.shapeRec.prec = some ⟨[2], 0, 8, 128⟩ ∧
     (match (arrayCmdState c).group? 0 with | some g => ((arrayCmdState c).regionOf g c.shapeRec).isSome | none => false) = true) ∧
    (let c := { mkCmd 1 7 0 1 16 with c := tileWord 1 cfgA }
     (arrayCmdState c).arrayPick 1 = some c ∧ ((arrayCmdState c).group? c.b.toNat).isSome = true ∧ c.tile = 1) ∧
    (let c := { mkCmd 1 10 15 4 0 with c := tileWord 1 cfgA }
     cfgFmt c.cfg ≠ 1 ∧ (∀ n ∈ (lineSpan true c.cfg c.b.toNat).2.2, n < 128) ∧ ((arrayCmdState c).wave? c.g c.w).isSome = true) := by
  decide +kernel

/-- The feeder's record: one loop of 32 elements of shape 3 to queue 5. -/
def feedRecord : List Byte := leBytes 8 (3 + 5 * 256) ++ leBytes 16 0 ++ leBytes 8 (31 + 2 ^ 32) ++ leBytes 32 0
theorem witness_ArrayEvents :
    (let c := { mkCmd 1 0 0 0 0 with finished := true }
     let s := cmdState c { a := 9 }
     s.cmd? s.ev.a = some c ∧ c.engine = 1 ∧ c.finished = true ∧ s.cmdGoes c = true) ∧
    (let s : State := { arrayBase [] with gangs := [⟨9, [], false, some 64, [0, 1]⟩], ev := { a := 9 } }
     (s.gangs.find? fun y => y.id == s.ev.a) = some ⟨9, [], false, some 64, [0, 1]⟩) ∧
    (let sh := mkShape 0x20000 0 2 8 4 32
     arMalformed feedRecord sh = false ∧ arTotal feedRecord = 32 ∧ arQueue feedRecord = 5 ∧ arMalformed feedRecord 0 = true) ∧
    (let f : Fill := ⟨9, 0, 0, 5, none, 2, 5, 0x20000, feedRecord ++ leBytes 64 (mkShape 0x20000 0 2 8 4 32).toNat⟩
     let s : State := { base 0 with fills := [f], ev := { a := 9 } }
     (s.fills.find? fun f => f.id == s.ev.a && f.kind == 2) = some f ∧ (s.group? f.g).isSome = true ∧ f.bytes ≠ [] ∧
     (s.cmds.filter fun c => c.engine == 2 && c.g == f.g).length < 5) := by decide +kernel
/-- A stream of one block with a free slot, and a feeder command with room in its queue. -/
theorem witness_ArrayEvents_units :
    (let st : Stream := ⟨9, 0, 5, mkShape 0x20000 0 2 8 4 32, 1, 2, false, 0, 0, 8, 1, 0, [⟨0, 0, [], []⟩], 0, []⟩
     let s : State := { cmdState (mkCmd 3 5 0 0 1) { a := 0, b := 5 } with streams := [st] }
     (s.streams.find? fun x => x.g == s.ev.a && x.q == s.ev.b) = some st ∧ s.stream? st.id = some st ∧ (s.cmd? st.id).isSome = true ∧
     s.cmdGoes (mkCmd 3 5 0 0 1) = true ∧ st.read < st.nblocks ∧ (∀ z ∈ st.subs, st.read < st.win ∧ st.read ∉ z.drop)) ∧
    (let c := { mkCmd 2 5 0 0 32 with payload := feedRecord ++ leBytes 64 (mkShape 0x20000 0 2 8 4 32).toNat }
     let s := cmdState c { a := 0 }
     (s.cmds.find? fun c => c.engine == 2 && c.g == s.ev.a) = some c ∧ s.cmdGoes c = true ∧
     (match s.group? 0 with | some g => decide ((g.queue 5).length < 16) | none => false) = true ∧
     (match eachMem (fun s k => s.feedElem 1 0 .glob (mkShape 0x20000 0 2 8 4 32) feedRecord k) (List.range 32) s with
      | .ok _ xs => xs.length == 32 | _ => false) = true) := by decide +kernel

/-! ## Work, shapes and shared units -/

theorem witness_WorkWords :
    (let s := sBase padBase [1, 2, 0x20000]
     WordUnit s (issOf s) {} true [usrc 1 2 .bit, usrc 2 3 .bit] [(true, 1)] ∧ WordUnit s (issOf s) {} true [usrc 1 2 .bit] [(true, 1)] ∧
     WordUnit s (issOf s) {} true [usrc 2 3 .bit] [(true, 1), (true, 2)] ∧ WordUnit s (issOf s) {} true [usrc 0 1 .bit, usrc 1 2 .bit, usrc 2 3 .bit] [] ∧
     WordUnit s (issOf s) {} true [usrc 0 1 .bit, usrc 1 2 .bit] [] ∧ WordUnit s (issOf s) {} true [usrc 0 1 .bit] [] ∧
     (s.accessWait 0 0 true true).isNone = true ∧ vOk (issOf s).wv (120 + 7) = true ∧ ((issOf s).wv.vreg 127).pend = 0) :=
  ⟨wordUnit true (by decide +kernel), wordUnit true (by decide +kernel), wordUnit true (by decide +kernel), wordUnit true (by decide +kernel),
    wordUnit true (by decide +kernel), wordUnit true (by decide +kernel), by decide +kernel⟩
/-- A record of n bytes is read. -/
def recordOk (s : State) (va : DWord) (n : Nat) : Bool :=
  (s.memFault (issOf s) .load false n [(0, va)]).isNone && !isGalord va &&
  match s.translate (issOf s).grp.core (issOf s).grp.ctx va.toNat .load with
  | (u, .ok pa _) => (u.loadBytes (issOf s).grp.core pa n).isSome
  | _ => false
theorem recordRead {s : State} {va : DWord} {n : Nat} (h : recordOk s va n = true) : ∃ u bs, RecordRead s (issOf s) va n u bs := by
  simp only [recordOk, Bool.and_eq_true, Option.isNone_iff_eq_none, Bool.not_eq_true'] at h
  obtain ⟨⟨h1, h2⟩, h3⟩ := h
  rcases h4 : s.translate (issOf s).grp.core (issOf s).grp.ctx va.toNat .load with ⟨u, x⟩
  cases x with
  | ok pa sh =>
    simp only [h4] at h3
    obtain ⟨bs, hb⟩ := Option.isSome_iff_exists.mp h3
    exact ⟨u, bs, h1, h2, pa, sh, h4, hb⟩
  | _ => simp [h4] at h3
theorem witness_WorkWords_record : (∃ u bs, RecordRead (base 0) (issOf (base 0)) 0x20000 64 u bs) ∧
    (∃ u bs, RecordRead (base 0) (issOf (base 0)) 0x200C0 64 u bs) := ⟨recordRead (by decide +kernel), recordRead (by decide +kernel)⟩

/-- A node of 8-byte records with one edge to itself, whose group has 2 reservations. -/
def testNode (srcs : List (Option Nat)) : Node := ⟨0x1000, 0, 0, 0, 8, 8, 32, 0x080002, 64, 8, 0, 0, [(0, 2)], 0x20000, 0, srcs, List.range srcs.length, 2, [], 0, 0, true, 0⟩
def enqBase (a b c : DWord) : State :=
  let s := sBase padBase [a, b, c]
  { s with
    groups := s.groups.map fun g => { g with node := some 0, reserved := [2] }
    launches := s.launches.map fun l => { l with graph := true, nodes := [testNode []] } }
theorem witness_WorkOutcomes :
    (let s := enqBase 0 0x20040 2
     WordUnit s (issOf s) {} true [usrc 0 1 .bit, usrc 1 2 .bit, usrc 2 3 .bit] [] ∧ (s.accessWait 0 0 true true).isNone = true ∧
     (issOf s).grp.reserved.getD 0 0 = 2 ∧ ((issOf s).grp.node.bind fun k => (issOf s).ln.nodes[k]?) = some (testNode []) ∧
     (testNode []).edges[0]? = some (0, 2) ∧ (testNode []).edges[1]? = none ∧
     accessOk s .load false 8 [(0, 0x20040), (0, 0x20048)] = true ∧
     (match s.enqSlots 1 0 (testNode []) [List.replicate 8 1, List.replicate 8 2] with | .ok _ _ => true | _ => false) = true) ∧
    ((issOf (base 0)).grp.node.bind fun k => (issOf (base 0)).ln.nodes[k]?) = none :=
  ⟨⟨wordUnit true (by decide +kernel), by decide +kernel⟩, by decide +kernel⟩
theorem witness_WorkOutcomes_fills :
    (let f : Fill := ⟨9, 0, 0, 5, none, 1, 3, 0, leBytes 64 (mkShape 0x20000 0 2 8 4 32).toNat⟩
     let s : State := { base 0 with fills := [f], ev := { a := 9 } }
     (s.fills.find? fun f => f.id == s.ev.a && f.kind == 1) = some f ∧ (s.group? f.g).isSome = true ∧ f.y ≠ 1) ∧
    (let f : Fill := ⟨9, 0, 0, 5, some 6, 3, 0, 0, []⟩
     let s : State := { base 0 with fills := [f], ev := { a := 9 } }
     (s.fills.find? fun f => f.id == s.ev.a && f.kind == 3) = some f ∧ (s.ctx? 0).isSome = true ∧ (∀ x ∈ s.fills, x.kind = 3 → s.ev.a ≤ x.id)) ∧
    (let u : RangeUnit := ⟨0, 0, 5, 10, 2, 3⟩
     0 < u.parts ∧ u.next < u.last) := by decide +kernel

theorem witness_EngineWords :
    (let s := sBase padBase [0, 0, 0]
     WordUnit s (issOf s) {} false [⟨0, false, 4, 4, .bit, true⟩, ⟨1, true, 1, 1, .bit, true⟩] [(false, 8), (false, 9)] ∧
     WordUnit s (issOf s) {} false [⟨0, false, 4, 4, .bit, true⟩, ⟨1, true, 1, 1, .bit, true⟩] [] ∧
     noPorts (issOf s).wv [⟨0, false, 4, 4, .bit, true⟩, ⟨1, true, 1, 1, .bit, true⟩] ∧ s.svcCount 0 0 < 256 ∧
     (s.accessWait 0 0 true true).isNone = true) :=
  ⟨wordUnit false (by decide +kernel), wordUnit false (by decide +kernel), portFree_spec (by decide +kernel), by decide +kernel, by decide +kernel⟩
/-- A scene shape, an image shape, a list of splat records and an output image. -/
def pictureBase (xs : List DWord) : State := { sBase padBase xs with
  ctxs := padBase.ctxs.map fun c => { c with shapes :=
    [(1, mkShape 0x20000 0 15 1 1 64), (2, mkShape 0x20000 0 2 4 4 16), (3, mkShape 0x20000 0 2 12 4 48), (4, mkShape 0x200C0 0 14 4 1 64)] } }
def raySrcs : List Src := ((List.range 8).map fun k => (⟨0, false, 8 + k, 1, .fp32, true⟩ : Src)) ++ [⟨1, true, 1, 1, .bit, true⟩]
theorem witness_EngineWords_trace :
    (let s := pictureBase [1]
     WordUnit s (issOf s) {} false raySrcs ((List.range 4).map fun k => (false, 4 + k)) ∧ vOk (issOf s).wv 15 = true ∧
     (∀ k < 4, vDst (issOf s).wv (4 + k) = true ∧ 4 + k < (issOf s).wv.vregs.length) ∧ noPorts (issOf s).wv raySrcs ∧
     (s.shapeOf 0 1).fmt = 15 ∧ (s.rays.filter fun r => r.wedge == 0).length + (lanesOf (issOf s).fr.live).length ≤ 262144) :=
  ⟨wordUnit false (by decide +kernel), by decide +kernel, by decide +kernel, portFree_spec (by decide +kernel), by decide +kernel⟩
def sampleSrcs : List Src := ((List.range 2).map fun k => (⟨0, false, 8 + k, 1, .fp32, true⟩ : Src)) ++ [⟨1, true, 1, 1, .bit, true⟩]
theorem witness_EngineWords_sample :
    (let s := pictureBase [2]
     let i := issOf s
     let r := s.shapeOf 0 2
     let plan := fun l => lanePlan r (sampleArgs 2) false ((List.range 32).map fun l => laneOperand i.wv .fp32 8 l)[l]! 0 none
     WordUnit s i {} false sampleSrcs ((List.range 4).map fun k => (false, 4 + k)) ∧ sampleImage r = true ∧ (sampleArgs 2).layer < r.size 3 ∧
     (match eachMem (fun s l => (s.sampleLane i r (sampleArgs 2) l (plan l)).andThen fun s y => .ok s (l, y)) (lanesOf i.fr.live) s with
      | .ok _ rs => rs.length == 32 | _ => false) = true) :=
  ⟨wordUnit false (by decide +kernel), by decide +kernel⟩
theorem witness_EngineWords_splat :
    (let s := pictureBase [3 + 4 * 256 + 2 * 2 ^ 32, 2 ^ 32 + 2 ^ 48, 0]
     let list := s.shapeOf 0 3
     let out := s.shapeOf 0 4
     list.fmt = 2 ∧ list.space = 0 ∧ 12 ≤ list.size 0 ∧ 2 ≤ list.size 1 ∧ out.fmt = 14 ∧ out.space = 0 ∧
     (s.tokenWord (issOf s) ⟨none, out.extent.1.toNat, out.extent.2.toNat⟩).isNone = true ∧
     EngineUnit s (issOf s) [usrc 0 1 .bit, usrc 1 2 .bit, usrc 2 3 .bit] 4 0 [⟨none, list.extent.1.toNat, list.extent.2.toNat⟩]
       [⟨none, out.extent.1.toNat, out.extent.2.toNat⟩]) :=
  ⟨by decide +kernel, by decide +kernel, by decide +kernel, by decide +kernel, by decide +kernel, by decide +kernel, by decide +kernel,
    engineUnit (by decide +kernel)⟩
theorem witness_EngineWords_press :
    (let s := pictureBase [0, 0x20000, 9]
     WordUnit s (issOf s) {} true [usrc 1 2 .bit, usrc 2 3 .bit] [(true, 1)] ∧ (s.partOf 0).isSome = true ∧
     (s.accessWait 0 0 false true).isNone = true ∧
     (match s.partOf 0 with | some p => s.pressStatus p 1 (List.replicate 64 0) 0 0 | none => 0) = 3) ∧
    (∃ u bs, RecordRead (pictureBase [0, 0x20000, 9]) (issOf (pictureBase [0, 0x20000, 9])) 0x20000 64 u bs) :=
  ⟨⟨wordUnit true (by decide +kernel), by decide +kernel, by decide +kernel, by decide +kernel⟩, recordRead (by decide +kernel)⟩

theorem witness_RayRefusal :
    (let num := fun x => Fmt.fp32.unpack x
     (num 0x7FC00000).isNan = true ∧ (num 0x3F800000).lt (num 0x40000000) = true ∧ 0x7F800000 / 2 ^ 23 % 2 ^ 8 = 255 ∧ 0x80000000 % 2 ^ 31 = 0) ∧
    vOk (issOf (pictureBase [1])).wv (8 + 7) = true ∧ (4 + 4 ≤ 8 ∨ 8 + 8 ≤ 4) ∧ ((pictureBase [1]).accessWait 0 0 false true).isNone = true := by
  decide +kernel

/-- A ray of lane 0 with one visit to make. -/
def testRay (count : Nat) (hit : Option (Nat × Nat × Nat × Nat)) : Ray :=
  ⟨9, 0, 1, 0, 0, 0, 0, 0, 1, 4, 0x20000, false, false, false, 255, [0, 0, 0], [0x3F800000, 0, 0], 0, 0x3F800000, hit, count, []⟩
theorem witness_RayEvents :
    (let v : Visit := ⟨9, 0, 5, 0x40000000, none, 0⟩
     let s : State := { padBase with cur := none, rays := [testRay 1 none], visits := [v], ev := { a := 0 } }
     s.ev.f ≠ 1 ∧ s.nextVisit s.ev.a = some v ∧ (s.rays.find? fun r => r.id == v.ray) = some (testRay 1 none) ∧
     (match s.runVisit (testRay 1 none) v with | .ok (_, w) => w.more == [] && !w.ended | _ => false) = true) ∧
    (let s : State := { padBase with rays := [testRay 0 (some (3, 7, 0x3F000000, 0x3E800000))], ev := { a := 9 } }
     (s.rays.find? fun r => r.id == s.ev.a) = some (testRay 0 (some (3, 7, 0x3F000000, 0x3E800000))) ∧ (s.wave? 0 0).isSome = true) := by
  decide +kernel

/-- A service record of partition 1 while partition 0 has the turn. -/
def svcRec (part : Nat) (dst : Option Nat) (taken : Bool) (q : Nat) : SvcRec := ⟨9, 0, part, 0, 0, 0, 1, dst, 5, [], q, taken, none, 1, 0, none⟩
theorem witness_UnitEvents :
    (let s : State := { padBase with svc := [svcRec 0 (some 4) false 0], ev := { a := 0 } }
     s.svcNext s.ev.a = some 0 ∧ (s.svc.find? fun r => r.wheel == s.ev.a && r.part == 0 && !r.taken &&
       (match s.ctx? r.ctx with | some c => c.phase == .running | none => false)) = some (svcRec 0 (some 4) false 0)) ∧
    (let s : State := { padBase with svc := [svcRec 1 none false 0], svcTurn := [(0, 0)], ev := { a := 0 } }
     (s.svcTurn.find? fun t => t.1 == s.ev.a).map (·.2) = some 0 ∧ 1 ∈ s.svcParts s.ev.a ∧ (∀ q ∈ s.svcParts s.ev.a, 0 < q → 1 ≤ q)) ∧
    (let s : State := { padBase with svc := [svcRec 0 (some 4) true (2 ^ 20)], ev := { a := 9, b := 0 } }
     (s.svc.find? fun r => r.id == s.ev.a && r.taken) = some (svcRec 0 (some 4) true (2 ^ 20)) ∧ (svcRec 0 (some 4) true 0).lanes.getLsbD s.ev.b = true ∧
     (s.group? 0).isSome = true ∧ (s.wave? 0 0).isSome = true ∧ s.launches.all (fun l => !l.det) = true ∧ 2 ^ 20 ≤ (svcRec 0 none true (2 ^ 20)).queuedAt) ∧
    (let m : Sample := ⟨9, 0, 0, 4, 1, 1, [[0, 0, 0, 0]]⟩
     let s : State := { padBase with samples := [m], ev := { a := 9, b := 0 } }
     (s.samples.find? fun m => m.id == s.ev.a) = some m ∧ m.lanes.getLsbD s.ev.b = true ∧ (s.wave? m.g m.w).isSome = true) := by decide +kernel
/-- A splat command of one tile whose list is empty. -/
theorem witness_UnitEvents_splat :
    (let c := { mkCmd 4 4 (3 + 4 * 256) (2 ^ 32 + 2 ^ 48) 1 with
       unit := 0, payload := leBytes 64 (mkShape 0x20000 0 2 12 4 48).toNat ++ leBytes 64 (mkShape 0x200C0 0 14 4 1 64).toNat ++ leBytes 4 0x3F7F0000 }
     let s := cmdState c { a := 0 }
     ((s.queueOf 4 s.ev.a).find? fun c => s.cmdGoes c) = some c ∧ (s.faults.any fun f => f.cmd == some c.id) = false ∧ (s.group? c.g).isSome = true ∧
     (match s.splatRecords 1 c with
      | .ok u rs => rs.isEmpty && (match u.splatTile 1 c rs with | .ok _ _ => true | _ => false)
      | _ => false) = true) := by decide +kernel

/-- A collective of one rank on press 2. -/
def testColl (stops : Bool) : Coll := ⟨9, 0, 0, stops, [], [], [], 0, false, false⟩
def pressState (started : Bool) (stops : Bool) (ev : EvArgs) : State :=
  { cmdState { mkCmd 5 0 0 0 0 with unit := 2, started := started, payload := List.replicate 192 0 } ev with colls := [testColl stops] }
theorem witness_PressEvents :
    (let s := pressState true false { a := 2, b := 0 }
     (s.pressHead s.ev.a).map (fun x => (x.1.started, x.2)) = some (true, testColl false) ∧ (s.cmds.all fun c => s.cmdGoes c) = true ∧ s.ev.e ≠ 1 ∧
     (∀ c ∈ s.cmds, s.ev.b = rcRank c.pressRec ∧ recBits c.pressRec 2 16 1 = 0 ∧ recBits c.pressRec 4 12 1 = 0)) ∧
    (let s := pressState true true { a := 2, b := 1 }
     (s.pressHead s.ev.a).map (fun x => x.2.stops) = some true ∧ (∀ c ∈ s.cmds, s.ev.b ≠ rcRank c.pressRec)) ∧
    (let s : State := { State.reset with ev := { a := 2, bytes := List.replicate 64 0 } }
     (s.pressHead s.ev.a).isNone = true ∧ s.staging = [] ∧ s.ev.bytes.length ≤ 2 ^ 20) ∧
    tileMode (List.replicate 16 0) = 0 ∧ tileMode (List.replicate 16 0xFF) ≠ 0 := by decide +kernel
/-- A collective that is due to start: its rank table's entry for rank 0 names press 2 of this package. -/
theorem witness_PressEvents_start :
    (let rec_ : List Byte := leBytes 8 0 ++ leBytes 8 0x20000 ++ List.replicate 176 0
     let c := { mkCmd 5 0 0 0 0 with unit := 2, payload := rec_ }
     let s : State := { cmdState c { a := 2 } with
       colls := [testColl false], top := { padBase.top with pkgid := some 1 }, mem := memSets padBase.mem 0x20000 (leBytes 8 (2 * 2 ^ 18 + 1)) }
     (s.pressHead s.ev.a).map (·.1) = some c ∧ c.started = false ∧
     (match s.engRead (s.ctlCore c.ctx) c.ctx .glob (recBits c.pressRec 1 0 64) (8 * rcRanks c.pressRec) with
      | .ok _ ents => recBits (ents.drop (8 * rcRank c.pressRec)) 0 0 21 == 2 * 2 ^ 18 + 1 | _ => false) = true) := by decide +kernel

/-! ## Scheduling, hosts, recovery -/

theorem witness_IssueEvents :
    (let s : State := { base 0 with cur := none, ev := { a := 0, b := 0 } }
     (s.group? s.ev.a).isSome = true ∧ (s.waves.all fun v => s.canIssue v) = true ∧
     ((s.group? s.ev.a).bind fun g => (s.launch? g.launch).map Launch.det) ≠ some true) ∧
    (issOf (splitBase none 0x1000)).wv.frags.length = 2 := by decide +kernel
theorem witness_IssueEvents_apart : (issOf (splitBase none 0x1000)).wv.Apart := ⟨by decide +kernel, by decide +kernel, by decide +kernel⟩

theorem witness_HeartbeatEvents :
    (∃ p, (base 0).part? 0 = some p ∧ (base 0).partOfWedge 0 = some p ∧ (p.hbeat + 1) % 1024 ≠ 0) ∧ (65535 + 1) % 65536 = 0 ∧
    (let s : State := { base 0 with ctxs := [{ freshCtx 0 1 with phase := .running, wdog := 5, wdogTicks := 5 }], ev := { a := 0 } }
     ∃ c, s.ctx? s.ev.a = some c ∧ c.wdog ≠ 0 ∧ c.wdog.toNat ≤ c.wdogTicks ∧ c.phase = .running) ∧
    (let s : State := { base 0 with parts := [{ freshPart 0 1 0 0 with turns := [(3, 0)] }], launches := [{ placeLaunch with prio := 3, nextCluster := 0 }] }
     ∃ p, s.part? 0 = some p ∧ p.turnOf 3 = some 0 ∧ s.placeable 0 = s.launches) :=
  ⟨⟨_, rfl, rfl, by decide +kernel⟩, by decide, ⟨_, rfl, by decide +kernel⟩, ⟨_, rfl, by decide +kernel⟩⟩
/-- Second-stage tables that map the first 4 GiB onto itself. -/
def stage2 (s : State) : State := { s with
  parts := s.parts.map fun p => { p with root2 := 0x4000 }
  mem := memSets (memSets (memSets s.mem 0x4000 (leBytes 8 0x8003)) 0x8000 (leBytes 8 0xC003)) 0xC000 (leBytes 8 (2 ^ 62 + 0xB1D)) }
/-- The same with pages of 2 MiB, one of which may migrate. -/
def stage2Small (s : State) : State :=
  let t := stage2 s
  { t with mem := memSets (memSets t.mem 0xC000 (leBytes 8 0x10003)) 0x10100 (leBytes 8 0x51D) }
theorem witness_HeartbeatEvents_migration :
    (let s := stage2Small (base 0)
     (match s.part? 0 with
      | some p => (match s.leaf2 p 0x20000 with
        | some l => decide (l.bits = 21) && s.mayMigrate p l && s.reaches p (2 ^ 56) && isHostPa (2 ^ 56) && !s.pageBusy l.pa (l.pa + 2 ^ l.bits)
        | none => false)
      | none => false) = true) := by decide +kernel

theorem witness_GroupStart : (∀ v ∈ ({ base 0 with waves := [] } : State).waves, v.g ≠ 5) ∧ ((base 0).group? 5).isNone = true ∧ 0 < placeGroup.nwaves := by
  decide +kernel

theorem witness_PlacementEvents :
    (let l := { placeLaunch with eligible := false, deps := [(0x20000, 5)] }
     let s : State := { base 0 with launches := [l], ev := { a := 0 } }
     s.launch? s.ev.a = some l ∧ l.eligible = false ∧ l.ended = false) ∧
    (let l := { placeLaunch with nextCluster := 0 }
     let s : State := { base 0 with launches := [l], groups := [], waves := [], cur := none, ev := { a := 0 } }
     (s.part? s.ev.a).isSome = true ∧ s.placeable s.ev.a = [l] ∧ l.evicted = [] ∧ l.graph = false ∧ l.coresident = false ∧
     (match s.part? 0 with | some p => (s.findRoom p l.spec (count3 l.cdim)).isSome | none => false) = true) ∧
    (let s : State := { base 0 with ev := { a := 0, b := 0 } }
     (s.clusterGroups s.ev.a s.ev.b).filter Group.resident ≠ [] ∧ ((s.clusterGroups s.ev.a s.ev.b).filter Group.resident).all Group.ended = false ∧
     s.ctxRuns 0 = true ∧ s.clusterBusy ((s.clusterGroups s.ev.a s.ev.b).filter Group.resident) = false) ∧
    (let l := { placeLaunch with evicted := [0] }
     let s : State := { base 0 with launches := [l], groups := [{ placeGroup with resident := false, slot := some 0 }], cur := none, ev := { a := 0, b := 0 } }
     s.launch? s.ev.a = some l ∧ l.evicted.contains s.ev.b = true ∧ s.ctxRuns l.ctx = true ∧ ((s.clusterGroups s.ev.a s.ev.b).map Group.g).Nodup ∧
     (match s.partOf l.ctx with | some p => (s.restoreCores p l s.ev.b).map List.length | none => none) = some (s.clusterGroups s.ev.a s.ev.b).length) := by
  decide +kernel

/-- A graph with one node that may start a group with 32 records. -/
def graphState : State := { base 0 with
  launches := [{ placeLaunch with graph := true, nodes := [{ testNode (List.replicate 32 none) with edges := [], prog := 0x1000 }] }]
  groups := [], waves := [], cur := none, ev := { a := 0 } }
theorem witness_GraphEvents :
    (∃ l p x c r, graphState.launch? 0 = some l ∧ graphState.partOf l.ctx = some p ∧ l.eligible = true ∧ l.graph = true ∧ graphState.ctxRuns l.ctx = true ∧
      l.nodes[0]? = some x ∧ graphState.batchSize l 0 p.hbeat = some 32 ∧ graphState.canReserve l p.n 0 = true ∧
      graphState.findRoom p x.spec 1 = some (c :: r) ∧ l.nodes.length = 1) ∧
    (let s : State := { base 0 with groups := [placeGroup], waves := [{ freshWave 0 0 1 128 128 0x1000 0 false 0 with frags := [] }], ev := { a := 0 } }
     s.group? s.ev.a = some placeGroup ∧ placeGroup.freed = false ∧ (∀ v ∈ s.waves, v.g = 0 → v.frags = []) ∧ s.cmds = []) ∧
    (let l := { placeLaunch with groupsEnded := 1 }
     let s : State := { base 0 with launches := [l], groups := [], waves := [], cur := none, ev := { a := 0 } }
     s.launch? s.ev.a = some l ∧ l.groupsEnded = count3 l.gdim * count3 l.cdim ∧ s.launchBusy s.ev.a = false ∧ l.compl = 0 ∧ l.graph = false) :=
  ⟨⟨_, _, _, _, _, rfl, rfl, by decide +kernel, by decide +kernel, by decide +kernel, rfl, by decide +kernel, by decide +kernel, rfl, by decide +kernel⟩,
    by decide +kernel, by decide +kernel⟩
/-- Channel 2 receives for node 0 of the graph whose COMPL is 64; entries that send and that are off. -/
theorem witness_GraphEvents_channels :
    (let s : State := { graphState with
       launches := graphState.launches.map fun l => { l with compl := 64 }, chans := [⟨0, 2, BitVec.ofNat 256 (2 ^ 21 + 2 ^ 20 + 2 ^ 128 * 64), 0, 0⟩]
       ev := { a := 0, b := 2, bytes := List.replicate 8 1 } }
     ∃ c l x, (s.chans.find? fun c => c.part == s.ev.a && c.n == s.ev.b && c.receives) = some c ∧
       (s.launches.find? fun l => l.graph && !l.ended && l.compl == c.compl && (match s.partOf l.ctx with | some p => p.n == s.ev.a | none => false)) = some l ∧
       l.nodes[c.node]? = some x ∧ s.ev.f ≠ 1 ∧ (match s.engWrite (s.ctlCore l.ctx) l.ctx .glob (x.qaddr + x.tail * x.recBytes) (s.ev.bytes.take x.recBytes) with
        | .ok _ _ => true | _ => false) = true) ∧
    (let e : BitVec 256 := BitVec.ofNat 256 (2 ^ 21 + 2 ^ 20)
     let c : Chan := ⟨0, 2, e, 0, 0⟩
     e.getLsbD 21 = true ∧ c.receives = true ∧ (⟨0, 2, BitVec.ofNat 256 (2 ^ 21), 0, 0⟩ : Chan).receives = false ∧ (0 : BitVec 256).getLsbD 21 = false) :=
  ⟨⟨_, _, _, rfl, rfl, rfl, by decide +kernel⟩, by decide +kernel⟩

/-- A launch record that context 0 may submit, and its stop area (R69, R417). -/
def launchRec : LaunchRec := BitVec.ofNat 512 (0x40000110000 + 2 ^ 128 * 0x001F040200080001 + 2 ^ 192 * 0x40000300010 + 2 ^ 448 * 0x4000000000000000)
def areaBase : State :=
  let s := base 0
  { s with
    tlb := s.tlb ++ [⟨0, some 0, 0, 0x40200000000, 0x100000, 0x10000000, 0x10000000, 3, 3, 3, 3, true, true, false⟩]
    mem := memSets s.mem 0x10000000 (List.replicate 16 0 ++ leBytes 8 299008 ++ List.replicate 40 0) }
theorem witness_SubmissionEvents :
    (match submit areaBase 0 0 none false launchRec with | .done _ c => c == 0 | _ => false) = true ∧ launchRec.malformed = false := by decide +kernel
theorem witness_SubmissionEvents_host :
    (let s : State := { areaBase with ev := { a := 0, b := 64, bytes := leBytes 64 launchRec.toNat } }
     s.ev.bytes.length = 64 ∧ s.ev.b % 64 = 0 ∧ (s.partOfVf s.ev.a).map Part.closing = some false ∧
     BitVec.ofNat 512 (leNat s.ev.bytes) = launchRec ∧ launchRec.f 2 58 6 = 0 ∧ s.ctxTakes 0 = true ∧ s.ctxTakes 5 = false) ∧
    (let f : Fill := ⟨9, 0, 0, 5, none, 0, 0x20000, 0, []⟩
     let s : State := { areaBase with fills := [f], mem := memSets areaBase.mem 0x20000 (leBytes 64 launchRec.toNat), ev := { a := 9 } }
     (s.fills.find? fun f => f.id == s.ev.a && f.kind == 0) = some f ∧ (s.group? f.g).isSome = true ∧ s.launches.all (fun l => !l.det) = true ∧
     (match s.engRead 1 0 .glob 0x20000 64 with
      | .ok u bs => u.ctxTakes 0 && (match submit u 1 0 (some 0) false (BitVec.ofNat 512 (leNat bs)) with
        | .done t c => c == 0 && t.launches.all (fun l => !l.det) | _ => false)
      | _ => false) = true) := by decide +kernel

/-- A function's window of 64 KiB over the data page. -/
def hostBase (ev : EvArgs) : State := { stage2 (base 0) with vfs := [⟨0, some 0, 0x20000, 0x10000, 0⟩], ev := ev }
def spanOk (s : State) (off n : Nat) (acc : Acc) : Bool :=
  match s.partOfVf 0 with
  | some p => (match s.ipaSpan p (0x20000 + off) acc n with
    | .ok u pas => decide (pas.length = n) && pas.all (fun pa => !u.touchesObject 3 pa 1) && (u.bytesAt pas).isSome
    | _ => false)
  | none => false
theorem witness_HostEvents :
    (hostBase { a := 0, b := 0xF8, c := 8 }).ev.f ≠ 1 ∧ ((hostBase {}).vf? 0).isSome = true ∧
    spanOk (hostBase {}) 0xF8 8 .hostRead = true ∧ spanOk (hostBase {}) 0xF8 8 .hostWrite = true ∧
    (∀ l ∈ (hostBase {}).launches, vfOf l.ctx = 0 → l.ended = false → l.det = true → l.replay = false) ∧
    (let s : State := { State.reset with mem := [(2 ^ 56 + 130, 7)], ev := { a := 2 ^ 56 + 128 } }
     isHostPa s.ev.a = true ∧ Memory.wf s.mem = true) := by decide +kernel
theorem witness_HostEvents_invalidation :
    (∀ k < 4, let s := hostBase { a := 0, b := k * 1024 }
     (s.partOfVf s.ev.a).isSome = true ∧ (s.part? s.ev.a).isSome = true ∧ (s.partOf s.ev.a).map Part.n = some 0 ∧ invScope s.ev.b = k) ∧
    (let s : State := { base 0 with invals := [⟨9, some 0, [5], none, []⟩], ev := { a := 9 } }
     (s.invals.find? fun x => x.id == s.ev.a) = some ⟨9, some 0, [5], none, []⟩ ∧ s.req? 5 = none ∧ (s.vf? 0).isSome = true) ∧
    (let s := reqState .acqWord none { a := 9 }
     (s.req? 5).isSome = true) := by decide +kernel

/-- Context 0 in each phase, and a value with the valid bit or without. -/
theorem witness_ContextEvents :
    (∀ ph ∈ [CtxPhase.idle, .running, .stopped, .withdrawn, .stopping],
      let s : State := { base 0 with ctxs := [{ freshCtx 0 1 with phase := ph }], ev := { a := 0, b := 0, c := 0x50001 } }
      (s.partOfVf s.ev.a).isSome = true ∧ s.ev.b < 64 ∧ (s.ctx? 0).map Ctx.phase = some ph ∧ (s.ctxOfPart s.ev.a s.ev.b).map Ctx.phase = some ph) ∧
    (base 0).ctx? 63 = none ∧ (BitVec.ofNat 64 0x50001 &&& 0x01FFFFFFFFFF8001 : DWord).getLsbD 0 = true ∧
    (BitVec.ofNat 64 0x50000 &&& 0x01FFFFFFFFFF8001 : DWord).getLsbD 0 = false ∧
    (let s : State := { base 0 with launches := [] }
     ∀ l ∈ s.areaLaunches 0, s.badTokens l = []) := by decide +kernel

theorem witness_StopEvents :
    (let s : State := { base 0 with ev := { a := 0, b := 0x20 } }
     0x20 ≤ s.ev.b ∧ s.ev.b ≤ 0x28 ∧ (s.ctx? 0).map Ctx.phase = some .running) ∧
    (let s : State := { base 0 with
       ctxs := [{ freshCtx 0 1 with phase := .stopping }], groups := [], waves := [], launches := [], cur := none, ev := { a := 0 } }
     (s.ctx? s.ev.a).map Ctx.phase = some .stopping ∧ s.ev.f ≠ 1 ∧ s.agentsStopped s.ev.a = true ∧
     (match s.saveAll s.ev.a [] (s.residentClusters s.ev.a) with | .done _ => true | _ => false) = true) ∧
    (let s : State := { base 0 with ctxs := [{ freshCtx 0 1 with phase := .stopping }], agenda := [⟨.agentStop, { a := 0 }⟩], ev := { a := 0 } }
     s.agentsStopped s.ev.a = false) ∧
    (let l := { placeLaunch with det := true, recBytes := 4096 }
     let s : State := { base 0 with launches := [l], ev := { a := 0, b := 5 } }
     s.launch? s.ev.a = some l ∧ l.det = true ∧ l.replay = false ∧
     l.recUsed + (detEntry (s.vclockOf l.ctx) s.ev.b 0 0 s.ev.bytes).length ≤ l.recBytes) := by decide +kernel

theorem witness_BringUpEvents :
    State.reset.top.stage = .off ∧
    (let s : State := { State.reset with top := { State.reset.top with stage := .firmwareOk }, ev := { a := 0xFFFFE } }
     s.top.stage = .firmwareOk ∧ ~~~BitVec.ofNat 20 s.ev.a = 1) ∧
    (let s : State := { State.reset with top := { State.reset.top with stage := .recovery } }
     s.top.stage = .recovery) ∧
    (let s : State := { base 0 with ev := { a := 0, bytes := List.replicate 32 7 } }
     (s.part? s.ev.a).isSome = true ∧ s.ev.bytes.length = 32) := by decide +kernel

theorem witness_AssignmentEvents :
    (let s : State := { base 0 with ev := { a := 19, b := 6, c := 0x8000 } }
     s.canCreate s.ev.a (BitVec.ofNat 20 s.ev.b) = true) ∧
    (let s : State := { base 0 with ev := { a := 0 } }
     (s.part? s.ev.a).map Part.closing = some false ∧ (∃ c ∈ s.ctxs, s.inPart s.ev.a c.id = true ∧ c.phase = .running)) ∧
    (let s : State := { base 0 with parts := [{ freshPart 0 1 0 0 with closing := true }], ctxs := [{ freshCtx 0 1 with phase := .stopped }], ev := { a := 0 } }
     (s.part? s.ev.a).map Part.closing = some true ∧ (∀ c ∈ s.ctxs, s.inPart s.ev.a c.id = true → c.phase ≠ .stopping ∧ c.phase ≠ .running)) ∧
    (let s : State := { base 0 with ev := { a := 1, b := 15, c := 1 } }
     (s.part? 0).isSome = true ∧ s.ev.c = 0 + 1 ∧ s.ev.b < 16) ∧
    (let s : State := { base 0 with ev := { a := 511, b := 0 } }
     s.ev.a < 512 ∧ (s.vf? 0).map Vf.part = some (some 0)) ∧
    (let s : State := { base 0 with ev := { a := 0x107, b := 0, c := 9 } }
     (s.part? s.ev.b).isSome = true ∧ (s.ctx? s.ev.b).isSome = true ∧ (s.vf? s.ev.b).isSome = true) := by decide +kernel

/-- Head 0 of wedge 0: one row of two RGBA8 pixels at 0x20000, and a ring at 0x20080. -/
def headRec : List Byte := leBytes 8 (0x20000 + 2 ^ 63) ++ leBytes 8 0x20000 ++ leBytes 8 (2 + 1 * 2 ^ 16 + 1 * 2 ^ 32) ++ leBytes 8 0 ++ leBytes 16 0 ++
  leBytes 8 0x20080 ++ leBytes 8 (128 * 2 ^ 32)
def displayBase (ev : EvArgs) : State :=
  let s := stage2 { base 0 with mem := memSets [] 0x20000 (List.replicate 64 0) }
  { s with parts := s.parts.map fun p => { p with dispcfg := 0x20001 }, heads := [⟨0, 0, headRec, 0, 0⟩], ev := ev }

/-- What the display statements ask of head 0 beside its registers: where its record is written. -/
def displayRecord (s : State) (p : Part) : Bool :=
  match s.ipaSpan p (p.headAt 0) .engineWrite 64 with
  | .ok u pas => decide (pas.length = 64) && pas.all (fun pa => !u.touchesObject 3 pa 1)
  | _ => false
/-- Where SEL reads zero. -/
def displaySel (s : State) (p : Part) : Bool :=
  match s.translate2 p (p.headAt 0 + 0x18) .engineRead with
  | (u, .ok pa _) => (u.displayAcquire pa).homeBytes pa 4 == some [0, 0, 0, 0]
  | _ => false
/-- What scanout reads. -/
def displayFrame (s : State) (p : Part) : Bool :=
  match s.ipaSpan p 0x20000 .engineRead 8 with
  | .ok u pas => (u.bytesAt pas).isSome
  | _ => false
/-- Where the ring's barrier lies. -/
def displayRing (s : State) (p : Part) : Bool :=
  match s.translate2 p (0x20080 + 112) .engineWrite with
  | (_, .ok _ _) => true
  | _ => false
def displayReach (s : State) (f : State → Part → Bool) : Bool :=
  match s.partOfWedge 0 with
  | some p => f s p
  | none => false

theorem display_record : displayReach (displayBase { a := 0, b := 0, bytes := headRec }) displayRecord = true := by decide +kernel
theorem display_sel : displayReach (displayBase { a := 0, b := 0, bytes := headRec }) displaySel = true := by decide +kernel
theorem display_frame : displayReach (displayBase { a := 0, b := 0, bytes := headRec }) displayFrame = true := by decide +kernel
theorem display_ring : displayReach (displayBase { a := 0, b := 0, bytes := headRec }) displayRing = true := by decide +kernel
theorem display_on : headEn headRec = true ∧ headHeight headRec = 1 ∧ headOn headRec = [] := by decide +kernel
theorem display_len : headRingLen headRec = 128 := by decide +kernel
theorem display_bytes : headRec.length = 64 := by decide +kernel
theorem display_head : ((displayBase { a := 0, b := 0, bytes := headRec }).heads.find? fun h => h.wedge == 0 && h.head == 0) = some ⟨0, 0, headRec, 0, 0⟩ := by
  decide +kernel
theorem display_cfg : ((displayBase { a := 0, b := 0, bytes := headRec }).partOfWedge 0).map (fun p => p.dispcfg.getLsbD 0) = some true := by
  decide +kernel

theorem witness_DisplayEvents :
    let s := displayBase { a := 0, b := 0, bytes := headRec }
    s.ev.f ≠ 1 ∧ (s.partOfWedge s.ev.a).map (fun p => p.dispcfg.getLsbD 0) = some true ∧ s.ev.b < 4 ∧ s.ev.bytes.length = 64 ∧
    (s.heads.find? fun h => h.wedge == s.ev.a && h.head == s.ev.b) = some ⟨0, 0, headRec, 0, 0⟩ ∧ headEn headRec = true ∧ headHeight headRec = 1 ∧
    128 ≤ headRingLen headRec ∧ headOn headRec = [] ∧ displayReach s displayRecord = true ∧
    displayReach s displaySel = true ∧ displayReach s displayFrame = true ∧ displayReach s displayRing = true := by
  intro s
  have hev : s.ev = { a := 0, b := 0, bytes := headRec } := rfl
  rw [hev]
  exact ⟨by simp, display_cfg, by simp, display_bytes, display_head, display_on.1, display_on.2.1, Nat.le_of_eq display_len.symm, display_on.2.2, display_record,
    display_sel, display_frame, display_ring⟩

/-! ## Premises that single clauses add -/

/-- A wave of a service group. -/
def kernelBase : State := groupBase fun g => { g with kernel := true }
theorem witness_SystemWords_kernel :
    (issOf kernelBase).grp.kernel = true ∧ ((issOf kernelBase).wv.sreg 1).full = true ∧
    (∀ n ∈ [0x100, 0x101, 0x102, 0x106, 0x107, 0x108, 0x109, 0x10A, 0x10B, 0x10C, 0x10D], (kernelBase.kernelRead (issOf kernelBase).grp n).isSome = true) ∧
    kernelBase.kernelRead (issOf kernelBase).grp 0x1FF = none ∧ (issOf (base 0)).grp.kernel = false := by decide +kernel

/-- The group's cluster has a second group, of rank 1. -/
def peerBase : State := { padBase with groups := padBase.groups ++ [{ placeGroup with g := 1, clrank := 1, core := 2, vatword := 0x088202 }] }
theorem witness_ShapedLoads_peer :
    (let s : State := { peerBase with ctxs := peerBase.ctxs.map fun c => { c with shapes := [(0, mkShape 64 2 2 8 4 32 ||| BitVec.ofNat 512 (2 ^ 114))] } }
     let r := s.shapeOf 0 0
     let ins := (lanesOf (issOf s).fr.live).filter fun l => r.inside (shapedCoord (issOf s).c (issOf s).wv 2 0 l)
     let at_ := fun l => r.addrOf (shapedCoord (issOf s).c (issOf s).wv 2 0 l)
     shapedOk r true = true ∧ r.fmt = 2 ∧ r.space = 2 ∧ r.rank = 1 ∧ (s.peer? (issOf s).grp 1).map Group.g = some 1 ∧
     s.group? 1 = s.peer? (issOf s).grp 1 ∧ ins.length = 32 ∧ (∀ l ∈ ins, (0 ≤ at_ l ∧ (at_ l).toNat % 4 = 0 ∧ (at_ l).toNat + 4 ≤ 2 ^ 17)) ∧
     (s.winLock (issOf s) false 4 (ins.map fun l => (l, r.window (at_ l)))).isNone = true ∧ s.missOk 1 0 0 = true) := by decide +kernel

/-- S1 is the register window, or the scratchpad of rank 1. -/
def windowBase (va : DWord) : State := { peerBase with waves := peerBase.waves.map fun v => { v with sregs := v.sregs.set 1 ⟨va, 0, true⟩ } }
theorem witness_WindowWords_registers :
    (let s := windowBase 0x10000000
     let las := vmAddresses (issOf s) 1 1 0
     MemUnit s (issOf s) { imm := true, ord := [0, 1], rep := some (true, true, false) } (vmSrcs 1 1) (regSpan 4 2)
       (if s.winMem (issOf s) 8 las then s.accessWait 0 0 false false else none) ∧
     s.winMem (issOf s) 8 las = false ∧ (s.winFault (issOf s) 8 las).isNone = true ∧ (s.winLock (issOf s) false 8 las).isNone = true ∧
     (winEmpty (issOf s).wv 8 (las.map fun x => s.window (issOf s) x.2 8)).isNone = true ∧
     vmLegal (issOf s) 4 1 1 2 true = true ∧ 4 + 2 ≤ (issOf s).wv.vregs.length) :=
  ⟨memUnit (by decide +kernel), by decide +kernel⟩
theorem witness_WindowWords_peer :
    (let s := windowBase 0x21000000
     let las := vmAddresses (issOf s) 1 1 0
     (issOf s).fr.live ≠ 0 ∧ (∀ x ∈ las, s.window (issOf s) x.2 8 = .peer 1 (8 * x.1)) ∧ (s.winFault (issOf s) 8 las).isNone = true ∧
     (s.winLock (issOf s) false 8 las).isNone = true ∧ s.missOk 1 0 0 = true ∧ (s.accessWait 0 0 false false).isNone = true ∧
     (winEmpty (issOf s).wv 8 (las.map fun x => s.window (issOf s) x.2 8)).isNone = true) := by decide +kernel
theorem witness_WindowWords_pad :
    (let las := vmAddresses (issOf winBase) 1 1 0
     (winEmpty (issOf winBase).wv 8 (las.map fun x => winBase.window (issOf winBase) x.2 8)).isNone = true ∧
     (∀ x ∈ las, winBase.window (issOf winBase) x.2 8 = .pad 0 (8 * x.1)) ∧ vmLegal (issOf winBase) 4 1 1 2 false = true) := by decide +kernel

theorem witness_AtomicWords_cas :
    MemUnit memBase (issOf memBase) { imm := true, ord := [0, 1, 2, 3] }
      (vmSrcs 1 1 ++ [⟨3, false, 4, 1, .int, false⟩] ++ [⟨3, false, 5, 1, .bit, false⟩]) (regSpan 4 1) (memBase.atomicWait 0 0 (issOf memBase).c.order) ∧
    vmLegal (issOf memBase) 4 1 1 1 true = true ∧ vOk (issOf memBase).wv 5 = true ∧
    (let r := reached memBase .atomic 4 (vmAddresses (issOf memBase) 1 1 0)
     (∀ x ∈ r.2, x.2.2 = .mem (0x20000 + 8 * x.1)) ∧ r.1.parts = memBase.parts ∧ r.1.vfs = memBase.vfs ∧
     ∀ wh < 10, memBase.svcCount wh 0 + r.2.length ≤ 256) :=
  ⟨memUnit (by decide +kernel), by decide +kernel⟩

/-- The load of lane 3, whether the L1 keeps its words or not. -/
theorem witness_AccessEvents_lanes :
    (let s := reqState (.load 4 false false) none { a := 5, b := 3 }
     ∃ r u bs, s.req? s.ev.a = some r ∧ s.readFor r 3 0x2000C = (u, some bs)) ∧
    (let s := reqState (.atomic 0 [] [] 0 true) none { a := 5, b := 3 }
     let u := ((s.settleStores 1 0x2000C 4).captureFor 0 0 3 0x2000C 4 5 false).recallSpan 0x2000C 4
     (∃ r, s.req? s.ev.a = some r ∧ r.lowerLane 3 0x2000C = false) ∧ u.homeBytes 0x2000C 4 = some [0, 0, 0, 0] ∧ (u.req? 5).isSome = true) := by
  refine ⟨⟨_, _, [0, 0, 0, 0], rfl, Prod.ext rfl ?_⟩, ⟨_, rfl, by decide +kernel⟩, by decide +kernel⟩
  have h : ∀ k : Bool, (let s := (reqState (.load 4 false false) none { a := 5, b := 3 }).fresh
      let t := if k then s else (wordsOf 0x2000C 4).foldl (fun (s : State) w => s.dropWord 1 w) s
      (t.freshen 1 0x2000C 4).loadBytes 1 0x2000C 4) = some [0, 0, 0, 0] := by decide +kernel
  unfold State.readFor
  rw [if_neg (by decide +kernel)]
  have h' := h ((reqState (.load 4 false false) none { a := 5, b := 3 }).detCtx 0 ||
    Config.l1Keep (reqState (.load 4 false false) none { a := 5, b := 3 }).seq != 0)
  simp only [ReqKind.bytes] at h' ⊢
  simp only [h']

theorem witness_HomeEvents_registration :
    (let s : State := { State.reset with ev := { a := 1, b := 0x2000C }, regq := [⟨1, 0x8003, 0, 0, 0, false, true⟩] }
     s.ev.c = 0 ∧ ∃ r ∈ s.regq, r.core = s.ev.a ∧ r.word = s.ev.b / 4 ∧ r.id = 0 ∧ r.wide = true) ∧
    (let s : State := { State.reset with ev := { c := 7 }, regq := [⟨1, 0x8003, 0, 0, 7, false, false⟩] }
     s.ev.c ≠ 0 ∧ ∃ r ∈ s.regq, r.id = s.ev.c) ∧ (∃ gr, memBase.group? 0 = some gr ∧ gr.resident = true) :=
  ⟨by decide +kernel, by decide +kernel, ⟨_, rfl, by decide +kernel⟩⟩

theorem witness_BarrierProtocol_update :
    (∀ l ∈ (base 0).launches, l.deps = []) ∧ hasTriple 0 0 0 [0, 0, 0] = true ∧ (1 : BitVec 32) ≠ 0 := by decide +kernel

theorem witness_CopyWords_none :
    copysCount (copysBase.shapeOf 0 1) 0 = 0 ∧ EngineUnit copysBase (issOf copysBase) (engineSrcs 1 2 3 2) 0 0 [] [] :=
  ⟨by decide +kernel, engineUnit (by decide +kernel)⟩

theorem witness_CopyEvents_turn :
    (let c := mkCmd 0 0 0x20080 0x20000 40
     let s := cmdState c { a := 9 }
     s.copyPick c = c ∧ s.copyRivals c = List.replicate 1 c) ∧
    (let c := { mkCmd 0 0 0x20080 0x20000 40 with done := 40 }
     ((cmdState c { a := 9 }).barWaits c ⟨.copyComplete, { a := 9 }⟩).isNone = true) ∧
    (cmdState (mkCmd 0 0 0x20080 0x20000 40) { a := 0, b := 0, c := 1 }).ev.b ≠ 9 := by decide +kernel

theorem witness_NetworkWords_resumed :
    (let s : State := { fwdBase 64 with waves := (fwdBase 64).waves.map fun v => { v with frags := v.frags.map fun f => { f with fwdLane := some 3, fwdSrc := some (9, List.replicate 15 (List.replicate 32 0)) } } }
     WordUnit s (issOf s) {} false [] [] ∧ (issOf s).fr.fwdLane = some 3 ∧ (issOf s).fr.fwdSrc = some (9, List.replicate 15 (List.replicate 32 0)) ∧
     (∃ p, s.partOf 0 = some p ∧ p.frozen = false ∧ s.chanOk p 0 = true) ∧ (∀ c ∈ s.chans, 32 ≤ c.permits) ∧
     (issOf s).ln.det = false) :=
  ⟨wordUnit false (by decide +kernel), by decide +kernel, by decide +kernel, ⟨_, rfl, by decide +kernel⟩, by decide +kernel, by decide +kernel⟩

theorem witness_FragmentWords_frames : (∀ f ∈ (issOf (splitBase (some .sconv) 0x1008)).wv.frags, f.frame = none) ∧
    (issOf (splitBase (some .sconv) 0x1008)).wv.Apart := ⟨by decide +kernel, ⟨by decide +kernel, by decide +kernel, by decide +kernel⟩⟩
theorem witness_LoadWords_filing :
    (let ts : List (Nat × DWord × Tgt) := [(0, 0x20000, .mem 0x20000), (31, 0x20004, .mem 0x20004)]
     (memBase.wave? 0 0).isSome = true ∧ (ReqKind.load 4 false false).event false = some .loadResultLands ∧
     (∀ x ∈ ts, x.2.2 = .mem x.2.1.toNat) ∧ (ts.map (·.1)).Nodup ∧ ∀ x ∈ ts, x.1 < 32) := by decide +kernel
/-- Two lanes store to one word, a third elsewhere. -/
theorem witness_StoreWords_plain :
    (let ts : List (Nat × DWord × Tgt) := [(0, 0x20000, .mem 0x20000), (1, 0x20000, .mem 0x20000), (2, 0x20004, .mem 0x20004)]
     (∀ x ∈ ts, x.2.2 = .mem x.2.1.toNat ∧ x.2.1.toNat % 4 = 0 ∧ isHostPa x.2.1.toNat = false) ∧ memBase.reqs = [] ∧
     memBase.detCtx (issOf memBase).grp.ctx = false ∧
     ts = [(0, 0x20000, .mem 0x20000)] ++ (1, 0x20000, .mem 0x20000) :: [(2, 0x20004, .mem 0x20004)] ∧ 0x20000 + 3 < 0x20004 ∧
     (memBase.loadByte 1 0x200FF).isSome = true) ∧ Memory.wf memBase.mem = true := by decide +kernel
theorem witness_SectionEvents_grant :
    (let s := secState 0 (some (0, 0, 3)) 0 .section_ { a := 5, b := 3 }
     ∃ c v, s.call? s.ev.a = some c ∧ s.wave? c.g c.w = some v ∧
       (v.frags.find? fun f => (f.live &&& s.grantedLanes c) != 0 && f.wait == some .section_).isSome = true ∧
       (∀ k < 3, c.lanes.getLsbD k = false)) ∧
    (let s := secState 0 none 8 .section_ { a := 5, b := 8 }
     ∃ c v, s.call? s.ev.a = some c ∧ s.wave? c.g c.w = some v ∧ v.Apart ∧
       ∀ f ∈ v.frags, BitVec.ofNat 32 s.ev.b &&& f.live ≠ 0 ∧ c.lanes &&& c.refused = f.live ∧ f.wait = some .section_) ∧
    (let s := secState 1 none 0 .entert { a := 5, b := 3 }
     ∃ c v, s.call? s.ev.a = some c ∧ s.wave? c.g c.w = some v ∧ v.quadLive 3 = true) :=
  ⟨⟨_, _, rfl, rfl, by decide +kernel, by decide +kernel⟩,
    ⟨_, _, rfl, rfl, ⟨by decide +kernel, by decide +kernel, by decide +kernel⟩, by decide +kernel⟩, ⟨_, _, rfl, rfl, by decide +kernel⟩⟩

/-- Partition 0 with its own second stage, an identity, a link and the event given. -/
def arriveBase (ev : EvArgs) : State :=
  let s := stage2 (base 0)
  { s with top := { s.top with pkgid := some 1, ports := [(0, 0)], links := [(2, 0)] }, ev := ev }
def arrived (s : State) : State × Xl :=
  match s.part? s.ev.a with | some p => s.translate2 p s.ev.b .engineWrite | none => (s, .viol 0 0 0)
theorem witness_NetworkEvents_lands :
    (let s := arriveBase { a := 0, b := 0x20010, bytes := [1, 2, 3, 4] }
     (s.part? s.ev.a).map Part.closing = some false ∧ s.heard s.ev.a = true ∧ s.replaying s.ev.a = false ∧ s.ev.d ≠ 2 ∧
     (match arrived s with
      | (t, .ok pa true) => pa == 0x20010 && !t.touchesObject 2 pa 4 && !t.touchesObject 3 pa 4 && !t.partFails pa 4 &&
          (t.homeWrite pa s.ev.bytes).launches.all fun l => !l.det
      | _ => false) = true ∧
     s.ev.bytes.length ≤ 4096 - s.ev.b % 4096 ∧ s.ev.c = 0) ∧
    (arriveBase { a := 0, d := 2 }).ev.d = 2 := by decide +kernel
/-- What a peer's access is granted. -/
def admitted (s : State) : State × Span :=
  match s.part? s.ev.a with
  | some p => s.grantSpan p s.ev.b s.ev.c (s.ownVa s.ev.e) s.ev.e (remoteAcc s.ev.d) (pagePieces s.ev.e s.ev.f)
  | none => (s, .refused)
/-- With a grant of a page to partition 0 of package 2, or without. -/
def grantBase (ev : EvArgs) (on : Bool) : State :=
  let s := arriveBase ev
  { s with parts := s.parts.map fun p => { p with grants := if on then [⟨0, 0xF000000000000002, 0x20000, 0x1000⟩] else [] } }
theorem witness_NetworkEvents_grant :
    (match admitted (grantBase { a := 0, b := 2, c := 0, d := 1, e := 0x20010, f := 4 } false) with | (_, .refused) => true | _ => false) = true ∧
    (let s := grantBase { a := 0, b := 2, c := 0, d := 1, e := 0x20010, f := 4, bytes := [1, 2, 3, 4] } true
     (match admitted s with
      | (t, .ok ps) => (ps.all fun q => !t.partFails q.2.2 q.2.1) && (t.writePieces s.ev.bytes ps).launches.all fun l => !l.det
      | _ => false) = true) ∧
    (match admitted (grantBase { a := 0, b := 2, c := 0, d := 0, e := 0x20010, f := 4 } true) with
      | (t, .ok ps) => (t.lentAt ps).isNone && (t.piecesRead ps == some [0, 0, 0, 0])
      | _ => false) = true := by decide +kernel
/-- A post whose barrier lies in the module itself, at its end. -/
theorem witness_NetworkEvents_post :
    (let s := arriveBase { a := 9 }
     let c := { mkCmd 7 2 0x8000400000000000 0x20000 8 with done := 8, d := 0x8000200000020040 }
     let t : State := { s with
       parts := s.parts.map fun p => { p with grants := [⟨0, 0xF000000000000001, 0x20000, 0x1000⟩] }, cmds := [c], cur := none }
     t.cmd? t.ev.a = some c ∧ t.cmdGoes c = true ∧ c.len ≤ c.done ∧ c.pos = 0 ∧
     (t.barWaits c ⟨.networkCommandComplete, { a := t.ev.a }⟩).isNone = true ∧
     (match t.galord c.ctx c.d .atomic 16 with
      | (u, .own pa) => (u.barRead (.glob pa)).isSome && !u.barImmutable c.ctx (.glob pa) &&
          (match (u.barArrive (.glob pa) 1 false).cmd? t.ev.a with | some k => !k.halted | none => false)
      | _ => false) = true) := by decide +kernel

theorem witness_ArrayResults_resident :
    (match (arrayCmdState (mkCmd 1 10 15 4 0)).group? 0 with | some g => g.resident | none => false) = true := by decide +kernel
theorem witness_ArrayEvents_stream :
    (let st : Stream := ⟨9, 0, 5, mkShape 0x20000 0 2 8 4 32, 1, 2, false, 0, 0, 8, 2, 1, [⟨0, 0, [0], []⟩], 1, []⟩
     (∀ z ∈ st.subs, st.read < st.win ∨ st.read - st.win ∈ z.used) ∧ ∀ z ∈ st.subs, st.read ∉ z.drop) := by decide +kernel
theorem witness_WorkOutcomes_grab : (∃ gr, (base 0).group? 0 = some gr ∧ gr.resident = true) := ⟨_, rfl, by decide +kernel⟩

/-- A visit that is the ray unit's own, and landings for a group in place. -/
theorem witness_RayEvents_todo :
    (let v : Visit := ⟨9, 0, 5, 0x40000000, none, 0⟩
     let s : State := { padBase with cur := none, rays := [testRay 1 none], visits := [v], ev := { a := 0 } }
     s.rayWork s.ev.a = some (v, true) ∧ ∀ x ∈ s.rays, x.todo = []) ∧
    (let v : Visit := ⟨9, 0, 5, 0x40000000, none, 0⟩
     let r := { testRay 1 none with todo := [v] }
     let s : State := { padBase with cur := none, rays := [r], ev := { a := 0 } }
     s.rayWork s.ev.a = some (v, false) ∧ r.wedge = s.ev.a ∧ r.todo.head? = some v ∧ s.rayGoes r = true) ∧
    (∃ gr, padBase.group? 0 = some gr ∧ gr.resident = true ∧ padBase.launches.all (fun l => !l.det) = true) :=
  ⟨by decide +kernel, by decide +kernel, ⟨_, rfl, by decide +kernel⟩⟩
theorem witness_UnitEvents_ready :
    (let s : State := { padBase with svc := [svcRec 0 (some 4) false 0], ev := { a := 0 } }
     (s.svc.find? fun r => r.wheel == s.ev.a && r.part == 0 && s.svcReady r) = some (svcRec 0 (some 4) false 0)) ∧
    (svcRec 0 (some 4) false 0).from_ = none ∧
    (let c := { mkCmd 4 4 0 0 1 with done := 1 }
     let s := cmdState { c with unit := 0 } { a := 0 }
     ((s.queueOf 4 s.ev.a).map Cmd.id) = [9] ∧ c.len ≤ c.done ∧ (s.barWaits { c with unit := 0 } ⟨.splatCommandRun, { a := 0 }⟩).isNone = true) := by
  decide +kernel

theorem witness_PressEvents_arrival :
    (let s : State := { State.reset with
       top := { State.reset.top with pkgid := some 1, ports := [(2, 0)] }, parts := [freshPart 0 1 0 0], ev := { a := 2, bytes := List.replicate 64 0 } }
     (s.top.ports.find? fun q => q.1 == s.ev.a) = some (2, 0) ∧ s.top.pkgid ≠ none ∧ s.replaying 0 = false ∧ (s.pressHead s.ev.a).isNone = true) ∧
    State.reset.top.ports = [] ∧
    (let s := pressState true false { a := 2, b := 0 }
     s.cmds.all (fun c => !s.replays c && (s.pressWaits c ⟨.pressComplete, { a := s.ev.a }⟩ [c.bar]).isNone) = true) := by decide +kernel

theorem witness_IssueEvents_plain : (base 0).detCtx 0 = false ∧ (∀ g ∈ (base 0).groups, g.resident = true) := by decide +kernel
theorem witness_HeartbeatEvents_virtual :
    (let s : State := { base 0 with ev := { a := 0, b := 1 } }
     s.ev.b = 0 + 1) ∧ (∀ g ∈ (stage2Small (base 0)).groups, g.resident = true) ∧
    (let s : State := { fwdBase 3 with fwds := [⟨7, 0, 0, 0, 0, 0, []⟩], ev := { a := 0 } }
     ∀ c ∈ s.chans, c.part = s.ev.a ∧ c.receives = false ∧ c.permits + (s.fwds.filter fun f => f.part == s.ev.a && f.ch == c.n).length ≠ c.slots) := by
  decide +kernel
/-- An evicted group with neither scratchpad nor waves, whose slot's header can be read back. -/
def reloadBase : State :=
  { base 0 with
    launches := [{ placeLaunch with evicted := [0], area := 0x20000 }]
    groups := [{ placeGroup with resident := false, slot := some 0, vatword := 1 }], waves := [], cur := none, ev := { a := 0, b := 0 }
    l0 := [⟨0, some 0, 0, 0x20000, 0x10000, 0x20000, 0x20000, 3, 3, 3, 3, true, true, false⟩]
    mem := (List.range 8).map fun k => (0x22000 + 128 * k, 0) }
theorem witness_PlacementEvents_reload :
    (match reloadBase.launch? 0 with
     | some l => !l.coresident && (match reloadBase.reloadGroups (reloadBase.ctlCore l.ctx) l (reloadBase.clusterGroups l.id 0) with
        | .ok u () => (match u.partOf l.ctx with
            | some p => (u.restoreCores p l 0).map List.length == some (u.clusterGroups 0 0).length
            | none => false)
        | _ => false)
     | none => false) = true := by decide +kernel
theorem witness_GraphEvents_start :
    (∃ l p x, graphState.launch? 0 = some l ∧ graphState.partOf l.ctx = some p ∧ graphState.part? p.n = some p ∧ graphState.placeable p.n = [l] ∧
      l.evicted = [] ∧ l.nodes[0]? = some x ∧ graphState.batchSize l 0 (graphState.ticksOf l.ctx) = some 32 ∧
      (graphState.startNode p l 0 32 1).isSome = true ∧ x.shapeCnt = 0 ∧ graphState.faults = []) :=
  ⟨_, _, _, rfl, rfl, rfl, by decide +kernel, by decide +kernel, rfl, by decide +kernel, by decide +kernel, by decide +kernel, by decide +kernel⟩
theorem witness_GraphEvents_end :
    (let s : State := { base 0 with groups := [placeGroup], waves := [{ freshWave 0 0 1 128 128 0x1000 0 false 0 with frags := [] }], ev := { a := 0 } }
     placeGroup.ended = false ∧ s.vatBusy 0 = false ∧ (match s.group? 0 with | some g => !g.ended && !g.freed | none => false) = true) ∧
    (let s : State := { base 0 with groups := [placeGroup], fills := [⟨9, 0, 0, 5, none, 2, 5, 0x20000, []⟩], ev := { a := 0 } }
     s.vatBusy 0 = true) ∧ placeLaunch.ended = false := by decide +kernel
/-- A load of a function page; a store through the sync window behind an earlier write, and with none. -/
theorem witness_HostEvents_page :
    (let s := hostBase { a := 0, b := 0x1000, c := 8, d := 1 }
     s.ev.d = 1 ∧ (s.vf? s.ev.a).isSome = true ∧ (s.ctx? (64 * 0 + 0)).isSome = true) ∧
    (let e : Event := ⟨.syncWindowStore, { a := 0, b := 0x10000, bytes := [1] }⟩
     (hostBase e.args).earlierWrite e = false ∧
     ({ hostBase e.args with seq := 5, agenda := [⟨.hostPlainStore, { a := 0, d := 1, e := 1 }⟩] } : State).earlierWrite e = true) := by decide +kernel
theorem witness_StopEvents_plain :
    (let s : State := { base 0 with ev := { a := 0 } }
     (s.launch? s.ev.a).map Launch.det = some false ∧ s.ev.f ≠ 1 ∧ s.ev.f ≠ 2) ∧
    (let l := { placeLaunch with det := true }
     let s : State := { base 0 with launches := [l], ev := { a := 0, b := 5 } }
     l.recBytes < l.recUsed + (detEntry (s.vclockOf l.ctx) s.ev.b 0 0 s.ev.bytes).length) := by decide +kernel
theorem witness_AssignmentEvents_stage : (base 0).top.stage ≠ .recovery ∧
    (let s : State := { base 0 with ev := { a := 4095, bytes := List.replicate 272 0 } }
     s.ev.a < 4096 ∧ s.top.stage ≠ .recovery ∧ s.ev.bytes.length = 272) := by decide +kernel
/-- The ring's barrier line has been written, and not. -/
theorem witness_DisplayEvents_ring :
    ((displayBase {}).barRead (.glob 0x20000)).isSome = true ∧ ((displayBase {}).barRead (.glob 0x20100)).isNone = true := by decide +kernel

/-! ## Premises of repeated units, ports, plane shapes and windows -/

/-- The spec of one word at a repetition. -/
def repAt (s : State) (n : Nat) (d a b : BitVec 7) (ea : Bool) (k : Nat) : RepSpec :=
  let c := (issOf s).c
  ((repSpecs (BitVec.ofNat 7 (c.stepped k 0 d)) (BitVec.ofNat 7 (c.stepped k 1 a)) (BitVec.ofNat 7 (c.stepped k 2 b)) ea false 3 31
    0x7FF)[n]?).getD (flaggedRep .vexit {} [] (fun _ _ => (0, 0)) fun _ => [])
/-- What the checks of repetition k say, k0 the first that is not done. -/
def repCheck (s : State) (n : Nat) (d a b : BitVec 7) (ea : Bool) (k0 k : Nat) : Chk :=
  let i := issOf s
  let e := repAt s n d a b ea
  let v := repWave e i k0 (k - k0)
  s.checkAll i v ((e k).srcs v) (((e k).writes { i with wv := v }).map fun x => (false, x.1))
/-- All four repetitions pass; with V2 pending the third waits, or with its E bit set traps; one resumes at the third. -/
theorem witness_Repetition_passes :
    (∀ k < 4, repCheck repBase 0 8 0 1 false 0 k = .go) ∧
    (let s : State := { repBase with waves := repBase.waves.map fun v => v.emptyV 2 0xFF }
     (∀ k < 2, repCheck s 0 8 0 1 false 0 k = .go) ∧ (∃ why, repCheck s 0 8 0 1 false 0 2 = .wait why) ∧
     (match repCheck s 0 8 0 1 true 0 2 with | .trap c _ => c == 3 | _ => false) = true ∧ (issOf s).fr.frame = none ∧ (issOf s).wv.frames.length < 64) ∧
    (let s : State := { repBase with waves := repBase.waves.map fun v => { v with frags := v.frags.map fun f => { f with repNext := some 2 } } }
     (issOf s).fr.repNext = some 2 ∧ ∀ k, 2 ≤ k → k < 4 → repCheck s 0 8 0 1 false 2 k = .go) := by
  refine ⟨by decide +kernel, ⟨by decide +kernel, ⟨.empty false 2, by decide +kernel⟩, by decide +kernel⟩, by decide +kernel, ?_⟩
  intro k h2 h4
  obtain rfl | rfl : k = 2 ∨ k = 3 := by omega
  all_goals decide +kernel
theorem witness_Repetition_specs :
    (∀ k < 4, (repSpecs (BitVec.ofNat 7 ((issOf repBase).c.stepped k 0 8)) (BitVec.ofNat 7 ((issOf repBase).c.stepped k 1 0))
      (BitVec.ofNat 7 ((issOf repBase).c.stepped k 2 1)) false false 3 31 0x7FF)[0]? = some (repAt repBase 0 8 0 1 false k)) ∧
    (∀ k, (repAt repBase 0 8 0 1 false k).legal (issOf repBase).wv ∧ ∀ j, (repAt repBase 0 8 0 1 false k).takes j) ∧
    (repAt repBase 0 8 0 1 false 0).accepts.ok (issOf repBase).c = true ∧ (issOf repBase).c.count = 4 ∧
    (issOf repBase).c.stepped 3 0 126 = 129 ∧ (issOf repBase).wv.vcount ≤ 128 :=
  ⟨fun _ _ => rfl, fun _ => ⟨trivial, fun _ => trivial⟩, by decide +kernel⟩
/-- A register out of a wave's count, within the field's range. -/
theorem witness_Repetition_range :
    (let s : State := { repBase with waves := repBase.waves.map fun v => { v with vcount := 100 } }
     (issOf s).c.stepped 3 1 98 = 101 ∧ vOk (issOf s).wv 101 = false) := by decide +kernel
/-- The scratchpad at offset 0, read and written by four repetitions. -/
def repPad : State := { padBase with
  cur := padBase.cur.map fun c => { c with rep := some (3, true, true, false, 1) }
  waves := padBase.waves.map fun v => { v with sregs := v.sregs.set 2 ⟨0x100, 0, true⟩ } }
theorem witness_Repetition_windows :
    ({ imm := true, ord := [0, 1], rep := some (true, true, false) } : Accepts).ok (issOf repPad).c = true ∧
    ({ imm := true, ord := [0, 2], rep := some (true, true, false) } : Accepts).ok (issOf repPad).c = true ∧
    (repPad.accessWait 0 0 false false).isNone = true ∧ ((issOf repPad).wv.sreg 2).full = true ∧ (∀ n < 128, ((issOf repPad).wv.vreg n).pend = 0) ∧
    repPad.ranges = [] ∧ (issOf repPad).wv.ports = [] ∧ (issOf repPad).c.order = 0 ∧
    (∀ k < 4, vmLegal (issOf repPad) (8 + 2 * k) (1 + 2 * k) 2 2 true = true ∧ vmLegal (issOf repPad) (8 + 2 * k) (1 + 2 * k) 2 2 false = true) ∧
    (∀ k < 4, ∀ l < 32, (0x100 + ((issOf repPad).wv.vreg (1 + 2 * k)).lane l).toNat % 8 = 0 ∧
      (0x100 + ((issOf repPad).wv.vreg (1 + 2 * k)).lane l).toNat + 8 ≤ (issOf repPad).grp.padSize) := by decide +kernel

/-- V1 and V2 are ports of queue 5, which has the vectors given. -/
def portBase (vecs : List (BitVec 4 × List Word)) (cmds : List Cmd) : State := { padBase with
  groups := padBase.groups.map fun g => { g with queues := [⟨5, vecs⟩] }
  waves := padBase.waves.map fun v => { v with ports := [(1, 5), (2, 5)] }, cmds := cmds }
theorem witness_IntegerLaneWords_ports :
    (let s := portBase [(0, List.replicate 32 7), (0, List.replicate 32 9)] []
     let i := issOf s
     let e := repAt s 0 3 1 2 false 0
     (repSpecs 3 1 2 false false 3 31 0x7FF)[0]? = some e ∧ i.c.rep = none ∧ e.accepts.ok i.c = true ∧ i.wv.port? 1 = some 5 ∧
     s.checkAll i i.wv (e.srcs (i.reading (e.srcs i.wv))) ((e.writes { i with wv := i.reading (e.srcs i.wv) }).map fun x => (false, x.1)) = .go ∧
     i.popped (e.srcs i.wv) 5 = 2) ∧
    (let s := portBase [] []
     (issOf s).c.imm = none ∧ (issOf s).wv.port? 1 = some 5 ∧ (issOf s).grp.queue 5 = [] ∧ s.cmds = [] ∧ s.fills = []) ∧
    (let s := portBase [] [{ mkCmd 2 5 0 0 32 with started := true }]
     ∃ c ∈ s.cmds, c.engine = 2 ∧ c.g = (issOf s).c.g ∧ c.op = 5) :=
  ⟨⟨rfl, by decide +kernel⟩, by decide +kernel, _, List.mem_cons_self, by decide +kernel⟩

/-- A PL8 shape of 2 planes of 8 by 4 elements. -/
def planeShape (base space : Nat) : Shape := mkShape base space 11 8 4 0 ||| BitVec.ofNat 512 (2 * 2 ^ 120)
theorem witness_ShapedLoads_planes :
    (let s := shapedBase (planeShape 0x20000 0)
     let i := issOf s
     let r := s.shapeOf 0 0
     let ins := (lanesOf i.fr.live).filter fun l => r.inside (shapedCoord i.c i.wv 2 0 l)
     let las := ins.flatMap fun l => (List.range r.prec).map fun j => (l, BitVec.ofInt 64 (r.planeAt (r.plIndex (shapedCoord i.c i.wv 2 0 l)) (7 - j)).1)
     shapedOk r false = true ∧ r.fmt = 11 ∧ r.prec = 2 ∧ s.checkAll i i.wv [] (regSpan 4 1) = .go ∧ accessOk s .load false 1 las = true ∧
     (let q := reached s .load 1 las
      (q.1.holdFault i .load q.2).isNone = true ∧ (match planeBytes i false q.2 q.1 [] with | (_, .inr _) => true | _ => false) = true)) ∧
    (let s : State := { padBase with ctxs := padBase.ctxs.map fun c => { c with shapes := [(0, planeShape 128 1)] } }
     let i := issOf s
     let r := s.shapeOf 0 0
     let ins := (lanesOf i.fr.live).filter fun l => r.inside (shapedCoord i.c i.wv 2 0 l)
     shapedOk r true = true ∧ r.space = 1 ∧ (ins.all fun l => (List.range r.prec).all fun j =>
       let a := (r.planeAt (r.plIndex (shapedCoord i.c i.wv 2 0 l)) (7 - j)).1
       decide (0 ≤ a) && decide (a < i.grp.padSize)) = true ∧
     (s.winLock i false 1 (ins.flatMap fun l => (List.range r.prec).map fun j =>
       (l, r.window (r.planeAt (r.plIndex (shapedCoord i.c i.wv 2 0 l)) (7 - j)).1))).isNone = true) := by decide +kernel

/-- Lanes 0 to 15 name the own scratchpad, the others that of the group of rank 1. -/
def mixedBase : State := { windowBase 0 with
  waves := (windowBase 0).waves.map fun v => { v with
    vregs := v.vregs.set 1 ⟨(List.range 32).map fun l => BitVec.ofNat 32 (8 * l + (if l < 16 then 0 else 0x21000000)), 0, 0⟩
    sregs := v.sregs.set 1 ⟨0x4000000000000000, 0, true⟩ } }
theorem witness_WindowWords_mixed :
    (let i := issOf mixedBase
     (∀ x ∈ vmAddresses i 1 1 0, (match mixedBase.window i x.2 8 with | .pad .. => true | .peer .. => true | _ => false) = true) ∧
     (mixedBase.winFault i 8 (vmAddresses i 1 1 0)).isNone = true ∧ (mixedBase.winLock i true 8 (vmAddresses i 1 1 0)).isNone = true) := by
  decide +kernel
/-- No word of the core is on its way to its home, and no request of the wave is under way. -/
theorem witness_StoreWords_galord : memBase.Canonical ∧ memBase.reqs = [] ∧ memBase.regq = [] ∧ isHostPa 0x20010 = false ∧ 0x20010 % [1, 2, 3, (4 : Byte)].length = 0 := by
  refine ⟨?_, by decide +kernel⟩
  show Memory.wf _ = true
  decide +kernel
theorem witness_AtomicWords_line : (memBase.immutAt 0 128 ((vmAddresses (issOf memBase) 1 1 0).map fun x => (x.1, x.2 &&& ~~~127))).isNone = true ∧
    memBase.svc = [] ∧ (∀ wh < 4, memBase.svcCount wh 0 + 32 ≤ 256) := by decide +kernel

/-! ## Premises of homes, barriers, the network and the press -/

/-- An acknowledgement of an NPOST's arrival and of an object's last invalidation; entries valid by now and not. -/
theorem witness_HomeEvents_acknowledged :
    (let s : State := { State.reset with ev := { c := 9 }, sends := [⟨9, 0, none, 0, some 7, 0⟩], recalls := [⟨9, 4, 0⟩] }
     s.ev.c ≠ 0 ∧ s.sends = [⟨9, 0, none, 0, some 7, 0⟩] ∧ s.recalls = [⟨s.ev.c, 4, 0⟩]) ∧
    ebit (((base 0).entryAt 0x20000).getD 0) 0 = false ∧
    ebit ((({ base 0 with mem := memSets (base 0).mem 0x20000 [1] } : State).entryAt 0x20000).getD 0) 0 = true := by decide +kernel
/-- An earlier request of the wave whose places are all known. -/
theorem witness_AccessEvents_earlier :
    (let s := reqState (.load 4 false false) none { a := 5, b := 3 }
     let t : State := { s with reqs := (s.reqs.map fun r => { r with id := 3 }) ++ s.reqs }
     (∀ x ∈ t.reqs, x.g = 0 → x.w = 0 → x.id < 5 → ∀ l < 32, x.lanes.getLsbD l = true → (x.pa.getD l none).isSome = true) ∧
     ∃ x ∈ t.reqs, x.id < 5) := ⟨by decide +kernel, _, List.mem_cons_self, by decide +kernel⟩
/-- A fragment that a notice has told, and one that none has. -/
theorem witness_BarrierProtocol_told :
    (∀ told, let s := fragBase fun f => { f with wait := some (.barrier none 0x20000 0), told := told }
     (∃ v g, s.waves = [v] ∧ s.group? v.g = some g ∧ g.resident = true ∧ (∃ f ∈ v.frags, f.wait = some (.barrier none 0x20000 0) ∧ f.told = told))) ∧
    (fragBase fun f => { f with wait := some (.barrier none 0x20000 0) }).waves.all (fun v => v.frags.length == 1) = true :=
  ⟨fun told => ⟨_, _, rfl, rfl, by decide +kernel, by cases told <;> decide +kernel⟩, by decide +kernel⟩
/-- A barrier within an IMMUTABLE object of its context. -/
def immutBase : State := { barBase 0x20010 with ranges := [⟨4, 0, 0, 3, none, 0x20000, 0x20020, 0, 1, 0, [(0x20000, 32)]⟩] }
theorem witness_BarrierWords_immutable :
    barOk immutBase false false false 0x20010 = true ∧ barOk immutBase true true false 0x20010 = true ∧
    immutBase.barImmutable 0 (.glob 0x20010) = true ∧ (barBase 0x20010).barImmutable 0 (.glob 0x20010) = false ∧
    (match immutBase.barAt 1 0 (issOf immutBase).grp false 0x20010 with | .ok u (.glob pa) => pa == 0x20010 && u.barImmutable 0 (.glob pa) | _ => false) = true := by
  decide +kernel
theorem witness_SectionWords_query :
    (let s := { secState 2 none 0 .entert {} with calls := [⟨5, 2, 0, 0, 0, 9, 8, 8, List.replicate 32 7, List.replicate 32 1, 0, 65536, 0⟩] }
     ∃ c, s.calls = [c] ∧ c.kind = 2 ∧ c.g = someIss.c.g ∧ c.w = someIss.c.w ∧ c.lanes.getLsbD 3 = true ∧
       s.keyHome c.ctx (c.keys.getD 3 0) = s.keyHome someIss.grp.ctx 7) := ⟨_, rfl, by decide +kernel⟩

theorem witness_NetworkWords_frozen :
    (let s : State := { fwdBase 64 with parts := (fwdBase 64).parts.map fun p => { p with frozen := true } }
     WordUnit s (issOf s) {} false fwdSrcs [] ∧ (issOf s).fr.fwdLane = none ∧ ∃ p, s.partOf 0 = some p ∧ p.frozen = true) ∧
    (let s : State := { fwdBase 0 with waves := (fwdBase 0).waves.map fun v => { v with frags := v.frags.map fun f => { f with fwdLane := some 3 } } }
     (issOf s).fr.live.getLsbD 3 = true ∧ ∃ p c, s.partOf 0 = some p ∧ s.sendChan p 0 = some c ∧ c.permits = 0) :=
  ⟨⟨wordUnit false (by decide +kernel), by decide +kernel, _, rfl, by decide +kernel⟩, by decide +kernel, _, _, rfl, rfl, by decide +kernel⟩
/-- A refused load, a post's arrival that leaves by the port or finds no way, its retransmission, and a collective whose record
waits for the permit. -/
theorem witness_NetworkEvents_far :
    (let s := reqState (.load 4 false false) none { a := 5, b := 3 }
     (s.req? s.ev.a).isSome = true ∧ (s.cmd? s.ev.a).isNone = true ∧ s.sends = []) ∧
    (let s := netState 2 { a := 9 }
     s.pressSend? s.ev.a = none ∧ s.isOwnPkg (galordPkg 0x8000400000000000) = false ∧ s.routeOk 0 0 (galordPkg 0x8000400000000000) = true) ∧
    (let c := { mkCmd 7 2 0x8000400000000000 0x20000 8 with done := 8, c := 1, d := 0x8000400000000040 }
     let s : State := { netState 2 { a := 9 } with cmds := [c], top := { (netState 2 {}).top with links := [] } }
     s.cmd? s.ev.a = some c ∧ s.cmdGoes c = true ∧ s.routeOk 0 (c.c.toNat % 4) (galordPkg c.d) = false ∧
     ((s.cmdViolate c c.d 12 0 0 .engineWrite).cmd? s.ev.a).map Cmd.halted = some true) ∧
    (let s : State := { State.reset with sends := [⟨9, 0, none, 0x8000400000000040, some 7, 3⟩], ev := { a := 9 } }
     (s.sends.find? fun x => x.id == s.ev.a).map Send.retry = some 3 ∧ s.cmd? s.ev.a = none ∧ s.fwds = [] ∧ s.colls = []) ∧
    (let s : State := { fwdBase 0 with
       fwds := [⟨7, 0, 0, 0, 0, 0, []⟩], ev := { a := 0, b := 0 }, cmds := [{ mkCmd 5 0 0 0 0 with unit := 2 }]
       colls := [⟨9, 0, 0, false, [], [], [], 0, false, true⟩] }
     (s.fwds.find? fun f => f.part == s.ev.a && f.ch == s.ev.b).map Fwd.id = some 7 ∧ (s.cmd? 9).isSome = true ∧
     s.launches.all (fun l => !l.det) = true) := by
  refine ⟨by decide +kernel, ⟨by decide +kernel, by decide +kernel, routeOk_port (by decide +kernel)⟩, by decide +kernel⟩

/-! ## Premises of streams -/

/-- Stream 5 of the group with blocks left, or none. -/
def streamBase (rows : Bool) (claimed : Nat) (z : DWord) : State := { arrayBase [BitVec.ofNat 64 (256 + 5 * 2 ^ 9), 0, z] with
  streams := [⟨9, 0, 5, mkShape 0x20000 0 2 8 4 32, 2, 2, rows, 0, 0, 8, 1, 0, [⟨0, claimed, [], []⟩], 0, []⟩] }
theorem witness_ArrayWords_stream :
    (∀ rows, let s := streamBase rows 1 0
     ((s.streamFor (issOf s).grp 0 5).map fun st => (st.rowKind, (st.sub? 0).map Subscriber.claimed, st.nblocks)) = some (rows, some 1, 2) ∧
     ((s.streamFor (issOf s).grp 0 5).map fun st => (st.rec_.fmt, st.rows)) = some (2, 1)) ∧
    (let s := streamBase false 1 0
     ebit ((issOf s).wv.sreg 1).val.toNat 8 = true ∧ (issOf s).grp.accSize ≠ 0 ∧ boffBad (issOf s).grp 0 = false) ∧
    ArrayUnit (streamBase false 1 0) (issOf (streamBase false 1 0)) 1 2 3 3 none ∧
    ArrayUnit (streamBase true 1 0) (issOf (streamBase true 1 0)) 1 2 3 2 (some 1) ∧
    (let s := streamBase true 2 0
     (s.streamFor (issOf s).grp 0 5).map (fun st => (st.sub? 0).map fun k => decide (st.nblocks ≤ k.claimed)) = some (some true)) ∧
    (let s := arrayBase [BitVec.ofNat 64 (256 + 5 * 2 ^ 9), 0, 0]
     (s.streamFor (issOf s).grp 0 5).isNone = true ∧ stationary (issOf s).grp.planeFmt 8 ≠ none) :=
  ⟨by decide +kernel, by decide +kernel, arrayUnit (by decide +kernel), arrayUnit (by decide +kernel), by decide +kernel, by decide +kernel⟩
/-- A stream of row blocks of two rows, and one whose number is active. -/
theorem witness_TileWords_rows :
    (let x : Nat := 3 + 5 * 256 + 2 ^ 11 + 1 * 2 ^ 12 + 3 * 2 ^ 16 + 4 * 2 ^ 32
     let s := arrayBase [BitVec.ofNat 64 x, 0, 128 + 2 ^ 20]
     WordUnit s (issOf s) {} true [usrc 0 1 .bit, usrc 1 2 .bit, usrc 2 3 .bit] [] ∧ ebit x 11 = true ∧ rowBlockK (s.shapeOf 0 3).fmt 0 = some 8 ∧
     (((List.range 16).filter fun k => ebit x (16 + k)).map (fun k => s.peer? (issOf s).grp k)) = s.groups.map some ∧
     (∀ g ∈ s.groups, 128 + 2 * 128 ≤ g.padSize) ∧ (2 * 8 * fmtBytes 2 + 127) / 128 * 128 = 128 ∧
     (s.engineWait (issOf s) 3 [⟨none, 0x20000, 0x20080⟩] (s.groups.map fun g => ⟨some g.g, 128, 128 + 2 * 128⟩)).isNone = true) ∧
    (∃ st ∈ (streamBase true 1 0).streams, st.g = (issOf (streamBase true 1 0)).c.g ∧ st.q = 5) :=
  ⟨⟨wordUnit true (by decide +kernel), by decide +kernel⟩, _, List.mem_cons_self, by decide +kernel⟩

/-! ## Premises of the press -/

/-- Something that the collective has sent to rank 1. -/
def pressSent (retry st : Nat) (notice stops : Bool) : State := { pressState true stops { a := 5 } with
  colls := [{ testColl stops with sends := [⟨5, 1, 0, false, notice, retry, st⟩] }] }
theorem witness_PressEvents_sends :
    (∀ st ∈ [0, 1], ∀ notice, (pressSent 0 st notice false).pressSend? (pressSent 0 st notice false).ev.a =
      some ({ mkCmd 5 0 0 0 0 with unit := 2, started := true, payload := List.replicate 192 0 },
        { testColl false with sends := [⟨5, 1, 0, false, notice, 0, st⟩] }, ⟨5, 1, 0, false, notice, 0, st⟩)) ∧
    (((pressSent 7 0 false false).pressSend? 5).map fun x => (x.2.2.retry, x.2.2.st, x.2.2.notice, x.2.1.stops)) = some (7, 0, false, false) := by
  decide +kernel
/-- A tile of a collective still to come, staged, staged before, or for which the store has no room; a lost tile and a lost notice. -/
def stagedState (staging : List Staged) (ev : EvArgs) : State := { State.reset with
  top := { State.reset.top with pkgid := some 1, ports := [(2, 0)] }, parts := [freshPart 0 1 0 0], staging := staging, ev := ev }
theorem witness_PressEvents_staged :
    (∀ e < 2, let s := stagedState [] { a := 2, b := 1, e := e, f := 4, ids := [3] }
     (s.top.ports.find? fun q => q.1 == s.ev.a) = some (2, 0) ∧ s.top.pkgid ≠ none ∧ s.replaying 0 = false ∧ (s.pressHead s.ev.a).isNone = true ∧
     s.pressHad = []) ∧
    (let s := stagedState [⟨2, 1, 0, false, some [0], tileIndex (List.replicate 64 0), 0⟩] { a := 2, b := 1, bytes := List.replicate 64 0 }
     ∃ x ∈ s.staging, x.press = s.ev.a ∧ x.src = s.ev.b ∧ x.word0.toNat / 2 ^ 32 = 0 ∧ x.gather = (s.ev.d == 1) ∧ x.tile = tileIndex s.ev.bytes) ∧
    2 ^ 20 < 0 + (List.replicate (2 ^ 20 + 1) (0 : Byte)).length := by
  refine ⟨by decide +kernel, ⟨_, List.mem_cons_self, by decide +kernel⟩, ?_⟩
  rw [List.length_replicate]
  decide
/-- A lost tile that the collective has not counted; under STOP too. -/
theorem witness_PressEvents_lost :
    (∀ stops, let s : State := { pressState true stops { a := 2 } with staging := [⟨2, 1, 0, false, none, 3, 1⟩] }
     s.coll? 9 = some (testColl stops) ∧ (∃ g ∈ s.staging, g.of_ 2 (testColl stops) = true ∧ g.note = 1) ∧
     ∀ g ∈ s.staging, g.of_ 2 (testColl stops) = true → g.note < 2) := by decide +kernel
/-- One rank's tile not yet written, all written, and the record still to send; a send to be made again at the resumption. -/
theorem witness_PressEvents_whole :
    (let co := { testColl false with tiles := [⟨0, 0, [], false, false⟩] }
     co.whole (List.replicate 192 0) 1 false = false) ∧
    (testColl false).whole (List.replicate 192 0) 0 false = true ∧
    (∀ permits < 2, let r := List.replicate 32 0 ++ leBytes 8 (2 ^ 12) ++ List.replicate 152 0
     let c := { mkCmd 5 0 0 0 0 with unit := 2, started := true, payload := r }
     let s : State := { fwdBase permits with cmds := [c], colls := [{ testColl false with arrived := true }], ev := { a := 2 } }
     (s.pressHead s.ev.a).map (fun x => x.2.arrived) = some true ∧ recBits c.pressRec 4 12 1 = 1 ∧
     ∃ p, s.part? 0 = some p ∧ s.chanOk p 0 = true ∧ (s.sendChan p 0).map Chan.permits = some permits) ∧
    (let s : State := { pressState true false { a := 2 } with
       colls := [{ testColl false with tiles := [⟨0, 0, [], false, false⟩], sends := [⟨5, 1, 0, false, false, 0, 3⟩] }] }
     (s.pressHead s.ev.a).map (fun x => (x.1.started, x.2.sends.map PressSend.st, x.2.tiles.length)) = some (true, [3], 1)) := by
  refine ⟨by decide +kernel, by decide +kernel, fun permits h => ⟨by decide +kernel +revert, by decide +kernel, _, rfl, by decide +kernel +revert⟩, by decide +kernel⟩

/-! ## Premises of scheduling, hosts and recovery -/

theorem witness_PlacementEvents_map :
    (match reloadBase.launch? 0 with
     | some l => (match reloadBase.reloadGroups (reloadBase.ctlCore l.ctx) l (reloadBase.clusterGroups l.id 0) with
        | .ok u () => (match u.freeMap (reloadBase.ctlCore l.ctx) l [0] [0] with | .ok _ () => true | _ => false)
        | _ => false)
     | none => false) = true ∧ (reloadBase.clusterGroups 0 0).filterMap Group.slot = [0] := by decide +kernel
theorem witness_PlacementEvents_plain : ∀ l ∈ (base 0).launches, l.det = false := by decide +kernel
theorem witness_GraphEvents_slots :
    (graphState.launches.all fun l => l.nodes.all fun x => !x.taken x.tail) = true ∧
    (graphState.part? 0).map Part.closing = some false ∧ graphState.routeOk 0 2 0 = false ∧ (arriveBase {}).routeOk 0 2 0 = true ∧
    (let l := { placeLaunch with compl := 0x20010 }
     let s : State := { base 0 with launches := [l], groups := [], waves := [], cur := none }
     (match s.translate (s.ctlCore l.ctx) l.ctx l.compl .atomic with
      | (u, .ok pa _) => ((u.dropLaunch l).barRead (.glob pa)).isSome && !(u.dropLaunch l).barImmutable l.ctx (.glob pa)
      | _ => false) = true) := by decide +kernel
/-- A submission behind a write that still waits, and with none. -/
theorem witness_SubmissionEvents_waits :
    (let e : Event := ⟨.hostSubmission, { a := 0, b := 64, bytes := leBytes 64 launchRec.toNat }⟩
     areaBase.earlierWrite e = false ∧
     ({ areaBase with seq := 5, agenda := [⟨.hostPlainStore, { a := 0, d := 1, e := 1 }⟩] } : State).earlierWrite e = true) := by decide +kernel
theorem witness_HostEvents_errors :
    (let s : State := { State.reset with ev := { a := 0, b := 0x1000, c := 8, d := 1 } }
     s.ev.d = 1 ∧ s.ev.f ≠ 1 ∧ s.partOfVf s.ev.a = none) ∧ (hostBase { a := 0, d := 1 }).partOfVf 0 ≠ none ∧
    (let s : State := { base 0 with invals := [⟨9, some 0, [], none, [⟨1, 0x8003, 0, 0, 0, false, false⟩]⟩], ev := { a := 9 } }
     (s.invals.find? fun x => x.id == s.ev.a).map (fun x => x.regs.all fun r => !s.regq.contains r) = some true ∧
     ∃ r ∈ [(⟨1, 0x8003, 0, 0, 0, false, false⟩ : Reg)], r ∈ ({ s with regq := [⟨1, 0x8003, 0, 0, 0, false, false⟩] } : State).regq) := by
  refine ⟨by decide +kernel, by decide +kernel, by decide +kernel⟩
/-- A root whose valid bit is set, or not. -/
theorem witness_ContextEvents_roots : (freshCtx 0 0x50001).root.getLsbD 0 = true ∧ (freshCtx 0 0x50000).root.getLsbD 0 = false ∧
    (freshCtx 0 1).lost = false ∧ (freshCtx 0 1).leaving = false := by decide +kernel
theorem witness_StopEvents_causes :
    (∀ ph ∈ [CtxPhase.running, .idle], let s : State := { base 0 with ctxs := [{ freshCtx 0 1 with phase := ph }], ev := { a := 0, b := 0x28, ids := [0] } }
     0x20 ≤ s.ev.b ∧ s.ev.b ≤ 0x28 ∧ (s.ctx? s.ev.a).map Ctx.phase = some ph ∧ s.ev.ids.head? = some 0) ∧
    (let s : State := { base 0 with rays := [testRay 1 none] }
     (s.ctx? 0).map Ctx.phase = some .running ∧ ∀ x ∈ s.rays, x.ctx = 0 ∧ x.core = (testRay 1 none).core) ∧
    (let s : State := { base 0 with
       ctxs := [{ freshCtx 0 1 with phase := .stopping }], groups := [], waves := [], launches := [], cur := none, ev := { a := 0 } }
     s.agentsStopped s.ev.a = true ∧ s.residentClusters s.ev.a = [] ∧ (s.ctx? 0).map Ctx.leaving = some false) ∧
    (∀ c < 2, ∀ d < 2, let s : State := { base 0 with ev := { a := 0, b := 0x20000, c := c, d := d } }
     ((s.logError ⟨BitVec.ofNat 64 s.ev.b, s.partNo s.ev.a, 1, 0, 1, s.hbeatOf s.ev.a⟩).partOf s.ev.a).isSome = true) := by decide +kernel
/-- Inputs of a launch that is recorded, that replays an entry of kind 0, and that has no entry left; and a fill of HBEAT. -/
theorem witness_StopEvents_recorder :
    (let l := { placeLaunch with det := true, recBytes := 64 }
     let s : State := { base 0 with launches := [l], ev := { a := 0, b := 5 } }
     (s.launch? s.ev.a).map (fun l => (l.det, l.replay, l.recHeld)) = some (true, false, [])) ∧
    (∀ b < 2, let l := { placeLaunch with det := true, replay := true, recBytes := 64 }
     let s : State := { base 0 with launches := [l], ev := { a := 0, b := b } }
     (s.launch? s.ev.a).map (fun l => decide (l.recUsed + 32 ≤ l.recBytes)) = some true ∧
     (s.stopRead l.ctx (l.recBase + BitVec.ofNat 64 l.recUsed) 32 / 2 ^ 64 % 256 = s.ev.b ↔ b = 0)) ∧
    (let l := { placeLaunch with det := true, replay := true, recBytes := 16 }
     l.recBytes < l.recUsed + 32) ∧
    (let f : Fill := ⟨0, 0, 0, 5, none, 4, 0, 0, []⟩
     let s : State := { base 0 with fills := [f], ev := { a := 0, f := 2 } }
     (s.launch? s.ev.a).isSome = true ∧ (s.fills.find? fun f => f.id == s.ev.a && f.kind == 4) = some f) := by decide +kernel
theorem witness_AssignmentEvents_registers :
    (let s : State := { State.reset with ev := { a := 0x107, b := 0, c := 5 } }
     s.partOf s.ev.b = none) ∧ (base 0).partOf 0 ≠ none ∧ ((base 0).ctx? 0).isSome = true ∧
    (let s : State := { State.reset with top := { State.reset.top with stage := .recovery }, ev := { a := 0x1410, b := 0, c := 5 } }
     s.top.stage = .recovery ∧ s.ev.a ≠ 0x107 ∧ s.ev.a ≠ 0x108) ∧
    (let s : State := { base 0 with ctxs := [freshCtx 0 1], ev := { a := 0, b := 0 } }
     ∀ c ∈ s.ctxs, vfOf c.id = s.ev.a → c.phase ≠ .running ∧ c.phase ≠ .stopping) := by decide +kernel
/-- The partition whose turn comes next, itself alone too. -/
theorem witness_UnitEvents_turns :
    (let s : State := { padBase with svc := [svcRec 1 none false 0], svcTurn := [(0, 1)], ev := { a := 0 } }
     (s.svcTurn.find? fun t => t.1 == s.ev.a).map (·.2) = some 1 ∧ 1 ∈ s.svcParts s.ev.a ∧ (∀ q ∈ s.svcParts s.ev.a, q ≤ 1 ∧ 1 ≤ q)) ∧
    padBase.svcParts 0 = [] ∧ (padBase.partOf 0).map Part.frozen = some false := by decide +kernel

end Sys2Proof.Tests
end

section
/-! SUPPORT. Lookups after updates, and what the memory operations and the stop of a context leave unchanged. -/

namespace Sys2Proof.Machine

open Host

/-! ## Folds, and lookups after updates -/

/-- A field that no step of a fold writes. -/
theorem foldl_keeps {σ α β : Type} (field : σ → β) {f : σ → α → σ} (l : List α)
    (h : ∀ s, ∀ a ∈ l, field (f s a) = field s) (s : σ) : field (l.foldl f s) = field s :=
  List.foldlRecOn (motive := fun t => field t = field s) l f rfl fun t ht a ha => (h t a ha).trans ht

/-- A lookup by number after a map that keeps the numbers. -/
theorem find?_map_of_key {α : Type} {key : α → Nat} {g : α → α} (hg : ∀ x, key (g x) = key x) (l : List α) (n : Nat) :
    (l.map g).find? (fun x => key x == n) = (l.find? fun x => key x == n).map g := by
  rw [List.find?_map]
  congr 2
  funext x
  exact congrArg (· == n) (hg x)

theorem State.part?_n {s : State} {n : Nat} {p : Part} (h : s.part? n = some p) : p.n = n := by
  simpa using List.find?_some h

theorem State.ctx?_id {s : State} {n : Nat} {c : Ctx} (h : s.ctx? n = some c) : c.id = n := by
  simpa using List.find?_some h

theorem State.vf?_n {s : State} {n : Nat} {f : Vf} (h : s.vf? n = some f) : f.n = n := by
  simpa using List.find?_some h

theorem State.part?_updPart_map (s : State) (n m : Nat) {f : Part → Part} (hf : ∀ p, (f p).n = p.n) :
    (s.updPart n f).part? m = (s.part? m).map fun p => if p.n == n then f p else p :=
  find?_map_of_key (key := Part.n) (fun p => by split <;> simp [hf]) s.parts m

theorem State.part?_updPart {s : State} {n : Nat} {p : Part} {f : Part → Part} (h : s.part? n = some p)
    (hf : ∀ p, (f p).n = p.n) :
    (s.updPart n f).part? n = some (f p) := by
  rw [s.part?_updPart_map n n hf, h, Option.map_some, State.part?_n h, if_pos (beq_self_eq_true n)]

theorem State.ctx?_updCtx_map (s : State) (n m : Nat) {f : Ctx → Ctx} (hf : ∀ c, (f c).id = c.id) :
    (s.updCtx n f).ctx? m = (s.ctx? m).map fun c => if c.id == n then f c else c :=
  find?_map_of_key (key := Ctx.id) (fun c => by split <;> simp [hf]) s.ctxs m

theorem State.ctx?_updCtx {s : State} {n : Nat} {c : Ctx} {f : Ctx → Ctx} (h : s.ctx? n = some c)
    (hf : ∀ c, (f c).id = c.id) :
    (s.updCtx n f).ctx? n = some (f c) := by
  rw [s.ctx?_updCtx_map n n hf, h, Option.map_some, State.ctx?_id h, if_pos (beq_self_eq_true n)]

theorem State.vf?_updVf {s : State} {n : Nat} {v : Vf} {f : Vf → Vf} (h : s.vf? n = some v) (hf : ∀ v, (f v).n = v.n) :
    (s.updVf n f).vf? n = some (f v) := by
  have hmap := find?_map_of_key (key := Vf.n) (g := fun v => if v.n == n then f v else v)
    (fun v => by split <;> simp [hf]) s.vfs n
  rw [show (s.updVf n f).vf? n = _ from hmap, show s.vfs.find? _ = _ from h, Option.map_some, State.vf?_n h,
    if_pos (beq_self_eq_true n)]

/-- Which contexts a partition has does not hang on what else stands in its record. -/
theorem State.inPart_updPart (s : State) (n m ctx : Nat) {f : Part → Part} (hf : ∀ p, (f p).n = p.n) :
    (s.updPart n f).inPart m ctx = s.inPart m ctx := by
  have hpart := s.part?_updPart_map n (hf := hf)
  unfold State.inPart State.partOf State.partOfVf
  rw [show (s.updPart n f).vf? (vfOf ctx) = s.vf? (vfOf ctx) from rfl]
  cases s.vf? (vfOf ctx) with
  | none => rfl
  | some v =>
    cases hv : v.part with
    | none => simp only [hv]
    | some k =>
      simp only [hv, hpart]
      cases s.part? k with
      | none => rfl
      | some p =>
        simp only [Option.map_some]
        split <;> simp [hf]

/-! ## What memory operations leave -/

/-- The two states differ in memory, in what the L1s, the homes and the translation buffers hold, and in the next number alone. -/
def State.MemOnly (s t : State) : Prop :=
  t = { s with mem := t.mem, l0 := t.l0, tlb := t.tlb, l1 := t.l1, owners := t.owners, seq := t.seq }

theorem State.MemOnly.refl (s : State) : State.MemOnly s s := rfl

theorem State.MemOnly.trans {s t u : State} (h₁ : State.MemOnly s t) (h₂ : State.MemOnly t u) : State.MemOnly s u := by
  refine Eq.trans h₂ ?_
  rw [h₁]

theorem State.MemOnly.foldl {α : Type} {f : State → α → State} (l : List α)
    (h : ∀ s, ∀ a ∈ l, State.MemOnly s (f s a)) (s : State) :
    State.MemOnly s (l.foldl f s) :=
  List.foldlRecOn (motive := fun t => State.MemOnly s t) l f (.refl s) fun t ht a ha => ht.trans (h t a ha)

/-- A field that no memory operation writes. -/
theorem State.MemOnly.field {s t : State} (h : State.MemOnly s t) {β : Type} (get : State → β)
    (hget : ∀ m a b c d n, get { s with mem := m, l0 := a, tlb := b, l1 := c, owners := d, seq := n } = get s) : get t = get s :=
  (congrArg get h).trans (hget ..)

theorem State.recall_memOnly (s : State) (w : Nat) : State.MemOnly s (s.recall w) := by
  unfold State.recall
  split <;> rfl

theorem State.recallSpan_memOnly (s : State) (pa n : Nat) : State.MemOnly s (s.recallSpan pa n) := by
  unfold State.recallSpan
  split
  · rfl
  · exact .foldl _ (fun s k _ => s.recall_memOnly _) s

theorem State.homeWrite_memOnly (s : State) (pa : Nat) (bs : List Byte) : State.MemOnly s (s.homeWrite pa bs) :=
  (s.recallSpan_memOnly pa bs.length).trans rfl

theorem State.setAD_memOnly (s : State) (used final : List Nat) (write : Bool) :
    State.MemOnly s (s.setAD used final write) := by
  have hstep (s : State) (pa v : Nat) : State.MemOnly s (match s.entryAt pa with
      | some e => if (Nat.lor e v) = e then s else s.homeWrite pa (leBytes 8 (Nat.lor e v))
      | none => s) := by
    split
    · split
      · exact .refl s
      · exact s.homeWrite_memOnly _ _
    · exact .refl s
  exact State.MemOnly.trans (.foldl used (fun s pa _ => hstep s pa 64) s) (.foldl final (fun s pa _ => hstep s pa _) _)

theorem State.walkCtx_memOnly (s : State) (p : Part) (core ctx va : Nat) (acc : Acc) :
    State.MemOnly s (s.walkCtx p core ctx va acc).1 := by
  unfold State.walkCtx
  split
  · exact .refl s
  · split
    · exact s.setAD_memOnly _ _ _
    · exact s.setAD_memOnly _ _ _
    · dsimp only
      split
      · exact s.setAD_memOnly _ _ _
      · split
        · exact s.setAD_memOnly _ _ _
        · exact s.setAD_memOnly _ _ _
        · split
          · exact s.setAD_memOnly _ _ _
          · exact s.setAD_memOnly _ _ _

theorem State.translate_memOnly (s : State) (core ctx va : Nat) (acc : Acc) :
    State.MemOnly s (s.translate core ctx va acc).1 := by
  have hwalk (p : Part) : State.MemOnly s (match s.walkCtx p core ctx va acc with
      | (s, some e, x) =>
        (({ s with l0 := tlbAdd 64 (s.l0.filter fun y => !y.hits core (some ctx) p.n va) e
                   tlb := tlbAdd 16384 (s.tlb.filter fun y => !y.hits (wedgeOf core) (some ctx) p.n va) { e with unit := wedgeOf core } } : State), x)
      | (s, none, x) => (s, x)).1 := by
    have h := s.walkCtx_memOnly p core ctx va acc
    split <;> rename_i heq <;> rw [heq] at h
    · exact h.trans rfl
    · exact h
  unfold State.translate
  split
  · exact .refl s
  · split
    · split <;> exact .refl s
    · dsimp only
      split
      · split
        · exact .refl s
        · exact hwalk _
      · split
        · split
          · rfl
          · exact hwalk _
        · exact hwalk _

theorem State.resolveNow_memOnly {s t : State} {e : EntryAt} (h : s.resolveNow e = some t) : State.MemOnly s t := by
  unfold State.resolveNow at h
  dsimp only at h
  split at h
  · cases h
    exact State.MemOnly.trans (t := s.fresh) rfl (s.fresh.homeWrite_memOnly _ _)
  · cases h

theorem State.ctxPlace_memOnly (s : State) (core ctx va : Nat) (acc : Acc) (n : Nat) :
    State.MemOnly s (s.ctxPlace core ctx va acc n).1 := by
  induction n generalizing s with
  | zero => exact s.translate_memOnly core ctx va acc
  | succ n ih =>
    have h := s.translate_memOnly core ctx va acc
    unfold State.ctxPlace
    split
    · rename_i u e heq
      rw [heq] at h
      split
      · rename_i v hv
        exact h.trans ((State.resolveNow_memOnly hv).trans (ih v))
      · exact h.trans rfl
    · exact h

/-- The state that an access of an engine leaves. -/
def MemRes.state {α : Type} : MemRes α → State
  | .ok s _ => s
  | .viol s _ _ _ _ => s
  | .fault s _ _ => s

theorem State.ctxWrite_memOnly (s : State) (core ctx va : Nat) (bs : List Byte) :
    State.MemOnly s (s.ctxWrite core ctx va bs).state := by
  induction bs generalizing s va with
  | nil => exact .refl s
  | cons b bs ih =>
    have h := s.ctxPlace_memOnly core ctx va .engineWrite 24
    unfold State.ctxWrite
    split <;> rename_i heq <;> rw [heq] at h
    · exact h.trans ((State.homeWrite_memOnly _ _ _).trans (ih _ _))
    · exact h
    · exact h

/-! ## What a stop leaves -/

/-- The number and the closing mark of a partition. -/
def Part.face (p : Part) : Nat × Bool := (p.n, p.closing)

/-- The number, the state and the stop cause of a context. -/
def Ctx.face (c : Ctx) : Nat × CtxPhase × BitVec 8 := (c.id, c.phase, c.cause)

/-- The writing of stop records leaves the functions and the faces of partitions and contexts. -/
structure State.Kept (s t : State) : Prop where
  vfs : t.vfs = s.vfs
  parts : t.parts.map Part.face = s.parts.map Part.face
  ctxs : t.ctxs.map Ctx.face = s.ctxs.map Ctx.face

theorem State.Kept.refl (s : State) : State.Kept s s := ⟨rfl, rfl, rfl⟩

theorem State.Kept.trans {s t u : State} (h₁ : State.Kept s t) (h₂ : State.Kept t u) : State.Kept s u :=
  ⟨h₂.vfs.trans h₁.vfs, h₂.parts.trans h₁.parts, h₂.ctxs.trans h₁.ctxs⟩

theorem State.Kept.foldl {α : Type} {f : State → α → State} (l : List α)
    (h : ∀ s, ∀ a ∈ l, State.Kept s (f s a)) (s : State) :
    State.Kept s (l.foldl f s) :=
  List.foldlRecOn (motive := fun t => State.Kept s t) l f (.refl s) fun t ht a ha => ht.trans (h t a ha)

theorem State.MemOnly.kept {s t : State} (h : State.MemOnly s t) : State.Kept s t :=
  ⟨h.field State.vfs fun _ _ _ _ _ _ => rfl, congrArg _ (h.field State.parts fun _ _ _ _ _ _ => rfl),
    congrArg _ (h.field State.ctxs fun _ _ _ _ _ _ => rfl)⟩

theorem State.Kept.part? {s t : State} (h : State.Kept s t) (n : Nat) :
    (t.part? n).map Part.face = (s.part? n).map Part.face := by
  have hfind (u : State) : (u.part? n).map Part.face = (u.parts.map Part.face).find? fun x => x.1 == n := by
    rw [List.find?_map]
    rfl
  rw [hfind, hfind, h.parts]

theorem State.Kept.ctx? {s t : State} (h : State.Kept s t) (n : Nat) :
    (t.ctx? n).map Ctx.face = (s.ctx? n).map Ctx.face := by
  have hfind (u : State) : (u.ctx? n).map Ctx.face = (u.ctxs.map Ctx.face).find? fun x => x.1 == n := by
    rw [List.find?_map]
    rfl
  rw [hfind, hfind, h.ctxs]

theorem State.updPart_kept (s : State) (n : Nat) {f : Part → Part} (hf : ∀ p, (f p).face = p.face) :
    State.Kept s (s.updPart n f) := by
  refine ⟨rfl, ?_, rfl⟩
  rw [State.updPart_parts, List.map_map]
  refine List.map_congr_left fun p _ => ?_
  rw [Function.comp_apply]
  split
  · exact hf p
  · rfl

theorem State.updCtx_kept (s : State) (n : Nat) {f : Ctx → Ctx} (hf : ∀ c, (f c).face = c.face) :
    State.Kept s (s.updCtx n f) := by
  refine ⟨rfl, rfl, ?_⟩
  rw [State.updCtx_ctxs, List.map_map]
  refine List.map_congr_left fun c _ => ?_
  rw [Function.comp_apply]
  split
  · exact hf c
  · rfl

theorem State.logTag_kept (s : State) (p : Part) (ipa : Nat) : State.Kept s (s.logTag p ipa) := ⟨rfl, rfl, rfl⟩

theorem State.logViolation_kept (s : State) (part : Nat) (v : Violation) : State.Kept s (s.logViolation part v) := by
  unfold State.logViolation
  exact s.updPart_kept part fun _ => by simp only [Part.face]

theorem State.Kept.pushed {s t : State} (h : State.Kept s t) (es : List Event) (e : Instr) (x : EvArgs) :
    State.Kept s ((t.pushAll es).push e x) := ⟨h.vfs, h.parts, h.ctxs⟩

theorem State.logAccess_kept (s : State) (ctx : Nat) (va : DWord) (kind level ipa acc : Nat) :
    State.Kept s (s.logAccess ctx va kind level ipa acc).1 := by
  unfold State.logAccess
  dsimp only
  split
  · refine State.Kept.trans ?_ (State.logViolation_kept _ _ _)
    split
    · exact s.logTag_kept _ _
    · exact .refl s
  · exact .refl s

theorem State.stopLost_kept (s : State) (ctx : Nat) (va : DWord) (kind level ipa : Nat) :
    State.Kept s (s.stopLost ctx va kind level ipa) := by
  unfold State.stopLost
  refine State.Kept.trans (s.updCtx_kept ctx ?_) (State.logAccess_kept _ _ _ _ _ _ _)
  exact fun _ => rfl

theorem State.stopWrite_kept (s : State) (ctx : Nat) (va : DWord) (bs : List Byte) :
    State.Kept s (s.stopWrite ctx va bs) := by
  have h := (s.ctxWrite_memOnly (s.ctlCore ctx) ctx va.toNat bs).kept
  unfold State.stopWrite
  split
  · exact s.stopLost_kept _ _ _ _ _
  · split <;> rename_i heq <;> rw [heq] at h
    · exact h
    · exact h.trans (State.stopLost_kept _ _ _ _ _ _)
    · exact h.trans (State.stopLost_kept _ _ _ _ _ _)

theorem State.placeRecord_kept (s : State) (ctx : Nat) (l : Launch) (r : StopRec) :
    State.Kept s (s.placeRecord ctx l r) := by
  have hspill (s : State) (group : Nat) (va : DWord) (bs : List Byte) :
      State.Kept s (if group = 0xFFFF then s else s.stopWrite ctx va bs) := by
    split
    · exact .refl s
    · exact s.stopWrite_kept _ _ _
  unfold State.placeRecord
  dsimp only
  split
  · exact (s.stopWrite_kept _ _ _).trans (State.stopWrite_kept _ _ _ _)
  · split
    · split
      · exact ((hspill _ _ _ _).trans (State.stopWrite_kept _ _ _ _)).trans (State.stopWrite_kept _ _ _ _)
      · exact (hspill _ _ _ _).trans (State.stopWrite_kept _ _ _ _)
    · exact (hspill _ _ _ _).trans (State.stopWrite_kept _ _ _ _)

theorem State.fileRecord_kept (s : State) (ctx : Nat) (launch : Option Nat) (r : StopRec) :
    State.Kept s (s.fileRecord ctx launch r) :=
  .foldl _ (fun s l _ => s.placeRecord_kept ctx l r) s

/-- A context as its first stop cause leaves it (R405). -/
def Ctx.halted (c : Ctx) (cause : Nat) : Ctx := { c with phase := .stopping, cause := BitVec.ofNat 8 cause, lost := false }

/-- What `raiseStop` does to the faces: a context that runs or is idle becomes stopping with the cause; otherwise they stand. -/
theorem State.raiseStop_kept (s : State) (ctx : Nat) (launch : Option Nat) (r : StopRec) :
    (State.Kept s (s.raiseStop ctx launch r) ∧ ∀ c, s.ctx? ctx = some c → c.phase ≠ .running) ∨
    State.Kept (s.updCtx ctx fun c => c.halted r.cause) (s.raiseStop ctx launch r) := by
  unfold State.raiseStop
  split
  · rename_i hnone
    exact .inl ⟨.refl s, fun c hc => by simp [hnone] at hc⟩
  · rename_i c hc
    have hphase (h : c.phase ≠ .running) : ∀ d, s.ctx? ctx = some d → d.phase ≠ .running := by
      intro d hd
      cases hc.symm.trans hd
      exact h
    split
    · rename_i h
      exact .inl ⟨.refl s, hphase (by simp [h])⟩
    · dsimp only
      split
      · rename_i h
        exact .inl ⟨s.fileRecord_kept _ _ _, hphase (by rintro hr; simp [hr] at h)⟩
      · right
        refine State.Kept.pushed (State.Kept.trans ?_ (State.fileRecord_kept _ _ _ _)) _ _ _
        exact .foldl _ (fun s l _ => (s.stopWrite_kept _ _ _).trans (State.stopWrite_kept _ _ _ _)) _

theorem State.raiseStop_vfs (s : State) (ctx : Nat) (launch : Option Nat) (r : StopRec) :
    (s.raiseStop ctx launch r).vfs = s.vfs := by
  rcases s.raiseStop_kept ctx launch r with ⟨h, -⟩ | h
  · exact h.vfs
  · exact h.vfs

theorem State.raiseStop_part? (s : State) (ctx : Nat) (launch : Option Nat) (r : StopRec) (n : Nat) :
    ((s.raiseStop ctx launch r).part? n).map Part.face = (s.part? n).map Part.face := by
  rcases s.raiseStop_kept ctx launch r with ⟨h, -⟩ | h
  · exact h.part? n
  · exact h.part? n

/-- The context is one that has stopped, or is about to, with HOST_STOP. -/
def State.HostStopped (s : State) (id : Nat) : Prop := ∃ d, s.ctx? id = some d ∧ d.phase = .stopping ∧ d.cause = 0x28

/-- The context runs. -/
def State.Runs (s : State) (id : Nat) : Prop := ∃ d, s.ctx? id = some d ∧ d.phase = .running

theorem State.hostStopped_iff (s : State) (id : Nat) :
    s.HostStopped id ↔ (s.ctx? id).map Ctx.face = some (id, .stopping, 0x28) := by
  constructor
  · rintro ⟨d, hd, hphase, hcause⟩
    rw [hd, Option.map_some, Ctx.face, hphase, hcause, State.ctx?_id hd]
  · intro h
    obtain ⟨d, hd, hface⟩ := Option.map_eq_some_iff.mp h
    obtain ⟨-, hrest⟩ := Prod.mk.inj hface
    exact ⟨d, hd, Prod.mk.inj hrest⟩

theorem State.Kept.hostStopped {s t : State} (h : State.Kept s t) {id : Nat} (hs : s.HostStopped id) :
    t.HostStopped id := by
  rw [State.hostStopped_iff] at hs ⊢
  rw [h.ctx? id, hs]

theorem State.Kept.runs {s t : State} (h : State.Kept s t) {id : Nat} (hs : s.Runs id) : t.Runs id := by
  obtain ⟨d, hd, hphase⟩ := hs
  have hface := h.ctx? id
  rw [hd, Option.map_some] at hface
  obtain ⟨e, he, heq⟩ := Option.map_eq_some_iff.mp hface
  exact ⟨e, he, (congrArg (fun x => x.2.1) heq).trans hphase⟩

/-- HOST_STOP of a context stops it if it runs, and no other. -/
theorem State.raiseHostStop (s : State) (ctx id : Nat) {r : StopRec} (hr : r.cause = 0x28) :
    (s.HostStopped id → (s.raiseStop ctx none r).HostStopped id) ∧
    (s.Runs id → if ctx = id then (s.raiseStop ctx none r).HostStopped id else (s.raiseStop ctx none r).Runs id) := by
  rcases s.raiseStop_kept ctx none r with ⟨h, hrun⟩ | h
  · refine ⟨h.hostStopped, fun hs => ?_⟩
    split
    · rename_i heq
      obtain ⟨d, hd, hphase⟩ := hs
      exact absurd hphase (hrun d (heq ▸ hd))
    · exact h.runs hs
  · have hctx := s.ctx?_updCtx_map ctx id (f := fun c => c.halted r.cause) fun _ => rfl
    constructor
    · rintro ⟨d, hd, hphase, hcause⟩
      refine h.hostStopped ⟨_, hctx.trans (congrArg _ hd), ?_⟩
      dsimp only
      split
      · exact ⟨rfl, by rw [hr]; rfl⟩
      · exact ⟨hphase, hcause⟩
    · rintro ⟨d, hd, hphase⟩
      have hid := State.ctx?_id hd
      split
      · rename_i heq
        refine h.hostStopped ⟨_, hctx.trans (congrArg _ hd), ?_⟩
        dsimp only
        rw [if_pos (by simp [hid, heq])]
        exact ⟨rfl, by rw [hr]; rfl⟩
      · rename_i hne
        refine h.runs ⟨_, hctx.trans (congrArg _ hd), ?_⟩
        dsimp only
        rw [if_neg (by simpa [hid] using Ne.symm hne)]
        exact hphase

end Sys2Proof.Machine
end

section
/-! SUPPORT. Bring-up and attestation (R18, R391, R392, R447, R448). -/

namespace Sys2Proof.Machine

open Host

theorem length_leBytes (n v : Nat) : (leBytes n v).length = n := by
  induction n generalizing v with
  | zero => rfl
  | succ n ih => rw [leBytes, List.length_cons, ih]

theorem length_field (n : Nat) (bs : List Byte) : (field n bs).length = n := by simp [field]

theorem field_of_length {n : Nat} {bs : List Byte} (h : bs.length = n) : field n bs = bs := by simp [field, h]

theorem length_digest (bs : List Byte) : (digest bs).length = 32 := by simp [digest]

theorem State.powerOn_of_off {s : State} (h : s.top.stage = .off) (ok : Bool) (n : Nat) (bytes : List Byte) :
    let root := bytes.take n
    let mgmt := if s.top.recImage.isEmpty then bytes.drop n else s.top.recImage
    let t := s.powerOn ok n bytes
    t.mem = s.mem ∧ t.parts = s.parts ∧ t.top.rot = (if ok then 0 else 1) ∧
    (Config.signatureOk root = true → t.top.mroot = digest root) ∧
    (Config.signatureOk root = true → Config.signatureOk mgmt = true →
      t.top.stage = .firmwareOk ∧ t.top.mmgmt = digest mgmt ∧ t.out = s.out) ∧
    (Config.signatureOk root = false ∨ Config.signatureOk mgmt = false →
      t.top.stage = .recovery ∧ t.out = s.out ++ [.mgmt 0 2]) := by
  intro root mgmt t
  have ht : t = if !Config.signatureOk root then _ else if !Config.signatureOk mgmt then _ else _ := if_neg (not_not.mpr h)
  cases hr : Config.signatureOk root with
  | false =>
    rw [hr] at ht
    rw [show t = _ from ht]
    exact ⟨rfl, rfl, rfl, nofun, nofun, fun _ => ⟨rfl, rfl⟩⟩
  | true =>
    cases hm : Config.signatureOk mgmt with
    | false =>
      rw [hr, hm] at ht
      rw [show t = _ from ht]
      exact ⟨rfl, rfl, rfl, fun _ => rfl, nofun, fun _ => ⟨rfl, rfl⟩⟩
    | true =>
      rw [hr, hm] at ht
      rw [show t = _ from ht]
      exact ⟨rfl, rfl, rfl, fun _ => rfl, fun _ _ => ⟨rfl, rfl, rfl⟩, by simp⟩

theorem State.loadService_keeps {β : Type} (field : State → β)
    (h : ∀ s (gs : List Group) (ws : List Wave) n, field { s with groups := gs, waves := ws, seq := n } = field s) (s : State) :
    field s.loadService = field s :=
  foldl_keeps field _ (fun s _ _ => h s _ _ _) s

/-- HBM_TRAINING_COMPLETE as the service firmware's verification comes out. -/
theorem State.trained_of_firmwareOk {s : State} (h : s.top.stage = .firmwareOk) (failed : BitVec 20) (svc : List Byte) :
    let t := s.trained failed svc
    t.mem = s.mem ∧ t.parts = s.parts ∧ t.top.released = ~~~failed ∧
    (Config.signatureOk svc = true → t.top.stage = .released ∧ t.top.msvc = digest svc) ∧
    (Config.signatureOk svc = false → t.top.stage = .recovery) := by
  intro t
  let logged : State := ((List.range 20).filter fun w => failed.getLsbD w).foldl (fun s w => s.trainFail w) s
  let told : State := if failed = 0 then logged else logged.emit (.mgmt 1 failed.toNat)
  let up : State := { told with top := { told.top with released := ~~~failed } }
  have hlog : (logged.mem, logged.parts) = (s.mem, s.parts) :=
    foldl_keeps (f := State.trainFail) (fun s : State => (s.mem, s.parts)) _ (fun _ _ _ => rfl) s
  have hup : (up.mem, up.parts) = (s.mem, s.parts) := by
    rw [← hlog]
    show (told.mem, told.parts) = _
    simp only [told]
    split <;> rfl
  obtain ⟨hmem, hparts⟩ := Prod.mk.inj hup
  have ht : t = if !Config.signatureOk svc then up.toRecovery 5
      else ({ up with top := { up.top with msvc := digest svc, stage := .released } } : State).loadService :=
    if_neg (not_not.mpr h)
  cases hs : Config.signatureOk svc with
  | false =>
    rw [hs] at ht
    rw [show t = up.toRecovery 5 from ht]
    exact ⟨hmem, hparts, rfl, nofun, fun _ => rfl⟩
  | true =>
    rw [hs] at ht
    rw [show t = State.loadService _ from ht]
    refine ⟨?_, ?_, ?_, fun _ => ⟨?_, ?_⟩, nofun⟩
    · rw [State.loadService_keeps State.mem fun _ _ _ _ => rfl]; exact hmem
    · rw [State.loadService_keeps State.parts fun _ _ _ _ => rfl]; exact hparts
    all_goals rw [State.loadService_keeps State.top fun _ _ _ _ => rfl]

/-- RECOVERY_FIRMWARE_WRITE takes a signed image in recovery alone (R448). -/
theorem execRecoveryFirmwareWrite_cases (s : State) :
    (s.top.stage ≠ .recovery → execRecoveryFirmwareWrite s = .next s) ∧
    (s.top.stage = .recovery → Config.signatureOk s.ev.bytes = true →
      execRecoveryFirmwareWrite s = .next { s with top := { s.top with recImage := s.ev.bytes } }) ∧
    (s.top.stage = .recovery → Config.signatureOk s.ev.bytes = false → execRecoveryFirmwareWrite s = .next (s.emit (.mgmt 0 2))) := by
  refine ⟨fun h => if_pos h, fun h hs => ?_, fun h hs => ?_⟩ <;>
  · rw [execRecoveryFirmwareWrite, if_neg (not_not.mpr h), hs]
    rfl

theorem State.length_reportBody (s : State) (p : Part) (nonce : List Byte) : (s.reportBody p nonce).length = 256 := by
  simp [State.reportBody, length_leBytes, length_field, length_digest]

/-- The fields of a report's first 256 bytes (R392). -/
theorem State.reportBody_fields (s : State) (p : Part) (nonce : List Byte) :
    let body := s.reportBody p nonce
    body.take 24 = leBytes 4 1 ++ leBytes 4 p.n ++ leBytes 8 p.wedges.toNat ++ leBytes 8 p.hbeat ∧
    (body.drop 24).take 32 = field 32 nonce ∧ (body.drop 56).take 32 = field 32 s.top.mroot ∧
    (body.drop 88).take 32 = field 32 s.top.mmgmt ∧ (body.drop 120).take 32 = field 32 s.top.msvc ∧
    (body.drop 152).take 32 = digest (s.assignment p) := by
  intro body
  refine ⟨?_, ?_, ?_, ?_, ?_, ?_⟩ <;>
    simp [body, State.reportBody, List.take_append, List.drop_append, List.take_of_length_le, List.drop_of_length_le,
      length_leBytes, length_field, length_digest]

end Sys2Proof.Machine
end

section
/-! SUPPORT. What the fabric manager and the hosts assign and write (R326, R366 to R374, R389, R390). -/

namespace Sys2Proof.Machine

open Host

/-! ## The end of a partition (R369) -/

/-- HOST_STOP of one context after another stops each of them that runs. -/
theorem State.hostStopped_foldl {r : StopRec} (hr : r.cause = 0x28) (id : Nat) (cs : List Ctx) (s : State)
    (h : s.HostStopped id ∨ s.Runs id ∧ ∃ c ∈ cs, c.id = id) :
    (cs.foldl (fun s c => s.raiseStop c.id none r) s).HostStopped id := by
  induction cs generalizing s with
  | nil => simpa using h
  | cons c cs ih =>
    obtain ⟨hstopped, hruns⟩ := s.raiseHostStop c.id id hr
    refine ih _ ?_
    rcases h with h | ⟨h, hmem⟩
    · exact .inl (hstopped h)
    · have hnow := hruns h
      split at hnow
      · exact .inl hnow
      · rename_i hne
        obtain ⟨d, hd, hdid⟩ := hmem
        rcases List.mem_cons.mp hd with rfl | hd
        · exact absurd hdid hne
        · exact .inr ⟨hnow, d, hd, hdid⟩

/-- R369, step 1, for the contexts of the partition. -/
theorem State.stopPart_hostStopped {s : State} {n : Nat} {c : Ctx} (hmem : c ∈ s.ctxs) (hc : s.ctx? c.id = some c)
    (hin : s.inPart n c.id = true) (hrun : c.phase = .running) : (s.stopPart n).HostStopped c.id :=
  State.hostStopped_foldl rfl c.id _ s (.inr ⟨⟨c, hc, hrun⟩, c, List.mem_filter.mpr ⟨hmem, by simp [hin, hrun]⟩, rfl⟩)

theorem State.stopPart_part? (s : State) (n m : Nat) :
    ((s.stopPart n).part? m).map Part.face = (s.part? m).map Part.face :=
  foldl_keeps (fun s => (s.part? m).map Part.face) _ (fun s _ _ => s.raiseStop_part? _ _ _ m) s

theorem State.destroy_open {s : State} {n : Nat} {p : Part} (hp : s.part? n = some p) (h : p.closing = false) :
    s.destroy n = ((s.updPart n fun p => { p with closing := true }).stopPart n).pushAll [⟨.partitionDestroy, { a := n }⟩] := by
  simp only [State.destroy, hp, h, Bool.not_false, if_true]

theorem State.destroy_closing {s : State} {n : Nat} {p : Part} (hp : s.part? n = some p) (h : p.closing = true)
    (hctx : ∀ c ∈ s.ctxs, s.inPart n c.id = true → c.phase ≠ .stopping ∧ c.phase ≠ .running) :
    ∃ u : State, s.destroy n = (u.zeroWedges p).unassign n := by
  have hany : (s.ctxs.any fun c => s.inPart n c.id && (c.phase == .stopping || c.phase == .running)) = false := by
    rw [List.any_eq_false]
    intro c hc hb
    simp only [Bool.and_eq_true, Bool.or_eq_true, beq_iff_eq] at hb
    obtain ⟨hin, hphase⟩ := hb
    obtain ⟨hstopping, hrunning⟩ := hctx c hc hin
    exact hphase.elim hstopping hrunning
  refine ⟨(s.ctxs.filter fun c => s.inPart n c.id && c.phase != .withdrawn).foldl (fun s c => s.withdrawNow c.id) s, ?_⟩
  simp only [State.destroy, hp, h, hany, Bool.not_true, if_false, Bool.false_eq_true]

/-- R369, steps 3 to 5: nothing is left on the partition's wedges, and nothing is assigned to it. -/
theorem State.unassign_zeroWedges (s : State) (n : Nat) (p : Part) (hn : p.n = n) :
    let t := (s.zeroWedges p).unassign n
    t.part? n = none ∧ (∀ f ∈ t.vfs, f.part ≠ some n) ∧ (∀ q ∈ t.top.ports ++ t.top.links, q.2 ≠ n) ∧
    (∀ c ∈ t.mem, c.1 < 2 ^ 56 → p.wedges.getLsbD (c.1 / 2 ^ 36) = false) ∧
    (∀ e ∈ t.l1, p.wedges.getLsbD (wedgeOf e.core) = false) ∧ (∀ e ∈ t.tlb, p.wedges.getLsbD e.unit = false) ∧
    (∀ c ∈ t.chans, c.part ≠ n) := by
  intro t
  refine ⟨?_, fun f hf => ?_, fun q hq => ?_, fun c hc hlt => ?_, fun e he => ?_, fun e he => ?_, fun c hc => ?_⟩
  · refine List.find?_eq_none.mpr fun q hq => ?_
    simpa using (List.mem_filter.mp hq).2
  · obtain ⟨g, -, rfl⟩ := List.mem_map.mp hf
    split
    · exact nofun
    · assumption
  · rcases List.mem_append.mp hq with hq | hq
    all_goals simpa using (List.mem_filter.mp hq).2
  · have hgone : 2 ^ 56 ≤ c.1 ∨ p.wedges.getLsbD (c.1 / 2 ^ 36) = false := by simpa using (List.mem_filter.mp hc).2
    exact hgone.resolve_left (Nat.not_le.mpr hlt)
  · simpa using (List.mem_filter.mp he).2
  · simpa using (List.mem_filter.mp he).2
  · simpa [hn] using (List.mem_filter.mp hc).2

/-! ## Withdrawal leaves the functions -/

@[simp] theorem State.wakeEngine_vfs (s : State) : s.wakeEngine.vfs = s.vfs := rfl
@[simp] theorem State.roomFree_vfs (s : State) (ctx : Nat) : (s.roomFree ctx).vfs = s.vfs := rfl
@[simp] theorem State.homeWrite_vfs (s : State) (pa : Nat) (bs : List Byte) : (s.homeWrite pa bs).vfs = s.vfs :=
  (s.homeWrite_memOnly pa bs).kept.vfs

theorem State.barWatch_vfs (s : State) (b : Bar) (more : Bool) : (s.barWatch b more).vfs = s.vfs := by
  unfold State.barWatch
  split
  · split <;> simp
  · rfl
  · rfl

theorem State.watchGroup_vfs (s : State) (g : Nat) (more : Bool) : (s.watchGroup g more).vfs = s.vfs :=
  foldl_keeps State.vfs _ (fun s a _ => s.barWatch_vfs (Bar.ofAddr a) more) s

theorem State.surrenderKey_vfs (s : State) (e : SecKey) : (s.surrenderKey e).vfs = s.vfs := by
  unfold State.surrenderKey
  split <;> rfl

theorem State.recallLines_vfs (s : State) (fill : Nat) (r : RangeEntry) : (s.recallLines fill r).vfs = s.vfs := by
  refine foldl_keeps State.vfs _ ?_ _
  exact fun _ _ _ => rfl

theorem State.freeObject_vfs (s : State) (ctx id : Nat) : (s.freeObject ctx id).vfs = s.vfs := by
  unfold State.freeObject
  split
  · rfl
  · dsimp only
    rw [State.wakeEngine_vfs]
    split
    · exact State.recallLines_vfs _ _ _
    · rfl

theorem State.freeHeld_vfs (s : State) (ctx : Nat) : (s.freeHeld ctx).vfs = s.vfs := by
  refine (foldl_keeps State.vfs _ (fun s k _ => s.freeObject_vfs ctx k) _).trans ?_
  refine (foldl_keeps State.vfs _ (fun s e _ => s.surrenderKey_vfs e) _).trans ?_
  exact foldl_keeps State.vfs _ (fun s x _ => s.watchGroup_vfs _ false) s

theorem State.dropLaunch_vfs (s : State) (l : Launch) : (s.dropLaunch l).vfs = s.vfs := by
  unfold State.dropLaunch
  exact (apply_ite State.vfs _ _ _).trans (ite_self s.vfs)

theorem State.withdrawNow_vfs (s : State) (ctx : Nat) : (s.withdrawNow ctx).vfs = s.vfs := by
  unfold State.withdrawNow
  dsimp only
  rw [State.roomFree_vfs, State.wakeEngine_vfs, State.updCtx_vfs]
  exact (foldl_keeps State.vfs _ (fun s l _ => s.dropLaunch_vfs l) _).trans (s.freeHeld_vfs ctx)

theorem State.withdraw_vfs (s : State) (ctx detail : Nat) : (s.withdraw ctx detail).vfs = s.vfs := by
  unfold State.withdraw
  split
  · rfl
  · split
    · rfl
    · exact s.raiseStop_vfs _ _ _
    · rfl
    · exact s.withdrawNow_vfs ctx
    · exact s.withdrawNow_vfs ctx

/-! ## Registers and assignments -/

theorem getLsbD_maskBits (v : DWord) (lo hi i : Nat) :
    (maskBits v lo hi).getLsbD i = (decide (i < 64) && (decide (lo ≤ i ∧ i ≤ hi) && v.getLsbD i)) := by
  rw [maskBits, BitVec.getLsbD_ofNat, Nat.testBit_mul_two_pow, Nat.testBit_mod_two_pow, Nat.testBit_div_two_pow]
  by_cases hlo : lo ≤ i
  · have hbit : decide (i - lo < hi + 1 - lo) = decide (lo ≤ i ∧ i ≤ hi) := by
      rw [decide_eq_decide]
      omega
    rw [hbit, Nat.sub_add_cancel hlo]
    simp [hlo, BitVec.getLsbD]
  · simp [hlo]

/-- Keeping the bits of a field in place is taking the value under the field's mask. -/
theorem maskBits_eq_and (v : DWord) (lo hi : Nat) : maskBits v lo hi = v &&& maskBits (BitVec.allOnes 64) lo hi := by
  refine BitVec.eq_of_getLsbD_eq fun i hi => ?_
  rw [BitVec.getLsbD_and, getLsbD_maskBits, getLsbD_maskBits, BitVec.getLsbD_allOnes]
  simp [hi, Bool.and_comm]

theorem migthr_mask (v : DWord) : maskBits v 0 20 = v &&& 0x1FFFFF := maskBits_eq_and v 0 20

theorem root2_mask (v : DWord) : maskBits v 15 56 = v &&& 0x01FFFFFFFFFF8000 := maskBits_eq_and v 15 56

theorem fwdcfg_mask (v : DWord) : maskBits v 16 63 ||| maskBits v 0 12 = v &&& 0xFFFFFFFFFFFF1FFF := by
  rw [maskBits_eq_and, maskBits_eq_and v 0 12, ← BitVec.and_or_distrib_left]
  rfl

theorem dispcfg_mask (v : DWord) : maskBits v 8 56 ||| maskBits v 0 0 = v &&& 0x01FFFFFFFFFFFF01 := by
  rw [maskBits_eq_and, maskBits_eq_and v 0 0, ← BitVec.and_or_distrib_left]
  rfl

theorem grant_mask (v : DWord) : maskBits v 60 63 ||| maskBits v 0 22 = v &&& 0xF0000000007FFFFF := by
  rw [maskBits_eq_and, maskBits_eq_and v 0 22, ← BitVec.and_or_distrib_left]
  rfl

/-- A partition that may be created is added to the list, and found there. -/
theorem State.createPart_of_canCreate {s : State} {n : Nat} {w : BitVec 20}
    (h : s.canCreate n w = true) (root2 : DWord) :
    let p := freshPart n w (root2 &&& 0x01FFFFFFFFFF8000) s.top.keys
    s.createPart n w root2 = { s with top := { s.top with keys := s.top.keys + 1 }, parts := s.parts ++ [p] } ∧
    (s.createPart n w root2).part? n = some p := by
  intro p
  have hcreate : s.createPart n w root2 = { s with top := { s.top with keys := s.top.keys + 1 }, parts := s.parts ++ [p] } := by
    simp only [State.createPart, h, Bool.not_true, Bool.false_eq_true, if_false, root2_mask, p]
  have hfree : s.part? n = none := by
    simp only [State.canCreate, Bool.and_eq_true, Option.isNone_iff_eq_none] at h
    exact h.1.1.1.2
  refine ⟨hcreate, ?_⟩
  rw [hcreate]
  show (s.parts ++ [p]).find? _ = some p
  rw [List.find?_append, show s.parts.find? _ = none from hfree]
  simp [p, freshPart]

theorem execPortAssignment_link {s : State} {n : Nat}
    (h : s.ev.c = 0 ∧ n = 0 ∨ s.ev.c = n + 1 ∧ (s.part? n).isSome = true)
    (ha : s.ev.a = 1) (hb : s.ev.b < 16) :
    execPortAssignment s = .next { s with top := { s.top.rekey true s.ev.b (if s.ev.c = 0 then none else some n) with
      links := s.top.links.filter (fun q => q.1 != s.ev.b) ++ if s.ev.c = 0 then [] else [(s.ev.b, n)] } } := by
  rcases h with ⟨hc, rfl⟩ | ⟨hc, hn⟩
  · simp [execPortAssignment, ha, hb, hc]
  · have hp := Option.isNone_eq_false_iff.mpr hn
    simp [execPortAssignment, ha, hb, hc, hp]

theorem execPortAssignment_port {s : State} {n : Nat}
    (h : s.ev.c = 0 ∧ n = 0 ∨ s.ev.c = n + 1 ∧ (s.part? n).isSome = true)
    (ha : s.ev.a ≠ 1) (hb : s.ev.b < 8) :
    let mine := if s.ev.c = 0 then [] else [(s.ev.b, n)]
    execPortAssignment s = .next { s with
      top := { s.top.rekey false s.ev.b (if s.ev.c = 0 then none else some n) with
        ports := s.top.ports.filter (fun q => q.1 != s.ev.b) ++ mine }
      staging := if mine ≠ [] ∧ (s.ev.b, n) ∈ s.top.ports then s.staging else s.staging.filter fun x => x.press != s.ev.b } := by
  rcases h with ⟨hc, rfl⟩ | ⟨hc, hn⟩
  · simp [execPortAssignment, ha, hb, hc]
  · have hp := Option.isNone_eq_false_iff.mpr hn
    simp [execPortAssignment, ha, hb, hc, hp]

/-- A function as VIRTUAL_FUNCTION_ASSIGNMENT leaves it, when no context of it runs or is stopping. -/
theorem State.assignVf_idle {s : State} {vf n : Nat} {part : Option Nat} (hvf : vf < 512)
    (hstage : s.top.stage ≠ .recovery)
    (hpart : part = none ∧ n = 0 ∨ ∃ k, part = some k ∧ n = k + 1 ∧ (s.part? k).isSome = true)
    (hidle : ∀ c ∈ s.ctxs, vfOf c.id = vf → c.phase ≠ .running ∧ c.phase ≠ .stopping) :
    ∃ f, (s.assignVf vf n).vf? vf = some f ∧ f.part = part ∧ ∀ g, s.vf? vf = some g → g.part ≠ part →
      (∀ c ∈ (s.assignVf vf n).ctxs, vfOf c.id ≠ vf) ∧ ∀ l ∈ (s.assignVf vf n).launches, vfOf l.ctx ≠ vf := by
  have hto : (if n = 0 then none else some (n - 1)) = part := by
    rcases hpart with ⟨rfl, rfl⟩ | ⟨k, rfl, rfl, -⟩ <;> simp
  have hgo : (decide (512 ≤ vf) || s.top.stage == .recovery || (n ≠ 0 && (s.part? (n - 1)).isNone)) = false := by
    rcases hpart with ⟨-, rfl⟩ | ⟨k, -, rfl, hk⟩
    · simp [hvf, hstage]
    · simp [hvf, hstage, hk]
  have hany : ((s.ctxs.filter fun c => vfOf c.id == vf).any fun c => c.phase == .running || c.phase == .stopping) = false := by
    simp only [List.any_eq_false, List.mem_filter, beq_iff_eq, Bool.or_eq_true, not_or]
    exact fun c hc => hidle c hc.1 hc.2
  cases hfind : s.vf? vf with
  | none =>
    have ht : s.assignVf vf n = { s with vfs := s.vfs ++ [freshVf vf part] } := by
      simp only [State.assignVf, hgo, hto, hfind, Bool.false_eq_true, if_false]
    refine ⟨freshVf vf part, ?_, rfl, nofun⟩
    rw [ht]
    show (s.vfs ++ [freshVf vf part]).find? _ = _
    rw [List.find?_append, show s.vfs.find? _ = none from hfind]
    simp [freshVf]
  | some f =>
    by_cases hsame : f.part = part
    · have ht : s.assignVf vf n = s := by
        simp only [State.assignVf, hgo, hto, hfind, hsame, Bool.false_eq_true, if_false, if_true]
      rw [ht]
      exact ⟨f, hfind, hsame, fun g hg hne => absurd (Option.some.inj hg ▸ hsame) hne⟩
    · let u := (s.ctxs.filter fun c => vfOf c.id == vf).foldl (fun s c => s.withdraw c.id 2) s
      let v : State := { u with
          launches := u.launches.filter fun l => vfOf l.ctx != vf
          ctxs := u.ctxs.filter fun c => vfOf c.id != vf }
      have ht : s.assignVf vf n = v.updVf vf fun f => { f with part := part } := by
        simp only [State.assignVf, hgo, hto, hfind, hsame, hany, Bool.false_eq_true, if_false, v, u]
      have hu : v.vf? vf = some f := by
        rw [← hfind]
        exact congrArg (List.find? _) (foldl_keeps State.vfs _ (fun s c _ => s.withdraw_vfs c.id 2) s)
      rw [ht]
      refine ⟨_, State.vf?_updVf hu fun _ => rfl, rfl, fun _ _ _ => ⟨fun c hc => ?_, fun l hl => ?_⟩⟩
      · simpa using (List.mem_filter.mp hc).2
      · simpa using (List.mem_filter.mp hl).2

theorem State.migTrigger_keeps {β : Type} (field : State → β)
    (h : ∀ s (es : List Event) n, field { s with agenda := es, seq := n } = field s) (s : State) (part : Nat) :
    field (s.migTrigger part) = field s := by
  unfold State.migTrigger
  split
  · rfl
  · split
    · rfl
    · refine foldl_keeps field _ (fun s c _ => ?_) s
      split
      · rfl
      · split
        · rfl
        · split
          · rfl
          · split
            · exact h s _ _
            · exact h s _ _

/-- The entry that replaces those of its own number in a list. -/
theorem find?_replace {α : Type} (key : α → Nat) (l : List α) (a : α) (n : Nat) :
    ((l.filter fun x => key x != key a) ++ [a]).find? (fun x => key x == n) =
      if n = key a then some a else l.find? fun x => key x == n := by
  rw [List.find?_append, List.find?_filter]
  split
  · rename_i h
    subst h
    rw [List.find?_eq_none.mpr fun x _ => by simp]
    simp
  · rename_i h
    have hother (x : α) : decide ((key x != key a) = true ∧ (key x == n) = true) = (key x == n) := by
      by_cases hx : key x = n <;> simp [hx, h]
    rw [funext hother]
    simp [Ne.symm h]

theorem execImportGrantWrite_slot {s : State} {p : Part} (hp : s.part? s.ev.a = some p) (hb : s.ev.b < 256) :
    ∃ t q, execImportGrantWrite s = .next t ∧ t.part? s.ev.a = some q ∧ q = { p with grants := q.grants } ∧
      (q.grants.find? fun g => g.slot == s.ev.b) =
        some ⟨s.ev.b, BitVec.ofNat 64 s.ev.c &&& 0xF0000000007FFFFF, s.ev.d % 2 ^ 57 / 4096 * 4096, s.ev.e % 2 ^ 57 / 4096 * 4096⟩ ∧
      ∀ n, n ≠ s.ev.b → (q.grants.find? fun g => g.slot == n) = p.grants.find? fun g => g.slot == n := by
  let g : Grant := ⟨s.ev.b, BitVec.ofNat 64 s.ev.c &&& 0xF0000000007FFFFF, s.ev.d % 2 ^ 57 / 4096 * 4096, s.ev.e % 2 ^ 57 / 4096 * 4096⟩
  have hexec : execImportGrantWrite s =
      .next (s.updPart s.ev.a fun p => { p with grants := (p.grants.filter fun x => x.slot != g.slot) ++ [g] }) := by
    simp only [execImportGrantWrite, hb, if_true, grant_mask, g]
  refine ⟨_, _, hexec, State.part?_updPart hp fun _ => rfl, rfl, ?_, fun n hn => ?_⟩
  · exact (find?_replace Grant.slot p.grants g s.ev.b).trans (if_pos rfl)
  · exact (find?_replace Grant.slot p.grants g n).trans (if_neg hn)

/-- A register of a function page answers a host with an error where the function is in no partition. -/
theorem State.outsideWrite_noPart {s : State} {reg x : Nat} (hreg : reg = 0x107 ∨ reg = 0x108)
    (hp : s.partOf x = none) (v : DWord) :
    s.outsideWrite reg x v = s.emit (.host (vfOf x) 1 []) := by
  simp [State.outsideWrite, hreg, hp]

theorem State.outsideWrite_recovery {s : State} {reg : Nat} (hs : s.top.stage = .recovery) (h7 : reg ≠ 0x107)
    (h8 : reg ≠ 0x108)
    (x : Nat) (v : DWord) : s.outsideWrite reg x v = s := by
  simp [State.outsideWrite, hs, h7, h8]

/-- Out of recovery a write other than to a function's page is taken. -/
theorem State.outsideWrite_manager {s : State} {reg : Nat} (hs : s.top.stage ≠ .recovery) (h7 : reg ≠ 0x107)
    (h8 : reg ≠ 0x108)
    (x : Nat) (v : DWord) : s.outsideWrite reg x v = s.regWrite reg x v := by
  simp [State.outsideWrite, hs, h7, h8]

theorem State.outsideWrite_page {s : State} {reg x : Nat} (hs : s.top.stage ≠ .recovery)
    (hreg : reg = 0x107 ∨ reg = 0x108)
    (hp : s.partOf x ≠ none) (v : DWord) : s.outsideWrite reg x v = (s.regWrite reg x v).emit (.host (vfOf x) 0 []) := by
  simp [State.outsideWrite, hs, hreg, hp]

theorem State.regWrite_part? {s : State} {reg x : Nat} {p : Part} (hreg : reg = 0x106 ∨ reg = 0x109 ∨ reg = 0x10C)
    (hp : s.part? x = some p) (v : DWord) : (s.regWrite reg x v).part? x = some (p.writeReg reg v) := by
  have hkey (p : Part) : (p.writeReg reg v).n = p.n := by
    unfold Part.writeReg
    split_ifs <;> rfl
  have hupd := State.part?_updPart hp hkey
  have hr : (reg = 0x106 || reg = 0x109 || reg = 0x10C) = true := by simpa [or_assoc] using hreg
  rw [State.regWrite, if_pos hr]
  dsimp only
  split
  · exact (congrArg (List.find? _) (State.migTrigger_keeps State.parts (fun _ _ _ => rfl) _ x)).trans hupd
  · exact hupd

theorem State.regWrite_ctx? {s : State} {reg x : Nat} {c : Ctx} (hreg : reg = 0x107 ∨ reg = 0x108)
    (hc : s.ctx? x = some c) (v : DWord) : (s.regWrite reg x v).ctx? x = some (c.writeReg reg v) := by
  have hkey (c : Ctx) : (c.writeReg reg v).id = c.id := by
    unfold Ctx.writeReg
    split_ifs <;> rfl
  have hens : s.ensureCtx x = s := by simp [State.ensureCtx, hc]
  have hw : s.regWrite reg x v = s.updCtx x fun c => c.writeReg reg v := by
    rcases hreg with rfl | rfl <;> simp [State.regWrite, hens]
  rw [hw]
  exact State.ctx?_updCtx hc hkey

theorem State.regWrite_vf? {s : State} {reg x : Nat} {f : Vf} (hreg : reg = 0x1410 ∨ reg = 0x1418)
    (hf : s.vf? x = some f) (v : DWord) : (s.regWrite reg x v).vf? x = some (f.writeReg reg v) := by
  have hkey (f : Vf) : (f.writeReg reg v).n = f.n := by
    unfold Vf.writeReg
    split_ifs <;> rfl
  have hens : s.ensureVf x = s := by simp [State.ensureVf, hf]
  have hw : s.regWrite reg x v = s.updVf x fun f => f.writeReg reg v := by
    rcases hreg with rfl | rfl <;> simp [State.regWrite, hens]
  rw [hw]
  exact State.vf?_updVf hf hkey

theorem Part.writeReg_migthr (p : Part) (v : DWord) : p.writeReg 0x106 v = { p with migthr := v &&& 0x1FFFFF } := by
  rw [← migthr_mask]
  rfl

theorem Part.writeReg_fwdcfg (p : Part) (v : DWord) :
    p.writeReg 0x109 v = { p with fwdcfg := v &&& 0xFFFFFFFFFFFF1FFF } := by
  rw [← fwdcfg_mask]
  rfl

theorem Part.writeReg_dispcfg (p : Part) (v : DWord) :
    p.writeReg 0x10C v = { p with dispcfg := v &&& 0x01FFFFFFFFFFFF01 } := by
  rw [← dispcfg_mask]
  rfl

theorem Ctx.writeReg_wdog (c : Ctx) (v : DWord) : c.writeReg 0x107 v = { c with wdog := v.setWidth 32 } := rfl

theorem Ctx.writeReg_secovf (c : Ctx) (v : DWord) : c.writeReg 0x108 v = { c with secovfNext := v } := rfl

theorem Vf.writeReg_winbase (f : Vf) (v : DWord) :
    f.writeReg 0x1410 v = { f with winbase := v.toNat % 2 ^ 57 / 4096 * 4096 } := rfl

theorem Vf.writeReg_winsize (f : Vf) (v : DWord) :
    f.writeReg 0x1418 v = { f with winsize := v.toNat / 4096 * 4096 } := rfl

/-- REGISTER_WRITE of a partition's register, out of recovery. -/
theorem exec_registerWrite_part {s : State} {p : Part} (hs : s.top.stage ≠ .recovery)
    (hreg : s.ev.a = 0x106 ∨ s.ev.a = 0x109 ∨ s.ev.a = 0x10C) (hp : s.part? s.ev.b = some p) :
    ∃ t, exec .registerWrite s = .next t ∧ t.part? s.ev.b = some (p.writeReg s.ev.a (BitVec.ofNat 64 s.ev.c)) := by
  refine ⟨_, congrArg Outcome.next (State.outsideWrite_manager hs ?_ ?_ _ _), State.regWrite_part? hreg hp _⟩ <;> omega

/-- REGISTER_WRITE of a context's register, out of recovery. -/
theorem exec_registerWrite_ctx {s : State} {c : Ctx} (hs : s.top.stage ≠ .recovery)
    (hreg : s.ev.a = 0x107 ∨ s.ev.a = 0x108)
    (hc : s.ctx? s.ev.b = some c) (hp : s.partOf s.ev.b ≠ none) :
    ∃ t, exec .registerWrite s = .next t ∧ t.ctx? s.ev.b = some (c.writeReg s.ev.a (BitVec.ofNat 64 s.ev.c)) :=
  ⟨_, congrArg Outcome.next (State.outsideWrite_page hs hreg hp _), State.regWrite_ctx? hreg hc _⟩

/-- REGISTER_WRITE of a function's register, out of recovery. -/
theorem exec_registerWrite_vf {s : State} {f : Vf} (hs : s.top.stage ≠ .recovery)
    (hreg : s.ev.a = 0x1410 ∨ s.ev.a = 0x1418)
    (hf : s.vf? s.ev.b = some f) :
    ∃ t, exec .registerWrite s = .next t ∧ t.vf? s.ev.b = some (f.writeReg s.ev.a (BitVec.ofNat 64 s.ev.c)) := by
  refine ⟨_, congrArg Outcome.next (State.outsideWrite_manager hs ?_ ?_ _ _), State.regWrite_vf? hreg hf _⟩ <;> omega

theorem exec_partitionCreate {s : State} (h : s.canCreate s.ev.a (BitVec.ofNat 20 s.ev.b) = true) :
    ∃ t p, exec .partitionCreate s = .next t ∧ t.part? s.ev.a = some p ∧ t.parts = s.parts ++ [p] ∧
      p.wedges = BitVec.ofNat 20 s.ev.b ∧ p.root2 = BitVec.ofNat 64 s.ev.c &&& 0x01FFFFFFFFFF8000 ∧ p.mode = 16 ∧ p.hbeat = 0 ∧
      p.grants = [] ∧ p.tenant = none ∧ p.key = s.top.keys ∧ t.top.keys = s.top.keys + 1 ∧ t.mem = s.mem := by
  obtain ⟨hcreate, hfind⟩ := State.createPart_of_canCreate h (BitVec.ofNat 64 s.ev.c)
  rw [hcreate] at hfind
  exact ⟨_, _, congrArg Outcome.next hcreate, hfind, rfl, rfl, rfl, rfl, rfl, rfl, rfl, rfl, rfl, rfl⟩

/-- PARTITION_DESTROY of a partition in use: it is marked, its contexts stop, and it comes again. -/
theorem exec_partitionDestroy_open {s : State} {p : Part} (hp : s.part? s.ev.a = some p) (hopen : p.closing = false) :
    ∃ t q, exec .partitionDestroy s = .next t ∧ t.part? s.ev.a = some q ∧ q.closing = true ∧
      ⟨.partitionDestroy, { a := s.ev.a }⟩ ∈ t.agenda ∧
      ∀ c ∈ s.ctxs, s.ctx? c.id = some c → s.inPart s.ev.a c.id = true → c.phase = .running →
        ∃ d, t.ctx? c.id = some d ∧ d.phase = .stopping ∧ d.cause = 0x28 := by
  let u := s.updPart s.ev.a fun p => { p with closing := true }
  have hu : u.part? s.ev.a = some { p with closing := true } := State.part?_updPart hp fun _ => rfl
  have hface := u.stopPart_part? s.ev.a s.ev.a
  rw [hu] at hface
  obtain ⟨q, hq, hqp⟩ := Option.map_eq_some_iff.mp hface
  refine ⟨_, q, congrArg Outcome.next (State.destroy_open hp hopen), hq, congrArg Prod.snd hqp, by simp, fun c hc hcc hin hrun => ?_⟩
  have hinu : u.inPart s.ev.a c.id = s.inPart s.ev.a c.id := s.inPart_updPart _ _ _ fun _ => rfl
  exact State.stopPart_hostStopped (s := u) hc hcc (hinu.trans hin) hrun

theorem exec_packageIdentityWrite (s : State) : exec .packageIdentityWrite s =
    .next (if s.parts = [] ∧ s.top.stage ≠ .recovery then { s with top := { s.top with pkgid := some (BitVec.ofNat 18 s.ev.a) } }
      else s) := by
  show execPackageIdentityWrite s = _
  simp [execPackageIdentityWrite]

theorem exec_tenantKeyImport {s : State} {p : Part} (hp : s.part? s.ev.a = some p) :
    ∃ t, exec .tenantKeyImport s = .next t ∧
    t.part? s.ev.a = some (if s.ev.c = 1 then { p with tenant := some s.ev.b } else p) ∧ t.mem = s.mem := by
  refine ⟨_, rfl, ?_⟩
  split
  · exact ⟨State.part?_updPart hp fun _ => rfl, rfl⟩
  · exact ⟨hp, rfl⟩

end Sys2Proof.Machine
end

section
/-! SUPPORT. The heartbeat and what hangs on it (R19 to R21, R73, R88, R264, R265, R442, R445). -/

namespace Sys2Proof.Machine

open Host

/-! ## The heartbeat -/

theorem State.heartbeat_of_part? {s : State} {n : Nat} {p : Part} (hp : s.part? n = some p) :
    s.heartbeat n = (let w := (s.updPart n fun q => { q with hbeat := p.hbeat + 1, period := hbPeriod q.mode }).hbeatFills n (p.hbeat + 1)
      (w.tickWork fun c => w.inPart n c && !w.detCtx c).tickSlow p (p.hbeat + 1)) := by
  simp only [State.heartbeat, hp]

theorem State.mem_agenda_tickSlow_audit (s : State) (p : Part) {hb : Nat} (h : hb % 1024 = 0) :
    ⟨.assayAudit, { a := p.n }⟩ ∈ (s.tickSlow p hb).agenda ∧ ⟨.sectionDeadlockSearch, { a := p.n }⟩ ∈ (s.tickSlow p hb).agenda := by
  simp only [State.tickSlow, h, if_true]
  split_ifs <;> simp

theorem State.mem_agenda_tickSlow_halving (s : State) (p : Part) {hb : Nat} (h : hb % 65536 = 0) :
    ⟨.migrationCounterHalving, { a := p.n }⟩ ∈ (s.tickSlow p hb).agenda := by
  simp only [State.tickSlow, h, if_true]
  split_ifs <;> simp

theorem State.mem_agenda_tickSlow_quantum (s : State) {p : Part} (hb : Nat)
    (h : p.cycle / quantumCycles ≠ (p.cycle - p.period) / quantumCycles) :
    ⟨.quantumExpiry, { a := p.n }⟩ ∈ (s.tickSlow p hb).agenda := by
  simp only [State.tickSlow, h, ne_eq, not_false_eq_true, if_true]
  simp

/-- HEARTBEAT_TICK of a partition: the count, what hangs on it, and what falls due. -/
theorem exec_heartbeatTick_part {s : State} {p : Part} (hp : s.part? s.ev.a = some p) (hb : s.ev.b = 0) :
    let u := s.updPart p.n fun q => { q with hbeat := p.hbeat + 1, period := hbPeriod q.mode }
    let w := u.hbeatFills p.n (p.hbeat + 1)
    u.part? s.ev.a = some { p with hbeat := p.hbeat + 1, period := hbPeriod p.mode } ∧
    ∃ t, exec .heartbeatTick s = .next t ∧ t = (w.tickWork fun c => w.inPart p.n c && !w.detCtx c).tickSlow p (p.hbeat + 1) ∧
      ((p.hbeat + 1) % 1024 = 0 → ⟨.assayAudit, { a := p.n }⟩ ∈ t.agenda ∧ ⟨.sectionDeadlockSearch, { a := p.n }⟩ ∈ t.agenda) ∧
      ((p.hbeat + 1) % 65536 = 0 → ⟨.migrationCounterHalving, { a := p.n }⟩ ∈ t.agenda) ∧
      (p.cycle / 2000000 ≠ (p.cycle - p.period) / 2000000 → ⟨.quantumExpiry, { a := p.n }⟩ ∈ t.agenda) := by
  intro u w
  have hn := State.part?_n hp
  have hexec : exec .heartbeatTick s = .next (s.heartbeat s.ev.a) := congrArg Outcome.next (if_pos hb)
  rw [← hn] at hp hexec
  rw [← hn, hexec, State.heartbeat_of_part? hp]
  exact ⟨State.part?_updPart hp fun _ => rfl, _, rfl, rfl, State.mem_agenda_tickSlow_audit _ p,
    State.mem_agenda_tickSlow_halving _ p, State.mem_agenda_tickSlow_quantum _ _⟩

theorem exec_heartbeatTick_virtual {s : State} {ctx : Nat} (hb : s.ev.b = ctx + 1) :
    let u := s.tickWork fun c => c == ctx
    exec .heartbeatTick s = .next (if u.ticksOf ctx % 1024 = 0 then u.push .sectionDeadlockSearch { a := s.ev.a, b := ctx + 1 } else u) := by
  show execHeartbeatTick s = _
  simp only [execHeartbeatTick, hb, Nat.add_one_ne_zero, if_false, Nat.add_sub_cancel]
  rfl

theorem exec_contextWatchdog {s : State} {c : Ctx} (hc : s.ctx? s.ev.a = some c) (hw : c.wdog ≠ 0)
    (ht : c.wdog.toNat ≤ c.wdogTicks)
    (hrun : c.phase = .running) :
    exec .contextWatchdog s = .next ((s.updCtx c.id fun c => { c with wdogTicks := 0 }).raiseStop c.id none
      { cause := 0x27, engine := 16, unit := 0xFFFF, addr := 0, detail := 0, total := c.wdog.setWidth 64 }) := by
  show execContextWatchdog s = _
  simp only [execContextWatchdog, hc, hw, hrun, Nat.not_lt.mpr ht, decide_false, ne_eq, not_true_eq_false, Bool.or_self,
    Bool.false_eq_true, if_false]

/-! ## MODE -/

theorem modeWritten_toNat (old v : DWord) : (modeWritten old v).toNat =
    (if old.getLsbD 31 && !v.getLsbD 31 then 2 ^ 31 else 0) + v.toNat / 64 % 8 * 64 +
      (if v.toNat / 16 % 4 = 3 then old.toNat / 16 % 4 else v.toNat / 16 % 4) * 16 + v.toNat % 4 := by
  rw [modeWritten, BitVec.toNat_ofNat]
  refine Nat.mod_eq_of_lt ?_
  split_ifs <;> omega

theorem toNat_field (x : DWord) (lo n : Nat) : (x.extractLsb' lo n).toNat = x.toNat / 2 ^ lo % 2 ^ n := by
  rw [BitVec.extractLsb'_toNat, Nat.shiftRight_eq_div_pow]

/-- The fields of MODE after a write (R442). -/
theorem modeWritten_fields (old v : DWord) :
    (modeWritten old v).extractLsb' 0 4 = (v.extractLsb' 0 4) &&& 3 ∧
    (modeWritten old v).extractLsb' 4 2 = (if v.extractLsb' 4 2 = 3 then old.extractLsb' 4 2 else v.extractLsb' 4 2) ∧
    (modeWritten old v).extractLsb' 6 3 = v.extractLsb' 6 3 ∧
    (modeWritten old v).getLsbD 31 = (old.getLsbD 31 && !v.getLsbD 31) := by
  have hmode := modeWritten_toNat old v
  refine ⟨?_, ?_, ?_, ?_⟩
  · refine BitVec.eq_of_toNat_eq ?_
    rw [BitVec.toNat_and, toNat_field, toNat_field, hmode, show (3 : BitVec 4).toNat = 2 ^ 2 - 1 from rfl, Nat.and_two_pow_sub_one_eq_mod]
    split_ifs <;> omega
  · have h3 : v.extractLsb' 4 2 = 3 ↔ v.toNat / 16 % 4 = 3 := by
      rw [← BitVec.toNat_inj, toNat_field]
      rfl
    refine BitVec.eq_of_toNat_eq ?_
    rw [toNat_field, hmode, apply_ite BitVec.toNat, toNat_field, toNat_field, if_congr h3 rfl rfl]
    split_ifs <;> omega
  · refine BitVec.eq_of_toNat_eq ?_
    rw [toNat_field, toNat_field, hmode]
    split_ifs <;> omega
  · rw [BitVec.getLsbD, Nat.testBit_eq_decide_div_mod_eq]
    cases h : old.getLsbD 31 && !v.getLsbD 31 with
    | false =>
      rw [decide_eq_false_iff_not, hmode, h, if_neg Bool.false_ne_true]
      split_ifs <;> omega
    | true =>
      rw [decide_eq_true_iff, hmode, h, if_pos rfl]
      split_ifs <;> omega

theorem exec_modeWrite {s : State} {p : Part} (hp : s.part? s.ev.a = some p) :
    let v : DWord := BitVec.ofNat 64 s.ev.b
    ∃ t q, exec .modeWrite s = .next t ∧ t.part? s.ev.a = some q ∧ q = { p with mode := q.mode } ∧
      q.mode.extractLsb' 0 4 = (v.extractLsb' 0 4) &&& 3 ∧
      q.mode.extractLsb' 4 2 = (if v.extractLsb' 4 2 = 3 then p.mode.extractLsb' 4 2 else v.extractLsb' 4 2) ∧
      q.mode.extractLsb' 6 3 = v.extractLsb' 6 3 ∧ q.mode.getLsbD 31 = (p.mode.getLsbD 31 && !v.getLsbD 31) :=
  ⟨_, _, rfl, State.part?_updPart hp fun _ => rfl, rfl, modeWritten_fields _ _⟩

theorem exec_powerHold {s : State} {p : Part} (hw : s.partOfWedge s.ev.a = some p) (hp : s.part? p.n = some p) :
    ∃ t, exec .powerHold s = .next t ∧ t.part? p.n = some { p with mode := p.mode ||| 0x80000000 } := by
  have hexec : exec .powerHold s = .next (s.updPart p.n fun q => { q with mode := q.mode ||| 0x80000000 }) := by
    show execPowerHold s = _
    simp only [execPowerHold, hw]
    rfl
  exact ⟨_, hexec, State.part?_updPart hp fun _ => rfl⟩

/-! ## Audits -/

theorem State.mem_auditSend {s : State} {part : Nat} {c : Chan} {f : Fwd} (hc : c ∈ s.chans) (hpart : c.part = part)
    (hsends : c.receives = false)
    (hoff : c.permits + (s.fwds.filter fun f => f.part == part && f.ch == c.n).length ≠ c.slots) (hf : f ∈ s.fwds)
    (hfpart : f.part = part) (hch : f.ch = c.n) :
    ∃ a ∈ s.auditSend part, a.ctx = f.ctx ∧ a.chan = c.n ∧ a.total = c.slots := by
  let found := c.permits + (s.fwds.filter fun f => f.part == part && f.ch == c.n).length
  refine ⟨⟨f.ctx, s.rindOf part c.route c.peer, c.n, found, c.slots⟩, ?_, rfl, rfl, rfl⟩
  refine List.mem_flatMap.mpr ⟨c, List.mem_filter.mpr ⟨hc, by simp [hpart, hsends]⟩, ?_⟩
  dsimp only
  rw [if_neg hoff]
  refine List.mem_map.mpr ⟨f.ctx, List.mem_eraseDups.mpr (List.mem_append_left _ (List.mem_map.mpr ⟨f, ?_, rfl⟩)), rfl⟩
  exact List.mem_filter.mpr ⟨hf, by simp [hfpart, hch]⟩

/-! ## Page migration -/

theorem exec_migrationCounterHalving {s : State} {p : Part} (hp : s.part? s.ev.a = some p) :
    ∃ t, exec .migrationCounterHalving s = .next t ∧ t.mem = s.mem ∧
      t.part? s.ev.a = some { p with migCounters := (p.migCounters.map fun c => (c.1, c.2 / 2)).filter fun c => c.2 != 0 } := by
  refine ⟨_, rfl, State.migTrigger_keeps State.mem (fun _ _ _ => rfl) _ _, ?_⟩
  refine (congrArg (List.find? _) (State.migTrigger_keeps State.parts (fun _ _ _ => rfl) _ _)).trans ?_
  exact State.part?_updPart hp fun _ => rfl

/-- The words that the L1s hold stay the same at a recall. -/
theorem State.recall_words (s : State) (w : Nat) : (s.recall w).l1.map L1Word.word = s.l1.map L1Word.word := by
  unfold State.recall
  split
  · rfl
  · rw [List.map_map]
    refine List.map_congr_left fun e _ => ?_
    rw [Function.comp_apply]
    split <;> rfl

theorem State.recallSpan_words (s : State) (pa n : Nat) :
    (s.recallSpan pa n).l1.map L1Word.word = s.l1.map L1Word.word := by
  unfold State.recallSpan
  split
  · rfl
  · exact foldl_keeps (fun s => s.l1.map L1Word.word) _ (fun s k _ => s.recall_words _) s

theorem State.flipRun_memOnly (s : State) (l : Leaf2) (ipa dst : Nat) : State.MemOnly s (s.flipRun l ipa dst) := by
  refine .foldl _ (fun s pa _ => ?_) s
  split
  · split
    · exact s.homeWrite_memOnly _ _
    · exact .refl s
  · exact .refl s

theorem State.flipRun_words (s : State) (l : Leaf2) (ipa dst : Nat) :
    (s.flipRun l ipa dst).l1.map L1Word.word = s.l1.map L1Word.word := by
  refine foldl_keeps (fun s => s.l1.map L1Word.word) _ (fun s pa _ => ?_) s
  split
  · split
    · exact s.recallSpan_words _ _
    · rfl
  · rfl

theorem State.resave_of_resident {s : State} (h : ∀ g ∈ s.groups, g.resident = true) (g w : Nat) :
    s.resave g w = s := by
  unfold State.resave
  split
  · rename_i gr v hg _
    simp [h gr (List.mem_of_find?_eq_some hg)]
  · rfl

theorem State.foldl_resave_of_resident {s : State} (h : ∀ g ∈ s.groups, g.resident = true) (vs : List Wave) :
    vs.foldl (fun s v => s.resave v.g v.w) s = s :=
  List.foldlRecOn (motive := fun t => t = s) vs _ rfl fun t ht v _ => by rw [ht, State.resave_of_resident h]

/-- Nothing of a span is left in the L1s or their directory (R265, step 2). -/
def State.clearSpan (s : State) (pa n : Nat) : State :=
  let u := s.recallSpan pa n
  let mine (w : Nat) : Bool := decide (pa ≤ 4 * w) && decide (4 * w < pa + n)
  { u with l1 := u.l1.filter fun e => !mine e.word, dir := u.dir.filter fun r => !mine r.word }

theorem State.clearSpan_l1 (s : State) (pa n : Nat) :
    ∀ w ∈ (s.clearSpan pa n).l1.map L1Word.word, ¬(pa ≤ 4 * w ∧ 4 * w < pa + n) := by
  intro w hw
  obtain ⟨d, hd, rfl⟩ := List.mem_map.mp hw
  simpa [-not_and, not_and_or] using (List.mem_filter.mp hd).2

theorem State.clearSpan_parts (s : State) (pa n : Nat) : (s.clearSpan pa n).parts = s.parts :=
  (s.recallSpan_memOnly pa n).field State.parts fun _ _ _ _ _ _ => rfl

theorem State.clearSpan_groups (s : State) (pa n : Nat) : (s.clearSpan pa n).groups = s.groups :=
  (s.recallSpan_memOnly pa n).field State.groups fun _ _ _ _ _ _ => rfl

/-- All that names the page from `lo` to `hi` by its address names the page at `dst`, and translations to it go (R265). -/
def State.repoint (s : State) (part lo hi dst : Nat) : State :=
  let move (a : Nat) : Nat := if lo ≤ a ∧ a < hi then dst + (a - lo) else a
  let gone (e : TlbEntry) : Bool := e.part == part && decide (e.pbase < hi) && decide (lo < e.pbase + e.size)
  let queued (x : Nat × Option Nat × Nat) := (x.1, x.2.1, if x.2.1.isSome then x.2.2 else move x.2.2)
  { s with
    l0 := s.l0.filter fun e => !gone e
    tlb := s.tlb.filter fun e => !gone e
    waves := s.waves.map fun v => v.moveBars move
    peerWatches := s.peerWatches.map fun x => (move x.1, x.2)
    tokens := s.tokens.map fun t => { t with queue := t.queue.map queued }
    faults := s.faults.map fun f => { f with entry := { f.entry with pa := move f.entry.pa } } }

theorem State.repoint_translations (s : State) (part lo hi dst : Nat) :
    ∀ e ∈ (s.repoint part lo hi dst).l0 ++ (s.repoint part lo hi dst).tlb, e.part = part →
      ¬(e.pbase < hi ∧ lo < e.pbase + e.size) := by
  intro e he hpart
  rcases List.mem_append.mp he with he | he
  all_goals simpa [hpart, -not_and, not_and_or] using (List.mem_filter.mp he).2

/-- The state of a page move before the groups that are not resident are saved again. -/
def State.moved (s : State) (part ipa dst : Nat) (l : Leaf2) : State :=
  (((s.clearSpan l.pa (2 ^ l.bits)).flipRun l ipa dst).movePage l.pa (l.pa + 2 ^ l.bits) dst).repoint part l.pa
    (l.pa + 2 ^ l.bits) dst

theorem State.moved_parts (s : State) (part ipa dst : Nat) (l : Leaf2) : (s.moved part ipa dst l).parts = s.parts :=
  ((State.flipRun_memOnly _ l ipa dst).field State.parts fun _ _ _ _ _ _ => rfl).trans (s.clearSpan_parts _ _)

theorem State.moved_groups (s : State) (part ipa dst : Nat) (l : Leaf2) : (s.moved part ipa dst l).groups = s.groups :=
  ((State.flipRun_memOnly _ l ipa dst).field State.groups fun _ _ _ _ _ _ => rfl).trans (s.clearSpan_groups _ _)

theorem State.moved_l1 (s : State) (part ipa dst : Nat) (l : Leaf2) :
    ∀ e ∈ (s.moved part ipa dst l).l1, ¬(l.pa ≤ 4 * e.word ∧ 4 * e.word < l.pa + 2 ^ l.bits) := fun e he =>
  s.clearSpan_l1 l.pa (2 ^ l.bits) e.word
    (State.flipRun_words (s.clearSpan l.pa (2 ^ l.bits)) l ipa dst ▸ List.mem_map_of_mem (f := L1Word.word) he)

/-- A page whose move is admitted, with every group resident (R265). -/
theorem State.migrate_go {s : State} {part ipa dst : Nat} {p : Part} {l : Leaf2} (hp : s.part? part = some p)
    (hl : s.leaf2 p ipa = some l) (hmay : s.mayMigrate p l = true) (hreach : s.reaches p dst = true)
    (hhost : isHostPa dst = true) (hbusy : s.pageBusy l.pa (l.pa + 2 ^ l.bits) = false)
    (hres : ∀ g ∈ s.groups, g.resident = true) :
    s.migrate part ipa dst = (s.moved part ipa dst l).updPart part fun p => { p with
        migCounters := p.migCounters.filter fun c => c.1 != l.ipa
        migrated := p.migrated ++ [(dst, 2 ^ l.bits)] } := by
  simp only [State.migrate, hp, hl, hmay, hreach, hhost, hbusy, Bool.not_true, Bool.or_self, Bool.false_eq_true, if_false]
  exact congrArg (State.updPart · part _)
    (State.foldl_resave_of_resident (s.moved_groups part ipa dst l ▸ hres) (s.moved part ipa dst l).waves)

theorem exec_pageMigration {s : State} {p : Part} {l : Leaf2} (hp : s.part? s.ev.a = some p)
    (hl : s.leaf2 p s.ev.b = some l)
    (hmay : s.mayMigrate p l = true) (hreach : s.reaches p s.ev.c = true) (hhost : isHostPa s.ev.c = true)
    (hbusy : s.pageBusy l.pa (l.pa + 2 ^ l.bits) = false) (hres : ∀ g ∈ s.groups, g.resident = true) :
    ∃ t q, exec .pageMigration s = .next t ∧ t.part? s.ev.a = some q ∧ q = { p with migCounters := q.migCounters, migrated := q.migrated } ∧
      q.migrated = p.migrated ++ [(s.ev.c, 2 ^ l.bits)] ∧ (∀ c ∈ q.migCounters, c.1 ≠ l.ipa) ∧
      (∀ e ∈ t.l0 ++ t.tlb, e.part = s.ev.a → ¬(e.pbase < l.pa + 2 ^ l.bits ∧ l.pa < e.pbase + e.size)) ∧
      (∀ e ∈ t.l1, ¬(l.pa ≤ 4 * e.word ∧ 4 * e.word < l.pa + 2 ^ l.bits)) := by
  have hparts := s.moved_parts s.ev.a s.ev.b s.ev.c l
  have hpu : (s.moved s.ev.a s.ev.b s.ev.c l).part? s.ev.a = some p := (congrArg (List.find? _) hparts).trans hp
  have hgo := State.migrate_go hp hl hmay hreach hhost hbusy hres
  refine ⟨_, _, congrArg Outcome.next hgo, State.part?_updPart hpu fun _ => rfl, rfl, rfl, fun c hc => ?_,
    State.repoint_translations _ s.ev.a l.pa _ s.ev.c, s.moved_l1 s.ev.a s.ev.b s.ev.c l⟩
  simpa using (List.mem_filter.mp hc).2

/-! ## Quanta -/

/-- The function that has the turn after `cur`, of those that wait (R73): the next in ascending number, and around. -/
def passedTo (cur : Nat) (waiting : List Nat) : Nat :=
  match waiting.filter fun v => v != cur with
  | [] => cur
  | v :: vs => match (v :: vs).filter fun x => decide (cur < x) with
    | a :: as => as.foldl min a
    | [] => vs.foldl min v

theorem foldl_min_eq {a v : Nat} {as : List Nat} (hv : v ∈ a :: as) (hle : ∀ x ∈ a :: as, v ≤ x) :
    as.foldl min a = v := by
  have hmin : (a :: as).min? = some v := List.min?_eq_some_iff.mpr ⟨hv, hle⟩
  exact Option.some.inj (List.min?_cons'.symm.trans hmin)

theorem passedTo_alone {cur : Nat} {waiting : List Nat} (h : ∀ v ∈ waiting, v = cur) : passedTo cur waiting = cur := by
  have hnone : (waiting.filter fun v => v != cur) = [] := List.filter_eq_nil_iff.mpr fun v hv => by simp [h v hv]
  simp only [passedTo, hnone]

theorem passedTo_eq {cur v : Nat} {waiting : List Nat} (hv : v ∈ waiting) (hne : v ≠ cur)
    (h : (cur < v ∧ ∀ x ∈ waiting, cur < x → v ≤ x) ∨ (∀ x ∈ waiting, x ≠ cur → x < cur) ∧ ∀ x ∈ waiting, x ≠ cur → v ≤ x) :
    passedTo cur waiting = v := by
  have hother (x : Nat) : x ∈ (waiting.filter fun v => v != cur) ↔ x ∈ waiting ∧ x ≠ cur := by simp
  have hmem := (hother v).mpr ⟨hv, hne⟩
  unfold passedTo
  split
  · rename_i hnil
    simp [hnil] at hmem
  · rename_i w ws hcons
    rw [hcons] at hmem hother
    have habove (x : Nat) : x ∈ ((w :: ws).filter fun x => decide (cur < x)) ↔ x ∈ waiting ∧ cur < x := by
      rw [List.mem_filter, hother, decide_eq_true_iff]
      constructor
      · exact fun hx => ⟨hx.1.1, hx.2⟩
      · exact fun hx => ⟨⟨hx.1, Nat.ne_of_gt hx.2⟩, hx.2⟩
    rcases h with ⟨hlt, hle⟩ | ⟨hbelow, hle⟩
    · split
      · rename_i a as heq
        rw [heq] at habove
        exact foldl_min_eq ((habove v).mpr ⟨hv, hlt⟩) fun x hx => hle x ((habove x).mp hx).1 ((habove x).mp hx).2
      · rename_i heq
        rw [heq] at habove
        exact absurd ((habove v).mpr ⟨hv, hlt⟩) List.not_mem_nil
    · split
      · rename_i a as heq
        rw [heq] at habove
        obtain ⟨ha, hlt⟩ := (habove a).mp List.mem_cons_self
        exact absurd (hbelow a ha (Nat.ne_of_gt hlt)) (Nat.lt_asymm hlt)
      · exact foldl_min_eq hmem fun x hx => hle x ((hother x).mp hx).1 ((hother x).mp hx).2

/-- The functions with something to place at a priority (R73). -/
def State.waitingAt (s : State) (part prio : Nat) : List Nat :=
  ((s.placeable part).filter fun l => l.prio == prio).map fun l => vfOf l.ctx

theorem State.mem_waitingAt (s : State) (part prio v : Nat) :
    v ∈ s.waitingAt part prio ↔ ∃ l ∈ s.placeable part, l.prio = prio ∧ vfOf l.ctx = v := by
  simp [State.waitingAt, and_assoc]

/-- The turn of a priority after a quantum. -/
def State.turnAfter (s : State) (p : Part) (part prio : Nat) : Option Nat :=
  (p.turnOf prio).map fun cur => passedTo cur (s.waitingAt part prio)

/-- `u` differs from `s`, in what a quantum's end may touch, by the turns of the first n priorities. -/
structure State.TurnsPassed (s : State) (p : Part) (part n : Nat) (u : State) : Prop where
  mem : u.mem = s.mem
  groups : u.groups = s.groups
  part : ∃ q, u.part? part = some q ∧ q = { p with turns := q.turns } ∧
    ∀ prio, q.turnOf prio = if prio < n then s.turnAfter p part prio else p.turnOf prio

theorem Part.turnOf_map {q : Part} {prio cur v : Nat} (h : q.turnOf prio = some cur) (m : Nat) :
    ({ q with turns := q.turns.map fun t => if t.1 = prio then (prio, v) else t } : Part).turnOf m =
      if m = prio then some v else q.turnOf m := by
  have hkey (t : Nat × Nat) : (if t.1 = prio then (prio, v) else t).1 = t.1 := by
    split
    · rename_i h
      exact h.symm
    · rfl
  unfold Part.turnOf at h ⊢
  dsimp only
  rw [find?_map_of_key hkey, Option.map_map]
  split
  · rename_i hm
    subst hm
    obtain ⟨t, ht, -⟩ := Option.map_eq_some_iff.mp h
    have ht1 : t.1 = m := by simpa using List.find?_some ht
    rw [ht, Option.map_some, Function.comp_apply, if_pos ht1]
  · rename_i hm
    cases ht : q.turns.find? fun t => t.1 == m with
    | none => rfl
    | some t =>
      have ht1 : t.1 = m := by simpa using List.find?_some ht
      rw [Option.map_some, Function.comp_apply, if_neg (ht1.trans_ne hm), Option.map_some]

theorem State.TurnsPassed.of_fields {s u v : State} {p : Part} {part n : Nat} (h : s.TurnsPassed p part n u)
    (hf : (v.mem, v.groups, v.parts) = (u.mem, u.groups, u.parts)) : s.TurnsPassed p part n v := by
  obtain ⟨hmem, hrest⟩ := Prod.mk.inj hf
  obtain ⟨hgroups, hparts⟩ := Prod.mk.inj hrest
  obtain ⟨q, hq, hqp, hturns⟩ := h.part
  exact ⟨hmem.trans h.mem, hgroups.trans h.groups, q, (congrArg (List.find? _) hparts).trans hq, hqp, hturns⟩

/-- A priority whose turn stays. -/
theorem State.TurnsPassed.stay {s u : State} {p : Part} {part n : Nat} (h : s.TurnsPassed p part n u)
    (hn : p.turnOf n = s.turnAfter p part n) : s.TurnsPassed p part (n + 1) u := by
  obtain ⟨q, hq, hqp, hturns⟩ := h.part
  refine ⟨h.mem, h.groups, q, hq, hqp, fun prio => ?_⟩
  rw [hturns prio]
  by_cases heq : prio = n
  · subst heq
    rw [if_neg (Nat.lt_irrefl prio), if_pos (Nat.lt_succ_self prio), hn]
  · exact if_congr (by omega) rfl rfl

/-- A priority whose turn passes. -/
theorem State.TurnsPassed.pass {s u : State} {p : Part} {part n cur : Nat} (h : s.TurnsPassed p part n u)
    (hn : p.turnOf n = some cur) :
    s.TurnsPassed p part (n + 1) (u.updPart part fun q =>
      { q with turns := q.turns.map fun t => if t.1 = n then (n, passedTo cur (s.waitingAt part n)) else t }) := by
  obtain ⟨q, hq, hqp, hturns⟩ := h.part
  have hcur : q.turnOf n = some cur := by rw [hturns n, if_neg (Nat.lt_irrefl n), hn]
  refine ⟨h.mem, h.groups, _, State.part?_updPart hq fun _ => rfl, by rw [hqp], fun prio => ?_⟩
  rw [Part.turnOf_map hcur prio, hturns prio]
  by_cases heq : prio = n
  · subst heq
    rw [if_pos rfl, if_pos (Nat.lt_succ_self prio), State.turnAfter, hn, Option.map_some]
  · rw [if_neg heq]
    exact if_congr (by omega) rfl rfl

/-- The evictions of a quantum touch the agenda alone. -/
theorem State.foldl_pushNew_keeps {β : Type} (field : State → β)
    (h : ∀ (s : State) es, field { s with agenda := es } = field s)
    (cs : List (Nat × Nat)) (s : State) :
    field (cs.foldl (fun s c => s.pushNew [⟨.clusterEviction, { a := c.1, b := c.2 }⟩]) s) = field s :=
  foldl_keeps field _ (fun s _ _ => h s _) s

/-- A quantum's end (R73): the turns of all 16 priorities pass, and placement comes. -/
theorem State.quantum_turns {s : State} {part : Nat} {p : Part} (hp : s.part? part = some p) :
    ∃ u, s.quantum part = u.push .clusterPlacement { a := part } ∧ s.TurnsPassed p part 16 u := by
  simp only [State.quantum, hp]
  refine ⟨_, rfl, ?_⟩
  generalize 16 = n
  induction n with
  | zero => exact ⟨rfl, rfl, p, hp, rfl, fun prio => (if_neg (Nat.not_lt_zero prio)).symm⟩
  | succ n ih =>
    rw [List.range_succ, List.foldl_append, List.foldl_cons, List.foldl_nil]
    generalize List.foldl _ s (List.range n) = u at ih ⊢
    split
    · rename_i hnone
      exact ih.stay (by rw [State.turnAfter, hnone, Option.map_none])
    · rename_i cur hcur
      split
      · rename_i hnil
        refine ih.stay ?_
        have hstay : passedTo cur (s.waitingAt part n) = cur := by simp only [passedTo, State.waitingAt, hnil]
        rw [State.turnAfter, hcur, Option.map_some, hstay]
      · rename_i v vs hcons
        refine (ih.pass hcur).of_fields ?_
        -- whichever function is next, evictions on its behalf touch the agenda alone
        cases habove : (v :: vs).filter fun x => decide (cur < x)
        all_goals
          simp only [passedTo, State.waitingAt, hcons, habove]
          split
          · rfl
          · split
            · rfl
            · split
              · exact State.foldl_pushNew_keeps (fun s : State => (s.mem, s.groups, s.parts)) (fun _ _ => rfl) _ _
              · rfl

/-- QUANTUM_EXPIRY (R73). -/
theorem exec_quantumExpiry {s : State} {p : Part} (hp : s.part? s.ev.a = some p) :
    ∃ t q, exec .quantumExpiry s = .next t ∧ t.part? s.ev.a = some q ∧ q = { p with turns := q.turns } ∧
      ⟨.clusterPlacement, { a := s.ev.a }⟩ ∈ t.agenda ∧ t.mem = s.mem ∧ t.groups = s.groups ∧
      ∀ prio < 16, ∀ cur, p.turnOf prio = some cur →
        let waits := fun v => v ≠ cur ∧ ∃ l ∈ s.placeable s.ev.a, l.prio = prio ∧ vfOf l.ctx = v
        ((∀ v, ¬waits v) → q.turnOf prio = some cur) ∧
        ∀ v, waits v → (cur < v ∧ (∀ x, waits x → cur < x → v ≤ x) ∨ (∀ x, waits x → x < cur) ∧ ∀ x, waits x → v ≤ x) →
          q.turnOf prio = some v := by
  obtain ⟨u, hu, hmem, hgroups, q, hq, hqp, hturns⟩ := State.quantum_turns hp
  refine ⟨_, q, congrArg Outcome.next hu, hq, hqp, by simp, hmem, hgroups, fun prio hprio cur hcur => ?_⟩
  intro waits
  have hturn : q.turnOf prio = some (passedTo cur (s.waitingAt s.ev.a prio)) := by
    rw [hturns prio, if_pos hprio, State.turnAfter, hcur, Option.map_some]
  have hwaits (v : Nat) : waits v ↔ v ≠ cur ∧ v ∈ s.waitingAt s.ev.a prio :=
    and_congr_right fun _ => (s.mem_waitingAt s.ev.a prio v).symm
  constructor
  · intro hnone
    rw [hturn, passedTo_alone fun v hv => by_contra fun hne => hnone v ((hwaits v).mpr ⟨hne, hv⟩)]
  · intro v hv hnext
    obtain ⟨hne, hmem⟩ := (hwaits v).mp hv
    rw [hturn, passedTo_eq hmem hne]
    rcases hnext with ⟨hlt, hle⟩ | ⟨hbelow, hle⟩
    · exact .inl ⟨hlt, fun x hx hlx => hle x ((hwaits x).mpr ⟨Nat.ne_of_gt hlx, hx⟩) hlx⟩
    · exact .inr ⟨fun x hx hxne => hbelow x ((hwaits x).mpr ⟨hxne, hx⟩), fun x hx hxne => hle x ((hwaits x).mpr ⟨hxne, hx⟩)⟩

end Sys2Proof.Machine
end

section
/-! PROOFS. The statements of the chapter “JZ960 at a glance”. -/

open Sys2Proof Sys2Proof.Machine Host

/-- Settles O7: reset's fields are as listed by definition, and its memory is canonical by the invariant's own lemma. -/
theorem resetState : Obligations.ResetState := by
  unfold Obligations.ResetState
  exact ⟨⟨rfl, rfl, rfl, rfl, rfl, rfl, rfl, rfl, rfl, rfl, rfl⟩, State.reset_memory_wf⟩

/-- Settles O58, by the outcomes of the three verifications, and by the lengths of a report's fields. -/
theorem bringUpEvents : Obligations.BringUpEvents := by
  unfold Obligations.BringUpEvents
  refine ⟨⟨fun s h => ⟨_, rfl, ?_⟩, fun s h => ⟨_, rfl, State.trained_of_firmwareOk h _ _⟩, execRecoveryFirmwareWrite_cases,
    fun s => ⟨_, rfl, rfl, rfl, rfl, rfl, rfl, rfl, rfl, rfl, rfl, rfl, rfl, rfl⟩⟩, fun s p hp => ?_⟩
  · simpa using State.powerOn_of_off h (s.ev.a == 1) s.ev.b s.ev.bytes
  · obtain ⟨hhead, hnonce, hroot, hmgmt, hsvc, hconfig⟩ := s.reportBody_fields p s.ev.bytes
    refine ⟨s.reportBody p s.ev.bytes, ?_, s.length_reportBody p s.ev.bytes, hhead, fun hlen => ?_, hroot, hmgmt, hsvc, hconfig⟩
    · show execAttestationRequest s = _
      simp only [execAttestationRequest, hp]
    · rw [hnonce, field_of_length hlen]

/-- Settles O59, one lemma for each event. A destroyed partition's contexts stop because a stop record leaves
the other contexts as they are (`State.Kept`); a register takes its bits under its mask (`maskBits_eq_and`). -/
theorem assignmentEvents : Obligations.AssignmentEvents := by
  unfold Obligations.AssignmentEvents
  refine ⟨fun s => exec_partitionCreate, fun s p hp => ⟨exec_partitionDestroy_open hp, fun hclosing hctx => ?_⟩,
    exec_packageIdentityWrite, fun s n hn => ⟨fun ha hb => ?_, fun ha hb => ?_⟩, fun s part hvf hstage hpart hidle => ?_,
    fun s p hp hb => execImportGrantWrite_slot hp hb, fun s p hp => exec_tenantKeyImport hp,
    fun s => ⟨fun hreg hp => congrArg Outcome.next (State.outsideWrite_noPart hreg hp _),
      fun hs h7 h8 => congrArg Outcome.next (State.outsideWrite_recovery hs h7 h8 _ _),
      fun hs => ⟨fun p hp => ⟨fun ha => ?_, fun ha => ?_, fun ha => ?_⟩,
        fun c hc hp => ⟨fun ha => ?_, fun ha => ?_⟩, fun f hf => ⟨fun ha => ?_, fun ha => ?_⟩⟩⟩⟩
  · obtain ⟨u, hu⟩ := State.destroy_closing hp hclosing hctx
    exact ⟨_, congrArg Outcome.next hu, u.unassign_zeroWedges s.ev.a p (State.part?_n hp)⟩
  · rw [show decide (s.ev.a = 1) = true from decide_eq_true ha]
    exact execPortAssignment_link hn ha hb
  · rw [show decide (s.ev.a = 1) = false from decide_eq_false ha]
    exact execPortAssignment_port hn ha hb
  · obtain ⟨f, hf, hpf, hmoved⟩ := State.assignVf_idle hvf hstage hpart hidle
    exact ⟨_, f, rfl, hf, hpf, hmoved⟩
  · simpa only [ha, Part.writeReg_migthr] using exec_registerWrite_part hs (.inl ha) hp
  · simpa only [ha, Part.writeReg_fwdcfg] using exec_registerWrite_part hs (.inr (.inl ha)) hp
  · simpa only [ha, Part.writeReg_dispcfg] using exec_registerWrite_part hs (.inr (.inr ha)) hp
  · simpa only [ha, Ctx.writeReg_wdog] using exec_registerWrite_ctx hs (.inl ha) hc hp
  · simpa only [ha, Ctx.writeReg_secovf] using exec_registerWrite_ctx hs (.inr ha) hc hp
  · simpa only [ha, Vf.writeReg_winbase] using exec_registerWrite_vf hs (.inl ha) hf
  · simpa only [ha, Vf.writeReg_winsize] using exec_registerWrite_vf hs (.inr ha) hf

/-- Settles O50, one lemma for each event. The turns pass by induction on the priorities (`State.TurnsPassed`), and a
migration writes memory and what caches it alone (`State.MemOnly`). -/
theorem heartbeatEvents : Obligations.HeartbeatEvents := by
  unfold Obligations.HeartbeatEvents
  exact ⟨fun s p => exec_heartbeatTick_part, fun s ctx => exec_heartbeatTick_virtual, fun s c => exec_contextWatchdog,
    fun s p => exec_modeWrite, fun s p => exec_powerHold, fun s p => exec_quantumExpiry,
    fun s => ⟨rfl, fun c hc hpart hsends hoff f hf hfpart hch => State.mem_auditSend hc hpart hsends hoff hf hfpart hch⟩,
    fun s p => exec_migrationCounterHalving, fun s p l => exec_pageMigration⟩

end

section
/-! SUPPORT. Immediates, and the fragments of a wave: masks without a common lane, free ids, and where the lanes of a split
fragment stand. -/

namespace Sys2Proof.Machine

open Host

/-! ## Immediates -/

theorem toIntBits_eq_toInt {w : Nat} (hw : 0 < w) (x : Nat) : toIntBits w x = (BitVec.ofNat w x).toInt := by
  have hpow : 2 ^ w = 2 * 2 ^ (w - 1) := by rw [← pow_succ', Nat.sub_add_cancel hw]
  rw [toIntBits, BitVec.toInt_eq_toNat_cond, BitVec.toNat_ofNat]
  exact if_congr (by omega) rfl (by simp)

theorem ofInt_toIntBits {w : Nat} (hw : 0 < w) (x : BitVec w) : BitVec.ofInt 64 (toIntBits w x.toNat) = x.signExtend 64 := by
  rw [toIntBits_eq_toInt hw, BitVec.ofNat_toNat, BitVec.setWidth_eq, BitVec.signExtend]

/-- R29, R31: the immediate a word forms is the field with the bits of the IMM word above it. -/
theorem imm64_eq_widened (c : Cur) {w : Nat} (hw : 0 < w) (n : BitVec w) : imm64 c w n.toNat = widened c n := by
  unfold imm64 widened immValue
  cases c.imm with
  | none => exact ofInt_toIntBits hw n
  | some m =>
    have hcat : m.toNat * 2 ^ w + n.toNat = (m ++ n).toNat := by
      rw [BitVec.toNat_append, ← Nat.shiftLeft_add_eq_or_of_lt n.isLt, Nat.shiftLeft_eq]
    simpa only [hcat] using ofInt_toIntBits (Nat.add_pos_right 22 hw) (m ++ n)

theorem branchTarget_eq_target (i : Iss) {w : Nat} (hw : 0 < w) (n : BitVec w) : branchTarget i.c w n.toNat = i.target n := by
  rw [branchTarget, imm64_eq_widened i.c hw, Iss.target]

/-! ## Masks without a common lane -/

theorem LaneMask.exists_lane {m : LaneMask} (h : m ≠ 0) : ∃ l < 32, m.getLsbD l = true := by
  by_contra hnone
  refine h (BitVec.eq_of_getLsbD_eq fun l hl => ?_)
  simpa using fun hm => hnone ⟨l, hl, hm⟩

theorem LaneMask.and_eq_zero_iff {x y : LaneMask} :
    x &&& y = 0 ↔ ∀ l, x.getLsbD l = true → y.getLsbD l = false := by
  constructor
  · intro h l hx
    simpa [hx] using congrArg (BitVec.getLsbD · l) h
  · intro h
    refine BitVec.eq_of_getLsbD_eq fun l _ => ?_
    cases hx : x.getLsbD l with
    | false => simp [hx]
    | true => simp [hx, h l hx]

/-- Masks that share no lane are at most as many as the lanes. -/
theorem LaneMask.length_le_of_disjoint {ms : List LaneMask} (hne : ∀ m ∈ ms, m ≠ 0)
    (hd : ms.Pairwise fun x y => x &&& y = 0) : ms.length ≤ 32 := by
  have hlane : ∀ m : LaneMask, ∃ l, m ≠ 0 → l < 32 ∧ m.getLsbD l = true := fun m => by
    by_cases h : m = 0
    · exact ⟨0, fun h' => absurd h h'⟩
    · obtain ⟨l, hl⟩ := LaneMask.exists_lane h
      exact ⟨l, fun _ => hl⟩
  choose low hlow using hlane
  have hnodup : (ms.map low).Nodup := by
    refine List.pairwise_map.mpr (hd.imp_of_mem fun {x y} hx hy hxy heq => ?_)
    have hlx := (hlow x (hne x hx)).2
    have hly := (hlow y (hne y hy)).2
    rw [← heq, LaneMask.and_eq_zero_iff.mp hxy _ hlx] at hly
    cases hly
  have hsub : ms.map low ⊆ List.range 32 := fun l hl => by
    obtain ⟨m, hm, rfl⟩ := List.mem_map.mp hl
    exact List.mem_range.mpr (hlow m (hne m hm)).1
  simpa using (hnodup.subperm hsub).length_le

theorem LaneMask.getLsbD_foldl_or {α : Type} (g : α → LaneMask) (xs : List α) (a : LaneMask) (l : Nat) :
    (xs.foldl (fun m x => m ||| g x) a).getLsbD l = (a.getLsbD l || xs.any fun x => (g x).getLsbD l) := by
  induction xs generalizing a with
  | nil => simp
  | cons x xs ih => rw [List.foldl_cons, ih, BitVec.getLsbD_or, List.any_cons, Bool.or_assoc]

/-! ## Free ids -/

theorem freeId_spec {used : List Nat} (h : used.length < 64) : freeId used ∉ used ∧ freeId used < 64 := by
  unfold freeId
  cases hfind : (List.range 64).find? fun n => !used.contains n with
  | some n =>
    have hn : n ∉ used := by simpa using List.find?_some hfind
    exact ⟨hn, List.mem_range.mp (List.mem_of_find?_eq_some hfind)⟩
  | none =>
    have hsub : List.range 64 ⊆ used := fun n hn => by simpa using List.find?_eq_none.mp hfind n hn
    have hle := (List.nodup_range.subperm hsub).length_le
    rw [List.length_range] at hle
    omega

/-! ## Places of lanes -/

/-- The places of lanes that a list of fragments gives. -/
def placeIn (fs : List Frag) (l : Nat) : Option (DWord × BitVec 4) :=
  (fs.find? fun f => f.live.getLsbD l).map fun f => (f.pc, f.prio)

theorem Wave.placeOf_eq_placeIn (v : Wave) : v.placeOf = placeIn v.frags := rfl

/-- R60, of a list of fragments. -/
def FragsApart (fs : List Frag) : Prop :=
  (fs.map Frag.id).Nodup ∧ (∀ f ∈ fs, f.id < 64 ∧ f.live ≠ 0) ∧ fs.Pairwise fun x y => x.live &&& y.live = 0

theorem Wave.apart_iff {v : Wave} : v.Apart ↔ FragsApart v.frags := Iff.rfl

theorem FragsApart.eq_of_id {fs : List Frag} (h : FragsApart fs) {x y : Frag} (hx : x ∈ fs) (hy : y ∈ fs) (he : x.id = y.id) :
    x = y := List.inj_on_of_nodup_map h.1 hx hy he

theorem FragsApart.disjoint {fs : List Frag} (h : FragsApart fs) {x y : Frag} (hx : x ∈ fs) (hy : y ∈ fs) (hne : x ≠ y) :
    x.live &&& y.live = 0 :=
  by
  have : Std.Symm fun x y : Frag => x.live &&& y.live = 0 := ⟨fun a b hab => by rwa [BitVec.and_comm]⟩
  exact h.2.2.forall hx hy hne

theorem FragsApart.length_le {fs : List Frag} (h : FragsApart fs) : fs.length ≤ 32 := by
  have := LaneMask.length_le_of_disjoint (ms := fs.map Frag.live)
    (fun m hm => by obtain ⟨f, hf, rfl⟩ := List.mem_map.mp hm; exact (h.2.1 f hf).2) (List.pairwise_map.mpr h.2.2)
  simpa using this

theorem FragsApart.placeIn_of_mem {fs : List Frag} (h : FragsApart fs) {f : Frag} {l : Nat} (hf : f ∈ fs)
    (hl : f.live.getLsbD l = true) : placeIn fs l = some (f.pc, f.prio) := by
  unfold placeIn
  cases hfind : fs.find? fun f => f.live.getLsbD l with
  | none => exact absurd hl (by simpa using List.find?_eq_none.mp hfind f hf)
  | some g =>
    have hg : g.live.getLsbD l = true := by simpa using List.find?_some hfind
    by_cases he : g = f
    · rw [he, Option.map_some]
    · have := LaneMask.and_eq_zero_iff.mp (h.disjoint (List.mem_of_find?_eq_some hfind) hf he) l hg
      rw [this] at hl
      cases hl

theorem placeIn_eq_none {fs : List Frag} {l : Nat} (h : ∀ f ∈ fs, f.live.getLsbD l = false) : placeIn fs l = none := by
  rw [placeIn, List.find?_eq_none.mpr fun f hf => by simp [h f hf], Option.map_none]

/-! ## Splitting a fragment -/

/-- A part of a fragment's lanes: the lanes, their priority and PC, and whether they keep the fragment's wait. -/
abbrev LanePart := LaneMask × BitVec 4 × DWord × Bool

/-- The fragment that takes one part of the lanes of `f`. -/
def Frag.part (f : Frag) (id : Nat) (q : LanePart) : Frag :=
  { id := id, parent := f.id, live := q.1, sib := f.live &&& ~~~q.1, prio := q.2.1, pc := q.2.2.1, age := 0,
    wait := if q.2.2.2 then f.wait else none, frame := f.frame, repNext := none, fwdLane := none }

/-- The fragments that a split makes, each with the lowest id that is free. -/
def Frag.parts (f : Frag) : List Nat → List LanePart → List Frag
  | _, [] => []
  | used, q :: qs => f.part (freeId used) q :: f.parts (freeId used :: used) qs

theorem Wave.split_frags (v : Wave) (f : Frag) (p q : LanePart) (ps : List LanePart) :
    v.split f (p :: q :: ps) =
      { v with frags := (v.frags.filter fun x => x.id != f.id) ++ f.parts (v.frags.map Frag.id) (p :: q :: ps) } := by
  have hfold : ∀ (qs : List LanePart) (acc : List Frag) (used : List Nat),
      (qs.foldl (fun (acc : List Frag × List Nat) (q : LanePart) =>
        (acc.1 ++ [f.part (freeId acc.2) q], freeId acc.2 :: acc.2)) (acc, used)).1 = acc ++ f.parts used qs := by
    intro qs
    induction qs with
    | nil => exact fun acc used => (List.append_nil acc).symm
    | cons q qs ih => exact fun acc used => (ih _ _).trans (List.append_assoc ..)
  exact congrArg (fun fs : List Frag => ({ v with frags := (v.frags.filter fun x : Frag => x.id != f.id) ++ fs } : Wave)) (hfold (p :: q :: ps) [] _)

theorem Frag.parts_live (f : Frag) (used : List Nat) (qs : List LanePart) :
    (f.parts used qs).map (fun x => (x.live, x.prio, x.pc)) = qs.map fun q => (q.1, q.2.1, q.2.2.1) := by
  induction qs generalizing used with
  | nil => rfl
  | cons q qs ih => exact congrArg (_ :: ·) (ih _)

theorem Frag.mem_parts {f : Frag} {used : List Nat} {qs : List LanePart} {q : LanePart} (h : q ∈ qs) :
    ∃ x ∈ f.parts used qs, x.live = q.1 ∧ x.prio = q.2.1 ∧ x.pc = q.2.2.1 := by
  have hm := List.mem_map_of_mem (f := fun q : LanePart => (q.1, q.2.1, q.2.2.1)) h
  rw [← f.parts_live used] at hm
  obtain ⟨x, hx, he⟩ := List.mem_map.mp hm
  exact ⟨x, hx, by simpa using he⟩

theorem Frag.part_of_mem_parts {f : Frag} {used : List Nat} {qs : List LanePart} {x : Frag} (h : x ∈ f.parts used qs) :
    ∃ q ∈ qs, x.live = q.1 := by
  have hm := List.mem_map_of_mem (f := fun x : Frag => (x.live, x.prio, x.pc)) h
  rw [f.parts_live used] at hm
  obtain ⟨q, hq, he⟩ := List.mem_map.mp hm
  exact ⟨q, hq, (Prod.mk.inj he).1.symm⟩

/-- The new ids are new, below 64 and each another one, as long as there are enough of them. -/
theorem Frag.parts_ids {f : Frag} {used : List Nat} {qs : List LanePart} (h : used.length + qs.length ≤ 64) :
    ((f.parts used qs).map Frag.id).Nodup ∧ ∀ x ∈ f.parts used qs, x.id ∉ used ∧ x.id < 64 := by
  induction qs generalizing used with
  | nil => exact ⟨List.nodup_nil, fun x hx => nomatch hx⟩
  | cons q qs ih =>
    rw [List.length_cons] at h
    obtain ⟨hnew, hlt⟩ := freeId_spec (used := used) (by omega)
    obtain ⟨hnodup, hrest⟩ := ih (used := freeId used :: used) (by rw [List.length_cons]; omega)
    refine ⟨List.nodup_cons.mpr ⟨fun hm => ?_, hnodup⟩, fun x hx => ?_⟩
    · obtain ⟨x, hx, he⟩ := List.mem_map.mp hm
      exact (hrest x hx).1 (he ▸ List.mem_cons_self)
    · rcases List.mem_cons.mp hx with rfl | hx
      · exact ⟨hnew, hlt⟩
      · exact ⟨fun hm => (hrest x hx).1 (List.mem_cons_of_mem _ hm), (hrest x hx).2⟩

/-- The parts of a fragment's lanes: none is empty, no two share a lane, and together they are its lanes. -/
structure PartsOf (f : Frag) (parts : List LanePart) : Prop where
  nonempty : ∀ q ∈ parts, q.1 ≠ 0
  disjoint : parts.Pairwise fun x y => x.1 &&& y.1 = 0
  union : parts.foldl (fun m q => m ||| q.1) 0 = f.live

theorem PartsOf.live_iff {f : Frag} {parts : List LanePart} (h : PartsOf f parts) (l : Nat) :
    f.live.getLsbD l = true ↔ ∃ q ∈ parts, q.1.getLsbD l = true := by
  rw [← h.union, LaneMask.getLsbD_foldl_or (fun q : LanePart => q.1)]
  simp

theorem PartsOf.length_le {f : Frag} {parts : List LanePart} (h : PartsOf f parts) : parts.length ≤ 32 := by
  have := LaneMask.length_le_of_disjoint (ms := parts.map (·.1))
    (fun m hm => by obtain ⟨q, hq, rfl⟩ := List.mem_map.mp hm; exact h.nonempty q hq) (List.pairwise_map.mpr h.disjoint)
  simpa using this

/-- What R61 says of a split: fragments that are apart, lanes of the parts at their places, others where they were. -/
structure SplitLeaves (fs : List Frag) (f : Frag) (parts : List LanePart) (gs : List Frag) : Prop where
  moved : ∀ q ∈ parts, ∀ l < 32, q.1.getLsbD l = true → placeIn gs l = some (q.2.2.1, q.2.1)
  stayed : ∀ l < 32, f.live.getLsbD l = false → placeIn gs l = placeIn fs l
  apart : FragsApart gs

/-- Fragments that stand for the parts of `f` take its place. -/
theorem SplitLeaves.of_mem {fs gs : List Frag} {f : Frag} {parts : List LanePart} (h : FragsApart fs)
    (hgs : FragsApart gs) (hold : ∀ x ∈ fs, x ≠ f → x ∈ gs)
    (hnew : ∀ q ∈ parts, ∃ x ∈ gs, x.live = q.1 ∧ x.prio = q.2.1 ∧ x.pc = q.2.2.1)
    (hall : ∀ x ∈ gs, x ∈ fs ∧ x ≠ f ∨ ∀ l, x.live.getLsbD l = true → f.live.getLsbD l = true) : SplitLeaves fs f parts gs where
  moved q hq l _ hl := by
    obtain ⟨x, hx, hlive, hprio, hpc⟩ := hnew q hq
    rw [hgs.placeIn_of_mem hx (hlive ▸ hl), hprio, hpc]
  stayed l _ hl := by
    by_cases hin : ∃ x ∈ fs, x.live.getLsbD l = true
    · obtain ⟨x, hx, hxl⟩ := hin
      have hne : x ≠ f := fun he => by rw [he, hl] at hxl; cases hxl
      rw [h.placeIn_of_mem hx hxl, hgs.placeIn_of_mem (hold x hx hne) hxl]
    · have hnone : ∀ x ∈ fs, x.live.getLsbD l = false := fun x hx => by simpa using fun hxl => hin ⟨x, hx, hxl⟩
      rw [placeIn_eq_none hnone, placeIn_eq_none fun x hx => ?_]
      rcases hall x hx with ⟨hx, -⟩ | hsub
      · exact hnone x hx
      · by_contra hxl
        rw [hsub l (by simpa using hxl)] at hl
        cases hl
  apart := hgs

/-- The fragment at the place of one part. -/
def Frag.moved (f : Frag) (q : LanePart) : Frag :=
  { f with prio := q.2.1, pc := q.2.2.1, wait := if q.2.2.2 then f.wait else none, repNext := none, fwdLane := none }

/-- Ids and lanes alone decide whether fragments are apart. -/
theorem FragsApart.of_map {fs : List Frag} (h : FragsApart fs) {g : Frag → Frag}
    (hg : ∀ x ∈ fs, (g x).id = x.id ∧ (g x).live = x.live) : FragsApart (fs.map g) := by
  refine ⟨?_, fun x hx => ?_, List.pairwise_map.mpr (h.2.2.imp_of_mem fun {x y} hx hy hxy => ?_)⟩
  · rw [List.map_map]
    exact (List.map_congr_left (f := Frag.id ∘ g) fun x hx => (hg x hx).1) ▸ h.1
  · obtain ⟨y, hy, rfl⟩ := List.mem_map.mp hx
    rw [(hg y hy).1, (hg y hy).2]
    exact h.2.1 y hy
  · rwa [(hg x hx).2, (hg y hy).2]

/-- One part: the fragment stays whole and moves. -/
theorem SplitLeaves.single {fs : List Frag} {f : Frag} {q : LanePart} (h : FragsApart fs) (hf : f ∈ fs) (hp : PartsOf f [q]) :
    SplitLeaves fs f [q] (fs.map fun x => if x.id == f.id then x.moved q else x) := by
  have hlive : f.live = q.1 := by simpa using hp.union.symm
  have hother {x : Frag} (hx : x ∈ fs) (hne : x ≠ f) : (if x.id == f.id then x.moved q else x) = x :=
    if_neg fun he => hne (h.eq_of_id hx hf (beq_iff_eq.mp he))
  have hself : (if f.id == f.id then f.moved q else f) = f.moved q := if_pos (beq_self_eq_true _)
  refine .of_mem h (h.of_map fun x _ => by split <;> exact ⟨rfl, rfl⟩)
    (fun x hx hne => List.mem_map.mpr ⟨x, hx, hother hx hne⟩)
    (fun p hp => ?_) fun x hx => ?_
  · rw [List.mem_singleton.mp hp]
    exact ⟨f.moved q, List.mem_map.mpr ⟨f, hf, hself⟩, hlive, rfl, rfl⟩
  · obtain ⟨y, hy, rfl⟩ := List.mem_map.mp hx
    by_cases hne : y = f
    · subst hne
      exact .inr fun l hl => by rwa [hself] at hl
    · exact .inl ⟨by rwa [hother hy hne], by rwa [hother hy hne]⟩

/-- More parts: the fragment ends, and a new one stands for each. -/
theorem SplitLeaves.many {fs : List Frag} {f : Frag} {qs : List LanePart} (h : FragsApart fs) (hf : f ∈ fs) (hp : PartsOf f qs) :
    SplitLeaves fs f qs ((fs.filter fun x => x.id != f.id) ++ f.parts (fs.map Frag.id) qs) := by
  have hids := Frag.parts_ids (f := f) (used := fs.map Frag.id) (qs := qs) (by
    have := h.length_le
    have := hp.length_le
    rw [List.length_map]
    omega)
  have hold {x : Frag} : x ∈ (fs.filter fun x => x.id != f.id) ↔ x ∈ fs ∧ x ≠ f := by
    rw [List.mem_filter, bne_iff_ne]
    exact and_congr_right fun hx => not_congr ⟨h.eq_of_id hx hf, fun he => congrArg Frag.id he⟩
  have hin {x : Frag} (hx : x ∈ f.parts (fs.map Frag.id) qs) (l : Nat) (hl : x.live.getLsbD l = true) : f.live.getLsbD l = true := by
    obtain ⟨q, hq, hlive⟩ := Frag.part_of_mem_parts hx
    exact (hp.live_iff l).mpr ⟨q, hq, hlive ▸ hl⟩
  have hapart : FragsApart ((fs.filter fun x => x.id != f.id) ++ f.parts (fs.map Frag.id) qs) := by
    refine ⟨?_, fun x hx => ?_, ?_⟩
    · rw [List.map_append]
      refine List.nodup_append.mpr ⟨(List.filter_sublist.map _).nodup h.1, hids.1, fun a ha b hb hab => ?_⟩
      obtain ⟨x, hx, rfl⟩ := List.mem_map.mp ha
      obtain ⟨y, hy, rfl⟩ := List.mem_map.mp hb
      exact (hids.2 y hy).1 (hab ▸ List.mem_map_of_mem (hold.mp hx).1)
    · rcases List.mem_append.mp hx with hx | hx
      · exact h.2.1 x (hold.mp hx).1
      · obtain ⟨q, hq, hlive⟩ := Frag.part_of_mem_parts hx
        exact ⟨(hids.2 x hx).2, hlive ▸ hp.nonempty q hq⟩
    · refine List.pairwise_append.mpr ⟨h.2.2.filter _, ?_, fun x hx y hy => ?_⟩
      · have hm : ((f.parts (fs.map Frag.id) qs).map Frag.live) = qs.map (·.1) := by
          simpa [List.map_map, Function.comp_def] using congrArg (List.map Prod.fst) (f.parts_live (fs.map Frag.id) qs)
        have hd : (qs.map (·.1)).Pairwise fun x y : LaneMask => x &&& y = 0 := List.pairwise_map.mpr hp.disjoint
        exact List.pairwise_map.mp (hm ▸ hd)
      · refine LaneMask.and_eq_zero_iff.mpr fun l hl => ?_
        by_contra hy'
        have := LaneMask.and_eq_zero_iff.mp (h.disjoint (hold.mp hx).1 hf (hold.mp hx).2) l hl
        rw [hin hy l (by simpa using hy')] at this
        cases this
  refine .of_mem h hapart (fun x hx hne => List.mem_append_left _ (hold.mpr ⟨hx, hne⟩)) (fun q hq => ?_) fun x hx => ?_
  · obtain ⟨x, hx, he⟩ := Frag.mem_parts hq
    exact ⟨x, List.mem_append_right _ hx, he⟩
  · exact (List.mem_append.mp hx).imp hold.mp hin

/-- R61: where the lanes of a split fragment go. -/
theorem Wave.split_leaves {v : Wave} {f : Frag} {parts : List LanePart} (h : v.Apart) (hf : f ∈ v.frags) (hp : PartsOf f parts) :
    SplitLeaves v.frags f parts (v.split f parts).frags ∧ v.split f parts = { v with frags := (v.split f parts).frags } := by
  match parts with
  | [] => exact absurd hp.union.symm (h.2.1 f hf).2
  | [q] => exact ⟨.single h hf hp, rfl⟩
  | p :: q :: ps =>
    rw [Wave.split_frags]
    exact ⟨.many h hf hp, rfl⟩

/-! ## Branches -/

/-- A source read bit for bit from V[a]. -/
theorem exec_vBranch {s : State} {i : Iss} {a : BitVec 7} {p : BitVec 4} {o : BitVec 14} {z : Bool}
    (h : WordUnit s i { imm := true } false [vsrc 0 a .bit false] []) (ha : vOk i.wv a.toNat = true)
    (hp : noPorts i.wv [vsrc 0 a .bit false]) :
    let taken := laneFilter i.fr.live fun l => decide (bitsOf i.wv a l = 0) == z
    exec (if z then .vbz a p o else .vbnz a p o) s = .next (
      if i.target o = i.c.pc + 4 ∧ p = i.fr.prio then s.retire i
      else s.splitUnit i [(taken, p, i.target o, false), (i.fr.live &&& ~~~taken, i.fr.prio, i.c.pc + 4, false)]) := by
  have hword : exec (if z then .vbz a p o else .vbnz a p o) s = vBranch z a p o s := by cases z <;> rfl
  have hpop : s.popPorts i [⟨0, false, a.toNat, 1, .bit, false⟩] = s := State.popPorts_none (State.iss?_eq h.issuing).2.2.1 hp
  refine (hword.trans (State.issue_go h ha)).trans ?_
  dsimp only
  rw [hpop, State.withIss_eq h.issuing, branchTarget_eq_target i (by decide)]
  exact (apply_ite Outcome.next _ _ _).symm

theorem exec_sBranch {s : State} {i : Iss} {a : BitVec 7} {p : BitVec 4} {o : BitVec 14} {z : Bool}
    (h : WordUnit s i { imm := true } false [usrc 0 a .bit] []) (ha : sOk i.wv a.toNat = true) :
    exec (if z then .sbz a p o else .sbnz a p o) s = .next (
      if decide ((i.wv.sreg a.toNat).val = 0) = z then s.splitUnit i [(i.fr.live, p, i.target o, false)] else s.retire i) := by
  have hword : exec (if z then .sbz a p o else .sbnz a p o) s = sBranch z a p o s := by cases z <;> rfl
  refine (hword.trans (State.issue_go h ha)).trans ?_
  rw [branchTarget_eq_target i (by decide)]
  simp only [beq_iff_eq]
  exact (apply_ite Outcome.next _ _ _).symm

end Sys2Proof.Machine
end

section
open Sys2Proof Sys2Proof.Machine Host

/-- Settles O15: the branches by their equations, the places of split lanes by `Wave.split_leaves`. -/
theorem branchWords : Obligations.BranchWords := by
  unfold Obligations.BranchWords
  refine ⟨fun s i a p o z => ⟨exec_vBranch, exec_sBranch⟩, fun v f parts hv hf hne hd hu => ?_⟩
  obtain ⟨⟨hmoved, hstayed, hapart⟩, hrest⟩ := Wave.split_leaves hv hf ⟨hne, hd, hu⟩
  exact ⟨hmoved, hstayed, hapart, hrest⟩

end

section
/-! SUPPORT. Lookups of launches, groups and waves after updates, and what the stop of a context leaves of the work in hand. -/

namespace Sys2Proof.Machine

open Host

/-! ## Lookups after updates -/

theorem State.launch?_id {s : State} {n : Nat} {l : Launch} (h : s.launch? n = some l) : l.id = n := by
  simpa using List.find?_some h

theorem State.group?_g {s : State} {n : Nat} {g : Group} (h : s.group? n = some g) : g.g = n := by
  simpa using List.find?_some h

theorem State.cmd?_id {s : State} {n : Nat} {c : Cmd} (h : s.cmd? n = some c) : c.id = n := by
  simpa using List.find?_some h

theorem State.wave?_key {s : State} {g w : Nat} {v : Wave} (h : s.wave? g w = some v) : v.g = g ∧ v.w = w := by
  simpa using List.find?_some h

theorem Wave.frag?_id {v : Wave} {n : Nat} {f : Frag} (h : v.frag? n = some f) : f.id = n := by
  simpa using List.find?_some h

theorem State.launch?_updLaunch_map (s : State) (n m : Nat) {f : Launch → Launch} (hf : ∀ l, (f l).id = l.id) :
    (s.updLaunch n f).launch? m = (s.launch? m).map fun l => if l.id == n then f l else l :=
  find?_map_of_key (key := Launch.id) (fun l => by split <;> simp [hf]) s.launches m

theorem State.launch?_updLaunch {s : State} {n : Nat} {l : Launch} {f : Launch → Launch} (h : s.launch? n = some l)
    (hf : ∀ l, (f l).id = l.id) : (s.updLaunch n f).launch? n = some (f l) := by
  rw [s.launch?_updLaunch_map n n hf, h, Option.map_some, State.launch?_id h, if_pos (beq_self_eq_true n)]

theorem State.group?_updGroup_map (s : State) (n m : Nat) {f : Group → Group} (hf : ∀ g, (f g).g = g.g) :
    (s.updGroup n f).group? m = (s.group? m).map fun g => if g.g == n then f g else g :=
  find?_map_of_key (key := Group.g) (fun g => by split <;> simp [hf]) s.groups m

theorem State.group?_updGroup {s : State} {n : Nat} {g : Group} {f : Group → Group} (h : s.group? n = some g)
    (hf : ∀ g, (f g).g = g.g) : (s.updGroup n f).group? n = some (f g) := by
  rw [s.group?_updGroup_map n n hf, h, Option.map_some, State.group?_g h, if_pos (beq_self_eq_true n)]

theorem State.wave?_updWave_map (s : State) (g w m n : Nat) {f : Wave → Wave} (hf : ∀ v, (f v).g = v.g ∧ (f v).w = v.w) :
    (s.updWave g w f).wave? m n = (s.wave? m n).map fun v => if v.g == g && v.w == w then f v else v := by
  unfold State.wave? State.updWave
  rw [List.find?_map]
  congr 2
  funext v
  rw [Function.comp_apply]
  split
  · rw [(hf v).1, (hf v).2]
  · rfl

theorem State.wave?_updWave {s : State} {g w : Nat} {v : Wave} {f : Wave → Wave} (h : s.wave? g w = some v)
    (hf : ∀ v, (f v).g = v.g ∧ (f v).w = v.w) : (s.updWave g w f).wave? g w = some (f v) := by
  obtain ⟨hg, hw⟩ := State.wave?_key h
  rw [s.wave?_updWave_map g w g w hf, h, Option.map_some, hg, hw, beq_self_eq_true, beq_self_eq_true, Bool.and_self, if_pos rfl]

/-! ## What a stop leaves of the work in hand -/

/-- The two states differ in memory, in what caches it, in the module's registers, the partitions and the contexts, in the
agenda and in the next number alone: the launches, groups and waves, the engines and the unit in progress are the same. -/
def State.SameWork (s t : State) : Prop :=
  t = { s with mem := t.mem, l0 := t.l0, tlb := t.tlb, l1 := t.l1, owners := t.owners, seq := t.seq
               top := t.top, parts := t.parts, ctxs := t.ctxs, agenda := t.agenda }

theorem State.SameWork.refl (s : State) : State.SameWork s s := rfl

theorem State.SameWork.trans {s t u : State} (h₁ : State.SameWork s t) (h₂ : State.SameWork t u) : State.SameWork s u := by
  refine Eq.trans h₂ ?_
  rw [h₁]

theorem State.SameWork.foldl {α : Type} {f : State → α → State} (l : List α)
    (h : ∀ s, ∀ a ∈ l, State.SameWork s (f s a)) (s : State) : State.SameWork s (l.foldl f s) :=
  List.foldlRecOn (motive := fun t => State.SameWork s t) l f (.refl s) fun t ht a ha => ht.trans (h t a ha)

/-- A field of the work in hand. -/
theorem State.SameWork.field {s t : State} (h : State.SameWork s t) {β : Type} (get : State → β)
    (hget : ∀ m a b c d n k p x e, get { s with mem := m, l0 := a, tlb := b, l1 := c, owners := d, seq := n
                                                top := k, parts := p, ctxs := x, agenda := e } = get s) : get t = get s :=
  (congrArg get h).trans (hget ..)

theorem State.MemOnly.sameWork {s t : State} (h : State.MemOnly s t) : State.SameWork s t := by
  unfold State.MemOnly at h
  unfold State.SameWork
  rw [h]

theorem State.logAccess_sameWork (s : State) (ctx : Nat) (va : DWord) (kind level ipa acc : Nat) :
    State.SameWork s (s.logAccess ctx va kind level ipa acc).1 := by
  unfold State.logAccess
  dsimp only
  split
  · split <;> rfl
  · rfl

theorem State.stopLost_sameWork (s : State) (ctx : Nat) (va : DWord) (kind level ipa : Nat) :
    State.SameWork s (s.stopLost ctx va kind level ipa) :=
  State.SameWork.trans (t := s.updCtx ctx fun c => { c with lost := true }) rfl (State.logAccess_sameWork ..)

theorem State.stopWrite_sameWork (s : State) (ctx : Nat) (va : DWord) (bs : List Byte) :
    State.SameWork s (s.stopWrite ctx va bs) := by
  have h := (s.ctxWrite_memOnly (s.ctlCore ctx) ctx va.toNat bs).sameWork
  unfold State.stopWrite
  split
  · exact s.stopLost_sameWork ..
  · split <;> rename_i heq <;> rw [heq] at h
    · exact h
    · exact h.trans (State.stopLost_sameWork ..)
    · exact h.trans (State.stopLost_sameWork ..)

theorem State.placeRecord_sameWork (s : State) (ctx : Nat) (l : Launch) (r : StopRec) :
    State.SameWork s (s.placeRecord ctx l r) := by
  have hspill (s : State) (group : Nat) (va : DWord) (bs : List Byte) :
      State.SameWork s (if group = 0xFFFF then s else s.stopWrite ctx va bs) := by
    split
    · exact .refl s
    · exact s.stopWrite_sameWork ..
  unfold State.placeRecord
  dsimp only
  split
  · exact (s.stopWrite_sameWork ..).trans (State.stopWrite_sameWork ..)
  · split
    · split
      · exact ((hspill ..).trans (State.stopWrite_sameWork ..)).trans (State.stopWrite_sameWork ..)
      · exact (hspill ..).trans (State.stopWrite_sameWork ..)
    · exact (hspill ..).trans (State.stopWrite_sameWork ..)

theorem State.fileRecord_sameWork (s : State) (ctx : Nat) (launch : Option Nat) (r : StopRec) :
    State.SameWork s (s.fileRecord ctx launch r) :=
  .foldl _ (fun s l _ => s.placeRecord_sameWork ctx l r) s

theorem State.raiseStop_sameWork (s : State) (ctx : Nat) (launch : Option Nat) (r : StopRec) :
    State.SameWork s (s.raiseStop ctx launch r) := by
  unfold State.raiseStop
  split
  · exact .refl s
  · split
    · exact .refl s
    · dsimp only
      split
      · exact s.fileRecord_sameWork ..
      · exact State.SameWork.trans (State.SameWork.trans (t := s.updCtx ctx _) rfl
          (.trans (.foldl _ (fun s l _ => (s.stopWrite_sameWork ..).trans (State.stopWrite_sameWork ..)) _)
            (State.fileRecord_sameWork ..))) rfl

theorem State.agentViolate_sameWork (s : State) (ctx : Nat) (launch : Option Nat) (engine unit : Nat) (va : DWord)
    (kind level ipa : Nat) (acc : Acc) : State.SameWork s (s.agentViolate ctx launch engine unit va kind level ipa acc) :=
  (s.logAccess_sameWork ..).trans (State.raiseStop_sameWork ..)

theorem State.resave_sameWork (s : State) (g w : Nat) : State.SameWork s (s.resave g w) := by
  unfold State.resave
  split
  · rename_i gr v _ _
    split
    · rename_i n l _ _ _
      have harea := (s.ctxWrite_memOnly (s.ctlCore gr.ctx) gr.ctx ((l.slotAt n).toNat + waveAreaAt w) (s.waveChunk v)).sameWork
      dsimp only
      cases h : s.ctxWrite (s.ctlCore gr.ctx) gr.ctx ((l.slotAt n).toNat + waveAreaAt w) (s.waveChunk v) with
      | ok u x =>
        rw [h] at harea
        have hregs := harea.trans
          (u.ctxWrite_memOnly (s.ctlCore gr.ctx) gr.ctx ((l.slotAt n).toNat + waveRegsAt v) v.regChunk).sameWork
        dsimp only
        split <;> rename_i heq <;> rw [heq] at hregs
        · exact hregs
        · exact hregs.trans (State.agentViolate_sameWork ..)
        · exact hregs.trans (State.agentViolate_sameWork ..)
      | viol u a k lv ipa =>
        rw [h] at harea
        exact harea.trans (State.agentViolate_sameWork ..)
      | fault u a e =>
        rw [h] at harea
        exact harea.trans (State.agentViolate_sameWork ..)
    · exact .refl s
  · exact .refl s

end Sys2Proof.Machine
end

section
/-! SUPPORT. Fragment words: the lanes of a mask, the SCONV test, local traps of several fragments, and the exit of lanes. -/

namespace Sys2Proof.Machine

open Host

/-! ## Masks given by a test -/

/-- A sum of distinct powers of two, one for each place that passes a test. -/
theorem testBit_foldl_pow (p : Nat → Bool) (n : Nat) :
    let a := (List.range n).foldl (fun a k => if p k then a + 2 ^ k else a) 0
    a < 2 ^ n ∧ ∀ l, a.testBit l = (decide (l < n) && p l) := by
  induction n with
  | zero => simp
  | succ n ih =>
    rw [List.range_succ, List.foldl_append, List.foldl_cons, List.foldl_nil]
    generalize List.foldl _ 0 (List.range n) = a at ih ⊢
    obtain ⟨hlt, hbit⟩ := ih
    have hstep (b : Nat) (hb : b = if p n then a + 2 ^ n else a) (l : Nat) : b.testBit l = (decide (l < n + 1) && p l) := by
      have hor : b = a ||| (if p n then 2 ^ n else 0) := by
        rw [hb]
        split
        · rw [Nat.add_comm, Nat.lor_comm]
          simpa using Nat.two_pow_add_eq_or_of_lt hlt 1
        · simp
      rw [hor, Nat.testBit_or, hbit]
      rcases lt_trichotomy l n with hl | rfl | hl
      · split <;> simp [hl, Nat.ne_of_gt hl, Nat.lt_succ_of_lt hl]
      · split <;> simp_all
      · split <;> simp [Nat.lt_asymm hl, Nat.ne_of_lt hl, Nat.not_lt.mpr hl]
    refine ⟨?_, hstep _ rfl⟩
    rw [pow_succ, mul_two]
    split <;> omega

theorem getLsbD_laneFilter (m : LaneMask) (p : Nat → Bool) (l : Nat) :
    (laneFilter m p).getLsbD l = (m.getLsbD l && p l) := by
  rw [laneFilter, BitVec.getLsbD_ofNat, (testBit_foldl_pow (fun l => m.getLsbD l && p l) 32).2]
  by_cases hl : l < 32
  · simp [hl]
  · simp [hl, BitVec.getLsbD_of_ge m l (Nat.not_lt.mp hl)]

theorem lanesOf_zero : lanesOf 0 = [] := by simp [lanesOf]

/-- The lanes of a mask begin with the lowest. -/
theorem lanesOf_eq_cons {m : LaneMask} {l : Nat} (hl : l < 32) (hm : m.getLsbD l = true) (hlow : ∀ k < l, m.getLsbD k = false) :
    ∃ ls, lanesOf m = l :: ls := by
  have hhead : (lanesOf m).head? = some l := by
    rw [lanesOf, List.head?_filter, List.find?_range_eq_some]
    exact ⟨hm, List.mem_range.mpr hl, fun k hk => by simp [hlow k hk]⟩
  exact ⟨_, (List.eq_cons_of_mem_head? (Option.mem_def.mpr hhead))⟩

/-! ## SYIELD, SFRAG, SLIVE and SNOP -/

theorem toNat_append_eq {m n : Nat} (x : BitVec m) (y : BitVec n) : (x ++ y).toNat = x.toNat * 2 ^ n + y.toNat := by
  rw [BitVec.toNat_append, ← Nat.shiftLeft_add_eq_or_of_lt y.isLt, Nat.shiftLeft_eq]

/-- R101: what SLIVE writes, field by field. -/
theorem slive_fields (live : LaneMask) (n id parent : Nat) (prio : BitVec 4) :
    BitVec.ofNat 64 (live.toNat + n % 64 * 2 ^ 32 + id % 256 * 2 ^ 40 + parent % 256 * 2 ^ 48 + prio.toNat * 2 ^ 56) =
      ((0 : BitVec 4) ++ prio ++ BitVec.ofNat 8 parent ++ BitVec.ofNat 8 id ++ (0 : BitVec 2) ++ BitVec.ofNat 6 n ++ live : BitVec 64) := by
  refine BitVec.eq_of_toNat_eq ?_
  have hlive := live.isLt
  have hprio := prio.isLt
  simp only [toNat_append_eq, BitVec.toNat_ofNat, BitVec.ofNat_eq_ofNat]
  omega

theorem exec_fragmentView {s : State} {i : Iss} {d : BitVec 7} (h : WordUnit s i {} false [] [(true, d.toNat)])
    (hd : sOk i.wv d.toNat = true) :
    exec (.sfrag d) s = .next ((s.updCur i fun w => w.setS d.toNat (i.fr.sib ++ i.fr.live : BitVec 64) tRAW).retire i) ∧
    exec (.slive d) s = .next ((s.updCur i fun w => w.setS d.toNat
      ((0 : BitVec 4) ++ i.fr.prio ++ BitVec.ofNat 8 i.fr.parent ++ BitVec.ofNat 8 i.fr.id ++ (0 : BitVec 2) ++
        BitVec.ofNat 6 i.wv.frags.length ++ i.wv.live : BitVec 64) tRAW).retire i) :=
  ⟨State.issue_go h hd, (State.issue_go h hd).trans (by dsimp only; rw [slive_fields])⟩

/-! ## SCONV -/

/-- The best of a list by a choice between two, which keeps one of them and is at least as good as both. -/
theorem foldl_pick {α : Type} {better : α → α → Prop} {pick : α → α → α} (hrefl : ∀ x, better x x)
    (htrans : ∀ {x y z}, better x y → better y z → better x z)
    (hpick : ∀ b x, (pick b x = b ∨ pick b x = x) ∧ better (pick b x) b ∧ better (pick b x) x) (xs : List α) (b : α) :
    xs.foldl pick b ∈ b :: xs ∧ ∀ x ∈ b :: xs, better (xs.foldl pick b) x := by
  induction xs generalizing b with
  | nil => exact ⟨List.mem_singleton_self b, fun x hx => List.mem_singleton.mp hx ▸ hrefl b⟩
  | cons x xs ih =>
    obtain ⟨hone, hb, hx⟩ := hpick b x
    obtain ⟨hmem, hbest⟩ := ih (pick b x)
    rw [List.foldl_cons]
    have hp := hbest _ List.mem_cons_self
    refine ⟨?_, fun y hy => ?_⟩
    · rcases List.mem_cons.mp hmem with h | h
      · rcases hone with he | he <;> rw [h, he] <;> simp
      · exact List.mem_cons_of_mem _ (List.mem_cons_of_mem _ h)
    · rcases List.mem_cons.mp hy with rfl | hy
      · exact htrans hp hb
      · rcases List.mem_cons.mp hy with rfl | hy
        · exact htrans hp hx
        · exact hbest y (List.mem_cons_of_mem _ hy)

/-- The fragment with the lowest id. -/
def lowestId (f : Frag) (fs : List Frag) : Frag := fs.foldl (fun b f => if f.id < b.id then f else b) f

/-- The highest priority. -/
def highestPrio (f : Frag) (fs : List Frag) : BitVec 4 := fs.foldl (fun p f => if p < f.prio then f.prio else p) f.prio

theorem lowestId_spec (f : Frag) (fs : List Frag) : lowestId f fs ∈ f :: fs ∧ ∀ x ∈ f :: fs, (lowestId f fs).id ≤ x.id := by
  refine foldl_pick (better := fun x y : Frag => x.id ≤ y.id) (fun x => le_refl _) (fun h₁ h₂ => le_trans h₁ h₂) (fun b x => ?_) fs f
  split
  · exact ⟨.inr rfl, by omega, le_refl _⟩
  · exact ⟨.inl rfl, le_refl _, by omega⟩

theorem highestPrio_spec (f : Frag) (fs : List Frag) :
    (∃ x ∈ f :: fs, x.prio = highestPrio f fs) ∧ ∀ x ∈ f :: fs, x.prio ≤ highestPrio f fs := by
  have h := foldl_pick (better := fun p q : BitVec 4 => q ≤ p) (pick := fun p q => if p < q then q else p) (fun x => BitVec.le_refl _)
    (fun h₁ h₂ => BitVec.le_trans h₂ h₁) (fun p q => by
      split
      · exact ⟨.inr rfl, BitVec.le_of_lt ‹_›, BitVec.le_refl _⟩
      · exact ⟨.inl rfl, BitVec.le_refl _, BitVec.not_lt.mp ‹_›⟩) (fs.map Frag.prio) f.prio
  rw [List.foldl_map, ← List.map_cons (f := Frag.prio)] at h
  exact ⟨List.mem_map.mp h.1, fun x hx => h.2 _ (List.mem_map_of_mem hx)⟩

/-- The fragment that joins those of a wave at one SCONV word (R66). -/
def joinedFrag (f : Frag) (fs : List Frag) : Frag :=
  let live := fs.foldl (fun m f => m ||| f.live) f.live
  { lowestId f fs with
    live := live, sib := (fs.foldl (fun m f => m ||| f.sib) f.sib) &&& ~~~live, prio := highestPrio f fs, pc := f.pc + 4, age := 0, wait := none }

/-- Some fragment of the wave is still on its way to an SCONV word. -/
theorem State.sconvTest_stay {s : State} {i : Iss} {v : Wave} (hv : s.wave? i.c.g i.c.w = some v)
    (h : ∃ f ∈ v.frags, f.wait ≠ some .sconv) : s.sconvTest i = s := by
  have hany : (v.frags.any fun f => f.wait != some .sconv) = true := by
    obtain ⟨f, hf, hw⟩ := h
    exact List.any_eq_true.mpr ⟨f, hf, bne_iff_ne.mpr hw⟩
  simp only [State.sconvTest, hv, hany, Bool.or_true, if_true]

theorem State.sconvTest_join {s : State} {i : Iss} {v : Wave} {f : Frag} {fs : List Frag} (hv : s.wave? i.c.g i.c.w = some v)
    (hfs : v.frags = f :: fs) (hwait : ∀ x ∈ v.frags, x.wait = some .sconv) (hpc : ∀ x ∈ v.frags, x.pc = f.pc) :
    s.sconvTest i = s.updCur i fun w => { w with units := w.units + v.frags.length, frags := [joinedFrag f fs] } := by
  have hany : (v.frags.isEmpty || v.frags.any fun f => f.wait != some .sconv) = false := by
    rw [hfs]
    simpa [hfs] using hwait
  have hall : (fs.all fun x => x.pc == f.pc) = true := by
    rw [hfs] at hpc
    simpa using fun x hx => hpc x (List.mem_cons_of_mem _ hx)
  rw [State.sconvTest, hv]
  dsimp only
  rw [hany, if_neg Bool.false_ne_true, hfs]
  dsimp only
  rw [hall, if_pos rfl]
  rfl

/-- Every fragment of the wave waits at an SCONV word, at two or more of them. -/
theorem State.sconvTest_trap {s : State} {i : Iss} {v : Wave} (hv : s.wave? i.c.g i.c.w = some v)
    (hwait : ∀ x ∈ v.frags, x.wait = some .sconv) {x y : Frag} (hx : x ∈ v.frags) (hy : y ∈ v.frags) (hne : x.pc ≠ y.pc) :
    s.sconvTest i = v.frags.foldl (fun s f =>
      s.trapFrag { i with c := { i.c with f := f.id, unitPc := f.pc } } f 0x05 0 (f.live.setWidth 64) none)
      (s.updCur i fun w => { w with frags := w.frags.map fun f => { f with wait := none } }) := by
  rw [State.sconvTest, hv]
  dsimp only
  match hfs : v.frags with
  | [] => rw [hfs] at hx; cases hx
  | f :: fs =>
    rw [hfs] at hwait hx hy
    have hany : ((f :: fs).isEmpty || (f :: fs).any fun f => f.wait != some .sconv) = false := by simpa using hwait
    have hall : (fs.all fun x => x.pc == f.pc) = false := by
      refine Bool.eq_false_iff.mpr fun h => hne ?_
      have hpc : ∀ z ∈ f :: fs, z.pc = f.pc := fun z hz => by
        rcases List.mem_cons.mp hz with rfl | hz
        · rfl
        · exact beq_iff_eq.mp (List.all_eq_true.mp h z hz)
      rw [hpc x hx, hpc y hy]
    rw [hany, if_neg Bool.false_ne_true]
    dsimp only
    rw [hall, if_neg Bool.false_ne_true]

/-- A wave one of whose fragments enters its handler (R395, R397). -/
def Wave.enterTrap (w : Wave) (f : Frag) (cause : Nat) (faddr finfo unit : DWord) (rep : Option Nat) : Wave :=
  let slot := freeId (w.frames.map Frame.slot)
  { w with
    frames := w.frames ++ [⟨slot, BitVec.ofNat 8 cause, faddr, unit, unit, f.id, f.parent, f.sib, finfo, f.prio, rep, f.fwdLane, f.live⟩]
    frags := w.frags.map fun x => if x.id == f.id then
      { x with pc := trapEntry w.regs.tvec, prio := 15, wait := none, frame := some slot, repNext := none, fwdLane := none } else x }

theorem State.trapFrag_enter (s : State) {i : Iss} {f : Frag} (hframe : f.frame = none) (htvec : i.wv.regs.tvec ≠ 0) (cause : Nat)
    (faddr finfo : DWord) (rep : Option Nat) :
    s.trapFrag i f cause faddr finfo rep = (s.updCur i fun w => w.enterTrap f cause faddr finfo i.c.unitPc rep).endUnit := by
  have hgo : (f.frame.isSome || decide (i.wv.regs.tvec = 0)) = false := by rw [hframe, decide_eq_false htvec]; rfl
  rw [State.trapFrag, hgo, if_neg Bool.false_ne_true]
  rfl

/-- Fragment `x` of a wave has entered its handler for `cause` with the unit at `unit` (R395, R397). -/
def Wave.InHandler (w : Wave) (x : Frag) (cause : BitVec 8) (faddr finfo unit : DWord) : Prop :=
  ∃ y ∈ w.frags, ∃ fm ∈ w.frames, y.id = x.id ∧ y.live = x.live ∧ y.pc = trapEntry w.regs.tvec ∧ y.prio = 15 ∧
    y.frame = some fm.slot ∧ fm.cause = cause ∧ fm.faddr = faddr ∧ fm.finfo = finfo ∧ fm.fpc = unit

theorem Wave.enterTrap_self {w : Wave} {f : Frag} (h : ∃ y ∈ w.frags, y.id = f.id ∧ y.live = f.live) (cause : Nat)
    (faddr finfo unit : DWord) (rep : Option Nat) :
    (w.enterTrap f cause faddr finfo unit rep).InHandler f (BitVec.ofNat 8 cause) faddr finfo unit := by
  obtain ⟨y, hy, hid, hlive⟩ := h
  refine ⟨_, List.mem_map_of_mem hy, _, List.mem_append_right _ (List.mem_singleton_self _), ?_⟩
  rw [if_pos (beq_iff_eq.mpr hid)]
  exact ⟨hid, hlive, rfl, rfl, rfl, rfl, rfl, rfl, rfl⟩

theorem Wave.enterTrap_other {w : Wave} {f x : Frag} {c : BitVec 8} {a b u : DWord} (h : w.InHandler x c a b u) (hne : x.id ≠ f.id)
    (cause : Nat) (faddr finfo unit : DWord) (rep : Option Nat) :
    (w.enterTrap f cause faddr finfo unit rep).InHandler x c a b u := by
  obtain ⟨y, hy, fm, hfm, hid, hrest⟩ := h
  refine ⟨y, List.mem_map.mpr ⟨y, hy, if_neg ?_⟩, fm, List.mem_append_left _ hfm, hid, hrest⟩
  rw [hid]
  exact fun he => hne (beq_iff_eq.mp he)

theorem Wave.enterTrap_present {w : Wave} {f x : Frag} (h : ∃ y ∈ w.frags, y.id = x.id ∧ y.live = x.live) (cause : Nat)
    (faddr finfo unit : DWord) (rep : Option Nat) :
    ∃ y ∈ (w.enterTrap f cause faddr finfo unit rep).frags, y.id = x.id ∧ y.live = x.live := by
  obtain ⟨y, hy, hid, hlive⟩ := h
  refine ⟨_, List.mem_map_of_mem hy, ?_⟩
  split <;> exact ⟨hid, hlive⟩

/-- Each fragment of a list enters its handler in turn, at the unit it stands at. -/
def Wave.enterAll (w : Wave) (fs : List Frag) (cause : Nat) : Wave :=
  fs.foldl (fun w f => w.enterTrap f cause 0 (f.live.setWidth 64) f.pc none) w

theorem Wave.enterAll_keeps (w : Wave) (fs : List Frag) (cause : Nat) :
    (w.enterAll fs cause).g = w.g ∧ (w.enterAll fs cause).w = w.w ∧ (w.enterAll fs cause).regs = w.regs :=
  List.foldlRecOn (motive := fun v : Wave => v.g = w.g ∧ v.w = w.w ∧ v.regs = w.regs) fs _ ⟨rfl, rfl, rfl⟩ fun _ h _ _ => h

theorem Wave.enterAll_inHandler {fs : List Frag} (hnodup : (fs.map Frag.id).Nodup) (cause : Nat) {w : Wave}
    (h : ∀ x ∈ fs, ∃ y ∈ w.frags, y.id = x.id ∧ y.live = x.live) :
    ∀ x ∈ fs, (w.enterAll fs cause).InHandler x (BitVec.ofNat 8 cause) 0 (x.live.setWidth 64) x.pc := by
  induction fs generalizing w with
  | nil => exact fun x hx => nomatch hx
  | cons f fs ih =>
    rw [List.map_cons, List.nodup_cons] at hnodup
    have hstay (gs : List Frag) (hgs : ∀ g ∈ gs, f.id ≠ g.id) (w : Wave) {c : BitVec 8} {a b u : DWord} (hw : w.InHandler f c a b u) :
        (w.enterAll gs cause).InHandler f c a b u :=
      List.foldlRecOn (motive := fun v : Wave => v.InHandler f c a b u) gs _ hw fun _ hv g hg => Wave.enterTrap_other hv (hgs g hg) ..
    intro x hx
    rcases List.mem_cons.mp hx with rfl | hx
    · exact hstay fs (fun g hg he => hnodup.1 (he ▸ List.mem_map_of_mem hg)) _ (Wave.enterTrap_self (h x List.mem_cons_self) ..)
    · exact ih hnodup.2 (fun y hy => Wave.enterTrap_present (h y (List.mem_cons_of_mem _ hy)) ..) x hx

/-- Several fragments of a wave trap one after the other: the wave enters their handlers. -/
theorem State.foldl_trapFrag {i : Iss} (htvec : i.wv.regs.tvec ≠ 0) (cause : Nat) (fs : List Frag) (hframe : ∀ f ∈ fs, f.frame = none)
    {s : State} {v : Wave} (hv : s.wave? i.c.g i.c.w = some v) :
    (fs.foldl (fun s f => s.trapFrag { i with c := { i.c with f := f.id, unitPc := f.pc } } f cause 0 (f.live.setWidth 64) none)
      s).wave? i.c.g i.c.w = some (v.enterAll fs cause) := by
  induction fs generalizing s v with
  | nil => exact hv
  | cons f fs ih =>
    refine ih (fun g hg => hframe g (List.mem_cons_of_mem _ hg)) ?_
    have henter := s.trapFrag_enter (i := { i with c := { i.c with f := f.id, unitPc := f.pc } }) (hframe f List.mem_cons_self) htvec
      cause 0 (f.live.setWidth 64) none
    exact (congrArg (State.wave? · i.c.g i.c.w) henter).trans (State.wave?_updWave hv fun _ => ⟨rfl, rfl⟩)

/-- The wave once its issuing fragment waits at its SCONV word. -/
def Iss.atSconv (i : Iss) : Wave := i.wv.updFrag i.c.f fun f => { f with pc := i.c.unitPc, wait := some .sconv }

theorem Iss.atSconv_frags (i : Iss) : i.atSconv.frags =
    i.wv.frags.map fun f => if f.id == i.c.f then { f with pc := i.c.unitPc, wait := some .sconv } else f := rfl

theorem Iss.mem_atSconv {i : Iss} {f : Frag} (hf : f ∈ i.wv.frags) (hne : f.id ≠ i.c.f) : f ∈ i.atSconv.frags :=
  List.mem_map.mpr ⟨f, hf, if_neg fun he => hne (beq_iff_eq.mp he)⟩

/-- A wave whose issuing fragment is at an SCONV word. -/
structure AtSconv (s : State) (i : Iss) : Prop where
  word : WordUnit s i {} false [] []
  plain : i.c.unitPc = i.c.pc
  apart : i.wv.Apart

theorem AtSconv.frag {s : State} {i : Iss} (h : AtSconv s i) : i.fr ∈ i.wv.frags ∧ i.fr.id = i.c.f := by
  obtain ⟨-, -, -, hfr, -⟩ := State.iss?_eq h.word.issuing
  exact ⟨List.mem_of_find?_eq_some hfr, Wave.frag?_id hfr⟩

theorem AtSconv.exec {s : State} {i : Iss} (h : AtSconv s i) : exec .sconv s = .next ((s.block i .sconv).sconvTest i) :=
  State.issue_go h.word rfl

theorem AtSconv.wave {s : State} {i : Iss} (h : AtSconv s i) : (s.block i .sconv).wave? i.c.g i.c.w = some i.atSconv :=
  State.wave?_updWave (State.iss?_eq h.word.issuing).2.2.1 fun _ => ⟨rfl, rfl⟩

/-- What holds of the issuing fragment as it waits, and of every other, holds of all. -/
theorem AtSconv.forall {s : State} {i : Iss} (h : AtSconv s i) {P : Frag → Prop}
    (hself : P { i.fr with pc := i.c.pc, wait := some .sconv }) (hother : ∀ f ∈ i.wv.frags, f.id ≠ i.fr.id → P f) :
    ∀ x ∈ i.atSconv.frags, P x := by
  intro x hx
  obtain ⟨f, hf, rfl⟩ := List.mem_map.mp hx
  split
  · rename_i he
    have hfi : f = i.fr := FragsApart.eq_of_id h.apart hf h.frag.1 ((beq_iff_eq.mp he).trans h.frag.2.symm)
    rw [hfi, h.plain]
    exact hself
  · rename_i he
    exact hother f hf fun hid => he (beq_iff_eq.mpr (hid.trans h.frag.2))

/-- R100: a live lane is still elsewhere. -/
theorem AtSconv.waits {s : State} {i : Iss} (h : AtSconv s i) (helse : ∃ f ∈ i.wv.frags, f.id ≠ i.fr.id ∧ f.wait ≠ some .sconv) :
    Machine.exec .sconv s = .next (s.block i .sconv) := by
  obtain ⟨f, hf, hne, hw⟩ := helse
  rw [h.exec, State.sconvTest_stay h.wave ⟨f, Iss.mem_atSconv hf (h.frag.2 ▸ hne), hw⟩]

/-- R66: the fragments of a wave at one SCONV word become one. -/
theorem AtSconv.joins {s : State} {i : Iss} (h : AtSconv s i)
    (hall : ∀ f ∈ i.wv.frags, f.id ≠ i.fr.id → f.wait = some .sconv ∧ f.pc = i.c.pc) :
    ∃ t v f, Machine.exec .sconv s = .next t ∧ t.wave? i.c.g i.c.w = some v ∧ v = { i.wv with frags := [f], units := v.units } ∧
      f.live = i.wv.live ∧ f.pc = i.c.pc + 4 ∧ f.wait = none ∧ (∀ x ∈ i.wv.frags, f.id ≤ x.id ∧ x.prio ≤ f.prio) ∧
      (∃ x ∈ i.wv.frags, x.id = f.id) ∧ (∃ x ∈ i.wv.frags, x.prio = f.prio) ∧ t.mem = s.mem ∧ t.cur = none := by
  have hwait := h.forall (P := fun x => x.wait = some .sconv ∧ x.pc = i.c.pc) ⟨rfl, rfl⟩ hall
  -- the waiting fragments are the wave's, as far as ids, priorities and lanes go
  have hface {β : Type} (get : Frag → β) (hget : ∀ x pc w, get { x with pc := pc, wait := w } = get x) :
      i.atSconv.frags.map get = i.wv.frags.map get := by
    rw [Iss.atSconv_frags, List.map_map]
    refine List.map_congr_left fun x _ => ?_
    rw [Function.comp_apply]
    split
    · exact hget ..
    · rfl
  have hids := hface (fun x : Frag => (x.id, x.prio)) fun _ _ _ => rfl
  have hlives := hface Frag.live fun _ _ _ => rfl
  match hfs : i.atSconv.frags with
  | [] =>
    have hmem := List.mem_map_of_mem (f := Frag.live) h.frag.1
    rw [← hlives, hfs] at hmem
    cases hmem
  | f :: fs =>
    have hpc : ∀ x ∈ i.atSconv.frags, x.pc = f.pc := fun x hx => by
      rw [(hwait x hx).2, (hwait f (hfs ▸ List.mem_cons_self)).2]
    obtain ⟨hlow, hlowest⟩ := lowestId_spec f fs
    obtain ⟨⟨p, hp, hprio⟩, hhighest⟩ := highestPrio_spec f fs
    rw [hfs] at hids hlives
    have hback {x : Frag} (hx : x ∈ f :: fs) : ∃ y ∈ i.wv.frags, (y.id, y.prio) = (x.id, x.prio) :=
      List.mem_map.mp (hids ▸ List.mem_map_of_mem hx)
    have hforth {y : Frag} (hy : y ∈ i.wv.frags) : ∃ x ∈ f :: fs, (x.id, x.prio) = (y.id, y.prio) :=
      List.mem_map.mp (hids.symm ▸ List.mem_map_of_mem hy)
    refine ⟨_, _, joinedFrag f fs, h.exec.trans (congrArg Outcome.next (State.sconvTest_join h.wave hfs (fun x hx => (hwait x hx).1) hpc)),
      State.wave?_updWave h.wave fun _ => ⟨rfl, rfl⟩, rfl, ?_, ?_, rfl, fun y hy => ?_, ?_, ?_, rfl, rfl⟩
    · calc fs.foldl (fun m f => m ||| f.live) f.live
          = ((f :: fs).map Frag.live).foldl (· ||| ·) 0 := by
            rw [List.map_cons, List.foldl_cons, List.foldl_map]
            exact congrArg (List.foldl (fun m f : _ => m ||| f.live) · fs) BitVec.zero_or.symm
        _ = i.wv.live := by rw [hlives, List.foldl_map]; rfl
    · show f.pc + 4 = i.c.pc + 4
      rw [(hwait f (hfs ▸ List.mem_cons_self)).2]
    · obtain ⟨x, hx, he⟩ := hforth hy
      obtain ⟨hid, hpr⟩ := Prod.mk.inj he
      exact ⟨hid ▸ hlowest x hx, hpr ▸ hhighest x hx⟩
    · obtain ⟨y, hy, he⟩ := hback hlow
      exact ⟨y, hy, (Prod.mk.inj he).1⟩
    · obtain ⟨y, hy, he⟩ := hback hp
      exact ⟨y, hy, (Prod.mk.inj he).2.trans hprio⟩

/-- R66: the fragments of a wave at two or more SCONV words trap, each at its own. -/
theorem AtSconv.traps {s : State} {i : Iss} (h : AtSconv s i) (hall : ∀ f ∈ i.wv.frags, f.id ≠ i.fr.id → f.wait = some .sconv)
    (hapart : ∃ f ∈ i.wv.frags, f.id ≠ i.fr.id ∧ f.pc ≠ i.c.pc) (htvec : i.wv.regs.tvec ≠ 0) (hframes : ∀ f ∈ i.wv.frags, f.frame = none) :
    ∃ t v, Machine.exec .sconv s = .next t ∧ t.wave? i.c.g i.c.w = some v ∧
      (∀ x ∈ i.wv.frags, ∃ y ∈ v.frags, ∃ fm ∈ v.frames, y.id = x.id ∧ y.live = x.live ∧ y.pc = trapEntry i.wv.regs.tvec ∧ y.prio = 15 ∧
        y.frame = some fm.slot ∧ fm.cause = 0x05 ∧ fm.faddr = 0 ∧ fm.finfo = x.live.setWidth 64 ∧
        fm.fpc = if x.id = i.fr.id then i.c.pc else x.pc) := by
  obtain ⟨g, hg, hgne, hgpc⟩ := hapart
  let w₀ : Wave := { i.atSconv with frags := i.atSconv.frags.map fun f => { f with wait := none } }
  have hself : { i.fr with pc := i.c.unitPc, wait := some .sconv } ∈ i.atSconv.frags :=
    List.mem_map.mpr ⟨i.fr, h.frag.1, if_pos (beq_iff_eq.mpr h.frag.2)⟩
  have hexec := h.exec.trans (congrArg Outcome.next (State.sconvTest_trap h.wave (h.forall (P := fun x => x.wait = some .sconv) rfl hall)
    (Iss.mem_atSconv hg (h.frag.2 ▸ hgne)) hself (h.plain ▸ hgpc)))
  have hwave : ((s.block i .sconv).updCur i fun w => { w with frags := w.frags.map fun f => { f with wait := none } }).wave?
      i.c.g i.c.w = some w₀ := State.wave?_updWave h.wave fun _ => ⟨rfl, rfl⟩
  have hnodup : (i.atSconv.frags.map Frag.id).Nodup := by
    have hmap := FragsApart.of_map (g := fun f => if f.id == i.c.f then { f with pc := i.c.unitPc, wait := some .sconv } else f) h.apart
      fun x _ => by split <;> exact ⟨rfl, rfl⟩
    exact hmap.1
  have hin := Wave.enterAll_inHandler hnodup 0x05 (w := w₀) fun x hx => ⟨_, List.mem_map_of_mem hx, rfl, rfl⟩
  refine ⟨_, _, hexec, State.foldl_trapFrag htvec 0x05 _ (h.forall (hframes i.fr h.frag.1) fun f hf _ => hframes f hf) hwave,
    fun x hx => ?_⟩
  have hregs : (w₀.enterAll i.atSconv.frags 0x05).regs = i.wv.regs := (w₀.enterAll_keeps i.atSconv.frags 0x05).2.2
  by_cases hid : x.id = i.fr.id
  · obtain rfl := FragsApart.eq_of_id h.apart hx h.frag.1 hid
    rw [if_pos rfl, ← hregs, ← h.plain]
    exact hin _ hself
  · rw [if_neg hid, ← hregs]
    exact hin x (Iss.mem_atSconv hx (h.frag.2 ▸ hid))

/-! ## Exits -/

theorem Wave.setS_sregs (v : Wave) (n : Nat) (x : DWord) (tag : BitVec 4) :
    v.setS n x tag = { v with sregs := (v.setS n x tag).sregs } := by
  unfold Wave.setS
  split <;> rfl

/-- A wave once one of its fragments has exited (R97). -/
def Wave.without (v : Wave) (n : Nat) : Wave :=
  { v with
    units := v.units + 1
    frags := v.frags.filter fun f => f.id != n
    frames := v.frames.filter fun y => (v.frags.filter fun f => f.id != n).any fun f => f.frame == some y.slot }

/-- The state once the issuing fragment has exited. -/
def State.exited (s : State) (i : Iss) : State := (s.updCur i fun w => w.without i.c.f).endUnit

theorem State.exited_wave {s : State} {i : Iss} (h : s.wave? i.c.g i.c.w = some i.wv) :
    (s.exited i).wave? i.c.g i.c.w = some (i.wv.without i.c.f) := State.wave?_updWave h fun _ => ⟨rfl, rfl⟩

theorem Wave.holders_eq_zero {v : Wave} {m : LaneMask} (h : ∀ x ∈ v.held, m.getLsbD x.lane = false) : v.holders m = 0 := by
  refine BitVec.eq_of_getLsbD_eq fun l _ => ?_
  rw [Wave.holders, getLsbD_laneFilter]
  cases hm : m.getLsbD l with
  | false => simp
  | true =>
    have hnone : (v.held.any fun x => x.lane == l) = false := by
      simpa using fun (x : Held) hx (he : x.lane = l) => by rw [← he, h x hx] at hm; cases hm
    simp [hnone]

/-- VEXIT and SEXIT where no lane holds a key. -/
theorem exec_exit_free {s : State} {i : Iss} {w : Instr} (hw : w = .vexit ∨ w = .sexit) (h : WordUnit s i {} false [] [])
    (hfree : ∀ x ∈ i.wv.held, i.fr.live.getLsbD x.lane = false) :
    exec w s = .next (if (i.wv.frags.filter fun f => f.id != i.c.f).isEmpty then
        let u := ((s.exited i).updLaunch i.grp.launch fun l => { l with wavesExited := l.wavesExited + 1 }).gridbarTest i.grp.launch
        if (u.waves.filter fun v => v.g == i.c.g).all fun v => v.frags.isEmpty then u.push .groupEnd { a := i.c.g } else u
      else (s.exited i).sconvTest i) := by
  have hword : exec w s = exitLanes s := by rcases hw with rfl | rfl <;> rfl
  refine (hword.trans (State.issue_go h rfl)).trans ?_
  dsimp only
  rw [Wave.holders_eq_zero hfree, lanesOf_zero]
  exact (apply_ite Outcome.next _ _ _).symm

/-- VEXIT and SEXIT where lane l is the lowest that holds a key (R320). -/
theorem exec_exit_held {s : State} {i : Iss} {w : Instr} (hw : w = .vexit ∨ w = .sexit) (h : WordUnit s i {} false [] []) {l : Nat}
    (hl : l < 32) (hlive : i.fr.live.getLsbD l = true) (hheld : ∃ x ∈ i.wv.held, x.lane = l)
    (hlow : ∀ k < l, i.fr.live.getLsbD k = true → ∀ x ∈ i.wv.held, x.lane ≠ k) {x : Held}
    (hx : (i.wv.held.reverse.find? fun x => x.lane == l) = some x) :
    exec w s = .next (s.trap i 0x05 x.key (BitVec.ofNat 64 (1 * 2 ^ 32 + (i.wv.holders i.fr.live).toNat))) := by
  have hword : exec w s = exitLanes s := by rcases hw with rfl | rfl <;> rfl
  have hbit (k : Nat) : (i.wv.holders i.fr.live).getLsbD k = (i.fr.live.getLsbD k && i.wv.held.any fun x => x.lane == k) :=
    getLsbD_laneFilter ..
  obtain ⟨ls, hls⟩ := lanesOf_eq_cons (m := i.wv.holders i.fr.live) hl (by simpa [hbit, hlive] using hheld) fun k hk => by
    simpa [hbit] using hlow k hk
  refine (hword.trans (State.issue_go h rfl)).trans ?_
  dsimp only
  rw [hls]
  dsimp only
  rw [hx]

/-- Waves of a state none of which waits at a grid barrier. -/
def State.NoGridbar (s : State) : Prop := ∀ v ∈ s.waves, ∀ f ∈ v.frags, ∀ n, f.wait ≠ some (.gridbar n)

/-- The wave `v` is `u` with other S registers, counts and places of fragments: no fragment is new. -/
structure Wave.SameLanes (u v : Wave) : Prop where
  g : v.g = u.g
  w : v.w = u.w
  frags : u.frags = [] → v.frags = []
  vregs : v.vregs = u.vregs

theorem Wave.SameLanes.refl (v : Wave) : v.SameLanes v := ⟨rfl, rfl, id, rfl⟩

theorem Wave.SameLanes.trans {u v w : Wave} (h₁ : u.SameLanes v) (h₂ : v.SameLanes w) : u.SameLanes w :=
  ⟨h₂.g.trans h₁.g, h₂.w.trans h₁.w, h₂.frags ∘ h₁.frags, h₂.vregs.trans h₁.vregs⟩

theorem Wave.SameLanes.setS {u v : Wave} (h : u.SameLanes v) (n : Nat) (x : DWord) (tag : BitVec 4) : u.SameLanes (v.setS n x tag) := by
  rw [Wave.setS_sregs]
  exact ⟨h.g, h.w, h.frags, h.vregs⟩

theorem Wave.updFrag_sameLanes (v : Wave) (n : Nat) (f : Frag → Frag) : v.SameLanes (v.updFrag n f) :=
  ⟨rfl, rfl, fun h => by rw [Wave.updFrag, h, List.map_nil], rfl⟩

/-- A wave that has exited is as it was but for S registers and counts. -/
def State.HasExited (s : State) (g w : Nat) (vregs : List VReg) : Prop :=
  ∃ u, s.wave? g w = some u ∧ u.frags = [] ∧ u.vregs = vregs

theorem State.HasExited.updWave {s : State} {g w : Nat} {vregs : List VReg} (h : s.HasExited g w vregs) (m n : Nat) {F : Wave → Wave}
    (hF : ∀ v : Wave, v.SameLanes (F v)) : (s.updWave m n F).HasExited g w vregs := by
  obtain ⟨u, hu, hfrags, hvregs⟩ := h
  have hlook := s.wave?_updWave_map m n g w fun v => ⟨(hF v).g, (hF v).w⟩
  rw [hu, Option.map_some] at hlook
  refine ⟨_, hlook, ?_⟩
  split
  · exact ⟨(hF u).frags hfrags, (hF u).vregs.trans hvregs⟩
  · exact ⟨hfrags, hvregs⟩

theorem State.HasExited.of_waves {s t : State} {g w : Nat} {vregs : List VReg} (h : s.HasExited g w vregs) (hw : t.waves = s.waves) :
    t.HasExited g w vregs := by
  obtain ⟨u, hu, hrest⟩ := h
  exact ⟨u, (congrArg (List.find? _) hw).trans hu, hrest⟩

/-- The end of the waits at a grid barrier. -/
theorem State.gridbarTest_keeps {s : State} (launch : Nat) {g w : Nat} {vregs : List VReg} (h : s.HasExited g w vregs) :
    (s.gridbarTest launch).cur = s.cur ∧ (s.NoGridbar → (s.gridbarTest launch).mem = s.mem) ∧
    (s.gridbarTest launch).HasExited g w vregs := by
  unfold State.gridbarTest
  split
  · exact ⟨rfl, fun _ => rfl, h⟩
  · split
    · exact ⟨rfl, fun _ => rfl, h⟩
    · dsimp only
      generalize hmine : List.filter _ _ = mine
      have hnone (hno : s.NoGridbar) : mine = [] := by
        rw [← hmine, List.filter_eq_nil_iff]
        intro x hx hwait
        obtain ⟨f, hf, hfw⟩ := List.any_eq_true.mp (Bool.and_eq_true_iff.mp hwait).2
        split at hfw
        · rename_i n hn
          exact hno x hx f hf n hn
        · cases hfw
      clear hmine
      refine and_left_comm.mp ⟨fun hno => by rw [hnone hno]; rfl, ?_⟩
      refine List.foldlRecOn (motive := fun t : State => t.cur = s.cur ∧ t.HasExited g w vregs) mine _ ⟨rfl, h⟩
        fun t ⟨hcur, hexited⟩ v _ => ?_
      refine ⟨((State.resave_sameWork _ v.g v.w).field State.cur fun _ _ _ _ _ _ _ _ _ _ => rfl).trans hcur,
        State.HasExited.of_waves (hexited.updWave v.g v.w (F := fun w => v.frags.foldl _ w) fun u => ?_)
          ((State.resave_sameWork _ v.g v.w).field State.waves fun _ _ _ _ _ _ _ _ _ _ => rfl)⟩
      refine List.foldlRecOn (motive := fun x : Wave => u.SameLanes x) v.frags _ (.refl u) fun x hx f _ => ?_
      split
      · refine Wave.SameLanes.setS ?_ _ _ _
        obtain ⟨hg, hw, hfrags, hvregs⟩ := hx.trans (x.updFrag_sameLanes f.id fun f => { f with pc := f.pc + 4, wait := none })
        exact ⟨hg, hw, hfrags, hvregs⟩
      · exact hx

/-- The wave has other fragments, and one of them does not wait at an SCONV word. -/
theorem exec_exit_more {s : State} {i : Iss} {w : Instr} (hw : w = .vexit ∨ w = .sexit) (h : WordUnit s i {} false [] [])
    (hfree : ∀ x ∈ i.wv.held, i.fr.live.getLsbD x.lane = false)
    (hmore : ∃ f ∈ i.wv.frags, f.id ≠ i.c.f ∧ f.wait ≠ some .sconv) : exec w s = .next (s.exited i) := by
  obtain ⟨f, hf, hne, hwait⟩ := hmore
  have hleft : f ∈ i.wv.frags.filter fun f => f.id != i.c.f := List.mem_filter.mpr ⟨hf, bne_iff_ne.mpr hne⟩
  have hsome : (i.wv.frags.filter fun f => f.id != i.c.f).isEmpty = false := by
    rw [List.isEmpty_eq_false_iff]
    exact List.ne_nil_of_mem hleft
  rw [exec_exit_free hw h hfree, hsome, if_neg Bool.false_ne_true,
    State.sconvTest_stay (State.exited_wave (State.iss?_eq h.issuing).2.2.1) ⟨f, hleft, hwait⟩]

/-- The last fragment of the wave exits. -/
theorem exec_exit_last {s : State} {i : Iss} {w : Instr} (hw : w = .vexit ∨ w = .sexit) (h : WordUnit s i {} false [] [])
    (hfree : ∀ x ∈ i.wv.held, i.fr.live.getLsbD x.lane = false) (hlast : ∀ f ∈ i.wv.frags, f.id = i.c.f) :
    ∃ t, exec w s = .next t ∧ t.cur = none ∧ (s.NoGridbar → t.mem = s.mem) ∧
      ∃ v, t.wave? i.c.g i.c.w = some v ∧ v.frags = [] ∧ v.vregs = i.wv.vregs := by
  have hnil : (i.wv.frags.filter fun f => f.id != i.c.f) = [] := List.filter_eq_nil_iff.mpr fun f hf => by simp [hlast f hf]
  have hexited : ((s.exited i).updLaunch i.grp.launch fun l => { l with wavesExited := l.wavesExited + 1 }).HasExited
      i.c.g i.c.w i.wv.vregs := ⟨_, State.exited_wave (State.iss?_eq h.issuing).2.2.1, hnil, rfl⟩
  obtain ⟨hcur, hmem, hgone⟩ := State.gridbarTest_keeps i.grp.launch hexited
  have hno (hs : s.NoGridbar) : (s.exited i).NoGridbar := by
    intro v hv f hf
    obtain ⟨x, hx, rfl⟩ := List.mem_map.mp hv
    split at hf
    · exact hs x hx f (List.mem_filter.mp hf).1
    · exact hs x hx f hf
  refine ⟨_, exec_exit_free hw h hfree, ?_⟩
  rw [hnil, List.isEmpty_nil, if_pos rfl]
  dsimp only
  split
  · exact ⟨hcur, fun hs => hmem (hno hs), hgone⟩
  · exact ⟨hcur, fun hs => hmem (hno hs), hgone⟩

end Sys2Proof.Machine
end

section
open Sys2Proof Sys2Proof.Machine Host

/-- Settles O17: SCONV by its three outcomes (`AtSconv`), the exits by the lanes that hold a key and by what is left of the wave. -/
theorem fragmentWords : Obligations.FragmentWords := by
  unfold Obligations.FragmentWords
  refine ⟨⟨fun s i h => ⟨State.issue_go h rfl, State.issue_go h rfl⟩, fun s i d => exec_fragmentView⟩,
    fun s i h hpc hapart => ?_, fun s i w hw h => ⟨fun hfree => ?_, fun l hl hlive hheld hlow x => exec_exit_held hw h hl hlive hheld hlow⟩⟩
  · have hat : AtSconv s i := ⟨h, hpc, hapart⟩
    exact ⟨hat.waits, hat.joins, hat.traps⟩
  · by_cases hlast : ∀ f ∈ i.wv.frags, f.id = i.c.f
    · obtain ⟨t, ht, hcur, hmem, hgone⟩ := exec_exit_last hw h hfree hlast
      exact ⟨t, ht, fun ⟨f, hf, hne, _⟩ => absurd (hlast f hf) hne, fun _ => ⟨hcur, hmem, hgone⟩⟩
    · by_cases hmore : ∃ f ∈ i.wv.frags, f.id ≠ i.c.f ∧ f.wait ≠ some .sconv
      · exact ⟨_, exec_exit_more hw h hfree hmore, fun _ => rfl, fun h => absurd h hlast⟩
      · exact ⟨_, exec_exit_free hw h hfree, fun h => absurd h hmore, fun h => absurd h hlast⟩

end

section
/-! SUPPORT. Barrier words: what a word does once its barrier is reached. -/

namespace Sys2Proof.Machine

open Host

theorem withBar_go {s : State} {i : Iss} {sync rel peer writes : Bool} {va : DWord} {u : State} {bar : Bar} {w : BarWords}
    (h : BarUnit s i sync rel peer va u bar w) (hfree : writes = true → u.barImmutable i.grp.ctx bar = false)
    (k : State → Bar → Res) : withBar s i sync rel peer va k writes = k u bar := by
  have hw : (writes && u.barImmutable i.grp.ctx bar) = false := by
    cases writes with
    | false => rfl
    | true => simpa using hfree rfl
  simp only [withBar, h.free, h.reached, h.words, hw, Bool.false_eq_true, if_false]

/-- R256: a word that would change the bytes of an IMMUTABLE object. -/
theorem withBar_immutable {s : State} {i : Iss} {sync rel peer : Bool} {va : DWord} {u : State} {bar : Bar} {w : BarWords}
    (h : BarUnit s i sync rel peer va u bar w) (hheld : ¬u.barImmutable i.grp.ctx bar = false) (k : State → Bar → Res) :
    withBar s i sync rel peer va k = .next (u.violate i va 7 0 0 .atomic 0) := by
  have hi : u.barImmutable i.grp.ctx bar = true := by simpa using hheld
  simp only [withBar, h.free, h.reached, h.words, hi, Bool.and_self, if_true]

/-- What a word observes of a barrier of this module are the words it holds. -/
theorem State.barObserve_local {u : State} {i : Iss} {bar : Bar} {w : BarWords} (hlocal : ∀ va, bar ≠ .remote va)
    (hw : u.barRead bar = some w) : u.barObserve i bar = (u, w) := by
  have hnow : u.barNow bar = w := by rw [State.barNow, hw, Option.getD_some]
  cases bar with
  | remote va => exact absurd rfl (hlocal va)
  | pad g a => exact congrArg (Prod.mk u) hnow
  | glob pa => exact congrArg (Prod.mk u) hnow

section
variable {s : State} {i : Iss} {a b c : BitVec 7} {u : State} {bar : Bar} {w : BarWords}

section
variable (h : WordUnit s i {} true [usrc 0 a .bit, usrc 1 b .bit] []) (ha : sOk i.wv a.toNat = true) (hb : sOk i.wv b.toNat = true)
include h ha hb

theorem exec_binit_eq (hcount : ((i.wv.sreg b.toNat).val.setWidth 16 : BitVec 16) ≠ 0) :
    exec (.binit a b) s = withBar s i true true false (i.wv.sreg a.toNat).val fun s bar =>
      .next ((((s.barUpdate bar (fun w => w.init (((i.wv.sreg b.toNat).val >>> 32).setWidth 32) ((i.wv.sreg b.toNat).val.setWidth 16))
        (barPacket 2 (i.wv.sreg b.toNat).val.toNat) true).released i).barAcked i bar).retire i) :=
  (State.issue_go h (Bool.and_eq_true_iff.mpr ⟨ha, hb⟩)).trans (if_neg hcount)

theorem exec_bexpect_eq : exec (.bexpect a b) s = withBar s i false false false (i.wv.sreg a.toNat).val fun s bar =>
    .next ((s.barCount bar ((i.wv.sreg b.toNat).val.setWidth 32 : Word).toInt).retire i) := by
  refine (State.issue_go h (Bool.and_eq_true_iff.mpr ⟨ha, hb⟩)).trans ?_
  rw [toIntBits_eq_toInt (by decide), BitVec.ofNat_toNat]

/-- BWAIT on a phase that has changed goes on, and the wave's watch for it ends (R292, R293). -/
theorem exec_bwait_changed (hu : BarUnit s i true false false (i.wv.sreg a.toNat).val u bar w)
    (hfree : u.barImmutable i.grp.ctx bar = false) (hphase : (u.barObserve i bar).2.phase ≠ (i.wv.sreg b.toNat).val.setWidth 32) :
    let p : BitVec 32 := (i.wv.sreg b.toNat).val.setWidth 32
    let o := u.barObserve i bar
    exec (.bwait a b) s = .next ((((if i.wv.watching bar p then o.1.barWatch bar false else o.1).updCur i fun v =>
      { v with watches := v.watches.filter fun k => !(bar.key == (none, k.addr) && k.phase == p) }).invalidate i.grp.core).retire i) :=
  ((State.issue_go h (Bool.and_eq_true_iff.mpr ⟨ha, hb⟩)).trans (withBar_go hu (fun _ => hfree) _)).trans (if_pos hphase)

/-- BWAIT on a phase that still runs waits (R292). -/
theorem exec_bwait_same (hu : BarUnit s i true false false (i.wv.sreg a.toNat).val u bar w)
    (hfree : u.barImmutable i.grp.ctx bar = false) (hphase : (u.barObserve i bar).2.phase = (i.wv.sreg b.toNat).val.setWidth 32) :
    let p : BitVec 32 := (i.wv.sreg b.toNat).val.setWidth 32
    let o := u.barObserve i bar
    exec (.bwait a b) s = .next (((if i.wv.watching bar p then o.1 else o.1.barWatch bar true).updCurFrag i fun f =>
      { f with viaWatch := i.wv.watching bar p }).block i (.barrier bar.key.1 bar.key.2 p)) :=
  ((State.issue_go h (Bool.and_eq_true_iff.mpr ⟨ha, hb⟩)).trans (withBar_go hu (fun _ => hfree) _)).trans (if_neg (not_not.mpr hphase))

/-- BWATCH: at most four watches stand, the newest among them (R293). -/
theorem exec_bwatch (hu : BarUnit s i false false false (i.wv.sreg a.toNat).val u bar w) (hfree : u.barImmutable i.grp.ctx bar = false) :
    let p : BitVec 32 := (i.wv.sreg b.toNat).val.setWidth 32
    let all : List Watch := i.wv.watches ++ [⟨bar.key.2, p⟩]
    exec (.bwatch a b) s = .next (if bar.key.1.isSome || i.wv.watching bar p then u.retire i
      else (((all.take (all.length - 4)).foldl (fun s x => s.barWatch (Bar.ofAddr x.addr) false) (u.barWatch bar true)).updCur i fun w =>
        { w with watches := all.drop (all.length - 4) }).retire i) :=
  ((State.issue_go h (Bool.and_eq_true_iff.mpr ⟨ha, hb⟩)).trans (withBar_go hu (fun _ => hfree) _)).trans (apply_ite Outcome.next _ _ _).symm

end

/-- BARRIVE and BARRIVEC (R290). -/
theorem arriveWord_go {peer : Bool} (h : WordUnit s i {} true [usrc 1 b .bit, usrc 2 c .bit] [(true, a.toNat)])
    (ha : sOk i.wv a.toNat = true) (hb : sOk i.wv b.toNat = true) (hc : sOk i.wv c.toNat = true)
    (hu : BarUnit s i true true peer (i.wv.sreg b.toNat).val u bar w) (hfree : u.barImmutable i.grp.ctx bar = false)
    (hcount : (i.wv.sreg c.toNat).val.toNat % 2 ^ 16 ≠ 0) :
    arriveWord peer a b c s = .next ((((((u.barObserve i bar).1.barArrive bar ((i.wv.sreg c.toNat).val.toNat % 2 ^ 16) false).released i).barAcked
      i bar).updCur i fun v => v.setS a.toNat ((u.barObserve i bar).2.phase.setWidth 64) tRAW).retire i) :=
  ((State.issue_go h (Bool.and_eq_true_iff.mpr ⟨Bool.and_eq_true_iff.mpr ⟨ha, hb⟩, hc⟩)).trans (if_neg hcount)).trans (withBar_go hu (fun _ => hfree) _)

end

end Sys2Proof.Machine
end

section
open Sys2Proof Sys2Proof.Machine Host

/-- Settles O30: each word by its equation once its barrier is reached (`withBar_go`), or by the violation (`withBar_immutable`). -/
theorem barrierWords : Obligations.BarrierWords := by
  unfold Obligations.BarrierWords
  intro s i a b c u bar w x y z p had o free ha hb hc
  refine ⟨State.barObserve_local, fun h => ⟨fun hu hfree hn => ?_, fun hu hfree => ?_,
    fun hu hfree => ⟨exec_bwait_changed h ha hb hu hfree, exec_bwait_same h ha hb hu hfree⟩,
    fun hu hfree => ⟨fun hk => ?_, fun hk hhad hlen => ?_, fun old rest hk hhad hold hlen => ?_⟩,
    fun hheld => ⟨fun hu => ⟨?_, ?_⟩, fun hu => ?_, fun hu hn => ?_⟩⟩, fun h => ⟨fun hn hfree => ⟨fun hu => ?_, fun hu => ?_⟩, fun hu => ?_⟩⟩
  · exact (exec_binit_eq h ha hb hn).trans (withBar_go hu (fun _ => hfree) _)
  · exact (exec_bexpect_eq h ha hb).trans (withBar_go hu (fun _ => hfree) _)
  · have hgo : (bar.key.1.isSome || i.wv.watching bar p) = true := by
      rw [Bool.or_eq_true, Option.isSome_iff_ne_none]
      exact hk
    rw [exec_bwatch h ha hb hu hfree, hgo, if_pos rfl]
  · have hgo : (bar.key.1.isSome || i.wv.watching bar p) = false := by rw [hk]; exact hhad
    have hnone : (i.wv.watches ++ [(⟨bar.key.2, p⟩ : Watch)]).length - 4 = 0 := by
      rw [List.length_append, List.length_singleton]
      omega
    rw [exec_bwatch h ha hb hu hfree, hgo, if_neg Bool.false_ne_true, hnone, List.take_zero, List.drop_zero]
    rfl
  · have hgo : (bar.key.1.isSome || i.wv.watching bar p) = false := by rw [hk]; exact hhad
    have hone : (i.wv.watches ++ [(⟨bar.key.2, p⟩ : Watch)]).length - 4 = 1 := by
      rw [hold, List.length_append, List.length_singleton, List.length_cons]
      omega
    rw [exec_bwatch h ha hb hu hfree, hgo, if_neg Bool.false_ne_true, hone, hold]
    rfl
  · exact (exec_bexpect_eq h ha hb).trans (withBar_immutable hu hheld _)
  · exact (State.issue_go h (Bool.and_eq_true_iff.mpr ⟨ha, hb⟩)).trans (withBar_immutable hu hheld _)
  · exact (State.issue_go h (Bool.and_eq_true_iff.mpr ⟨ha, hb⟩)).trans (withBar_immutable hu hheld _)
  · exact (exec_binit_eq h ha hb hn).trans (withBar_immutable hu hheld _)
  · exact arriveWord_go h ha hb hc hu hfree hn
  · exact arriveWord_go h ha hb hc hu hfree hn
  · exact (State.issue_go h (Bool.and_eq_true_iff.mpr ⟨Bool.and_eq_true_iff.mpr ⟨ha, hb⟩, hc⟩)).trans (withBar_go hu (fun hf => absurd hf Bool.false_ne_true) _)

end

section
/-! SUPPORT. Completions of array commands and gangs, the blocks of a stream, and the feeder. -/

namespace Sys2Proof.Machine

open Host

/-! ## Bytes of a scratchpad -/

theorem memGet_append_of_lt {m n : List Cell} {x : Nat} (h : ∀ c ∈ m, c.1 < x) : memGet (m ++ n) x = memGet n x := by
  induction m with
  | nil => rfl
  | cons c m ih =>
    have hc := h c List.mem_cons_self
    rw [List.cons_append, memGet, if_neg (Nat.ne_of_lt hc), if_neg (Nat.lt_asymm hc)]
    exact ih fun d hd => h d (List.mem_cons_of_mem _ hd)

theorem memGet_cellsAt_append {a k : Nat} {bs : List Byte} (hk : k < bs.length) (n : List Cell) :
    memGet (cellsAt a bs ++ n) (a + k) = bs[k]? := by
  induction bs generalizing a k with
  | nil => exact absurd hk (Nat.not_lt_zero k)
  | cons b bs ih =>
    rw [cellsAt, List.cons_append, memGet]
    cases k with
    | zero => rw [Nat.add_zero, if_pos rfl, List.getElem?_cons_zero]
    | succ k =>
      rw [if_neg (by omega), if_neg (by omega), List.getElem?_cons_succ, ← ih (a := a + 1) (Nat.lt_of_succ_lt_succ hk),
        Nat.add_right_comm, Nat.add_assoc]

/-- Bytes just stored are read back, whatever list of cells they were stored in. -/
theorem memGet_memSets (m : List Cell) (a : Nat) {k : Nat} {bs : List Byte} (hk : k < bs.length) :
    memGet (memSets m a bs) (a + k) = bs[k]? := by
  rw [memSets, List.append_assoc, memGet_append_of_lt fun c hc => ?_]
  · exact memGet_cellsAt_append hk _
  · exact Nat.lt_add_right k (of_decide_eq_true (List.mem_filter.mp hc).2)

/-- The scratchpad of a group with bytes written into it. -/
def Group.padStored (gr : Group) (off : Nat) (bs : List Byte) : Group := { gr with pad := memSets gr.pad off bs }

theorem Group.padBytes_padStored (gr : Group) (off : Nat) (bs : List Byte) : (gr.padStored off bs).padBytes off bs.length = bs := by
  refine List.ext_getElem (by simp [Group.padBytes]) fun k _ hk => ?_
  have hget := memGet_memSets gr.pad off hk
  rw [List.getElem?_eq_getElem hk] at hget
  simp [Group.padBytes, Group.padByte, Group.padStored, hget]

theorem State.foldl_padWrite {α : Type} (dst : α → Nat) (off : Nat) (bs : List Byte) (zs : List α) (s : State) :
    zs.foldl (fun s z => s.padWrite (dst z) off bs) s =
      { s with groups := (zs.foldl (fun s z => s.padWrite (dst z) off bs) s).groups } :=
  List.foldlRecOn (motive := fun t : State => t = { s with groups := t.groups }) zs _ rfl fun t ht z _ => by
    rw [ht]
    rfl

/-- The same bytes are written into the scratchpads of several groups, some of them more than once. -/
theorem State.foldl_padWrite_padBytes {α : Type} (dst : α → Nat) (off : Nat) (bs : List Byte) (zs : List α) {s : State} {z : α}
    {g : Group} (hz : z ∈ zs) (hg : s.group? (dst z) = some g) :
    ∃ g', (zs.foldl (fun s z => s.padWrite (dst z) off bs) s).group? (dst z) = some g' ∧ g'.padBytes off bs.length = bs := by
  have hstep (s : State) (y : α) : (s.padWrite (dst y) off bs).group? (dst z) =
      (s.group? (dst z)).map fun g => if g.g == dst y then g.padStored off bs else g :=
    s.group?_updGroup_map (dst y) (dst z) fun _ => rfl
  have hkept (ys : List α) (s : State) (h : ∃ g', s.group? (dst z) = some g' ∧ g'.padBytes off bs.length = bs) :
      ∃ g', (ys.foldl (fun s z => s.padWrite (dst z) off bs) s).group? (dst z) = some g' ∧ g'.padBytes off bs.length = bs :=
    List.foldlRecOn (motive := fun t : State => ∃ g', t.group? (dst z) = some g' ∧ g'.padBytes off bs.length = bs) ys _ h
      fun t ⟨g', hg', hbytes⟩ y _ => ⟨_, by rw [hstep, hg', Option.map_some], by
        split
        · exact Group.padBytes_padStored ..
        · exact hbytes⟩
  induction zs generalizing s g with
  | nil => cases hz
  | cons y zs ih =>
    rw [List.foldl_cons]
    rcases List.mem_cons.mp hz with rfl | hz
    · refine hkept zs _ ⟨_, by rw [hstep, hg, Option.map_some], ?_⟩
      rw [if_pos (beq_iff_eq.mpr (State.group?_g hg))]
      exact Group.padBytes_padStored ..
    · exact ih hz (by rw [hstep, hg, Option.map_some])

/-! ## Array commands and gangs -/

theorem exec_arrayCommandComplete {s : State} {c : Cmd} (hc : s.cmd? s.ev.a = some c) (hengine : c.engine = 1)
    (hdone : c.finished = true) (hgoes : s.cmdGoes c = true) :
    exec .arrayCommandComplete s = .next (((((s.unlock c.id).dropCmd c.id).acted c.ctx).cmdBar c (fun w => w.arrive 1 c.error)
      (barPacket 0 (1 + (if c.error then 2 ^ 16 else 0)))).push .arrayCommandStart { a := c.unit }) := by
  have hgo : (decide (c.engine ≠ 1) || !c.finished || !s.cmdGoes c) = false := by
    rw [hengine, hdone, hgoes]
    rfl
  refine congrArg Outcome.next ?_
  rw [State.arrayDone, hc, State.cmd?_id hc]
  dsimp only
  rw [hgo, if_neg Bool.false_ne_true]

theorem State.barArrive_pad_gangs (s : State) (g off n : Nat) (error : Bool) : (s.barArrive (.pad g off) n error).gangs = s.gangs := by
  unfold State.barArrive State.barUpdate
  dsimp only
  split
  · unfold State.barWrite
    dsimp only
    split <;> rfl
  · rfl

theorem exec_gangCompletion {s : State} {x : Gang} (hx : (s.gangs.find? fun y => y.id == s.ev.a) = some x) (hleft : x.left = []) :
    ∃ t, exec .gangCompletion s = .next t ∧ (∀ y ∈ t.gangs, y.id ≠ s.ev.a) ∧
      (∀ off, x.boff = some off → t = x.members.foldl (fun t g => t.barArrive (.pad g off) 1 x.error)
        (({ s with gangs := s.gangs.filter fun y => y.id != s.ev.a } : State).unlock s.ev.a)) := by
  let u : State := ({ s with gangs := s.gangs.filter fun y => y.id != s.ev.a } : State).unlock s.ev.a
  have hgone : ∀ y ∈ u.gangs, y.id ≠ s.ev.a := fun y hy => bne_iff_ne.mp (List.mem_filter.mp hy).2
  have hdone : s.gangDone s.ev.a = match x.boff with
      | none => u
      | some off => x.members.foldl (fun s g => s.barArrive (.pad g off) 1 x.error) u := by
    rw [State.gangDone, hx]
    dsimp only
    rw [hleft]
    rfl
  refine ⟨_, rfl, ?_⟩
  rw [hdone]
  cases x.boff with
  | none => exact ⟨hgone, fun off h => nomatch h⟩
  | some off =>
    refine ⟨?_, fun o ho => by cases ho; rfl⟩
    rw [foldl_keeps State.gangs _ fun t g _ => t.barArrive_pad_gangs g off 1 x.error]
    exact hgone

/-! ## Streams -/

theorem any_cmd_eq_false {s : State} {c : Cmd} (h : ∀ f ∈ s.faults, f.cmd ≠ some c.id) :
    (s.faults.any fun f => f.cmd == some c.id) = false := by
  simpa using h

/-- The state once the next block of a stream, its bytes and what goes beside them, stands with every subscriber. -/
def State.blockTaken (s : State) (st : Stream) (c : Cmd) (bytes : List Byte) (side : Beside) (es : List Event) : State :=
  (((st.subs.foldl (fun s z => s.padWrite z.g (st.woff + st.read % st.win * st.slot) bytes) s).updStream st.id fun y =>
    { y with read := st.read + 1, beside := y.beside ++ [side] }).updCmd c.id fun x => { x with done := st.read + 1, started := true }).pushAll es

theorem State.blockTaken_stream {s : State} {st : Stream} (h : s.stream? st.id = some st) (c : Cmd) (bytes : List Byte) (side : Beside)
    (es : List Event) : (s.blockTaken st c bytes side es).stream? st.id =
      some { st with read := st.read + 1, beside := st.beside ++ [side] } := by
  have hpad := State.foldl_padWrite Subscriber.g (st.woff + st.read % st.win * st.slot) bytes st.subs s
  have hmap := find?_map_of_key (key := Stream.id) (g := fun y => if y.id == st.id then
      { y with read := st.read + 1, beside := y.beside ++ [side] } else y) (fun y => by split <;> rfl)
    (st.subs.foldl (fun s z => s.padWrite z.g (st.woff + st.read % st.win * st.slot) bytes) s).streams st.id
  refine hmap.trans ?_
  rw [hpad, show List.find? _ s.streams = some st from h, Option.map_some, if_pos (beq_self_eq_true _)]

theorem State.blockTaken_groups (s : State) (st : Stream) (c : Cmd) (bytes : List Byte) (side : Beside) (es : List Event) :
    (s.blockTaken st c bytes side es).groups =
      (st.subs.foldl (fun s z => s.padWrite z.g (st.woff + st.read % st.win * st.slot) bytes) s).groups := rfl

/-- A stream whose next block has a free slot at every subscriber, none of which discards it (R195). -/
structure BlockDue (s : State) (st : Stream) (c : Cmd) (gr : Group) (reg : Region) : Prop where
  stream : (s.streams.find? fun x => x.g == s.ev.a && x.q == s.ev.b) = some st
  command : s.cmd? st.id = some c
  group : s.group? s.ev.a = some gr
  goes : s.cmdGoes c = true
  noFault : ∀ f ∈ s.faults, f.cmd ≠ some c.id
  more : st.read < st.nblocks
  free : ∀ z ∈ st.subs, st.read < st.win ∨ st.read - st.win ∈ z.used
  kept : ∀ z ∈ st.subs, st.read ∉ z.drop
  region : s.regionOf gr st.rec_ = some reg

theorem BlockDue.exec {s s1 : State} {st : Stream} {c : Cmd} {gr : Group} {reg : Region} {xs : List (Nat × Nat)}
    (h : BlockDue s st c gr reg) (hblock : s.blockRead c.unit c.ctx reg st.rec_ (st.coords st.read) = .ok s1 xs) :
    ∃ side es, exec .streamBlockDelivered s =
      .next ((s1.blockTaken st c (st.pack (xs.map (·.1))) side es).push .streamBlockDelivered { a := s.ev.a, b := s.ev.b }) := by
  have hgo : (!s.cmdGoes c || !(st.subs.all fun z => decide (st.read < st.win) || z.used.contains (st.read - st.win)) ||
      decide (st.nblocks ≤ st.read) || s.faults.any fun f => f.cmd == some c.id) = false := by
    have hall : (st.subs.all fun z => decide (st.read < st.win) || z.used.contains (st.read - st.win)) = true := by
      simpa using h.free
    rw [h.goes, hall, any_cmd_eq_false h.noFault, decide_eq_false (Nat.not_le.mpr h.more)]
    rfl
  have hdropped (u : State) : st.subs.foldl (fun s z => if z.drop.contains st.read then s.useBlock st.id z.g st.read else s) u = u :=
    foldl_id_of_mem _ (fun z hz s => if_neg (by simpa using h.kept z hz)) u
  suffices hdeliver : ∃ side es, s.streamDeliver s.ev.a s.ev.b =
      (s1.blockTaken st c (st.pack (xs.map (·.1))) side es).push .streamBlockDelivered { a := s.ev.a, b := s.ev.b } by
    obtain ⟨side, es, he⟩ := hdeliver
    exact ⟨side, es, congrArg Outcome.next he⟩
  rw [State.streamDeliver, h.stream]
  dsimp only
  rw [h.command, h.group]
  dsimp only
  rw [hgo, if_neg Bool.false_ne_true, h.region]
  dsimp only
  rw [hblock]
  dsimp only [MemRes.whole, Cmd.access]
  rw [hdropped]
  exact ⟨_, _, rfl⟩

/-- STREAM_BLOCK_DELIVERED (R195). -/
theorem BlockDue.delivers {s s1 : State} {st : Stream} {c : Cmd} {gr : Group} {reg : Region} {xs : List (Nat × Nat)}
    (h : BlockDue s st c gr reg) (hblock : s.blockRead c.unit c.ctx reg st.rec_ (st.coords st.read) = .ok s1 xs)
    (hid : s.stream? st.id = some st) (hstreams : s1.streams = s.streams) (hgroups : s1.groups = s.groups) :
    ∃ t, Machine.exec .streamBlockDelivered s = .next t ∧
      (∃ st', t.stream? st.id = some st' ∧ st'.read = st.read + 1 ∧ st'.subs = st.subs) ∧
      (∀ z ∈ st.subs, ∀ g, s.group? z.g = some g → ∃ g', t.group? z.g = some g' ∧
        g'.padBytes (st.woff + st.read % st.win * st.slot) (st.pack (xs.map (·.1))).length = st.pack (xs.map (·.1))) := by
  obtain ⟨side, es, hexec⟩ := h.exec hblock
  refine ⟨_, hexec, ⟨_, State.blockTaken_stream ((congrArg (List.find? _) hstreams).trans hid) c _ side es, rfl, rfl⟩, fun z hz g hg => ?_⟩
  obtain ⟨g', hg', hbytes⟩ := State.foldl_padWrite_padBytes Subscriber.g (st.woff + st.read % st.win * st.slot) (st.pack (xs.map (·.1)))
    st.subs (s := s1) hz ((congrArg (List.find? _) hgroups).trans hg)
  exact ⟨g', (congrArg (List.find? _) (s1.blockTaken_groups st c _ side es)).trans hg', hbytes⟩

/-! ## The feeder -/

/-- A vector at the end of one of a group's feeder queues (R204). -/
def Group.enqueued (g : Group) (q : Nat) (v : BitVec 4 × List Word) : Group :=
  { g with queues :=
      if (g.queues.any fun x => x.q == q) then g.queues.map fun x => if x.q == q then { x with vecs := x.vecs ++ [v] } else x
      else g.queues ++ [⟨q, [v]⟩] }

theorem Group.queue_enqueued (g : Group) (q : Nat) (v : BitVec 4 × List Word) : (g.enqueued q v).queue q = g.queue q ++ [v] := by
  unfold Group.queue Group.enqueued
  cases hfind : g.queues.find? fun x => x.q == q with
  | none =>
    have hany : (g.queues.any fun x => x.q == q) = false := by
      rw [List.any_eq_false]
      exact List.find?_eq_none.mp hfind
    simp only [hany, Bool.false_eq_true, if_false, List.find?_append, hfind, Option.none_or, List.find?_cons, beq_self_eq_true,
      List.nil_append]
  | some x =>
    have hx : (x.q == q) = true := by simpa using List.find?_some hfind
    have hany : (g.queues.any fun x => x.q == q) = true := List.any_eq_true.mpr ⟨x, List.mem_of_find?_eq_some hfind, hx⟩
    have hkey (y : Queue) : (if y.q == q then { y with vecs := y.vecs ++ [v] } else y).q = y.q := by split <;> rfl
    dsimp only
    rw [if_pos hany, find?_map_of_key hkey, hfind, Option.map_some, if_pos hx]

/-- FEEDER_PUSH (R83, R204). -/
theorem exec_feederPush {s s1 : State} {gr : Group} {c : Cmd} {reg : Region} {xs : List Nat} (hgr : s.group? s.ev.a = some gr)
    (hc : (s.cmds.find? fun c => c.engine == 2 && c.g == s.ev.a) = some c) (hgoes : s.cmdGoes c = true)
    (hfault : ∀ f ∈ s.faults, f.cmd ≠ some c.id) (hroom : (gr.queue c.op).length < 16)
    (hreg : s.regionOf gr (BitVec.ofNat 512 (leNat (c.payload.drop 64))) = some reg)
    (helems : eachMem (fun s k => s.feedElem c.unit c.ctx reg (BitVec.ofNat 512 (leNat (c.payload.drop 64))) (c.payload.take 64) (c.done + k))
      (List.range (min 32 (c.len - c.done))) s = .ok s1 xs) (hgroups : s1.groups = s.groups) :
    ∃ t g, exec .feederPush s = .next t ∧ t.group? s.ev.a = some g ∧
      g.queue c.op = gr.queue c.op ++ [(deliverTag (Shape.fmt (BitVec.ofNat 512 (leNat (c.payload.drop 64)))),
        (List.range 32).map fun l => BitVec.ofNat 32 (xs.getD l 0))] := by
  have hgo : (!s.cmdGoes c || decide (16 ≤ (gr.queue c.op).length) || s.faults.any fun f => f.cmd == some c.id) = false := by
    rw [hgoes, any_cmd_eq_false hfault, decide_eq_false (Nat.not_le.mpr hroom)]
    rfl
  generalize hv : (deliverTag (Shape.fmt (BitVec.ofNat 512 (leNat (c.payload.drop 64)))),
    (List.range 32).map fun l => BitVec.ofNat 32 (xs.getD l 0)) = v
  have hpush : ∃ t, exec .feederPush s = .next t ∧ t.groups = (s1.updGroup s.ev.a fun g => g.enqueued c.op v).groups := by
    refine ⟨_, rfl, ?_⟩
    rw [State.feederPush, hgr, hc]
    dsimp only
    rw [hgo, if_neg Bool.false_ne_true, hreg]
    dsimp only
    rw [helems]
    dsimp only [Cmd.access]
    rw [hv]
    split <;> rfl
  obtain ⟨t, ht, htg⟩ := hpush
  have hg1 : s1.group? s.ev.a = some gr := (congrArg (List.find? _) hgroups).trans hgr
  exact ⟨t, _, ht, (congrArg (List.find? _) htg).trans (State.group?_updGroup hg1 fun _ => rfl), gr.queue_enqueued c.op v⟩

/-! ## Statuses that fill -/

/-- A wave that is not out has no image to be kept up to date. -/
theorem State.resave_resident {s : State} {g : Nat} {gr : Group} (hg : s.group? g = some gr) (hres : gr.resident = true) (w : Nat) :
    s.resave g w = s := by
  unfold State.resave
  rw [hg]
  split
  · rename_i v he _
    cases he
    rw [hres, Bool.true_or]
  · rfl

theorem State.fillStatus_resident {s : State} {f : Fill} {gr : Group} (hg : s.group? f.g = some gr) (hres : gr.resident = true) (x : Nat) :
    s.fillStatus f x = ({ s with fills := s.fills.filter fun y => y.id != f.id } : State).updWave f.g f.w fun w =>
      w.setS f.s (BitVec.ofNat 64 x) tI32 :=
  State.resave_resident (s := ({ s with fills := s.fills.filter fun y => y.id != f.id } : State).updWave f.g f.w fun w =>
    w.setS f.s (BitVec.ofNat 64 x) tI32) hg hres f.w

/-- The feeder's command of a record that is accepted (R204). -/
def Fill.feederCmd (f : Fill) (gr : Group) : Cmd :=
  { id := f.id, engine := 2, unit := gr.core, g := f.g, w := f.w, ctx := gr.ctx, launch := gr.launch, op := arQueue (f.bytes.take 64)
    pc := BitVec.ofNat 64 (leNat (f.bytes.drop 128)), a := 0, b := f.y, c := 0, d := 0, len := arTotal (f.bytes.take 64), byteMode := false
    bar := 0, done := 0, started := false, halted := !gr.resident, payload := f.bytes.take 128, detail := f.y }

/-- The record of a FEED cannot be read, or is malformed (R204). -/
def Fill.badRecord (f : Fill) : Bool :=
  f.bytes.isEmpty || arMalformed (f.bytes.take 64) (BitVec.ofNat 512 (leNat ((f.bytes.drop 64).take 64)))

/-- FEED_STATUS_FILL (R204). -/
theorem State.feedFill_eq {s : State} {f : Fill} {gr : Group} {id : Nat} (hf : (s.fills.find? fun f => f.id == id && f.kind == 2) = some f)
    (hgr : s.group? f.g = some gr) :
    s.feedFill id = if f.badRecord then (s.fillStatus f 2).unlock f.id
      else if 5 ≤ (s.cmds.filter fun c => c.engine == 2 && c.g == f.g).length then (s.fillStatus f 1).unlock f.id
      else (({ s with cmds := s.cmds ++ [f.feederCmd gr] } : State).fillStatus f 0).push .feederPush { a := f.g } := by
  rw [State.feedFill, hf]
  dsimp only
  rw [hgr]
  rfl

theorem Fill.badRecord_iff (f : Fill) :
    f.badRecord = true ↔ f.bytes = [] ∨ arMalformed (f.bytes.take 64) (BitVec.ofNat 512 (leNat ((f.bytes.drop 64).take 64))) = true := by
  rw [Fill.badRecord, Bool.or_eq_true, List.isEmpty_iff]

theorem Fill.badRecord_eq_false {f : Fill} (hb : f.bytes ≠ [])
    (hgood : arMalformed (f.bytes.take 64) (BitVec.ofNat 512 (leNat ((f.bytes.drop 64).take 64))) = false) : ¬f.badRecord = true := by
  rw [f.badRecord_iff, hgood]
  simp [hb]

/-- A record that is accepted joins its group's feeder. -/
theorem State.feedFill_taken {s : State} {f : Fill} {gr : Group} {id : Nat}
    (hf : (s.fills.find? fun f => f.id == id && f.kind == 2) = some f) (hgr : s.group? f.g = some gr) (hgood : ¬f.badRecord = true)
    (hres : gr.resident = true) (hroom : (s.cmds.filter fun c => c.engine == 2 && c.g == f.g).length < 5) :
    (s.feedFill id).cmds = s.cmds ++ [f.feederCmd gr] ∧ (s.feedFill id).waves = (s.fillStatus f 0).waves ∧
      (s.feedFill id).agenda = s.agenda ++ [⟨.feederPush, { a := f.g }⟩] := by
  have hfill := State.fillStatus_resident (s := { s with cmds := s.cmds ++ [f.feederCmd gr] }) (f := f) hgr hres 0
  rw [State.feedFill_eq hf hgr, if_neg hgood, if_neg (Nat.not_le.mpr hroom), hfill, State.fillStatus_resident hgr hres]
  exact ⟨rfl, rfl, rfl⟩

end Sys2Proof.Machine
end

section
open Sys2Proof Sys2Proof.Machine Host

/-- Settles O41, one lemma for each event; a block's bytes stand in every window because the same bytes are written to each
(`State.foldl_padWrite_padBytes`). -/
theorem arrayEvents : Obligations.ArrayEvents := by
  unfold Obligations.ArrayEvents
  refine ⟨fun s c => exec_arrayCommandComplete, fun s x => exec_gangCompletion, ?_, fun s s1 gr c reg xs hgr hc hgoes hfault hroom =>
    exec_feederPush hgr hc hgoes hfault hroom, fun s f gr hf hgr => ⟨fun hbad => ?_, fun hb hgood hfull => ?_,
      fun hb hgood hres hroom => ?_⟩⟩
  · intro s s1 st c gr reg xs hst hid hc hgr hgoes hfault hread hfree hdrop hreg hblock hstreams hgroups
    exact BlockDue.delivers ⟨hst, hc, hgr, hgoes, hfault, hread, hfree, hdrop, hreg⟩ hblock hid hstreams hgroups
  · exact congrArg Outcome.next ((State.feedFill_eq hf hgr).trans (if_pos (f.badRecord_iff.mpr hbad)))
  · exact congrArg Outcome.next ((State.feedFill_eq hf hgr).trans
      ((if_neg (Fill.badRecord_eq_false hb hgood)).trans (if_pos hfull)))
  · obtain ⟨hcmds, hwaves, hagenda⟩ := State.feedFill_taken hf hgr (Fill.badRecord_eq_false hb hgood) hres hroom
    exact ⟨_, f.feederCmd gr, rfl, hcmds, rfl, rfl, rfl, rfl, rfl, rfl, hwaves, hagenda⟩

end

section
/-! SUPPORT. Words whose outcome fills later, and the ports of a wave. -/

namespace Sys2Proof.Machine

open Host

/-! ## Updates of one wave -/

theorem State.updWave_updWave (s : State) (g w : Nat) (f h : Wave → Wave) (hf : ∀ v, (f v).g = v.g ∧ (f v).w = v.w) :
    (s.updWave g w f).updWave g w h = s.updWave g w fun v => h (f v) := by
  unfold State.updWave
  rw [List.map_map]
  refine congrArg (fun vs => { s with waves := vs }) (List.map_congr_left fun v _ => ?_)
  rw [Function.comp_apply]
  split
  · rw [(hf v).1, (hf v).2, if_pos ‹_›]
  · rfl

theorem Wave.emptyS_sregs (v : Wave) (n : Nat) : v.emptyS n = { v with sregs := (v.emptyS n).sregs } := by
  unfold Wave.emptyS
  split <;> rfl

/-- The time of a release and an empty S register do not meet. -/
theorem State.released_emptyS (s : State) (i : Iss) (n : Nat) :
    (s.updCur i fun v => v.emptyS n).released i = (s.released i).updCur i fun v => v.emptyS n := by
  have hempty (v : Wave) : (v.emptyS n).g = v.g ∧ (v.emptyS n).w = v.w := by rw [Wave.emptyS_sregs]; exact ⟨rfl, rfl⟩
  refine (s.updWave_updWave i.c.g i.c.w _ _ hempty).trans
    (Eq.trans ?_ (s.updWave_updWave i.c.g i.c.w (fun v => { v with regs := { v.regs with
      relts := BitVec.ofNat 64 (i.wv.releaseTime (s.ticksOf i.grp.ctx)) } }) _ fun _ => ⟨rfl, rfl⟩).symm)
  refine congrArg (State.updWave s i.c.g i.c.w) (funext fun v => ?_)
  unfold Wave.emptyS
  split <;> rfl

/-! ## Words whose status fills -/

theorem RecordRead.go {s u : State} {i : Iss} {va : DWord} {n : Nat} {bs : List Byte} (h : RecordRead s i va n u bs)
    (k : State → List Byte → Res) : readRecord s i va n k = k u bs := by
  obtain ⟨pa, sh, hpa, hbytes⟩ := h.reached
  rw [readRecord, h.clear, h.plain]
  dsimp only
  rw [if_neg Bool.false_ne_true, hpa]
  dsimp only
  rw [hbytes]

section
variable {s : State} {i : Iss} {a b c : BitVec 7}

theorem exec_shdef {u : State} {bs : List Byte} (h : WordUnit s i {} true [usrc 1 b .bit, usrc 2 c .bit] [(true, a.toNat)])
    (ha : sOk i.wv a.toNat = true) (hb : sOk i.wv b.toNat = true) (hc : sOk i.wv c.toNat = true)
    (hfree : s.accessWait i.c.g i.c.w false false = none) (hread : RecordRead s i (i.wv.sreg c.toNat).val 64 u bs)
    (hrel : Shape.cls (BitVec.ofNat 512 (leNat bs)) = 2 → u.accessWait i.c.g i.c.w false true = none) :
    exec (.shdef a b c) s = .next ((u.fillFiled i ⟨u.seq, i.c.g, i.c.w, a.toNat, none, 1,
      BitVec.ofNat 64 ((i.wv.sreg b.toNat).val.toNat % 256), 0, bs⟩ .shapeStatusFill [a.toNat]).retire i) := by
  have hnone : (if Shape.cls (BitVec.ofNat 512 (leNat bs)) = 2 then u.accessWait i.c.g i.c.w false true else none) = none := by
    split
    · exact hrel ‹_›
    · rfl
  refine (State.issue_go h (Bool.and_eq_true_iff.mpr ⟨Bool.and_eq_true_iff.mpr ⟨ha, hb⟩, hc⟩)).trans ?_
  dsimp only
  rw [hfree]
  dsimp only
  rw [hread.go, hnone]
  rfl

theorem exec_launch (h : WordUnit s i {} true [usrc 1 b .bit] [(true, a.toNat)]) (ha : sOk i.wv a.toNat = true)
    (hb : sOk i.wv b.toNat = true) (halign : (i.wv.sreg b.toNat).val.toNat % 64 = 0)
    (hfree : s.accessWait i.c.g i.c.w true true = none) :
    exec (.launch a b) s = .next ((((s.fillFiled i ⟨s.seq, i.c.g, i.c.w, a.toNat, none, 0, (i.wv.sreg b.toNat).val, 0, []⟩ .launchStatusFill
      [a.toNat]).released i)).retire i) := by
  refine (State.issue_go h (Bool.and_eq_true_iff.mpr ⟨ha, hb⟩)).trans ((if_neg (not_not.mpr halign)).trans ?_)
  rw [hfree]
  exact congrArg (fun t : State => Outcome.next (t.retire i)) (State.released_emptyS _ i a.toNat).symm

theorem exec_feed {u : State} {bs : List Byte} {e : Ext} (h : WordUnit s i {} true [usrc 1 b .bit] [(true, a.toNat)])
    (ha : sOk i.wv a.toNat = true) (hb : sOk i.wv b.toNat = true) (hfree : s.accessWait i.c.g i.c.w false true = none)
    (halign : (i.wv.sreg b.toNat).val.toNat % 64 = 0) (hread : RecordRead s i (i.wv.sreg b.toNat).val 64 u bs) (hbs : bs ≠ [])
    (hgood : arMalformed bs (u.shapeOf i.grp.ctx (arShape bs)) = false)
    (hext : u.arrayExt i.grp (u.shapeOf i.grp.ctx (arShape bs)) = (e, none)) (hwait : u.engineWait i 2 [e] [] = none) :
    ∃ p : Nat, exec (.feed a b) s = .next (((u.lockFor p i.grp.ctx 2 i.grp.core u.seq [e] []).fillFiled i
      ⟨u.seq, i.c.g, i.c.w, a.toNat, none, 2, BitVec.ofNat 64 (arQueue bs), (i.wv.sreg b.toNat).val,
        bs ++ (leBytes 64 (u.shapeOf i.grp.ctx (arShape bs)).toNat ++ leBytes 8 i.c.unitPc.toNat)⟩ .feedStatusFill [a.toNat]).retire i) := by
  have hsome : bs.isEmpty = false := List.isEmpty_eq_false_iff.mpr hbs
  refine ⟨match u.partOf i.grp.ctx with | some p => p.n | none => 0,
    (State.issue_go h (Bool.and_eq_true_iff.mpr ⟨ha, hb⟩)).trans ?_⟩
  dsimp only
  rw [hfree]
  dsimp only
  rw [if_neg (not_not.mpr halign), hread.go]
  rw [hgood, if_neg Bool.false_ne_true, hext]
  dsimp only
  rw [hwait]
  dsimp only
  rw [hsome]
  rfl

end

/-! ## Ports -/

theorem exec_qbind {s : State} {i : Iss} {a b : BitVec 7} (h : WordUnit s i {} true [usrc 0 a .bit, usrc 1 b .bit] [])
    (ha : sOk i.wv a.toNat = true) (hb : sOk i.wv b.toNat = true)
    (hv : vOk i.wv (120 + (i.wv.sreg b.toNat).val.toNat % 8) = true) (hpend : (i.wv.vreg (120 + (i.wv.sreg b.toNat).val.toNat % 8)).pend = 0) :
    exec (.qbind a b) s = .next ((s.updCur i fun v => { v with
      ports := (v.ports.filter fun p => p.1 != 120 + (i.wv.sreg b.toNat).val.toNat % 8) ++
        [(120 + (i.wv.sreg b.toNat).val.toNat % 8, (i.wv.sreg a.toNat).val.toNat % 8)]
      vregs := v.vregs.set (120 + (i.wv.sreg b.toNat).val.toNat % 8) ⟨List.replicate 32 0, tRAW, 0⟩ }).retire i) := by
  refine (State.issue_go h (Bool.and_eq_true_iff.mpr ⟨ha, hb⟩)).trans ?_
  dsimp only
  rw [hv, hpend]
  simp

/-- A V register that holds zero, tagged RAW and full. -/
def VReg.zero : VReg := ⟨List.replicate 32 0, tRAW, 0⟩

/-- The wave with every port of a queue a register that holds zero (R205). -/
def Wave.unbound (v : Wave) (q : Nat) : Wave :=
  { v with
    ports := v.ports.filter fun p => p.2 != q
    vregs := (v.ports.filter fun p => p.2 == q).foldl (fun vs p => vs.set p.1 VReg.zero) v.vregs }

theorem getElem?_foldl_set {α : Type} (ps : List (Nat × Nat)) (x : α) (vs : List α) (n : Nat) :
    (ps.foldl (fun vs p => vs.set p.1 x) vs)[n]? = if n < vs.length ∧ ∃ p ∈ ps, p.1 = n then some x else vs[n]? := by
  induction ps generalizing vs with
  | nil => simp
  | cons p ps ih =>
    rw [List.foldl_cons, ih, List.length_set, List.getElem?_set]
    simp only [List.exists_mem_cons_iff]
    by_cases hp : p.1 = n
    · subst hp
      by_cases hn : p.1 < vs.length <;> simp [hn]
    · simp only [hp, if_false, false_or]

theorem Wave.unbound_vreg_port {v : Wave} {q : Nat} {p : Nat × Nat} (hp : p ∈ v.ports) (hq : p.2 = q) (hlt : p.1 < v.vregs.length) :
    (v.unbound q).vreg p.1 = VReg.zero := by
  have hmem : p ∈ v.ports.filter fun p => p.2 == q := List.mem_filter.mpr ⟨hp, beq_iff_eq.mpr hq⟩
  rw [Wave.vreg, List.getD_eq_getElem?_getD, Wave.unbound, getElem?_foldl_set, if_pos ⟨hlt, p, hmem, rfl⟩, Option.getD_some]

theorem Wave.unbound_vreg_other {v : Wave} {n : Nat} (hn : v.port? n = none) (q : Nat) : (v.unbound q).vreg n = v.vreg n := by
  have hnone : ¬∃ p ∈ v.ports.filter (fun p => p.2 == q), p.1 = n := by
    rintro ⟨p, hp, rfl⟩
    have hnone := List.find?_eq_none.mp (Option.map_eq_none_iff.mp hn) p (List.mem_filter.mp hp).1
    exact hnone (beq_self_eq_true _)
  rw [Wave.vreg, List.getD_eq_getElem?_getD, Wave.unbound, getElem?_foldl_set, if_neg fun h => hnone h.2, ← List.getD_eq_getElem?_getD]
  rfl

/-- QUNBIND leaves the wave unbound, and touches memory and the other waves not at all. -/
theorem exec_qunbind {s : State} {i : Iss} {a : BitVec 7} (h : WordUnit s i {} true [usrc 0 a .bit] []) (ha : sOk i.wv a.toNat = true) :
    ∃ t : State, exec (.qunbind a) s = .next (t.retire i) ∧ t.mem = s.mem ∧
      t.waves = (s.updCur i fun v => v.unbound ((i.wv.sreg a.toNat).val.toNat % 8)).waves := by
  refine ⟨_, State.issue_go h ha, ?_⟩
  dsimp only
  split
  · exact ⟨rfl, rfl⟩
  · split
    · split <;> exact ⟨rfl, rfl⟩
    · exact ⟨rfl, rfl⟩

theorem State.retire_wave {s : State} {i : Iss} {v : Wave} (h : s.wave? i.c.g i.c.w = some v) :
    (s.retire i).wave? i.c.g i.c.w = some { v.updFrag i.c.f fun f => { f with pc := i.next, wait := none, repNext := none, fwdLane := none } with
      units := v.units + 1 } := State.wave?_updWave h fun _ => ⟨rfl, rfl⟩

end Sys2Proof.Machine
end

section
open Sys2Proof Sys2Proof.Machine Host

/-- Settles O42, one lemma for each word; GRAB and RANGESET are their definitions once their checks have passed. -/
theorem workWords : Obligations.WorkWords := by
  unfold Obligations.WorkWords
  intro s i a b c x y z ha hb hc
  refine ⟨fun u bs h hfree hread hrel => exec_shdef h ha hb hc hfree hread hrel,
    fun h => State.issue_go h (Bool.and_eq_true_iff.mpr ⟨ha, hb⟩), fun h halign hfree => exec_launch h ha hb halign hfree,
    fun h => State.issue_go h (Bool.and_eq_true_iff.mpr ⟨Bool.and_eq_true_iff.mpr ⟨ha, hb⟩, hc⟩),
    fun u bs e h hfree halign hread hbs hgood hext hwait => exec_feed h ha hb hfree halign hread hbs hgood hext hwait,
    fun h => State.issue_go h (Bool.and_eq_true_iff.mpr ⟨Bool.and_eq_true_iff.mpr ⟨ha, hb⟩, hc⟩), fun h hv hpend => exec_qbind h ha hb hv hpend,
    fun h => ?_⟩
  obtain ⟨t, ht, hmem, hwaves⟩ := exec_qunbind h ha
  have hwave : t.wave? i.c.g i.c.w = some (i.wv.unbound (x.toNat % 8)) :=
    (congrArg (List.find? _) hwaves).trans (State.wave?_updWave (State.iss?_eq h.issuing).2.2.1 fun _ => ⟨rfl, rfl⟩)
  refine ⟨_, _, ht, State.retire_wave hwave, fun p => ?_, fun p hp hq hlt => Wave.unbound_vreg_port hp hq hlt,
    fun n hn => Wave.unbound_vreg_other hn _, rfl, hmem⟩
  show p ∈ i.wv.ports.filter (fun p => p.2 != x.toNat % 8) ↔ _
  rw [List.mem_filter, bne_iff_ne]

end

section
/-! PROOFS for O43: a drop whose borrowers have not all answered waits (R353). -/

namespace Sys2Proof.Machine

open Host

/-- A fill one of whose recalls is not answered is not performed. -/
theorem exec_shapeStatusFill_recalled {s : State} {f : Fill} {gr : Group} (hf : (s.fills.find? fun f => f.id == s.ev.a && f.kind == 1) = some f)
    (hg : s.group? f.g = some gr) (hy : f.y = 1) (ho : s.objectOf gr.ctx f.x.toNat = none) (hr : (s.recalls.any fun x => x.fill == f.id) = true) :
    exec .shapeStatusFill s = .next s := by
  show Outcome.next (s.shapeFill s.ev.a) = .next s
  unfold State.shapeFill
  rw [hf]
  dsimp only
  rw [hg]
  dsimp only
  rw [if_pos hy, State.recallFirst, ho]
  dsimp only
  rw [if_pos hr, Option.getD_some]

theorem State.fillStatus_fills (s : State) (f : Fill) (x : Nat) : (s.fillStatus f x).fills = s.fills.filter fun y => y.id != f.id :=
  (resave_sameWork _ _ _).field State.fills fun _ _ _ _ _ _ _ _ _ _ => rfl

/-- The SHDROP of entry 5 by the one group of an installation. -/
def dropFill : Fill := ⟨1, 0, 0, 0, none, 1, 5, 1, []⟩

/-- The drop's turn, while a package that borrowed lines of the entry's object has not acknowledged recall 2. -/
def recalledDrop : State := { State.reset with groups := [placeGroup], fills := [dropFill], recalls := [⟨2, 1, 0⟩], ev := { a := 1 } }

end Sys2Proof.Machine
end

section
open Sys2Proof Sys2Proof.Machine Host

/-- Refutes O43: a SHDROP that has to await a borrower's acknowledgement (R353) does nothing at its turn, where the statement has
its status filled at once. -/
theorem not_workOutcomes : ¬ Obligations.WorkOutcomes := by
  unfold Obligations.WorkOutcomes
  intro h
  have hdrop := (h.2.1 recalledDrop dropFill placeGroup rfl rfl).1 rfl
  have hstay : exec .shapeStatusFill recalledDrop = .next recalledDrop := exec_shapeStatusFill_recalled rfl rfl rfl rfl rfl
  have hfills := congrArg State.fills (Outcome.next.inj (hstay.symm.trans hdrop))
  rw [State.fillStatus_fills] at hfills
  exact List.cons_ne_nil dropFill [] hfills

end

section
/-! SUPPORT and PROOFS for O49: the choice of the fragment that issues, and the merge step. -/

namespace Sys2Proof.Machine

open Host

/-! ## The choice (R63) -/

theorem better_iff (x y : Frag) : better x y = true ↔
    (256 ≤ y.age ∨ 256 ≤ x.age → y.age ≤ x.age ∧ (y.age = x.age → x.id ≤ y.id)) ∧
    (y.age < 256 → x.age < 256 → y.prio ≤ x.prio ∧ (y.prio = x.prio → x.pc ≤ y.pc ∧ (y.pc = x.pc → x.id ≤ y.id))) := by
  simp only [better, BitVec.lt_def, BitVec.le_def, ne_eq, ← BitVec.toNat_inj]
  split
  · split <;> simp only [decide_eq_true_eq] <;> omega
  · split
    · simp only [decide_eq_true_eq]; omega
    · split <;> simp only [decide_eq_true_eq] <;> omega

theorem better_total (x y : Frag) : better x y = true ∨ better y x = true := by
  simp only [better_iff, BitVec.le_def, ← BitVec.toNat_inj]
  omega

theorem better_refl (x : Frag) : better x x = true := (better_total x x).elim id id

theorem better_trans {x y z : Frag} (hxy : better x y = true) (hyz : better y z = true) : better x z = true := by
  simp only [better_iff, BitVec.le_def, ← BitVec.toNat_inj] at *
  omega

/-- The pick of a list that is not empty is one of it that no other goes before. -/
theorem pickFrag_spec : ∀ {fs : List Frag}, fs ≠ [] → ∃ f ∈ fs, pickFrag fs = some f ∧ ∀ x ∈ fs, better f x = true
  | [f], _ => ⟨f, List.mem_singleton_self f, rfl, fun x hx => List.mem_singleton.mp hx ▸ better_refl f⟩
  | f :: y :: ys, _ => by
    obtain ⟨g, hg, hpick, hbest⟩ := pickFrag_spec (fs := y :: ys) (List.cons_ne_nil y ys)
    rw [pickFrag, hpick]
    dsimp only
    split
    · next hb =>
      refine ⟨f, List.mem_cons_self, rfl, fun x hx => ?_⟩
      rcases List.mem_cons.mp hx with rfl | hx
      · exact better_refl x
      · exact better_trans hb (hbest x hx)
    · next hb =>
      refine ⟨g, List.mem_cons_of_mem _ hg, rfl, fun x hx => ?_⟩
      rcases List.mem_cons.mp hx with rfl | hx
      · exact (better_total g x).resolve_right hb
      · exact hbest x hx

/-- R99: the pick among the ready fragments, those that did not yield where there is one. -/
theorem pickFrag_unyielded {ready : List Frag} (hne : ready ≠ []) (y : Option Nat) :
    let others := ready.filter fun f => y != some f.id
    ∃ f ∈ ready, pickFrag (if others.isEmpty then ready else others) = some f ∧ (y = some f.id → ∀ x ∈ ready, y = some x.id) ∧
      ∀ x ∈ ready, (y = some x.id → y = some f.id) → better f x = true := by
  intro others
  have hothers : ∀ {x}, x ∈ others ↔ x ∈ ready ∧ y ≠ some x.id := by simp [others]
  by_cases he : others = []
  · obtain ⟨f, hf, hpick, hbest⟩ := pickFrag_spec hne
    have hall : ∀ x ∈ ready, y = some x.id := fun x hx => by
      by_contra hy
      exact List.ne_nil_of_mem (hothers.mpr ⟨hx, hy⟩) he
    exact ⟨f, hf, by rw [he]; exact hpick, fun _ => hall, fun x hx _ => hbest x hx⟩
  · obtain ⟨f, hf, hpick, hbest⟩ := pickFrag_spec he
    obtain ⟨hready, hy⟩ := hothers.mp hf
    refine ⟨f, hready, ?_, fun h => absurd h hy, fun x hx himp => hbest x (hothers.mpr ⟨hx, fun h => hy (himp h)⟩)⟩
    rw [if_neg (by simpa using he)]
    exact hpick

/-! ## The merge step (R62) -/

/-- The fragment that two make when they merge. -/
def Frag.join (x f : Frag) : Frag :=
  { (if x.id ≤ f.id then x else f) with
    live := x.live ||| f.live, sib := (x.sib ||| f.sib) &&& ~~~(x.live ||| f.live), age := 0, wait := none }

theorem mergeable_iff {x y : Frag} : mergeable x y = true ↔
    x.prio = y.prio ∧ x.pc = y.pc ∧ x.frame = y.frame ∧ x.midWord = false ∧ y.midWord = false := by
  simp [mergeable, and_assoc]

theorem mergeable_comm (x y : Frag) : mergeable x y = mergeable y x := by
  rw [Bool.eq_iff_iff, mergeable_iff, mergeable_iff]
  exact ⟨fun ⟨hp, hc, hf, hx, hy⟩ => ⟨hp.symm, hc.symm, hf.symm, hy, hx⟩, fun ⟨hp, hc, hf, hx, hy⟩ => ⟨hp.symm, hc.symm, hf.symm, hy, hx⟩⟩

theorem Frag.join_pair {x f : Frag} (h : mergeable x f = true) :
    (x.join f).pc = x.pc ∧ (x.join f).prio = x.prio ∧ (x.join f).frame = x.frame := by
  obtain ⟨hprio, hpc, hframe, -, -⟩ := mergeable_iff.mp h
  unfold Frag.join
  split
  · exact ⟨rfl, rfl, rfl⟩
  · exact ⟨hpc.symm, hprio.symm, hframe.symm⟩

theorem Frag.midWord_of_wait {f : Frag} (h : f.midWord = false) {m n : LaneMask} {a : Nat} :
    ({ f with live := m, sib := n, age := a, wait := none } : Frag).midWord = false := by
  simp only [Frag.midWord, Bool.or_eq_false_iff] at h ⊢
  exact ⟨h.1, trivial⟩

theorem Frag.join_midWord {x f : Frag} (h : mergeable x f = true) : (x.join f).midWord = false := by
  obtain ⟨-, -, -, hx, hf⟩ := mergeable_iff.mp h
  unfold Frag.join
  split
  · exact Frag.midWord_of_wait hx
  · exact Frag.midWord_of_wait hf

/-- What merges with the result of a merge merged with its first part. -/
theorem mergeable_join {x f y : Frag} (h : mergeable x f = true) : mergeable y (x.join f) = mergeable y x := by
  obtain ⟨hpc, hprio, hframe⟩ := Frag.join_pair h
  rw [Bool.eq_iff_iff, mergeable_iff, mergeable_iff, hpc, hprio, hframe, Frag.join_midWord h, (mergeable_iff.mp h).2.2.2.1]

theorem mergeInto_cases (xs : List Frag) (f : Frag) :
    (mergeInto xs f = xs ++ [f] ∧ ∀ x ∈ xs, mergeable x f = false) ∨
    ∃ as x bs, xs = as ++ x :: bs ∧ mergeable x f = true ∧ mergeInto xs f = as ++ x.join f :: bs := by
  induction xs with
  | nil => exact .inl ⟨rfl, fun x hx => nomatch hx⟩
  | cons x xs ih =>
    rw [mergeInto]
    by_cases hm : mergeable x f = true
    · exact .inr ⟨[], x, xs, rfl, hm, by rw [if_pos hm]; rfl⟩
    · rw [if_neg hm]
      rcases ih with ⟨heq, hnone⟩ | ⟨as, y, bs, hxs, hy, heq⟩
      · exact .inl ⟨by rw [heq]; rfl, List.forall_mem_cons.mpr ⟨by simpa using hm, hnone⟩⟩
      · exact .inr ⟨x :: as, y, bs, by rw [hxs]; rfl, hy, by rw [heq]; rfl⟩

/-- No two fragments of a list merge. -/
def Unmergeable (fs : List Frag) : Prop := fs.Pairwise fun x y => mergeable x y = false

theorem Unmergeable.merged {xs : List Frag} (h : Unmergeable xs) (f : Frag) : Unmergeable (mergeInto xs f) := by
  rcases mergeInto_cases xs f with ⟨heq, hnone⟩ | ⟨as, x, bs, hxs, hm, heq⟩
  · rw [heq]
    exact List.pairwise_append.mpr ⟨h, List.pairwise_singleton _ f, fun x hx y hy => List.mem_singleton.mp hy ▸ hnone x hx⟩
  · rw [hxs] at h
    rw [heq]
    obtain ⟨has, hbs, hab⟩ := List.pairwise_append.mp h
    obtain ⟨hx, hbs⟩ := List.pairwise_cons.mp hbs
    refine List.pairwise_append.mpr ⟨has, List.pairwise_cons.mpr ⟨fun y hy => ?_, hbs⟩, fun y hy z hz => ?_⟩
    · rw [mergeable_comm, mergeable_join hm, mergeable_comm]
      exact hx y hy
    · rcases List.mem_cons.mp hz with rfl | hz
      · rw [mergeable_join hm]
        exact hab y hy x List.mem_cons_self
      · exact hab y hy z (List.mem_cons_of_mem _ hz)

theorem FragsApart.perm {fs gs : List Frag} (h : FragsApart fs) (hp : fs.Perm gs) : FragsApart gs := by
  obtain ⟨hids, hlive, hpair⟩ := h
  exact ⟨(hp.map Frag.id).nodup_iff.mp hids, fun f hf => hlive f (hp.mem_iff.mpr hf),
    hp.pairwise hpair fun hxy => by rwa [BitVec.and_comm]⟩

theorem FragsApart.placeIn_perm {fs gs : List Frag} (h : FragsApart fs) (hp : fs.Perm gs) (l : Nat) : placeIn gs l = placeIn fs l := by
  by_cases hin : ∃ f ∈ fs, f.live.getLsbD l = true
  · obtain ⟨f, hf, hl⟩ := hin
    rw [h.placeIn_of_mem hf hl, (h.perm hp).placeIn_of_mem (hp.mem_iff.mp hf) hl]
  · have hnone : ∀ f ∈ fs, f.live.getLsbD l = false := fun f hf => by simpa using fun hl => hin ⟨f, hf, hl⟩
    rw [placeIn_eq_none hnone, placeIn_eq_none fun f hf => hnone f (hp.mem_iff.mpr hf)]

theorem Frag.join_id (x f : Frag) : (x.join f).id = x.id ∨ (x.join f).id = f.id := by
  unfold Frag.join
  split
  · exact .inl rfl
  · exact .inr rfl

theorem Frag.join_live (x f : Frag) : (x.join f).live = x.live ||| f.live := rfl

theorem LaneMask.or_and_eq_zero {m n k : LaneMask} : (m ||| n) &&& k = 0 ↔ m &&& k = 0 ∧ n &&& k = 0 := by
  rw [LaneMask.and_eq_zero_iff, LaneMask.and_eq_zero_iff, LaneMask.and_eq_zero_iff]
  simp only [BitVec.getLsbD_or, Bool.or_eq_true]
  exact ⟨fun h => ⟨fun l hl => h l (.inl hl), fun l hl => h l (.inr hl)⟩, fun h l hl => hl.elim (h.1 l) (h.2 l)⟩

theorem FragsApart.join {x f : Frag} {fs : List Frag} (h : FragsApart (x :: f :: fs)) : FragsApart (x.join f :: fs) := by
  obtain ⟨hids, hlive, hpair⟩ := h
  simp only [List.map_cons, List.nodup_cons, List.mem_cons, not_or, List.pairwise_cons, forall_eq_or_imp] at hids hlive hpair ⊢
  obtain ⟨⟨-, hxid⟩, hfid, hids⟩ := hids
  obtain ⟨⟨hxlt, hxne⟩, ⟨hflt, -⟩, hlive⟩ := hlive
  obtain ⟨⟨-, hxd⟩, hfd, hpair⟩ := hpair
  refine ⟨?_, ?_, ?_⟩
  · rw [List.map_cons, List.nodup_cons]
    exact ⟨by rcases x.join_id f with h | h <;> rw [h] <;> assumption, hids⟩
  · rw [List.forall_mem_cons]
    refine ⟨⟨by rcases x.join_id f with h | h <;> rw [h] <;> assumption, ?_⟩, hlive⟩
    rw [Frag.join_live]
    exact fun h0 => hxne (BitVec.or_eq_zero_iff.mp h0).1
  · rw [List.pairwise_cons]
    refine ⟨fun y hy => ?_, hpair⟩
    rw [Frag.join_live, LaneMask.or_and_eq_zero]
    exact ⟨hxd y hy, hfd y hy⟩

theorem placeIn_join {x f : Frag} (h : mergeable x f = true) (fs : List Frag) (l : Nat) :
    placeIn (x.join f :: fs) l = placeIn (x :: f :: fs) l := by
  obtain ⟨hpc, hprio, -⟩ := Frag.join_pair h
  obtain ⟨hprio', hpc', -⟩ := mergeable_iff.mp h
  simp only [placeIn, List.find?_cons, Frag.join_live, BitVec.getLsbD_or]
  cases x.live.getLsbD l <;> cases f.live.getLsbD l <;> simp [hpc, hprio, hpc', hprio']

/-- The merge of the fragments left to do into those done keeps every lane at its place. -/
theorem FragsApart.merged {xs fs : List Frag} {f : Frag} (h : FragsApart (xs ++ f :: fs)) :
    FragsApart (mergeInto xs f ++ fs) ∧ ∀ l, placeIn (mergeInto xs f ++ fs) l = placeIn (xs ++ f :: fs) l := by
  rcases mergeInto_cases xs f with ⟨heq, -⟩ | ⟨as, x, bs, hxs, hm, heq⟩
  · rw [heq, List.append_assoc]
    exact ⟨h, fun _ => rfl⟩
  · have hfrom : (xs ++ f :: fs).Perm (x :: f :: (as ++ bs ++ fs)) := by
      rw [hxs]
      refine List.Perm.trans (List.perm_middle (l₁ := as ++ x :: bs)) (((List.Perm.swap x f _).symm.trans ?_).symm)
      exact List.Perm.cons f (by
        rw [List.append_assoc, List.append_assoc]
        exact List.perm_middle.symm)
    have hto : (x.join f :: (as ++ bs ++ fs)).Perm (mergeInto xs f ++ fs) := by
      rw [heq, List.append_assoc, List.append_assoc]
      exact List.perm_middle.symm
    have hx := h.perm hfrom
    exact ⟨hx.join.perm hto, fun l => by rw [hx.join.placeIn_perm hto, placeIn_join hm, h.placeIn_perm hfrom]⟩

theorem FragsApart.all_merged {fs : List Frag} : ∀ {xs : List Frag}, Unmergeable xs → FragsApart (xs ++ fs) →
    Unmergeable (fs.foldl mergeInto xs) ∧ FragsApart (fs.foldl mergeInto xs) ∧
      ∀ l, placeIn (fs.foldl mergeInto xs) l = placeIn (xs ++ fs) l := by
  induction fs with
  | nil => exact fun hu h => ⟨hu, by simpa using h, by simp⟩
  | cons f fs ih =>
    intro xs hu h
    obtain ⟨hapart, hplace⟩ := h.merged
    obtain ⟨hu', hapart', hplace'⟩ := ih (hu.merged f) hapart
    exact ⟨hu', hapart', fun l => (hplace' l).trans (hplace l)⟩

/-! ## The two steps -/

theorem State.mergeWave_wave {s : State} {g w : Nat} {v : Wave} (hv : s.wave? g w = some v)
    (hres : ∀ gr, s.group? g = some gr → gr.resident = true) :
    (s.mergeWave g w).wave? g w = some { v with frags := v.frags.foldl mergeInto [] } := by
  have hset := State.wave?_updWave (f := fun v => { v with frags := v.frags.foldl mergeInto [] }) hv fun _ => ⟨rfl, rfl⟩
  have hstay : s.mergeWave g w = s.updWave g w fun v => { v with frags := v.frags.foldl mergeInto [] } := by
    cases hg : s.group? g with
    | none =>
      unfold State.mergeWave State.resave
      rw [show (s.updWave g w fun v => { v with frags := v.frags.foldl mergeInto [] }).group? g = none from hg]
    | some gr => exact State.resave_resident (s := s.updWave g w _) hg (hres gr hg) w
  rw [hstay]
  exact hset

/-- Neither the ages of its fragments nor what it gives away change where a wave's fragments stand. -/
def Wave.SameFrags (v u : Wave) : Prop := u.frags.map (fun x => (x.id, x.live, x.pc, x.prio)) = v.frags.map fun x => (x.id, x.live, x.pc, x.prio)

/-- The wave once fragment `f` of it has been chosen among those that are ready (R63, R99). -/
def Wave.chosen (v : Wave) (f : Frag) (ready : List Frag) : Wave :=
  { v with
    yielded := none
    frags := v.frags.map fun x =>
      if x.id == f.id then { x with age := 0, wait := none }
      else if ready.any fun r => r.id == x.id then { x with age := min 511 (x.age + 1) } else x }

theorem Wave.sameFrags_chosen (v : Wave) (f : Frag) (ready : List Frag) : v.SameFrags (v.chosen f ready) := by
  unfold Wave.SameFrags Wave.chosen
  rw [List.map_map]
  refine List.map_congr_left fun x _ => ?_
  rw [Function.comp_apply]
  split
  · rfl
  · split <;> rfl

/-- The state once wave (g, w) has been taken by its pipe and fragment `f` of it chosen, in a context that is not DET. -/
def State.selected (s : State) (v : Wave) (f : Frag) (ready : List Frag) (cur : Cur) : State :=
  { (({ s with waves := s.waves.map fun x => if s.samePipe v x then { x with gives := false } else x } : State).updWave v.g v.w
      fun v => v.chosen f ready) with lastWave := (v.g, v.w), cur := some cur }

theorem State.selected_wave {s : State} {v : Wave} (hv : s.wave? v.g v.w = some v) (f : Frag) (ready : List Frag)
    (cur : Cur) {u : Wave} (hu : (s.selected v f ready cur).wave? v.g v.w = some u) : v.SameFrags u := by
  have hgive : ({ s with waves := s.waves.map fun x => if s.samePipe v x then { x with gives := false } else x } : State).wave? v.g v.w =
      some (if s.samePipe v v then { v with gives := false } else v) := by
    have hkey : ((fun x : Wave => x.g == v.g && x.w == v.w) ∘ fun x : Wave => if s.samePipe v x then { x with gives := false } else x) =
        fun x => x.g == v.g && x.w == v.w := by
      funext x
      rw [Function.comp_apply]
      split <;> rfl
    show List.find? _ (List.map _ _) = _
    rw [List.find?_map, hkey]
    exact congrArg (Option.map _) hv
  have hset := State.wave?_updWave (f := fun v => v.chosen f ready) hgive fun _ => ⟨rfl, rfl⟩
  cases hu.symm.trans hset
  split
  · exact Wave.sameFrags_chosen { v with gives := false } f ready
  · exact Wave.sameFrags_chosen v f ready

end Sys2Proof.Machine
end

section
open Sys2Proof Sys2Proof.Machine Host

/-- Settles O49: the pick is the best in R63's order of those it may take, and each join of the merge step keeps all lanes at
their places. -/
theorem issueEvents : Obligations.IssueEvents := by
  unfold Obligations.IssueEvents
  refine ⟨fun s gr v hg hv hcan hdet => ?_, fun s v hv hapart hres => ?_⟩
  · obtain ⟨hvg, hvw⟩ := State.wave?_key hv
    have hready : v.frags.filter (s.fragReady gr v) ≠ [] := by
      rw [State.canIssue, hvg, hg] at hcan
      obtain ⟨f, hf, hr⟩ := List.any_eq_true.mp (Bool.and_eq_true_iff.mp hcan).2
      exact List.ne_nil_of_mem (List.mem_filter.mpr ⟨hf, hr⟩)
    obtain ⟨f, hf, hpick, hyield, hbest⟩ := pickFrag_unyielded hready v.yielded
    obtain ⟨hmem, hfready⟩ := List.mem_filter.mp hf
    let cur : Cur := ⟨s.ev.a, s.ev.b, f.id, f.pc, f.pc, 0, none, none, none, some
        { ages := v.frags.map fun x => (x.id, x.age), yielded := v.yielded
          gives := (s.waves.filter fun x => x.gives && s.samePipe v x).map fun x => (x.g, x.w) }⟩
    have hexec : exec .issueSelection s = .next (s.selected v f (v.frags.filter (s.fragReady gr v)) cur) := by
      show Outcome.next (s.issueSelect s.ev.a s.ev.b) = _
      unfold State.issueSelect
      rw [hg, hv]
      dsimp only
      rw [if_neg (by simp [hcan]), hpick, hdet]
      dsimp only
      rw [State.selected, hvg, hvw]
      rfl
    refine ⟨_, f, hexec, hmem, hfready, rfl, rfl, rfl, fun hy x hx hr => hyield hy x (List.mem_filter.mpr ⟨hx, hr⟩),
      fun x hx hr himp => (better_iff f x).mp (hbest x (List.mem_filter.mpr ⟨hx, hr⟩) himp), fun u hu => ?_⟩
    rw [← hvg, ← hvw] at hu hv
    exact State.selected_wave hv f _ cur hu
  · obtain ⟨hun, hap, hplace⟩ := FragsApart.all_merged (fs := v.frags) (xs := []) List.Pairwise.nil hapart
    exact ⟨_, _, rfl, State.mergeWave_wave hv hres, rfl, hap, hplace, hun⟩

end

section
/-! PROOFS for O51: what a group's start adds to the state. -/

namespace Sys2Proof.Machine

open Host

theorem startMask_getLsbD {lanes w l : Nat} (hl : l < 32) : (startMask lanes w).getLsbD l = decide (32 * w + l < lanes) := by
  rw [startMask, BitVec.getLsbD_ofNat, Nat.testBit_two_pow_sub_one, decide_eq_true hl, Bool.true_and, Bool.eq_iff_iff, decide_eq_true_iff,
    decide_eq_true_iff]
  omega

/-- TAGMODE of a record's word, 0 standing for the partition's (R102, R442). -/
theorem startTagmode_eq (p : Part) (m : BitVec 4) :
    startTagmode p m = if m.extractLsb' 0 2 = 0 then p.mode.getLsbD 7 else m.extractLsb' 0 2 == 2 := by
  have hdefault : m.toNat % 4 = 0 ↔ m.extractLsb' 0 2 = 0 := by revert m; decide
  have hgiven : (m.toNat % 4 = 2) ↔ m.extractLsb' 0 2 = 2 := by revert m; decide
  unfold startTagmode
  simp only [hdefault, hgiven]
  rfl

theorem ofNat_div_four (m : BitVec 4) : BitVec.ofNat 2 (m.toNat / 4) = m.extractLsb' 2 2 := by
  revert m
  decide

theorem State.startGroup_group {s : State} {gr : Group} (h : s.group? gr.g = none) (p : Part) (x : GroupSpec) :
    (s.startGroup p gr x).group? gr.g = some { gr with clean := !s.vatUsed.contains gr.core } := by
  show List.find? _ (s.groups ++ _) = _
  rw [List.find?_append, show s.groups.find? _ = none from h, Option.none_or]
  exact List.find?_cons_of_pos (beq_self_eq_true gr.g)

/-- The wave of a group that starts, by its number in it. -/
def startedWave (p : Part) (gr : Group) (x : GroupSpec) (w : Nat) : Wave :=
  freshWave gr.g w (startMask gr.lanes w) x.vcount x.scount x.prog x.tvec (startTagmode p x.wavemode) (BitVec.ofNat 2 (x.wavemode.toNat / 4))

theorem State.startGroup_wave {s : State} {gr : Group} (h : ∀ v ∈ s.waves, v.g ≠ gr.g) (p : Part) (x : GroupSpec) {w : Nat}
    (hw : w < gr.nwaves) : (s.startGroup p gr x).wave? gr.g w = some (startedWave p gr x w) := by
  have hold : s.waves.find? (fun v => v.g == gr.g && v.w == w) = none :=
    List.find?_eq_none.mpr fun v hv => by simp [h v hv]
  have hnew : ((fun v : Wave => v.g == gr.g && v.w == w) ∘ startedWave p gr x) = fun n => n == w := by
    funext n
    show (gr.g == gr.g && n == w) = _
    rw [beq_self_eq_true, Bool.true_and]
  show List.find? _ (s.waves ++ (List.range gr.nwaves).map (startedWave p gr x)) = _
  rw [List.find?_append, hold, Option.none_or, List.find?_map, hnew]
  exact congrArg (Option.map _) (List.find?_range_eq_some (p := fun n => n == w) |>.mpr ⟨beq_self_eq_true w, List.mem_range.mpr hw,
    fun n hn => by simpa using Nat.ne_of_lt hn⟩)

end Sys2Proof.Machine
end

section
open Sys2Proof Sys2Proof.Machine Host

/-- Settles O51: a group's start appends it and its fresh waves, and leaves what stands as it is. -/
theorem groupStart : Obligations.GroupStart := by
  unfold Obligations.GroupStart
  refine ⟨fun s p gr x w hw hnew hg => ⟨State.startGroup_group hg p x, startedWave p gr x w, State.startGroup_wave hnew p x hw, rfl, rfl,
    fun n hn => ⟨?_, ?_⟩, rfl, rfl, startTagmode_eq p x.wavemode, ofNat_div_four x.wavemode, rfl, rfl, rfl, rfl⟩,
    fun lanes w l hl => startMask_getLsbD hl⟩
  · exact ite_eq_left_iff.mpr fun _ => List.getD_replicate _ hn
  · exact List.getD_replicate _ hn

end

section
/-! SUPPORT and PROOFS for O54: what engines' reads and writes leave of the work in hand, and how a submission ends. -/

namespace Sys2Proof.Machine

open Host

/-! ## Reads and writes of engines -/

theorem State.engRead_memOnly (s : State) (core ctx : Nat) (reg : Region) (a : Int) (n : Nat) :
    State.MemOnly s (s.engRead core ctx reg a n).state := by
  induction n generalizing s a with
  | zero => exact .refl s
  | succ n ih =>
    unfold State.engRead
    cases reg with
    | pad g =>
      have h := ih s (a + 1)
      dsimp only
      split <;> rename_i heq
      · rwa [heq] at h
      · exact h
    | glob =>
      have h := s.translate_memOnly core ctx a.toNat .engineRead
      dsimp only
      split
      · exact .refl s
      · split <;> rename_i heq <;> rw [heq] at h
        · split
          · exact h
          · have hrest := h.trans (ih _ (a + 1))
            split <;> rename_i hread
            · rwa [hread] at hrest
            · exact hrest
        · exact h
        · exact h

theorem State.engWrite_memOnly (s : State) (core ctx : Nat) (a : Int) (bs : List Byte) :
    State.MemOnly s (s.engWrite core ctx .glob a bs).state := by
  induction bs generalizing s a with
  | nil => exact .refl s
  | cons b bs ih =>
    have h := s.translate_memOnly core ctx a.toNat .engineWrite
    unfold State.engWrite
    dsimp only
    split
    · exact .refl s
    · split <;> rename_i heq <;> rw [heq] at h
      · split
        · exact h
        · exact h.trans ((State.homeWrite_memOnly _ _ _).trans (ih _ _))
      · exact h
      · exact h

theorem State.SameWork.of_engRead {s u : State} {core ctx n : Nat} {reg : Region} {a : Int} {bs : List Byte}
    (h : s.engRead core ctx reg a n = .ok u bs) : State.SameWork s u := by
  have := s.engRead_memOnly core ctx reg a n
  rw [h] at this
  exact this.sameWork

theorem State.SameWork.of_engWrite {s u : State} {core ctx : Nat} {a : Int} {bs : List Byte}
    (h : s.engWrite core ctx .glob a bs = .ok u ()) : State.SameWork s u := by
  have := s.engWrite_memOnly core ctx a bs
  rw [h] at this
  exact this.sameWork

theorem State.SameWork.launches {s t : State} (h : State.SameWork s t) : t.launches = s.launches :=
  h.field State.launches fun _ _ _ _ _ _ _ _ _ _ => rfl

/-! ## Shape definitions leave the launches -/

theorem State.recallLines_launches (s : State) (fill : Nat) (r : RangeEntry) : (s.recallLines fill r).launches = s.launches := by
  unfold State.recallLines
  refine foldl_keeps State.launches _ (fun u x _ => ?_) _
  rfl

theorem State.freeObject_launches (s : State) (ctx id : Nat) : (s.freeObject ctx id).launches = s.launches := by
  unfold State.freeObject
  split
  · rfl
  · dsimp only
    split
    · exact State.recallLines_launches _ _ _
    · rfl

theorem State.defineShape_launches (s : State) (part core ctx id : Nat) (r : Shape) :
    (s.defineShape part core ctx id r).launches = s.launches := by
  rw [← s.freeObject_launches ctx id]
  unfold State.defineShape
  dsimp only
  split
  · rfl
  · split <;> split <;> rfl

theorem State.loadImage_launches {s t : State} {part core ctx : Nat} {wheel : Option Nat} {img : List Byte}
    (h : s.loadImage part core ctx wheel img = some t) : t.launches = s.launches := by
  unfold State.loadImage at h
  dsimp only at h
  split at h
  · cases h
  · have hfold : ∀ u, (imageRecords 0 img).foldl (fun (o : Option State) r => match o with
          | none => none
          | some s => if s.shapeStatus part ctx wheel r.1 r.2 false = 0 then some (s.defineShape part core ctx r.1 r.2) else none)
        (some s) = some u → u.launches = s.launches := by
      refine List.foldlRecOn (motive := fun o => ∀ u : State, o = some u → u.launches = s.launches) _ _
        (fun u hu => congrArg State.launches (Option.some.inj hu).symm) fun o ho r _ u hu => ?_
      split at hu
      · cases hu
      · split at hu
        · cases hu
          rw [State.defineShape_launches]
          exact ho _ rfl
        · cases hu
    split at h
    · rename_i u hu
      split at h
      · cases h
      · cases h
        exact hfold _ hu
    · cases h

/-! ## How a submission ends -/

/-- A check of a submission that is accepted has not refused it. -/
theorem passed_of_accepted {p : Prop} [Decidable p] {s t : State} {code : Nat} {x : Sub}
    (h : (if p then .done s code else x) = Sub.done t 0) (hc : code ≠ 0) : ¬p ∧ x = .done t 0 := by
  by_cases hp : p
  · rw [if_pos hp] at h
    exact absurd (Sub.done.inj h).2 hc
  · rw [if_neg hp] at h
    exact ⟨hp, h⟩

/-- A read of a submission that is accepted has been made. -/
theorem subRead_accepted {s t : State} {core ctx va n code : Nat} {failed : Bool} {k : State → List Byte → Sub}
    (h : subRead s core ctx failed va n k code = .done t 0) (hc : code ≠ 0) :
    ∃ u bs, State.SameWork s u ∧ k u bs = .done t 0 := by
  unfold subRead at h
  split at h
  · rename_i u bs heq
    exact ⟨u, bs, .of_engRead heq, h⟩
  · exact absurd (Sub.done.inj h).2 hc
  · split at h
    · exact absurd (Sub.done.inj h).2 hc
    · cases h

theorem subNodes_accepted {s t : State} {core ctx : Nat} {failed : Bool} {r : LaunchRec} {k : State → List Nat → Sub}
    (h : subNodes s core ctx failed r k = .done t 0) : ∃ u ns, State.SameWork s u ∧ k u ns = .done t 0 := by
  unfold subNodes at h
  split at h
  · exact ⟨s, _, .refl s, h⟩
  · split at h
    · exact ⟨s, _, .refl s, h⟩
    · rename_i u a e hhdr
      have hs := (s.engRead_memOnly core ctx .glob r.prog 64).sameWork
      rw [hhdr] at hs
      split at h
      · exact ⟨u, _, hs, h⟩
      · cases h
    · rename_i u hdr hhdr
      have hs := State.SameWork.of_engRead hhdr
      split at h
      · exact ⟨u, _, hs, h⟩
      · rename_i v a e hnb
        have hv := (u.engRead_memOnly core ctx .glob (r.prog + 64) (64 * graphNodes hdr)).sameWork
        rw [hnb] at hv
        split at h
        · exact ⟨v, _, hs.trans hv, h⟩
        · cases h
      · rename_i hnb
        exact ⟨_, _, hs.trans (.of_engRead hnb), h⟩

theorem graphRefused_ne_zero {h : Nat} {nodes : List Nat} {c : Nat} (hr : graphRefused h nodes = some c) : c ≠ 0 := by
  unfold graphRefused at hr
  dsimp only at hr
  split at hr
  · cases hr
    decide
  · obtain ⟨r, -, hr⟩ := List.exists_of_findSome?_eq_some hr
    split at hr
    · cases hr
      decide
    · split at hr
      · cases hr
        decide
      · cases hr

/-- What an accepted submission queues (R69, R102): one launch with the record's fields. -/
structure Queued (s t : State) (ctx : Nat) (r : LaunchRec) (l : Launch) : Prop where
  launches : t.launches = s.launches ++ [l]
  fields : l.ctx = ctx ∧ l.prio = r.f 5 60 4 ∧ l.prog = BitVec.ofNat 64 r.prog ∧
      l.vatword = r.vat ∧ l.lanes = r.lanes ∧ l.vcount = r.vcount ∧ l.scount = r.scount ∧ l.tiles = r.f 3 57 5 ∧
      l.compl = r.f 3 4 44 * 16 ∧ l.area = BitVec.ofNat 64 r.area ∧ l.graph = r.graph ∧ l.coresident = r.coresident ∧
      l.eligible = false ∧ l.ended = false ∧ l.nextCluster = 0
  event : ⟨.launchEligible, { a := l.id }⟩ ∈ t.agenda

theorem submit_accepted {s t : State} {core ctx : Nat} {wheel : Option Nat} {failed : Bool} {r : LaunchRec}
    (h : submit s core ctx wheel failed r = .done t 0) : r.malformed = false ∧ ∃ l, Queued s t ctx r l := by
  unfold submit at h
  split at h
  · cases h
  · rename_i p _
    obtain ⟨hgood, h⟩ := passed_of_accepted h (by decide)
    refine ⟨by simpa using hgood, ?_⟩
    obtain ⟨s₁, hb, hs₁, h⟩ := subRead_accepted h (by decide)
    obtain ⟨s₂, ns, hs₂, h⟩ := subNodes_accepted h
    obtain ⟨-, h⟩ := passed_of_accepted h (by decide)
    obtain ⟨-, h⟩ := passed_of_accepted h (by decide)
    obtain ⟨-, h⟩ := passed_of_accepted h (by decide)
    obtain ⟨-, h⟩ := passed_of_accepted h (by decide)
    obtain ⟨s₃, args, hs₃, h⟩ := subRead_accepted h (by decide)
    obtain ⟨s₄, img, hs₄, h⟩ := subRead_accepted h (by decide)
    generalize hload : s₄.loadImage _ _ _ _ _ = o at h
    cases o with
    | none => cases h
    | some loaded =>
      have hloaded : loaded.launches = s.launches :=
        (State.loadImage_launches hload).trans ((((hs₁.trans hs₂).trans hs₃).trans hs₄).launches)
      dsimp -zeta only at h
      extract_lets graphPart at h
      have hgraph (k : List Node → Nat → Nat → Nat → Sub) (hk : graphPart k = .done t 0) :
          ∃ nodes entry incount input, k nodes entry incount input = .done t 0 := by
        by_cases hg : (!r.graph) = true
        · exact ⟨_, _, _, _, (if_pos hg).symm.trans hk⟩
        · obtain ⟨u, hdr, -, hk⟩ := subRead_accepted ((if_neg hg).symm.trans hk) (by decide)
          obtain ⟨v, nb, -, hk⟩ := subRead_accepted hk (by decide)
          dsimp only at hk
          generalize hr : graphRefused _ _ = c at hk
          cases c with
          | none => exact ⟨_, _, _, _, hk⟩
          | some c => exact absurd (Sub.done.inj hk).2 (graphRefused_ne_zero hr)
      clear_value graphPart
      obtain ⟨nodes, entry, incount, input, h⟩ := hgraph _ h
      obtain ⟨-, recs, -, h⟩ := subRead_accepted h (by decide)
      obtain ⟨-, h⟩ := passed_of_accepted h (by decide)
      generalize hwrite : loaded.engWrite _ _ _ _ _ = w at h
      cases w with
      | viol u a k lv ipa => cases h
      | fault u a e =>
        dsimp only at h
        split at h <;> cases h
      | ok u x =>
        have hlaunches : u.launches = s.launches := (State.SameWork.of_engWrite hwrite).launches.trans hloaded
        dsimp -zeta only at h
        extract_lets id l base queued running clocked at h
        obtain rfl := (Sub.done.inj h).1
        have hclock : clocked.launches = running.launches := by
          unfold clocked
          split <;> rfl
        have hqueue : running.launches = s.launches ++ [l] := congrArg (· ++ [l]) hlaunches
        exact ⟨l, hclock.trans hqueue, ⟨rfl, rfl, rfl, rfl, rfl, rfl, rfl, rfl, rfl, rfl, rfl, rfl, rfl, rfl, rfl⟩,
          List.mem_append_right _ (List.mem_singleton_self _)⟩

/-! ## The two ways in -/

/-- A submission that a host makes is answered with its code, and one that is refused leaves nothing (R70). -/
theorem Sub.code_done (s t : State) (c : Nat) : (Sub.done t c).code s = .done (if c = 0 then t else s) c := by
  cases c <;> rfl

section HostSubmission

variable {s : State} {p : Part} {vf off : Nat} {bs : List Byte} {failed : Bool} {again : Event} (hp : s.partOfVf vf = some p)
  (hlen : bs.length = 64) (hoff : off % 64 = 0) (hopen : p.closing = false)

include hp hlen hoff hopen

theorem State.hostSubmit_stopped (htakes : s.ctxTakes (64 * vf + LaunchRec.f (BitVec.ofNat 512 (leNat bs)) 2 58 6) = false) :
    s.hostSubmit vf off bs failed again = s.emit (.host vf 0 [0x15]) := by
  unfold State.hostSubmit
  rw [hp]
  dsimp only
  rw [if_neg (by simp [hlen, hoff]), hopen, if_neg Bool.false_ne_true, htakes]
  exact if_pos rfl

theorem State.hostSubmit_done (htakes : s.ctxTakes (64 * vf + LaunchRec.f (BitVec.ofNat 512 (leNat bs)) 2 58 6) = true) {t : State} {c : Nat}
    (hsub : submit s p.firstCore (64 * vf + LaunchRec.f (BitVec.ofNat 512 (leNat bs)) 2 58 6) none failed (BitVec.ofNat 512 (leNat bs)) =
      .done t c) :
    s.hostSubmit vf off bs failed again = (if c = 0 then t else s).emit (.host vf 0 [BitVec.ofNat 8 c]) := by
  unfold State.hostSubmit
  rw [hp]
  dsimp only
  rw [if_neg (by simp [hlen, hoff]), hopen, if_neg Bool.false_ne_true, htakes]
  refine (if_neg (by simp)).trans ?_
  rw [hsub, Sub.code_done]

end HostSubmission

/-- A launch that is not DET takes its inputs as they are. -/
theorem State.detInput_plain {s : State} {n : Nat} (h : s.plainLaunch n) (kind : Nat) (loc val : DWord) (bs : List Byte) :
    s.detInput n kind loc val bs = (s, val, bs) := by
  unfold State.detInput
  split
  · rfl
  · rename_i l hl
    rw [h l hl]
    rfl

/-- The outcome fills LAUNCH's status when the launch of the group that issued it runs on. -/
theorem State.launchFill_done {s u t : State} {id c : Nat} {failed : Bool} {f : Fill} {gr : Group} {bs : List Byte}
    (hf : (s.fills.find? fun f => f.id == id && f.kind == 0) = some f) (hg : s.group? f.g = some gr)
    (hplain : (if c = 0 then t else s).plainLaunch gr.launch) (hc : c < 256) (hread : s.engRead gr.core gr.ctx .glob f.x.toNat 64 = .ok u bs)
    (htakes : u.ctxTakes gr.ctx = true)
    (hsub : submit u gr.core gr.ctx (some (wheelOf (wedgeOf gr.core))) failed (BitVec.ofNat 512 (leNat bs)) = .done t c)
    (hrun : ∀ l, ((if c = 0 then t else s).fillStatus f c).launch? gr.launch = some l → l.ended = false) :
    s.launchFill id failed = (if c = 0 then t else s).fillStatus f c := by
  unfold State.launchFill subRead
  rw [hf]
  dsimp only
  rw [hg]
  dsimp only
  rw [hread]
  dsimp only
  rw [htakes, if_neg (by decide), hsub, Sub.code_done]
  dsimp only
  rw [State.detInput_plain hplain]
  dsimp only
  have hval : (BitVec.ofNat 64 c).toNat = c := by
    rw [BitVec.toNat_ofNat]
    omega
  rw [hval]
  refine if_neg fun hend => ?_
  obtain ⟨l, hl, hle⟩ := (Option.any_eq_true ..).mp (Bool.and_eq_true_iff.mp hend).1
  rw [hrun l hl] at hle
  cases hle

end Sys2Proof.Machine
end

section
open Sys2Proof Sys2Proof.Machine Host

/-- Settles O54: the checks of a submission taken one by one, and the two ways it comes in. -/
theorem submissionEvents : Obligations.SubmissionEvents := by
  unfold Obligations.SubmissionEvents
  refine ⟨fun s t core ctx wheel failed r h => ?_, fun s p hp hlen hoff hopen => ⟨fun hf hearly => ?_, fun hlate => ⟨fun htakes => ?_,
    fun htakes t c hsub => ?_⟩⟩, fun s u t f gr bs c hf hg hs ht hc hread htakes hsub hrun => ?_⟩
  · obtain ⟨hgood, l, hq⟩ := submit_accepted h
    obtain ⟨hctx, hprio, hprog, hvat, hlanes, hv, hsc, htiles, hcompl, harea, hgraph, hco, hel, hend, hnext⟩ := hq.fields
    exact ⟨hgood, l, hq.launches, hctx, hprio, hprog, hvat, hlanes, hv, hsc, htiles, hcompl, harea, hgraph, hco, hel, hend, hnext, hq.event⟩
  · exact congrArg Outcome.next (if_pos (by simp [hf, hearly]))
  · exact congrArg Outcome.next ((if_neg (by rcases hlate with h | h <;> simp [h])).trans
      (State.hostSubmit_stopped hp hlen hoff hopen htakes))
  · exact congrArg Outcome.next ((if_neg (by rcases hlate with h | h <;> simp [h])).trans
      (State.hostSubmit_done hp hlen hoff hopen htakes hsub))
  · refine congrArg Outcome.next (State.launchFill_done hf hg ?_ hc hread htakes hsub hrun)
    split
    · exact ht
    · exact hs

end

section
/-! SUPPORT and PROOFS for O52: what an eviction and a restore leave of the groups and waves, and the placement of one cluster. -/

namespace Sys2Proof.Machine

open Host

/-! ## What surrenders, watches and acquires leave -/

/-- The number, the special registers and the V and S registers of a wave. -/
def Wave.file (v : Wave) : Nat × Nat × WaveRegs × List SReg × List VReg := (v.g, v.w, v.regs, v.sregs, v.vregs)

/-- The launches and the groups are the same, and the waves hold the same registers. -/
structure State.SameRoster (s t : State) : Prop where
  launches : t.launches = s.launches
  groups : t.groups = s.groups
  files : t.waves.map Wave.file = s.waves.map Wave.file

theorem State.SameRoster.refl (s : State) : State.SameRoster s s := ⟨rfl, rfl, rfl⟩

theorem State.SameRoster.trans {s t u : State} (h₁ : State.SameRoster s t) (h₂ : State.SameRoster t u) : State.SameRoster s u :=
  ⟨h₂.launches.trans h₁.launches, h₂.groups.trans h₁.groups, h₂.files.trans h₁.files⟩

theorem State.SameRoster.foldl {α : Type} {f : State → α → State} (l : List α) (h : ∀ s a, State.SameRoster s (f s a)) (s : State) :
    State.SameRoster s (l.foldl f s) :=
  List.foldlRecOn (motive := fun t => State.SameRoster s t) l f (.refl s) fun t ht a _ => ht.trans (h t a)

theorem State.MemOnly.sameRoster {s t : State} (h : State.MemOnly s t) : State.SameRoster s t :=
  ⟨h.sameWork.launches, h.field State.groups fun _ _ _ _ _ _ => rfl,
    congrArg (List.map Wave.file) (h.field State.waves fun _ _ _ _ _ _ => rfl)⟩

theorem State.writeBack_sameRoster (s : State) (core ctx : Nat) (sel : Nat → Bool) : State.SameRoster s (s.writeBack core ctx sel) :=
  ⟨rfl, rfl, rfl⟩

theorem State.invalidate_sameRoster (s : State) (core : Nat) : State.SameRoster s (s.invalidate core) := ⟨rfl, rfl, rfl⟩

theorem State.barWatch_sameRoster (s : State) (b : Bar) (more : Bool) : State.SameRoster s (s.barWatch b more) := by
  unfold State.barWatch
  split
  · split
    · exact (s.homeWrite_memOnly _ _).sameRoster
    · exact .refl s
  · exact ⟨rfl, rfl, rfl⟩
  · exact .refl s

theorem State.watchGroup_sameRoster (s : State) (g : Nat) (more : Bool) : State.SameRoster s (s.watchGroup g more) :=
  .foldl _ (fun s _ => s.barWatch_sameRoster _ more) s

theorem State.tellIds_sameRoster (s : State) (pad : Option Nat) (addr : Nat) (phase : BitVec 32) (ids : List Nat) :
    State.SameRoster s (s.tellIds pad addr phase ids) :=
  ⟨rfl, rfl, List.map_map⟩

theorem State.recheckWaits_sameRoster (s : State) (g : Nat) : State.SameRoster s (s.recheckWaits g) := by
  refine (s.watchGroup_sameRoster g true).trans (.foldl _ (fun s v => .foldl _ (fun s f => ?_) s) _)
  dsimp only
  split
  · split
    · split
      · exact s.tellIds_sameRoster _ _ _ _
      · exact .refl s
    · exact .refl s
  · exact .refl s

theorem State.secAcquire_sameRoster (s : State) (core ctx : Nat) (key : DWord) : State.SameRoster s (s.secAcquire core ctx key) := by
  unfold State.secAcquire
  dsimp only
  split
  · split <;> exact ⟨rfl, rfl, rfl⟩
  · exact ⟨rfl, rfl, rfl⟩

theorem State.lateGrants_sameRoster (s : State) (g : Nat) : State.SameRoster s (s.lateGrants g) := by
  unfold State.lateGrants
  refine .foldl _ (fun s c => State.SameRoster.trans (t := s.enterAcquires c c.granted) ?_ ?_) s
  case refine_2 => exact ⟨rfl, rfl, rfl⟩
  unfold State.enterAcquires
  split
  · exact .foldl _ (fun s l => s.secAcquire_sameRoster _ _ _) s
  · exact ⟨rfl, rfl, rfl⟩

/-! ## Images -/

theorem State.pageWrite_memOnly (s : State) (core ctx va n : Nat) (bs : List Byte) :
    State.MemOnly s (s.pageWrite core ctx va n bs).state := by
  induction n generalizing s va bs with
  | zero => exact .refl s
  | succ n ih =>
    have h := s.translate_memOnly core ctx va .engineWrite
    unfold State.pageWrite
    dsimp only
    split
    · exact .refl s
    · split
      · exact .refl s
      · split <;> rename_i heq <;> rw [heq] at h
        · split
          · exact h
          · exact h.trans ((State.homeWrite_memOnly _ _ _).trans (ih _ _ _))
        · exact h
        · exact h

theorem State.writeChunks_memOnly (s : State) (core ctx : Nat) (base : DWord) (cs : List Chunk) :
    State.MemOnly s (s.writeChunks core ctx base cs).state := by
  induction cs generalizing s with
  | nil => exact .refl s
  | cons c cs ih =>
    have h := s.pageWrite_memOnly core ctx (base.toNat + c.1) (c.2.length / 4096 + 2) c.2
    unfold State.writeChunks MemRes.andThen
    split <;> rename_i heq <;> rw [heq] at h
    · exact h.trans (ih _)
    · exact h
    · exact h

theorem MemRes.andThen_ok {α β : Type} {r : MemRes α} {f : State → α → MemRes β} {t : State} {y : β} (h : r.andThen f = .ok t y) :
    ∃ u x, r = .ok u x ∧ f u x = .ok t y := by
  cases r with
  | ok u x => exact ⟨u, x, rfl, h⟩
  | viol u a k l i => cases h
  | fault u a e => cases h

theorem State.SameRoster.of_writeChunks {s t : State} {core ctx : Nat} {base : DWord} {cs : List Chunk}
    (h : s.writeChunks core ctx base cs = .ok t ()) : State.SameRoster s t := by
  have := s.writeChunks_memOnly core ctx base cs
  rw [h] at this
  exact this.sameRoster

/-- What an image does not change of a group: its number, its cluster, and whether it holds a core. -/
def Group.post (g : Group) : Nat × Nat × Nat × Bool × Bool := (g.g, g.launch, g.cluster, g.freed, g.resident)

theorem State.saveGroup_keeps {s t : State} {core g : Nat} {l : Launch} (h : s.saveGroup core l g = .ok t ()) :
    t.launches = s.launches ∧ t.groups.map Group.post = s.groups.map Group.post := by
  unfold State.saveGroup at h
  split at h
  · cases h
    exact ⟨rfl, rfl⟩
  · obtain ⟨u, ⟨⟩, hslot, hmap⟩ := MemRes.andThen_ok h
    have hs := (State.SameRoster.of_writeChunks hslot).trans (.of_writeChunks hmap)
    refine ⟨hs.launches, (congrArg (List.map Group.post) hs.groups).trans ?_⟩
    refine List.map_map.trans (List.map_congr_left fun x _ => ?_)
    rw [Function.comp_apply]
    split <;> rfl

theorem State.saveGroups_keeps {s t : State} {core : Nat} {l : Launch} {gs : List Group} (h : s.saveGroups core l gs = .ok t ()) :
    t.launches = s.launches ∧ t.groups.map Group.post = s.groups.map Group.post := by
  induction gs generalizing s with
  | nil =>
    cases h
    exact ⟨rfl, rfl⟩
  | cons g gs ih =>
    obtain ⟨u, ⟨⟩, hone, hrest⟩ := MemRes.andThen_ok h
    obtain ⟨hl₁, hg₁⟩ := State.saveGroup_keeps hone
    obtain ⟨hl₂, hg₂⟩ := ih hrest
    exact ⟨hl₂.trans hl₁, hg₂.trans hg₁⟩

/-! ## Eviction (R422) -/

/-- An eviction that is done has put its cluster first among the launch's evicted ones, and none of the cluster's groups holds
a core. -/
theorem State.evict_done {s u : State} {l : Launch} {n : Nat} {retry : Event} (hl : s.launch? l.id = some l)
    (h : s.evict l n retry = .done u) : u.launch? l.id = some { l with evicted := n :: l.evicted } ∧
      ∀ g ∈ u.groups, g.launch = l.id → g.cluster = n → g.freed = false → g.resident = false := by
  unfold State.evict at h
  extract_lets gs mine halted stopped at h
  split at h
  · rename_i t _ hsave
    have hstopped : State.SameRoster s stopped :=
      State.SameRoster.trans (t := halted) ⟨rfl, rfl, rfl⟩ (.foldl _ (fun s c => s.writeBack_sameRoster c l.ctx _) halted)
    obtain ⟨hlaunches, hposts⟩ := State.saveGroups_keeps hsave
    rw [hstopped.launches] at hlaunches
    rw [hstopped.groups] at hposts
    extract_lets out watched at h
    cases h
    have hwatch : State.SameRoster out watched := .foldl _ (fun s g => s.watchGroup_sameRoster _ _) out
    constructor
    · refine State.launch?_updLaunch (s := watched.fresh.leaveVats _) (l := l) ?_ fun _ => rfl
      exact (congrArg (List.find? _) (hwatch.launches.trans hlaunches)).trans hl
    · intro g hg hlaunch hcluster hfreed
      replace hg : g ∈ out.groups := hwatch.groups ▸ hg
      obtain ⟨x, hx, rfl⟩ := List.mem_map.mp hg
      split at hlaunch
      · rename_i hmine
        rw [if_pos hmine]
      · rename_i hmine
        rw [if_neg hmine] at hcluster hfreed ⊢
        obtain ⟨y, hy, hpost⟩ := List.mem_map.mp (hposts ▸ List.mem_map_of_mem (f := Group.post) hx)
        obtain ⟨hyg, hyl, hyc, hyf, hyr⟩ : y.g = x.g ∧ y.launch = x.launch ∧ y.cluster = x.cluster ∧ y.freed = x.freed ∧
          y.resident = x.resident := by simpa [Group.post] using hpost
        by_contra hres
        refine hmine (List.any_eq_true.mpr ⟨y, ?_, beq_iff_eq.mpr hyg⟩)
        simp [gs, State.clusterGroups, hy, hyl, hlaunch, hyc, hcluster, hyf, hfreed, hyr, Bool.eq_true_of_not_eq_false hres]
  · cases h
  · cases h

/-! ## Restore (R423) -/

theorem find?_zip_of_mem {is cs : List Nat} (hn : is.Nodup) {i c : Nat} (h : (i, c) ∈ is.zip cs) :
    ((is.zip cs).find? fun x => x.1 == i) = some (i, c) := by
  induction is generalizing cs with
  | nil => cases h
  | cons j js ih =>
    cases cs with
    | nil => cases h
    | cons d ds =>
      obtain ⟨hj, hjs⟩ := List.nodup_cons.mp hn
      rw [List.zip_cons_cons] at h ⊢
      rcases List.mem_cons.mp h with he | h
      · cases he
        exact List.find?_cons_of_pos (beq_self_eq_true i)
      · have hne : j ≠ i := fun he => hj (he ▸ (List.of_mem_zip h).1)
        rw [List.find?_cons_of_neg (by simpa using hne)]
        exact ih hjs h

/-- The core that a restore gives a group of its cluster. -/
def newCore (gs : List Group) (cores : List Nat) (g : Nat) : Option Nat :=
  (((gs.map Group.g).zip cores).find? fun x => x.1 == g).map (·.2)

/-- A group that a restore of its cluster has brought back. -/
def Group.back (gs : List Group) (cores : List Nat) (g : Group) : Group :=
  if gs.any fun x => x.g == g.g then { g with core := (newCore gs cores g.g).getD g.core, resident := true, slot := none } else g

/-- A restore gives the groups of the cluster its cores in order, and touches no register of a wave. -/
theorem State.restoreOne_some {s : State} {p : Part} {l : Launch} {n : Nat} {cores : List Nat} (h : s.restoreCores p l n = some cores) :
    ∃ t, s.restoreOne p l n = some t ∧ t.groups = s.groups.map (Group.back (s.clusterGroups l.id n) cores) ∧
      t.waves.map Wave.file = s.waves.map Wave.file := by
  unfold State.restoreOne
  rw [h]
  dsimp -zeta only
  extract_lets gs coreOf mine placed listed fresh checked granted back cs kept
  have hall : State.SameRoster listed granted :=
    .trans (t := checked) (.trans (t := fresh) (.foldl _ (fun s c => s.invalidate_sameRoster c) _)
      (.foldl gs (fun s g => s.recheckWaits_sameRoster g.g) _)) (.foldl gs (fun s g => s.lateGrants_sameRoster g.g) _)
  exact ⟨_, rfl, hall.groups, hall.files⟩

/-- The groups of a cluster once a restore has brought them back. -/
theorem State.clusterGroups_back {s t : State} {launch n : Nat} {cores : List Nat}
    (ht : t.groups = s.groups.map (Group.back (s.clusterGroups launch n) cores))
    (hlen : cores.length = (s.clusterGroups launch n).length) (hn : ((s.clusterGroups launch n).map Group.g).Nodup) :
    ((t.clusterGroups launch n).map fun g => (g.g, g.core, g.resident, g.slot)) =
      ((s.clusterGroups launch n).map Group.g).zipWith (fun g c => (g, c, true, none)) cores := by
  have hback : t.clusterGroups launch n = (s.clusterGroups launch n).map (Group.back (s.clusterGroups launch n) cores) := by
    have hsame (gs : List Group) (g : Group) : ((g.back gs cores).launch == launch && (g.back gs cores).cluster == n && !(g.back gs cores).freed) =
        (g.launch == launch && g.cluster == n && !g.freed) := by
      unfold Group.back
      split <;> rfl
    rw [State.clusterGroups, ht, List.filter_map]
    exact congrArg (List.map _) (List.filter_congr fun g _ => hsame _ g)
  rw [hback, List.map_map]
  generalize s.clusterGroups launch n = gs at hlen hn
  refine List.ext_getElem (by simp [hlen]) fun k hk hk' => ?_
  have hkg : k < gs.length := by simpa using hk
  have hpair : (gs[k].g, cores[k]'(hlen ▸ hkg)) ∈ (gs.map Group.g).zip cores := by
    refine List.mem_iff_getElem.mpr ⟨k, by simp [hkg, hlen], by simp⟩
  have hcore : newCore gs cores gs[k].g = some (cores[k]'(hlen ▸ hkg)) := by rw [newCore, find?_zip_of_mem hn hpair, Option.map_some]
  have hmine : (gs.any fun x => x.g == gs[k].g) = true := List.any_eq_true.mpr ⟨gs[k], List.getElem_mem hkg, beq_self_eq_true _⟩
  simp [Group.back, hmine, hcore]

theorem State.ctxRuns_some {s : State} {ctx : Nat} (h : s.ctxRuns ctx = true) : ∃ c, s.ctx? ctx = some c ∧ c.phase = .running := by
  unfold State.ctxRuns at h
  split at h
  · rename_i c hc
    exact ⟨c, hc, by simpa using h⟩
  · cases h

theorem State.restoreCluster_done {s u₀ u t : State} {l : Launch} {p : Part} {n : Nat} (hl : s.launch? l.id = some l)
    (hp : s.partOf l.ctx = some p) (hruns : s.ctxRuns l.ctx = true) (hout : l.evicted.contains n = true) (hco : l.coresident = false)
    (hfits : s.restoreCores p l n ≠ none) (hread : s.reloadGroups (s.ctlCore l.ctx) l (s.clusterGroups l.id n) = .ok u₀ ())
    (hmap : u₀.freeMap (s.ctlCore l.ctx) l ((s.clusterGroups l.id n).filterMap Group.slot)
      ((s.clusterGroups l.id n).filterMap Group.slot) = .ok u ()) (hdone : u.restoreOne p l n = some t) :
    s.restoreCluster l.id n false = t := by
  obtain ⟨c, hc, hphase⟩ := State.ctxRuns_some hruns
  have hone (v : State) (hv : ∃ w, v.restoreOne p l n = some w) : v.restoreAll p l [n] = v.restoreOne p l n := by
    obtain ⟨w, hw⟩ := hv
    unfold State.restoreAll
    rw [hw]
    rfl
  obtain ⟨cores, hcores⟩ := Option.ne_none_iff_exists'.mp hfits
  obtain ⟨w, hw, -, -⟩ := State.restoreOne_some hcores
  unfold State.restoreCluster
  rw [hl]
  dsimp only
  rw [hp, hc]
  dsimp only
  rw [hco, if_neg Bool.false_ne_true, hone s ⟨w, hw⟩, hw, List.flatMap_cons, List.flatMap_nil, List.append_nil, hout, hphase,
    if_neg (by simp), if_neg Bool.false_ne_true, hread]
  dsimp only
  rw [hmap]
  dsimp only
  rw [hone u ⟨t, hdone⟩, hdone, Option.getD_some]

/-! ## Eligibility and placement (R71, R72) -/

/-- The conditions of a launch that are not met at the barriers' present phases. -/
def State.unmet (s : State) (l : Launch) : List (Nat × BitVec 32) :=
  l.deps.filter fun d => match s.depPhase l.ctx d.1 with | .ok ph => ph == d.2 | _ => true

/-- A launch has the conditions that are left, and with none left a turn of its partition's scheduler or of its graph. -/
structure State.Looked (s : State) (l : Launch) (left : List (Nat × BitVec 32)) (t : State) : Prop where
  launch : t.launch? l.id = some { l with deps := left, eligible := left.isEmpty }
  mem : t.mem = s.mem
  place : left = [] → l.graph = false → ∀ p, s.partOf l.ctx = some p → ⟨.clusterPlacement, { a := p.n }⟩ ∈ t.agenda
  node : left = [] → l.graph = true → ⟨.nodeGroupStart, { a := l.id, b := 0 }⟩ ∈ t.agenda

theorem State.tryEligible_looked {s : State} {l : Launch} (hl : s.launch? l.id = some l) (hel : l.eligible = false) (hend : l.ended = false) :
    s.Looked l (s.unmet l) (s.tryEligible l.id false) := by
  unfold State.tryEligible
  rw [hl]
  dsimp -zeta only
  rw [hel, hend, if_neg (by decide)]
  extract_lets seen left v again
  have hleft : left = s.unmet l := by
    show ((l.deps.map fun d => (d, s.depPhase l.ctx d.1)).filter _).map (·.1) = _
    rw [List.filter_map, List.map_map]
    exact List.map_id _
  have hset : v.launch? l.id = some { l with deps := left, eligible := left.isEmpty } := State.launch?_updLaunch hl fun _ => rfl
  rw [← hleft]
  by_cases hempty : left = []
  · rw [if_pos (by simp [hempty])]
    cases hgraph : l.graph with
    | true => exact ⟨hset, rfl, fun _ h => absurd (hgraph.symm.trans h) (by decide), fun _ _ => List.mem_append_left _ (List.mem_append_right _ (List.mem_singleton_self _))⟩
    | false =>
      refine ⟨hset, rfl, fun _ _ p hp => ?_, fun _ h => absurd (hgraph.symm.trans h) (by decide)⟩
      rw [if_neg Bool.false_ne_true, show v.partOf l.ctx = some p from hp]
      exact List.mem_append_right _ (List.mem_singleton_self _)
  · rw [if_neg (by simpa using hempty)]
    have hkeep (u : State) (hu : u.launches = v.launches ∧ u.mem = v.mem) : s.Looked l left u :=
      ⟨(congrArg (List.find? _) hu.1).trans hset, hu.2, fun h => absurd h hempty, fun h => absurd h hempty⟩
    refine hkeep _ ?_
    split
    · exact ⟨rfl, rfl⟩
    · rw [if_neg Bool.false_ne_true]
      split <;> exact ⟨rfl, rfl⟩

theorem State.placement_one {s : State} {p : Part} {l : Launch} {cores : List Nat} {n : Nat} (hp : s.part? n = some p)
    (hplace : s.placeable n = [l]) (hev : l.evicted = []) (hgraph : l.graph = false) (hco : l.coresident = false) (hdet : l.det = false)
    (hroom : s.findRoom p l.spec (count3 l.cdim) = some cores) :
    s.placement n = (((s.startCluster p l l.nextCluster cores).updLaunch l.id fun x => { x with nextCluster := l.nextCluster + 1 }).updPart n
      fun p => if (p.turnOf l.prio).isSome then p else { p with turns := p.turns ++ [(l.prio, vfOf l.ctx)] }).pushNew
        [⟨.clusterPlacement, { a := n }⟩] := by
  have htry : s.tryPlace p l = some ((s.startCluster p l l.nextCluster cores).updLaunch l.id fun x => { x with nextCluster := l.nextCluster + 1 }) := by
    unfold State.tryPlace Launch.wants State.placeAll State.roomFor
    rw [hev, hgraph, hco, hdet, if_neg Bool.false_ne_true, hroom]
    rfl
  unfold State.placement
  rw [hp]
  dsimp only
  rw [hplace, List.foldl_cons, List.foldl_nil, insertLaunch, List.findSome?_cons, htry]

theorem State.noteWaits_plain {s : State} (h : ∀ l ∈ s.launches, l.det = false ∨ l.ended = true) (n : Nat) : s.noteWaits n = s := by
  refine if_neg fun hany => ?_
  obtain ⟨l, hl, hle⟩ := List.any_eq_true.mp hany
  rcases h l hl with h | h <;> simp [h] at hle

/-- An eviction that is done frees its cores for the partition's scheduler. -/
theorem State.evictCluster_done {s u : State} {l : Launch} {n : Nat} (hl : s.launch? l.id = some l)
    (hne : (s.clusterGroups l.id n).filter Group.resident ≠ []) (hend : ((s.clusterGroups l.id n).filter Group.resident).all Group.ended = false)
    (hruns : s.ctxRuns l.ctx = true) (hbusy : s.clusterBusy ((s.clusterGroups l.id n).filter Group.resident) = false)
    (h : s.evict l n ⟨.clusterEviction, { a := l.id, b := n }⟩ = .done u) : s.evictCluster l.id n false = u.roomFree l.ctx := by
  obtain ⟨c, hc, hphase⟩ := State.ctxRuns_some hruns
  unfold State.evictCluster
  rw [hl]
  dsimp only
  rw [hc, hend, if_neg (by simpa [hphase] using hne), if_neg Bool.false_ne_true, hbusy, if_neg Bool.false_ne_true, h]

end Sys2Proof.Machine
end

section
open Sys2Proof Sys2Proof.Machine Host

/-- Settles O52: each event at its turn, by what its definition does once its checks have passed. -/
theorem placementEvents : Obligations.PlacementEvents := by
  unfold Obligations.PlacementEvents
  have hfirst {f : Nat} (h : f ≠ 1) : (f == 1) = false := beq_false_of_ne h
  refine ⟨fun s l hl hel hend hf => ?_, fun s p l cores hp hplace hev hgraph hco hdet hroom =>
      congrArg (fun u : State => Outcome.next (u.noteWaits s.ev.a)) (State.placement_one hp hplace hev hgraph hco hdet hroom),
    fun s n h => State.noteWaits_plain h n, fun s u l hl hf => ?_, fun s u₀ u l p cores hl hp hruns hout hco hf hfits => ?_⟩
  all_goals have hid : l.id = s.ev.a := State.launch?_id hl
  · rw [← hid] at hl ⊢
    obtain ⟨hlaunch, hmem, hplace, hnode⟩ := State.tryEligible_looked hl hel hend
    refine ⟨s.tryEligible l.id false, ?_, hlaunch, hmem, hplace, hnode⟩
    show Outcome.next (s.tryEligible s.ev.a (s.ev.f == 1)) = _
    rw [hfirst hf, hid]
  · rw [← hid] at hl ⊢
    intro gs hne hend hruns hbusy hevict
    obtain ⟨hlaunch, hgroups⟩ := State.evict_done hl hevict
    refine ⟨?_, ⟨_, hlaunch, rfl⟩, hgroups⟩
    show Outcome.next (s.evictCluster s.ev.a s.ev.b (s.ev.f == 1)) = _
    rw [hfirst hf, ← hid, State.evictCluster_done hl hne hend hruns hbusy hevict]
    rfl
  · intro slots hread hmap hcores hlen hn
    obtain ⟨t, hdone, hgroups, hfiles⟩ := State.restoreOne_some hcores
    rw [← hid] at hl hlen hn ⊢
    refine ⟨t, ?_, hfiles, State.clusterGroups_back hgroups hlen hn⟩
    show Outcome.next (s.restoreCluster s.ev.a s.ev.b (s.ev.f == 1)) = _
    rw [hfirst hf, ← hid, State.restoreCluster_done hl hp hruns hout hco hfits hread hmap hdone]

end

section
/-! PROOFS for O53: a DET graph's group waits for the core that its context finds when it is alone (R430). -/

namespace Sys2Proof.Machine

open Host

/-- A launch that has no room, with nothing to push out for it, leaves placement where it was. -/
theorem State.placement_waits {s : State} {p : Part} {l : Launch} {n : Nat} (hp : s.part? n = some p) (hplace : s.placeable n = [l])
    (htry : s.tryPlace p l = none) (hvictims : s.victims n l.prio none = []) : s.placement n = s := by
  unfold State.placement
  rw [hp]
  dsimp only
  rw [hplace, List.foldl_cons, List.foldl_nil, insertLaunch, List.findSome?_cons, htry]
  dsimp only
  rw [hvictims, State.evictionPlan, List.isEmpty_nil, Bool.not_true, Bool.and_false, if_neg Bool.false_ne_true]
  rfl

/-- A node whose shapes are loaded starts a group at once. -/
theorem State.startNode_loaded {s : State} {p : Part} {l : Launch} {n k core : Nat} {x : Node} (hx : l.nodes[n]? = some x)
    (hshapes : x.shapesLoaded = true ∨ x.shapeCnt = 0) (hfaults : ∀ f ∈ s.faults, ⟨.nodeGroupStart, { a := l.id, b := n }⟩ ∉ f.retry) :
    s.startNode p l n k core = some (s.beginNode p l x n k core) := by
  unfold State.startNode State.nodeImage
  rw [hx]
  dsimp only
  rw [if_neg (by simpa using hfaults), if_pos (by simpa using hshapes)]

theorem State.beginNode_seq (s : State) (p : Part) (l : Launch) (x : Node) (n k core : Nat) : (s.beginNode p l x n k core).seq = s.seq + 1 := by
  have hfirst : (s.firstSecovf l).seq = s.seq := by
    unfold State.firstSecovf
    split <;> rfl
  exact congrArg (· + 1) hfirst

/-- A node of one record that has no edge and no shapes. -/
def oneNode : Node := { mkNode 0 [] [] 0 with qcap := 1, srcs := [none], slots := [0], vatword := 0x080002, lanes := 32 }

/-- The DET graph of context 0. -/
def detGraph : Launch := { placeLaunch with det := true, graph := true, nodes := [oneNode] }

/-- Core 0 of the partition's one wedge is full of a group of context 1; its other cores are free. -/
def coreTaken : State := { State.reset with
  parts := [freshPart 0 1 0 0]
  vfs := [freshVf 0 (some 0)]
  ctxs := [{ freshCtx 0 1 with phase := .running }, { freshCtx 1 1 with phase := .running }]
  launches := [detGraph, { placeLaunch with id := 1, ctx := 1 }]
  groups := [{ placeGroup with launch := 1, ctx := 1, core := 0, granules := 64 }] }

theorem coreTaken_placeable : coreTaken.placeable 0 = [detGraph] := rfl
theorem coreTaken_findRoom : coreTaken.findRoom (freshPart 0 1 0 0) oneNode.spec 1 = some [1] := rfl
theorem coreTaken_roomFor : coreTaken.roomFor (freshPart 0 1 0 0) detGraph oneNode.spec 1 = none := rfl
theorem coreTaken_victims : coreTaken.victims 0 0 none = [] := rfl
theorem coreTaken_readyNode : coreTaken.readyNode (freshPart 0 1 0 0) detGraph = some (0, 1) := rfl

theorem coreTaken_tryPlace : coreTaken.tryPlace (freshPart 0 1 0 0) detGraph = none := by
  unfold State.tryPlace
  rw [if_neg (by decide), if_pos (by decide), coreTaken_readyNode]
  dsimp only
  rw [show (detGraph.nodes[0]?) = some oneNode from rfl, Option.bind_some, coreTaken_roomFor]

/-- The event leaves the group waiting, for all that cores 1 to 19 are free. -/
theorem exec_nodeGroupStart_coreTaken : exec .nodeGroupStart coreTaken = .next coreTaken :=
  congrArg Outcome.next (State.placement_waits (l := detGraph) rfl coreTaken_placeable coreTaken_tryPlace coreTaken_victims)

end Sys2Proof.Machine
end

section
open Sys2Proof Sys2Proof.Machine Host

/-- Refutes O53: its first statement has every graph take the core that is free now, but a DET graph takes only the one that its
context finds when it is alone in the partition (R430), and waits while another context holds that. -/
theorem not_graphEvents : ¬ Obligations.GraphEvents := by
  unfold Obligations.GraphEvents
  intro h
  have hstart : coreTaken.startNode (freshPart 0 1 0 0) detGraph 0 1 1 = some (coreTaken.beginNode (freshPart 0 1 0 0) detGraph oneNode 0 1 1) :=
    State.startNode_loaded rfl (.inr rfl) fun f hf => nomatch hf
  have hdeepest (m : Nat) (y : Node) (hm : m ≠ 0) (hy : detGraph.nodes[m]? = some y) : False := by
    rw [List.getElem?_eq_none (Nat.one_le_iff_ne_zero.mpr hm)] at hy
    cases hy
  have hexec := (h.1 coreTaken _ detGraph (freshPart 0 1 0 0) 0 1 1 oneNode [] rfl rfl rfl rfl rfl coreTaken_placeable (by decide) rfl rfl rfl
    coreTaken_findRoom (fun m y _ hm hy => (hdeepest m y hm hy).elim) hstart).1
  have hseq := congrArg State.seq (Outcome.next.inj (exec_nodeGroupStart_coreTaken.symm.trans hexec))
  exact (Nat.succ_ne_self coreTaken.seq) (hseq.trans (State.beginNode_seq coreTaken (freshPart 0 1 0 0) detGraph oneNode 0 1 1)).symm

end

section
/-! SUPPORT and PROOFS for O47: the queues of the service groups, replies and samples that land, and the splat engine. -/

namespace Sys2Proof.Machine

open Host

/-! ## Service queues (R86) -/

/-- Without a VATOMX first, the record taken is the oldest of the partition that may be taken. -/
theorem State.svcPick_oldest {s : State} {wheel part : Nat} {r : SvcRec}
    (h : (s.svc.find? fun r => r.wheel == wheel && r.part == part && s.svcReady r) = some r) (hr : r.req = none) :
    s.svcPick wheel part = some r := by
  unfold State.svcPick
  rw [← List.head?_filter] at h
  obtain ⟨rs, hrs⟩ := List.head?_eq_some_iff.mp h
  dsimp only
  rw [hrs]
  dsimp only
  rw [hr]
  rfl

theorem State.serviceTake_done {s : State} {wheel part : Nat} {r : SvcRec} (hnext : s.svcNext wheel = some part)
    (hpick : s.svcPick wheel part = some r) (hfrom : r.from_ = none) (hreq : r.req = none) :
    s.serviceTake wheel =
      let u := ((s.setTurn wheel part).wakeService wheel).svcServes wheel part r.ctx
      if r.dst = none then { u with
        svc := s.svc.filter fun x => x.id != r.id
        svcDone := (s.svcDone.filter fun x => !(x.1 == wheel && x.2.1 == part)) ++ [(wheel, part, s.svcAnswered wheel part + 1)] }
      else { u with
        svc := s.svc.map fun x => if x.id == r.id then { x with taken := true } else x
        agenda := s.agenda ++ laneEvents .serviceReplyLands r.id r.lanes } := by
  unfold State.serviceTake
  rw [hnext]
  dsimp only
  rw [hpick]
  dsimp only
  rw [hfrom, hreq]
  cases r.dst <;> rfl

theorem State.svcParts_sorted (s : State) (wheel : Nat) : (s.svcParts wheel).Pairwise (· < ·) :=
  (List.pairwise_lt_range (n := 20)).filter _

/-- The first of an ascending list that passes is the least that passes. -/
theorem find?_of_sorted {ps : List Nat} (h : ps.Pairwise (· < ·)) {test : Nat → Bool} {p : Nat} (hp : p ∈ ps) (ht : test p = true)
    (hleast : ∀ q ∈ ps, test q = true → p ≤ q) : ps.find? test = some p := by
  induction ps with
  | nil => cases hp
  | cons x xs ih =>
    obtain ⟨hx, hxs⟩ := List.pairwise_cons.mp h
    rcases List.mem_cons.mp hp with rfl | hp
    · exact List.find?_cons_of_pos ht
    · have hfail : ¬test x = true := fun htx => Nat.not_le_of_lt (hx p hp) (hleast x List.mem_cons_self htx)
      rw [List.find?_cons_of_neg hfail]
      exact ih hxs hp fun q hq => hleast q (List.mem_cons_of_mem _ hq)

theorem head?_of_sorted {ps : List Nat} (h : ps.Pairwise (· < ·)) {p : Nat} (hp : p ∈ ps) (hleast : ∀ q ∈ ps, p ≤ q) :
    ps.head? = some p := by
  cases ps with
  | nil => cases hp
  | cons x xs =>
    rcases List.mem_cons.mp hp with rfl | hp
    · rfl
    · exact absurd ((List.pairwise_cons.mp h).1 p hp) (Nat.not_lt_of_le (hleast x List.mem_cons_self))

/-- Round-robin: the next partition above the one served, or the lowest. -/
theorem State.svcNext_round {s : State} {wheel cur p : Nat} (hcur : (s.svcTurn.find? fun t => t.1 == wheel).map (·.2) = some cur)
    (hp : p ∈ s.svcParts wheel) (h : cur < p ∧ (∀ q ∈ s.svcParts wheel, cur < q → p ≤ q) ∨
      (∀ q ∈ s.svcParts wheel, q ≤ cur) ∧ ∀ q ∈ s.svcParts wheel, p ≤ q) : s.svcNext wheel = some p := by
  have hsorted := s.svcParts_sorted wheel
  obtain ⟨t, ht, rfl⟩ := Option.map_eq_some_iff.mp hcur
  unfold State.svcNext
  rw [ht]
  dsimp only
  rcases h with ⟨hlt, hleast⟩ | ⟨hall, hleast⟩
  · rw [find?_of_sorted hsorted hp (decide_eq_true hlt) fun q hq hlt => hleast q hq (of_decide_eq_true hlt)]
  · rw [List.find?_eq_none.mpr fun q hq => by simpa using hall q hq]
    exact head?_of_sorted hsorted hp hleast

/-! ## What lands in a lane (R113, R229) -/

/-- The lanes of a call or a sample that are left once one of them is done. -/
theorem LaneMask.getLsbD_drop (m : LaneMask) (l : Nat) (hl : m.getLsbD l = true) : (m &&& ~~~BitVec.ofNat 32 (2 ^ l)).getLsbD l = false := by
  have h32 : l < 32 := BitVec.lt_of_getLsbD hl
  rw [BitVec.getLsbD_and, BitVec.getLsbD_not, BitVec.getLsbD_ofNat, Nat.testBit_two_pow_self, decide_eq_true h32]
  exact Bool.and_false _

theorem append_halves (x y : Word) : BitVec.ofNat 32 ((x ++ y : BitVec 64).toNat / 2 ^ 32) = x ∧ BitVec.ofNat 32 (x ++ y : BitVec 64).toNat = y := by
  rw [toNat_append_eq]
  have hx := x.isLt
  have hy := y.isLt
  constructor <;> refine BitVec.eq_of_toNat_eq ?_ <;> rw [BitVec.toNat_ofNat] <;> omega

/-- A service call that has answered a lane. -/
def SvcRec.answered (r : SvcRec) (l : Nat) : LaneMask := r.lanes &&& ~~~BitVec.ofNat 32 (2 ^ l)

/-- The queues once a lane of a call has been answered. -/
def State.svcAnswer (s : State) (r : SvcRec) (id l : Nat) : State :=
  if r.answered l = 0 then ({ s with svc := s.svc.filter fun x => x.id != id } : State).svcCounts r.wheel r.part
  else { s with svc := s.svc.map fun x => if x.id == id then { x with lanes := r.answered l } else x }

theorem State.svcAnswer_keeps (s : State) (r : SvcRec) (id l : Nat) : (s.svcAnswer r id l).launches = s.launches ∧
    (s.svcAnswer r id l).groups = s.groups ∧ (s.svcAnswer r id l).waves = s.waves ∧ (s.svcAnswer r id l).mem = s.mem := by
  unfold State.svcAnswer
  split <;> exact ⟨rfl, rfl, rfl, rfl⟩

theorem State.svcAnswer_lane {s : State} {r : SvcRec} {l : Nat} (hl : r.lanes.getLsbD l = true) {y : SvcRec}
    (hy : y ∈ (s.svcAnswer r r.id l).svc) (hid : y.id = r.id) : y.lanes.getLsbD l = false := by
  unfold State.svcAnswer at hy
  split at hy
  · simpa [hid] using (List.mem_filter.mp hy).2
  · obtain ⟨x, -, rfl⟩ := List.mem_map.mp hy
    split
    · exact LaneMask.getLsbD_drop _ _ hl
    · rename_i hne
      rw [if_neg hne] at hid
      exact absurd (beq_iff_eq.mpr hid) hne

theorem State.replyLands_lane {s : State} {id l d : Nat} {r : SvcRec} {gr : Group} {v : Wave} {x : Word × Word}
    (hr : (s.svc.find? fun r => r.id == id && r.taken) = some r) (hl : r.lanes.getLsbD l = true) (hd : r.dst = some d)
    (hg : s.group? r.g = some gr) (hres : gr.resident = true) (hplain : s.plainLaunch gr.launch) (hv : s.wave? r.g r.w = some v)
    (hx : (Config.service r.service (r.args.getD l []) l).getD (0xFFFFFFFF, 0) = x) :
    (s.replyLands id l).mem = s.mem ∧
      (s.replyLands id l).wave? r.g r.w = some ((v.landV d l tI32 x.1 r.who).landV (d + 1) l tRAW x.2 r.who) ∧
      (s.replyLands id l).svc = (s.svcAnswer r id l).svc := by
  obtain ⟨hlaunches, hgroups, hwaves, hmem⟩ := s.svcAnswer_keeps r id l
  have hg' : (s.svcAnswer r id l).group? r.g = some gr := (congrArg (List.find? _) hgroups).trans hg
  have hplain' : (s.svcAnswer r id l).plainLaunch gr.launch := fun y hy => hplain y ((congrArg (List.find? _) hlaunches).symm.trans hy)
  have hv' : (s.svcAnswer r id l).wave? r.g r.w = some v := (congrArg (List.find? _) hwaves).trans hv
  have hexec : s.replyLands id l = ((s.svcAnswer r id l).updWave r.g r.w fun w =>
      (w.landV d l tI32 x.1 r.who).landV (d + 1) l tRAW x.2 r.who).invalidate gr.core := by
    obtain ⟨hhigh, hlow⟩ := append_halves x.1 x.2
    unfold State.replyLands
    rw [hr]
    dsimp -zeta only
    rw [hl, if_neg (by decide), hd]
    extract_lets left u ans
    have hans : ans = x := by
      rw [← hx]
      unfold ans
      cases Config.service r.service (r.args.getD l []) l <;> rfl
    rw [show u = s.svcAnswer r id l from rfl, hg']
    dsimp only
    rw [State.detInput_plain hplain', hans]
    dsimp only
    rw [hhigh, hlow]
    exact congrArg (fun t : State => t.invalidate gr.core) (State.resave_resident (s := (s.svcAnswer r id l).updWave r.g r.w _) hg' hres _)
  rw [hexec]
  exact ⟨hmem, State.wave?_updWave hv' fun w => ⟨rfl, rfl⟩, rfl⟩

theorem exec_sampleResultLands_lane {s : State} {m : Sample} {v : Wave} {gr : Group} (hm : (s.samples.find? fun m => m.id == s.ev.a) = some m)
    (hl : m.lanes.getLsbD s.ev.b = true) (hg : s.group? m.g = some gr) (hres : gr.resident = true) (hv : s.wave? m.g m.w = some v) :
    let x := fun k : Nat => BitVec.ofNat 32 ((m.vals.getD s.ev.b []).getD k 0)
    ∃ t, exec .sampleResultLands s = .next t ∧ t.mem = s.mem ∧
      t.wave? m.g m.w = some ((((v.landV m.dst s.ev.b tFP32 (x 0) m.who).landV (m.dst + 1) s.ev.b tFP32 (x 1) m.who).landV
        (m.dst + 2) s.ev.b tFP32 (x 2) m.who).landV (m.dst + 3) s.ev.b tFP32 (x 3) m.who) ∧
      ∀ y ∈ t.samples, y.id = m.id → y.lanes.getLsbD s.ev.b = false := by
  intro x
  let left := m.lanes &&& ~~~BitVec.ofNat 32 (2 ^ s.ev.b)
  let u : State := { s with samples := s.samples.filterMap fun x =>
    if x.id == m.id then (if left = 0 then none else some { x with lanes := left }) else some x }
  let land := fun w : Wave => (((w.landV m.dst s.ev.b tFP32 (x 0) m.who).landV (m.dst + 1) s.ev.b tFP32 (x 1) m.who).landV
    (m.dst + 2) s.ev.b tFP32 (x 2) m.who).landV (m.dst + 3) s.ev.b tFP32 (x 3) m.who
  have hexec : exec .sampleResultLands s = .next (u.updWave m.g m.w land) := by
    show execSampleResultLands s = _
    unfold execSampleResultLands
    rw [hm]
    dsimp only
    rw [hl, if_neg (by decide)]
    exact congrArg Outcome.next (State.resave_resident (s := u.updWave m.g m.w land) hg hres _)
  refine ⟨_, hexec, rfl, State.wave?_updWave (s := u) (f := land) hv fun w => ⟨rfl, rfl⟩, fun y hy hid => ?_⟩
  obtain ⟨z, -, hz⟩ := List.mem_filterMap.mp hy
  split at hz
  · split at hz
    · cases hz
    · cases hz
      exact LaneMask.getLsbD_drop _ _ hl
  · rename_i hne
    cases hz
    exact absurd (beq_iff_eq.mpr hid) hne

/-! ## The splat engine (R234) -/

section Splat

variable {s : State} {wedge : Nat} {c : Cmd} (hc : ((s.queueOf 4 wedge).find? fun c => s.cmdGoes c) = some c)
  (hf : (s.faults.any fun f => f.cmd == some c.id) = false)

include hc hf

theorem State.splatRun_tile {u w : State} {gr : Group} {rs : List SplatRec} (hg : s.group? c.g = some gr) (hmore : c.done < c.len)
    (hread : s.splatRecords gr.core c = .ok u rs) (htile : u.splatTile gr.core c rs = .ok w ()) :
    s.splatRun wedge = (w.updCmd c.id fun x => { x with started := true, done := x.done + 1 }).push .splatCommandRun { a := wedge } := by
  unfold State.splatRun
  rw [hc]
  dsimp only
  rw [hf, if_neg Bool.false_ne_true, if_neg (Nat.not_le_of_lt hmore), hg]
  dsimp only
  rw [hread]
  dsimp only [Cmd.access]
  rw [htile]
  rfl

theorem State.splatRun_complete (hdone : c.len ≤ c.done) (hbar : s.barWaits c ⟨.splatCommandRun, { a := wedge }⟩ = none) :
    s.splatRun wedge = if (s.cmdDone c false).queueOf 4 wedge = [] then s.cmdDone c false
      else (s.cmdDone c false).push .splatCommandRun { a := wedge } := by
  unfold State.splatRun
  rw [hc]
  dsimp only
  rw [hf, if_neg Bool.false_ne_true, if_pos hdone, hbar]
  simp only [List.isEmpty_iff]

end Splat

end Sys2Proof.Machine
end

section
open Sys2Proof Sys2Proof.Machine Host

/-- Settles O47: the service queues in their round, and what lands in one lane. -/
theorem unitEvents : Obligations.UnitEvents := by
  unfold Obligations.UnitEvents
  refine ⟨⟨fun s part r hnext hr hreq hfrom => ?_, fun s cur p hcur hp h => State.svcNext_round hcur hp h, fun s => ?_,
      fun s r d gr v x hr hl hd hg hres hplain hv hx => ?_, fun s r hr hlate => ?_⟩,
    fun s m v gr hm hl hg hres hv => exec_sampleResultLands_lane hm hl hg hres hv, fun s u w c gr rs hc hf hg => ?_⟩
  · have htake := State.serviceTake_done hnext (State.svcPick_oldest hr hreq) hfrom hreq
    exact ⟨fun hd => congrArg Outcome.next (htake.trans (if_pos hd)), fun hd => congrArg Outcome.next (htake.trans (if_neg hd))⟩
  · show Outcome.next (s.serviceTurn s.ev.a) = _
    simp only [State.serviceTurn, List.isEmpty_iff]
  · obtain ⟨hmem, hwave, hsvc⟩ := State.replyLands_lane hr hl hd hg hres hplain hv hx
    have hfound := List.find?_some hr
    rw [Bool.and_eq_true, beq_iff_eq] at hfound
    obtain ⟨hid, -⟩ := hfound
    refine ⟨_, rfl, hmem, hwave, fun y hy hyid => ?_⟩
    rw [show (s.replyLands s.ev.a s.ev.b).svc = _ from hsvc, ← hid] at hy
    exact State.svcAnswer_lane hl hy hyid
  · show Outcome.next (s.serviceLate s.ev.a) = _
    unfold State.serviceLate
    rw [hr]
    exact congrArg Outcome.next (if_neg (Nat.not_lt_of_le hlate))
  · exact ⟨fun hmore hread htile => congrArg Outcome.next (State.splatRun_tile hc hf hg hmore hread htile),
      fun hdone hbar => congrArg Outcome.next (State.splatRun_complete hc hf hdone hbar)⟩

end

section
/-! SUPPORT and PROOFS for O16: jumps through registers and calls. -/

namespace Sys2Proof.Machine

open Host

/-! ## The first lane of a mask that passes a test -/

theorem find?_lanesOf_eq_some {m : LaneMask} {p : Nat → Bool} {l : Nat} (hl : l < 32) (hm : m.getLsbD l = true) (hp : p l = true)
    (hlow : ∀ k < l, m.getLsbD k = true → p k = false) : (lanesOf m).find? p = some l := by
  rw [lanesOf, List.find?_filter, List.find?_range_eq_some]
  refine ⟨by simp [hm, hp], List.mem_range.mpr hl, fun k hk => ?_⟩
  by_cases hmk : m.getLsbD k = true
  · simp [hlow k hk hmk]
  · simp [hmk]

theorem mem_lanesOf {m : LaneMask} {l : Nat} : l ∈ lanesOf m ↔ l < 32 ∧ m.getLsbD l = true := by
  rw [lanesOf, List.mem_filter, List.mem_range]

/-! ## VJR and VJALR (R95) -/

/-- The target of lane l's jump through the pair V[a], V[a + 1]. -/
def jumpTarget (v : Wave) (a : BitVec 7) (l : Nat) : DWord := (v.vreg (a.toNat + 1)).lane l ++ (v.vreg a.toNat).lane l

/-- A lane's target is not a multiple of 4. -/
def misaligned (v : Wave) (a : BitVec 7) (l : Nat) : Bool := (jumpTarget v a l).toNat % 4 != 0

/-- A jump per lane passes its checks; with a link, V[d] and V[d + 1] are its destinations. -/
structure JumpUnit (s : State) (i : Iss) (link : Bool) (d a : BitVec 7) (ea : Bool) : Prop where
  word : WordUnit s i {} false [⟨0, false, a.toNat, 2, .bit, ea⟩] (if link then [(false, d.toNat), (false, d.toNat + 1)] else [])
  pair : a.toNat % 2 = 0
  range : vOk i.wv (a.toNat + 1) = true
  linkPair : link = true → d.toNat % 2 = 0 ∧ vDst i.wv d.toNat = true ∧ vDst i.wv (d.toNat + 1) = true
  unported : noPorts i.wv [⟨0, false, a.toNat, 2, .bit, ea⟩]

/-- The state once a jump has written its link. -/
def State.linked (s : State) (i : Iss) (link : Bool) (d : BitVec 7) : State :=
  if link then s.updCur i fun w =>
    (w.writeV d.toNat i.fr.live tADDR (List.replicate 32 ((i.c.pc + 4).setWidth 32))).writeV (d.toNat + 1) i.fr.live tADDR
      (List.replicate 32 (((i.c.pc + 4) >>> 32).setWidth 32))
  else s

section
variable {s : State} {i : Iss} {link : Bool} {d a : BitVec 7} {ea : Bool}

/-- What a jump per lane does once its checks have passed (R95): its lowest misaligned lane traps, or its lanes move. -/
def Iss.jump (i : Iss) (s : State) (link : Bool) (d a : BitVec 7) : Res :=
  match (lanesOf i.fr.live).find? (misaligned i.wv a) with
  | some l => .next (s.trap i 0x08 (jumpTarget i.wv a l) ((laneFilter i.fr.live (misaligned i.wv a)).setWidth 64))
  | none => .next ((s.linked i link d).splitUnit i
      (((lanesOf i.fr.live).foldl (fun acc l => insTarget (jumpTarget i.wv a l) acc) []).map fun t =>
        (laneFilter i.fr.live fun l => jumpTarget i.wv a l == t, i.fr.prio, t, false)))

theorem JumpUnit.exec (h : JumpUnit s i link d a ea) : exec (if link then .vjalr d a ea else .vjr a ea) s = i.jump s link d a := by
  have hword := h.word
  have hpop : s.popPorts i [⟨0, false, a.toNat, 2, .bit, ea⟩] = s := State.popPorts_none (State.iss?_eq hword.issuing).2.2.1 h.unported
  cases link with
  | false =>
    refine (State.issue_go hword (by simp [even, h.pair, h.range])).trans ?_
    dsimp only
    rw [hpop, State.withIss_eq hword.issuing]
    rfl
  | true =>
    obtain ⟨hd, hlo, hhi⟩ := h.linkPair rfl
    refine (State.issue_go hword (by simp [even, h.pair, h.range, hd, hlo, hhi])).trans ?_
    dsimp only
    rw [hpop, State.withIss_eq hword.issuing]
    rfl

theorem Iss.jump_traps {l : Nat} (hl : (lanesOf i.fr.live).find? (misaligned i.wv a) = some l) :
    i.jump s link d a =
      .next (s.trap i 0x08 (jumpTarget i.wv a l) ((laneFilter i.fr.live (misaligned i.wv a)).setWidth 64)) := by
  rw [Iss.jump, hl]

theorem Iss.jump_goes (hl : (lanesOf i.fr.live).find? (misaligned i.wv a) = none) :
    i.jump s link d a = .next ((s.linked i link d).splitUnit i
      (((lanesOf i.fr.live).foldl (fun acc l => insTarget (jumpTarget i.wv a l) acc) []).map fun t =>
        (laneFilter i.fr.live fun l => jumpTarget i.wv a l == t, i.fr.prio, t, false))) := by
  rw [Iss.jump, hl]

end

/-! ## SCALL and SJR (R96) -/

theorem exec_scall {s : State} {i : Iss} {d : BitVec 7} {n : BitVec 18} (h : WordUnit s i { imm := true } false [] [(true, d.toNat)])
    (hd : sOk i.wv d.toNat = true) :
    exec (.scall d n) s = .next ((s.updCur i fun w => w.setS d.toNat (i.c.pc + 4) tADDR).splitUnit i
      [(i.fr.live, i.fr.prio, i.target n, false)]) := by
  refine (State.issue_go h hd).trans ?_
  rw [branchTarget_eq_target i (by decide)]
  rfl

theorem exec_sjr {s : State} {i : Iss} {d a : BitVec 7} (h : WordUnit s i {} false [usrc 0 a .bit] [(true, d.toNat)])
    (hd : sOk i.wv d.toNat = true) (ha : sOk i.wv a.toNat = true) :
    let t := (i.wv.sreg a.toNat).val
    exec (.sjr d a) s = .next (if t.toNat % 4 = 0
      then (s.updCur i fun w => w.setS d.toNat (i.c.pc + 4) tADDR).splitUnit i [(i.fr.live, i.fr.prio, t, false)]
      else s.trap i 0x08 t (i.fr.live.setWidth 64)) :=
  (State.issue_go h (Bool.and_eq_true_iff.mpr ⟨hd, ha⟩)).trans ((ite_not ..).trans (apply_ite Outcome.next _ _ _).symm)

end Sys2Proof.Machine
end

section
open Sys2Proof Sys2Proof.Machine Host

/-- Settles O16: each jump by its equation; the lanes' jump turns on whether some lane of the fragment is misaligned, and which is the
lowest. -/
theorem jumpWords : Obligations.JumpWords := by
  unfold Obligations.JumpWords
  refine ⟨fun s i a d ea link => ?_, fun s i d n => exec_scall, fun s i d a => exec_sjr⟩
  intro tgt ts src dsts hword hpair hrange hlink hports
  have hjump : JumpUnit s i link d a ea := ⟨hword, hpair, hrange, hlink, hports⟩
  refine ⟨fun l hl hlive hbad hlow => hjump.exec.trans (Iss.jump_traps ?_), fun hall => hjump.exec.trans (Iss.jump_goes ?_)⟩
  · exact find?_lanesOf_eq_some hl hlive (bne_iff_ne.mpr hbad) fun k hk hkl => bne_eq_false_iff_eq.mpr (hlow k hk hkl)
  · refine List.find?_eq_none.mpr fun l hl => ?_
    obtain ⟨hlt, hlive⟩ := mem_lanesOf.mp hl
    have hgood : misaligned i.wv a l = false := bne_eq_false_iff_eq.mpr (hall l hlt hlive)
    rw [hgood]
    exact Bool.false_ne_true

end

section
/-! SUPPORT and PROOFS for O18: the trap words, and the lanes that VTRAP splits off. -/

namespace Sys2Proof.Machine

open Host

/-! ## TRAP and EBREAK (R400, R402) -/

theorem exec_trap {s : State} {i : Iss} {a : BitVec 7} (h : WordUnit s i {} false [usrc 0 a .bit] []) (ha : sOk i.wv a.toNat = true) :
    exec (.trap a) s = .next (s.trap i 0x0B 0 ((i.wv.sreg a.toNat).val.setWidth 32 ++ i.fr.live : BitVec 64)) :=
  State.issue_go h ha

theorem exec_ebreak {s : State} {i : Iss} (h : WordUnit s i {} false [] []) : exec .ebreak s = .next (s.trap i 0x0C 0 0) :=
  State.issue_go h rfl

/-! ## VTRAP (R98) -/

/-- Some lanes of a fragment, and the rest of them. -/
theorem PartsOf.lanes_and_rest {f : Frag} {m : LaneMask} (hsub : m &&& f.live = m) (hsome : m ≠ 0) (hrest : m ≠ f.live) (p q : BitVec 4)
    (x y : DWord) : PartsOf f [(m, p, x, false), (f.live &&& ~~~m, q, y, false)] where
  nonempty r hr := by
    rcases List.mem_pair.mp hr with rfl | rfl
    · exact hsome
    · intro hzero
      refine hrest (BitVec.eq_of_getLsbD_eq fun l _ => ?_)
      have h1 := congrArg (BitVec.getLsbD · l) hsub
      have h2 := congrArg (BitVec.getLsbD · l) hzero
      simp only [BitVec.getLsbD_and, BitVec.getLsbD_not] at h1 h2
      cases hm : m.getLsbD l <;> cases hf : f.live.getLsbD l <;> simp_all
  disjoint := by
    refine List.pairwise_pair.mpr (LaneMask.and_eq_zero_iff.mpr fun l hl => ?_)
    simp [hl]
  union := by
    refine BitVec.eq_of_getLsbD_eq fun l hlt => ?_
    have h1 := congrArg (BitVec.getLsbD · l) hsub
    simp only [BitVec.getLsbD_and] at h1
    simp only [List.foldl_cons, List.foldl_nil, BitVec.getLsbD_or, BitVec.getLsbD_and, BitVec.getLsbD_not, hlt]
    cases hm : m.getLsbD l <;> cases hf : f.live.getLsbD l <;> simp_all

theorem laneFilter_and (m : LaneMask) (p : Nat → Bool) : laneFilter m p &&& m = laneFilter m p := by
  refine BitVec.eq_of_getLsbD_eq fun l _ => ?_
  rw [BitVec.getLsbD_and, getLsbD_laneFilter]
  cases m.getLsbD l <;> simp

/-- Among fragments that are apart, a test that fixes the lanes finds the one fragment that has them. -/
theorem FragsApart.find?_of_live {fs : List Frag} (h : FragsApart fs) {f : Frag} (hf : f ∈ fs) {p : Frag → Bool} (hp : p f = true)
    (hlive : ∀ x, p x = true → x.live = f.live) : fs.find? p = some f := by
  cases hfind : fs.find? p with
  | none => exact absurd hp (List.find?_eq_none.mp hfind f hf)
  | some g =>
    have hg := hlive g (List.find?_some hfind)
    by_contra hne
    have hd := h.disjoint (List.mem_of_find?_eq_some hfind) hf fun he => hne (congrArg some he)
    rw [hg, BitVec.and_self] at hd
    exact (h.2.1 f hf).2 hd

/-- The lanes of the issuing fragment that VTRAP traps. -/
def Iss.vtrapHit (i : Iss) (a : BitVec 7) : LaneMask := laneFilter i.fr.live fun l => bitsOf i.wv a l != 0

/-- What VTRAP makes of the issuing fragment's lanes: those that trap, at the unit, and the others, at the next word. -/
def Iss.vtrapParts (i : Iss) (a : BitVec 7) : List LanePart :=
  [(i.vtrapHit a, i.fr.prio, i.c.unitPc, false), (i.fr.live &&& ~~~i.vtrapHit a, i.fr.prio, i.c.pc + 4, false)]

/-- The fragment of the lanes that trap, and that of the others. -/
def Iss.vtrapFrag (i : Iss) (a : BitVec 7) : Frag :=
  i.fr.part (freeId (i.wv.frags.map Frag.id)) (i.vtrapHit a, i.fr.prio, i.c.unitPc, false)
def Iss.vtrapRest (i : Iss) (a : BitVec 7) : Frag :=
  i.fr.part (freeId (freeId (i.wv.frags.map Frag.id) :: i.wv.frags.map Frag.id))
    (i.fr.live &&& ~~~i.vtrapHit a, i.fr.prio, i.c.pc + 4, false)

/-- The state whose issuing fragment has split. -/
def State.vtrapSplit (s : State) (i : Iss) (a : BitVec 7) : State :=
  s.updCur i fun w => match w.frag? i.c.f with
    | some f => w.split f [(i.vtrapHit a, f.prio, i.c.unitPc, false), (f.live &&& ~~~i.vtrapHit a, f.prio, i.c.pc + 4, false)]
    | none => w

/-- What VTRAP does once its checks have passed: no lane traps, all do, or those that do split off. -/
def Iss.vtrap (i : Iss) (s : State) (a : BitVec 7) : Res :=
  if i.vtrapHit a = 0 then .next (s.retire i)
  else if i.vtrapHit a = i.fr.live then .next (s.trap i 0x0B 0 ((i.vtrapHit a).setWidth 64))
  else match (s.vtrapSplit i a).wave? i.c.g i.c.w with
    | some w => match w.frags.find? fun f => f.live == i.vtrapHit a && f.parent == i.fr.id && f.pc == i.c.unitPc with
      | some f => .next ((s.vtrapSplit i a).trapFrag i f 0x0B 0 ((i.vtrapHit a).setWidth 64) none)
      | none => .next (s.vtrapSplit i a).endUnit
    | none => .next (s.vtrapSplit i a).endUnit

theorem exec_vtrap {s : State} {i : Iss} {a : BitVec 7} {ea : Bool} (h : WordUnit s i {} false [vsrc 0 a .bit ea] [])
    (ha : vOk i.wv a.toNat = true) (hp : noPorts i.wv [vsrc 0 a .bit ea]) : exec (.vtrap a ea) s = i.vtrap s a := by
  have hpop : s.popPorts i [⟨0, false, a.toNat, 1, .bit, ea⟩] = s := State.popPorts_none (State.iss?_eq h.issuing).2.2.1 hp
  refine (State.issue_go h ha).trans ?_
  dsimp only
  rw [hpop, State.withIss_eq h.issuing]
  rfl

section
variable {s : State} {i : Iss} {a : BitVec 7}

theorem Iss.vtrapSplit_frags (i : Iss) (a : BitVec 7) : (i.wv.split i.fr (i.vtrapParts a)).frags =
    (i.wv.frags.filter fun x => x.id != i.fr.id) ++ [i.vtrapFrag a, i.vtrapRest a] :=
  congrArg Wave.frags (i.wv.split_frags i.fr _ _ [])

theorem State.vtrapSplit_wave (h : s.iss? = some i) :
    (s.vtrapSplit i a).wave? i.c.g i.c.w = some (i.wv.split i.fr (i.vtrapParts a)) := by
  obtain ⟨-, -, hwave, hfrag, -⟩ := State.iss?_eq h
  refine (State.wave?_updWave hwave fun w => ?_).trans ?_
  · split <;> exact ⟨rfl, rfl⟩
  · rw [hfrag]
    rfl

/-- The lanes that trap are in the wave once split, and so are the others, in another fragment. -/
theorem Iss.vtrapSplit_apart (h : s.iss? = some i) (hapart : i.wv.Apart) (hsome : i.vtrapHit a ≠ 0) (hrest : i.vtrapHit a ≠ i.fr.live) :
    FragsApart (i.wv.split i.fr (i.vtrapParts a)).frags ∧ (i.vtrapRest a).id ≠ (i.vtrapFrag a).id := by
  obtain ⟨-, -, -, hfrag, -⟩ := State.iss?_eq h
  have hparts : PartsOf i.fr (i.vtrapParts a) := PartsOf.lanes_and_rest (laneFilter_and _ _) hsome hrest ..
  have hsplit := (Wave.split_leaves hapart (List.mem_of_find?_eq_some hfrag) hparts).1.apart
  refine ⟨hsplit, fun he => ?_⟩
  have hnodup := hsplit.1
  rw [i.vtrapSplit_frags, List.map_append] at hnodup
  have hpair := (List.nodup_append.mp hnodup).2.1
  simp [he] at hpair

theorem Iss.vtrap_some (h : s.iss? = some i) (hapart : i.wv.Apart) (hsome : i.vtrapHit a ≠ 0) (hrest : i.vtrapHit a ≠ i.fr.live) :
    i.vtrap s a = .next ((s.vtrapSplit i a).trapFrag i (i.vtrapFrag a) 0x0B 0 ((i.vtrapHit a).setWidth 64) none) := by
  have hfind : (i.wv.split i.fr (i.vtrapParts a)).frags.find?
      (fun f => f.live == i.vtrapHit a && f.parent == i.fr.id && f.pc == i.c.unitPc) = some (i.vtrapFrag a) := by
    refine FragsApart.find?_of_live (vtrapSplit_apart h hapart hsome hrest).1 ?_ ?_ fun x hx => ?_
    · rw [i.vtrapSplit_frags]
      simp
    · simp [Iss.vtrapFrag, Frag.part]
    · rw [Bool.and_eq_true, Bool.and_eq_true, beq_iff_eq] at hx
      exact hx.1.1
  rw [Iss.vtrap, if_neg hsome, if_neg hrest, State.vtrapSplit_wave h]
  dsimp only
  rw [hfind]

/-- R98: where only some lanes trap, they enter the handler as a fragment of their own, and the others go on. -/
theorem Iss.vtrap_enters (h : s.iss? = some i) (hapart : i.wv.Apart) (hsome : i.vtrapHit a ≠ 0) (hrest : i.vtrapHit a ≠ i.fr.live)
    (htvec : i.wv.regs.tvec ≠ 0) (hframe : i.fr.frame = none) :
    ∃ t v x y fm, i.vtrap s a = .next t ∧ t.wave? i.c.g i.c.w = some v ∧ x ∈ v.frags ∧ y ∈ v.frags ∧ fm ∈ v.frames ∧
      x.live = i.vtrapHit a ∧ x.pc = trapEntry i.wv.regs.tvec ∧ x.prio = 15 ∧ x.parent = i.fr.id ∧ x.frame = some fm.slot ∧
      y.live = i.fr.live &&& ~~~i.vtrapHit a ∧ y.pc = i.c.pc + 4 ∧ y.prio = i.fr.prio ∧ y.parent = i.fr.id ∧ y.frame = none ∧
      fm.cause = 0x0B ∧ fm.faddr = 0 ∧ fm.fpc = i.c.unitPc ∧ fm.finfo = (i.vtrapHit a).setWidth 64 ∧ fm.fid = x.id ∧
      fm.fparent = i.fr.id ∧ fm.fsib = i.fr.live &&& ~~~i.vtrapHit a ∧ v.vregs = i.wv.vregs ∧ v.sregs = i.wv.sregs ∧ t.mem = s.mem := by
  have henter := (s.vtrapSplit i a).trapFrag_enter (f := i.vtrapFrag a) hframe htvec 0x0B 0 ((i.vtrapHit a).setWidth 64) none
  have hne := (vtrapSplit_apart h hapart hsome hrest).2
  have hx : i.vtrapFrag a ∈ (i.wv.split i.fr (i.vtrapParts a)).frags := by simp [i.vtrapSplit_frags]
  have hy : i.vtrapRest a ∈ (i.wv.split i.fr (i.vtrapParts a)).frags := by simp [i.vtrapSplit_frags]
  refine ⟨_, _, _, i.vtrapRest a, _, (vtrap_some h hapart hsome hrest).trans (congrArg Outcome.next henter),
    State.wave?_updWave (State.vtrapSplit_wave h) fun _ => ⟨rfl, rfl⟩, List.mem_map_of_mem hx,
    List.mem_map.mpr ⟨_, hy, if_neg fun he => hne (beq_iff_eq.mp he)⟩, List.mem_append_right _ (List.mem_singleton_self _), ?_⟩
  rw [if_pos (beq_self_eq_true _)]
  exact ⟨rfl, rfl, rfl, rfl, rfl, rfl, rfl, rfl, rfl, hframe, rfl, rfl, rfl, rfl, rfl, rfl, rfl, rfl, rfl, rfl⟩

end

end Sys2Proof.Machine
end

section
open Sys2Proof Sys2Proof.Machine Host

/-- Settles O18: the trap words by their equations, and the lanes that VTRAP splits off by `Iss.vtrap_enters`. -/
theorem trapWords : Obligations.TrapWords := by
  unfold Obligations.TrapWords
  refine ⟨fun s i a => exec_trap, fun s i => exec_ebreak, fun s i a ea h ha hp => ?_⟩
  rw [exec_vtrap h ha hp]
  exact ⟨fun hnone => if_pos hnone, fun hsome hall => (if_neg hsome).trans (if_pos hall),
    fun hsome hrest htvec hframe hapart => Iss.vtrap_enters h.issuing hapart hsome hrest htvec hframe⟩

end

section
/-! SUPPORT and PROOFS for O44: the words whose work is done by services and engines. -/

namespace Sys2Proof.Machine

open Host

/-! ## Registers that a word leaves empty (R137) -/

theorem State.updCur_self (s : State) (i : Iss) : (s.updCur i fun w => w) = s := by
  simp [State.updCur, State.updWave]

/-- The n registers from V[d] on, empty for the lanes of a producer. -/
def Wave.emptySpan (v : Wave) (d n : Nat) (who : LaneMask) : Wave := (List.range n).foldl (fun v k => v.emptyV (d + k) who) v

theorem Wave.emptySpan_succ (v : Wave) (d n : Nat) (who : LaneMask) :
    v.emptySpan d (n + 1) who = (v.emptySpan d n who).emptyV (d + n) who := by
  rw [Wave.emptySpan, List.range_succ, List.foldl_append]
  rfl

theorem Wave.emptySpan_eq (v : Wave) (d n : Nat) (who : LaneMask) :
    v.emptySpan d n who = { v with vregs := (v.emptySpan d n who).vregs } := by
  induction n with
  | zero => rfl
  | succ n ih => rw [Wave.emptySpan_succ, ih]; rfl

theorem Wave.emptySpan_sregs (v : Wave) (d n : Nat) (who : LaneMask) : (v.emptySpan d n who).sregs = v.sregs := by
  rw [Wave.emptySpan_eq]

theorem Wave.emptySpan_key (v : Wave) (d n : Nat) (who : LaneMask) : (v.emptySpan d n who).g = v.g ∧ (v.emptySpan d n who).w = v.w := by
  rw [Wave.emptySpan_eq]
  exact ⟨rfl, rfl⟩

theorem Wave.emptySpan_length (v : Wave) (d n : Nat) (who : LaneMask) : (v.emptySpan d n who).vregs.length = v.vregs.length := by
  induction n with
  | zero => rfl
  | succ n ih => rw [Wave.emptySpan_succ, Wave.emptyV, List.length_set, ih]

theorem Wave.emptyV_vreg (v : Wave) {n : Nat} (hn : n < v.vregs.length) (who : LaneMask) (m : Nat) :
    (v.emptyV n who).vreg m = if m = n then { v.vreg n with pend := who } else v.vreg m := by
  unfold Wave.emptyV Wave.vreg
  simp only [List.getD_eq_getElem?_getD, List.getElem?_set]
  by_cases h : n = m
  · subst h
    simp [hn]
  · simp [h, Ne.symm h]

theorem Wave.emptySpan_vreg (v : Wave) {d n : Nat} (hn : ∀ k < n, d + k < v.vregs.length) (who : LaneMask) (m : Nat) :
    (v.emptySpan d n who).vreg m = if d ≤ m ∧ m < d + n then { v.vreg m with pend := who } else v.vreg m := by
  induction n with
  | zero => rw [if_neg (by omega)]; rfl
  | succ n ih =>
    have hprev := ih fun k hk => hn k (Nat.lt_succ_of_lt hk)
    rw [Wave.emptySpan_succ, Wave.emptyV_vreg _ (by rw [Wave.emptySpan_length]; exact hn n (Nat.lt_succ_self n))]
    by_cases hm : m = d + n
    · subst hm
      rw [if_pos rfl, if_pos (by omega), hprev, if_neg (by omega)]
    · rw [if_neg hm, hprev]
      exact if_congr (by omega) rfl rfl

/-- What leaves a wave's registers from V[d] on empty leaves it the rest of its registers. -/
theorem State.emptied_wave {s : State} {i : Iss} {v : Wave} (h : s.wave? i.c.g i.c.w = some v) {d n : Nat} (who : LaneMask)
    (hd : ∀ k < n, d + k < v.vregs.length) :
    ∃ w, ((s.updCur i fun w => w.emptySpan d n who).retire i).wave? i.c.g i.c.w = some w ∧
      (∀ k < n, w.vreg (d + k) = { v.vreg (d + k) with pend := who }) ∧ w.sregs = v.sregs := by
  have hwave := State.wave?_updWave h fun w => w.emptySpan_key d n who
  have hvreg {k : Nat} (hk : k < n) : (v.emptySpan d n who).vreg (d + k) = { v.vreg (d + k) with pend := who } :=
    (v.emptySpan_vreg hd who _).trans (if_pos ⟨Nat.le_add_right .., Nat.add_lt_add_left hk d⟩)
  exact ⟨_, State.retire_wave hwave, fun k hk => hvreg hk, v.emptySpan_sregs d n who⟩

/-! ## Sources from a row of registers -/

/-- n FP32 sources from V[a] on. -/
def rowSrcs (a n : Nat) (ea : Bool) : List Src := (List.range n).map fun k => ⟨0, false, a + k, 1, .fp32, ea⟩

theorem getD_map_rowSrcs {β : Type} (g : Src → β) {a n k : Nat} {ea : Bool} (hk : k < n) (rest : List Src) (y : β) :
    ((rowSrcs a n ea ++ rest).map g).getD k y = g ⟨0, false, a + k, 1, .fp32, ea⟩ := by
  simp [rowSrcs, List.getD_eq_getElem?_getD, List.getElem?_append_left, hk]

theorem readSrc_lanes (v : Wave) (f n : Nat) (rd : Reader) (e : Bool) :
    (readSrc v ⟨f, false, n, 1, rd, e⟩).1 = (List.range 32).map fun l => laneOperand v rd n l := by
  simp [readSrc, laneOperand, regsOf]

/-! ## VSVC and VSVCN (R113) -/

/-- The destinations of a service call. -/
def callDsts : Option Nat → List (Bool × Nat)
  | some d => [(false, d), (false, d + 1)]
  | none => []

/-- The record that a service call queues. -/
def Iss.call (i : Iss) (s : State) (a b : BitVec 7) (dst : Option Nat) : SvcRec :=
  ⟨s.seq, wheelOf (wedgeOf i.grp.core), match s.partOf i.grp.ctx with | some p => p.n | none => 0, i.grp.ctx, i.c.g, i.c.w, i.fr.live, dst,
    (i.wv.sreg b.toNat).val, (List.range 32).map fun l => (List.range 4).map fun k => (i.wv.vreg (a.toNat + k)).lane l, 0, false, none,
    i.fr.live, s.vclockOf i.grp.ctx + 65536, none⟩

/-- The state once a call's record is queued; the call is a release. -/
def State.callFiled (s : State) (i : Iss) (r : SvcRec) : State :=
  ({ (s.released i).fresh with svc := s.svc ++ [r] } : State).push .serviceBatch { a := r.wheel }

/-- What a service call needs beside its operands: no access that it waits for, and a place in its queue (R86). -/
structure CallFree (s : State) (i : Iss) : Prop where
  free : s.accessWait i.c.g i.c.w true true = none
  thawed : ∀ p, s.partOf i.grp.ctx = some p → p.frozen = false
  room : s.svcCount (wheelOf (wedgeOf i.grp.core)) (match s.partOf i.grp.ctx with | some p => p.n | none => 0) < 256

theorem serviceWord_go {s : State} {i : Iss} {dst : Option Nat} {a b : BitVec 7} {ea eb : Bool}
    (h : WordUnit s i {} false [⟨0, false, a.toNat, 4, .bit, ea⟩, ⟨1, true, b.toNat, 1, .bit, eb⟩] (callDsts dst))
    (ha : vOk i.wv (a.toNat + 3) = true) (hb : sOk i.wv b.toNat = true) (hd : ∀ x ∈ callDsts dst, vDst i.wv x.2 = true)
    (hp : noPorts i.wv [⟨0, false, a.toNat, 4, .bit, ea⟩, ⟨1, true, b.toNat, 1, .bit, eb⟩]) (hf : CallFree s i) :
    serviceWord dst a b ea eb s = .next (((s.callFiled i (i.call s a b dst)).updCur i fun v =>
      (callDsts dst).foldl (fun v x => v.emptyV x.2 i.fr.live) v).retire i) := by
  have hwave := (State.iss?_eq h.issuing).2.2.1
  have hlegal : (vOk i.wv (a.toNat + 3) && sOk i.wv b.toNat && (callDsts dst).all fun x => vDst i.wv x.2) = true := by
    rw [ha, hb, List.all_eq_true.mpr hd]
    rfl
  have hthawed : ¬(s.partOf i.grp.ctx).any Part.frozen = true := by
    rw [Option.any_eq_true]
    rintro ⟨p, hp, hfrozen⟩
    rw [hf.thawed p hp] at hfrozen
    cases hfrozen
  refine (State.issue_go h hlegal).trans ?_
  dsimp only
  rw [hf.free]
  dsimp only
  rw [if_neg hthawed]
  refine (if_neg (Nat.not_le_of_lt hf.room)).trans ?_
  rw [State.popPorts_none hwave hp, State.waveNow, hwave]
  rfl

/-! ## VTRACE (R222) -/

/-- A fold whose every step appends one entry to a list. -/
theorem foldl_appends {σ α β γ : Type} (field : σ → List β) {f : σ → α → σ} {key : β → γ} {val : α → γ} {P : β → Prop} (l : List α)
    (h : ∀ s, ∀ a ∈ l, ∃ b, field (f s a) = field s ++ [b] ∧ key b = val a ∧ P b) (s : σ) :
    ∃ bs, field (l.foldl f s) = field s ++ bs ∧ bs.map key = l.map val ∧ ∀ b ∈ bs, P b := by
  induction l generalizing s with
  | nil => exact ⟨[], (List.append_nil _).symm, rfl, nofun⟩
  | cons a l ih =>
    obtain ⟨b, hb, hkey, hPb⟩ := h s a List.mem_cons_self
    obtain ⟨bs, hbs, hkeys, hP⟩ := ih (fun s x hx => h s x (List.mem_cons_of_mem _ hx)) (f s a)
    refine ⟨b :: bs, ?_, ?_, List.forall_mem_cons.mpr ⟨hPb, hP⟩⟩
    · rw [List.foldl_cons, hbs, hb, List.append_assoc, List.singleton_append]
    · rw [List.map_cons, List.map_cons, hkey, hkeys]

/-- The sources of VTRACE: a ray in V[a] to V[a + 7], and S[b]. -/
def traceSrcs (a b : BitVec 7) (ea eb : Bool) : List Src := rowSrcs a.toNat 8 ea ++ [⟨1, true, b.toNat, 1, .bit, eb⟩]

/-- What VTRACE reads of source k in lane l. -/
def traceValue (v : Wave) (srcs : List Src) (k l : Nat) : Nat := ((srcs.map (readSrc v)).getD k ([], [])).1.getD l 0

theorem traceValue_eq (v : Wave) (a b : BitVec 7) (ea eb : Bool) {k l : Nat} (hk : k < 8) (hl : l < 32) :
    traceValue v (traceSrcs a b ea eb) k l = laneOperand v .fp32 (a.toNat + k) l := by
  rw [traceValue, traceSrcs, getD_map_rowSrcs _ hk, readSrc_lane _ _ _ _ _ _ hl]

/-- The ray that lane l enters, from what the lane reads. -/
def Iss.rayOf (i : Iss) (d : BitVec 7) (f : BitVec 2) (x scene : Nat) (get : Nat → Nat → Nat) (id l : Nat) : Ray :=
  ⟨id, wedgeOf i.grp.core, i.grp.core, i.grp.ctx, i.ln.id, i.c.g, i.c.w, l, i.fr.live, d.toNat, scene, f.getLsbD 0 && !i.ln.det, ebit x 17,
    ebit x 16, BitVec.ofNat 8 (x / 2 ^ 8), (List.range 3).map fun k => get k l, (List.range 3).map fun k => get (3 + k) l, get 6 l, get 7 l,
    none, if rayRefused ((List.range 3).map fun k => get k l) ((List.range 3).map fun k => get (3 + k) l) (get 6 l) (get 7 l) then 0 else 1, []⟩

/-- A ray enters its wedge: it lands at once where it is refused (R210), else it visits the root treelet first. -/
def State.enterRay (s : State) (r : Ray) : State :=
  let u : State := { s.fresh with rays := s.rays ++ [r] }
  if rayRefused r.o r.d r.tmin r.tcur then u.push .rayResultLands { a := r.id }
  else ({ u with visits := u.visits ++ [⟨r.id, r.wedge, 0, r.tmin, none, 0⟩] } : State).push .treeletVisit { a := r.wedge }

theorem State.enterRay_eq (s : State) (r : Ray) :
    (s.enterRay r).rays = s.rays ++ [r] ∧ (s.enterRay r).mem = s.mem ∧ (s.enterRay r).waves = s.waves := by
  unfold State.enterRay
  dsimp only
  split <;> exact ⟨rfl, rfl, rfl⟩

/-- The wave with more flags set (R149). -/
def Wave.addFlags (v : Wave) (fl : FpFlags) : Wave := { v with regs := { v.regs with fpflags := v.regs.fpflags ||| fl } }

/-- The scene that VTRACE names in S[b]. -/
def Iss.sceneOf (i : Iss) (s : State) (b : BitVec 7) : Shape := s.shapeOf i.grp.ctx ((i.wv.sreg b.toNat).val.toNat % 256)

/-- The state once each lane's ray has entered (R222). -/
def Iss.traced (i : Iss) (s : State) (d a b : BitVec 7) (ea eb : Bool) (f : BitVec 2) : State :=
  (lanesOf i.fr.live).foldl (fun u l => u.enterRay (i.rayOf d f (i.wv.sreg b.toNat).val.toNat (i.sceneOf s b).base
      (traceValue i.wv (traceSrcs a b ea eb)) u.seq l))
    (s.updCur i fun w => w.addFlags (readFlags i.wv i.fr.live (traceSrcs a b ea eb)))

section
variable {s : State} {i : Iss} {d a b : BitVec 7} {ea eb : Bool} {f : BitVec 2}

theorem Iss.traced_mem : (i.traced s d a b ea eb f).mem = s.mem :=
  foldl_keeps State.mem _ (fun u _ _ => (u.enterRay_eq _).2.1) _

theorem Iss.traced_wave (h : s.wave? i.c.g i.c.w = some i.wv) : (i.traced s d a b ea eb f).wave? i.c.g i.c.w =
    some (i.wv.addFlags (readFlags i.wv i.fr.live (traceSrcs a b ea eb))) :=
  (congrArg (List.find? _) (foldl_keeps State.waves _ (fun u _ _ => (u.enterRay_eq _).2.2) _)).trans
    (State.wave?_updWave h fun _ => ⟨rfl, rfl⟩)

/-- What a lane's ray takes from the lane. -/
theorem Iss.rayOf_eq (i : Iss) (d a b : BitVec 7) (ea eb : Bool) (f : BitVec 2) (x scene id : Nat) {l : Nat} (hl : l < 32) :
    let r := i.rayOf d f x scene (traceValue i.wv (traceSrcs a b ea eb)) id l
    let at_ := fun k l => laneOperand i.wv .fp32 (a.toNat + k) l
    (r.lane, r.o, r.d, r.tmin, r.tcur, r.dst, r.scene) =
      (l, [at_ 0 l, at_ 1 l, at_ 2 l], [at_ 3 l, at_ 4 l, at_ 5 l], at_ 6 l, at_ 7 l, d.toNat, scene) := by
  have hv {k : Nat} (hk : k < 8) := traceValue_eq i.wv a b ea eb hk hl
  dsimp only [Iss.rayOf]
  rw [← hv (k := 0) (by decide), ← hv (k := 1) (by decide), ← hv (k := 2) (by decide), ← hv (k := 3) (by decide), ← hv (k := 4) (by decide),
    ← hv (k := 5) (by decide), ← hv (k := 6) (by decide), ← hv (k := 7) (by decide)]
  rfl

theorem Iss.traced_rays :
    let at_ := fun k l => laneOperand i.wv .fp32 (a.toNat + k) l
    ∃ rs, (i.traced s d a b ea eb f).rays = s.rays ++ rs ∧
      rs.map (fun r => (r.lane, r.o, r.d, r.tmin, r.tcur, r.dst, r.scene)) = (lanesOf i.fr.live).map (fun l =>
        (l, [at_ 0 l, at_ 1 l, at_ 2 l], [at_ 3 l, at_ 4 l, at_ 5 l], at_ 6 l, at_ 7 l, d.toNat, (i.sceneOf s b).base)) ∧
      ∀ r ∈ rs, r.hit = none ∧ r.any = (f.getLsbD 0 && !i.ln.det) ∧ r.who = i.fr.live :=
  foldl_appends State.rays (lanesOf i.fr.live)
    (fun u _ hl => ⟨_, (u.enterRay_eq _).1, i.rayOf_eq d a b ea eb f _ _ _ (mem_lanesOf.mp hl).1, rfl, rfl, rfl⟩) _

/-- VTRACE's checks pass (R222): its operands, its scene, no access that it waits for, and places for its rays. -/
structure TraceUnit (s : State) (i : Iss) (d a b : BitVec 7) (ea eb : Bool) : Prop where
  word : WordUnit s i {} false (traceSrcs a b ea eb) ((List.range 4).map fun k => (false, d.toNat + k))
  ray : vOk i.wv (a.toNat + 7) = true
  dsts : ∀ k < 4, vDst i.wv (d.toNat + k) = true
  arg : sOk i.wv b.toNat = true
  spans : d.toNat + 4 ≤ a.toNat ∨ a.toNat + 8 ≤ d.toNat
  unported : noPorts i.wv (traceSrcs a b ea eb)
  scene : (i.sceneOf s b).fmt = 15
  free : s.accessWait i.c.g i.c.w false true = none
  room : (s.rays.filter fun r => r.wedge == wedgeOf i.grp.core).length + (lanesOf i.fr.live).length ≤ 262144

theorem TraceUnit.legal (h : TraceUnit s i d a b ea eb) : (vOk i.wv (a.toNat + 7) && ((List.range 4).all fun k => vDst i.wv (d.toNat + k)) &&
    sOk i.wv b.toNat && !spansMeet d.toNat 4 a.toNat 8) = true := by
  have hmeet : spansMeet d.toNat 4 a.toNat 8 = false := by
    have := h.spans
    simp only [spansMeet, Bool.and_eq_false_iff, decide_eq_false_iff_not]
    omega
  rw [h.ray, h.arg, hmeet, List.all_eq_true.mpr fun k hk => h.dsts k (List.mem_range.mp hk)]
  rfl

theorem TraceUnit.exec (h : TraceUnit s i d a b ea eb) (f : BitVec 2) : exec (.vtrace d a b ea eb f) s =
    .next (((i.traced s d a b ea eb f).updCur i fun w => w.emptySpan d.toNat 4 i.fr.live).retire i) := by
  have hview := State.portView_none (s := s) (i := i) h.unported
  have hpop := State.popPorts_none (State.iss?_eq h.word.issuing).2.2.1 h.unported
  unfold traceSrcs rowSrcs at hview hpop
  refine (State.issue_go h.word h.legal).trans ((if_neg (not_not.mpr h.scene)).trans ?_)
  dsimp only
  rw [h.free]
  refine (if_neg (Nat.not_lt_of_le h.room)).trans ?_
  rw [hview, hpop, List.foldl_map]
  rfl

/-- The wave as VTRACE leaves it: its four destinations are empty for the lanes of F. -/
theorem TraceUnit.wave (h : TraceUnit s i d a b ea eb) (f : BitVec 2) (hd : ∀ k < 4, d.toNat + k < i.wv.vregs.length) :
    ∃ v, (((i.traced s d a b ea eb f).updCur i fun w => w.emptySpan d.toNat 4 i.fr.live).retire i).wave? i.c.g i.c.w = some v ∧
      (∀ k < 4, v.vreg (d.toNat + k) = { i.wv.vreg (d.toNat + k) with pend := i.fr.live }) ∧ v.sregs = i.wv.sregs :=
  State.emptied_wave (Iss.traced_wave (State.iss?_eq h.word.issuing).2.2.1) i.fr.live hd

end

/-! ## VSAMPLE (R225 to R229) -/

theorem eachMem_congr {α β : Type} {f g : State → α → MemRes β} (l : List α) (h : ∀ x ∈ l, ∀ s, f s x = g s x) (s : State) :
    eachMem f l s = eachMem g l s := by
  induction l generalizing s with
  | nil => rfl
  | cons x l ih =>
    have htail : (fun s => eachMem f l s) = fun s => eachMem g l s := funext fun s => ih (fun y hy => h y (List.mem_cons_of_mem _ hy)) s
    rw [eachMem, eachMem, h x List.mem_cons_self]
    exact congrArg _ (funext₂ fun s y => congrArg (fun k : State → MemRes (List β) => (k s).andThen fun s ys => .ok s (y :: ys)) htail)

/-- A lane's texels from the lanes' u and v, and from its λ where the form brings one. -/
def samplePlan (r : Shape) (x : Nat) (f : BitVec 2) (us vs : List Nat) (lam : Nat → Nat) (l : Nat) : Plan :=
  lanePlan r (sampleArgs x) (f == 3) (us.getD l 0) (vs.getD l 0) (if f = 1 then some (quadLambda r us vs l) else if f = 2 then some (lam l) else none)

theorem samplePlan_congr {r : Shape} {x : Nat} {f : BitVec 2} {us vs : List Nat} {lam mu : Nat → Nat} {l : Nat} (h : f = 2 → lam l = mu l) :
    samplePlan r x f us vs lam l = samplePlan r x f us vs mu l := by
  unfold samplePlan
  by_cases hf : f = 2
  · rw [h hf]
  · rw [if_neg hf, if_neg hf]

/-- The sources of VSAMPLE: n coordinates from V[a] on, and S[b]. -/
def sampleSrcs (a b : BitVec 7) (ea eb : Bool) (n : Nat) : List Src := rowSrcs a.toNat n ea ++ [⟨1, true, b.toNat, 1, .bit, eb⟩]

/-- The coordinates that form f of VSAMPLE reads: LOD has a third. -/
def sampleCount (f : BitVec 2) : Nat := if f = 2 then 3 else 2

/-- The texels of a lane from the values that VSAMPLE read. -/
def valuesPlan (r : Shape) (x : Nat) (f : BitVec 2) (vals : List (List Nat)) (l : Nat) : Plan :=
  samplePlan r x f (vals.getD 0 []) (vals.getD 1 []) (fun l => (vals.getD 2 []).getD l 0) l

/-- The texels of a lane from the wave's registers. -/
def Iss.planOf (i : Iss) (r : Shape) (x : Nat) (a : BitVec 7) (f : BitVec 2) (l : Nat) : Plan :=
  samplePlan r x f ((List.range 32).map fun l => laneOperand i.wv .fp32 a.toNat l)
    ((List.range 32).map fun l => laneOperand i.wv .fp32 (a.toNat + 1) l) (fun l => laneOperand i.wv .fp32 (a.toNat + 2) l) l

theorem valuesPlan_eq (i : Iss) (r : Shape) (x : Nat) (a b : BitVec 7) (ea eb : Bool) (f : BitVec 2) {l : Nat} (hl : l < 32) :
    valuesPlan r x f ((sampleSrcs a b ea eb (sampleCount f)).map fun q => (readSrc i.wv q).1) l = i.planOf r x a f l := by
  have hcount : 2 ≤ sampleCount f := by
    unfold sampleCount
    split <;> decide
  have hrow {k : Nat} (hk : k < sampleCount f) : ((sampleSrcs a b ea eb (sampleCount f)).map fun q => (readSrc i.wv q).1).getD k [] =
      (List.range 32).map fun l => laneOperand i.wv .fp32 (a.toNat + k) l :=
    (getD_map_rowSrcs (fun q => (readSrc i.wv q).1) hk _ _).trans (readSrc_lanes ..)
  unfold valuesPlan
  rw [hrow (k := 0) (by omega), hrow (k := 1) (by omega)]
  refine samplePlan_congr fun hf => ?_
  rw [hrow (k := 2) (by rw [sampleCount, if_pos hf]; decide)]
  simp [List.getD_eq_getElem?_getD, List.getElem?_range hl]

/-- The state once the texels of a VSAMPLE have been read: its sample waits until they land, and V[d] to V[d + 3] are empty (R229). -/
def State.sampleFiled (u : State) (i : Iss) (d : BitVec 7) (rs : List (Nat × List Nat)) : State :=
  (({ u.fresh with samples := u.samples ++ [⟨u.seq, i.c.g, i.c.w, d.toNat, i.fr.live, i.fr.live,
    (List.range 32).map fun l => match rs.find? fun q => q.1 == l with | some q => q.2 | none => []⟩] } : State).pushAll
      (laneEvents .sampleResultLands u.seq i.fr.live)).updCur i fun v => v.emptySpan d.toNat 4 i.fr.live

/-- The addresses of the texels of the lanes of F, in ascending order within each lane. -/
def Iss.texelAddrs (i : Iss) (r : Shape) (plan : Nat → Plan) : List (Nat × DWord) :=
  (lanesOf i.fr.live).flatMap fun l => (sortInts ((plan l).coords.map r.addrOf)).map fun a => (l, BitVec.ofInt 64 a)

/-- The texels of the lanes of F are read, a lane after another. -/
def State.readTexels (s : State) (i : Iss) (r : Shape) (x : Nat) (plan : Nat → Plan) : MemRes (List (Nat × List Nat)) :=
  eachMem (fun s l => (s.sampleLane i r (sampleArgs x) l (plan l)).andThen fun s y => .ok s (l, y)) (lanesOf i.fr.live) s

theorem Iss.texelAddrs_congr {i : Iss} {r : Shape} {p q : Nat → Plan} (h : ∀ l < 32, p l = q l) : i.texelAddrs r p = i.texelAddrs r q :=
  List.flatMap_congr fun l hl => by rw [h l (mem_lanesOf.mp hl).1]

theorem State.readTexels_congr {s : State} {i : Iss} {r : Shape} {x : Nat} {p q : Nat → Plan} (h : ∀ l < 32, p l = q l) :
    s.readTexels i r x p = s.readTexels i r x q :=
  eachMem_congr _ (fun l hl s => by rw [h l (mem_lanesOf.mp hl).1]) s

/-- VSAMPLE's checks pass (R225, R260): its operands, its image and layer, no access that it waits for, and no range of a command. -/
structure SampleUnit (s : State) (i : Iss) (d a b : BitVec 7) (ea eb : Bool) (f : BitVec 2) (r : Shape) (x : Nat) : Prop where
  word : WordUnit s i {} false (sampleSrcs a b ea eb (sampleCount f)) ((List.range 4).map fun k => (false, d.toNat + k))
  coords : ∀ k < sampleCount f, vOk i.wv (a.toNat + k) = true
  dsts : ∀ k < 4, vDst i.wv (d.toNat + k) = true
  arg : sOk i.wv b.toNat = true
  unported : noPorts i.wv (sampleSrcs a b ea eb (sampleCount f))
  named : x = (i.wv.sreg b.toNat).val.toNat ∧ r = s.shapeOf i.grp.ctx (x % 256)
  image : sampleImage r = true
  layer : (sampleArgs x).layer < r.size 3
  free : s.accessWait i.c.g i.c.w false false = none
  unlocked : s.lockTrap i.grp.ctx none false (fmtBytes r.fmt) (i.texelAddrs r (i.planOf r x a f)) (·.toNat) = none

section
variable {s u : State} {i : Iss} {d a b : BitVec 7} {ea eb : Bool} {f : BitVec 2} {r : Shape} {x : Nat} {rs : List (Nat × List Nat)}

theorem SampleUnit.legal (h : SampleUnit s i d a b ea eb f r x) : (((List.range (sampleCount f)).all fun k => vOk i.wv (a.toNat + k)) &&
    ((List.range 4).all fun k => vDst i.wv (d.toNat + k)) && sOk i.wv b.toNat) = true := by
  rw [List.all_eq_true.mpr fun k hk => h.coords k (List.mem_range.mp hk), List.all_eq_true.mpr fun k hk => h.dsts k (List.mem_range.mp hk), h.arg]
  rfl

theorem SampleUnit.exec (h : SampleUnit s i d a b ea eb f r x) (hread : s.readTexels i r x (i.planOf r x a f) = .ok u rs) :
    exec (.vsample d a b ea eb f) s = .next ((u.sampleFiled i d rs).retire i) := by
  obtain ⟨rfl, rfl⟩ := h.named
  have hview := State.portView_none (s := s) (i := i) h.unported
  have hpop := State.popPorts_none (State.iss?_eq h.word.issuing).2.2.1 h.unported
  have hplan (r : Shape) (x : Nat) : ∀ l < 32, valuesPlan r x f ((sampleSrcs a b ea eb (sampleCount f)).map fun q => (readSrc i.wv q).1) l =
    i.planOf r x a f l := fun l hl => valuesPlan_eq i r x a b ea eb f hl
  have hlock := h.unlocked
  rw [← State.readTexels_congr (hplan _ _)] at hread
  rw [← Iss.texelAddrs_congr (hplan _ _)] at hlock
  simp only [sampleSrcs, rowSrcs, sampleCount] at hview hpop
  simp only [sampleSrcs, rowSrcs, sampleCount, State.readTexels, Iss.texelAddrs, valuesPlan, samplePlan] at hread hlock
  refine (State.issue_go h.word h.legal).trans ((if_neg (by rw [h.image]; decide)).trans ((if_neg (Nat.not_le_of_lt h.layer)).trans ?_))
  dsimp only
  rw [h.free]
  dsimp only
  rw [hview, hpop]
  rw [hlock]
  dsimp only
  rw [hread]
  rfl

end

/-! ## SPLAT (R234) -/

/-- What SPLAT asks of its arguments: a range of tiles, a list of records, and an image (R234). -/
structure SplatArgs (x y : DWord) (list out : Shape) : Prop where
  columns : 1 ≤ y.toNat / 2 ^ 32 % 2 ^ 16 ∧ y.toNat / 2 ^ 32 % 2 ^ 16 ≤ 256
  rows : 1 ≤ y.toNat / 2 ^ 48 ∧ y.toNat / 2 ^ 48 ≤ 256
  records : list.fmt = 2 ∧ list.space = 0 ∧ 12 ≤ list.size 0
  count : x.toNat / 2 ^ 32 ≤ list.size 1
  image : out.fmt = 14 ∧ out.space = 0

/-- The bytes of a shape that a command reads or writes. -/
def Shape.span (r : Shape) : Ext := ⟨none, r.extent.1.toNat, r.extent.2.toNat⟩

/-- The command of a SPLAT. -/
def Iss.splatCmd (i : Iss) (s : State) (x y bar : DWord) (list out : Shape) : Cmd :=
  { i.cmd s 4 4 x y 0 0 (y.toNat / 2 ^ 32 % 2 ^ 16 * (y.toNat / 2 ^ 48)) false bar with
    unit := wedgeOf i.grp.core, payload := leBytes 64 list.toNat ++ leBytes 64 out.toNat ++ leBytes 4 i.wv.regs.opthr.toNat }

theorem State.barRefused_none {s : State} {i : Iss} {bar : DWord} (h : bar = 0 ∨ i.grp.barForm bar = true) : s.barRefused i bar = none := by
  refine if_neg ?_
  rcases h with h | h <;> simp [h]

theorem engineTake_go {s : State} {i : Iss} {c : Cmd} {srcs dsts : List Ext} (h : s.engineWait i c.engine srcs dsts = none) (kick : Event) :
    engineTake s i c srcs dsts kick = .next ((s.addCmd i c srcs dsts [kick]).retire i) := by
  rw [engineTake, h]

section
variable {s u : State} {i : Iss} {a b c : BitVec 7}

theorem exec_splat {x y bar : DWord} {list out : Shape} (ha : sOk i.wv a.toNat = true) (hb : sOk i.wv b.toNat = true)
    (hc : sOk i.wv c.toNat = true) (hx : (i.wv.sreg a.toNat).val = x) (hy : (i.wv.sreg b.toNat).val = y) (hbar : (i.wv.sreg c.toNat).val = bar)
    (hlist : s.shapeOf i.grp.ctx (x.toNat % 256) = list) (hout : s.shapeOf i.grp.ctx (x.toNat / 256 % 256) = out)
    (hargs : SplatArgs x y list out) (htoken : s.tokenWord i out.span = none)
    (h : EngineUnit s i [usrc 0 a .bit, usrc 1 b .bit, usrc 2 c .bit] 4 bar [list.span] [out.span]) :
    exec (.splat a b c) s = .next ((s.addCmd i (i.splatCmd s x y bar list out) [list.span] [out.span]
      [⟨.splatCommandRun, { a := wedgeOf i.grp.core }⟩]).retire i) := by
  subst hx hy hbar hlist hout
  obtain ⟨hcols, hrows, ⟨hlf, hls, hlw⟩, hcount, hof, hos⟩ := hargs
  refine (State.issue_go h.word (by rw [ha, hb, hc]; rfl)).trans ?_
  refine (if_neg ?_).trans ((if_neg ?_).trans ((if_neg ?_).trans ?_))
  · have hrange {n : Nat} (hn : 1 ≤ n ∧ n ≤ 256) : (decide (1 ≤ n) && decide (n ≤ 256)) = true := by simp [hn]
    dsimp only
    rw [hrange hcols, hrange hrows, decide_eq_false (Nat.not_lt_of_le hcount)]
    decide
  · simp [hlf, hls, hlw]
  · simp [hof, hos]
  dsimp only
  rw [State.barRefused_none h.barrier]
  unfold Shape.span at htoken
  dsimp only
  rw [htoken]
  exact engineTake_go h.free _

/-! ## PRESS (R356, R365) -/

theorem State.loadBytes_length {s : State} {core pa n : Nat} {bs : List Byte} (h : s.loadBytes core pa n = some bs) : bs.length = n := by
  induction n generalizing pa bs with
  | zero => rw [← Option.some.inj h]; rfl
  | succ n ih =>
    unfold State.loadBytes at h
    split at h
    · cases h
    · split at h
      · cases h
      · next hs =>
        rw [← Option.some.inj h, List.length_cons, ih hs]

theorem RecordRead.length {va : DWord} {n : Nat} {bs : List Byte} (h : RecordRead s i va n u bs) : bs.length = n := by
  obtain ⟨_, _, _, hbytes⟩ := h.reached
  exact State.loadBytes_length hbytes

/-- A PRESS reads its record: its operands are ready, its accesses are free, and its partition is known. -/
structure PressUnit (s : State) (i : Iss) (a b c : BitVec 7) (u : State) (r : List Byte) (p : Part) : Prop where
  word : WordUnit s i {} true [usrc 1 b .bit, usrc 2 c .bit] [(true, a.toNat)]
  status : sOk i.wv a.toNat = true
  record : sOk i.wv b.toNat = true
  press : sOk i.wv c.toNat = true
  free : s.accessWait i.c.g i.c.w false true = none
  read : RecordRead s i (i.wv.sreg b.toNat).val 64 u r
  part : u.partOf i.grp.ctx = some p

/-- The press that S[c] names. -/
def Iss.pressOf (i : Iss) (c : BitVec 7) : Nat := (i.wv.sreg c.toNat).val.toNat % 8

/-- The shapes that a press's record names. -/
def State.pressShapes (u : State) (i : Iss) (r : List Byte) : Shape × Shape :=
  (u.shapeOf i.grp.ctx (recBits r 2 0 8), u.shapeOf i.grp.ctx (recBits r 2 8 8))

/-- What the press answers as the record is read. -/
def State.pressAnswer (u : State) (i : Iss) (p : Part) (c : BitVec 7) (r : List Byte) : Nat :=
  u.pressStatus p (i.pressOf c) r (u.pressShapes i r).1 (u.pressShapes i r).2

/-- The command of a PRESS. -/
def Iss.pressCmd (i : Iss) (u : State) (c : BitVec 7) (r : List Byte) : Cmd :=
  let (inn, out) := u.pressShapes i r
  let tiles : Nat := if rcSum r then (inn.count + 1023) / 1024 else (inn.size 0 + 7) / 8 * ((inn.size 1 + 7) / 8)
  { i.cmd u 5 3 0 0 0 0 tiles false (BitVec.ofNat 64 (recBits r 3 0 64)) with
    unit := i.pressOf c, detail := BitVec.ofNat 64 (rcCollid r * 2 ^ 32), payload := r ++ leBytes 64 inn.toNat ++ leBytes 64 out.toNat }

/-- The collective that a PRESS starts: its losses stop it where the record says so, or the partition's mode does. -/
def State.pressColl (u : State) (p : Part) (r : List Byte) : Coll :=
  ⟨u.seq, p.n, BitVec.ofNat 64 (leNat (r.take 8)), recBits r 0 10 2 == 1 || (recBits r 0 10 2 == 0 && !p.mode.getLsbD 8),
    [], [], [], 0, false, false⟩

/-- The state once the press has taken the command and its collective. -/
def State.pressTaken (u : State) (i : Iss) (p : Part) (c : BitVec 7) (r : List Byte) : State :=
  let t := u.addCmd i (i.pressCmd u c r) [(u.pressShapes i r).1.span] [(u.pressShapes i r).2.span]
    [⟨.pressCollectiveStart, { a := i.pressOf c }⟩]
  { t with colls := t.colls ++ [u.pressColl p r] }

/-- The status of a PRESS fills S[a], and its word retires. -/
def State.pressFilled (u : State) (i : Iss) (a : BitVec 7) (st : Nat) : State :=
  (u.updCur i fun v => v.setS a.toNat (BitVec.ofNat 64 st) tI32).retire i

variable {r : List Byte} {p : Part}

theorem PressUnit.refused (h : PressUnit s i a b c u r p) (hst : u.pressAnswer i p c r ≠ 0) :
    exec (.press a b c) s = .next (u.pressFilled i a (u.pressAnswer i p c r)) := by
  refine (State.issue_go h.word (by rw [h.status, h.record, h.press]; rfl)).trans ?_
  dsimp only
  rw [h.free]
  dsimp only
  rw [h.read.go, h.part]
  exact if_pos hst

theorem PressUnit.taken (h : PressUnit s i a b c u r p) (hst : u.pressAnswer i p c r = 0) (htoken : u.tokenWord i (u.pressShapes i r).2.span = none)
    (hwait : u.engineWait i 5 [(u.pressShapes i r).1.span] [(u.pressShapes i r).2.span] = none) :
    exec (.press a b c) s = .next ((u.pressTaken i p c r).pressFilled i a (u.pressAnswer i p c r)) := by
  refine (State.issue_go h.word (by rw [h.status, h.record, h.press]; rfl)).trans ?_
  dsimp only
  rw [h.free]
  dsimp only
  rw [h.read.go, h.part]
  refine (if_neg (not_not.mpr hst)).trans ?_
  simp only [Shape.span, State.pressShapes] at htoken hwait
  rw [htoken]
  dsimp only
  rw [hwait]
  rfl

theorem PressUnit.cmd_record (h : PressUnit s i a b c u r p) : (i.pressCmd u c r).pressRec = r.take 64 := by
  show (r ++ _ ++ _).take 64 = _
  rw [List.append_assoc, List.take_append_of_le_length h.read.length.ge]

end

end Sys2Proof.Machine
end

section
open Sys2Proof Sys2Proof.Machine Host

/-- Settles O44: each word passes its checks, and what it files is read off its own equation (`serviceWord_go`, `TraceUnit.exec`,
`SampleUnit.exec`, `exec_splat`, `PressUnit.refused` and `PressUnit.taken`). -/
theorem engineWords : Obligations.EngineWords := by
  unfold Obligations.EngineWords
  refine ⟨?service, ?trace, ?sample, ?splat, ?press⟩
  case service =>
    intro s i d a b ea eb srcs wheel part q filed ha hb hports hfree hthawed hroom
    have hf : CallFree s i := ⟨hfree, hthawed, hroom⟩
    refine ⟨fun h => ?_, fun h hd hd' => ?_⟩
    · exact (serviceWord_go (dst := none) h ha hb nofun hports hf).trans
        (congrArg (fun t : State => Outcome.next (t.retire i)) (State.updCur_self _ i))
    · exact serviceWord_go (dst := some d.toNat) h ha hb (by simp [callDsts, hd, hd']) hports hf
  case trace =>
    intro s i d a b ea eb f srcs x at_ h hray hdsts harg hspans hports hscene hfree hroom
    have hu : TraceUnit s i d a b ea eb := ⟨h, hray, fun k hk => (hdsts k hk).1, harg, hspans, hports, hscene, hfree, hroom⟩
    obtain ⟨rs, hrays, hkeys, hstart⟩ := Iss.traced_rays (s := s) (i := i) (d := d) (a := a) (b := b) (ea := ea) (eb := eb) (f := f)
    obtain ⟨v, hwave, hempty, hsregs⟩ := hu.wave f fun k hk => (hdsts k hk).2
    exact ⟨_, v, rs, hu.exec f, hrays, Iss.traced_mem, hwave, hkeys, hstart, hempty, hsregs⟩
  case sample =>
    intro s i d a b ea eb f u rs nc srcs x r us vs plan h hcoords hdsts harg hports himage hlayer hfree hlock hread
    have hu : SampleUnit s i d a b ea eb f r x := ⟨h, hcoords, hdsts, harg, hports, ⟨rfl, rfl⟩, himage, hlayer, hfree, hlock⟩
    exact hu.exec hread
  case splat =>
    intro s i a b c ha hb hc x y bar list out txn tyn src dst hx hx' hy hy' hlf hls hlw hcount hof hos htoken h
    exact exec_splat ha hb hc rfl rfl rfl rfl rfl ⟨⟨hx, hx'⟩, ⟨hy, hy'⟩, ⟨hlf, hls, hlw⟩, hcount, hof, hos⟩ htoken h
  case press =>
    intro s i a b c u r p ha hb hc hword hfree hread hpart press inn out st src dst
    have hu : PressUnit s i a b c u r p := ⟨hword, ha, hb, hc, hfree, hread, hpart⟩
    refine ⟨hu.refused, fun hst htoken hwait => ?_⟩
    have hst : u.pressAnswer i p c r = 0 := hst
    have hexec := hu.taken hst htoken hwait
    rw [hst] at hexec
    exact ⟨_, i.pressCmd u c r, u.pressColl p r, hexec, rfl, rfl, rfl, rfl, hu.cmd_record, rfl, rfl, rfl, rfl, rfl⟩

end
